-- ==== Sys2Proof/Word.lean ====
section
/-!
DEFINITION. The words of the Deuno: bytes, halfwords, 32-bit words, and the two bit helpers every other
file uses. Bit ranges are written as the manual writes them (00_scope: bit 0 is the least significant).
-/
namespace Sys2Proof

/-- One byte lane (R42). -/
abbrev Byte := BitVec 8

/-- One halfword: a host register (R395) or one SYNC16 beat (R106). -/
abbrev Half := BitVec 16

/-- One 32-bit word: a fabric word (R41) or a bank word (R410). -/
abbrev Word := BitVec 32

/-- Is the number of ones in the low `n` bits odd? -/
def oddOnes (n v : Nat) : Bool :=
  match n with
  | 0 => false
  | k + 1 => xor (v % 2 == 1) (oddOnes k (v / 2))

end Sys2Proof
end

