-- ==== Sys2Proof/Syntax.lean ====
section
/-!
DEFINITION. The commands of the block: one constructor of Instr for each of the 169 rows of spec/opcode_table.json,
in the table's order. The table gives rows neither bits nor operands; the operands are those the row's rules name:
which port, router, link or domain the event concerns, and what the outside party puts on the pins. An arriving packet is
no operand: it stands in State, where UNIT_TRANSFER delivered it. DESIGN CHOICE, assumption 1.
-/
namespace Sys2Proof

/-- The four copies of the mesh (01). -/
inductive Net where
  | req | dat | rsp | snp
  deriving DecidableEq, Repr

/-- The five sides of a router, in the cyclic order of R63. -/
inductive Dir where
  | north | east | south | west | loc
  deriving DecidableEq, Repr

/-- The two seam rings (R166). -/
inductive Ring where
  | a | b
  deriving DecidableEq, Repr

/-- The on-chip links of one network (R16): from a slot's NI or agent into its router, from a router output to
the neighbour on that side, from the local output to slot A (false) or slot B (true). -/
inductive Link where
  | inject (net : Net) (node : BitVec 7)
  | hop (net : Net) (router : Fin 64) (out : Dir)
  | deliver (net : Net) (router : Fin 64) (slot : Bool)
  deriving DecidableEq, Repr

/-- The arbiters of a router on one network: one per output (R62) and the local input's choice of slot (R61). -/
inductive ArbName where
  | out (d : Dir)
  | localIn
  deriving DecidableEq, Repr

/-- What a FLAT8 or MUX16 device drives for one access (R98): strobes, CS_N, BHE_N, address A[23:0] and write data. -/
structure PinAccess where
  rdN  : Bool
  wrN  : Bool
  csN  : Bool
  bheN : Bool
  addr : BitVec 24
  data : Half
  deriving DecidableEq, Repr

/-- One SYNC16 beat as driven by the device (R106): PA[7:0] and PD[15:0]. -/
structure Beat where
  pa : Byte
  pd : Half
  deriving DecidableEq, Repr

/-- One read cycle or read beat answered by an attached target device: its data, SYNC16's PA[0] mark and LAST (R106, R469). -/
structure DevBeat where
  pd   : Half
  bad  : Bool
  last : Bool
  deriving DecidableEq, Repr

/-- Who holds a tag: a port's NI, or the shared pool of the system agents (R37). -/
inductive Holder where
  | port (n : Fin 64)
  | agents
  deriving DecidableEq, Repr

/-- How a write to a SYS word comes: a host bus cycle with this data (for a bank word: the high-half cycle of WINDATA,
R411), or the oldest request that SYS's slot holds on this network (R422). -/
inductive By where
  | host (hd : Half)
  | fabric (net : Net)
  deriving DecidableEq, Repr

/-- A register access: host register `ha` written with `hd`, or the oldest fabric request at SYS. -/
inductive RegWrite where
  | host (ha : BitVec 6) (hd : Half)
  | fabric (net : Net)
  deriving DecidableEq, Repr

/-- A register read: host register `ha`, or the oldest fabric request at SYS. -/
inductive RegRead where
  | host (ha : BitVec 6)
  | fabric (net : Net)
  deriving DecidableEq, Repr

/-- What a chip sends the ring master about a client: a learned claim, a pin the host just wrote, a pin sent at a splice
(R202, R203). -/
inductive ClaimKind where
  | learned | pinNow | pinSplice
  deriving DecidableEq, Repr

/-- Where a client claim comes from: the oldest claim waiting at this chip's SYS, or, at the ring master, the SYS of
another chip (R147, R202). -/
inductive ClaimFrom where
  | here
  | chip (chip : BitVec 8) (port : Fin 64) (cid : BitVec 8) (kind : ClaimKind)
  deriving DecidableEq, Repr

/-- The subject of a wake ladder rung (R292): the chip, or a domain 0-67. -/
inductive Subject where
  | chip
  | dom (d : Fin 68)
  deriving DecidableEq, Repr

/-- The commands: one per row of spec/opcode_table.json, in its order. -/
inductive Instr where
  | unitTransfer (l : Link) (noise : BitVec 49)
  | routerHeadArrival (net : Net) (r : Fin 64) (inp : Dir)
  | outputGrant (net : Net) (r : Fin 64) (arb : ArbName) (mask : BitVec 5)
  | bulkPromotion (net : Net) (r : Fin 64) (arb : ArbName) (cand : Fin 5)
  | delayLineSwap (r : Fin 64) (tap : BitVec 6)
  | isoFrameBoundary
  | accessCapture (n : Fin 64) (acc : PinAccess)
  | strobeRelease (n : Fin 64)
  | sync16Read (n : Fin 64) (c1 c2 : Beat)
  | sync16Write (n : Fin 64) (c1 c2 : Beat) (beats : List Beat)
  | sync16Swap (n : Fin 64) (c1 c2 : Beat) (o1 o2 : Beat)
  | sync16Fadd (n : Fin 64) (c1 c2 : Beat) (o1 o2 : Beat)
  | sync16Tas (n : Fin 64) (c1 c2 : Beat)
  | sync16Cas (n : Fin 64) (c1 c2 : Beat) (o1 o2 o3 o4 : Beat)
  | sync16Fence (n : Fin 64) (c1 c2 : Beat)
  | sync16Probe (n : Fin 64) (c1 c2 : Beat)
  | intakeDecode (n : Fin 64)
  | responseMatch (node : BitVec 7)
  | tagTimeout (h : Holder) (tag : BitVec 8)
  | staleTagExpiry (h : Holder) (tag : BitVec 8)
  | wakeRetry (n : Fin 64) (tag : BitVec 8)
  | cmdRead (node : BitVec 7) (busyN : Bool)
  | cmdWrite (node : BitVec 7) (net : Net) (busyN : Bool)
  | cmdSwap (node : BitVec 7) (busyN : Bool) (dev : List DevBeat)
  | cmdFadd (node : BitVec 7) (busyN : Bool) (dev : List DevBeat)
  | cmdTas (node : BitVec 7) (busyN : Bool) (dev : List DevBeat)
  | cmdCas (node : BitVec 7) (busyN : Bool) (dev : List DevBeat)
  | cmdProbe (node : BitVec 7)
  | cmdFence (node : BitVec 7)
  | fenceComplete (node : BitVec 7)
  | busClaim (n : Fin 64) (valid : Bool)
  | targetRequestDone (n : Fin 64) (dev : List DevBeat)
  | watchSendTimeout (n : Fin 64)
  | watchArrival (n : Fin 64) (busyN : Bool)
  | watchReplayTimeout (n : Fin 64)
  | watchReplayDone (n : Fin 64)
  | pirqActivation (n : Fin 64)
  | pirqRepeat (n : Fin 64)
  | pcfgWrite (n : Fin 64) (by_ : By)
  | pclkWrite (n : Fin 64) (by_ : By)
  | clockStopped (n : Fin 64)
  | seamUnit (ring : Ring) (t1 t2 t3 : BitVec 17)
  | credit (ring : Ring) (arg : Byte)
  | pulse (ring : Ring) (arg : Byte)
  | pulseTimer
  | joinSlot (sample : Half)
  | pause
  | quiet (ring : Ring)
  | resume
  | join (chip : Byte)
  | grant (chip : Byte)
  | leave (chip : Byte)
  | release (chip : Byte)
  | rollstart
  | roll (chip : Byte)
  | rollend
  | table (chip : Byte)
  | dup (chip : Byte)
  | eject (chip : Byte)
  | ringFaultMsg (chip : Byte)
  | abort (ring : Ring)
  | abortRepeat
  | masterSelfSplice (pulseSeen : Bool)
  | nopulse
  | ringtoExpiry
  | ringctlLeave (by_ : By)
  | ringctlReform (by_ : By)
  | clientClaim (from_ : ClaimFrom)
  | directoryWrite (c : Byte) (by_ : By)
  | directoryCopy (dir : List (Byte × Word)) (auth : List (Byte × Byte))
  | authorityCopy (schip ochip ocid : Byte) (words : List (Byte × Byte))
  | portrstNotice (net : Net)
  | lockRead
  | lockRelease (net : Net)
  | txstart (net : Net)
  | txdata (net : Net)
  | rxdone (net : Net)
  | flush (net : Net)
  | bobStatWrite (net : Net)
  | doorbellWrite (net : Net)
  | dbclr (net : Net)
  | bcfgWrite (b : Fin 64) (by_ : By)
  | hostBobFlush (hd : Half)
  | hostBobDone (hd : Half)
  | hostDoorbell (hd : Half)
  | bobdataRead
  | voteWrite (net : Net)
  | votePaceExpiry (voter : Fin 257) (d : Fin 64)
  | hostVote (hd : Half)
  | wakeRequest (net : Net)
  | wakeHoldExpiry (d : Fin 64)
  | domcmdWrite (d : Fin 68) (by_ : By)
  | hemDrainDone (d : Fin 68)
  | draintoExpiry (d : Fin 68)
  | wakeHoldoffExpiry (d : Fin 64)
  | pstateWrite (by_ : By)
  | regulatorPoll (ack : Bool) (status : Half)
  | regtoExpiry
  | ralert (status : Half)
  | rungReady (sub : Subject)
  | rungTimeout (sub : Subject)
  | rungRetry (sub : Subject)
  | pllLoss
  | supplyWarning (vcore vaon : Bool)
  | hushEnd (minv : BitVec 11) (duration : BitVec 20)
  | vcoreReset
  | vnvWarning
  | vnvRecover
  | vioLow (k : Fin 8)
  | powerOn (rise : Bool)
  | resetPin
  | time0Read
  | rtcsec0Read
  | rtcsec0Write (hd : Half)
  | rtcsec1Write (hd : Half)
  | alarm0Read
  | alarm0Write (hd : Half)
  | alarm1Write (hd : Half)
  | rtcsecsWrite (net : Net)
  | alarmsecsWrite (net : Net)
  | alarmDisarm (by_ : By)
  | rtcStep
  | patrolDue
  | tackReadDone
  | rtcStopDetect
  | targetTimeout (n : Fin 64)
  | isolateGo (n : Fin 64) (by_ : By)
  | portQuietExpiry (n : Fin 64)
  | basteWrite (by_ : By)
  | stitch (by_ : By)
  | abandon (by_ : By)
  | journalArrayWrite (readsBack : Bool) (pick : Nat)
  | jrnhead0Read
  | snapshot (by_ : By)
  | freeze (by_ : By)
  | thaw (by_ : By)
  | clear (by_ : By)
  | gatherDone
  | cselWrite (by_ : By)
  | cvalRead
  | bwWindowBoundary
  | clrpeak (n : Fin 64) (by_ : By)
  | windataRead
  | windataWrite (hd : Half)
  | hostFence (by_ : By)
  | registerWrite (w : RegWrite)
  | registerReadClear (r : RegRead)
  | resetPort (by_ : By)
  | resetSys (by_ : By)
  | resetChip (by_ : By)
  | resetRing (by_ : By)
  | ringResetNotice (schip : Byte)
  | ringResetDelay
  | extest (pins : List Bool)
  | idcode
  | samplePreload (pins : List Bool)
  | highz
  | clamp
  | bypass
  | tapTestExit
  | ctlpar (ring : Ring) (d : Half)
  | ringManagementResend
  | ringResetNoAnswer
  | resetRelease
  | vioRecover (k : Fin 8)
  | pirqDeactivation (n : Fin 64)
  | ralertRelease
  | rpgoodChange (level : Bool)
  | sync16ReservedOp (n : Fin 64) (c1 c2 : Beat)
  deriving DecidableEq, Repr

end Sys2Proof
end

