-- ==== Sys2Proof/Config.lean ====
section
/-!
DEFINITION. What the board or the physics fixes and the spec leaves open: the chip strap and the free values.
Neither constant has a body, so nothing can be proved about its value.
-/
namespace Sys2Proof

/-- The level of the straps CID[7:0] (R183, R451), read at every reset that covers the SEAM domain. The board
ties it, so it is one unknown constant of the part as built. DESIGN CHOICE, assumption 11, safe. -/
opaque Config.strap : BitVec 8

/-- Free values: what an event leaves open (R370: a torn journal entry is any mixture of two entries). The k-th value drawn
in a run is `Config.freeBits k`. DESIGN CHOICE, assumption 10, safe. -/
opaque Config.freeBits : Nat → BitVec 128

end Sys2Proof
end

