-- ==== Sys2Proof/Machine/State.lean ====
section
/-!
DEFINITION. The state of one Deuno as plain data, its reset, and the reasons a step can stop. Every field names the rule of
spec/ that gives it; INVENTORY.md lists them with their reset values. Large tables (ports, domains, tags, bank words, the
journal array, counters) are sparse: a list of (key, value) with keys strictly rising and no entry equal to what an unlisted
key reads as (Machine/Table.lean keeps that form).
-/
namespace Sys2Proof.Machine

/-- Sparse data by key, in one canonical form. -/
abbrev Table (α : Type) := List (Nat × α)

/-- The status of a transaction (R51). -/
inductive Status where
  | ok | decerr | isolated | asleep | aslWaking | rights | timeout | poison | flushed | dupcid | ringbreak | busy
  deriving DecidableEq, Repr

/-- A unit on a link: LNK_D[47:0] and LNK_P (R16). -/
structure LinkUnit where
  d : BitVec 48
  p : Bool
  deriving DecidableEq, Repr

/-- A data unit as its receiver reads it (R41); `bad`: parity error or POISON (R23, R44). -/
structure DataUnit where
  data : Word
  be   : BitVec 4
  bad  : Bool
  deriving DecidableEq, Repr

/-- A packet as its receiver reads it: the head unit's fields (R33), the address unit's (R38), the data units (R41).
`formed` is false when a unit's type breaks R32 or LEN counts other units than came. -/
structure Pkt where
  dchip   : Byte
  dnode   : BitVec 7
  snode   : BitVec 7
  cmd     : BitVec 6
  cls     : BitVec 2
  tag     : Byte
  hasAddr : Bool
  addrBad : Bool
  schip   : Byte
  cid     : Byte
  addr    : BitVec 30
  data    : List DataUnit
  formed  : Bool
  deriving DecidableEq, Repr

/-- Between a node's NI or agent and its router, on one network: units still to drive, units of the packet arriving,
packets arrived and not yet taken (R79, R80, R83, R271). -/
structure NodeQ where
  out  : List LinkUnit
  part : List LinkUnit
  rx   : List Pkt
  deriving DecidableEq, Repr

/-- Who asks SYS or BOB for an access: the host bus, or a fabric request by its SCHIP, SNODE and CID (R39, R351). -/
inductive Origin where
  | host
  | fab (schip : Byte) (snode : BitVec 7) (cid : Byte)
  deriving DecidableEq, Repr

/-- The kind of an access of an initiator port (R96, R107, R134). -/
inductive AccKind where
  | read | write | swap | fadd | tas | cas | fence | probe
  deriving DecidableEq, Repr

/-- An access of an initiator port, before decode: first byte P (R128), bytes covered, the bytes and enables to write
(operand bytes of an atomic follow each other), client ID (R147), posted at entry (R470). -/
structure Access where
  kind   : AccKind
  p      : BitVec 24
  len    : Nat
  bytes  : List (Byte × Bool)
  cid    : Byte
  posted : Bool
  deriving DecidableEq, Repr

/-- What a device on an initiator port sees of its access (R98, R109): nothing in progress, waiting with WAIT_N or READY
low, ended (its read data and status), ended with the strobe still low. -/
inductive DevPhase where
  | idle | waiting | ended
  deriving DecidableEq, Repr

/-- The device side of an initiator port: phase, the bytes its read returned in address order, status as on
PA[3:0] (R113). -/
structure DevBus where
  phase : DevPhase
  rdata : List Byte
  stat  : Status
  deriving DecidableEq, Repr

/-- An access whose packets are out (R141): how it looked, how many of its tags are still HELD, the lowest-addressed
failure so far, the words read so far by part number. -/
structure Outst where
  acc    : Access
  faddr  : BitVec 32
  left   : Nat
  failed : Option (Nat × Status)
  rd     : List (Nat × List Word)
  deriving DecidableEq, Repr

/-- One packet of an access (R466): its command, word address and data units. -/
structure Part where
  cmd  : BitVec 6
  addr : BitVec 30
  data : List DataUnit
  deriving DecidableEq, Repr

/-- The access at the front of the intake once it is decoded (R127, R129): its number, destination, class, WAKE, the packets still
to form. -/
structure Front where
  id    : Nat
  dchip : Byte
  dnode : BitVec 7
  cls   : BitVec 2
  wake  : Bool
  sent  : Nat
  parts : List Part
  deriving DecidableEq, Repr

/-- What a HELD tag was taken for: a packet of an access, a claim, a wake request, a forwarded interrupt; for an agent tag a FENCE
(with the fabric write that asked for it and its word's place in that write; none for the host), a patrol's read or doorbell, the fault doorbell, a port-reset notice. -/
inductive TagUse where
  | access (id part : Nat)
  | claim (cid : Byte)
  | wakeReq (tag : Byte)
  | pirq
  | fence (req : Option (Pkt × Nat))
  | tackRead
  | tackBell
  | faultBell
  | notice (chip : Byte) (port : Nat)
  deriving DecidableEq, Repr

/-- The state of a tag (R139). -/
inductive TagSt where
  | free | held | stale
  deriving DecidableEq, Repr

/-- One of an initiator's 256 tags: its state, the destination and command it was taken for, whether a later request must
wait behind it (R143), whether a wake is to be requested (R144), whether a resend is due (R144 step 5), the network and the
packet for a resend. -/
structure Tag where
  st    : TagSt
  dchip : Byte
  dnode : BitVec 7
  cmd   : BitVec 6
  wr    : Bool
  wake  : Bool
  retry : Bool
  net   : Net
  pkt   : List LinkUnit
  use   : TagUse
  deriving DecidableEq, Repr

/-- The tags of one initiator: the tags that are not FREE, and the FREE ones in the order they became so (R139). -/
structure TagPool where
  tags : Table Tag
  free : List Byte
  deriving DecidableEq, Repr

/-- A client mark at a port (R147). -/
inductive Mark where
  | unclaimed | claimed | refused
  deriving DecidableEq, Repr

/-- A bus cycle or beat that the Deuno drives on an attached target device: write or read, bus address, data, enables. -/
structure BusCycle where
  write : Bool
  addr  : BitVec 24
  data  : Half
  en    : BitVec 2
  deriving DecidableEq, Repr

/-- The request a target NI is performing (R115), the network it came on, its outcome so far, the data to return, the words it
wrote (for the watch match, R212). -/
structure TgtReq where
  pkt   : Pkt
  net   : Net
  stat  : Status
  words : List Word
  wrote : List DataUnit
  deriving DecidableEq, Repr

/-- A watch replay (R217, R218): the packet, and whether its bus cycles run. -/
structure Replay where
  pkt     : Pkt
  running : Bool
  deriving DecidableEq, Repr

/-- The working state of one port's NI (R436: "port n working state"), beside its retention words in `State.cfg`. -/
structure PortSt where
  pclkLive   : Word                -- R93: the divider in force
  bus        : DevBus              -- R98, R109, R113
  captured   : Option Access       -- R98 step 6: recognised, waiting for a free intake entry
  intake   : List Access         -- R112: two entries, oldest first
  front    : Option Front        -- R129: decode of the oldest entry, once taken
  accs       : Table Outst         -- R141
  nextAcc    : Nat                 -- numbers accesses as they leave the intake (the model's own)
  pool       : TagPool             -- R138, R139
  opc        : Half                -- R134
  opn        : Half
  marks      : Table Mark          -- R147
  perr       : Word                -- R114
  sdrop      : Bool                -- R221
  rdrop      : Bool
  nomap      : Bool
  drops      : Half
  wmark      : Word                -- R220, R221
  dead       : Bool                -- R342
  cause      : BitVec 5
  swallow    : Half
  clockStop  : Bool                -- R163, R164: the bus half is in local reset
  quiet      : Bool                -- R341, R431: one RTO since the declaration or reset has not passed
  isoLeft    : Half                -- R74, R75
  tgt        : Option TgtReq       -- R115
  cycles     : List BusCycle       -- R97, R101, R110: the cycles run for the current target request or replay
  fences     : List Pkt            -- R47: FENCEs waiting
  claimed    : Bool                -- R111: DIR 1
  claiming   : Bool                -- R111 step 1: READY low, waiting for the bus
  wsend    : List Pkt            -- R214: the send buffer, behind the notification being driven
  wheld    : List Pkt            -- R214: notifications of a request that waits for the buffer
  replay     : Option Replay       -- R217
  pirqIn     : Bool                -- R119: PIRQ seen active
  fwdOut     : Bool                -- R120: a forwarded write is outstanding
  fwdDue     : Bool
  bytesRd    : Word                -- R157, R393: bytes since the last boundary
  bytesWr    : Word
  lastRd     : Word                -- R394
  lastWr     : Word
  peakRd     : Word
  peakWr     : Word
  lvalid     : Bool
  pvalid     : Bool
  wholeWin   : Bool                -- R394: the domain was ON for the whole window so far
  deriving DecidableEq, Repr

/-- The state of a power domain (R251). -/
inductive DomState where
  | off | waking | on | hemming | fault
  deriving DecidableEq, Repr

/-- Where hemming stands (R269): drain (steps 1, 2) or powering off (steps 3 to 5). -/
inductive HemStep where
  | none | drain | powerOff
  deriving DecidableEq, Repr

/-- One power domain (R251 to R274). `rung` counts from 0 as DOMSTAT.RUNG does. -/
structure Dom where
  st      : DomState
  rung    : BitVec 2
  retried : Bool                 -- R295: the rung's one retry is taken
  rest    : Bool                 -- R295: the rung failed once, and its retry has not begun
  hem     : HemStep
  cmdOn   : Bool                 -- DOMCMD.CMD is ON (0b01), else OFF (0b10)
  voted   : Bool                 -- DOMCMD.POLICY is VOTED (0)
  votes   : List Nat             -- the voters that hold a vote: 0-255 clients, 256 the host, rising (R256)
  hold    : Bool                 -- R263: the wake hold runs
  holdAt  : BitVec 48            -- timestamp at which the domain reached ON with the hold
  holdMs  : Half                 -- length of the hold that runs
  forced  : Bool                 -- DOMSTAT.FORCED
  holdOff : Bool                 -- R274: one response timeout since a forced drain has not passed
  deriving DecidableEq, Repr

/-- A lock's holder: (SCHIP, CID) and its port (SCHIP, SNODE) (R238). -/
structure Lock where
  schip : Byte
  snode : BitVec 7
  cid   : Byte
  deriving DecidableEq, Repr

/-- A committed message (R233, R235). -/
structure Msg where
  lenM1 : BitVec 3
  seq   : BitVec 4
  stag  : Byte
  scid  : Byte
  schip : Byte
  words : List Word
  deriving DecidableEq, Repr

/-- The open assembly (R231): its sender, its START descriptor and the words taken so far. -/
structure Asm where
  schip : Byte
  cid   : Byte
  lenM1 : BitVec 3
  dbbit : BitVec 4
  stag  : Byte
  words : List Word
  deriving DecidableEq, Repr

/-- One bobbin (R224), beside its BCFG in `State.cfg`. -/
structure Bobbin where
  msgs  : List Msg               -- oldest first
  asm   : Option Asm
  epoch : BitVec 4
  seq   : BitVec 4               -- the next message's SEQ
  coll  : Bool
  bell  : Half
  lock  : Option Lock
  deriving DecidableEq, Repr

/-- Where the packet in a router input goes (R59): an output, and at the local output a slot (true is B). -/
structure Route where
  out  : Dir
  slot : Bool
  deriving DecidableEq, Repr

/-- A packet that a slot absorbs (R14, R275, R338): its head, its answer (none: discarded), answered already, units left. -/
structure Absorb where
  head   : Pkt
  answer : Option Status
  done   : Bool
  left   : Nat
  deriving DecidableEq, Repr

/-- One router input on one network (R17, R19, R22, R59). -/
structure RIn where
  latch   : Option LinkUnit
  route   : Option Route
  left    : Nat                  -- following units of its packet still to come
  discard : Bool                 -- R22: discarding up to the next good head
  absorb  : Option Absorb
  deriving DecidableEq, Repr

/-- One arbiter (R61 to R67): who holds it and for how many more units, the slot served last (local input), the last contender
granted per class, passes counted per contender (8: due to compete as STD, 9: that promotion counted), contenders that were
waiting when the arbiter began to resolve (R65). -/
structure Arb where
  holder : Option Nat
  left   : Nat
  slot   : Bool
  ptr    : List Nat
  passes : Table Nat
  waited : List Nat
  deriving DecidableEq, Repr

/-- A router's two delay lines (R25): line B in service, tap codes, a swap due (a MESH wake, a PSTATE change), handshakes per
output (keyed net × 5 + side) since the last swap, held at 4,096. -/
structure Delay where
  lineB : Bool
  tapA  : BitVec 6
  tapB  : BitVec 6
  due   : Bool
  shakes : Table Nat
  deriving DecidableEq, Repr

/-- The mesh: inputs keyed (net, router, side), arbiters keyed (net, router, arbiter), delay lines keyed by router, and the
NI side of every slot keyed (node, net). -/
structure Mesh where
  ins    : Table RIn
  arbs   : Table Arb
  delays : Table Delay
  nodes  : Table NodeQ
  deriving DecidableEq, Repr

/-- One channel on a gateway's input side (R171, R175): its latch, following units still to come into it, whether the first
following unit is still to come, where its packet goes, and whether part of the packet has left the latch. -/
structure SeamIn where
  latch  : Option LinkUnit
  left   : Nat
  first  : Bool
  toMesh : Bool
  drop   : Bool
  busy   : Bool
  deriving DecidableEq, Repr

/-- One channel on a gateway's output side (R175, R177, R178): the credit, the unit taken from the mesh and not yet sent, the
arbiter between seam input and mesh (its holder: the input channel 0-7, or 8 for the mesh), units left of the packet coming in
from the mesh. -/
structure SeamOut where
  credit  : Bool
  fromMsh : Option LinkUnit
  arb     : Arb
  inLeft  : Nat                  -- following units of the mesh packet still to come
  inDrop  : Bool                 -- the mesh packet is discarded (R181, R182)
  deriving DecidableEq, Repr

/-- One seam gateway and its ring: channel inputs and outputs keyed 0-7, the round-robin pointer, and the transfers handed to
the output side (SxFR is bit 16), oldest first. -/
structure Gate where
  ins  : Table SeamIn
  outs : Table SeamOut
  rr   : Nat
  tx   : List (BitVec 17)
  quietSeen : Nat                -- master: QUIET laps returned
  abortSeen : Nat                -- master: ABORTs returned
  pulseOut  : Bool               -- master: its pulse has not returned
  deriving DecidableEq, Repr

/-- RINGSTAT.STATE (R205). -/
inductive RingState where
  | alone | waiting | spliced | orphan
  deriving DecidableEq, Repr

/-- What the ring master is doing (R193, R196, R201). -/
inductive MasterOp where
  | idle
  | pauseFor (splice : Bool) (chip : Byte)
  | quietFor (splice : Bool) (chip : Byte)
  | grantFor (splice : Bool) (chip : Byte)
  | rollCall
  | reform
  deriving DecidableEq, Repr

/-- Why this chip unsplices (R196, R276, R434). -/
inductive LeaveWhy where
  | none | leave | seamOff | chipReset
  deriving DecidableEq, Repr

/-- The ring as one chip sees it (08). -/
structure RingSt where
  st       : RingState
  dupFlag  : Bool
  fault    : Bool
  paused   : Bool                -- RINGSTAT.PAUSED
  stopped  : Bool                -- R193 step 2, R200 step 1: starts no packet onto a seam
  pos      : Byte
  joinEn   : Bool                -- RINGCTL
  leaveBit : Bool
  slotEn   : Bool
  reform   : Bool
  bypass   : Bool                -- R207: the pass devices conduct
  chips    : List Byte           -- the ring-order table, position 0 first (R186)
  cause    : BitVec 4            -- R206
  count    : Half
  resync   : Bool                -- R200
  rolls    : List Byte           -- master: ROLLs received; R187
  tables   : List Byte           -- TABLE entries since ROLLEND
  granted  : Bool                -- granted in this pause (R188)
  rollTurn : Bool                -- own ROLL sent in this roll call
  dupFound : Bool                -- R188: owes a DUP; at the master: roll call is to be repeated
  attempt  : Nat                 -- R192
  pulses   : Nat                 -- pulses seen since the last attempt
  asking   : Bool                -- R190: drives its request word in this slot
  slotOpen : Bool                -- R190: a join slot is open
  op       : MasterOp
  leaves   : List Byte           -- master: LEAVEs that came during a pause (R193 lets only JOIN be ignored)
  leaveWhy : LeaveWhy
  gateA    : Gate
  gateB    : Gate
  deriving DecidableEq, Repr

/-- An access that waits on internal state (R80, R399, R423): a host write cycle, or a fabric request at SYS of which the
first `done` words are applied. -/
inductive Held where
  | host (ha : BitVec 6) (hd : Half)
  | hostWord (bank : Byte) (idx : Half) (v : Word)
  | fab (p : Pkt) (done : Nat)
  deriving DecidableEq, Repr

/-- Why an access waits; `turn`: nothing any more, it enters the arbiter again (R423). -/
inductive Wait where
  | staging | gather | reset | fence | stitch | turn
  deriving DecidableEq, Repr

/-- A vote write held for pacing (R257, R258): the voter's vote, and whom to answer. -/
structure Stall where
  dom  : Nat
  cast : Bool
  req  : Option (Pkt × Nat)      -- the fabric write and the word's place in it; none: the host's bus cycle
  deriving DecidableEq, Repr

/-- A STITCH that has passed its checks (R358): its origin, the fabric write to answer and the word's place in it, entries still to
be placed in staging, and, once these are in, the authority words that wait for the master (R354). -/
structure Stitch where
  who  : Origin
  req  : Option (Pkt × Nat)
  left : List (Nat × Word)
  auth : List (Byte × Byte)
  deriving DecidableEq, Repr

/-- A client claim at SYS (R147): the port of this chip, or the claiming chip at the master (R202). -/
structure Claim where
  chip : Byte
  port : Nat
  cid  : Byte
  tag  : Byte
  deriving DecidableEq, Repr

/-- The scopes of RESETSCOPE (R408). -/
inductive Scope where
  | port | sys | chip | ring
  deriving DecidableEq, Repr

/-- A request that SYS has formed and that waits for a tag or behind the hazard rule (R142, R143). -/
structure AgentReq where
  dchip : Byte
  dnode : BitVec 7
  cmd   : BitVec 6
  cls   : BitVec 2
  addr  : BitVec 30
  data  : List DataUnit
  use   : TagUse
  deriving DecidableEq, Repr

/-- A FENCE that waits at an agent's node (R47), with the requests that the agent accepted before it and had not finished. -/
structure AgentFence where
  node   : BitVec 7
  pkt    : Pkt
  before : List Pkt
  claims : List Claim
  deriving DecidableEq, Repr

/-- SYS (01, 06, 15, 17, 18), beside its bank words in `State.cfg`. -/
structure Sys where
  claims    : List Claim          -- R147
  forwarded : List Claim          -- R202: sent to the master
  refuseN   : Half                -- R353
  refuseCid : Byte
  refuseWhy : BitVec 4
  refuseSeen : Bool
  basted    : Table Word          -- R356: (bank, index) as one key
  baster    : Option Origin
  result    : BitVec 4            -- R359, R417
  stitch    : Option Stitch       -- R358: a STITCH in progress
  fenceStat : BitVec 4            -- R417
  fenceVal  : Bool
  fenceBusy : Bool                -- R418: one FENCE at a time
  agents    : TagPool             -- R37, R138
  queued    : List AgentReq       -- R142, R143: requests of SYS not yet driven, oldest first
  held      : List (Wait × Held)  -- R367, R386, R399, R437
  admitHost : Bool                -- R367: the last admission to staging went to the host side
  stalls    : Table (Option Stall)  -- R258: one slot per voter
  voteWait  : List (Nat × Stall)  -- R258: waiting for their voter's slot
  pacing    : Table Bool          -- R257: (domain, voter) whose interval runs
  bellOut   : Bool                -- R349
  bellDue   : Bool
  notices   : List (Byte × Nat)   -- R240: port-reset notices (chip told, port) not yet answered OK
  fences    : List AgentFence     -- R47
  scopes    : Table Byte          -- R427: RESETSCOPE per origin, key 256 the host
  last      : BitVec 4            -- R409
  busy      : Bool
  portRst   : Option Nat          -- R430: a PORT reset runs
  ringWait  : Bool                -- R435: the ring-reset delay runs
  ringAsk   : Bool                -- R435: the master's answer is awaited
  event     : BitVec 9            -- R406
  eventEn   : BitVec 9
  eventLate : BitVec 9            -- R407: events that occurred while SYS was not ON
  deriving DecidableEq, Repr

/-- The host bus (17): selectors, latches, phases. -/
structure HostIf where
  hd       : Half                 -- data last driven
  waitLow  : Bool                 -- HRDY held low by a waiting access (R399)
  winsel   : Byte                 -- R410
  winaddr  : Half
  inc      : Bool                 -- R413
  phase    : Bool
  phaseRd  : Bool                 -- the direction that set PHASE
  refused  : Bool
  decerr   : Bool
  asleep   : Bool
  rlatch   : Half                 -- R411
  wlatch   : Half
  domsel   : BitVec 7             -- R264
  votesel  : BitVec 9             -- R267
  faultsel : BitVec 7             -- R343
  isoport  : BitVec 6             -- R340
  bobsel   : BitVec 6             -- R419
  bobitem  : BitVec 4
  bobclr   : Bool
  bobphase : Bool
  boblatch : Half
  jptr     : BitVec 20            -- R372
  jlatch   : Half                 -- JRNHEAD1 latch
  timeL    : Word                 -- R311: timestamp [47:16]
  cvLatch  : Option (Nat × Word)  -- R383
  rtcStage : Half                 -- R313
  rtcHi    : Half
  rtcFrac  : BitVec 10
  alStage  : Half
  alHi     : Half
  deriving DecidableEq, Repr

/-- Body bias (R288). -/
inductive Bias where
  | zero | forward | reverse
  deriving DecidableEq, Repr

/-- What a voltage request is for (R283, R289, R292): a move between power states, or the chip ladder. -/
inductive VReq where
  | move (old new : BitVec 3)
  | ladder (code : BitVec 3)
  deriving DecidableEq, Repr

/-- Why the chip ladder runs (R425, R315). -/
inductive LadderWhy where
  | reset (last : BitVec 4)
  | patrol
  | leaveTack
  deriving DecidableEq, Repr

/-- Where the chip stands: held in reset (R426), running its chip ladder at a rung, running the MESH, SYS and NV ladders,
up, DEEP, TACKING between patrols (in a patrol it is up with a patrol in progress), chip fault (R297), unpowered. -/
inductive Mode where
  | unpowered | held | ladder (why : LadderWhy) (rung : BitVec 2) | core (why : LadderWhy) | up | deep | tacking | chipFault
  deriving DecidableEq, Repr

/-- The thimble's power state and supply watch (11, 12). -/
structure Power where
  mode     : Mode
  code     : BitVec 3             -- PSTATE
  cur      : BitVec 3
  lvl      : BitVec 3
  limp     : Bool
  bias     : Bias                 -- R288
  assist   : Bool
  vout     : Half                 -- mantissa last sent
  operOn   : Bool                 -- OPERATION 0x80
  req      : Option VReq          -- a request waits for its acknowledgement
  second   : Bool                 -- R284: its second attempt
  pgoodNow : Bool                 -- RPGOOD
  pgoodRun : Bool                 -- RPGOOD stayed high since the read in progress began
  alertLow : Bool                 -- RALERT_N is low
  alertGot : Bool                 -- R285: read for this fall
  lastWord : Half                 -- STATUS_WORD last read (R346)
  pec      : Bool                 -- REGLINK
  settle   : BitVec 4
  regto    : BitVec 4
  trim     : Byte                 -- VCORESET
  vcWarn   : Bool                 -- BROWN
  aonWarn  : Bool
  nvWarn   : Bool
  hush     : Bool
  seen     : Bool
  browns   : Byte
  hushAon  : Bool                 -- R305 RAIL
  vioLow   : Table Bool           -- R335
  regDone  : Bool                 -- R292: the chip ladder's regulator rung is ready, and a hush holds the next (R303)
  rstLow   : Bool                 -- R426: RESET_N is low
  ladderBad : Bool                -- R295, R425: an earlier chip ladder failed
  moving   : Option (BitVec 3)    -- R279: a move to TACKING or DEEP in progress
  movedJ   : Bool                 -- R279 step 3: its entry is made
  deriving DecidableEq, Repr

/-- What a patrol is doing (R324): its domains wake, step s is to start, its read or doorbell is out, matches are recorded, the
patrol ends. -/
inductive PatrolStep where
  | waking | next (s : Nat) | reading (s : Nat) | bell (s : Nat) | record | ending
  deriving DecidableEq, Repr

/-- Time and tacking (13). -/
structure Time where
  ts       : BitVec 48            -- R310
  rtcSec   : Word                 -- R312
  rtcFr    : BitVec 10
  alSec    : Word                 -- R313
  alFr     : BitVec 10
  armed    : Bool
  rtcHalt  : Bool                 -- R329: the RTC is seen not to step
  lastStep : BitVec 3             -- TACKCTL
  mstep    : BitVec 3             -- TACKSTAT
  mmatch   : Bool
  merr     : Bool
  mabandon : Bool
  jqfull   : Bool
  rtcstop  : Bool
  patrols  : Byte
  lastv    : Table Word           -- LASTV
  lvalid   : Byte
  patrol   : Option PatrolStep
  tackRes  : Option (Status × Word)  -- R323: the answer of the step's read
  matches_ : List (Nat × Word)    -- matches recorded in this patrol
  wakeHit  : Option (BitVec 3)    -- R326: WSTATE of the WAKE match
  wakeAfter : Option (BitVec 3)   -- R315, R316: CODE to take when the patrol completes
  sinceDue : Half                 -- RTC steps since the last patrol fell due (R327)
  due      : Bool                 -- a patrol fell due and waits (R303, R327)
  tackHeld : List (Nat × Word)    -- R320: writes to bank 0x83 made during a patrol
  isoLive  : Half                 -- R70
  isoCount : Half
  bwLive   : Half                 -- R392
  bwCount  : Half
  bwwin    : Half
  deriving DecidableEq, Repr

/-- A journal entry before it is written (R361), without its check byte. -/
structure Entry where
  ts     : BitVec 48
  ochip  : Byte
  ocid   : Byte
  okind  : BitVec 3
  tid    : Half
  value  : Word
  same   : Bool
  tinv   : Bool
  staged : Bool
  anchor : Bool
  deriving DecidableEq, Repr

/-- A fault to be recorded (R346). -/
structure FaultRaise where
  src    : Nat
  code   : BitVec 5
  detail : Half
  deriving DecidableEq, Repr

/-- A hardware change that waits for staging with its record (R367). -/
inductive HwWait where
  | entry (e : Entry)
  | fault (f : FaultRaise)
  deriving DecidableEq, Repr

/-- The journal (15): staging, thimble queue, array, header. -/
structure Journal where
  staging : List Entry            -- R366: oldest first
  queue   : List Entry            -- R317
  waiting : List HwWait           -- R367
  array   : Table (BitVec 128)    -- R368
  head    : BitVec 20
  passes  : Word
  vfail   : Word
  hdrHead : BitVec 20             -- R369: the header store
  hdrPass : Word
  lastTs  : Option (BitVec 48)    -- TS of the entry before (R364)
  newRun  : Bool                  -- R364: no entry yet in this ladder run
  level   : BitVec 2              -- LEVEL last raised (R372)
  deriving DecidableEq, Repr

/-- A fault record (R345). -/
structure FaultRec where
  code  : BitVec 5
  isNew : Bool
  count : Byte
  deriving DecidableEq, Repr

/-- The counters (16), beside the CSEL words in `State.cfg`. -/
structure Counters where
  value  : Table Word             -- R374, R375
  ovf    : Table Bool
  frozen : Bool                   -- R385
  busy   : Bool
  done   : Bool
  miss   : Bool
  seq    : BitVec 4
  shadow : Table Word             -- R390
  sovf   : Table Bool
  missP  : List Nat               -- ports missed
  edge   : Table Word             -- the values at the edge of the gather in progress
  edgeO  : Table Bool
  deriving DecidableEq, Repr

/-- The test access port (R459 to R461). -/
structure Tap where
  ir   : BitVec 4
  bsr  : List Bool
  test : Bool
  deriving DecidableEq, Repr

/-- The state of one Deuno. -/
structure State where
  pending   : List Instr          -- commands waiting, first in, first out
  freeCount : Nat                 -- free values drawn (the model's own)
  chipnum   : Byte                -- R183, R404
  power     : Power
  doms      : Table Dom
  ports     : Table PortSt
  cfg       : Table Word          -- read/write words of the banks (R415), key bank × 65536 + index
  mesh      : Mesh
  ring      : RingSt
  sys       : Sys
  bobs      : Table Bobbin
  host      : HostIf
  time      : Time
  jrn       : Journal
  faults    : Table FaultRec
  cnt       : Counters
  tap       : Tap
  deriving DecidableEq, Repr

/-- The reasons a step stops with a fault. -/
inductive Fault where
  /-- Raised by a meaning whose operands name no event that can occur (the checks of Sys2Proof.WellFormed: a link that leads
  off the grid, a beat list of a length no command has). Safe: no behaviour of the part is lost. -/
  | illFormed (mnemonic : String)
  deriving DecidableEq, Repr

/-- The reasons a step is refused. -/
inductive Refusal where
  /-- Raised by an arm of exec whose command has no meaning yet. Safe. -/
  | notModelled (mnemonic : String)
  deriving DecidableEq, Repr

def Arb.reset : Arb :=
  { holder := none, left := 0, slot := false, ptr := [4, 4, 4, 4], passes := [], waited := [] }

/-- An arbiter with two contenders: after a ladder its pointers name the last contender (R63). -/
def Arb.reset2 : Arb := { Arb.reset with ptr := [1, 1, 1, 1] }

def RIn.reset : RIn := { latch := none, route := none, left := 0, discard := false, absorb := none }

/-- R25: links run on tap code 63 until the first trim. -/
def Delay.reset : Delay := { lineB := false, tapA := 63, tapB := 63, due := true, shakes := [] }

def NodeQ.reset : NodeQ := { out := [], part := [], rx := [] }

def Mesh.reset : Mesh := { ins := [], arbs := [], delays := [], nodes := [] }

def SeamIn.reset : SeamIn := { latch := none, left := 0, first := false, toMesh := false, drop := false, busy := false }

def SeamOut.reset : SeamOut :=
  { credit := true, fromMsh := none, arb := Arb.reset2, inLeft := 0, inDrop := false }

def Gate.reset : Gate :=
  { ins := [], outs := [], rr := 7, tx := [], quietSeen := 0, abortSeen := 0, pulseOut := false }

def Tag.reset : Tag :=
  { st := .free, dchip := 0, dnode := 0, cmd := 0, wr := false, wake := false, retry := false, net := .req, pkt := [],
    use := .pirq }

/-- The FREE tags of an NI at reset. The spec gives no order for tags that were never used: DESIGN CHOICE, assumption 3. -/
def TagPool.reset : TagPool := { tags := [], free := (List.range 256).map (BitVec.ofNat 8) }

def DevBus.reset : DevBus := { phase := .idle, rdata := [], stat := .ok }

/-- The word that PCLK resets to: NDIV 200 (R91). -/
def pclkReset : Word := 0x00C80000

def PortSt.reset : PortSt :=
  { pclkLive := pclkReset, bus := DevBus.reset, captured := none, intake := [], front := none, accs := [], nextAcc := 0,
    pool := TagPool.reset, opc := 0, opn := 0, marks := [], perr := 0, sdrop := false, rdrop := false, nomap := false,
    drops := 0, wmark := 0, dead := false, cause := 0, swallow := 0, clockStop := false, quiet := false, isoLeft := 0,
    tgt := none, cycles := [], fences := [], claimed := false, claiming := false, wsend := [], wheld := [], replay := none,
    pirqIn := false, fwdOut := false, fwdDue := false, bytesRd := 0, bytesWr := 0, lastRd := 0, lastWr := 0, peakRd := 0,
    peakWr := 0, lvalid := false, pvalid := false, wholeWin := false }

/-- A port domain after reset: OFF, COMMANDED, CMD OFF (R265, R266). -/
def Dom.resetPort : Dom :=
  { st := .off, rung := 0, retried := false, rest := false, hem := .none, cmdOn := false, voted := false, votes := [], hold := false,
    holdAt := 0, holdMs := 0, forced := false, holdOff := false }

/-- MESH, SEAM, SYS and NV after reset: ON, CMD ON (R265, R266). -/
def Dom.resetCore : Dom := { Dom.resetPort with st := .on, cmdOn := true }

def Dom.resetOf (d : Nat) : Dom := if d < 64 then Dom.resetPort else Dom.resetCore

def Bobbin.reset : Bobbin :=
  { msgs := [], asm := none, epoch := 0, seq := 0, coll := false, bell := 0, lock := none }

/-- RINGSTAT, RINGCTL and bank 0x85 after reset (R186, R204 to R206). -/
def RingSt.reset (me : Byte) : RingSt :=
  { st := .alone, dupFlag := false, fault := false, paused := false, stopped := false, pos := 0, joinEn := true, leaveBit := false,
    slotEn := true, reform := false, bypass := true, chips := [me], cause := 0, count := 0, resync := false, rolls := [],
    tables := [], granted := false, rollTurn := false, dupFound := false, attempt := 0, pulses := 0, asking := false,
    slotOpen := false, op := .idle, leaves := [], leaveWhy := .none, gateA := Gate.reset, gateB := Gate.reset }

def Sys.reset : Sys :=
  { claims := [], forwarded := [], refuseN := 0, refuseCid := 0, refuseWhy := 0, refuseSeen := false, basted := [],
    baster := none, result := 0, stitch := none, fenceStat := 0, fenceVal := false, fenceBusy := false, agents := TagPool.reset, queued := [], held := [], admitHost := false,
    stalls := [], voteWait := [], pacing := [], bellOut := false, bellDue := false, notices := [], fences := [], scopes := [],
    last := 0, busy := false, portRst := none, ringWait := false, ringAsk := false, event := 0, eventEn := 0, eventLate := 0 }

/-- Host selectors and latches after reset; the latches the spec gives no value are 0: DESIGN CHOICE, assumption 6. -/
def HostIf.reset : HostIf :=
  { hd := 0, waitLow := false, winsel := 0, winaddr := 0, inc := true, phase := false, phaseRd := false, refused := false,
    decerr := false, asleep := false, rlatch := 0, wlatch := 0, domsel := 0, votesel := 256, faultsel := 0, isoport := 0,
    bobsel := 0, bobitem := 0, bobclr := false, bobphase := false, boblatch := 0, jptr := 0, jlatch := 0, timeL := 0,
    cvLatch := none, rtcStage := 0, rtcHi := 0, rtcFrac := 0, alStage := 0, alHi := 0 }

/-- PSTATE, REGLINK, VCORESET, BROWN after reset, at RUN (R278, R286, R287, R288, R308). -/
def Power.reset : Power :=
  { mode := .up, code := 4, cur := 4, lvl := 4, limp := false, bias := .zero, assist := false, vout := 0x1000, operOn := true,
    req := none, second := false, pgoodNow := true, pgoodRun := true, alertLow := false, alertGot := false, lastWord := 0,
    pec := false, settle := 4, regto := 2, trim := 0, vcWarn := false, aonWarn := false, nvWarn := false, hush := false,
    seen := false, browns := 0, hushAon := false, vioLow := [], regDone := false, rstLow := false, ladderBad := false, moving := none, movedJ := false }

def Time.reset : Time :=
  { ts := 0, rtcSec := 0, rtcFr := 0, alSec := 0, alFr := 0, armed := false, rtcHalt := false, lastStep := 0, mstep := 0,
    mmatch := false, merr := false, mabandon := false, jqfull := false, rtcstop := false, patrols := 0, lastv := [],
    lvalid := 0, patrol := none, tackRes := none, matches_ := [], wakeHit := none, wakeAfter := none, sinceDue := 0, due := false,
    tackHeld := [], isoLive := 1600, isoCount := 0, bwLive := 25000, bwCount := 0, bwwin := 25000 }

def Journal.reset : Journal :=
  { staging := [], queue := [], waiting := [], array := [], head := 0, passes := 0, vfail := 0, hdrHead := 0, hdrPass := 0,
    lastTs := none, newRun := false, level := 0 }

def FaultRec.reset : FaultRec := { code := 0, isNew := false, count := 0 }

def Counters.reset : Counters :=
  { value := [], ovf := [], frozen := false, busy := false, done := false, miss := false, seq := 0, shadow := [], sovf := [],
    missP := [], edge := [], edgeO := [] }

/-- The TAP at Test-Logic-Reset selects IDCODE (R459); the boundary register's length is not given: assumption 9. -/
def Tap.reset : Tap := { ir := 1, bsr := [], test := false }

/-- The machine right after a power-on reset, its start-up over: every register table's "After reset" column. -/
def State.reset : State :=
  { pending := [], freeCount := 0, chipnum := Config.strap, power := Power.reset, doms := [], ports := [], cfg := [],
    mesh := Mesh.reset, ring := RingSt.reset Config.strap, sys := Sys.reset, bobs := [], host := HostIf.reset,
    time := Time.reset, jrn := Journal.reset, faults := [], cnt := Counters.reset, tap := Tap.reset }

end Sys2Proof.Machine
end

