-- ==== Sys2Proof/Machine/Operands.lean ====
section
/-!
DEFINITION. The operand forms of the fabric: units, packets, commands and statuses, bit by bit (03), the SYNC16 command beats
(R106, R107), seam transfers and control transfers (R170 to R173), and the arithmetic of byte lanes and atomics (R42, R96, R135).
-/
namespace Sys2Proof.Machine

/-! ## Statuses, commands and kinds -/

/-- R51. -/
def statusCode : Status → BitVec 4
  | .ok => 0x0 | .decerr => 0x1 | .isolated => 0x2 | .asleep => 0x3 | .aslWaking => 0x4 | .rights => 0x5
  | .timeout => 0x6 | .poison => 0x7 | .flushed => 0x8 | .dupcid => 0x9 | .ringbreak => 0xA | .busy => 0xB

/-- R51: the status of a code; codes 0xC to 0xF are reserved. -/
def statusOf (c : BitVec 4) : Option Status :=
  match c.toNat with
  | 0 => some .ok | 1 => some .decerr | 2 => some .isolated | 3 => some .asleep | 4 => some .aslWaking | 5 => some .rights
  | 6 => some .timeout | 7 => some .poison | 8 => some .flushed | 9 => some .dupcid | 10 => some .ringbreak
  | 11 => some .busy | _ => none

/-- What a CMD on REQ or DAT asks (R45); `words` counts from 1. -/
inductive Op where
  | fence | probe | read (words : Nat) | write (words : Nat) | swap | fadd | tas | cas | reserved
  deriving DecidableEq, Repr

/-- R45. -/
def opOf (cmd : BitVec 6) : Op :=
  if cmd = 0x08 then .fence
  else if cmd = 0x09 then .probe
  else if cmd.toNat / 16 = 1 then .read (cmd.toNat % 16 + 1)
  else if cmd.toNat / 16 = 2 then .write (cmd.toNat % 16 + 1)
  else if cmd = 0x30 then .swap
  else if cmd = 0x31 then .fadd
  else if cmd = 0x32 then .tas
  else if cmd = 0x33 then .cas
  else .reserved

/-- R45: the CMD of an operation. -/
def cmdOf : Op → BitVec 6
  | .fence => 0x08 | .probe => 0x09
  | .read n => BitVec.ofNat 6 (0x10 + (n - 1)) | .write n => BitVec.ofNat 6 (0x20 + (n - 1))
  | .swap => 0x30 | .fadd => 0x31 | .tas => 0x32 | .cas => 0x33 | .reserved => 0x00

/-- A write or an atomic: the next request to the same destination waits behind it (R143). -/
def opWrites : Op → Bool
  | .write _ | .swap | .fadd | .tas | .cas => true
  | _ => false

/-- The response kind that R54 gives a request's CMD (R49, R50): ACK, RDATA, OLD, CTRL; a reserved CMD gives CTRL. -/
def kindOf : Op → BitVec 2
  | .write _ => 0 | .read _ => 1 | .swap | .fadd | .tas | .cas => 2 | .fence | .probe | .reserved => 3

/-- The data units of an OK response (R54). -/
def okUnits : Op → Nat
  | .read n => n | .swap | .fadd | .tas | .cas => 1 | _ => 0

/-- The data units of a request (R54). -/
def reqUnits : Op → Nat
  | .write n => n | .swap | .fadd | .tas => 1 | .cas => 2 | _ => 0

/-- R73: the charge of an ISO transaction. -/
def isoCharge : Op → Nat
  | .read n => n + 3 | .write n => n + 3 | .swap | .fadd | .tas => 5 | .cas => 6 | _ => 3

/-- The network of a request (R54): a one-word write travels on DAT in SPLIT mode, a longer one always. -/
def netOf (split : Bool) : Op → Net
  | .write n => if n = 1 ∧ split = false then .req else .dat
  | _ => .req

/-! ## Units (R31 to R44) -/

/-- R20: LNK_P makes the 49 bits hold an odd number of ones. -/
def parityOf (d : BitVec 48) : Bool := ! oddOnes 48 d.toNat

def unitOf (d : BitVec 48) : LinkUnit := { d := d, p := parityOf d }

/-- R21: a unit's parity holds. -/
def unitGood (u : LinkUnit) : Bool := u.p == parityOf u.d

/-- R33. -/
def headBits (dchip : Byte) (dnode snode : BitVec 7) (cmd : BitVec 6) (cls : BitVec 2) (len : BitVec 5) (tag : Byte) :
    BitVec 48 :=
  1#2 ++ dchip ++ dnode ++ snode ++ cmd ++ cls ++ len ++ tag ++ 0#3

/-- R38. -/
def addrBits (schip cid : Byte) (addr : BitVec 30) : BitVec 48 := 2#2 ++ schip ++ cid ++ addr

/-- R41; `last` gives type LAST. -/
def dataBits (last : Bool) (data : Word) (be : BitVec 4) (poison : Bool) : BitVec 48 :=
  (if last then 3#2 else 0#2) ++ data ++ be ++ (BitVec.ofBool poison) ++ 0#9

def utOf (d : BitVec 48) : BitVec 2 := d.extractLsb' 46 2
def hDchip (d : BitVec 48) : Byte := d.extractLsb' 38 8
def hDnode (d : BitVec 48) : BitVec 7 := d.extractLsb' 31 7
def hSnode (d : BitVec 48) : BitVec 7 := d.extractLsb' 24 7
def hCmd (d : BitVec 48) : BitVec 6 := d.extractLsb' 18 6
def hCls (d : BitVec 48) : BitVec 2 := d.extractLsb' 16 2
def hLen (d : BitVec 48) : BitVec 5 := d.extractLsb' 11 5
def hTag (d : BitVec 48) : Byte := d.extractLsb' 3 8
def aSchip (d : BitVec 48) : Byte := d.extractLsb' 38 8
def aCid (d : BitVec 48) : Byte := d.extractLsb' 30 8
def aAddr (d : BitVec 48) : BitVec 30 := d.extractLsb' 0 30
def dData (d : BitVec 48) : Word := d.extractLsb' 14 32
def dBe (d : BitVec 48) : BitVec 4 := d.extractLsb' 10 4
def dPoison (d : BitVec 48) : Bool := d.getLsbD 9

/-- R34: LEN 18 to 31 is reserved. -/
def lenGood (d : BitVec 48) : Bool := decide ((hLen d).toNat ≤ 17)

/-- A data unit as received: bad on a parity error or POISON (R23, R44). -/
def dataUnitOf (u : LinkUnit) : DataUnit :=
  { data := dData u.d, be := dBe u.d, bad := !unitGood u || dPoison u.d }

/-- R32: every data unit but the last is of type DATA, the last of type LAST. -/
def dataTypesOk : List LinkUnit → Bool
  | [] => true
  | [u] => utOf u.d == 3
  | u :: v :: t => utOf u.d == 0 && dataTypesOk (v :: t)

/-- The packet that a list of units spells, head first (R32, R33, R38, R41). -/
def parsePkt : List LinkUnit → Option Pkt
  | [] => none
  | h :: t =>
    let hasAddr := match t with | [] => false | u :: _ => utOf u.d == 2
    let au : BitVec 48 := match t with | [] => 0 | u :: _ => u.d
    let ag : Bool := match t with | [] => true | u :: _ => unitGood u
    let ds := if hasAddr then t.drop 1 else t
    some { dchip := hDchip h.d, dnode := hDnode h.d, snode := hSnode h.d, cmd := hCmd h.d, cls := hCls h.d, tag := hTag h.d,
           hasAddr := hasAddr, addrBad := hasAddr && !ag, schip := if hasAddr then aSchip au else 0,
           cid := if hasAddr then aCid au else 0, addr := if hasAddr then aAddr au else 0, data := ds.map dataUnitOf,
           formed := utOf h.d == 1 && decide (t.length = (hLen h.d).toNat) && dataTypesOk ds }

/-- The data units of a packet as units, the last of type LAST (R32). -/
def dataUnits : List DataUnit → List LinkUnit
  | [] => []
  | [x] => [unitOf (dataBits true x.data x.be x.bad)]
  | x :: y :: t => unitOf (dataBits false x.data x.be x.bad) :: dataUnits (y :: t)

/-- The units of a packet (R32, R54). -/
def pktUnits (p : Pkt) : List LinkUnit :=
  let body := (if p.hasAddr then [unitOf (addrBits p.schip p.cid p.addr)] else []) ++ dataUnits p.data
  unitOf (headBits p.dchip p.dnode p.snode p.cmd p.cls (BitVec.ofNat 5 body.length) p.tag) :: body

/-- A request packet (R54). -/
def requestPkt (dchip : Byte) (dnode snode : BitVec 7) (op : Op) (cls : BitVec 2) (tag schip cid : Byte) (addr : BitVec 30)
    (data : List DataUnit) : Pkt :=
  { dchip := dchip, dnode := dnode, snode := snode, cmd := cmdOf op, cls := cls, tag := tag, hasAddr := true,
    addrBad := false, schip := schip, cid := cid, addr := addr, data := data, formed := true }

/-- R35, R36, R50, R54, R55: the response to request `q` with a status and, when it is OK, data units. -/
def responsePkt (q : Pkt) (st : Status) (ds : List DataUnit) : Pkt :=
  { dchip := q.schip, dnode := q.snode, snode := q.dnode, cmd := kindOf (opOf q.cmd) ++ statusCode st, cls := q.cls,
    tag := q.tag, hasAddr := false, addrBad := false, schip := 0, cid := 0, addr := 0,
    data := if st = .ok then ds else [], formed := true }

/-- A data unit of a read response or an OLD unit: enables as given, good (R43, R135). -/
def goodUnit (w : Word) (be : BitVec 4) : DataUnit := { data := w, be := be, bad := false }

/-- The byte enables that an atomic may carry (R135). -/
def atomicBeOk (be : BitVec 4) : Bool :=
  be = 1 || be = 2 || be = 4 || be = 8 || be = 3 || be = 12 || be = 15

/-- What a receiving NI or agent does with a request before performing it (R23, R57). -/
inductive Check where
  | perform | discard | answer (st : Status)
  deriving DecidableEq, Repr

/-- R57: is a request malformed? -/
def malformedReq (p : Pkt) : Bool :=
  let op := opOf p.cmd
  let n := match op with | .read k => k | .write k => k | _ => 1
  !p.formed || !p.hasAddr || decide (op = .reserved) || decide (p.data.length ≠ reqUnits op) ||
  (match op with
   | .swap | .fadd | .tas | .cas => p.data.any (fun u => decide (u.be = 0))
   | .read _ | .write _ => decide (p.addr.toNat % 64 + n > 64)
   | _ => false)

/-- R23, R57: DECERR for a malformed request with a sound address unit, POISON for a poisoned one; a request whose address
unit is missing or poisoned is discarded unanswered. -/
def reqCheck (p : Pkt) : Check :=
  if !p.hasAddr || p.addrBad then .discard
  else if malformedReq p then .answer .decerr
  else if p.data.any (·.bad) then .answer .poison
  else .perform

/-! ## Byte lanes and atomics (R42, R135) -/

/-- Lane k of a word (R42). -/
def laneOf (w : Word) (k : Nat) : Byte := w.extractLsb' (8 * k) 8

/-- The bits of the lanes that BE enables. -/
def laneMask (be : BitVec 4) : Word :=
  (if be.getLsbD 3 then 0xFF#8 else 0#8) ++ (if be.getLsbD 2 then 0xFF#8 else 0#8) ++
  (if be.getLsbD 1 then 0xFF#8 else 0#8) ++ (if be.getLsbD 0 then 0xFF#8 else 0#8)

/-- R43: the enabled lanes of `new` over `old`. -/
def mergeLanes (old new : Word) (be : BitVec 4) : Word := (old &&& ~~~ laneMask be) ||| (new &&& laneMask be)

/-- The first enabled lane and the number of bits of the enabled lanes, for the byte enables of R135. -/
def laneShift (be : BitVec 4) : Nat :=
  if be.getLsbD 0 then 0 else if be.getLsbD 1 then 8 else if be.getLsbD 2 then 16 else 24

def laneBits (be : BitVec 4) : Nat :=
  8 * ((if be.getLsbD 0 then 1 else 0) + (if be.getLsbD 1 then 1 else 0) + (if be.getLsbD 2 then 1 else 0) +
       (if be.getLsbD 3 then 1 else 0))

/-- R135: the word written by an atomic in its enabled lanes (0 in the others), or none; `old` is the word read, `o1` the first
operand (or the compare value), `o2` CAS's new value. -/
def atomicWrite (op : Op) (be : BitVec 4) (old o1 o2 : Word) : Option Word :=
  let m := laneMask be
  let v := ((old &&& m) >>> laneShift be).toNat
  let o := ((o1 &&& m) >>> laneShift be).toNat
  match op with
  | .swap => some (o1 &&& m)
  | .fadd => some (((BitVec.ofNat 32 ((v + o) % 2 ^ laneBits be)) <<< laneShift be) &&& m)
  | .tas => some m
  | .cas => if v = o then some (o2 &&& m) else none
  | _ => none

/-! ## SYNC16 command beats (R106, R107) -/

/-- A[23:0] of C1: PA is A[23:16], PD[15:1] is A[15:1]; A[0] is 0 (R128). -/
def c1Addr (c1 : Beat) : BitVec 24 := c1.pa ++ (c1.pd &&& 0xFFFE)

def c1Write (c1 : Beat) : Bool := c1.pd.getLsbD 0

def c2Op (c2 : Beat) : BitVec 4 := c2.pd.extractLsb' 12 4

def c2Count (c2 : Beat) : Nat := (c2.pd.extractLsb' 0 5).toNat

/-- R107: the codes of OP; none is reserved. -/
def opCode16 (o : BitVec 4) : Option AccKind :=
  match o.toNat with
  | 0 => some .read | 1 => some .write | 2 => some .swap | 3 => some .fadd | 4 => some .tas | 5 => some .cas
  | 8 => some .fence | 9 => some .probe | _ => none

/-! ## Seam transfers (R170 to R173) -/

/-- The channel of a network and lane (R175). -/
def channelOf (net : Net) (lane1 : Bool) : Nat :=
  (match net with | .req => 0 | .dat => 2 | .rsp => 4 | .snp => 6) + (if lane1 then 1 else 0)

def netOfChannel (c : Nat) : Net :=
  match c / 2 with | 0 => .req | 1 => .dat | 2 => .rsp | _ => .snp

/-- R170: the three transfers of a unit, SxFR in bit 16. SP makes u, CH and SP hold an odd number of ones. `flip` inverts SP
(R181). -/
def seamTransfers (ch : Nat) (d : BitVec 48) (flip : Bool) : List (BitVec 17) :=
  let u : BitVec 46 := d.extractLsb' 0 46
  let c : BitVec 3 := BitVec.ofNat 3 ch
  let sp : Bool := xor (! oddOnes 49 (c ++ u).toNat) flip
  [ 1#1 ++ c ++ BitVec.ofBool sp ++ u.extractLsb' 34 12,
    u.extractLsb' 33 1 ++ u.extractLsb' 17 16,
    u.extractLsb' 16 1 ++ u.extractLsb' 0 16 ]

def seamCh (t1 : BitVec 17) : Nat := (t1.extractLsb' 13 3).toNat

/-- R170: bits [45:0] of the unit that three transfers carry. -/
def seamU (t1 t2 t3 : BitVec 17) : BitVec 46 :=
  t1.extractLsb' 0 12 ++ t2.extractLsb' 16 1 ++ t2.extractLsb' 0 16 ++ t3.extractLsb' 16 1 ++ t3.extractLsb' 0 16

/-- R170: does SP hold? -/
def seamSpGood (t1 t2 t3 : BitVec 17) : Bool :=
  oddOnes 50 ((t1.extractLsb' 13 3) ++ (t1.extractLsb' 12 1) ++ seamU t1 t2 t3).toNat

/-- R172: a control transfer; CP makes SxD hold an odd number of ones. SxFR is 0. -/
def ctlTransfer (code : BitVec 3) (msg : BitVec 4) (arg : Byte) : BitVec 17 :=
  let cp : Bool := ! oddOnes 15 (code ++ msg ++ arg).toNat
  0#1 ++ code ++ BitVec.ofBool cp ++ msg ++ arg

/-- R172, R173: is a control transfer good: parity, CODE, MSG? -/
def ctlGood (d : Half) : Bool :=
  let code : BitVec 3 := d.extractLsb' 13 3
  let msg : BitVec 4 := d.extractLsb' 8 4
  oddOnes 16 d.toNat &&
    (((decide (code = 1) || decide (code = 2)) && decide (msg = 0)) || (decide (code = 3) && decide (msg ≠ 0)))

/-- R173. -/
def msgPAUSE : BitVec 4 := 0x1
def msgQUIET : BitVec 4 := 0x2
def msgRESUME : BitVec 4 := 0x3
def msgJOIN : BitVec 4 := 0x4
def msgGRANT : BitVec 4 := 0x5
def msgLEAVE : BitVec 4 := 0x6
def msgRELEASE : BitVec 4 := 0x7
def msgROLLSTART : BitVec 4 := 0x8
def msgROLL : BitVec 4 := 0x9
def msgROLLEND : BitVec 4 := 0xA
def msgTABLE : BitVec 4 := 0xB
def msgDUP : BitVec 4 := 0xC
def msgEJECT : BitVec 4 := 0xD
def msgFAULT : BitVec 4 := 0xE
def msgABORT : BitVec 4 := 0xF

/-- R190, R191: the request word of chip c, and its check. -/
def joinWord (c : Byte) : Half := (~~~ c) ++ c
def joinWordGood (w : Half) : Bool := decide (w.extractLsb' 8 8 = ~~~ (w.extractLsb' 0 8))

end Sys2Proof.Machine
end

