-- ==== Sys2Proof/Machine/Table.lean ====
section
/-!
DEFINITION. Sparse tables in canonical form: reading and writing by key, against the value `d` that unlisted keys read as.
Writing that value removes the entry, so equal tables are equal lists.
-/
namespace Sys2Proof.Machine

/-- The value at key `k`. -/
def tget {α : Type} (d : Nat → α) : Table α → Nat → α
  | [], k => d k
  | (j, v) :: t, k => if k = j then v else tget d t k

/-- The table without key `k`. -/
def terase {α : Type} (m : Table α) (k : Nat) : Table α := m.filter (fun e => e.1 != k)

/-- The table with `v` listed at `k`, keys rising. -/
def tput {α : Type} : Table α → Nat → α → Table α
  | [], k, v => [(k, v)]
  | (j, w) :: t, k, v =>
    if k < j then (k, v) :: (j, w) :: t else if k = j then (k, v) :: t else (j, w) :: tput t k v

/-- The table with `v` at `k`. -/
def tset {α : Type} [DecidableEq α] (d : Nat → α) (m : Table α) (k : Nat) (v : α) : Table α :=
  if v = d k then terase m k else tput m k v

/-- The canonical form: keys strictly rising, no entry equal to what an unlisted key reads as. -/
def twf {α : Type} [DecidableEq α] (d : Nat → α) : Table α → Bool
  | [] => true
  | (k, v) :: t => decide (v ≠ d k) && t.all (fun e => decide (k < e.1)) && twf d t

end Sys2Proof.Machine
end

