-- ==== Sys2Proof/Machine/Ops.lean ====
section
/-!
DEFINITION. The named operations over State: reading and writing its tables, the fields of the configuration words, node numbers,
counting events, raising host events, and sending packets. Nothing else touches the tables directly.
-/
namespace Sys2Proof.Machine

/-! ## Configuration words (R415): the value an unlisted word reads as is its reset value -/

def cfgKey (bank idx : Nat) : Nat := bank * 65536 + idx

/-- Reset values of the read/write bank words: R89, R91, R123, R210, R330 (port banks), R350, R320, R268, R331, R416, R206. -/
def cfgReset (k : Nat) : Word :=
  let b := k / 65536
  let i := k % 65536
  if b < 64 then
    if i = 0 then BitVec.ofNat 32 (b * 65536)
    else if i = 1 then pclkReset
    else if i = 7 then 100
    else if 0x10 ≤ i ∧ i < 0x50 ∧ i % 4 = 0 then 8
    else if 0x50 ≤ i ∧ i < 0xD0 ∧ i % 8 = 0 then 8
    else 0
  else if b = 0x80 then (if i < 256 then 0x0C else 0)
  else if b = 0x83 then
    if i = 0 then 1024
    else if 0x14 ≤ i ∧ i < 0x50 ∧ i % 8 = 4 then 16
    else 0
  else if b = 0x84 then
    if i = 0x400 then 100 else if i = 0x401 then 5000 else if i = 0x402 then 10 else if i = 0x404 then 100
    else if i = 0x405 then 1600 else if i = 0x406 then 1000 else if i = 0x407 then 500 else if i = 0x408 then 1000
    else 0
  else if b = 0x85 then (if i = 0x102 then 10000 else 0)
  else 0

def cfgGet (s : State) (bank idx : Nat) : Word := tget cfgReset s.cfg (cfgKey bank idx)

def cfgSet (s : State) (bank idx : Nat) (v : Word) : State := { s with cfg := tset cfgReset s.cfg (cfgKey bank idx) v }

/-- Returns the words for which `drop` holds to their reset values. -/
def cfgDrop (s : State) (drop : Nat → Nat → Bool) : State :=
  { s with cfg := s.cfg.filter (fun e => !drop (e.1 / 65536) (e.1 % 65536)) }

/-! ## Ports, domains, bobbins, nodes, routers, gateways -/

def portGet (s : State) (n : Nat) : PortSt := tget (fun _ => PortSt.reset) s.ports n

def portSet (s : State) (n : Nat) (p : PortSt) : State := { s with ports := tset (fun _ => PortSt.reset) s.ports n p }

def portMod (s : State) (n : Nat) (f : PortSt → PortSt) : State := portSet s n (f (portGet s n))

def domGet (s : State) (d : Nat) : Dom := tget Dom.resetOf s.doms d

def domSet (s : State) (d : Nat) (x : Dom) : State := { s with doms := tset Dom.resetOf s.doms d x }

def domMod (s : State) (d : Nat) (f : Dom → Dom) : State := domSet s d (f (domGet s d))

def bobGet (s : State) (b : Nat) : Bobbin := tget (fun _ => Bobbin.reset) s.bobs b

def bobSet (s : State) (b : Nat) (x : Bobbin) : State := { s with bobs := tset (fun _ => Bobbin.reset) s.bobs b x }

def bobMod (s : State) (b : Nat) (f : Bobbin → Bobbin) : State := bobSet s b (f (bobGet s b))

def faultGet (s : State) (src : Nat) : FaultRec := tget (fun _ => FaultRec.reset) s.faults src

def faultSet (s : State) (src : Nat) (x : FaultRec) : State :=
  { s with faults := tset (fun _ => FaultRec.reset) s.faults src x }

def netIx : Net → Nat
  | .req => 0 | .dat => 1 | .rsp => 2 | .snp => 3

def dirIx : Dir → Nat
  | .north => 0 | .east => 1 | .south => 2 | .west => 3 | .loc => 4

def dirOf : Nat → Dir
  | 0 => .north | 1 => .east | 2 => .south | 3 => .west | _ => .loc

/-- R10: the node of port n. -/
def portNode (n : Nat) : BitVec 7 := BitVec.ofNat 7 ((n / 8) * 16 + (n % 8) * 2)

/-- R10: the router, and so the port, that a node sits at. -/
def nodeRouter (node : BitVec 7) : Nat := (node.toNat / 16) * 8 + (node.toNat % 16) / 2

/-- R10: slot B has odd node numbers. -/
def nodeSlotB (node : BitVec 7) : Bool := node.getLsbD 0

def nodeSys : BitVec 7 := 0x01
def nodeBob : BitVec 7 := 0x0F
def nodeGateB : BitVec 7 := 0x3F
def nodeGateA : BitVec 7 := 0x41
def nodeCol : BitVec 7 := 0x7F

/-- R11: does an agent sit at this slot B? -/
def agentAt (node : BitVec 7) : Bool :=
  node = nodeSys || node = nodeBob || node = nodeGateA || node = nodeGateB || node = nodeCol

def nodeKey (node : BitVec 7) (net : Net) : Nat := node.toNat * 4 + netIx net

def nodeGet (s : State) (node : BitVec 7) (net : Net) : NodeQ :=
  tget (fun _ => NodeQ.reset) s.mesh.nodes (nodeKey node net)

def nodeSet (s : State) (node : BitVec 7) (net : Net) (q : NodeQ) : State :=
  { s with mesh := { s.mesh with nodes := tset (fun _ => NodeQ.reset) s.mesh.nodes (nodeKey node net) q } }

def nodeMod (s : State) (node : BitVec 7) (net : Net) (f : NodeQ → NodeQ) : State := nodeSet s node net (f (nodeGet s node net))

def rinKey (net : Net) (r : Nat) (d : Dir) : Nat := (netIx net * 64 + r) * 5 + dirIx d

def rinGet (s : State) (net : Net) (r : Nat) (d : Dir) : RIn := tget (fun _ => RIn.reset) s.mesh.ins (rinKey net r d)

def rinSet (s : State) (net : Net) (r : Nat) (d : Dir) (x : RIn) : State :=
  { s with mesh := { s.mesh with ins := tset (fun _ => RIn.reset) s.mesh.ins (rinKey net r d) x } }

def arbIx : ArbName → Nat
  | .out d => dirIx d | .localIn => 5

def arbKey (net : Net) (r : Nat) (a : ArbName) : Nat := (netIx net * 64 + r) * 6 + arbIx a

/-- After a ladder every pointer names the last contender (R63): west's five inputs end at local, the two slots at slot B. -/
def arbReset (k : Nat) : Arb := if k % 6 = 5 then Arb.reset2 else Arb.reset

def arbGet (s : State) (net : Net) (r : Nat) (a : ArbName) : Arb := tget arbReset s.mesh.arbs (arbKey net r a)

def arbSet (s : State) (net : Net) (r : Nat) (a : ArbName) (x : Arb) : State :=
  { s with mesh := { s.mesh with arbs := tset arbReset s.mesh.arbs (arbKey net r a) x } }

def delayGet (s : State) (r : Nat) : Delay := tget (fun _ => Delay.reset) s.mesh.delays r

def delaySet (s : State) (r : Nat) (x : Delay) : State :=
  { s with mesh := { s.mesh with delays := tset (fun _ => Delay.reset) s.mesh.delays r x } }

def gateGet (s : State) : Ring → Gate
  | .a => s.ring.gateA
  | .b => s.ring.gateB

def gateMod (s : State) (g : Ring) (f : Gate → Gate) : State :=
  match g with
  | .a => { s with ring := { s.ring with gateA := f s.ring.gateA } }
  | .b => { s with ring := { s.ring with gateB := f s.ring.gateB } }

def sinGet (g : Gate) (c : Nat) : SeamIn := tget (fun _ => SeamIn.reset) g.ins c

def sinSet (g : Gate) (c : Nat) (x : SeamIn) : Gate := { g with ins := tset (fun _ => SeamIn.reset) g.ins c x }

def soutGet (g : Gate) (c : Nat) : SeamOut := tget (fun _ => SeamOut.reset) g.outs c

def soutSet (g : Gate) (c : Nat) (x : SeamOut) : Gate := { g with outs := tset (fun _ => SeamOut.reset) g.outs c x }

def ringMod (s : State) (f : RingSt → RingSt) : State := { s with ring := f s.ring }

def sysMod (s : State) (f : Sys → Sys) : State := { s with sys := f s.sys }

def hostMod (s : State) (f : HostIf → HostIf) : State := { s with host := f s.host }

def powMod (s : State) (f : Power → Power) : State := { s with power := f s.power }

def timeMod (s : State) (f : Time → Time) : State := { s with time := f s.time }

def jrnMod (s : State) (f : Journal → Journal) : State := { s with jrn := f s.jrn }

def cntMod (s : State) (f : Counters → Counters) : State := { s with cnt := f s.cnt }

/-! ## Fields of the configuration words -/

def fieldNat (w : Word) (lo len : Nat) : Nat := (w.extractLsb' lo len).toNat

def pcfg (s : State) (n : Nat) : Word := cfgGet s n 0x00
/-- PCFG (R89). -/
def pers (s : State) (n : Nat) : Nat := fieldNat (pcfg s n) 0 2
def role (s : State) (n : Nat) : Nat := fieldNat (pcfg s n) 2 2
def isFlat (s : State) (n : Nat) : Bool := pers s n = 0
def isMux (s : State) (n : Nat) : Bool := pers s n = 1
def isSync (s : State) (n : Nat) : Bool := pers s n = 2
def isInit (s : State) (n : Nat) : Bool := role s n = 0
def isTarg (s : State) (n : Nat) : Bool := role s n = 1
def isDual (s : State) (n : Nat) : Bool := role s n = 2
def splitMode (s : State) (n : Nat) : Bool := (pcfg s n).getLsbD 4
def clkSynth (s : State) (n : Nat) : Bool := (pcfg s n).getLsbD 5
def xcmd (s : State) (n : Nat) : Bool := (pcfg s n).getLsbD 6
def sparse (s : State) (n : Nat) : Bool := (pcfg s n).getLsbD 7
def ps2mode (s : State) (n : Nat) : Nat := fieldNat (pcfg s n) 14 2
def dcid (s : State) (n : Nat) : Byte := (pcfg s n).extractLsb' 16 8
def srdlen (s : State) (n : Nat) : Nat := fieldNat (pcfg s n) 24 5

/-- PIRQCFG (R117). -/
def pirqcfg (s : State) (n : Nat) : Word := cfgGet s n 0x02
def fwdEn (s : State) (n : Nat) : Bool := (pirqcfg s n).getLsbD 22
def errIrq (s : State) (n : Nat) : Bool := (pirqcfg s n).getLsbD 23

/-- PISO (R123). -/
def isobud (s : State) (n : Nat) : Half := (cfgGet s n 0x04).extractLsb' 0 16

/-- One address window (R123). -/
structure Window where
  base    : Nat      -- byte address of the first byte, BASE × 256
  size    : Nat      -- 2^SIZE
  off     : Nat      -- OFFSET × 256
  dchip   : Byte
  dnode   : BitVec 7
  cls     : BitVec 2
  posted  : Bool
  watchable : Bool
  atomic  : Bool
  wake    : Bool
  aop     : Nat
  valid   : Bool
  deriving DecidableEq, Repr

def windowOf (wb wo wd : Word) : Window :=
  { base := fieldNat wb 8 16 * 256, size := 2 ^ fieldNat wb 0 5, off := fieldNat wo 8 24 * 256,
    dchip := wd.extractLsb' 0 8, dnode := wd.extractLsb' 8 7, cls := wd.extractLsb' 16 2, posted := wd.getLsbD 18,
    watchable := wd.getLsbD 19, atomic := wd.getLsbD 20, wake := wd.getLsbD 21, aop := fieldNat wd 22 2,
    valid := wd.getLsbD 31 }

def window (s : State) (n w : Nat) : Window :=
  windowOf (cfgGet s n (0x10 + 4 * w)) (cfgGet s n (0x11 + 4 * w)) (cfgGet s n (0x12 + 4 * w))

def Window.has (w : Window) (p : Nat) : Bool := w.valid && decide (w.base ≤ p) && decide (p < w.base + w.size)

/-- R129: the lowest-numbered valid window that contains P. -/
def windowFor (s : State) (n p : Nat) : Option Window :=
  ((List.range 16).map (window s n)).find? (fun w => w.has p)

/-- R131. -/
def fabricAddr (w : Window) (p : Nat) : BitVec 32 := BitVec.ofNat 32 (w.off + p - w.base)

/-- BCFG (R228). -/
def bcfg (s : State) (b : Nat) : Word := cfgGet s 0x87 b
def bOwner (w : Word) : Nat := fieldNat w 0 6
def bOverwrite (w : Word) : Bool := w.getLsbD 6
def bWake (w : Word) : Bool := w.getLsbD 7
def bEnable (w : Word) : Bool := w.getLsbD 8
def bDben (w : Word) : Half := w.extractLsb' 16 16

/-- The authority table (R350). -/
def rights (s : State) (cid : Byte) : Byte := (cfgGet s 0x80 cid.toNat).extractLsb' 0 8

def rMAP : Nat := 0
def rPOWER : Nat := 1
def rVOTE : Nat := 2
def rBOBBIN : Nat := 3
def rCOUNT : Nat := 4
def rISOLATE : Nat := 5
def rRESET : Nat := 6
def rAUTHORITY : Nat := 7

/-- R39: a request whose SNODE is odd was formed by an agent. -/
def Origin.isAgent : Origin → Bool
  | .host => false
  | .fab _ snode _ => snode.getLsbD 0

/-- R8, R351, R352: does the origin hold right k? The host holds every right, an agent BOBBIN alone. -/
def holdsRight (s : State) (o : Origin) (k : Nat) : Bool :=
  match o with
  | .host => true
  | .fab _ snode cid => if snode.getLsbD 0 then decide (k = rBOBBIN) else (rights s cid).getLsbD k

/-- The client directory (R146). -/
def dirWord (s : State) (c : Byte) : Word := cfgGet s 0x81 c.toNat
def dirChip (w : Word) : Byte := w.extractLsb' 0 8
def dirPort (w : Word) : Nat := fieldNat w 8 6
def dirValid (w : Word) : Bool := w.getLsbD 16
def dirPinned (w : Word) : Bool := w.getLsbD 17
def dirConflict (w : Word) : Bool := w.getLsbD 18
def mkDir (chip : Byte) (port : Nat) (valid pinned conflict : Bool) : Word :=
  0#13 ++ BitVec.ofBool conflict ++ BitVec.ofBool pinned ++ BitVec.ofBool valid ++ 0#2 ++ BitVec.ofNat 6 port ++ chip

/-! ## Domains and power -/

def domOn (s : State) (d : Nat) : Bool := (domGet s d).st = .on
def sysOn (s : State) : Bool := domOn s 66
def nvOn (s : State) : Bool := domOn s 67
def isMaster (s : State) : Bool := s.chipnum = 0
def spliced (s : State) : Bool := s.ring.st = .spliced

/-- R186: N, and whether a chip is in the ring-order table. -/
def inTable (s : State) (c : Byte) : Bool := s.ring.chips.contains c

/-- Does the timestamp run? Not in LIMP (R298), not before the chip's oscillator rung (R310), not in DEEP or between patrols. -/
def tsRuns (s : State) : Bool :=
  !s.power.limp && (match s.power.mode with | .up | .core _ | .chipFault => true | .ladder _ r => decide (2 ≤ r.toNat) | _ => false)

/-! ## Host events (R406, R407) -/

def evFAULT : Nat := 0
def evALARM : Nat := 1
def evBROWN : Nat := 2
def evJWEAR : Nat := 3
def evCOUNTER : Nat := 4
def evWDROP : Nat := 5
def evCLIENT : Nat := 6
def evRING : Nat := 7
def evREFUSE : Nat := 8

/-- R407: sets event bit k; while SYS is not ON, every bit but FAULT and ALARM waits until it is. -/
def raiseEvent (s : State) (k : Nat) : State :=
  if sysOn s || decide (k ≤ 1) then sysMod s (fun y => { y with event := y.event ||| (1 <<< k) })
  else sysMod s (fun y => { y with eventLate := y.eventLate ||| (1 <<< k) })

/-- R407: HIRQ_N is driven low while any bit of EVENT AND EVENTEN is 1. -/
def hirqLow (s : State) : Bool := s.sys.event &&& s.sys.eventEn ≠ 0

/-! ## Event counters (R374 to R383) -/

/-- Where counters sit (R374). -/
inductive Blk where
  | port (n : Nat) | router (r : Nat) | sys
  deriving DecidableEq, Repr

def blkCount : Blk → Nat
  | .sys => 16 | _ => 8

def cselAt (b : Blk) (k : Nat) : Nat × Nat :=
  match b with
  | .port n => (n, 0xD0 + k) | .router r => (0x40 + r, k) | .sys => (0x86, 0x500 + k)

def cselGet (s : State) (b : Blk) (k : Nat) : Word := cfgGet s (cselAt b k).1 (cselAt b k).2

/-- R374: the global number. -/
def gNum (b : Blk) (k : Nat) : Nat :=
  match b with
  | .port n => 8 * n + k | .router r => 512 + 8 * r + k | .sys => 1024 + k

def blkOn (s : State) : Blk → Bool
  | .port n => domOn s n | .router _ => domOn s 64 | .sys => domOn s 66

def cval (s : State) (g : Nat) : Word := tget (fun _ => 0) s.cnt.value g
def covf (s : State) (g : Nat) : Bool := tget (fun _ => false) s.cnt.ovf g
def setCval (s : State) (g : Nat) (v : Word) : State := cntMod s (fun c => { c with value := tset (fun _ => 0) c.value g v })
def setCovf (s : State) (g : Nat) (v : Bool) : State := cntMod s (fun c => { c with ovf := tset (fun _ => false) c.ovf g v })

/-- R382: an OVF that goes from 0 to 1 raises the counter event. -/
def raiseOvf (s : State) (g : Nat) : State := if covf s g then s else raiseEvent (setCovf s g true) evCOUNTER

/-- R382: one step of counter k; a wrap sets OVF, or carries into a chained partner. -/
def stepCounter (s : State) (b : Blk) (k : Nat) : State :=
  let g := gNum b k
  let v := cval s g
  if v ≠ 0xFFFFFFFF then setCval s g (v + 1)
  else
    let s1 := setCval s g 0
    if k % 2 = 0 ∧ (cselGet s b k).getLsbD 8 = true then
      let pv := cval s (g + 1)
      if pv ≠ 0xFFFFFFFF then setCval s1 (g + 1) (pv + 1) else raiseOvf (setCval s1 (g + 1) 0) (g + 1)
    else raiseOvf s1 g

/-- Does counter k count this event (R378, R382: the odd half of a chained pair ignores its own EVENT)? -/
def counts (s : State) (b : Blk) (code k : Nat) : Bool :=
  decide (fieldNat (cselGet s b k) 0 8 = code) && !(decide (k % 2 = 1) && (cselGet s b (k - 1)).getLsbD 8)

/-- An event of a block: every counter of the block that selects it steps, unless the counters are frozen or its domain is not
ON (R377, R384). -/
def bump (s : State) (b : Blk) (code : Nat) : State :=
  if s.cnt.frozen || !blkOn s b || decide (code = 0) then s
  else (List.range (blkCount b)).foldl (fun t k => if counts s b code k then stepCounter t b k else t) s

def bumpN : Nat → State → Blk → Nat → State
  | 0, s, _, _ => s
  | n + 1, s, b, code => bumpN n (bump s b code) b code

/-- R379. -/
def routerEv (net : Net) (side kind : Nat) : Nat := netIx net * 64 + side * 8 + kind
def kUNITOUT : Nat := 1
def kGRANT : Nat := 2
def kBLOCKED : Nat := 3
def kPROMOTE : Nat := 4
def kPARITY : Nat := 5
def kABSORB : Nat := 6
def kUNITIN : Nat := 7

/-- R380. -/
def pREQSENT (net : Net) : Nat := netIx net * 64 + 0x01
def pUNITSENT (net : Net) : Nat := netIx net * 64 + 0x02
def pRSPOK : Nat := 0x03
def pRSPERR : Nat := 0x04
def pTGTREQ (net : Net) : Nat := netIx net * 64 + 0x05
def pACCESS : Nat := 0x06
def pWINMISS : Nat := 0x07
def pINTAKEFULL : Nat := 0x08
def pNOTAG : Nat := 0x09
def pHAZARD : Nat := 0x0A
def pISOSENT : Nat := 0x0B
def pISOWAIT : Nat := 0x0C
def pISOSHORT : Nat := 0x0D
def pLATE : Nat := 0x0E
def pUNKTAG : Nat := 0x0F
def pPARITY : Nat := 0x10
def pMALFORMED : Nat := 0x11
def pWSENT : Nat := 0x12
def pWSDROP : Nat := 0x13
def pWRDROP : Nat := 0x14
def pREPLAY : Nat := 0x15
def pMARK : Nat := 0x16
def pRETRY : Nat := 0x17
def pCLAIM : Nat := 0x18
def pPIRQFWD : Nat := 0x19

/-- R381. -/
def yJENTRY : Nat := 0x01
def yJSTALL : Nat := 0x02
def ySAMETICK : Nat := 0x03
def yREFUSE : Nat := 0x04
def yVOTESTALL : Nat := 0x05
def yCLAIMOK : Nat := 0x06
def yDUPCID : Nat := 0x07
def yWAKEREQ : Nat := 0x08
def yHOSTACC : Nat := 0x09
def yFABACC : Nat := 0x0A
def yAGENTNOTAG : Nat := 0x0C
def yBOBCOMMIT : Nat := 0x0D
def yBOBFLUSHED : Nat := 0x0E
def yFAULTS : Nat := 0x0F
def ySEAMOUT (g : Ring) : Nat := if g = .a then 0x10 else 0x11
def ySEAMIN (g : Ring) : Nat := if g = .a then 0x12 else 0x13
def yNOCREDIT (g : Ring) : Nat := if g = .a then 0x14 else 0x15
def ySEAMPOISON (g : Ring) : Nat := if g = .a then 0x16 else 0x17
def yGWDISCARD (g : Ring) : Nat := if g = .a then 0x18 else 0x19
def yPAUSE : Nat := 0x1A

/-! ## Packets at a node -/

/-- Hands a packet to the node's output on a network, where UNIT_TRANSFER drives its units (R17, R32). -/
def sendPkt (s : State) (node : BitVec 7) (net : Net) (p : Pkt) : State :=
  nodeMod s node net (fun q => { q with out := q.out ++ pktUnits p })

/-- R55: the response of node DNODE to request `q`. -/
def respond (s : State) (q : Pkt) (st : Status) (ds : List DataUnit) : State := sendPkt s q.dnode .rsp (responsePkt q st ds)

/-- The oldest packet that a node holds on a network, when it has room on RSP for an answer (R80). -/
def rxHead (s : State) (node : BitVec 7) (net : Net) : Option Pkt :=
  if (nodeGet s node .rsp).out = [] then (nodeGet s node net).rx.head? else none

/-- The node takes its oldest packet of a network. -/
def rxDrop (s : State) (node : BitVec 7) (net : Net) : State := nodeMod s node net (fun q => { q with rx := q.rx.drop 1 })

/-! ## Tags (R138 to R142) -/

def tagAt (p : TagPool) (t : Byte) : Tag := tget (fun _ => Tag.reset) p.tags t.toNat

def tagPut (p : TagPool) (t : Byte) (x : Tag) : TagPool := { p with tags := tset (fun _ => Tag.reset) p.tags t.toNat x }

/-- R139: a tag becomes FREE and joins the end of the FREE list. -/
def tagFree (p : TagPool) (t : Byte) : TagPool := { tags := tset (fun _ => Tag.reset) p.tags t.toNat Tag.reset, free := p.free ++ [t] }

def tagStale (p : TagPool) (t : Byte) : TagPool := tagPut p t { tagAt p t with st := .stale }

def poolGet (s : State) : Holder → TagPool
  | .port n => (portGet s n.val).pool
  | .agents => s.sys.agents

def poolSet (s : State) (h : Holder) (p : TagPool) : State :=
  match h with
  | .port n => portMod s n.val (fun x => { x with pool := p })
  | .agents => sysMod s (fun y => { y with agents := p })

/-- R143: a HELD write or atomic of this initiator to the same destination. -/
def hazard (p : TagPool) (dchip : Byte) (dnode : BitVec 7) : Bool :=
  p.tags.any (fun e => decide (e.2.st = .held) && e.2.wr && decide (e.2.dchip = dchip) && decide (e.2.dnode = dnode))

/-! ## Requests of SYS (R37, R54, R142, R143) -/

/-- Drives requests that SYS has formed, oldest first, until one must wait for a tag or behind the hazard rule. A request to a
chip absent from the ring-order table is not driven; it is left to `queuedAbsent`, which answers it. -/
def agentPump : Nat → State → State
  | 0, s => s
  | k + 1, s =>
    match s.sys.queued with
    | [] => s
    | r :: rest =>
      match s.sys.agents.free with
      | [] => bump s .sys yAGENTNOTAG
      | t :: ts =>
        if hazard s.sys.agents r.dchip r.dnode || !sysOn s then s
        else
          let p : Pkt := { dchip := r.dchip, dnode := r.dnode, snode := nodeSys, cmd := r.cmd, cls := r.cls, tag := t,
                           hasAddr := true, addrBad := false, schip := s.chipnum, cid := 0, addr := r.addr, data := r.data,
                           formed := true }
          let net := netOf false (opOf r.cmd)
          let x : Tag := { st := .held, dchip := r.dchip, dnode := r.dnode, cmd := r.cmd, wr := opWrites (opOf r.cmd),
                           wake := false, retry := false, net := net, pkt := pktUnits p, use := r.use }
          let s1 := sysMod s (fun y => { y with queued := rest, agents := { tagPut y.agents t x with free := ts } })
          agentPump k (sendPkt s1 nodeSys net p)

/-- SYS forms a one-word or data-less request; it is driven as soon as a tag and the hazard rule allow. -/
def agentSend (s : State) (dchip : Byte) (dnode : BitVec 7) (op : Op) (addr : BitVec 30) (data : List DataUnit) (use : TagUse) :
    State :=
  let r : AgentReq := { dchip := dchip, dnode := dnode, cmd := cmdOf op, cls := 2, addr := addr, data := data, use := use }
  let s1 := sysMod s (fun y => { y with queued := y.queued ++ [r] })
  agentPump s1.sys.queued.length s1

/-- R247: the doorbell write, to the DOORBELL word of a bobbin: address F = BOBBIN × 256 + 8, data 1 << DBBIT, BE 0b0011. -/
def bellAddr (bobbin : Nat) : BitVec 30 := BitVec.ofNat 30 ((bobbin * 256 + 8) / 4)
def bellData (dbbit : Nat) : DataUnit := goodUnit (BitVec.ofNat 32 (2 ^ dbbit)) 3

end Sys2Proof.Machine
end

