-- ==== Sys2Proof/Machine/Flags.lean ====
section
/-!
DEFINITION. The status bits the chip computes from its state: what a domain is wanted to be (R253, R277, R324), whether a wake waits
(R266), and what a router slot answers (R14, R275, R338).
-/
namespace Sys2Proof.Machine

/-! ## The tack words a domain's wanted state depends on (R320, R324, R325) -/

/-- R320: TPORTS names port domain n. -/
def tport (s : State) (n : Nat) : Bool := (cfgGet s 0x83 (if n < 32 then 0x01 else 0x02)).getLsbD (n % 32)

def tdest (s : State) (k : Nat) : Word := cfgGet s 0x83 (0x11 + 8 * k)
def tact (s : State) (k : Nat) : Word := cfgGet s 0x83 (0x14 + 8 * k)

/-- R325: a step, or its doorbell, names another chip. -/
def tackSeam (s : State) : Bool :=
  (List.range (s.time.lastStep.toNat + 1)).any (fun k =>
    decide ((tdest s k).extractLsb' 0 8 ≠ s.chipnum) ||
    (decide (fieldNat (tact s k) 0 2 = 2) && decide ((tact s k).extractLsb' 15 8 ≠ s.chipnum)))

/-! ## Wanted state -/

/-- R253: what votes, hold and command ask, whatever the chip power state. -/
def domAsks (x : Dom) (d : Nat) : Bool :=
  if d < 64 ∧ x.voted = true then !x.votes.isEmpty || x.hold else if d < 66 ∧ d ≠ 64 then x.cmdOn else true

/-- R253, R277, R279, R324: is domain d wanted ON? -/
def wantedOn (s : State) (d : Nat) : Bool :=
  let x := domGet s d
  match s.time.patrol with
  | some st => decide (st ≠ .ending) && (if d < 64 then tport s d else if d = 65 then tackSeam s else decide (d ≠ 67))
  | none =>
    decide (s.power.moving = none) &&
    (match s.power.mode with | .up => domAsks x d | .core _ => decide (64 ≤ d ∧ d ≠ 65) | _ => false)

/-- Is the port of domain d dead (R336)? Only port domains have one. -/
def domDead (s : State) (d : Nat) : Bool := decide (d < 64) && (portGet s d).dead

/-- R266: a wake waits for HEMMING to end, or for a hold-off (R274, R431). -/
def wakep (s : State) (d : Nat) : Bool :=
  let x := domGet s d
  wantedOn s d && !domDead s d &&
    (decide (x.st = .hemming) || (decide (x.st = .off) && (x.holdOff || (decide (d < 64) && (portGet s d).quiet))))

/-! ## Router slots -/

/-- What a slot does with a packet whose head arrives. -/
inductive SlotDo where
  | deliver
  | absorb (answer : Option Status)
  deriving DecidableEq, Repr

/-- R275, R338, R341: the slot of port n, not regarding SWALLOW. -/
def portSlot (s : State) (n : Nat) (net : Net) : SlotDo :=
  let x := domGet s n
  let p := portGet s n
  let req := decide (net = .req) || decide (net = .dat)
  let waking : Status := if wakep s n then .aslWaking else .asleep
  if p.dead then .absorb (if req then some .isolated else none)
  else if net = .rsp ∧ p.quiet = true then .absorb none
  else
    match x.st with
    | .on => .deliver
    | .hemming =>
      if req then .absorb (some waking)
      else if net = .rsp ∧ x.hem = .drain then .deliver else .absorb none
    | .off => .absorb (if req then some waking else none)
    | .waking => .absorb (if req then some .aslWaking else none)
    | .fault => .absorb (if req then some .isolated else none)

/-- R14, R180, R275: what the slot at a node does with a packet of network `net` bound for chip `dchip`. -/
def slotDo (s : State) (node : BitVec 7) (net : Net) (dchip : Byte) : SlotDo :=
  let req := decide (net = .req) || decide (net = .dat)
  if nodeSlotB node = false then portSlot s (nodeRouter node) net
  else if node = nodeGateA ∨ node = nodeGateB then
    if dchip = s.chipnum then .absorb (if req then some .decerr else none) else .deliver
  else if agentAt node then
    if sysOn s then .deliver else .absorb (if req then some .asleep else none)
  else .absorb (if req then some .decerr else none)

end Sys2Proof.Machine
end

