-- ==== Sys2Proof/Machine/Journal.lean ====
section
/-!
DEFINITION. The change journal (15): the entry and its check byte, target IDs, staging, the thimble's queue, anchors, the array and
its header, and the record of a fault (14), which is set together with its entry.
-/
namespace Sys2Proof.Machine

/-! ## Target IDs (R363) -/

/-- A word of a bank: banks 0x00 to 0x7F hold index [7:0], banks 0x80 to 0x88 index [10:0]. -/
def tidBank (bank idx : Nat) : Half :=
  if bank < 0x80 then BitVec.ofNat 16 (bank % 128 * 256 + idx % 256)
  else BitVec.ofNat 16 (0x8000 + (bank - 0x80) * 2048 + idx % 2048)

def tidBobbin (op b : Nat) : Half := BitVec.ofNat 16 (0x8000 + 0xD * 2048 + op * 256 + b)
/-- Registers 0 DOMCMD, 1 DOMSTAT, 2 VOTE, 3 WAKE of a domain. -/
def tidDom (reg d : Nat) : Half := BitVec.ofNat 16 (0x8000 + 0xE * 2048 + reg * 256 + d)
def tidHost (i : Nat) : Half := BitVec.ofNat 16 (0x8000 + 0xF * 2048 + i)

/-! ## Entries (R361 to R365) -/

/-- R365: one bit of the CRC-8 with polynomial 0x07. -/
def crcBit (c : Byte) (b : Bool) : Byte :=
  if xor c.msb b then (c <<< 1) ^^^ 0x07 else c <<< 1

/-- R365: the CRC-8 over the low `n` bits of `v`, the most significant of them first. -/
def crcOver : Nat → BitVec 120 → Byte → Byte
  | 0, _, c => c
  | n + 1, v, c => crcOver n v (crcBit c (v.getLsbD n))

/-- R361: bits [127:8]. -/
def entryBody (e : Entry) : BitVec 120 :=
  e.ts ++ e.ochip ++ e.ocid ++ e.okind ++ e.tid ++ e.value ++ BitVec.ofBool e.same ++ BitVec.ofBool e.tinv ++
  BitVec.ofBool e.staged ++ BitVec.ofBool e.anchor ++ 0#1

/-- R365: the check byte, XORed with 0xFF in an odd pass. -/
def entryCrc (body : BitVec 120) (odd : Bool) : Byte :=
  let c := crcOver 120 body 0xFF
  if odd then c ^^^ 0xFF else c

def entryBits (e : Entry) (odd : Bool) : BitVec 128 := entryBody e ++ entryCrc (entryBody e) odd

/-- R365: does a stored entry check under a pass parity? -/
def entryChecks (w : BitVec 128) (odd : Bool) : Bool := decide (entryCrc (w.extractLsb' 8 120) odd = w.extractLsb' 0 8)

def kHOST : BitVec 3 := 0
def kCLIENT : BitVec 3 := 1
def kHARDWARE : BitVec 3 := 2
def kTACK : BitVec 3 := 3
def kREMOTE : BitVec 3 := 4
def kRESET : BitVec 3 := 5

/-- R362. -/
def originKind : Origin → BitVec 3
  | .host => kHOST | .fab _ _ _ => kCLIENT
def originChip (s : State) : Origin → Byte
  | .host => s.chipnum | .fab c _ _ => c
def originCid : Origin → Byte
  | .host => 0 | .fab _ _ c => c

/-- R364: the entry made now; STAGED while a hush or a VNV warning holds array writes, TINVALID in LIMP, for a queued entry,
or when its timestamp would be older than that of the entry before it. -/
def mkEntry (s : State) (kind : BitVec 3) (chip cid : Byte) (tid : Half) (v : Word) (anchor queued : Bool) : Entry :=
  { ts := s.time.ts, ochip := chip, ocid := cid, okind := kind, tid := tid, value := v,
    same := decide (s.jrn.lastTs = some s.time.ts),
    tinv := s.power.limp || queued || (match s.jrn.lastTs with | some t => !s.jrn.newRun && decide (s.time.ts < t) | none => false),
    staged := s.power.hush || s.power.nvWarn, anchor := anchor }

/-- R366: an entry enters staging; its TS is sampled then. -/
def stage (s : State) (e : Entry) : State :=
  let s1 := bump (jrnMod s (fun j => { j with staging := j.staging ++ [e], lastTs := some e.ts, newRun := false })) .sys yJENTRY
  if e.same then bump s1 .sys ySAMETICK else s1

/-- R366, R317: is there a place for a host or fabric entry? -/
def jPlace (s : State) : Bool :=
  if nvOn s then decide (s.jrn.staging.length < 64) else decide (s.jrn.queue.length < 16)

/-- R358, R366, R317: can a host or fabric change enter the journal now? While a STITCH places its entries no other does. -/
def jRoom (s : State) : Bool := jPlace s && s.sys.stitch.all (fun t => t.left.isEmpty)

/-- R317, R366: the entry of a host or fabric change (or of a remote one), once there is room. -/
def jPut (s : State) (kind : BitVec 3) (chip cid : Byte) (tid : Half) (v : Word) : State :=
  if nvOn s then stage s (mkEntry s kind chip cid tid v false false)
  else jrnMod s (fun j => { j with queue := j.queue ++ [mkEntry s kind chip cid tid v false true] })

/-- The entry of a change by an origin. -/
def jOrigin (s : State) (o : Origin) (tid : Half) (v : Word) : State := jPut s (originKind o) (originChip s o) (originCid o) tid v

/-- R367: room for kinds 2, 3 and 5, which have eight further places. -/
def hwRoom (s : State) : Bool :=
  if nvOn s then decide (s.jrn.staging.length < 72) else decide (s.jrn.queue.length < 16)

/-- R360, R367: a hardware, tack or reset entry; when there is no place for it, it waits. -/
def jHw (s : State) (kind : BitVec 3) (tid : Half) (v : Word) (anchor : Bool) : State :=
  if hwRoom s then
    if nvOn s then stage s (mkEntry s kind s.chipnum 0 tid v anchor false)
    else jrnMod s (fun j => { j with queue := j.queue ++ [mkEntry s kind s.chipnum 0 tid v anchor true] })
  else jrnMod s (fun j => { j with waiting := j.waiting ++ [.entry (mkEntry s kind s.chipnum 0 tid v anchor (!nvOn s))] })

def aHOURLY : Nat := 0
def aRESET : Nat := 1
def aLADDER : Nat := 2
def aPATROL : Nat := 3
def aRTCSET : Nat := 4

/-- R318: an anchor: the RTC seconds as value, the RTC fraction and the reason as target ID. -/
def anchor (s : State) (reason : Nat) : State :=
  jHw s kRESET (BitVec.ofNat 6 reason ++ s.time.rtcFr) s.time.rtcSec true

/-! ## Fault records (R343 to R349) -/

def fRESPTO : BitVec 5 := 0x01
def fCLKSTOP : BitVec 5 := 0x02
def fVIOLOW : BitVec 5 := 0x03
def fCOMMAND : BitVec 5 := 0x04
def fREGRUNG : BitVec 5 := 0x05
def fOSCRUNG : BitVec 5 := 0x06
def fMEMRUNG : BitVec 5 := 0x07
def fLOGICRUNG : BitVec 5 := 0x08
def fDRAIN : BitVec 5 := 0x09
def fLINKPAR : BitVec 5 := 0x0A
def fREGLINK : BitVec 5 := 0x0B
def fPLLLOSS : BitVec 5 := 0x0C
def fRTCSTOP : BitVec 5 := 0x0D
def fRING : BitVec 5 := 0x0E
def fCHIPFAULT : BitVec 5 := 0x0F
def srcMESH : Nat := 64
def srcSEAM : Nat := 65
def srcSYS : Nat := 66
def srcNV : Nat := 67
def srcCHIP : Nat := 68

/-- R346: CODE [4:0], SRC [14:8], CLEARED [15], DETAIL [31:16]. -/
def faultValue (src : Nat) (code : BitVec 5) (cleared : Bool) (detail : Half) : Word :=
  detail ++ BitVec.ofBool cleared ++ BitVec.ofNat 7 src ++ 0#3 ++ code

/-- R348: FAULTDB. -/
def faultdb (s : State) : Word := cfgGet s 0x84 0x403

/-- R348, R349: rings the fault doorbell for a source; at most one such write is outstanding. -/
def faultBell (s : State) (src : Nat) : State :=
  let w := faultdb s
  let chip : Byte := w.extractLsb' 10 8
  if w.getLsbD 18 && (if src < 64 then w.getLsbD 19 else w.getLsbD 20) && sysOn s then
    if s.sys.bellOut then sysMod s (fun y => { y with bellDue := true })
    else if chip ≠ s.chipnum ∧ inTable s chip = false then s
    else
      agentSend (sysMod s (fun y => { y with bellOut := true })) chip nodeBob (.write 1) (bellAddr (fieldNat w 0 6))
        [bellData (fieldNat w 6 4)] .faultBell
  else s

/-- R346: sets the record, writes the entry, sets the fault event and sends the doorbell. A LINKPAR while NEW is set only
counts. -/
def faultApply (s : State) (f : FaultRaise) : State :=
  let r := faultGet s f.src
  let cnt := if r.count = 255 then 255 else r.count + 1
  if f.code = fLINKPAR ∧ r.isNew = true then faultSet s f.src { r with count := cnt }
  else
    let s1 := faultSet s f.src { code := f.code, isNew := true, count := cnt }
    let s2 := jHw s1 kHARDWARE (tidHost 0x24) (faultValue f.src f.code false f.detail) false
    bump (faultBell (raiseEvent s2 evFAULT) f.src) .sys yFAULTS

/-- R346, R367: raises a fault; its record and its entry wait together when staging has no place. -/
def raiseFault (s : State) (src : Nat) (code : BitVec 5) (detail : Half) : State :=
  let f : FaultRaise := { src := src, code := code, detail := detail }
  if hwRoom s then faultApply s f else jrnMod s (fun j => { j with waiting := j.waiting ++ [.fault f] })

/-- R367: admits hardware changes that wait, in order, while there is room. -/
def admitHw : Nat → State → State
  | 0, s => s
  | k + 1, s =>
    match s.jrn.waiting with
    | [] => s
    | w :: rest =>
      if hwRoom s then
        let s1 := jrnMod s (fun j => { j with waiting := rest })
        admitHw k (match w with
          | .entry e => if nvOn s1 then stage s1 { e with ts := s1.time.ts, same := decide (s1.jrn.lastTs = some s1.time.ts) }
                        else jrnMod s1 (fun j => { j with queue := j.queue ++ [{ e with tinv := true }] })
          | .fault f => faultApply s1 f)
      else s

/-! ## The array (R368 to R372) -/

def arrGet (s : State) (i : Nat) : BitVec 128 := tget (fun _ => 0) s.jrn.array i

def arrPut (s : State) (i : Nat) (w : BitVec 128) : State :=
  jrnMod s (fun j => { j with array := tset (fun _ => 0) j.array i w })

/-- R368: pass parity is bit 0 of PASSES. -/
def passOdd (s : State) : Bool := s.jrn.passes.getLsbD 0

/-- R372: LEVEL of a pass count. -/
def wearLevel (passes : Word) : BitVec 2 :=
  if passes.toNat < 8000000 then 0 else if passes.toNat < 9500000 then 1 else if passes.toNat < 10000000 then 2 else 3

/-- R368, R369: the head moves on; at a wrap PASSES advances; the header is kept every 4,096 entries and at each wrap. -/
def headAdvance (s : State) : State :=
  let j := s.jrn
  let h := j.head + 1
  let p := if h = 0 then j.passes + 1 else j.passes
  let s1 := jrnMod s (fun j => { j with head := h, passes := p })
  let s2 := if h.toNat % 4096 = 0 then jrnMod s1 (fun j => { j with hdrHead := h, hdrPass := p }) else s1
  if (wearLevel p).toNat > j.level.toNat then raiseEvent (jrnMod s2 (fun j => { j with level := wearLevel p })) evJWEAR else s2

/-- R369: the first index from `i` at which entries i and i + 1 both fail to check. -/
def scanHead (s : State) (odd : Bool) : Nat → BitVec 20 → BitVec 20
  | 0, i => i
  | k + 1, i =>
    if entryChecks (arrGet s i.toNat) odd || entryChecks (arrGet s (i + 1).toNat) odd then scanHead s odd k (i + 1) else i

/-- R369: the scan at a wake of NV. -/
def journalScan (s : State) : State :=
  let s1 := jrnMod s (fun j => { j with passes := j.hdrPass, level := wearLevel j.hdrPass })
  jrnMod s1 (fun j => { j with head := scanHead s1 (passOdd s1) 1048576 j.hdrHead })

/-- A fresh free value. -/
def freeDraw (s : State) : BitVec 128 × State := (Config.freeBits s.freeCount, { s with freeCount := s.freeCount + 1 })

/-- R372: JRNHEAD1 as a live word. -/
def jrnhead1 (s : State) : Half :=
  0#3 ++ BitVec.ofNat 7 s.jrn.staging.length ++ BitVec.ofBool (decide (s.jrn.passes ≠ 0)) ++ BitVec.ofBool (passOdd s) ++
    s.jrn.head.extractLsb' 16 4

end Sys2Proof.Machine
end

