-- ==== Sys2Proof/Machine/Gateway.lean ====
section
/-!
DEFINITION. Arbitration (R61 to R67) and the data path of the seam gateways (08): which direction a chip lies in, taking units
from the mesh, sending units and credits onto the seam, handing seam units to the mesh.
-/
namespace Sys2Proof.Machine

/-! ## Arbitration -/

/-- R66: the class a contender competes in. -/
def effClass (a : Arb) (i cls : Nat) : Nat := if cls = 0 ∧ 8 ≤ tget (fun _ => 0) a.passes i then 1 else cls

/-- R63: the first of `cands` after `p` in the cyclic order of `n` contenders. -/
def nextAfter (n p : Nat) (cands : List Nat) : Option Nat :=
  ((List.range n).map (fun k => (p + 1 + k) % n)).find? (fun i => cands.contains i)

/-- R63, R65: the winner among contenders (index, class), and the class it wins in. -/
def arbPick (a : Arb) (n : Nat) (cs : List (Nat × Nat)) : Option (Nat × Nat) :=
  let top := cs.foldl (fun m c => max m (effClass a c.1 c.2)) 0
  let inTop := (cs.filter (fun c => effClass a c.1 c.2 = top)).map (·.1)
  (nextAfter n (a.ptr.getD top 0) inTop).map (fun i => (i, top))

/-- R66: passes of the BULK heads that a grant to `w` passes over; 9 stands for a promotion already counted. -/
def passOver (a : Arb) (w : Nat) (all : List (Nat × Nat)) : Table Nat :=
  all.foldl (fun t c =>
    let k := tget (fun _ => 0) a.passes c.1
    tset (fun _ => 0) t c.1 (if c.1 = w then 0 else if c.2 = 0 then (if k < 8 then k + 1 else k) else 0)) a.passes

/-- R62, R63: a grant to `w` in class `top` for `left` more units; `all` are the contenders that wait. -/
def arbGrant (a : Arb) (w top left : Nat) (all : List (Nat × Nat)) : Arb :=
  { a with holder := some w, left := left, ptr := a.ptr.set top w, passes := passOver a w all,
           waited := (all.map (·.1)).filter (fun i => i ≠ w) }

def arbRelease (a : Arb) : Arb := { a with holder := none, left := 0 }

/-! ## Directions (R13) -/

def ringIx (s : State) (c : Byte) : Option Nat := s.ring.chips.findIdx? (fun x => x = c)

/-- R13: fewer seam hops; a tie goes to gateway A. An absent chip has no direction: gateway A, which discards the packet (R182). -/
def ringDir (s : State) (c : Byte) : Ring :=
  match ringIx s s.chipnum, ringIx s c with
  | some p, some q =>
    let n := s.ring.chips.length
    if (q + n - p) % n ≤ (p + n - q) % n then .a else .b
  | _, _ => .a

def gateNode : Ring → BitVec 7
  | .a => nodeGateA | .b => nodeGateB

def otherRing : Ring → Ring
  | .a => .b | .b => .a

/-- The gateways can drive their seam outputs: the bypass is open. -/
def canDrive (s : State) : Bool := !s.ring.bypass

/-- R193 step 2, R200 step 1, R303: may packets of the mesh start onto a seam? -/
def mayStart (s : State) : Bool := !s.ring.stopped && !s.power.hush && canDrive s

/-! ## Sending -/

/-- Hands transfers to a seam output. -/
def gwTx (s : State) (g : Ring) (ts : List (BitVec 17)) : State := gateMod s g (fun x => { x with tx := x.tx ++ ts })

/-- A control transfer on ring g (R172); a chip whose bypass is closed drives nothing. -/
def gwCtl (s : State) (g : Ring) (code : BitVec 3) (msg : BitVec 4) (arg : Byte) : State :=
  if canDrive s then gwTx s g [ctlTransfer code msg arg] else s

def gwRing (s : State) (g : Ring) (msg : BitVec 4) (arg : Byte) : State := gwCtl s g 3 msg arg

/-- R176: the latch of channel c of ring g's input emptied: its credit goes back on the other ring. -/
def gwCredit (s : State) (g : Ring) (c : Nat) : State := gwCtl s (otherRing g) 1 0 (BitVec.ofNat 8 (2 ^ c))

/-- R178: the output channel of a packet forwarded from input channel c. -/
def outChannel (s : State) (c : Nat) : Nat := if isMaster s ∧ c % 2 = 0 then c + 1 else c

/-- The unit at the front of contender h (input channel, or 8 for the mesh) of output channel c. -/
def seamFront (s : State) (g : Ring) (c h : Nat) : Option LinkUnit :=
  if h < 8 then
    let x := sinGet (gateGet s g) h
    if !x.toMesh && !x.drop && decide (outChannel s h = c) then x.latch else none
  else (soutGet (gateGet s g) c).fromMsh

/-- R177: the contenders of a free output channel whose head waits: (place in the cyclic order, class, source). -/
def seamContenders (s : State) (g : Ring) (c : Nat) : List (Nat × Nat × Nat) :=
  ((List.range 8).filterMap (fun h => (seamFront s g c h).map (fun u => (0, (hCls u.d).toNat, h)))).take 1 ++
  (if mayStart s then (match seamFront s g c 8 with | some u => [(1, (hCls u.d).toNat, 8)] | none => []) else [])

/-- R177: grants output channel c when it is free and a head waits. -/
def seamGrant (s : State) (g : Ring) (c : Nat) : State :=
  let o := soutGet (gateGet s g) c
  match o.arb.holder with
  | some _ => s
  | none =>
    let cs := seamContenders s g c
    let all := cs.map (fun x => (x.1, x.2.1))
    match arbPick o.arb 2 all with
    | none => s
    | some (w, top) =>
      match cs.find? (fun x => x.1 = w) with
      | none => s
      | some x =>
        let len := match seamFront s g c x.2.2 with | some u => (hLen u.d).toNat | none => 0
        let a := arbGrant o.arb w top (len + 1) all
        gateMod s g (fun y => soutSet y c { o with arb := { a with holder := some x.2.2 } })

/-- R175, R181: sends the front unit of channel c's holder, if there is one and the credit is held. -/
def seamSend (s : State) (g : Ring) (c : Nat) : Option State :=
  let s0 := seamGrant s g c
  let o := soutGet (gateGet s0 g) c
  match o.arb.holder with
  | none => none
  | some h =>
    match seamFront s0 g c h with
    | none => none
    | some u =>
      if o.credit = false then none
      else
        let a := if o.arb.left ≤ 1 then arbRelease o.arb else { o.arb with left := o.arb.left - 1 }
        let o1 := { o with credit := false, arb := a, fromMsh := if h = 8 then none else o.fromMsh }
        let s1 := gateMod s0 g (fun y => { soutSet y c o1 with rr := c })
        let s2 := gwTx s1 g (seamTransfers c u.d (!unitGood u))
        let s3 := bump s2 .sys (ySEAMOUT g)
        if h < 8 then
          some (gwCredit (gateMod s3 g (fun y =>
            let x := sinGet y h
            sinSet y h { x with latch := none, busy := decide (x.left ≠ 0) })) g h)
        else some s3

/-- R177: units are granted round-robin among the channels that have a unit ready and hold a credit. -/
def seamPump : Nat → State → Ring → State
  | 0, s, _ => s
  | k + 1, s, g =>
    if canDrive s then
      match ((List.range 8).map (fun i => ((gateGet s g).rr + 1 + i) % 8)).findSome? (fun c => seamSend s g c) with
      | some s1 => seamPump k s1 g
      | none => s
    else s

def seamPumps (s : State) : State := seamPump 32 (seamPump 32 s .a) .b

/-! ## Into the mesh -/

/-- R180: a unit for this chip leaves its latch when the gateway's link into the mesh is free and no packet of the other lane of
its network is half sent. -/
def meshFromSeam (s : State) (g : Ring) (c : Nat) : State :=
  let x := sinGet (gateGet s g) c
  let y := sinGet (gateGet s g) (if c % 2 = 0 then c + 1 else c - 1)
  match x.latch with
  | none => s
  | some u =>
    if !x.toMesh || x.drop || (y.toMesh && y.busy) || !(nodeGet s (gateNode g) (netOfChannel c)).out.isEmpty then s
    else
      let s1 := gateMod s g (fun q => sinSet q c { x with latch := none, busy := decide (x.left ≠ 0) })
      gwCredit (nodeMod s1 (gateNode g) (netOfChannel c) (fun q => { q with out := [u] })) g c

def meshFromSeams (s : State) (g : Ring) : State := (List.range 8).foldl (fun t c => meshFromSeam t g c) s

/-! ## From the mesh -/

/-- Has the gateway a free latch for a unit of this network from its router? -/
def gwRoom (s : State) (g : Ring) (net : Net) : Bool :=
  decide ((soutGet (gateGet s g) (channelOf net false)).fromMsh = none)

/-- R177, R178, R181, R182: the gateway takes a unit from its router. -/
def gwTake (s : State) (g : Ring) (net : Net) (u : LinkUnit) : State :=
  let c := channelOf net false
  let o := soutGet (gateGet s g) c
  let put := fun (t : State) (x : SeamOut) => gateMod t g (fun y => soutSet y c x)
  let counted := fun (t : State) => if unitGood u then t else bump t .sys (ySEAMPOISON g)
  if o.inLeft = 0 then
    if !unitGood u then counted (put s { o with inDrop := true })
    else if utOf u.d ≠ 1 then put s { o with inDrop := true }
    else if inTable s (hDchip u.d) = false ∨ canDrive s = false then
      bump (put s { o with inDrop := true, inLeft := (hLen u.d).toNat }) .sys (yGWDISCARD g)
    else
      let s1 := put s { o with inDrop := false, inLeft := (hLen u.d).toNat, fromMsh := some u }
      seamPump 32 (if o.credit then s1 else bump s1 .sys (yNOCREDIT g)) g
  else if o.inDrop then put s { o with inLeft := o.inLeft - 1 }
  else
    let s1 := counted (put s { o with inLeft := o.inLeft - 1, fromMsh := some u })
    seamPump 32 (if o.credit then s1 else bump s1 .sys (yNOCREDIT g)) g

end Sys2Proof.Machine
end

