-- ==== Sys2Proof/Machine/Fabric.lean ====
section
/-!
DEFINITION. The fabric family (02, 04): units on links, head arrival and routing, grants, promotion, delay lines, the ISO frame.
-/
namespace Sys2Proof.Machine

abbrev Res := Host.Outcome State Fault Refusal

/-! ## Geometry -/

def rX (r : Nat) : Nat := r % 8
def rY (r : Nat) : Nat := r / 8

/-- R59: the output towards a target node. -/
def routeTo (r : Nat) (target : BitVec 7) : Dir :=
  let tx := target.toNat / 2 % 8
  let ty := target.toNat / 16
  if rX r < tx then .east else if tx < rX r then .west else if rY r < ty then .north else if ty < rY r then .south else .loc

/-- The neighbour on a side of router r, and the input of that neighbour; none off the grid or at the local side. -/
def neighbour (r : Nat) : Dir → Option (Nat × Dir)
  | .north => if rY r < 7 then some (r + 8, .south) else none
  | .east => if rX r < 7 then some (r + 1, .west) else none
  | .south => if 0 < rY r then some (r - 8, .north) else none
  | .west => if 0 < rX r then some (r - 1, .east) else none
  | .loc => none

/-- The node of a slot of router r. -/
def slotNode (r : Nat) (slotB : Bool) : BitVec 7 := portNode r + (if slotB then 1 else 0)

/-- R58: the routing target. -/
def routeTarget (s : State) (d : BitVec 48) : BitVec 7 :=
  if hDchip d = s.chipnum then hDnode d else gateNode (ringDir s (hDchip d))

/-- R379: the side code of an input; the local input counts by the slot it serves. -/
def inSide (s : State) (net : Net) (r : Nat) : Dir → Nat
  | .loc => if (arbGet s net r .localIn).slot then 5 else 4
  | d => dirIx d

def outSide (rt : Route) : Nat := if rt.out = .loc then (if rt.slot then 5 else 4) else dirIx rt.out

/-! ## Capture of a unit by a router (R17, R19, R21, R22) -/

/-- Can this input capture a unit now (R19)? A slot that still owes an answer captures while it has room on RSP (R80). -/
def rinFree (s : State) (net : Net) (r : Nat) (d : Dir) : Bool :=
  let x := rinGet s net r d
  decide (x.latch = none) &&
  (match x.absorb with
   | some a => a.done || decide (a.answer = none) || (nodeGet s a.head.dnode .rsp).out.isEmpty
   | none => true)

/-- R14, R55, R275: the slot takes a following unit of a packet it absorbs; a sound address unit names the chip to answer. -/
def absorbUnit (s : State) (net : Net) (r : Nat) (d : Dir) (a : Absorb) (u : LinkUnit) : State :=
  let x := rinGet s net r d
  let rest := { a with left := a.left - 1, done := true }
  let s1 := rinSet s net r d { x with absorb := if a.left ≤ 1 then none else some rest }
  match a.answer, a.done with
  | some st, false =>
    if utOf u.d = 2 ∧ unitGood u = true then respond s1 { a.head with schip := aSchip u.d } st [] else s1
  | _, _ => s1

/-- R17 step 3, R21: router r captures unit u at input d; `prevGood`: the unit was sound where it came from. -/
def routerTake (s : State) (net : Net) (r : Nat) (d : Dir) (u : LinkUnit) (prevGood : Bool) : State :=
  let x := rinGet s net r d
  let s1 := bump s (.router r) (routerEv net (inSide s net r d) kUNITIN)
  let s2 :=
    if unitGood u then s1
    else
      let t := bump s1 (.router r) (routerEv net (inSide s net r d) kPARITY)
      if prevGood then raiseFault t srcMESH fLINKPAR (BitVec.ofNat 16 (portNode r).toNat) else t
  match x.absorb with
  | some a => absorbUnit s2 net r d a u
  | none =>
    if x.left ≠ 0 then rinSet s2 net r d { x with latch := some u, left := x.left - 1 }
    else if x.discard ∧ utOf u.d ≠ 1 then s2
    else rinSet s2 net r d { x with latch := some u }

/-! ## Capture of a unit by an NI or agent (R21, R79, R83) -/

/-- Can the NI or agent at a node capture a unit: RSP always (R79), else when no packet of the network waits untaken. -/
def nodeRoom (s : State) (node : BitVec 7) (net : Net) : Bool :=
  decide (net = .rsp) || !(nodeGet s node net).part.isEmpty || (nodeGet s node net).rx.isEmpty

/-- R271, R337: can the node still take a packet that its slot let pass? -/
def nodeTakes (s : State) (node : BitVec 7) : Bool :=
  if nodeSlotB node then sysOn s
  else
    let n := nodeRouter node
    let x := domGet s n
    !(portGet s n).dead && (decide (x.st = .on) || (decide (x.st = .hemming) && decide (x.hem = .drain)))

/-- A packet is whole at its node: it waits there, or, at a port that stopped serving meanwhile, is answered ISOLATED (R272,
R337) or discarded. An agent is no watcher: it discards a WATCH, so that SNP drains (R217). DESIGN CHOICE, assumption 35. -/
def nodeArrive (s : State) (node : BitVec 7) (net : Net) (p : Pkt) : State :=
  if nodeSlotB node = true ∧ net = .snp then nodeMod s node net (fun q => { q with part := [] })
  else if nodeTakes s node then nodeMod s node net (fun q => { q with part := [], rx := q.rx ++ [p] })
  else
    let s1 := nodeMod s node net (fun q => { q with part := [] })
    if (net = .req ∨ net = .dat) ∧ p.hasAddr = true ∧ p.addrBad = false then respond s1 p .isolated [] else s1

/-- R21: is a captured unit counted under PARITY of a port: a parity error, or POISON in a data unit? -/
def unitPoisoned (u : LinkUnit) : Bool := !unitGood u || ((utOf u.d = 0 || utOf u.d = 3) && dPoison u.d)

/-- The NI or agent captures a unit. A head it cannot trust is discarded with what follows, as a router does (R22). -/
def nodeTake (s : State) (node : BitVec 7) (net : Net) (u : LinkUnit) : State :=
  let s1 := if nodeSlotB node = false ∧ unitPoisoned u = true then bump s (.port (nodeRouter node)) pPARITY else s
  let q := nodeGet s1 node net
  if q.part.isEmpty ∧ (utOf u.d ≠ 1 ∨ unitGood u = false ∨ lenGood u.d = false) then s1
  else
    let part := q.part ++ [u]
    let len := match part with | h :: _ => (hLen h.d).toNat | [] => 0
    if part.length ≤ len then nodeSet s1 node net { q with part := part }
    else match parsePkt part with
      | some p => nodeArrive s1 node net p
      | none => s1

/-! ## Handshakes (R25) -/

def shake (s : State) (net : Net) (r : Nat) (d : Dir) : State :=
  let x := delayGet s r
  let k := netIx net * 5 + dirIx d
  let v := tget (fun _ => 0) x.shakes k
  delaySet s r { x with shakes := tset (fun _ => 0) x.shakes k (if v < 4096 then v + 1 else v) }

/-- Takes the unit out of an input latch; with the packet's last unit the output is free again (R62). -/
def rinLeave (s : State) (net : Net) (r : Nat) (d : Dir) (out : ArbName) : State :=
  let x := rinGet s net r d
  if x.left = 0 then
    arbSet (rinSet s net r d { x with latch := none, route := none }) net r out (arbRelease (arbGet s net r out))
  else rinSet s net r d { x with latch := none }

/-- The input that holds an output, with the unit in its latch. -/
def heldUnit (s : State) (net : Net) (r : Nat) (out : Dir) : Option (Dir × LinkUnit) :=
  match (arbGet s net r (.out out)).holder with
  | none => none
  | some i => (rinGet s net r (dirOf i)).latch.map (fun u => (dirOf i, u))

/-! ## UNIT_TRANSFER (R17 to R21) -/

/-- The slots whose next packet waits at a free local input. -/
def slotsWaiting (s : State) (net : Net) (r : Nat) : List Nat :=
  (if (nodeGet s (slotNode r false) net).out.isEmpty then [] else [0]) ++
  (if (nodeGet s (slotNode r true) net).out.isEmpty then [] else [1])

/-- R303: during a hush no NI or agent drives the head unit of a new request; gateways pass through traffic on. -/
def headHeld (s : State) (net : Net) (node : BitVec 7) : Bool :=
  s.power.hush && (decide (net = .req) || decide (net = .dat)) && !(decide (node = nodeGateA) || decide (node = nodeGateB))

/-- R214: the send buffer of port n: its next notification is driven once the one before has left, and a request that waited for
the buffer copies its notifications in. -/
def watchPump (s : State) (n : Nat) : State :=
  if (nodeGet s (portNode n) .snp).out.isEmpty then
    let p := portGet s n
    match p.wsend, p.wheld with
    | w :: ws, _ => sendPkt (portMod s n (fun q => { q with wsend := ws })) (portNode n) .snp w
    | [], w :: ws => sendPkt (portMod s n (fun q => { q with wsend := ws, wheld := [] })) (portNode n) .snp w
    | [], [] => s
  else s

def transferInject (s : State) (net : Net) (node : BitVec 7) (noise : BitVec 49) : State :=
  let r := nodeRouter node
  let b := nodeSlotB node
  let a := arbGet s net r .localIn
  match (nodeGet s node net).out with
  | [] => s
  | u :: rest =>
    if a.holder ≠ some (if b then 1 else 0) ∨ rinFree s net r .loc = false ∨ domOn s 64 = false then s
    else
      let w : LinkUnit := { d := u.d ^^^ noise.extractLsb' 0 48, p := xor u.p (noise.getLsbD 48) }
      let s1 := nodeMod s node net (fun q => { q with out := rest })
      let s2 :=
        if b then s1
        else
          let t := bump s1 (.port r) (pUNITSENT net)
          let t1 := if utOf u.d = 1 ∧ net ≠ .rsp then bump t (.port r) (pREQSENT net) else t
          if utOf u.d = 1 ∧ net = .snp then bump t1 (.port r) pWSENT else t1
      let s3 := routerTake s2 net r .loc w true
      let a1 := if a.left ≤ 1 then { arbRelease a with waited := slotsWaiting s3 net r } else { a with left := a.left - 1 }
      let s4 := arbSet s3 net r .localIn a1
      if node = nodeGateA then meshFromSeams s4 .a
      else if node = nodeGateB then meshFromSeams s4 .b
      else if b = false ∧ net = .snp then watchPump s4 r
      else s4

def transferHop (s : State) (net : Net) (r : Nat) (out : Dir) (noise : BitVec 49) : State :=
  match neighbour r out, heldUnit s net r out with
  | some (r2, d2), some (inp, u) =>
    if rinFree s net r2 d2 = false then s
    else
      let w : LinkUnit := { d := u.d ^^^ noise.extractLsb' 0 48, p := xor u.p (noise.getLsbD 48) }
      let s1 := rinLeave s net r inp (.out out)
      let s2 := shake (bump s1 (.router r) (routerEv net (dirIx out) kUNITOUT)) net r out
      routerTake s2 net r2 d2 w (unitGood u)
  | _, _ => s

def transferDeliver (s : State) (net : Net) (r : Nat) (slotB : Bool) (noise : BitVec 49) : State :=
  match heldUnit s net r .loc with
  | none => s
  | some (inp, u) =>
    let node := slotNode r slotB
    let gate := decide (node = nodeGateA) || decide (node = nodeGateB)
    let ring : Ring := if node = nodeGateA then .a else .b
    let room := if gate then gwRoom s ring net else nodeRoom s node net
    match (rinGet s net r inp).route with
    | none => s
    | some rt =>
      if rt.slot ≠ slotB ∨ room = false then s
      else
        let w : LinkUnit := { d := u.d ^^^ noise.extractLsb' 0 48, p := xor u.p (noise.getLsbD 48) }
        let s1 := rinLeave s net r inp (.out .loc)
        let s2 := shake (bump s1 (.router r) (routerEv net (outSide rt) kUNITOUT)) net r .loc
        if gate then gwTake s2 ring net w else nodeTake s2 node net w

/-- R17 to R21: one unit crosses a link when its sender has one and its receiver a free latch; otherwise nothing moves (R19).
`noise` inverts wires on the way, as a fault of the link would: all zeros for a sound link. -/
def execUnitTransfer (l : Link) (noise : BitVec 49) (s : State) : Res :=
  match l with
  | .inject net node => .next (transferInject s net node noise)
  | .hop net r out =>
    match neighbour r.val out with
    | none => .fault (.illFormed "UNIT_TRANSFER")
    | some _ => .next (transferHop s net r.val out noise)
  | .deliver net r b => .next (transferDeliver s net r.val b noise)

/-! ## ROUTER_HEAD_ARRIVAL (R14, R22, R56, R58, R59, R275, R338) -/

def headPkt (d : BitVec 48) : Pkt :=
  { dchip := hDchip d, dnode := hDnode d, snode := hSnode d, cmd := hCmd d, cls := hCls d, tag := hTag d, hasAddr := false,
    addrBad := false, schip := 0, cid := 0, addr := 0, data := [], formed := true }

/-- R338, R342: a WRITE that a dead port's slot swallows. -/
def swallow (s : State) (node : BitVec 7) (net : Net) (d : BitVec 48) : State :=
  if nodeSlotB node = false ∧ (portGet s (nodeRouter node)).dead = true ∧ (net = .req ∨ net = .dat) then
    match opOf (hCmd d) with
    | .write _ => portMod s (nodeRouter node) (fun p => { p with swallow := if p.swallow = 0xFFFF then 0xFFFF else p.swallow + 1 })
    | _ => s
  else s

/-- R22, R56: the head is not routed; the following units up to the next head are discarded as they come. -/
def headDiscard (s : State) (net : Net) (r : Nat) (inp : Dir) (u : LinkUnit) : State :=
  let x := rinGet s net r inp
  let s1 := rinSet s net r inp { x with latch := none, discard := true }
  if unitGood u = true ∧ utOf u.d = 1 then
    raiseFault (bump s1 (.router r) (routerEv net (inSide s net r inp) kPARITY)) srcMESH fLINKPAR
      (BitVec.ofNat 16 (portNode r).toNat)
  else s1

/-- The slot at the local output absorbs the packet (R14, R275, R338). -/
def headAbsorb (s : State) (net : Net) (r : Nat) (inp : Dir) (u : LinkUnit) (node : BitVec 7) (ans : Option Status) : State :=
  let x := rinGet s net r inp
  let len := (hLen u.d).toNat
  let a : Absorb := { head := headPkt u.d, answer := ans, done := false, left := len }
  let s1 := rinSet s net r inp { x with latch := none, discard := false, absorb := if len = 0 then none else some a }
  swallow (bump s1 (.router r) (routerEv net (if nodeSlotB node then 5 else 4) kABSORB)) node net u.d

/-- R59, R62, R65: the head waits for its output; one that finds the output held is waiting when the arbiter next resolves. -/
def headRoute (s : State) (net : Net) (r : Nat) (inp : Dir) (u : LinkUnit) (rt : Route) : State :=
  let x := rinGet s net r inp
  let s1 := rinSet s net r inp { x with route := some rt, left := (hLen u.d).toNat, discard := false }
  let a := arbGet s1 net r (.out rt.out)
  if a.holder = none then s1
  else bump (arbSet s1 net r (.out rt.out) { a with waited := a.waited ++ [dirIx inp] }) (.router r)
         (routerEv net (outSide rt) kBLOCKED)

/-- Router r deals with the head in input `inp`. -/
def execRouterHeadArrival (net : Net) (r : Fin 64) (inp : Dir) (s : State) : Res :=
  let x := rinGet s net r.val inp
  match x.latch, x.route, x.absorb with
  | some u, none, none =>
    if unitGood u = false ∨ utOf u.d ≠ 1 ∨ lenGood u.d = false then .next (headDiscard s net r.val inp u)
    else
      let t := routeTarget s u.d
      let d := routeTo r.val t
      if d = .loc then
        match slotDo s t net (hDchip u.d) with
        | .deliver => .next (headRoute s net r.val inp u { out := .loc, slot := nodeSlotB t })
        | .absorb ans => .next (headAbsorb s net r.val inp u t ans)
      else .next (headRoute s net r.val inp u { out := d, slot := false })
  | _, _, _ => .next s

/-! ## OUTPUT_GRANT, BULK_PROMOTION (R61 to R67) -/

/-- The heads that wait for an arbiter, as (index, class). -/
def contenders (s : State) (net : Net) (r : Nat) : ArbName → List (Nat × Nat)
  | .out d => (List.range 5).filterMap (fun i =>
      let x := rinGet s net r (dirOf i)
      match x.latch, x.route with
      | some u, some rt => if rt.out = d then some (i, (hCls u.d).toNat) else none
      | _, _ => none)
  | .localIn => (List.range 2).filterMap (fun i =>
      match (nodeGet s (slotNode r (decide (i = 1))) net).out with
      | u :: _ => if headHeld s net (slotNode r (decide (i = 1))) then none else some (i, (hCls u.d).toNat)
      | [] => none)

/-- R379: the side that an arbiter's grant to contender i counts under. -/
def arbSide (s : State) (net : Net) (r : Nat) : ArbName → Nat → Nat
  | .out _, i => match (rinGet s net r (dirOf i)).route with | some rt => outSide rt | none => 6
  | .localIn, i => 4 + i

/-- Units of the packet that contender i would drive, its head included. -/
def packetLen (s : State) (net : Net) (r : Nat) : ArbName → Nat → Nat
  | .out _, i => (rinGet s net r (dirOf i)).left + 1
  | .localIn, i =>
    match (nodeGet s (slotNode r (decide (i = 1))) net).out with
    | u :: _ => (hLen u.d).toNat + 1
    | [] => 0

/-- R62 to R66: the free arbiter grants one of the heads it considers: every head that was waiting when it began to resolve, and
those of the later ones that `mask` names. -/
def grantAt (s : State) (net : Net) (r : Nat) (arb : ArbName) (mask : BitVec 5) : State :=
  let a := arbGet s net r arb
  match a.holder with
  | some _ => s
  | none =>
    let all := contenders s net r arb
    let n := match arb with | .out _ => 5 | .localIn => 2
    let seen := all.filter (fun c => a.waited.contains c.1 || mask.getLsbD c.1)
    match arbPick a n seen with
    | none => s
    | some (w, top) =>
      let g := arbGrant a w top (packetLen s net r arb w) all
      let s1 := arbSet s net r arb { g with slot := decide (w = 1) }
      match arb with
      | .localIn => s1
      | .out _ =>
        let late := all.filter (fun c => c.1 ≠ w && !a.waited.contains c.1)
        let s2 := bump s1 (.router r) (routerEv net (arbSide s net r arb w) kGRANT)
        late.foldl (fun t c => bump t (.router r) (routerEv net (arbSide s net r arb c.1) kBLOCKED)) s2

def execOutputGrant (net : Net) (r : Fin 64) (arb : ArbName) (mask : BitVec 5) (s : State) : Res :=
  .next (grantAt s net r.val arb mask)

/-- R66, R67: a BULK head passed over 8 times competes as STD from then on (effClass); the promotion is counted once. -/
def execBulkPromotion (net : Net) (r : Fin 64) (arb : ArbName) (cand : Fin 5) (s : State) : Res :=
  let a := arbGet s net r.val arb
  if (contenders s net r.val arb).contains (cand.val, 0) ∧ tget (fun _ => 0) a.passes cand.val = 8 then
    .next (bump (arbSet s net r.val arb { a with passes := tset (fun _ => 0) a.passes cand.val 9 }) (.router r.val)
      (routerEv net (arbSide s net r.val arb cand.val) kPROMOTE))
  else .next s

/-! ## DELAY_LINE_SWAP (R25) -/

/-- R25: no packet is passing through the router. -/
def betweenPackets (s : State) (r : Nat) : Bool :=
  [Net.req, .dat, .rsp, .snp].all (fun net =>
    [Dir.north, .east, .south, .west, .loc].all (fun d => decide ((arbGet s net r (.out d)).holder = none)))

/-- The lines swap: the trimmed idle line, at tap code `tap`, takes over. -/
def execDelayLineSwap (r : Fin 64) (tap : BitVec 6) (s : State) : Res :=
  let x := delayGet s r.val
  if (x.due || x.shakes.any (fun e => decide (4096 ≤ e.2))) && betweenPackets s r.val && domOn s 64 then
    .next (delaySet s r.val { lineB := !x.lineB, tapA := if x.lineB then tap else x.tapA,
                              tapB := if x.lineB then x.tapB else tap, due := false, shakes := [] })
  else .next s

/-! ## ISO_FRAME_BOUNDARY (R70 to R75) -/

/-- An access in port n's intake that goes through an ISO window. -/
def isoWaiting (s : State) (n : Nat) : Bool :=
  (portGet s n).intake.any (fun a => match windowFor s n a.p.toNat with | some w => decide (w.cls = 3) | none => false)

/-- R74: the NI learns of the boundary. -/
def isoReload (s : State) (n : Nat) : State :=
  let s1 := if isoWaiting s n ∧ (portGet s n).isoLeft ≠ 0 then bump s (.port n) pISOSHORT else s
  portMod s1 n (fun p => { p with isoLeft := isobud s1 n })

/-- R70: in LIMP no frame boundary occurs. -/
def execIsoFrameBoundary (s : State) : Res :=
  if s.power.limp then .next s
  else
    let s1 := timeMod s (fun t => { t with isoLive := (cfgGet s 0x84 0x405).extractLsb' 0 16, isoCount := 0 })
    .next ((List.range 64).foldl isoReload s1)

end Sys2Proof.Machine
end

