-- ==== Sys2Proof/Machine/Access.lean ====
section
/-!
DEFINITION. The initiator side of a port (05, 06): accesses on its bus, the intake, decode through the windows, tags, resends.
-/
namespace Sys2Proof.Machine

/-! ## What the device sees -/

/-- R114: PERR records the first failure, and that more followed. -/
def perrRec (w : Word) (st : Status) (addr : BitVec 24) : Word :=
  if w.getLsbD 4 then w ||| 0x20 else addr ++ 0#3 ++ 1#1 ++ statusCode st

/-- R100, R113, R114: an access of port n ends with a status other than OK: recorded, and counted as a transaction that failed. -/
def portFail (s : State) (n : Nat) (st : Status) (addr : BitVec 24) : State :=
  portMod (bump s (.port n) pRSPERR) n (fun p => { p with perr := perrRec p.perr st addr })

/-- How many bytes of read data the device takes for an access (R107, R113). -/
def devBytes (a : Access) : Nat :=
  match a.kind with
  | .write => 0
  | .fence | .probe => 2
  | _ => a.len

/-- Does the access move read data that R393 counts? -/
def countedRead (a : Access) : Nat :=
  match a.kind with
  | .write | .fence | .probe => 0
  | _ => a.len

/-- R112, R113: the bus cycle of an access ends; a failed one reads all ones, a FENCE or PROBE beat carries 0. -/
def devEnd (s : State) (n : Nat) (a : Access) (st : Status) (rdata : List Byte) : State :=
  if a.kind = .write ∧ a.posted = true then s
  else
    let rd := if a.kind = .fence ∨ a.kind = .probe then [0, 0] else if st = .ok then rdata else List.replicate (devBytes a) 0xFF
    portMod s n (fun p => { p with bus := { phase := .ended, rdata := rd, stat := st },
                                   bytesRd := p.bytesRd + BitVec.ofNat 32 (countedRead a) })

/-- An access completes at its initiator without a packet (R52). -/
def accessFail (s : State) (n : Nat) (a : Access) (st : Status) : State := devEnd (portFail s n st a.p) n a st []

/-! ## The intake (R112, R470) -/

/-- R470: posted at entry, by the lowest window that contains the first byte then. -/
def postedAt (s : State) (n : Nat) (a : Access) : Bool :=
  decide (a.kind = .write) && (match windowFor s n a.p.toNat with | some w => w.posted | none => false)

/-- The access enters the intake; a posted write ends its bus cycle there. -/
def intakePut (s : State) (n : Nat) (a : Access) : State :=
  let a1 := { a with posted := postedAt s n a }
  let s1 := portMod s n (fun p => { p with intake := p.intake ++ [a1],
                                           bus := if a1.posted then { phase := .ended, rdata := [], stat := .ok } else p.bus })
  if (portGet s1 n).intake.length = 2 then bump s1 (.port n) pINTAKEFULL else s1

/-- The oldest access leaves the intake; a captured one that waited for the place enters. -/
def intakeDrop (s : State) (n : Nat) : State :=
  let s1 := portMod s n (fun p => { p with intake := p.intake.drop 1, front := none })
  match (portGet s1 n).captured with
  | some a => intakePut (portMod s1 n (fun p => { p with captured := none })) n a
  | none => s1

/-- R98, R109, R270: the device starts an access: it enters the intake, waits for a place, or, past the fence, ends with ASLEEP.
A port that is dead, in local reset or not powered does not see it. -/
def accessStart (s : State) (n : Nat) (a : Access) : State :=
  let p := portGet s n
  let x := domGet s n
  let s1 := portMod s n (fun q => { q with bus := { phase := .waiting, rdata := [], stat := .ok },
                                           bytesWr := q.bytesWr + BitVec.ofNat 32 ((a.bytes.filter (·.2)).length) })
  if p.dead then s
  else if x.st = .hemming ∧ x.hem = .drain then accessFail s1 n { a with posted := false } .asleep
  else if x.st = .on then
    if p.intake.length < 2 then intakePut s1 n a else portMod s1 n (fun q => { q with captured := some a })
  else s

/-! ## Forming packets (R96, R466, R54, R134, R468) -/

/-- The byte of an access at offset k, as written. -/
def wordOf (bytes : List (Byte × Bool)) (f0 : Nat) (waddr : Nat) : DataUnit :=
  let at_ := fun (lane : Nat) =>
    let pos := waddr * 4 + lane
    if pos < f0 then (0#8, false) else bytes.getD (pos - f0) (0#8, false)
  let b := fun lane => (at_ lane).1
  let e := fun lane => (at_ lane).2
  { data := b 3 ++ b 2 ++ b 1 ++ b 0,
    be := BitVec.ofBool (e 3) ++ BitVec.ofBool (e 2) ++ BitVec.ofBool (e 1) ++ BitVec.ofBool (e 0), bad := false }

/-- R40, R466: word addresses cut at each 256-byte boundary and after 16 words, counted from a part's first word. -/
def cutWords : List Nat → List Nat → List (List Nat)
  | [], [] => []
  | [], cur => [cur]
  | w :: ws, cur =>
    if cur.isEmpty then cutWords ws [w]
    else if w % 64 = 0 ∨ cur.length = 16 then cur :: cutWords ws [w]
    else cutWords ws (cur ++ [w])

/-- The words that `len` bytes from byte address f0 touch. -/
def touched (f0 len : Nat) : List Nat := (List.range ((f0 + len - 1) / 4 - f0 / 4 + 1)).map (fun i => f0 / 4 + i)

/-- The 32-bit word of 4 bytes, low first. -/
def le32 (bs : List (Byte × Bool)) : Word :=
  (bs.getD 3 (0, false)).1 ++ (bs.getD 2 (0, false)).1 ++ (bs.getD 1 (0, false)).1 ++ (bs.getD 0 (0, false)).1

def le4be (bs : List (Byte × Bool)) : BitVec 4 :=
  BitVec.ofBool (bs.getD 3 (0, false)).2 ++ BitVec.ofBool (bs.getD 2 (0, false)).2 ++
  BitVec.ofBool (bs.getD 1 (0, false)).2 ++ BitVec.ofBool (bs.getD 0 (0, false)).2

/-- R468: the data units of a SYNC16 atomic; every one carries the enables of the first operand. -/
def syncAtomicData (a : Access) : List DataUnit :=
  let be := le4be a.bytes
  match a.kind with
  | .tas => [goodUnit 0 0xF]
  | .cas => [goodUnit (le32 a.bytes) be, goodUnit (le32 (a.bytes.drop 4)) be]
  | _ => [goodUnit (le32 a.bytes) be]

/-- R134: the value of an operand latch in the lanes that a read of `len` bytes at fabric byte f enables. -/
def latchUnit (v : Half) (f len : Nat) : DataUnit :=
  let lo := v.extractLsb' 0 8
  let hi := v.extractLsb' 8 8
  wordOf (if len = 1 then [(lo, true)] else [(lo, true), (hi, true)]) f (f / 4)

/-- R134: the atomic that a read through an ATOMIC window forms. -/
def latchAtomic (p : PortSt) (aop f len : Nat) : AccKind × List DataUnit :=
  match aop with
  | 0 => (.tas, [{ latchUnit 0 f len with data := 0 }])
  | 1 => (.fadd, [latchUnit p.opn f len])
  | 2 => (.swap, [latchUnit p.opn f len])
  | _ => (.cas, [latchUnit p.opc f len, latchUnit p.opn f len])

def kindOp : AccKind → Nat → Op
  | .read, n => .read n | .write, n => .write n | .swap, _ => .swap | .fadd, _ => .fadd | .tas, _ => .tas | .cas, _ => .cas
  | .fence, _ => .fence | .probe, _ => .probe

/-- The packets of an access at fabric byte address f; `latched`: a FLAT8 or MUX16 read through an ATOMIC window. -/
def partsOf (p : PortSt) (a : Access) (f : BitVec 32) (aop : Nat) (latched : Bool) : List Part :=
  let addr := BitVec.ofNat 30 (f.toNat / 4)
  if latched then
    let k := latchAtomic p aop f.toNat a.len
    [{ cmd := cmdOf (kindOp k.1 1), addr := addr, data := k.2 }]
  else
    match a.kind with
    | .read => (cutWords (touched f.toNat a.len) []).map (fun ws =>
        { cmd := cmdOf (.read ws.length), addr := BitVec.ofNat 30 (ws.headD 0), data := [] })
    | .write => (cutWords (touched f.toNat a.len) []).map (fun ws =>
        { cmd := cmdOf (.write ws.length), addr := BitVec.ofNat 30 (ws.headD 0), data := ws.map (wordOf a.bytes f.toNat) })
    | .fence | .probe => [{ cmd := cmdOf (kindOp a.kind 0), addr := addr, data := [] }]
    | k => [{ cmd := cmdOf (kindOp k 1), addr := addr, data := syncAtomicData a }]

/-! ## Tags and requests of a port -/

/-- R83: port n's NI works, and has no unit of an earlier request still to drive. -/
def niFree (s : State) (n : Nat) : Bool :=
  let x := domGet s n
  !(portGet s n).dead && (decide (x.st = .on) || (decide (x.st = .hemming) && decide (x.hem = .drain))) &&
  (nodeGet s (portNode n) .req).out.isEmpty && (nodeGet s (portNode n) .dat).out.isEmpty

/-- R303, R341: may port n drive the head of a new request? -/
def mayRequest (s : State) (n : Nat) : Bool := niFree s n && !(portGet s n).quiet && !s.power.hush

/-- Drives a request of port n under the tag that has been FREE longest (R139); the caller has looked at the tags, the hazard
rule and the budget. -/
def portSend (s : State) (n : Nat) (t : Byte) (dchip : Byte) (dnode : BitVec 7) (cls : BitVec 2) (cid : Byte) (q : Part)
    (wake : Bool) (use : TagUse) : State :=
  let op := opOf q.cmd
  let p : Pkt := { dchip := dchip, dnode := dnode, snode := portNode n, cmd := q.cmd, cls := cls, tag := t, hasAddr := true,
                   addrBad := false, schip := s.chipnum, cid := cid, addr := q.addr, data := q.data, formed := true }
  let net := netOf (splitMode s n) op
  let x : Tag := { st := .held, dchip := dchip, dnode := dnode, cmd := q.cmd, wr := opWrites op, wake := wake, retry := false,
                   net := net, pkt := pktUnits p, use := use }
  sendPkt (portMod s n (fun y => { y with pool := { tagPut y.pool t x with free := y.pool.free.drop 1 } })) (portNode n) net p

/-- R262, R420: the wake-request word of SYS, at fabric byte address 0x114. -/
def wakeAddr : BitVec 30 := 0x45
def wakeData (node : BitVec 7) : DataUnit := goodUnit (node.setWidth 32) 0xF

/-- R144 step 3: one CTL write to the wake-request word of SYS on the destination's chip, when a tag and the hazard rule allow. -/
def wakeAsk (s : State) (n : Nat) (tag : Byte) (x : Tag) (cid : Byte) : State :=
  let p := portGet s n
  match p.pool.free with
  | [] => bump s (.port n) pNOTAG
  | t :: _ =>
    if hazard p.pool x.dchip nodeSys then bump s (.port n) pHAZARD
    else portSend s n t x.dchip nodeSys 2 cid { cmd := cmdOf (.write 1), addr := wakeAddr, data := [wakeData x.dnode] } false
      (.wakeReq tag)

/-! ## INTAKE_DECODE (R129 to R134, R147) -/

/-- R133, R468: may an access be formed through window w at all? -/
def atomicAllowed (s : State) (n : Nat) (w : Window) (a : Access) : Bool :=
  match a.kind with
  | .swap | .fadd | .tas | .cas => isSync s n && w.atomic && !a.p.getLsbD 1
  | _ => true

/-- What decode makes of an access. -/
inductive Decoded where
  | fail (miss : Bool)
  | latch
  | go (f : Front)
  deriving DecidableEq, Repr

/-- R128 to R133, R115: decodes the oldest access through the live windows. -/
def decodeAccess (s : State) (n : Nat) (a : Access) : Decoded :=
  match windowFor s n a.p.toNat with
  | none => .fail true
  | some w =>
    if w.base + w.size < a.p.toNat + a.len then .fail true
    else if atomicAllowed s n w a = false then .fail false
    else if inTable s w.dchip = false ∨ (isDual s n = true ∧ w.dchip = s.chipnum ∧ w.dnode = portNode n) then .fail false
    else
      let viaLatch := w.atomic && !isSync s n
      if viaLatch && decide (a.kind = .write) then .latch
      else
        let parts := partsOf (portGet s n) a (fabricAddr w a.p.toNat) w.aop (viaLatch && decide (a.kind = .read))
        .go { id := (portGet s n).nextAcc, dchip := w.dchip, dnode := w.dnode, cls := w.cls,
              wake := w.wake && decide (a.kind ≠ .probe), sent := 0, parts := parts }

/-- R134: a write through an ATOMIC window loads the operand latches and ends. -/
def latchWrite (s : State) (n : Nat) (a : Access) : State :=
  let v : Half := match a.bytes with
    | [b] => 0#8 ++ b.1
    | b :: c :: _ => c.1 ++ b.1
    | [] => 0
  devEnd (portMod s n (fun p => { p with opc := p.opn, opn := v })) n a .ok []

def markOf (p : PortSt) (cid : Byte) : Mark := tget (fun _ => Mark.unclaimed) p.marks cid.toNat
def markSet (p : PortSt) (cid : Byte) (m : Mark) : PortSt :=
  { p with marks := tset (fun _ => Mark.unclaimed) p.marks cid.toNat m }

/-- Is a claim of this port outstanding (R147)? -/
def claimHeld (p : PortSt) : Bool := p.pool.tags.any (fun e => decide (e.2.st = .held) && (match e.2.use with | .claim _ => true | _ => false))

/-- R147: a claim, a CTL request to SYS of this chip. It has no packet form in the spec: it waits at SYS as a claim, and its
answer travels on RSP. DESIGN CHOICE, assumption 12, safe. -/
def sendClaim (s : State) (n : Nat) (cid : Byte) : State :=
  let p := portGet s n
  match p.pool.free with
  | [] => bump s (.port n) pNOTAG
  | t :: rest =>
    if hazard p.pool s.chipnum nodeSys then bump s (.port n) pHAZARD
    else
      let x : Tag := { Tag.reset with st := .held, dchip := s.chipnum, dnode := nodeSys, cmd := cmdOf (.write 1), wr := true,
                                      use := .claim cid }
      let s1 := bump (portMod s n (fun y => { y with pool := { tagPut y.pool t x with free := rest } })) (.port n) pCLAIM
      if sysOn s then sysMod s1 (fun y => { y with claims := y.claims ++ [{ chip := s.chipnum, port := n, cid := cid, tag := t }] })
      else
        let q := requestPkt s.chipnum nodeSys (portNode n) (.write 1) 2 t s.chipnum cid 0 []
        sendPkt s1 nodeSys .rsp (responsePkt q .asleep [])

/-- R73, R75, R298: the class a packet goes out with and what it is charged; in LIMP an ISO window sends STD and charges nothing. -/
def isoClass (s : State) (cls : BitVec 2) : BitVec 2 := if cls = 3 ∧ s.power.limp = true then 1 else cls
def isoCost (s : State) (cls : BitVec 2) (op : Op) : Nat := if cls = 3 ∧ s.power.limp = false then isoCharge op else 0

/-- R75: takes the charge from the budget and counts the request. -/
def isoSpend (s : State) (n : Nat) (cost : Nat) : State :=
  if cost = 0 then s
  else bump (portMod s n (fun p => { p with isoLeft := p.isoLeft - BitVec.ofNat 16 cost })) (.port n) pISOSENT

/-- The next packet of the access in front is formed and sent, once a tag (R142), the hazard rule (R143) and the ISO budget (R75)
allow. -/
def frontSend (s : State) (n : Nat) (a : Access) (f : Front) : State :=
  let p := portGet s n
  match f.parts, p.pool.free with
  | [], _ => intakeDrop s n
  | _ :: _, [] => bump s (.port n) pNOTAG
  | q :: rest, t :: _ =>
    let cost := isoCost s f.cls (opOf q.cmd)
    if hazard p.pool f.dchip f.dnode then bump s (.port n) pHAZARD
    else if p.isoLeft.toNat < cost then bump s (.port n) pISOWAIT
    else
      let s1 := isoSpend s n cost
      let s2 := portSend s1 n t f.dchip f.dnode (isoClass s f.cls) a.cid q f.wake (.access f.id f.sent)
      if rest.isEmpty then intakeDrop s2 n
      else portMod s2 n (fun y => { y with front := some { f with sent := f.sent + 1, parts := rest } })

/-- The access in front is decoded: its packets are numbered, and it waits on all of them (R141). -/
def frontOpen (s : State) (n : Nat) (a : Access) (f : Front) (faddr : BitVec 32) : State :=
  let o : Outst := { acc := a, faddr := faddr, left := f.parts.length, failed := none, rd := [] }
  portMod (bump s (.port n) pACCESS) n (fun p => { p with front := some f, nextAcc := p.nextAcc + 1, accs := tput p.accs f.id o })

/-- The oldest access of port n's intake: decoded and its first packet sent, a claim sent first, its next packet sent, or ended
without a packet. -/
def execIntakeDecode (n : Fin 64) (s : State) : Res :=
  let p := portGet s n.val
  if niFree s n.val = false then .next s
  else
    match p.intake, p.front with
    | [], _ => .next s
    | a :: _, some f => if mayRequest s n.val then .next (frontSend s n.val a f) else .next s
    | a :: _, none =>
      if claimHeld p || !domOn s n.val then .next s
      else
        match decodeAccess s n.val a with
        | .fail miss =>
          let s1 := bump s (.port n.val) pACCESS
          let s2 := if miss then bump s1 (.port n.val) pWINMISS else s1
          .next (accessFail (intakeDrop s2 n.val) n.val a .decerr)
        | .latch => .next (latchWrite (intakeDrop (bump s (.port n.val) pACCESS) n.val) n.val a)
        | .go f =>
          match markOf p a.cid with
          | .refused => .next (accessFail (intakeDrop (bump s (.port n.val) pACCESS) n.val) n.val a .dupcid)
          | .unclaimed => if mayRequest s n.val then .next (sendClaim s n.val a.cid) else .next s
          | .claimed =>
            let fa := match windowFor s n.val a.p.toNat with | some w => fabricAddr w a.p.toNat | none => 0
            if mayRequest s n.val then .next (frontSend (frontOpen s n.val a f fa) n.val a f) else .next s

/-! ## ACCESS_CAPTURE, STROBE_RELEASE (R98 to R100) -/

/-- Is this port a FLAT8 or MUX16 port in role INIT with its bus at rest? -/
def pinPort (s : State) (n : Nat) : Bool := !isSync s n && isInit s n && decide (pers s n ≤ 1)

/-- R96, R128: the access that the pins spell. -/
def pinAccess (s : State) (n : Nat) (a : PinAccess) : Access :=
  let flat := isFlat s n
  let p : BitVec 24 := if flat then a.addr &&& 0xFFFF else a.addr
  let lo := a.data.extractLsb' 0 8
  let hi := a.data.extractLsb' 8 8
  let bytes : List (Byte × Bool) :=
    if flat then [(lo, true)]
    else if a.addr.getLsbD 0 then [(hi, true)] else if a.bheN then [(lo, true)] else [(lo, true), (hi, true)]
  { kind := if a.wrN then .read else .write, p := p, len := bytes.length, bytes := if a.wrN then [] else bytes, cid := dcid s n,
    posted := false }

/-- R98, R100, R270. -/
def execAccessCapture (n : Fin 64) (acc : PinAccess) (s : State) : Res :=
  let p := portGet s n.val
  if pinPort s n.val = false ∨ p.bus.phase ≠ .idle ∨ (acc.rdN = true ∧ acc.wrN = true) ∨ (isFlat s n.val = true ∧ acc.csN = true) then
    .next s
  else
    let bad := (!acc.rdN && !acc.wrN) || (!isFlat s n.val && acc.addr.getLsbD 0 && acc.bheN)
    let a := pinAccess s n.val acc
    if bad then
      if p.dead ∨ domOn s n.val = false then .next s
      else .next (portMod (portFail s n.val .decerr a.p) n.val (fun q => { q with bus := { phase := .ended, rdata := [], stat := .decerr } }))
    else .next (accessStart s n.val a)

/-- R98 steps 9 to 11, R99: the strobe rises after the cycle's end, and the port is ready for a new access. -/
def execStrobeRelease (n : Fin 64) (s : State) : Res :=
  if pinPort s n.val = true ∧ (portGet s n.val).bus.phase = .ended then
    .next (portMod s n.val (fun p => { p with bus := DevBus.reset }))
  else .next s

/-! ## SYNC16 commands (R106 to R109, R468) -/

/-- R109, R111: can the device's C1 transfer: a SYNC16 port in role INIT or DUAL, DIR 0, READY high? -/
def syncReady (s : State) (n : Nat) : Bool :=
  let p := portGet s n
  isSync s n && (isInit s n || isDual s n) && !p.claimed && !p.dead && decide (p.bus.phase ≠ .waiting) &&
    decide (p.captured = none) && decide (p.intake.length < 2)

/-- R108: the client ID of a SYNC16 access. -/
def syncCid (s : State) (n : Nat) (c2 : Beat) : Byte := if xcmd s n then c2.pa else dcid s n

/-- R106, R107: does this command run under OP k? With XCMD 0 there is no C2, and W chooses READ or WRITE. -/
def syncIs (s : State) (n : Nat) (c1 c2 : Beat) (k : AccKind) : Bool :=
  if xcmd s n then decide (opCode16 (c2Op c2) = some k) else decide ((if c1Write c1 then AccKind.write else .read) = k)

/-- The two bytes and enables of a write or operand beat (R106). -/
def beatBytes (b : Beat) : List (Byte × Bool) :=
  [(b.pd.extractLsb' 0 8, b.pa.getLsbD 0), (b.pd.extractLsb' 8 8, b.pa.getLsbD 1)]

/-- Starts a SYNC16 access of kind k with its operand or write beats. -/
def syncStart (s : State) (n : Nat) (c1 c2 : Beat) (k : AccKind) (len : Nat) (beats : List Beat) : State :=
  if syncReady s n && syncIs s n c1 c2 k then
    accessStart s n { kind := k, p := c1Addr c1, len := len, bytes := beats.flatMap beatBytes, cid := syncCid s n c2, posted := false }
  else s

/-- R107, R108: COUNT + 1 beats, or SRDLEN + 1 with XCMD 0. -/
def execSync16Read (n : Fin 64) (c1 c2 : Beat) (s : State) : Res :=
  .next (syncStart s n.val c1 c2 .read (2 * ((if xcmd s n.val then c2Count c2 else srdlen s n.val) + 1)) [])

/-- R107, R108: with XCMD 1, COUNT + 1 beats; with XCMD 0, 1 to 32 beats, the last of them with LAST. -/
def execSync16Write (n : Fin 64) (c1 c2 : Beat) (beats : List Beat) (s : State) : Res :=
  if beats.length = 0 ∨ 32 < beats.length then .fault (.illFormed "SYNC16_WRITE")
  else if xcmd s n.val = true ∧ beats.length ≠ c2Count c2 + 1 then .next s
  else .next (syncStart s n.val c1 c2 .write (2 * beats.length) beats)

def execSync16Swap (n : Fin 64) (c1 c2 o1 o2 : Beat) (s : State) : Res := .next (syncStart s n.val c1 c2 .swap 4 [o1, o2])

def execSync16Fadd (n : Fin 64) (c1 c2 o1 o2 : Beat) (s : State) : Res := .next (syncStart s n.val c1 c2 .fadd 4 [o1, o2])

def execSync16Tas (n : Fin 64) (c1 c2 : Beat) (s : State) : Res := .next (syncStart s n.val c1 c2 .tas 4 [])

def execSync16Cas (n : Fin 64) (c1 c2 o1 o2 o3 o4 : Beat) (s : State) : Res :=
  .next (syncStart s n.val c1 c2 .cas 4 [o1, o2, o3, o4])

def execSync16Fence (n : Fin 64) (c1 c2 : Beat) (s : State) : Res := .next (syncStart s n.val c1 c2 .fence 2 [])

def execSync16Probe (n : Fin 64) (c1 c2 : Beat) (s : State) : Res := .next (syncStart s n.val c1 c2 .probe 2 [])

/-- A C2 with a reserved OP forms no request and takes no data beats; PERR records DECERR (05, corner cases; R52). -/
def execSync16ReservedOp (n : Fin 64) (c1 c2 : Beat) (s : State) : Res :=
  if syncReady s n.val && xcmd s n.val && decide (opCode16 (c2Op c2) = none) && domOn s n.val then
    .next (portMod (portFail s n.val .decerr (c1Addr c1)) n.val
      (fun q => { q with bus := { phase := .ended, rdata := [], stat := .decerr } }))
  else .next s

/-! ## Completing an access (R141, R113) -/

/-- The bytes that `len` bytes at fabric byte address f take from words read from word f / 4 on. -/
def readBytes (f len : Nat) (ws : List Word) : List Byte :=
  (List.range len).map (fun k =>
    let pos := f + k
    laneOf (ws.getD (pos / 4 - f / 4) 0) (pos % 4))

/-- All words of an access in part order. -/
def rdWords (rd : List (Nat × List Word)) (parts : Nat) : List Word :=
  (List.range parts).flatMap (fun i => match rd.find? (fun e => e.1 = i) with | some e => e.2 | none => [])

/-- R141: packet `part` of access `id` completed; with the last one the access ends, with the status of its lowest-addressed
failure. -/
def accPart (s : State) (n id part : Nat) (st : Status) (ws : List Word) : State :=
  let p := portGet s n
  match p.accs.find? (fun e => e.1 = id) with
  | none => s
  | some e =>
    let o := e.2
    let failed := if st = .ok then o.failed else
      match o.failed with
      | some (k, v) => if part < k then some (part, st) else some (k, v)
      | none => some (part, st)
    let o1 : Outst := { o with left := o.left - 1, failed := failed, rd := (part, ws) :: o.rd }
    if 1 < o.left then portMod s n (fun q => { q with accs := tput q.accs id o1 })
    else
      let s1 := portMod s n (fun q => { q with accs := terase q.accs id })
      match failed with
      | some (_, v) => devEnd (portMod s1 n (fun q => { q with perr := perrRec q.perr v o.acc.p })) n o.acc v []
      | none => devEnd s1 n o.acc .ok (readBytes o.faddr.toNat o.acc.len (rdWords o1.rd 64))

/-- R139: a tag's state after its transaction completed with a status. -/
def tagAfter (st : Status) (p : TagPool) (t : Byte) : TagPool :=
  if st = .timeout ∨ st = .ringbreak then tagStale p t else tagFree p t

/-- The forwarded interrupt address of PERR (R114). -/
def pirqAddr : BitVec 24 := 0xFFFFFF

/-- R147: the answer to a claim: the mark, and what it means for the access that waits for it, when that is still there. -/
def claimDone (s : State) (n : Nat) (cid : Byte) (st : Status) : State :=
  let s1 := match st with
    | .ok => portMod s n (fun p => markSet p cid .claimed)
    | .dupcid => portMod s n (fun p => markSet p cid .refused)
    | _ => s
  match (portGet s1 n).intake, (portGet s1 n).front with
  | a :: _, none =>
    if st = .ok ∨ a.cid ≠ cid then s1 else accessFail (intakeDrop (bump s1 (.port n) pACCESS) n) n a st
  | _, _ => s1

/-- R120: the forwarded write completed; one more is due if an activation or repeat fell due meanwhile (sent by the next one). -/
def pirqDone (s : State) (n : Nat) (st : Status) : State :=
  portMod s n (fun p => { p with fwdOut := false, perr := if st = .ok then p.perr else perrRec p.perr st pirqAddr })

/-- A HELD tag of port n completes with a status and, for OK, the words of its response. -/
def portTagDone (s : State) (n : Nat) (t : Byte) (st : Status) (ws : List Word) : State :=
  let x := tagAt (portGet s n).pool t
  let s1 := portMod s n (fun p => { p with pool := tagAfter st p.pool t })
  let s2 := bump s1 (.port n) (if st = .ok then pRSPOK else pRSPERR)
  match x.use with
  | .access id part => accPart s2 n id part st ws
  | .claim cid => claimDone s2 n cid st
  | .pirq => pirqDone s2 n st
  | _ => s2

/-- Every HELD tag of port n for which `pick` holds completes with a status (R163, R197, R272, R336). -/
def portTagsDone (s : State) (n : Nat) (pick : Tag → Bool) (st : Status) : State :=
  ((portGet s n).pool.tags.filter (fun e => decide (e.2.st = .held) && pick e.2)).foldl
    (fun u e => portTagDone u n (BitVec.ofNat 8 e.1) st []) s

/-! ## STALE_TAG_EXPIRY, WAKE_RETRY (R139, R140, R144) -/

/-- R139, R140: a further response timeout has passed; the tag is FREE. -/
def execStaleTagExpiry (h : Holder) (tag : Byte) (s : State) : Res :=
  if (tagAt (poolGet s h) tag).st = .stale then .next (poolSet s h (tagFree (poolGet s h) tag)) else .next s

/-- R144 step 5, R145: the same request is driven again with the same tag; an ISO request is charged again. -/
def execWakeRetry (n : Fin 64) (tag : Byte) (s : State) : Res :=
  let p := portGet s n.val
  let x := tagAt p.pool tag
  if x.st ≠ .held ∨ x.retry = false ∨ mayRequest s n.val = false then .next s
  else
    match parsePkt x.pkt with
    | none => .next s
    | some q =>
      let cost := isoCost s q.cls (opOf x.cmd)
      if p.isoLeft.toNat < cost then .next (bump s (.port n.val) pISOWAIT)
      else
        let s1 := portMod (isoSpend s n.val cost) n.val (fun y => { y with pool := tagPut y.pool tag { x with retry := false } })
        .next (bump (nodeMod s1 (portNode n.val) x.net (fun z => { z with out := z.out ++ x.pkt })) (.port n.val) pRETRY)

end Sys2Proof.Machine
end

