-- ==== Sys2Proof/Machine/Target.lean ====
section
/-!
DEFINITION. The target side of a port (05): bus cycles of arriving requests, responses; watch notifications and replays (09); the
forwarding of PIRQ (R117 to R120).
-/
namespace Sys2Proof.Machine

/-! ## Bus cycles (R97, R136, R467) -/

/-- The bus address of a byte address (R97). -/
def busAddr (s : State) (n f : Nat) : BitVec 24 :=
  if isFlat s n then (if sparse s n then BitVec.ofNat 24 (f / 4 % 65536) else BitVec.ofNat 24 (f % 65536)) else BitVec.ofNat 24 f

def laneBe (be : BitVec 4) (k : Nat) : Bool := be.getLsbD k

/-- R97: the read cycles of the word at byte address f, covering the lanes `be`. A whole word for a READ. -/
def readCycles (s : State) (n f : Nat) (be : BitVec 4) : List BusCycle :=
  if isFlat s n then
    if sparse s n then [{ write := false, addr := busAddr s n f, data := 0, en := 1 }]
    else ((List.range 4).filter (laneBe be)).map (fun k => { write := false, addr := busAddr s n (f + k), data := 0, en := 1 })
  else
    ((List.range 2).filter (fun h => laneBe be (2 * h) || laneBe be (2 * h + 1))).map
      (fun h => { write := false, addr := busAddr s n (f + 2 * h), data := 0, en := 3 })

/-- The lowest enabled lane. -/
def lowLane (be : BitVec 4) : Option Nat := (List.range 4).find? (laneBe be)

/-- R97, R467: the write cycles of one data unit at byte address f. -/
def writeCycles (s : State) (n f : Nat) (u : DataUnit) : List BusCycle :=
  let byte := fun (k : Nat) => (0#8 ++ laneOf u.data k : Half)
  let half := fun (h : Nat) => (laneOf u.data (2 * h + 1) ++ laneOf u.data (2 * h) : Half)
  let en := fun (h : Nat) => (BitVec.ofBool (laneBe u.be (2 * h + 1)) ++ BitVec.ofBool (laneBe u.be (2 * h)) : BitVec 2)
  if isFlat s n then
    if sparse s n then
      match lowLane u.be with
      | some k => [{ write := true, addr := busAddr s n f, data := byte k, en := 1 }]
      | none => []
    else ((List.range 4).filter (laneBe u.be)).map
      (fun k => { write := true, addr := busAddr s n (f + k), data := byte k, en := 1 })
  else if isSync s n then
    if u.be = 0 then []
    else (List.range 2).map (fun h => { write := true, addr := busAddr s n (f + 2 * h), data := half h, en := en h })
  else
    ((List.range 2).filter (fun h => laneBe u.be (2 * h) || laneBe u.be (2 * h + 1))).map
      (fun h => { write := true, addr := busAddr s n (f + 2 * h + (if laneBe u.be (2 * h) then 0 else 1)), data := half h, en := en h })

/-- The write cycles of consecutive words from byte address f. -/
def writeRun (s : State) (n : Nat) : Nat → List DataUnit → List BusCycle
  | _, [] => []
  | f, u :: us => writeCycles s n f u ++ writeRun s n (f + 4) us

/-- The read cycles of `k` words from byte address f. -/
def readRun (s : State) (n f : Nat) : Nat → List BusCycle
  | 0 => []
  | k + 1 => readCycles s n f 0xF ++ readRun s n (f + 4) k

/-- R97: the word that read cycles of lanes `be` give, and whether every halfword of it came good (R469). -/
def gatherWord (s : State) (n : Nat) (be : BitVec 4) (ds : List DevBeat) : Word × Bool :=
  if isFlat s n then
    if sparse s n then
      let b := (ds.headD { pd := 0, bad := false, last := false }).pd.extractLsb' 0 8
      (b ++ b ++ b ++ b, true)
    else
      let lanes := (List.range 4).filter (laneBe be)
      (((lanes.zip ds).foldl (fun (w : Word) e => w ||| (((e.2.pd.extractLsb' 0 8).setWidth 32 : Word) <<< (8 * e.1 : Nat))) 0), true)
  else
    let halves := (List.range 2).filter (fun h => laneBe be (2 * h) || laneBe be (2 * h + 1))
    let w := (halves.zip ds).foldl (fun (w : Word) e => w ||| ((e.2.pd.setWidth 32 : Word) <<< (16 * e.1 : Nat))) 0
    (w, !isSync s n || (decide (halves.length ≤ ds.length) && (ds.take halves.length).all (fun d => !d.bad)))

/-- Read cycles per word of a READ. -/
def cyclesPerWord (s : State) (n : Nat) : Nat := (readCycles s n 0 0xF).length

/-- The words of a READ and whether each came good. -/
def gatherWords (s : State) (n : Nat) : Nat → List DevBeat → List (Word × Bool)
  | 0, _ => []
  | k + 1, ds =>
    let c := cyclesPerWord s n
    gatherWord s n 0xF (ds.take c) :: gatherWords s n k (ds.drop c)

/-- R393: bytes that move in cycles, read or write. -/
def cycleBytes (write : Bool) (cs : List BusCycle) : Nat :=
  ((cs.filter (fun c => c.write == write)).map (fun c => (if c.en.getLsbD 0 then 1 else 0) + (if c.en.getLsbD 1 then 1 else 0))).sum

def countCycles (p : PortSt) (cs : List BusCycle) : PortSt :=
  { p with bytesRd := p.bytesRd + BitVec.ofNat 32 (cycleBytes false cs),
           bytesWr := p.bytesWr + BitVec.ofNat 32 (cycleBytes true cs) }

/-! ## Taking a request (R23, R57, R115) -/

/-- Does port n's NI still serve requests it accepted (R271)? -/
def niServes (s : State) (n : Nat) : Bool :=
  let x := domGet s n
  !(portGet s n).dead && (decide (x.st = .on) || (decide (x.st = .hemming) && decide (x.hem = .drain)))

/-- R111, R115: may the NI start a request or a replay on its device: nothing in progress, and a DUAL port's bus claimed. -/
def busFree (s : State) (n : Nat) : Bool :=
  let p := portGet s n
  decide (p.tgt = none) && p.wheld.isEmpty &&
  (match p.replay with | some r => !r.running | none => true) && (!isDual s n || p.claimed)

/-- What the target does with the oldest request before its device sees it: none, an answer, or it goes to the device. -/
inductive Admit where
  | drop (malformed : Bool)
  | answer (st : Status)
  | device
  deriving DecidableEq, Repr

/-- R23, R57, R115, R135. -/
def judge (s : State) (n : Nat) (p : Pkt) : Admit :=
  match reqCheck p with
  | .discard => .drop (malformedReq p)
  | .answer .decerr => .answer .decerr
  | .answer st => if isInit s n then .answer .decerr else .answer st
  | .perform =>
    if isInit s n then .answer .decerr
    else
      match opOf p.cmd with
      | .swap | .fadd | .tas | .cas => if (p.data.map (·.be)).all atomicBeOk then .device else .answer .decerr
      | _ => .device

/-- The request leaves the NI unperformed. -/
def turnAway (s : State) (n : Nat) (net : Net) (p : Pkt) : Admit → State
  | .drop m => rxDrop (if m then bump s (.port n) pMALFORMED else s) (portNode n) net
  | .answer st => rxDrop (respond (if malformedReq p then bump s (.port n) pMALFORMED else s) p st []) (portNode n) net
  | .device => s

/-- R103: BUSY_N low before the first bus cycle. -/
def refusedBusy (s : State) (n : Nat) (busyN : Bool) (cs : List BusCycle) : Bool :=
  isFlat s n && isTarg s n && decide (ps2mode s n = 1) && !busyN && !cs.isEmpty

/-- The NI starts performing a request with these bus cycles. -/
def tgtStart (s : State) (n : Nat) (net : Net) (p : Pkt) (cs : List BusCycle) (words : List Word) (wrote : List DataUnit) : State :=
  rxDrop (bump (portMod s n (fun q => { q with
    tgt := some { pkt := p, net := net, stat := .ok, words := words, wrote := wrote }, cycles := cs })) (.port n) (pTGTREQ net))
    (portNode n) net

/-- The oldest request of a network at port n, checked and, when its device may have it, started with the cycles `plan` gives. -/
def tgtTake (s : State) (n : Nat) (net : Net) (sel : Op → Bool) (busyN : Bool)
    (plan : Pkt → Option (List BusCycle × List Word × List DataUnit)) : State :=
  if niServes s n = false then s
  else
    match rxHead s (portNode n) net with
    | none => s
    | some p =>
      if sel (opOf p.cmd) = false then s
      else
        match judge s n p with
        | .device =>
          if busFree s n = false then s
          else
            match plan p with
            | none => s
            | some (cs, ws, wr) =>
              if refusedBusy s n busyN cs then rxDrop (respond s p .busy []) (portNode n) net
              else tgtStart s n net p cs ws wr
        | a => turnAway s n net p a

def isReadOp : Op → Bool | .read _ => true | _ => false
def isWriteOp : Op → Bool | .write _ => true | .reserved => true | _ => false

def byteAddr (a : BitVec 30) : Nat := a.toNat * 4

/-- R97: a READ starts its cycles; the device's data come with TARGET_REQUEST_DONE. -/
def portRead (s : State) (n : Nat) (net : Net) (busyN : Bool) : State :=
  tgtTake s n net isReadOp busyN (fun p =>
    match opOf p.cmd with
    | .read k => some (readRun s n (byteAddr p.addr) k, [], [])
    | _ => none)

/-- R97, R467: a WRITE starts its cycles. -/
def portWrite (s : State) (n : Nat) (net : Net) (busyN : Bool) : State :=
  tgtTake s n net isWriteOp busyN (fun p => some (writeRun s n (byteAddr p.addr) p.data, [], p.data))

/-- R135, R136, R468: an atomic. On FLAT8 and MUX16 the NI reads (the data are `dev`), computes and writes; a SYNC16 device performs
it, and its result beats come with TARGET_REQUEST_DONE. -/
def portAtomic (s : State) (n : Nat) (net : Net) (op : Op) (busyN : Bool) (dev : List DevBeat) : State :=
  tgtTake s n net (fun o => decide (o = op)) busyN (fun p =>
    match p.data with
    | [] => none
    | u :: us =>
      let f := byteAddr p.addr
      if isSync s n then
        let beats := fun (w : DataUnit) => (List.range 2).map (fun h =>
          ({ write := true, addr := busAddr s n (f + 2 * h), data := laneOf w.data (2 * h + 1) ++ laneOf w.data (2 * h),
             en := BitVec.ofBool (laneBe u.be (2 * h + 1)) ++ BitVec.ofBool (laneBe u.be (2 * h)) } : BusCycle))
        let operands : List DataUnit := match op with
          | .tas => if u.be = 0xF then [] else [{ u with data := laneMask u.be }]
          | _ => u :: us
        some (operands.flatMap beats, [], [])
      else
        let rc := readCycles s n f u.be
        if dev.length ≠ rc.length then none
        else
          let old := (gatherWord s n u.be dev).1
          match atomicWrite op u.be old u.data ((us.headD u).data) with
          | some w => some (rc ++ writeCycles s n f { u with data := w }, [old &&& laneMask u.be], [{ u with data := w }])
          | none => some (rc, [old &&& laneMask u.be], []))

/-- R48: the status a read of this port would get from the node. -/
def portProbe (s : State) (n : Nat) (net : Net) : State :=
  if niServes s n = false then s
  else
    match rxHead s (portNode n) net with
    | none => s
    | some p =>
      if opOf p.cmd ≠ .probe then s
      else
        match judge s n p with
        | .device => rxDrop (respond s p .ok []) (portNode n) net
        | a => turnAway s n net p a

/-- R47: a FENCE waits at the port for what was accepted before it. -/
def portFence (s : State) (n : Nat) (net : Net) : State :=
  if niServes s n = false then s
  else
    match rxHead s (portNode n) net with
    | none => s
    | some p =>
      if opOf p.cmd ≠ .fence then s
      else
        match judge s n p with
        | .device =>
          if net = .dat ∨ (nodeGet s (portNode n) .dat).rx.isEmpty = true then
            rxDrop (portMod s n (fun q => { q with fences := q.fences ++ [p] })) (portNode n) net
          else s
        | a => turnAway s n net p a

/-- R47: every request accepted before has finished at the device and its WATCH packets are injected: the FENCE is answered. -/
def portFenceDone (s : State) (n : Nat) : State :=
  let p := portGet s n
  match p.fences with
  | [] => s
  | f :: fs =>
    if p.tgt = none ∧ p.wsend = [] ∧ p.wheld = [] ∧ (nodeGet s (portNode n) .snp).out = [] ∧ (nodeGet s (portNode n) .rsp).out = [] then
      respond (portMod s n (fun q => { q with fences := fs })) f .ok []
    else s

/-! ## Watch notifications (R209 to R216) -/

def wrange (s : State) (n e : Nat) : Word := cfgGet s n (0x50 + 8 * e)
def wctl (s : State) (n e : Nat) : Word := cfgGet s n (0x51 + 8 * e)

/-- The chip and node of watcher k of entry e. -/
def watcher (s : State) (n e k : Nat) : Byte × BitVec 7 :=
  let w := cfgGet s n (0x52 + 8 * e + k / 2)
  if k % 2 = 0 then (w.extractLsb' 0 8, w.extractLsb' 8 7) else (w.extractLsb' 16 8, w.extractLsb' 24 7)

/-- R212: entry e watches the word address. -/
def watchHit (s : State) (n e : Nat) (addr : BitVec 30) : Bool :=
  let base := fieldNat (wrange s n e) 8 24 * 256
  let size := 2 ^ fieldNat (wrange s n e) 0 5
  (wctl s n e).getLsbD 0 && decide (base ≤ byteAddr addr) && decide (byteAddr addr < base + size)

/-- R53: the CMD of a WATCH. -/
def cmdWATCH : BitVec 6 := 0x38

/-- R213: the notification of entry e to one watcher. -/
def watchPkt (s : State) (n e : Nat) (q : Pkt) (wrote : List DataUnit) (dst : Byte × BitVec 7) : Pkt :=
  { dchip := dst.1, dnode := dst.2, snode := portNode n, cmd := cmdWATCH, cls := q.cls, tag := BitVec.ofNat 8 e, hasAddr := true,
    addrBad := false, schip := q.schip, cid := q.cid, addr := q.addr,
    data := if (wctl s n e).getLsbD 1 then wrote else [], formed := true }

/-- R213: the notifications of a watched request, in entry and watcher order. -/
def watchList (s : State) (n : Nat) (q : Pkt) (wrote : List DataUnit) : List Pkt :=
  (List.range 16).flatMap (fun e =>
    if watchHit s n e q.addr then
      ((List.range 8).filter (fun k => (wctl s n e).getLsbD (8 + k) &&
        ((wctl s n e).getLsbD 2 || !decide (watcher s n e k = (q.schip, q.snode))))).map
        (fun k => watchPkt s n e q wrote (watcher s n e k))
    else [])

/-- R221: sets flag k of WSTAT (0 SDROP, 1 RDROP, 2 NOMAP) and counts `m` drops; a flag that rises raises the event. -/
def watchDrop (s : State) (n k m : Nat) : State :=
  let p := portGet s n
  let was := if k = 0 then p.sdrop else if k = 1 then p.rdrop else p.nomap
  let s1 := portMod s n (fun q => { q with
    sdrop := q.sdrop || decide (k = 0), rdrop := q.rdrop || decide (k = 1), nomap := q.nomap || decide (k = 2),
    drops := if 65535 < q.drops.toNat + m then 0xFFFF else q.drops + BitVec.ofNat 16 m })
  if was then s1 else raiseEvent s1 evWDROP

/-- R216: a notification is dropped at its sender. -/
def sendDrop (s : State) (n : Nat) : State := bump (watchDrop s n 0 1) (.port n) pWSDROP

/-- R217, R219: a notification is discarded at the watcher. -/
def recvDrop (s : State) (n k : Nat) : State := bump (watchDrop s n k 1) (.port n) pWRDROP

/-- R214, R216: the notifications of a request: those to absent chips are dropped at once, the others go to the send buffer, or
wait for it. -/
def watchNotify (s : State) (n : Nat) (q : Pkt) (wrote : List DataUnit) : State :=
  let all := watchList s n q wrote
  let s1 := (all.filter (fun w => !inTable s w.dchip)).foldl (fun t _ => sendDrop t n) s
  let live := all.filter (fun w => inTable s w.dchip)
  if live.isEmpty then s1
  else if (portGet s n).wsend.isEmpty && (nodeGet s (portNode n) .snp).out.isEmpty then
    watchPump (portMod s1 n (fun p => { p with wsend := live })) n
  else portMod s1 n (fun p => { p with wheld := live })

/-- The notification in front has waited WATCHTO for the local input of its router (R216). -/
def execWatchSendTimeout (n : Fin 64) (s : State) : Res :=
  match (nodeGet s (portNode n.val) .snp).out with
  | [] => .next s
  | u :: us =>
    if utOf u.d = 1 ∧ (arbGet s .snp n.val .localIn).holder ≠ some 0 then
      .next (watchPump (sendDrop (nodeMod s (portNode n.val) .snp (fun q => { q with out := us.drop (hLen u.d).toNat })) n.val) n.val)
    else .next s

/-! ## TARGET_REQUEST_DONE, BUS_CLAIM (R110, R111, R115, R212, R469) -/

/-- Beats that the device may give: exactly as many as expected, or, on SYNC16, fewer with LAST on the last of them (R469). -/
def beatsOk (s : State) (n expect : Nat) (dev : List DevBeat) : Bool :=
  decide (dev.length = expect) ||
  (isSync s n && decide (dev.length < expect) && (match dev.getLast? with | some d => d.last | none => false))

/-- R212: did the request write at least one byte, and which units? -/
def wroteUnits (q : Pkt) (r : TgtReq) (old : Option Word) : List DataUnit :=
  match opOf q.cmd, old, q.data with
  | .write _, _, _ => if q.data.any (fun u => decide (u.be ≠ 0)) then q.data else []
  | op, some v, u :: us =>
    match atomicWrite op u.be v u.data ((us.headD u).data) with
    | some w => [{ u with data := w }]
    | none => []
  | _, _, _ => r.wrote

/-- The response's data units and the units written; none when the device's beats do not fit the request. -/
def tgtResult (s : State) (n : Nat) (r : TgtReq) (dev : List DevBeat) : Option (List DataUnit × List DataUnit) :=
  let q := r.pkt
  match opOf q.cmd with
  | .read k =>
    if beatsOk s n (k * cyclesPerWord s n) dev then
      some ((gatherWords s n k dev).map (fun w => { data := w.1, be := 0xF, bad := !w.2 }), [])
    else none
  | .write _ => if dev.isEmpty then some ([], wroteUnits q r none) else none
  | .swap | .fadd | .tas | .cas =>
    let be := match q.data with | u :: _ => u.be | [] => 0
    if isSync s n then
      if beatsOk s n 2 dev then
        let v := gatherWord s n 0xF dev
        some ([{ data := v.1 &&& laneMask be, be := be, bad := !v.2 }], if v.2 then wroteUnits q r (some v.1) else [])
      else none
    else if dev.isEmpty then some ([{ data := r.words.headD 0, be := be, bad := false }], r.wrote)
    else none
  | _ => none

/-- R393: bytes read: two in every SYNC16 read or result beat, else those of the read cycles. -/
def readCount (s : State) (n : Nat) (cs : List BusCycle) (dev : List DevBeat) : Nat :=
  if isSync s n then 2 * dev.length else cycleBytes false cs

/-- The last bus cycle ended with these read or result beats: the response leaves first, then the notifications. -/
def execTargetRequestDone (n : Fin 64) (dev : List DevBeat) (s : State) : Res :=
  let p := portGet s n.val
  match p.tgt with
  | none => .next s
  | some r =>
    if (nodeGet s (portNode n.val) .rsp).out.isEmpty = false then .next s
    else
      match tgtResult s n.val r dev with
      | none => .next s
      | some (ds, wrote) =>
        let s1 := portMod s n.val (fun q =>
          { q with tgt := none, claimed := false, bytesRd := q.bytesRd + BitVec.ofNat 32 (readCount s n.val q.cycles dev),
                   bytesWr := q.bytesWr + BitVec.ofNat 32 (cycleBytes true q.cycles) })
        let s2 := respond s1 r.pkt .ok ds
        .next (if wrote.isEmpty then s2 else watchNotify s2 n.val r.pkt wrote)

/-- Does a request or a replay wait for the bus of a DUAL port? -/
def busWanted (s : State) (n : Nat) : Bool :=
  let p := portGet s n
  decide (p.tgt = none) && p.wheld.isEmpty && (!(nodeGet s (portNode n) .req).rx.isEmpty || !(nodeGet s (portNode n) .dat).rx.isEmpty ||
    decide (p.replay.isSome))

/-- R111: the Deuno takes the bus of a DUAL port; a device that has raised VALID is served first, once. -/
def execBusClaim (n : Fin 64) (valid : Bool) (s : State) : Res :=
  let p := portGet s n.val
  if isDual s n.val && niServes s n.val && !p.claimed && decide (p.bus.phase ≠ .waiting) && busWanted s n.val then
    if valid && !p.claiming then .next (portMod s n.val (fun q => { q with claiming := true }))
    else .next (portMod s n.val (fun q => { q with claimed := true, claiming := false }))
  else .next s

/-! ## WATCH arrivals and replays (R217 to R220) -/

/-- R57, R53, R23: a WATCH that is malformed or poisoned. -/
def watchBad (p : Pkt) : Bool :=
  !p.formed || !p.hasAddr || p.addrBad || decide (p.cmd ≠ cmdWATCH) || decide (16 < p.data.length) || p.data.any (·.bad) ||
  decide (64 < p.addr.toNat % 64 + p.data.length)

/-- R132: the window of a replay, and the replay address P. -/
def replayAddr (s : State) (n : Nat) (p : Pkt) : Option Nat :=
  let f := byteAddr p.addr
  (((List.range 16).map (window s n)).find? (fun w =>
    w.valid && w.watchable && decide (w.dnode = p.snode) && decide (w.off ≤ f) && decide (f < w.off + w.size))).map
    (fun w => w.base + f - w.off)

/-- R220. -/
def recordMark (s : State) (n : Nat) (a : BitVec 30) : State :=
  bump (portMod s n (fun p => { p with wmark := 1#1 ++ BitVec.ofBool (p.wmark.getLsbD 31 || p.wmark.getLsbD 30) ++ a })) (.port n) pMARK

/-- R217, R218: the buffered replay starts on a free device, unless BUSY_N turns it away (R219). -/
def replayStart (s : State) (n : Nat) (p : Pkt) (busyN : Bool) : State :=
  match replayAddr s n p with
  | none => s
  | some a =>
    let cs := writeRun s n a p.data
    if refusedBusy s n busyN cs then recvDrop (portMod s n (fun q => { q with replay := none })) n 1
    else portMod s n (fun q => { q with replay := some { pkt := p, running := true }, cycles := cs })

/-- A WATCH arrives and is marked, discarded or put into the replay buffer; a buffered replay starts when the device is free. -/
def execWatchArrival (n : Fin 64) (busyN : Bool) (s : State) : Res :=
  let p := portGet s n.val
  if niServes s n.val = false then .next s
  else
    match p.replay with
    | some r => if !r.running && busFree s n.val then .next (replayStart s n.val r.pkt busyN) else .next s
    | none =>
      match (nodeGet s (portNode n.val) .snp).rx with
      | [] => .next s
      | q :: _ =>
        let s1 := rxDrop s (portNode n.val) .snp
        if watchBad q then
          .next (recvDrop (if q.data.any (·.bad) || q.addrBad then s1 else bump s1 (.port n.val) pMALFORMED) n.val 1)
        else if q.data.isEmpty then .next (recordMark s1 n.val q.addr)
        else if isInit s n.val = true ∨ replayAddr s n.val q = none then .next (recvDrop s1 n.val 2)
        else
          let s2 := portMod s1 n.val (fun y => { y with replay := some { pkt := q, running := false } })
          if busFree s n.val then .next (replayStart s2 n.val q busyN) else .next s2

/-- R217: a WATCH has waited WATCHTO for the replay buffer. -/
def execWatchReplayTimeout (n : Fin 64) (s : State) : Res :=
  if (portGet s n.val).replay.isSome && !(nodeGet s (portNode n.val) .snp).rx.isEmpty && niServes s n.val then
    .next (recvDrop (rxDrop s (portNode n.val) .snp) n.val 1)
  else .next s

/-- R217, R218: the last bus cycle of the replay ends and the buffer frees. -/
def execWatchReplayDone (n : Fin 64) (s : State) : Res :=
  match (portGet s n.val).replay with
  | some r =>
    if r.running then
      .next (bump (portMod s n.val (fun q => { countCycles q q.cycles with replay := none, claimed := false })) (.port n.val) pREPLAY)
    else .next s
  | none => .next s

/-! ## PIRQ (R117 to R120) -/

/-- R119, R247: the forwarded write, when it may go: none outstanding, a tag, no hazard. Otherwise it stays due. -/
def pirqSend (s : State) (n : Nat) : State :=
  let p := portGet s n
  let w := pirqcfg s n
  let chip : Byte := w.extractLsb' 10 8
  let wait := portMod s n (fun q => { q with fwdDue := true })
  if p.fwdOut || !mayRequest s n then wait
  else if inTable s chip = false then portMod (portFail s n .decerr pirqAddr) n (fun q => { q with fwdDue := false })
  else
    match p.pool.free with
    | [] => bump wait (.port n) pNOTAG
    | t :: _ =>
      if hazard p.pool chip nodeBob then bump wait (.port n) pHAZARD
      else
        let s1 := portMod s n (fun q => { q with fwdOut := true, fwdDue := false })
        bump (portSend s1 n t chip nodeBob 2 (dcid s n)
          { cmd := cmdOf (.write 1), addr := bellAddr (fieldNat w 0 6), data := [bellData (fieldNat w 6 4)] } false .pirq) (.port n) pPIRQFWD

/-- R119: PIRQ is forwarded by a TARG port with FWDEN. -/
def pirqOn (s : State) (n : Nat) : Bool := isTarg s n && fwdEn s n && domOn s n && !(portGet s n).dead

def execPirqActivation (n : Fin 64) (s : State) : Res :=
  if pirqOn s n.val && !(portGet s n.val).pirqIn then .next (pirqSend (portMod s n.val (fun p => { p with pirqIn := true })) n.val)
  else .next s

/-- R119, R120: the repeat interval passed while PIRQ stays active, or a write that had fallen due can go. -/
def execPirqRepeat (n : Fin 64) (s : State) : Res :=
  let p := portGet s n.val
  if pirqOn s n.val && ((p.pirqIn && decide (fieldNat (pirqcfg s n.val) 19 3 ≠ 0)) || (p.fwdDue && !p.fwdOut)) then
    .next (pirqSend s n.val)
  else .next s

/-- R119: the level is inactive at two successive edges. -/
def execPirqDeactivation (n : Fin 64) (s : State) : Res :=
  if domOn s n.val then .next (portMod s n.val (fun p => { p with pirqIn := false })) else .next s

/-- R120: after a forwarded write completed, the one that fell due meanwhile is sent. -/
def pirqPump (s : State) (n : Nat) : State :=
  if (portGet s n).fwdDue && !(portGet s n).fwdOut && pirqOn s n then pirqSend s n else s

end Sys2Proof.Machine
end

