-- ==== Sys2Proof/Machine/Agents.lean ====
section
/-!
DEFINITION. The requests of SYS as they complete (R37, R349, R418), and what a port loses when its work is ended for it: declared dead
(R336), its clock stopped (R163), DRAINTO (R272), reset (R430).
-/
namespace Sys2Proof.Machine

/-! ## Agent tags -/

/-- R52, R418: the status on the response to a fabric FENCE command; no packet carries RINGBREAK. DEDUCED, assumption 13. -/
def fenceAnswer (st : Status) : Status := if st = .ringbreak then .isolated else st

/-- A write of fabric request p that took its own time is done with word k: the rest of the request enters the arbiter again, or the
request is answered (R421, R423). -/
def writeNext (s : State) (p : Pkt) (k : Nat) (st : Status) : State :=
  if st = .ok ∧ k + 1 < p.data.length then sysMod s (fun y => { y with held := y.held ++ [(.turn, .fab p (k + 1))] })
  else respond s p st []

/-- The host's bus cycle ends (R399). -/
def hostEnd (s : State) : State := hostMod s (fun h => { h with waitLow := false })

/-- R418: a FENCE completes: STATUS and VALID, and the write that asked for it ends. -/
def fenceDone (s : State) (req : Option (Pkt × Nat)) (st : Status) : State :=
  let s1 := sysMod s (fun y => { y with fenceStat := statusCode st, fenceVal := true, fenceBusy := false })
  match req with
  | some (p, k) => writeNext s1 p k (fenceAnswer st)
  | none => hostEnd s1

/-- R349: at most one fault doorbell is outstanding; those that fell due meanwhile are rung by one further write. -/
def faultBellDone (s : State) : State :=
  let s1 := sysMod s (fun y => { y with bellOut := false, bellDue := false })
  if s.sys.bellDue then
    let w := faultdb s
    let chip : Byte := w.extractLsb' 10 8
    if w.getLsbD 18 && sysOn s && (decide (chip = s.chipnum) || inTable s chip) then
      agentSend (sysMod s1 (fun y => { y with bellOut := true })) chip nodeBob (.write 1) (bellAddr (fieldNat w 0 6))
        [bellData (fieldNat w 6 4)] .faultBell
    else s1
  else s1

/-- R240: a port-reset notice answered OK is done; any other answer leaves it to be resent. -/
def noticeDone (s : State) (chip : Byte) (port : Nat) (st : Status) : State :=
  if st = .ok then sysMod s (fun y => { y with notices := y.notices.filter (fun m => decide (m ≠ (chip, port))) }) else s

/-- A HELD agent tag completes with a status and, for OK, the words of its response. -/
def agentTagDone (s : State) (t : Byte) (st : Status) (ws : List Word) : State :=
  let x := tagAt s.sys.agents t
  let s1 := sysMod s (fun y => { y with agents := tagAfter st y.agents t })
  let s2 := match x.use with
    | .fence req => fenceDone s1 req st
    | .tackRead => timeMod s1 (fun m => { m with tackRes := some (st, ws.headD 0) })
    | .tackBell => timeMod s1 (fun m => { m with tackRes := some (st, 0) })
    | .faultBell => faultBellDone s1
    | .notice c p => noticeDone s1 c p st
    | _ => s1
  agentPump s2.sys.queued.length s2

/-- Every HELD agent tag for which `pick` holds completes with a status. -/
def agentTagsDone (s : State) (pick : Tag → Bool) (st : Status) : State :=
  (s.sys.agents.tags.filter (fun e => decide (e.2.st = .held) && pick e.2)).foldl
    (fun u e => agentTagDone u (BitVec.ofNat 8 e.1) st []) s

/-- R196, R197, R200: every HELD tag of this chip for which `pick` holds of its destination chip completes with RINGBREAK. -/
def breakTags (s : State) (pick : Byte → Bool) : State :=
  let s1 := (List.range 64).foldl (fun u n => portTagsDone u n (fun x => pick x.dchip) .ringbreak) s
  agentTagsDone s1 (fun x => pick x.dchip) .ringbreak

/-- Requests of SYS that wait to be driven and name an absent chip end as DECERR without a packet (R182, 01). -/
def queuedAbsent (s : State) : State :=
  let gone := s.sys.queued.filter (fun r => !inTable s r.dchip)
  let s1 := sysMod s (fun y => { y with queued := y.queued.filter (fun r => inTable s r.dchip) })
  gone.foldl (fun u r => match r.use with
    | .fence req => fenceDone u req .decerr
    | .tackRead => timeMod u (fun m => { m with tackRes := some (.decerr, 0) })
    | .tackBell => timeMod u (fun m => { m with tackRes := some (.decerr, 0) })
    | .faultBell => faultBellDone u
    | _ => u) s1

/-- SYS forms a request: to an absent chip it is answered DECERR at once and not sent (01, R52). -/
def agentAsk (s : State) (dchip : Byte) (dnode : BitVec 7) (op : Op) (addr : BitVec 30) (data : List DataUnit) (use : TagUse) :
    State :=
  if inTable s dchip then agentSend s dchip dnode op addr data use
  else queuedAbsent (sysMod s (fun y => { y with queued := y.queued ++
    [{ dchip := dchip, dnode := dnode, cmd := cmdOf op, cls := 2, addr := addr, data := data, use := use }] }))

/-! ## Ending a port's work -/

/-- The packets of the access in front that are still to be formed complete with a status. -/
def frontFail (s : State) (n : Nat) (f : Front) (st : Status) : State :=
  (List.range f.parts.length).foldl (fun u i => accPart u n f.id (f.sent + i) st []) s

/-- Every access in the intake that has sent no packet completes with a status (R163, R270, R336). With `all`, what is left of one
partly sent does too. -/
def intakeFail (s : State) (n : Nat) (st : Status) (all : Bool) : State :=
  let p := portGet s n
  let tail := fun (u : State) (l : List Access) => l.foldl (fun v a => accessFail v n a st) u
  let more := p.captured.toList
  let clear := portMod s n (fun q => { q with captured := none })
  match p.front with
  | none => tail (portMod clear n (fun q => { q with intake := [] })) (p.intake ++ more)
  | some f =>
    if f.sent = 0 then
      tail (portMod clear n (fun q => { q with intake := [], front := none, accs := terase q.accs f.id })) (p.intake ++ more)
    else if all then
      tail (frontFail (portMod clear n (fun q => { q with intake := [], front := none })) n f st) (p.intake.drop 1 ++ more)
    else tail (portMod clear n (fun q => { q with intake := p.intake.take 1 })) (p.intake.drop 1 ++ more)

/-- Requests that the port accepted are answered with a status (R163, R272, R336, R337). -/
def targetFail (s : State) (n : Nat) (st : Status) : State :=
  let p := portGet s n
  let node := portNode n
  let waiting := (match p.tgt with | some r => [r.pkt] | none => []) ++ p.fences ++ (nodeGet s node .req).rx ++ (nodeGet s node .dat).rx
  let s1 := portMod s n (fun q => { q with tgt := none, fences := [], claimed := false, claiming := false })
  let s2 := nodeMod (nodeMod s1 node .req (fun q => { q with rx := [] })) node .dat (fun q => { q with rx := [] })
  (waiting.filter (fun q => q.hasAddr && !q.addrBad)).foldl (fun u q => respond u q st []) s2

/-- Watch replays are dropped or abandoned, each counted as dropped (R163 step 6, R336). -/
def replayFail (s : State) (n : Nat) : State :=
  let k := (if (portGet s n).replay.isSome then 1 else 0) + (nodeGet s (portNode n) .snp).rx.length
  let s1 := nodeMod (portMod s n (fun q => { q with replay := none })) (portNode n) .snp (fun q => { q with rx := [] })
  (List.range k).foldl (fun u _ => recvDrop u n 1) s1

/-- R272: notifications not yet sent are dropped and counted. -/
def sendFail (s : State) (n : Nat) : State :=
  let k := (portGet s n).wsend.length + (portGet s n).wheld.length
  (List.range k).foldl (fun u _ => sendDrop u n) (portMod s n (fun q => { q with wsend := [], wheld := [] }))

/-- Ends all of a port's work: accesses and tags with `st`, requests it accepted with `st`, replays dropped. -/
def finishPort (s : State) (n : Nat) (st : Status) : State :=
  replayFail (targetFail (portTagsDone (intakeFail s n st true) n (fun _ => true) st) n st) n

/-- R336, R163: port n is declared dead with a cause; its work ends with ISOLATED, or TIMEOUT for a stopped clock, and the fault is
raised. A dead port's later causes change nothing (R334, 14). -/
def portDie (s : State) (n : Nat) (cause : BitVec 5) (detail : Half) : State :=
  if (portGet s n).dead then s
  else
    let st : Status := if cause = fCLKSTOP ∨ cause = fOSCRUNG then .timeout else .isolated
    let stopped := decide (cause = fCLKSTOP ∨ cause = fOSCRUNG)
    let s1 := portMod (finishPort s n st) n (fun p => { p with dead := true, cause := cause, quiet := true, clockStop := stopped })
    raiseFault s1 n cause detail

end Sys2Proof.Machine
end

