-- ==== Sys2Proof/Machine/BobOps.lean ====
section
/-!
DEFINITION. Operations on a bobbin (10): its space, its lock, a flush.
-/
namespace Sys2Proof.Machine

/-- R228: MODE LOCKED. -/
def bLocked (w : Word) : Bool := !bOverwrite w

/-- Words that committed messages and an assembly take up. -/
def bobUsed (x : Bobbin) : Nat :=
  (x.msgs.map (fun m => m.lenM1.toNat + 1)).sum + (match x.asm with | some a => a.lenM1.toNat + 1 | none => 0)

/-- R237: FREEW. -/
def bobFreeW (x : Bobbin) : Nat := 32 - bobUsed x

/-- R242: a release of the lock; in LOCKED mode it discards an open assembly and sets COLL. -/
def lockFree (s : State) (b : Nat) : State :=
  let lk := bLocked (bcfg s b)
  bobMod s b (fun x =>
    if x.lock = none then x
    else if lk && x.asm.isSome then { x with lock := none, asm := none, coll := true } else { x with lock := none })

/-- R240: every lock for which `pick` holds of its holder is released. -/
def locksFree (s : State) (pick : Lock → Bool) : State :=
  (List.range 64).foldl (fun t b => match (bobGet t b).lock with
    | some l => if pick l then lockFree t b else t
    | none => t) s

/-- R243: a flush. -/
def bobFlush (s : State) (b : Nat) : State := bobMod s b (fun x => { x with msgs := [], asm := none, epoch := x.epoch + 1 })

/-- R245: the pending doorbell bits. -/
def bellPending (s : State) (b : Nat) : Half := (bobGet s b).bell &&& bDben (bcfg s b)

/-- R118: is PIRQ of an INIT or DUAL port active: a pending doorbell of a bobbin it owns, or ERRIRQ with PERR.VALID? -/
def pirqOut (s : State) (n : Nat) : Bool :=
  (isInit s n || isDual s n) && decide ((domGet s n).st = .on) &&
  ((List.range 64).any (fun b => decide (bOwner (bcfg s b) = n) && decide (bellPending s b ≠ 0)) ||
   (errIrq s n && (portGet s n).perr.getLsbD 4))

end Sys2Proof.Machine
end

