-- ==== Sys2Proof/Machine/RingOps.lean ====
section
/-!
DEFINITION. The ring as one chip keeps it (08): its status word, its table, the bypass, ring faults, the abort.
-/
namespace Sys2Proof.Machine

/-! ## Words -/

def ringStateCode : RingState → BitVec 2
  | .alone => 0 | .waiting => 1 | .spliced => 2 | .orphan => 3

/-- RINGSTAT (R205). -/
def ringstatWord (s : State) : Half :=
  s.ring.pos ++ 0#2 ++ BitVec.ofBool s.ring.paused ++ BitVec.ofBool s.ring.fault ++ BitVec.ofBool s.ring.dupFlag ++
    BitVec.ofBool (isMaster s) ++ ringStateCode s.ring.st

/-- RINGCTL (R204). -/
def ringctlWord (s : State) : Half :=
  0#12 ++ BitVec.ofBool s.ring.reform ++ BitVec.ofBool s.ring.slotEn ++ BitVec.ofBool s.ring.leaveBit ++ BitVec.ofBool s.ring.joinEn

/-- Bank 0x85 index 0x100 (R206). -/
def nchipWord (s : State) : Word := 0#8 ++ s.ring.pos ++ 0#7 ++ BitVec.ofNat 9 s.ring.chips.length

/-- R9, R205, R360, R407: a hardware change to STATE, DUP or FAULT is journaled as the new RINGSTAT word; a change of STATE and the
setting of FAULT raise the ring event. -/
def setRing (s : State) (f : RingSt → RingSt) : State :=
  let s1 := ringMod s f
  let a := s.ring
  let b := s1.ring
  let s2 := if a.st ≠ b.st ∨ a.dupFlag ≠ b.dupFlag ∨ a.fault ≠ b.fault then
      jHw s1 kHARDWARE (tidHost 0x29) ((ringstatWord s1).setWidth 32) false else s1
  if a.st ≠ b.st ∨ (a.fault = false ∧ b.fault = true) then raiseEvent s2 evRING else s2

/-- R204: LEAVE or REFORM is cleared by hardware, and that is journaled (R360). -/
def clearCtl (s : State) (leave reform : Bool) : State :=
  let s1 := ringMod s (fun r => { r with leaveBit := r.leaveBit && !leave, reform := r.reform && !reform })
  if ringctlWord s1 = ringctlWord s then s1 else jHw s1 kHARDWARE (tidHost 0x2A) ((ringctlWord s1).setWidth 32) false

/-! ## The table (R186, R187, R189) -/

/-- The chip's own position in a list of chips; 0 when its number is missing (DEDUCED, assumption 14). -/
def posIn (me : Byte) (l : List Byte) : Byte := BitVec.ofNat 8 ((l.findIdx? (fun x => x = me)).getD 0)

/-- R240: notices to chips that have left the table go. -/
def dropGone (s : State) : State := sysMod s (fun y => { y with notices := y.notices.filter (fun m => inTable s m.1) })

/-- R187 step 4, R197, R240: a roll call gives a new table: HELD tags to chips it lacks end with RINGBREAK, locks held from such chips
are released. -/
def tableSet (s : State) (l : List Byte) (roll : Bool) : State :=
  let s1 := ringMod s (fun r => { r with chips := l, pos := posIn s.chipnum l })
  let s2 := if roll ∧ s.ring.chips ≠ l then jHw s1 kHARDWARE (tidBank 0x85 0x100) (nchipWord s1) false else s1
  let s3 := breakTags s2 (fun c => !inTable s2 c)
  dropGone (queuedAbsent (locksFree s3 (fun k => !inTable s3 k.schip)))

/-! ## Gateways cleared (R182, R201) -/

/-- R201: the following units that a packet half sent into the mesh still needs: a bad address unit, then poisoned data. -/
def completion (needAddr : Bool) : Nat → List LinkUnit
  | 0 => []
  | k + 1 =>
    if needAddr then { d := addrBits 0 0 0, p := !parityOf (addrBits 0 0 0) } :: completion false k
    else unitOf (dataBits (decide (k = 0)) 0 0 true) :: completion false k

/-- R201: one input channel is emptied; a packet it had partly sent into the mesh is completed. -/
def flushIn (s : State) (g : Ring) (c : Nat) : State :=
  let x := sinGet (gateGet s g) c
  let s1 := gateMod s g (fun y => sinSet y c SeamIn.reset)
  if x.toMesh && x.busy then
    let need := x.left + (if x.latch.isSome then 1 else 0)
    let held := match x.latch with | some u => decide (utOf u.d = 2) | none => x.first
    let net := netOfChannel c
    nodeMod s1 (gateNode g) net (fun q => { q with out := q.out ++ completion (held && decide (net ≠ .rsp)) need })
  else s1

/-- R201: one output channel: the rest of a packet half sent onto the seam is discarded, the credit is held. A packet of the mesh not
yet started stays. -/
def flushOut (s : State) (g : Ring) (c : Nat) : State :=
  gateMod s g (fun y =>
    let o := soutGet y c
    let started := decide (o.arb.holder = some 8)
    soutSet y c { SeamOut.reset with fromMsh := if started then none else o.fromMsh, inLeft := o.inLeft,
                                     inDrop := o.inDrop || started })

/-- R177, R201: a gateway after an abort; its round-robin starts at channel 0. -/
def gateAbort (s : State) (g : Ring) : State :=
  let s1 := (List.range 8).foldl (fun t c => flushOut (flushIn t g c) g c) s
  gateMod s1 g (fun y => { y with rr := 7, quietSeen := 0, abortSeen := 0 })

/-- R182: packets of the mesh that a gateway holds when it can no longer drive its output are discarded and counted. -/
def discardHeld (s : State) (g : Ring) : State :=
  let n := ((List.range 8).filter (fun c => (soutGet (gateGet s g) c).fromMsh.isSome)).length
  let s1 := (List.range 8).foldl (fun t c => gateMod t g (fun y =>
    let o := soutGet y c
    soutSet y c { SeamOut.reset with inLeft := o.inLeft, inDrop := o.inDrop || o.fromMsh.isSome || decide (o.inLeft ≠ 0) })) s
  bumpN n s1 .sys (yGWDISCARD g)

/-- R181, R182, R196, R198: the bypass closes: what the gateways hold is gone, the chip stands alone in its table. -/
def closeBypass (s : State) : State :=
  let s1 := discardHeld (discardHeld (gateAbort (gateAbort s .a) .b) .a) .b
  let s2 := breakTags s1 (fun c => decide (c ≠ s.chipnum))
  let s3 := setRing s2 (fun r =>
    { RingSt.reset s.chipnum with dupFlag := r.dupFlag, fault := r.fault, cause := r.cause, count := r.count, joinEn := r.joinEn,
                                  leaveBit := r.leaveBit, slotEn := r.slotEn, reform := r.reform, chips := r.chips, pos := r.pos,
                                  leaveWhy := r.leaveWhy, gateA := r.gateA, gateB := r.gateB })
  let s4 := tableSet s3 [s.chipnum] false
  let s5 := sysMod s4 (fun y => { y with claims := y.claims ++ y.forwarded, forwarded := [] })
  clearCtl s5 true true

/-! ## Ring faults (R199, R200) -/

def cHEADSP : BitVec 4 := 1
def cCTLPAR : BitVec 4 := 2
def cNOPULSE : BitVec 4 := 3
def cPULSEARG : BitVec 4 := 4
def cCREDIT : BitVec 4 := 5
def cDUPMASTER : BitVec 4 := 6
def cABORTED : BitVec 4 := 7

/-- R200 steps 1 to 5 without the FAULT message: what a chip does on declaring a fault, or on being told by ABORT (R201). -/
def ringStop (s : State) (cause : BitVec 4) (orphan : Bool) : State :=
  let s1 := breakTags (ringMod s (fun r => { r with stopped := true })) (fun c => decide (c ≠ s.chipnum))
  let s2 := setRing s1 (fun r => { r with fault := true, cause := cause,
                                          count := if r.count = 0xFFFF then 0xFFFF else r.count + 1,
                                          resync := true, st := if orphan then .orphan else r.st, op := .idle })
  raiseFault s2 srcSEAM fRING (cause.setWidth 16)

/-- R201: the master sends ABORT four times on both rings. -/
def sendAborts (s : State) : State :=
  let four := fun (t : State) (g : Ring) =>
    gateMod (gwRing (gwRing (gwRing (gwRing t g msgABORT 0) g msgABORT 0) g msgABORT 0) g msgABORT 0) g (fun y => { y with abortSeen := 0 })
  ringMod (four (four s .a) .b) (fun r => { r with op := .reform })

/-- R201: what each chip does on its first valid ABORT, and the master as it sends: channels emptied, credits held, resync ended. -/
def abortClear (s : State) : State :=
  ringMod (gateAbort (gateAbort s .a) .b) (fun r =>
    { r with resync := false, stopped := true, rolls := [], tables := [], granted := false, rollTurn := false, dupFound := false })

/-- R201: the master abandons the ring and re-forms it. -/
def reform (s : State) : State := abortClear (sendAborts s)

/-- R199, R200, R201: this chip declares a ring fault. A chip already in resync declares none (DEDUCED, assumption 15). A chip that
is not spliced has no part in the ring. -/
def ringFault (s : State) (cause : BitVec 4) : State :=
  if (s.ring.st ≠ .spliced ∧ s.ring.st ≠ .orphan) ∨ s.ring.resync = true then s
  else
    let s1 := ringStop s cause (decide (cause = cNOPULSE) && !isMaster s)
    if isMaster s then reform s1 else gwRing s1 .a msgFAULT s.chipnum

end Sys2Proof.Machine
end

