-- ==== Sys2Proof/Machine/Domain.lean ====
section
/-!
DEFINITION. Power domains (11): their status word, state changes and what they do, wake ladders and hemming, wake events, votes.
-/
namespace Sys2Proof.Machine

/-! ## Words -/

def domStateCode : DomState → BitVec 3
  | .off => 0 | .waking => 1 | .on => 2 | .hemming => 3 | .fault => 4

/-- R325: in TACKING, DOMSTAT keeps the value it took on entry: OFF, or FAULT. -/
def tackingNow (s : State) : Bool :=
  s.time.patrol.isSome || (match s.power.mode with
    | .tacking | .ladder .leaveTack _ | .core .leaveTack => true
    | _ => false)

/-- DOMSTAT (R266). -/
def domstatWord (s : State) (d : Nat) : Half :=
  let x := domGet s d
  if tackingNow s && decide (x.st ≠ .fault) then BitVec.ofNat 9 x.votes.length ++ BitVec.ofBool x.forced ++ 0#6
  else
    BitVec.ofNat 9 x.votes.length ++ BitVec.ofBool x.forced ++ BitVec.ofBool (wakep s d) ++
    (if x.st = .waking ∨ x.st = .fault then x.rung else 0) ++ domStateCode x.st

/-- DOMCMD (R265). -/
def domcmdWord (s : State) (d : Nat) : Half :=
  let x := domGet s d
  0#13 ++ BitVec.ofBool (!x.voted) ++ (if x.cmdOn then 1#2 else 2#2)

/-- R266, R325, R360: a hardware change of a domain; a change of STATE is journaled as the new DOMSTAT word, but not in TACKING. -/
def domChange (s : State) (d : Nat) (f : Dom → Dom) : State :=
  let s1 := domMod s d f
  if (domGet s d).st = (domGet s1 d).st ∨ tackingNow s = true then s1
  else jHw s1 kHARDWARE (tidDom 1 d) ((domstatWord s1 d).setWidth 32) false

/-! ## A port's NI as its domain turns ON and OFF -/

/-- R292 rung 4: the NI comes out of local reset. What R339, R341 and R431 keep across the ladder stays, and so do the tags
(R142: a tag in use when the domain turned off is FREE by then). DEDUCED, assumption 16. -/
def portFresh (s : State) (n : Nat) (p : PortSt) : PortSt :=
  { PortSt.reset with pool := p.pool, dead := p.dead, cause := p.cause, swallow := p.swallow, clockStop := p.clockStop,
                      quiet := p.quiet, isoLeft := isobud s n, pclkLive := cfgGet s n 0x01 }

/-- R377: the counters of a block are 0 when its domain reaches ON. -/
def zeroCounters (s : State) (b : Blk) : State :=
  (List.range (blkCount b)).foldl (fun t k => setCovf (setCval t (gNum b k) 0) (gNum b k) false) s

/-- R335: the VIO bank of port n: eight ports to a bank. -/
def vioBank (n : Nat) : Nat := n / 8

def vioIsLow (s : State) (k : Nat) : Bool := tget (fun _ => false) s.power.vioLow k

/-- The mesh side of a port that is put down: packets not yet taken are gone, units already driven still leave (R83). -/
def portUnpower (s : State) (n : Nat) : State :=
  let node := portNode n
  [Net.req, .dat, .rsp, .snp].foldl (fun t net => nodeMod t node net (fun q => { q with rx := [] })) s

/-! ## Wake and hemming (R253, R254, R269, R292) -/

/-- R274, R303, R339, R431: may domain d's ladder start? -/
def mayWake (s : State) (d : Nat) : Bool :=
  !(domGet s d).holdOff && !s.power.hush &&
  (if d < 64 then !(portGet s d).dead && !(portGet s d).quiet else true)

/-- R193 step 2: the master pauses the ring for a splice or an unsplice of a chip. -/
def startPause (s : State) (splice : Bool) (chip : Byte) : State :=
  let s1 := ringMod s (fun r => { r with op := .pauseFor splice chip, stopped := true, paused := true, granted := false })
  bump (gwRing s1 .a msgPAUSE 0) .sys yPAUSE

/-- R193, R196: the master serves a LEAVE now, or after the pause in progress. -/
def serveLeave (s : State) (chip : Byte) : State :=
  if s.ring.op = .idle ∧ s.ring.paused = false then startPause s false chip
  else ringMod s (fun r => { r with leaves := r.leaves ++ [chip] })

/-- R196: this chip asks to leave the ring. -/
def askLeave (s : State) (why : LeaveWhy) : State :=
  let s1 := ringMod s (fun r => { r with leaveWhy := why })
  if isMaster s then serveLeave s1 s.chipnum else gwRing s1 .a msgLEAVE s.chipnum

/-- R269 steps 1, R270, R276: the fence. SEAM first unsplices; its hemming starts once the bypass has closed. -/
def startHem (s : State) (d : Nat) : State :=
  if d = 65 ∧ canDrive s = true then (if s.ring.leaveWhy = .none then askLeave s .seamOff else s)
  else
    let s1 := domChange s d (fun x => { x with st := .hemming, hem := .drain })
    if d < 64 then intakeFail s1 d .asleep false else s1

/-- R253, R254: evaluates a port domain or SEAM that is ON or OFF. MESH, SYS and NV follow the chip power state alone (R252). -/
def evalDom (s : State) (d : Nat) : State :=
  let x := domGet s d
  if d = 64 ∨ 66 ≤ d then s
  else
    match x.st with
    | .on => if wantedOn s d then s else startHem s d
    | .off =>
      if wantedOn s d && mayWake s d then domChange s d (fun y => { y with st := .waking, rung := 0, retried := false, rest := false })
      else s
    | _ => s

def evalDoms (s : State) : State := (List.range 66).foldl evalDom s

/-- R269 steps 3 to 5: clamps and switches; STALE tags become FREE (R271); then R253 again (R254). -/
def domOff (s : State) (d : Nat) (forced : Bool) : State :=
  let s1 :=
    if d < 64 then
      let stale := ((portGet s d).pool.tags.filter (fun e => decide (e.2.st = .stale))).map (fun e => BitVec.ofNat 8 e.1)
      portUnpower (portMod s d (fun p => { p with pool := stale.foldl tagFree p.pool, bus := DevBus.reset })) d
    else s
  let s2 := domChange s1 d (fun x =>
    { x with st := .off, hem := .none, forced := x.forced || forced, holdOff := forced && decide (d < 64), hold := x.hold })
  evalDom s2 d

/-- R263, R292, R335, R377: domain d reaches ON. -/
def domReachOn (s : State) (d : Nat) : State :=
  let s1 := if d < 64 then zeroCounters (portMod s d (portFresh s d)) (.port d) else s
  let s2 := domChange s1 d (fun x => { x with st := .on, rung := 0, holdAt := s.time.ts })
  let s3 := if d < 64 ∧ vioIsLow s2 (vioBank d) = true then portDie s2 d fVIOLOW (BitVec.ofNat 16 (vioBank d)) else s2
  evalDom s3 d

/-- The rung after rung r (counted from 0): MESH, SEAM, SYS and NV have no oscillator rung (R292). -/
def nextRung (d : Nat) (r : BitVec 2) : Option (BitVec 2) :=
  match r.toNat with
  | 0 => some (if d < 64 then 1 else 2)
  | 1 => some 2
  | 2 => some 3
  | _ => none

/-- R295: the fault code of a rung. -/
def rungFault (r : BitVec 2) : BitVec 5 :=
  match r.toNat with
  | 0 => fREGRUNG | 1 => fOSCRUNG | 2 => fMEMRUNG | _ => fLOGICRUNG

/-- R295: domain d, a port's or SEAM, goes to FAULT; a port is dead with it. -/
def domFail (s : State) (d : Nat) (r : BitVec 2) : State :=
  let s1 := domChange s d (fun x => { x with st := .fault, rung := r, rest := false })
  if d < 64 then portDie s1 d (rungFault r) 0 else raiseFault s1 d (rungFault r) 0

/-! ## Draining (R269 step 2, R271, R276) -/

/-- A packet that port n's slot has let pass is still on its way from its router. -/
def slotPending (s : State) (n : Nat) : Bool :=
  [Net.req, .dat].any (fun net =>
    !(nodeGet s (portNode n) net).part.isEmpty || !(nodeGet s (portNode n) net).rx.isEmpty ||
    (List.range 5).any (fun i => match (rinGet s net n (dirOf i)).route with
      | some rt => decide (rt.out = .loc) && !rt.slot
      | none => false))

/-- R269 step 2, R271. -/
def portDrained (s : State) (n : Nat) : Bool :=
  let p := portGet s n
  !(p.pool.tags.any (fun e => decide (e.2.st = .held))) && decide (p.tgt = none) && p.fences.isEmpty && p.intake.isEmpty &&
  decide (p.captured = none) && p.wsend.isEmpty && p.wheld.isEmpty && decide (p.replay = none) &&
  (nodeGet s (portNode n) .snp).out.isEmpty && (nodeGet s (portNode n) .req).out.isEmpty &&
  (nodeGet s (portNode n) .dat).out.isEmpty && !slotPending s n

/-- R276: packets held at the gateways. -/
def seamHeld (s : State) : Nat :=
  let count := fun (g : Ring) =>
    ((List.range 8).filter (fun c => (sinGet (gateGet s g) c).latch.isSome || (soutGet (gateGet s g) c).fromMsh.isSome)).length +
    ([Net.req, .dat, .rsp, .snp].filter (fun net => !(nodeGet s (gateNode g) net).out.isEmpty)).length
  count .a + count .b

/-! ## Wake events (R262, R263) -/

/-- R263: a wake event on a port domain; `j` makes the journal entry of its origin. -/
def wakeEvent (s : State) (d : Nat) (j : State → Word → State) : State :=
  let x := domGet s d
  if x.st = .fault ∨ domDead s d = true then j s 0
  else if x.st = .off ∨ x.st = .hemming then
    if x.voted then
      if x.hold then s
      else
        let ms := (cfgGet s 0x84 0x400).extractLsb' 0 16
        evalDom (j (domMod s d (fun y => { y with hold := true, holdMs := ms })) 1) d
    else if x.cmdOn then s
    else evalDom (j (domMod s d (fun y => { y with cmdOn := true })) 2) d
  else s

/-- A wake event's entry by the hardware or the tack engine (R263, R363). -/
def wakeHw (kind : BitVec 3) (d : Nat) (s : State) (v : Word) : State := jHw s kind (tidDom 3 d) v false

/-- R268: milliseconds left on the wake hold, holding at 127. -/
def holdLeft (s : State) (d : Nat) : BitVec 7 :=
  let x := domGet s d
  if x.hold then
    let gone := if x.st = .on then (s.time.ts - x.holdAt).toNat / 25000 else 0
    BitVec.ofNat 7 (min 127 (x.holdMs.toNat - gone))
  else 0

/-! ## Votes (R256 to R261) -/

def voteWordValue (voter : Nat) (cast : Bool) : Word := 0#7 ++ BitVec.ofNat 9 voter ++ 0#15 ++ BitVec.ofBool cast

/-- The voters of a domain with one vote cast or withdrawn, in rising order. -/
def votePut (l : List Nat) (v : Nat) (cast : Bool) : List Nat :=
  if cast then (if l.contains v then l else l.filter (fun x => x < v) ++ v :: l.filter (fun x => v < x))
  else l.filter (fun x => decide (x ≠ v))

/-- R256: only a port domain holds votes. -/
def voteSet (s : State) (d v : Nat) (cast : Bool) : State :=
  if d < 64 then domMod s d (fun x => { x with votes := votePut x.votes v cast }) else s

def paceKey (d v : Nat) : Nat := d * 257 + v
def pacing (s : State) (d v : Nat) : Bool := tget (fun _ => false) s.sys.pacing (paceKey d v)
def paceSet (s : State) (d v : Nat) (b : Bool) : State :=
  sysMod s (fun y => { y with pacing := tset (fun _ => false) y.pacing (paceKey d v) b })

def stallGet (s : State) (v : Nat) : Option Stall := tget (fun _ => none) s.sys.stalls v
def stallSet (s : State) (v : Nat) (x : Option Stall) : State :=
  sysMod s (fun y => { y with stalls := tset (fun _ => none) y.stalls v x })

/-- R257: a paced vote write is applied: the vote, its entry, a new interval, the answer. The caller has seen to room. -/
def voteApply (s : State) (v : Nat) (x : Stall) : State :=
  let o : Origin := match x.req with | some (p, _) => .fab p.schip p.snode p.cid | none => .host
  let s1 := jOrigin (voteSet s x.dom v x.cast) o (tidDom 2 x.dom) (voteWordValue v x.cast)
  let s2 := evalDom (paceSet s1 x.dom v true) x.dom
  match x.req with
  | some (p, k) => writeNext s2 p k .ok
  | none => hostEnd s2

/-- R258: the first waiting write of this voter takes its slot. -/
def voteNext (s : State) (v : Nat) : State :=
  match s.sys.voteWait.find? (fun e => e.1 = v) with
  | some e => stallSet (sysMod s (fun y => { y with voteWait := y.voteWait.erase e })) v (some e.2)
  | none => s

/-- R257, R258: slots whose interval has ended are applied while there is room, and refilled. -/
def voteSettle : Nat → State → State
  | 0, s => s
  | k + 1, s =>
    match (s.sys.stalls.find? (fun e => match e.2 with | some x => !pacing s x.dom e.1 | none => false)) with
    | some (v, some x) => if jRoom s then voteSettle k (voteNext (stallSet (voteApply s v x) v none) v) else s
    | _ => s

/-- R257, R258: a paced vote write arrives: applied at once, or stalled in its voter's slot, or waiting for the slot. -/
def voteArrive (s : State) (v : Nat) (x : Stall) : State :=
  if (stallGet s v).isSome then bump (sysMod s (fun y => { y with voteWait := y.voteWait ++ [(v, x)] })) .sys yVOTESTALL
  else if pacing s x.dom v then bump (stallSet s v (some x)) .sys yVOTESTALL
  else if jRoom s then voteApply s v x
  else bump (stallSet s v (some x)) .sys yJSTALL

/-- R261: votes of the clients for which `pick` holds are withdrawn from every port domain, unpaced, each journaled with kind RESET. -/
def votesDrop (s : State) (pick : Nat → Bool) : State :=
  (List.range 64).foldl (fun t d =>
    let gone := (domGet t d).votes.filter pick
    let t1 := gone.foldl (fun u v => jHw (voteSet u d v false) kRESET (tidDom 2 d) (voteWordValue v false) false) t
    if gone.isEmpty then t1 else evalDom t1 d) s

end Sys2Proof.Machine
end

