-- ==== Sys2Proof/Machine/Supply.lean ====
section
/-!
DEFINITION. The supply side (11, 12): voltage requests, moves between power states, the chip ladder and the MESH, SYS and NV ladders,
LIMP, chip fault; and start-up and the wide resets (18), which run them.
-/
namespace Sys2Proof.Machine

/-! ## Words -/

/-- PSTATE (R278). -/
def pstateWord (s : State) : Half := 0#7 ++ s.power.lvl ++ s.power.cur ++ s.power.code

/-- REGLINK (R286); no transaction is seen in progress between two commands except a request waiting for its acknowledgement. -/
def reglinkWord (s : State) : Half :=
  0#1 ++ BitVec.ofBool s.power.pgoodNow ++ BitVec.ofBool s.power.alertLow ++ BitVec.ofBool s.power.req.isSome ++ s.power.regto ++
    s.power.settle ++ 0#3 ++ BitVec.ofBool s.power.pec

/-- BROWN (R308). -/
def brownWord (s : State) : Half :=
  s.power.browns ++ 0#3 ++ BitVec.ofBool s.power.seen ++ BitVec.ofBool s.power.hush ++ BitVec.ofBool s.power.nvWarn ++
    BitVec.ofBool s.power.aonWarn ++ BitVec.ofBool s.power.vcWarn

/-- A hardware change of PSTATE is journaled as its new word (R9, R278). -/
def setPstate (s : State) (f : Power → Power) : State :=
  let s1 := powMod s f
  if pstateWord s1 = pstateWord s then s1 else jHw s1 kHARDWARE (tidHost 0x13) ((pstateWord s1).setWidth 32) false

/-! ## Settings per power state (R287, R288) -/

def nominal (code : Nat) : Nat :=
  match code with
  | 5 => 0x119A | 4 => 0x1000 | 3 => 0x0CCD | 2 => 0x09EC | 1 => 0x0CCD | _ => 0

/-- R287: the mantissa with TRIM. -/
def mantissa (trim : Byte) (code : Nat) : Half := BitVec.ofInt 16 (Int.ofNat (nominal code) + 4 * trim.toInt)

def biasOf (code : Nat) : Bias :=
  match code with
  | 5 => .forward | 2 => .reverse | _ => .zero

def assistOf (code : Nat) : Bool := decide (code ≤ 3)

/-- R281, R282, R284: a voltage request goes out on the regulator link. -/
def sendVolt (s : State) (q : VReq) (code : Nat) : State :=
  powMod s (fun p => { p with vout := mantissa p.trim code, operOn := true, req := some q, second := false, pgoodRun := p.pgoodNow })

/-! ## Moves (R279, R289, R290) -/

/-- R289 steps 1 to 3. -/
def startMove (s : State) (new : BitVec 3) : State :=
  sendVolt (powMod s (fun p => { p with bias := .zero, assist := p.assist || assistOf new.toNat })) (.move s.power.lvl new) new.toNat

/-- R25, R289 step 7: every router's delay lines are due to be trimmed and swapped. -/
def delaysDue (s : State) : State :=
  (List.range 64).foldl (fun t r => delaySet t r { delayGet t r with due := true }) s

/-- R289 steps 5 to 7, R299. -/
def endMove (s : State) (new : BitVec 3) : State :=
  delaysDue (setPstate s (fun p => { p with req := none, second := false, assist := assistOf new.toNat, bias := biasOf new.toNat,
                                            lvl := new, cur := if p.limp then p.cur else new }))

/-- R279: all port domains and SEAM are down. -/
def allDown (s : State) : Bool :=
  (List.range 66).all (fun d => decide (d = 64) || decide ((domGet s d).st = .off) || decide ((domGet s d).st = .fault))

/-- R279 step 4: NV, SYS, MESH off, VCORE off, and the chip stands in TACKING or DEEP. -/
def powerDown (s : State) (t : BitVec 3) : State :=
  let s1 := [67, 66, 64].foldl (fun u d => domMod u d (fun x => { x with st := .off })) s
  let s2 := powMod s1 (fun p => { p with moving := none, movedJ := false, cur := t, lvl := if p.limp then p.lvl else t, operOn := false,
                                         bias := .zero, assist := false, mode := if t = 0 then .deep else .tacking })
  if t = 0 then s2
  else timeMod s2 (fun m => { m with lvalid := 0, sinceDue := 0, due := false, wakeHit := none, wakeAfter := none, matches_ := [] })

/-- R279 steps 3 and 4: when every domain is down, the entry of the move is made; when staging is empty, the rest goes off. -/
def downCheck (s : State) : State :=
  match s.power.moving with
  | none => s
  | some t =>
    if allDown s = false then s
    else
      let s1 :=
        if s.power.movedJ then s
        else
          let w : Half := 0#7 ++ (if s.power.limp then s.power.lvl else t) ++ t ++ s.power.code
          powMod (jHw s kHARDWARE (tidHost 0x13) (w.setWidth 32) false) (fun p => { p with movedJ := true })
      if s1.jrn.staging.isEmpty && s1.jrn.waiting.isEmpty then powerDown s1 t else s1

/-! ## Chip ladder (R292, R310) -/

/-- The power state whose voltage a ladder requests (R292). -/
def ladderCode : LadderWhy → BitVec 3
  | .patrol => 3 | _ => 4

/-- R292, R303, R310: the chip ladder starts; during a hush its first rung waits (R438). LIMP ends at a reset's ladder alone (R298, R299). -/
def chipLadder (s : State) (why : LadderWhy) : State :=
  let keep := match why with | .reset _ => false | _ => s.power.limp
  let s1 := powMod s (fun p => { p with mode := .ladder why 0, req := none, second := false, regDone := false, limp := keep })
  let s2 := jrnMod (timeMod s1 (fun t => { t with ts := 0, isoCount := 0, bwCount := 0 })) (fun j => { j with newRun := true })
  if s.power.hush then s2 else sendVolt s2 (.ladder (ladderCode why)) (ladderCode why).toNat

/-- R298, R299: LIMP; a patrol's ladder leaves no journal trace (R325). -/
def enterLimp (s : State) : State :=
  let f := fun (p : Power) => { p with limp := true, cur := 6 }
  if s.time.patrol.isSome then powMod s f else setPstate s f

/-- R293: the MESH, SYS and NV ladders start together, at a patrol MESH and SYS alone (R324 step 3). -/
def startCore (s : State) (why : LadderWhy) : State :=
  let ds := if why = .patrol then [64, 66] else [64, 66, 67]
  let s1 := powMod s (fun p => { p with mode := .core why, assist := assistOf (ladderCode why).toNat, bias := .zero })
  ds.foldl (fun t d => domMod t d (fun x => { x with st := .waking, rung := 0, retried := false, rest := false })) s1

/-- R297: a chip fault: every other domain is held off, the bypass closed. -/
def chipFault (s : State) (d : Nat) (r : BitVec 2) : State :=
  let s1 := closeBypass (raiseFault s d (rungFault r) 0)
  let s2 := (List.range 68).foldl (fun t k => domMod t k (fun x => { x with st := .off, hem := .none, rung := 0, rest := false })) s1
  raiseFault (powMod s2 (fun p => { p with mode := .chipFault, moving := none, movedJ := false })) srcCHIP fCHIPFAULT 0

/-! ## Journal entries of a wake (R317, R318, R429) -/

/-- R317: the thimble's queue enters the journal, each entry time-invalid; fault entries of a failed ladder come last (R429). -/
def drainQueue (s : State) : State :=
  let isFault := fun (e : Entry) => decide (e.tid = tidHost 0x24)
  let q := s.jrn.queue.filter (fun e => !isFault e) ++ s.jrn.queue.filter isFault
  q.foldl (fun t e => stage t { e with ts := t.time.ts, tinv := true, same := decide (t.jrn.lastTs = some t.time.ts),
                                       staged := t.power.hush || t.power.nvWarn }) (jrnMod s (fun j => { j with queue := [] }))

/-- R429, R318: the entries of a reset, its anchor first, then one naming its cause, then what the thimble queued. -/
def resetEntries (s : State) (last : BitVec 4) : State :=
  drainQueue (jHw (anchor s aRESET) kRESET (tidHost 0x06) (last.setWidth 32) false)

/-! ## What the wide scopes return (R150, R345, R436) -/

/-- Is this retention word of a port bank (R436 row 1): PCFG, PCLK, PIRQCFG, PISO, PTMO, windows, watch entries, CSEL? -/
def isRetention (bank : Nat) : Bool := decide (bank < 64)

/-- R400: a host write that waits goes on waiting until SYS is ON. -/
def hostHeld (s : State) : List (Wait × Held) :=
  (s.sys.held.filter (fun e => match e.2 with | .fab _ _ => false | _ => true)).map (fun e => (.reset, e.2))

/-- R436: host selectors and pairing state, and JRNPTR. A bus cycle whose wait is gone ends. -/
def hostReturn (s : State) : HostIf :=
  { s.host with
    winsel := 0, winaddr := 0, inc := true, phase := false, phaseRd := false, refused := false, decerr := false, asleep := false,
    rlatch := 0, wlatch := 0, domsel := 0, votesel := 256, faultsel := 0, isoport := 0, bobsel := 0, bobitem := 0, bobclr := false,
    bobphase := false, boblatch := 0, jptr := 0, waitLow := !(hostHeld s).isEmpty }

/-- SYS state that a SYS reset returns (R436): directory, authority table, REFUSE, basting, bobbins and BCFG, bank 0x84 words, SYS
counters, the snapshot store, EVENT and EVENTEN, host selectors. -/
def sysReturn (s : State) : State :=
  let keepBank := fun (b : Nat) => decide (b < 0x80) || decide (b = 0x83) || decide (b = 0x85)
  let s1 := cfgDrop s (fun b _ => !keepBank b)
  let c := s.cnt
  { s1 with
    sys := { Sys.reset with held := hostHeld s, scopes := s.sys.scopes, last := s.sys.last, busy := s.sys.busy, agents := s.sys.agents,
                            notices := s.sys.notices, portRst := none, ringWait := s.sys.ringWait, ringAsk := s.sys.ringAsk },
    bobs := [],
    host := hostReturn s,
    cnt := { Counters.reset with value := c.value.filter (fun e => decide (e.1 < 1024)), ovf := c.ovf.filter (fun e => decide (e.1 < 1024)) },
    time := { s.time with bwwin := Time.reset.bwwin } }

/-- What a scope wider than SYS returns besides, by the columns of R436: `ret` the retention words, `rec` the fault records,
`link` REGLINK and VCORESET with RESETSCOPE, `tack` the tack program and alarm. -/
def wideReturn (s : State) (ret rec link tack : Bool) : State :=
  let s1 := sysReturn s
  let dropBank := fun (b : Nat) => (decide (b < 0x40) && ret) || (decide (0x40 ≤ b) && decide (b < 0x80)) || (decide (b = 0x83) && tack) ||
                                   decide (b = 0x85)
  let s2 := cfgDrop s1 (fun b _ => dropBank b)
  let p := s.power
  let pw : Power := { Power.reset with
    pgoodNow := p.pgoodNow, alertLow := p.alertLow, alertGot := p.alertGot, lastWord := p.lastWord, vcWarn := p.vcWarn,
    aonWarn := p.aonWarn, nvWarn := p.nvWarn, hush := p.hush, seen := p.seen, browns := p.browns, hushAon := p.hushAon,
    vioLow := p.vioLow, rstLow := p.rstLow, ladderBad := p.ladderBad, pec := if link then false else p.pec, settle := if link then 4 else p.settle,
    regto := if link then 2 else p.regto, trim := if link then 0 else p.trim }
  let t := s.time
  let tm : Time := if tack then { Time.reset with rtcSec := t.rtcSec, rtcFr := t.rtcFr, rtcHalt := t.rtcHalt }
    else { t with ts := 0, isoLive := 1600, isoCount := 0, bwLive := 25000, bwCount := 0, bwwin := 25000, patrol := none,
                  tackRes := none, matches_ := [], wakeHit := none, wakeAfter := none, tackHeld := [] }
  { s2 with
    power := pw, time := tm, doms := [], ports := [], mesh := Mesh.reset, chipnum := Config.strap,
    ring := RingSt.reset Config.strap, faults := if rec then [] else s.faults, cnt := Counters.reset,
    sys := { Sys.reset with held := hostHeld s, scopes := if link then [] else s.sys.scopes, last := s.sys.last, busy := s.sys.busy } }

/-- R345: a scope keeps or returns the fault records; R428: start-up begins, with its domains all held in reset. -/
def startUp (s : State) (last : BitVec 4) : State :=
  let code : BitVec 4 := if s.power.ladderBad then 7 else last
  let s1 := [64, 65, 66, 67].foldl (fun t d => domMod t d (fun x => { x with st := .off })) s
  chipLadder s1 (.reset code)

end Sys2Proof.Machine
end

