-- ==== Sys2Proof/Machine/Upkeep.lean ====
section
/-!
DEFINITION. What follows from a change of power, time or a domain: moves that fall due, the chip coming up, the patrol, the alarm, the
hush. Each definition acts only when its conditions hold, so a command calls it after whatever it changed.
-/
namespace Sys2Proof.Machine

/-! ## Core domains reach ON (R293, R377, R407) -/

/-- R14, R63, R377: what a ladder of MESH, SYS or NV brings up fresh. -/
def coreReach (s : State) (d : Nat) : State :=
  let up := domMod s d (fun x => { x with st := .on, rung := 0, retried := false, rest := false })
  if d = 64 then
    let s1 := cfgDrop { up with mesh := Mesh.reset } (fun b _ => decide (0x40 ≤ b ∧ b < 0x80))
    cntMod s1 (fun c => { c with value := c.value.filter (fun e => !decide (512 ≤ e.1 ∧ e.1 < 1024)),
                                 ovf := c.ovf.filter (fun e => !decide (512 ≤ e.1 ∧ e.1 < 1024)) })
  else if d = 66 then
    let s1 := cfgDrop up (fun b _ => decide (b = 0x86))
    let s2 := cntMod s1 (fun c => { c with value := c.value.filter (fun e => decide (e.1 < 1024)),
                                           ovf := c.ovf.filter (fun e => decide (e.1 < 1024)) })
    sysMod s2 (fun y => { y with event := y.event ||| y.eventLate, eventLate := 0 })
  else if d = 67 then journalScan up
  else up

/-- All domains that a core ladder wakes are ON. -/
def coreUp (s : State) (why : LadderWhy) : Bool := sysOn s && domOn s 64 && (decide (why = .patrol) || nvOn s)

/-! ## Moves (R279, R290, R315, R316) -/

/-- R290, R303, R316: acts on PSTATE.CODE once nothing is in progress. -/
def powerEval (s : State) : State :=
  let p := s.power
  if p.hush || s.time.patrol.isSome || p.req.isSome || p.moving.isSome then s
  else
    match p.mode with
    | .up =>
      if p.code.toNat < 2 then downCheck (evalDoms (powMod s (fun q => { q with moving := some p.code })))
      else if p.code = p.lvl then s
      else startMove s p.code
    | .tacking =>
      if 2 ≤ p.code.toNat then chipLadder s .leaveTack
      else if p.code = 0 then
        powMod (setPstate s (fun q => { q with cur := 0, lvl := if q.limp then q.lvl else 0 })) (fun q => { q with mode := .deep })
      else s
    | _ => s

/-! ## The patrol (R323 to R327) -/

/-- R324 step 4, R325: every domain the patrol wakes is ON, or cannot wake; SEAM with its splice. -/
def patrolReady (s : State) : Bool :=
  (List.range 64).all (fun n => !tport s n || domOn s n || decide ((domGet s n).st = .fault) || domDead s n) &&
  (!tackSeam s || decide ((domGet s 65).st = .fault) ||
    (domOn s 65 && ((spliced s && !s.ring.paused) || s.ring.dupFlag || !s.ring.joinEn)))

/-- R320: writes that bank 0x83 took during the patrol. -/
def tackApply (s : State) : State :=
  timeMod (s.time.tackHeld.foldl (fun t e =>
    if e.1 = 3 then
      timeMod (cfgSet t 0x83 3 (e.2 &&& 0x3FF)) (fun m => { m with armed := m.armed && !e.2.msb })
    else cfgSet t 0x83 e.1 e.2) s) (fun t => { t with tackHeld := [] })

/-- R315, R316: what waited for the end of the patrol: the alarm makes CODE 4. -/
def afterPatrol (s : State) : State :=
  let s1 := match s.time.wakeAfter with
    | some c => setPstate (timeMod s (fun t => { t with wakeAfter := none })) (fun p => { p with code := c })
    | none => s
  powerEval s1

/-- R326: SYS and MESH off, OPERATION 0x00; the chip tacks on. -/
def patrolOver (s : State) : State :=
  let s1 := [66, 64, 67].foldl (fun t d => domMod t d (fun x => { x with st := .off })) s
  let s2 := powMod s1 (fun p => { p with mode := .tacking, operOn := false, cur := 1, assist := false, bias := .zero, req := none })
  afterPatrol (tackApply (timeMod s2 (fun t => { t with patrol := none, matches_ := [], tackRes := none })))

/-- R326: an ending patrol is over once its ports and SEAM are down. -/
def patrolEnd (s : State) : State :=
  let s1 := evalDoms (timeMod s (fun t => { t with patrol := some .ending }))
  if allDown s1 then patrolOver s1 else s1

/-- R325: a patrol is abandoned. -/
def patrolAbandon (s : State) : State := patrolEnd (timeMod s (fun t => { t with mabandon := true }))

/-- R324 step 6, R317, R328: the anchor, what the thimble queued, and one entry per match. -/
def patrolRecord (s : State) : State :=
  let s1 := drainQueue (anchor s aPATROL)
  s.time.matches_.foldl (fun t m => jHw t kTACK (tidBank 0x83 (0x11 + 8 * m.1)) m.2 false) s1

/-- R263, R326: the tack engine's wake event on a domain of TPORTS, which counts as OFF. -/
def tackWake (s : State) (d : Nat) : State :=
  let x := domGet s d
  if x.st = .on ∧ domDead s d = false then
    if x.voted then
      if x.hold then s
      else
        let ms := (cfgGet s 0x84 0x400).extractLsb' 0 16
        wakeHw kTACK d (domMod s d (fun y => { y with hold := true, holdMs := ms })) 1
    else if x.cmdOn then s
    else wakeHw kTACK d (domMod s d (fun y => { y with cmdOn := true })) 2
  else wakeEvent s d (wakeHw kTACK d)

/-- R326: the patrol ends with a WAKE match: wake events, CODE, and the move that follows. -/
def patrolWake (s : State) (w : BitVec 3) : State :=
  let s1 := timeMod s (fun t => { t with patrol := none, matches_ := [], wakeHit := none, tackRes := none })
  let s2 := tackApply s1
  let s3 := ((List.range 64).filter (tport s)).foldl tackWake s2
  let s4 := powMod s3 (fun p => { p with code := w })
  let s5 := if pstateWord s4 = pstateWord s3 then s4 else jHw s4 kTACK (tidHost 0x13) ((pstateWord s4).setWidth 32) false
  evalDoms (afterPatrol s5)

/-- R323: step k sends its READ. -/
def tackSend (s : State) (k : Nat) : State :=
  let w := tdest s k
  agentAsk (timeMod s (fun t => { t with patrol := some (.reading k), tackRes := none })) (w.extractLsb' 0 8)
    (w.extractLsb' 8 7) (.read 1) ((cfgGet s 0x83 (0x10 + 8 * k)).extractLsb' 2 30) [] .tackRead

/-- R323, R303: takes the patrol on when what it waits for has come. -/
def patrolPump (s : State) : State :=
  match s.time.patrol with
  | none => s
  | some .waking =>
    if decide (s.power.mode = .up) && patrolReady s then
      let s1 := timeMod s (fun t => { t with patrol := some (.next 0) })
      if s.power.hush then s1 else tackSend s1 0
    else s
  | some (.next k) => if s.power.hush then s else tackSend s k
  | some (.reading _) => s
  | some (.bell k) =>
    if s.time.tackRes.isNone then s
    else
      let s1 := timeMod s (fun t => { t with tackRes := none })
      if k < s.time.lastStep.toNat then
        let s2 := timeMod s1 (fun t => { t with patrol := some (.next (k + 1)) })
        if s.power.hush then s2 else tackSend s2 (k + 1)
      else if s.time.matches_.isEmpty then patrolEnd s1
      else timeMod s1 (fun t => { t with patrol := some .record })
  | some .record =>
    match (domGet s 67).st with
    | .off => if s.power.hush then s else domMod s 67 (fun x => { x with st := .waking, rung := 0, retried := false, rest := false })
    | .on =>
      match s.time.wakeHit with
      | some w => patrolWake s w
      | none =>
        if s.jrn.staging.isEmpty && s.jrn.waiting.isEmpty then patrolEnd (domMod s 67 (fun x => { x with st := .off })) else s
    | _ => s
  | some .ending => if allDown s then patrolOver s else s

/-- R323: after step k: the next one, or the end. -/
def tackNext (s : State) (k : Nat) : State :=
  if k < s.time.lastStep.toNat then patrolPump (timeMod s (fun t => { t with patrol := some (.next (k + 1)) }))
  else if s.time.matches_.isEmpty then patrolEnd s
  else patrolPump (timeMod s (fun t => { t with patrol := some .record }))

/-- R321: does the word D match? -/
def tackMatch (op : Nat) (d m v last : Word) (valid : Bool) : Bool :=
  match op with
  | 0 => decide (d &&& m = v &&& m)
  | 1 => decide (d &&& m ≠ v &&& m)
  | 2 => decide (v &&& m < d &&& m)
  | 3 => decide (d &&& m < v &&& m)
  | 4 => decide (d &&& m ≠ 0)
  | 5 => decide (~~~ d &&& m ≠ 0)
  | 6 => valid && decide (d &&& m ≠ last &&& m)
  | _ => false

/-- R320, R322, R323: the word read by step k is tested and kept; a match acts. -/
def tackTest (s : State) (k : Nat) (d : Word) : State :=
  let w := tact s k
  let last := tget (fun _ => 0) s.time.lastv k
  let hit := tackMatch (fieldNat (tdest s k) 16 3) d (cfgGet s 0x83 (0x12 + 8 * k)) (cfgGet s 0x83 (0x13 + 8 * k)) last
    (s.time.lvalid.getLsbD k)
  let s1 := timeMod s (fun t => { t with lastv := tset (fun _ => 0) t.lastv k d, lvalid := t.lvalid ||| (1 <<< k) })
  if hit = false then tackNext s1 k
  else
    let s2 := timeMod s1 (fun t => { t with mmatch := true, mstep := BitVec.ofNat 3 k, matches_ := t.matches_ ++ [(k, d)] })
    match fieldNat w 0 2 with
    | 1 => patrolPump (timeMod s2 (fun t => { t with wakeHit := some (w.extractLsb' 2 3), patrol := some .record }))
    | 2 =>
      patrolPump (agentAsk (timeMod s2 (fun t => { t with patrol := some (.bell k), tackRes := none })) (w.extractLsb' 15 8) nodeBob
        (.write 1) (bellAddr (fieldNat w 5 6)) [bellData (fieldNat w 11 4)] .tackBell)
    | _ => tackNext s2 k

/-- R324 steps 1 and 2, R299: a patrol starts. -/
def patrolStart (s : State) : State :=
  let s1 := timeMod s (fun t => { t with patrol := some .waking, due := false, tackRes := none, matches_ := [], wakeHit := none,
                                         patrols := if t.patrols = 255 then 255 else t.patrols + 1 })
  chipLadder (powMod s1 (fun p => { p with cur := if p.limp then 6 else p.cur })) .patrol

/-! ## The chip is up (R315, R317, R318, R429) -/

/-- What follows a core ladder. -/
def coreDone (s : State) (why : LadderWhy) : State :=
  let s1 := powMod s (fun p => { p with mode := .up })
  match why with
  | .reset last =>
    let s2 := sysMod s1 (fun y => { y with last := last, busy := false })
    let s3 := hostMod s2 (fun h => { h with jlatch := jrnhead1 s2 })
    evalDoms (powMod (resetEntries s3 last) (fun p => { p with ladderBad := false }))
  | .leaveTack =>
    let s2 := drainQueue (anchor s1 aLADDER)
    let s3 := setPstate s2 (fun p => { p with cur := if p.limp then 6 else 4, lvl := 4 })
    evalDoms (powerEval s3)
  | .patrol => patrolPump (evalDoms s1)

/-! ## After anything changed -/

/-- Domains that are down, moves that fall due and the patrol are looked at again. -/
def upkeep (s : State) : State := patrolPump (powerEval (downCheck s))

/-! ## The alarm (R313 to R315) -/

/-- ALCTL (R320): bank 0x83 index 0x03. FRAC is the word kept in the configuration, ARMED the thimble's. -/
def alctlWord (s : State) : Word := BitVec.ofBool s.time.armed ++ 0#21 ++ (cfgGet s 0x83 3).extractLsb' 0 10

/-- R315: the alarm fires and disarms itself; the change of ARMED is journaled (R328). -/
def alarmFire (s : State) : State :=
  let s1 := timeMod s (fun t => { t with armed := false })
  let s2 := jHw s1 kHARDWARE (tidBank 0x83 3) (alctlWord s1) false
  match s.power.mode with
  | .deep => startUp (wideReturn s2 false false true false) 3
  | .unpowered | .held => s2
  | _ =>
    if s.time.patrol.isSome then timeMod s2 (fun t => { t with wakeAfter := some 4 })
    else if s.power.cur = 1 then powerEval (setPstate s2 (fun p => { p with code := 4 }))
    else raiseEvent s2 evALARM

/-- R314: a comparison of the RTC with the armed alarm. -/
def alarmCompare (s : State) : State :=
  let t := s.time
  if t.armed && decide ((t.alSec ++ t.alFr : BitVec 42) ≤ t.rtcSec ++ t.rtcFr) then alarmFire s else s

/-- R313, R314: the alarm is set and armed. -/
def alarmSet (s : State) (sec : Word) : State :=
  let fr := (cfgGet s 0x83 3).extractLsb' 0 10
  alarmCompare (timeMod s (fun t => { t with alSec := sec, alFr := fr, armed := true }))

/-- R313, R314, R318: the RTC is set, and the anchor follows the entry. -/
def rtcSet (s : State) (sec : Word) : State := anchor (timeMod s (fun t => { t with rtcSec := sec, rtcFr := 0 })) aRTCSET

/-! ## Doorbells (R245, R246) -/

/-- R246: the owner of bobbin b is woken when one of its bits goes from not pending to pending. -/
def bellWake (s : State) (b : Nat) (before : Half) : State :=
  let w := bcfg s b
  let n := bOwner w
  if bWake w && decide (bellPending s b &&& ~~~ before ≠ 0) && !domOn s n then wakeEvent s n (wakeHw kHARDWARE n)
  else s

/-- R245: sets (or, for the owner and the host, clears) doorbell bits. -/
def bellSet (s : State) (b : Nat) (bits : Half) : State :=
  bellWake (bobMod s b (fun x => { x with bell := x.bell ||| bits })) b (bellPending s b)

def bellClear (s : State) (b : Nat) (bits : Half) : State := bobMod s b (fun x => { x with bell := x.bell &&& ~~~ bits })

/-! ## Rungs of a domain (R292, R295) -/

/-- R261, R263, R432 step 3: SYS state is back at its reset values: each VOTED domain that is ON starts its wake hold, counted from
now, and every vote is withdrawn; the holds bridge the votes. -/
def sysReturned (s : State) : State :=
  let s1 := sysReturn s
  let ms := (cfgGet s1 0x84 0x400).extractLsb' 0 16
  votesDrop ((List.range 64).foldl (fun t d => domMod t d (fun x =>
    if x.voted ∧ x.st = .on then { x with hold := true, holdMs := ms, holdAt := s.time.ts } else x)) s1) (fun _ => true)

/-- R429, R432 steps 3 to 5. -/
def sysResetDone (s : State) : State :=
  let s1 := sysMod s (fun y => { y with last := 4, busy := false })
  resetEntries (evalDoms (sysReturned s1)) 4

/-- Domain d completes its last rung. -/
def domUp (s : State) (d : Nat) : State :=
  if d < 64 then upkeep (domReachOn s d)
  else if d = 65 then upkeep (domReachOn (ringMod s (fun r => { r with attempt := 0, pulses := 0 })) d)
  else
    let s1 := coreReach s d
    match s1.power.mode with
    | .core why => if coreUp s1 why then coreDone s1 why else s1
    | _ =>
      if d = 67 ∧ s.time.patrol = some .record then patrolPump (patrolRecord s1)
      else if d = 66 then sysResetDone s1
      else s1

/-- R295: a second failure of a rung of domain d. In a patrol it is abandoned (R325). -/
def domBroken (s : State) (d : Nat) (r : BitVec 2) : State :=
  let inPatrol := s.time.patrol.isSome
  if d < 66 ∧ d ≠ 64 then
    let s1 := domFail s d r
    if inPatrol then patrolAbandon s1 else upkeep s1
  else
    let s1 := timeMod s (fun t => { t with mabandon := t.mabandon || inPatrol, patrol := none, tackRes := none })
    chipFault (tackApply s1) d r

end Sys2Proof.Machine
end

