-- ==== Sys2Proof/Machine/Claims.lean ====
section
/-!
DEFINITION. Refusals (R353), the client directory and its claims (R146 to R150, R202, R203), and the authority table's words.
-/
namespace Sys2Proof.Machine

/-! ## Refusals -/

def whyHOSTONLY : BitVec 4 := 8
def whyOWNER : BitVec 4 := 9
def whyBASTED : BitVec 4 := 0xA
def whyAGENT : BitVec 4 := 0xB

/-- R353: a refusal with status RIGHTS is counted. -/
def refuse (s : State) (cid : Byte) (why : BitVec 4) : State :=
  let s1 := bump (sysMod s (fun y => { y with refuseN := if y.refuseN = 0xFFFF then 0xFFFF else y.refuseN + 1, refuseCid := cid,
                                              refuseWhy := why, refuseSeen := true })) .sys yREFUSE
  if s.sys.refuseSeen then s1 else raiseEvent s1 evREFUSE

/-- The client that a refusal of this origin names; 0 for an agent. -/
def refusedCid (o : Origin) : Byte :=
  match o with | .host => 0 | .fab _ snode cid => if snode.getLsbD 0 then 0 else cid

/-! ## The directory -/

/-- R9, R146, R202: a change of a directory entry by hardware or by a reset is journaled. -/
def dirPut (s : State) (kind : BitVec 3) (c : Nat) (w : Word) : State :=
  if cfgGet s 0x81 c = w then s else jHw (cfgSet s 0x81 c w) kind (tidBank 0x81 c) w false

/-- The entry names this port. -/
def dirNames (w : Word) (chip : Byte) (port : Nat) : Bool := dirValid w && decide (dirChip w = chip) && decide (dirPort w = port)

/-- R150: a reset of port p of this chip frees the entries that name it and are not pinned. -/
def dirFreePort (s : State) (p : Nat) : State :=
  (List.range 256).foldl (fun t c =>
    let w := cfgGet t 0x81 c
    if dirNames w s.chipnum p && !dirPinned w then dirPut t kRESET c 0 else t) s

/-- R203: at a splice the entries that are not pinned are freed, and every port mark is unclaimed. -/
def dirSplice (s : State) : State :=
  let s1 := (List.range 256).foldl (fun t c =>
    let w := cfgGet t 0x81 c
    if dirValid w && !dirPinned w then dirPut t kHARDWARE c 0 else t) s
  (List.range 64).foldl (fun t n => portMod t n (fun p => { p with marks := [] })) s1

/-- R256, R261: the clients whose directory entry names this chip and port, pinned entries too. -/
def clientsOf (s : State) (chip : Byte) (port : Nat) : List Nat :=
  (List.range 256).filter (fun c => dirNames (cfgGet s 0x81 c) chip port)

/-- R147: SYS answers a claim of a port of this chip. -/
def claimAnswer (s : State) (k : Claim) (st : Status) : State :=
  let q := requestPkt s.chipnum nodeSys (portNode k.port) (.write 1) 2 k.tag s.chipnum k.cid 0 []
  sendPkt (if st = .ok then bump s .sys yCLAIMOK else if st = .dupcid then bump s .sys yDUPCID else s) nodeSys .rsp (responsePkt q st [])

/-- R148: a claim is refused: CONFLICT is set and the client event raised. -/
def dirConflictSet (s : State) (c : Nat) : State := raiseEvent (dirPut s kHARDWARE c (cfgGet s 0x81 c ||| 0x40000)) evCLIENT

/-- R147, R148: SYS decides a claim of (chip, port) on its own copy: the new state and the answer. -/
def claimDecide (s : State) (chip : Byte) (port : Nat) (c : Byte) : State × Status :=
  let w := dirWord s c
  if !dirValid w then (dirPut s kHARDWARE c.toNat (mkDir chip port true false (dirConflict w)), .ok)
  else if dirNames w chip port then (s, .ok)
  else (dirConflictSet s c.toNat, .dupcid)

/-- R202, R203: at the master, a pin that another chip sends. -/
def pinDecide (s : State) (chip : Byte) (port : Nat) (c : Byte) (splice : Bool) : State :=
  let w := dirWord s c
  if splice ∧ dirPinned w = true ∧ dirNames w chip port = false then dirConflictSet s c.toNat
  else dirPut s kHARDWARE c.toNat (mkDir chip port true true false)

/-- R352: may this chip's SYS take a ring-management write from SYS of chip c? -/
def ringSource (s : State) (c : Byte) : Bool := spliced s && inTable s c && decide (c ≠ s.chipnum)

/-- The oldest claim waiting here is decided, or sent to the master when the entry is free and the chip is in a ring; a claim of
another chip is decided at the master. -/
def execClientClaim (from_ : ClaimFrom) (s : State) : Res :=
  if sysOn s = false then .next s
  else
    match from_ with
    | .here =>
      match s.sys.claims with
      | [] => .next s
      | k :: rest =>
        if (nodeGet s nodeSys .rsp).out.isEmpty = false then .next s
        else
          let s1 := sysMod s (fun y => { y with claims := rest })
          if spliced s && !isMaster s && !dirValid (dirWord s k.cid) then .next (sysMod s1 (fun y => { y with forwarded := y.forwarded ++ [k] }))
          else
            let d := claimDecide s1 k.chip k.port k.cid
            .next (claimAnswer d.1 k d.2)
    | .chip c port cid kind =>
      if isMaster s = false then .next s
      else if ringSource s c = false then .next (refuse s 0 whyAGENT)
      else
        match kind with
        | .learned => .next (claimDecide s c port.val cid).1
        | .pinNow => .next (pinDecide s c port.val cid false)
        | .pinSplice => .next (pinDecide s c port.val cid true)

/-! ## Copies from the master (R202, R354, R433) -/

/-- A claim sent to the master is answered once the copy gives its client to a port. -/
def claimsSettle : Nat → State → State
  | 0, s => s
  | n + 1, s =>
    match s.sys.forwarded.find? (fun k => dirValid (dirWord s k.cid)) with
    | none => s
    | some k =>
      let s1 := sysMod s (fun y => { y with forwarded := y.forwarded.erase k })
      if dirNames (dirWord s k.cid) k.chip k.port then claimsSettle n (claimAnswer s1 k .ok)
      else claimsSettle n (claimAnswer (dirConflictSet s1 k.cid.toNat) k .dupcid)

/-- The authority words that differ from the live ones. -/
def authChanged (s : State) (l : List (Byte × Byte)) : List (Byte × Byte) := l.filter (fun e => decide (rights s e.1 ≠ e.2))

/-- R354, R362: authority words committed elsewhere are applied, each journaled with kind REMOTE. -/
def authApply (s : State) (ochip ocid : Byte) (l : List (Byte × Byte)) : State :=
  (authChanged s l).foldl (fun t e =>
    jPut (cfgSet t 0x80 e.1.toNat (e.2.setWidth 32)) kREMOTE ochip ocid (tidBank 0x80 e.1.toNat) (e.2.setWidth 32)) s

/-- Room in staging for n entries of a remote change. -/
def jRoomFor (s : State) (n : Nat) : Bool :=
  jRoom s && (if nvOn s then decide (s.jrn.staging.length + n ≤ 64) else decide (s.jrn.queue.length + n ≤ 16))

/-- R433: marks of client IDs that the received directory does not give to their port are unclaimed. -/
def marksCheck (s : State) : State :=
  (List.range 64).foldl (fun t n => portMod t n (fun p => { p with
    marks := p.marks.filter (fun e => dirNames (cfgGet s 0x81 e.1) s.chipnum n) })) s

/-- The whole directory and authority table from the master; an entry or word that is not listed has its reset value. -/
def execDirectoryCopy (dir : List (Byte × Word)) (auth : List (Byte × Byte)) (s : State) : Res :=
  let whole := (List.range 256).map (fun c => (BitVec.ofNat 8 c, ((auth.find? (fun e => e.1.toNat = c)).map (·.2)).getD 0x0C))
  if sysOn s = false ∨ isMaster s = true ∨ spliced s = false then .next s
  else if authChanged s whole ≠ [] ∧ jRoomFor s (authChanged s whole).length = false then .next s
  else
    let s1 := (List.range 256).foldl (fun t c =>
      dirPut t kHARDWARE c (((dir.find? (fun e => e.1.toNat = c)).map (·.2 &&& 0x73FFF)).getD 0)) s
    let s2 := authApply s1 0 0 whole
    .next (claimsSettle s2.sys.forwarded.length (marksCheck s2))

end Sys2Proof.Machine
end

