-- ==== Sys2Proof/Machine/Basting.lean ====
section
/-!
DEFINITION. Basting and STITCH (R125, R126, R209 to R211, R354 to R359): the basted set, the checks of a STITCH, its entries, and the
authority words that travel through the ring master.
-/
namespace Sys2Proof.Machine

/-! ## The set -/

/-- R125, R209, R350: the words that are basted: PISO, windows and watch entries of a port, the authority table. -/
def isBasted (b i : Nat) : Bool :=
  (decide (b < 64) && (decide (i = 4) || decide (0x10 ≤ i ∧ i < 0x50 ∧ i % 4 ≠ 3) || decide (0x50 ≤ i ∧ i < 0xD0 ∧ i % 8 < 6))) ||
  (decide (b = 0x80) && decide (i < 256))

def bastedAt (s : State) (b i : Nat) : Option Word := (s.sys.basted.find? (fun e => e.1 = cfgKey b i)).map (·.2)

/-- The word as the set would leave it. -/
def bastedOr (s : State) (b i : Nat) : Word := (bastedAt s b i).getD (cfgGet s b i)

/-- R356: the host bus, or one client ID. -/
def sameOwner : Origin → Origin → Bool
  | .host, .host => true
  | .fab _ _ c, .fab _ _ d => decide (c = d)
  | _, _ => false

def ownsSet (s : State) (o : Origin) : Bool := match s.sys.baster with | some b => sameOwner b o | none => true

/-- R356: the word enters the set, and its origin owns the set. -/
def basteIn (s : State) (o : Origin) (b i : Nat) (v : Word) : State :=
  sysMod s (fun y => { y with basted := tput y.basted (cfgKey b i) v, baster := some (y.baster.getD o) })

/-- R356: would this word be the 513th? -/
def setFull (s : State) (b i : Nat) : Bool := (bastedAt s b i).isNone && decide (512 ≤ s.sys.basted.length)

/-- R356, R357: the set is empty. -/
def basteEmpty (s : State) : State := sysMod s (fun y => { y with basted := [], baster := none })

/-! ## Checks (R77, R126, R211, R357, R359) -/

/-- The ports that the set names. -/
def setPorts (s : State) : List Nat := (List.range 64).filter (fun n => s.sys.basted.any (fun e => e.1 / 65536 = n))

def setWindow (s : State) (n w : Nat) : Window :=
  windowOf (bastedOr s n (0x10 + 4 * w)) (bastedOr s n (0x11 + 4 * w)) (bastedOr s n (0x12 + 4 * w))

/-- R77: the largest charge through a window. -/
def maxCharge (s : State) (n : Nat) (w : Window) : Nat := if isSync s n then 19 else if w.atomic then 6 else 4

def watchValid (s : State) (n e : Nat) : Bool := (bastedOr s n (0x51 + 8 * e)).getLsbD 0

def watchAligned (s : State) (n e : Nat) : Bool :=
  let r := bastedOr s n (0x50 + 8 * e)
  decide (fieldNat r 8 24 * 256 % 2 ^ fieldNat r 0 5 = 0)

/-- An enabled watcher of the entry names an odd node. -/
def watchOdd (s : State) (n e : Nat) : Bool :=
  (List.range 8).any (fun k => (bastedOr s n (0x51 + 8 * e)).getLsbD (8 + k) &&
    (bastedOr s n (0x52 + 8 * e + k / 2)).getLsbD (if k % 2 = 0 then 8 else 24))

/-- R357: the lowest right that the set's words need and the origin lacks. -/
def setRight (s : State) (o : Origin) : Option Nat :=
  if s.sys.basted.any (fun e => decide (e.1 / 65536 < 64)) && !holdsRight s o rMAP then some rMAP
  else if s.sys.basted.any (fun e => decide (e.1 / 65536 = 0x80)) && !holdsRight s o rAUTHORITY then some rAUTHORITY
  else none

/-- R359: the reason of a refused STITCH; with several, the lowest code. DEDUCED, assumption 33. -/
def stitchCheck (s : State) (o : Origin) : BitVec 4 :=
  let ps := setPorts s
  let wins := fun (n : Nat) => (List.range 16).map (setWindow s n)
  if ps.any (fun n => (wins n).any (fun w => w.valid && decide (w.base % w.size ≠ 0)) ||
      (List.range 16).any (fun e => watchValid s n e && !watchAligned s n e)) then 1
  else if ps.any (fun n => (wins n).any (fun w => w.valid && decide (w.cls = 3) &&
      decide ((bastedOr s n 4).toNat % 65536 < maxCharge s n w))) then 2
  else if ps.any (fun n => (List.range 16).any (fun e => watchValid s n e && watchOdd s n e)) then 3
  else if (setRight s o).isSome then 4
  else 0

/-! ## Running (R358) -/

/-- The authority words of the set. -/
def setAuth (s : State) : List (Byte × Byte) :=
  (s.sys.basted.filter (fun e => decide (e.1 / 65536 = 0x80))).map (fun e => (BitVec.ofNat 8 (e.1 % 65536), e.2.extractLsb' 0 8))

/-- R358 steps 4 and 5: the STITCH is answered and the set emptied. -/
def stitchFinish (s : State) (t : Stitch) : State :=
  let s1 := sysMod (basteEmpty s) (fun y => { y with stitch := none, result := 0 })
  match t.req with
  | some (p, k) => writeNext s1 p k .ok
  | none => hostEnd s1

/-- Is this chip's authority table a copy of a master's (R354)? -/
def underMaster (s : State) : Bool := spliced s && !isMaster s

/-- R358 step 3: the ports apply their words; authority words go to the master, or are applied here (R354). -/
def stitchApply (s : State) (t : Stitch) : State :=
  let s1 := (s.sys.basted.filter (fun e => decide (e.1 / 65536 < 64))).foldl (fun u e => cfgSet u (e.1 / 65536) (e.1 % 65536) e.2) s
  let auth := setAuth s
  if underMaster s && !auth.isEmpty then sysMod s1 (fun y => { y with stitch := some { t with left := [], auth := auth } })
  else stitchFinish (auth.foldl (fun u e => cfgSet u 0x80 e.1.toNat (e.2.setWidth 32)) s1) t

/-- R358 step 2: places the entries that are left while there are places, then applies. -/
def stitchPump : Nat → State → State
  | 0, s => s
  | n + 1, s =>
    match s.sys.stitch with
    | none => s
    | some t =>
      match t.left with
      | e :: rest =>
        if jPlace s then
          stitchPump n (jOrigin (sysMod s (fun y => { y with stitch := some { t with left := rest } })) t.who
            (tidBank (e.1 / 65536) (e.1 % 65536)) e.2)
        else s
      | [] =>
        if t.auth.isEmpty then stitchApply s t
        else if underMaster s then s
        else stitchFinish (t.auth.foldl (fun u e => cfgSet u 0x80 e.1.toNat (e.2.setWidth 32)) s) t

def stitchRun (s : State) : State := stitchPump 514 s

/-- R358: an accepted STITCH starts. -/
def stitchStart (s : State) (o : Origin) (req : Option (Pkt × Nat)) : State :=
  let left := s.sys.basted.filter (fun e => decide (e.2 ≠ cfgGet s (e.1 / 65536) (e.1 % 65536)))
  stitchRun (sysMod s (fun y => { y with stitch := some { who := o, req := req, left := left, auth := [] } }))

/-! ## Copies through the master (R354, R355, R362) -/

/-- Authority words from SYS of another chip. The words of this chip's own STITCH come back last and complete it; they were
journaled when it placed its entries. -/
def execAuthorityCopy (schip ochip ocid : Byte) (words : List (Byte × Byte)) (s : State) : Res :=
  if sysOn s = false ∨ spliced s = false then .next s
  else if ringSource s schip = false then .next (refuse s 0 whyAGENT)
  else
    let own := match s.sys.stitch with | some t => decide (ochip = s.chipnum) && !t.auth.isEmpty | none => false
    if own then
      let s1 := words.foldl (fun u e => cfgSet u 0x80 e.1.toNat (e.2.setWidth 32)) s
      match s1.sys.stitch with
      | some t => .next (stitchFinish s1 t)
      | none => .next s1
    else if authChanged s words ≠ [] ∧ jRoomFor s (authChanged s words).length = false then .next s
    else .next (authApply s ochip ocid words)

end Sys2Proof.Machine
end

