-- ==== Sys2Proof/Machine/Seam.lean ====
section
/-!
DEFINITION. The ring family (08): units, credits and control transfers as they arrive at a seam input, join slots, pauses, roll call,
splices, unsplices and aborts. A message that its receiver must forward goes to the output of the same ring (R174).
-/
namespace Sys2Proof.Machine

/-! ## Units and credits (R170, R171, R175, R176, R180 to R182) -/

/-- R171, R181: the unit that the gateway regenerates from a following unit. -/
def seamFollow (net : Net) (x : SeamIn) (u : BitVec 46) (good : Bool) : LinkUnit :=
  if x.first && decide (net ≠ .rsp) then
    let d : BitVec 48 := 2#2 ++ u
    { d := d, p := if good then parityOf d else !parityOf d }
  else
    let ut : BitVec 2 := if x.left = 1 then 3 else 0
    unitOf ((ut ++ u) ||| (if good then 0 else 0x200))

/-- After a unit has come into channel c of ring g: it goes on, or its place is free again at once. -/
def seamOn (s : State) (g : Ring) (c : Nat) : State :=
  let x := sinGet (gateGet s g) c
  if x.drop then gwCredit (gateMod s g (fun y => sinSet y c { x with latch := none })) g c
  else if x.toMesh then meshFromSeam s g c
  else
    let o := soutGet (gateGet s g) (outChannel s c)
    seamPump 32 (if o.credit then s else bump s .sys (yNOCREDIT g)) g

/-- R170, R171, R180 to R182: a unit of three transfers arrives at the input of a ring. -/
def execSeamUnit (ring : Ring) (t1 t2 t3 : BitVec 17) (s : State) : Res :=
  if canDrive s = false ∨ s.ring.resync = true ∨ t1.msb = false then .next s
  else
    let c := seamCh t1
    let x := sinGet (gateGet s ring) c
    let u := seamU t1 t2 t3
    let good := seamSpGood t1 t2 t3
    let s1 := bump s .sys (ySEAMIN ring)
    if x.latch.isSome then .next (ringFault s1 cCREDIT)
    else if x.left = 0 then
      if !good then .next (ringFault s1 cHEADSP)
      else
        let d : BitVec 48 := 1#2 ++ u
        let own := decide (hDchip d = s.chipnum)
        let gone := !inTable s (hDchip d)
        let y : SeamIn := { latch := some (unitOf d), left := (hLen d).toNat, first := true, toMesh := own, drop := gone, busy := false }
        let s2 := gateMod s1 ring (fun q => sinSet q c y)
        .next (seamOn (if gone then bump s2 .sys (yGWDISCARD ring) else s2) ring c)
    else
      let w := seamFollow (netOfChannel c) x u good
      let s2 := gateMod s1 ring (fun q => sinSet q c { x with latch := some w, left := x.left - 1, first := false })
      .next (seamOn (if good then s2 else bump s2 .sys (ySEAMPOISON ring)) ring c)

/-- R176: the channels that a CREDIT names. -/
def creditChannels (arg : Byte) : List Nat := (List.range 8).filter (fun c => arg.getLsbD c)

/-- R176, R199: a CREDIT on the input of a ring returns credits of the output of the other ring, which goes to the same neighbour. -/
def execCredit (ring : Ring) (arg : Byte) (s : State) : Res :=
  if canDrive s = false ∨ s.ring.resync = true then .next s
  else
    let g := otherRing ring
    if (creditChannels arg).any (fun c => (soutGet (gateGet s g) c).credit) then .next (ringFault s cCREDIT)
    else
      let s1 := (creditChannels arg).foldl (fun t c => gateMod t g (fun y => soutSet y c { soutGet y c with credit := true })) s
      .next (seamPump 32 s1 g)

/-- R172, R199: a control transfer that is not good. -/
def execCtlpar (ring : Ring) (d : Half) (s : State) : Res :=
  if canDrive s = false ∨ s.ring.resync = true ∨ ctlGood d = true then .next s
  else
    match ring with
    | .a | .b => .next (ringFault s cCTLPAR)

/-! ## Unsplicing (R196, R276, R434) -/

/-- What the unsplice was for. -/
def leaveDone (s : State) (why : LeaveWhy) : State :=
  let s1 := ringMod s (fun r => { r with leaveWhy := .none })
  match why with
  | .chipReset => startUp (wideReturn s1 true true true true) 5
  | _ => upkeep (stitchRun (evalDom s1 65))

/-- The bypass closes, and the chip is out of the ring. -/
def unsplice (s : State) : State :=
  let why := s.ring.leaveWhy
  leaveDone (closeBypass s) why

/-- R188: a chip withdraws or is ejected as a duplicate. -/
def ejectSelf (s : State) : State := unsplice (setRing s (fun r => { r with dupFlag := true }))

/-! ## Pulse and join slot (R184, R185, R190 to R192, R195) -/

/-- R192: may this chip ask to join? -/
def mayJoin (s : State) : Bool := s.ring.joinEn && domOn s 65 && !s.ring.dupFlag && s.ring.bypass

/-- R192: is attempt i made by chip c? -/
def attemptMade (c : Byte) (i : Nat) : Bool :=
  decide (i = 0) || (c.getLsbD ((i - 1) % 8) == decide ((i - 1) / 8 % 2 = 1))

/-- R192: a bypassed chip sees a PULSE on ring A: its next attempt, or one more pulse without a GRANT. -/
def joinPulse (s : State) : State :=
  let r := s.ring
  if mayJoin s = false ∨ isMaster s = true then s
  else if r.st ≠ .waiting then
    setRing (ringMod s (fun q => { q with asking := true, attempt := 0, pulses := 0 })) (fun q => { q with st := .waiting })
  else if r.pulses + 1 < 2 then ringMod s (fun q => { q with pulses := q.pulses + 1 })
  else ringMod s (fun q => { q with attempt := q.attempt + 1, pulses := 0, asking := attemptMade s.chipnum (q.attempt + 1) })

/-- R184: the ARG that this chip expects. -/
def pulseArg (s : State) (ring : Ring) : Nat :=
  let n := s.ring.chips.length
  let p := s.ring.pos.toNat
  if isMaster s then n - 1 else match ring with | .a => p - 1 | .b => n - 1 - p

/-- R184, R195, R199: a PULSE arrives. ARG is checked while the ring is not paused: in a pause the tables differ. -/
def execPulse (ring : Ring) (arg : Byte) (s : State) : Res :=
  if canDrive s = false then
    if isMaster s ∧ mayJoin s = true then .next (setRing s (fun r => { r with dupFlag := true }))
    else .next (if ring = .a then joinPulse s else s)
  else
    let bad := !s.ring.paused && decide (arg.toNat ≠ pulseArg s ring)
    let slot := fun (t : State) => if ring = .a then ringMod t (fun r => { r with slotOpen := r.slotEn || !isMaster s }) else t
    if isMaster s then
      if (gateGet s ring).pulseOut = false then .next (ringFault s cDUPMASTER)
      else
        let s1 := slot (gateMod s ring (fun y => { y with pulseOut := false }))
        .next (if bad then ringFault s1 cPULSEARG else s1)
    else
      let s1 := gwCtl (slot s) ring 2 0 (arg + 1)
      let s2 := if s1.ring.st = .orphan then setRing s1 (fun r => { r with st := .spliced }) else s1
      .next (if bad then ringFault s2 cPULSEARG else s2)

/-- R184. -/
def execPulseTimer (s : State) : Res :=
  if isMaster s ∧ canDrive s = true then
    let send := fun (t : State) (g : Ring) => gateMod (gwCtl t g 2 0 0) g (fun y => { y with pulseOut := true })
    .next (send (send s .a) .b)
  else .next s

/-- R193: the master serves one JOIN at a time, and none during a pause. -/
def masterJoin (s : State) (chip : Byte) : State :=
  if s.ring.op = .idle ∧ s.ring.paused = false then startPause s true chip else s

/-- R190, R191: the slot ends; D has sampled `sample`, and takes the request word from it. -/
def execJoinSlot (sample : Half) (s : State) : Res :=
  let w := ~~~ sample
  if canDrive s then
    if s.ring.slotOpen = false then .next s
    else
      let s1 := ringMod s (fun r => { r with slotOpen := false })
      if joinWordGood w = false then .next s1
      else if isMaster s then .next (masterJoin s1 (w.extractLsb' 0 8))
      else .next (gwRing s1 .a msgJOIN (w.extractLsb' 0 8))
  else .next (ringMod s (fun r => { r with asking := false }))

/-- R190 step 3: the request word that this chip pulls onto the link in this slot. -/
def joinDrive (s : State) : Option Half := if s.ring.asking ∧ mayJoin s = true then some (joinWord s.chipnum) else none

/-! ## Pause and quiet (R193, R194) -/

/-- R194: every seam latch is empty, no packet is in progress on a seam output, every credit is held. -/
def seamQuiet (s : State) : Bool :=
  [Ring.a, .b].all (fun g => (List.range 8).all (fun c =>
    let o := soutGet (gateGet s g) c
    decide ((sinGet (gateGet s g) c).latch = none) && o.credit && decide (o.arb.holder = none)))

/-- Does this chip take part in the ring, and in more than forwarding? -/
def inRing (s : State) : Bool := canDrive s && !s.ring.resync

/-- R174: a ring-A message goes on unchanged. -/
def passOn (s : State) (msg : BitVec 4) (arg : Byte) : State := gwRing s .a msg arg

/-- R193 steps 2 and 3: at the master the PAUSE has come round, and QUIET follows. -/
def execPause (s : State) : Res :=
  if isMaster s then
    match s.ring.op with
    | .pauseFor splice chip =>
      if canDrive s = false ∨ seamQuiet s = false then .next s
      else
        let s1 := ringMod s (fun r => { r with op := .quietFor splice chip })
        let send := fun (t : State) (g : Ring) => gateMod (gwRing t g msgQUIET 0) g (fun y => { y with quietSeen := 0 })
        .next (send (send s1 .a) .b)
    | _ => .next s
  else
    let s1 := passOn s msgPAUSE 0
    if inRing s then .next (bump (ringMod s1 (fun r => { r with paused := true, stopped := true, granted := false })) .sys yPAUSE)
    else .next s1

/-- R187 step 1: the master begins a roll call. -/
def rollCall (s : State) : State :=
  let s1 := ringMod s (fun r => { r with op := .rollCall, rolls := [], dupFound := false, paused := true, stopped := true })
  gwRing (gwRing (gwRing s1 .a msgROLLSTART 0) .a msgROLL 0) .a msgROLLEND 0

/-- R193 step 4, R196 step 3: the ring is drained, and the master grants or releases. After RELEASE the roll call follows on the same
ring, behind it; a master that releases itself leaves without one. -/
def masterDrained (s : State) (splice : Bool) (chip : Byte) : State :=
  if splice then gwRing (ringMod s (fun r => { r with op := .grantFor true chip })) .a msgGRANT chip
  else
    let s1 := gwRing s .a msgRELEASE chip
    if chip = s.chipnum then unsplice s1 else rollCall s1

/-- R193 step 3, R194: a QUIET marker is forwarded, or comes back to the master, once this chip is drained. -/
def execQuiet (ring : Ring) (s : State) : Res :=
  if canDrive s = false then .next s
  else if isMaster s then
    match s.ring.op with
    | .quietFor splice chip =>
      let k := (gateGet s ring).quietSeen
      if seamQuiet s = false ∨ 2 ≤ k then .next s
      else
        let s1 := gateMod s ring (fun y => { y with quietSeen := k + 1 })
        if k = 0 then .next (gwRing s1 ring msgQUIET 0)
        else if (gateGet s1 (otherRing ring)).quietSeen = 2 then .next (masterDrained s1 splice chip)
        else .next s1
    | _ => .next s
  else if s.ring.resync ∨ seamQuiet s = true then .next (gwRing s ring msgQUIET 0)
  else .next s

/-! ## Splice (R193, R195, R203) -/

/-- R193 step 5, R195: the pass devices open; the gateways start fresh (R177). The chip is spliced first and in the pause then, so
the entry of the new state has PAUSED 0: DEDUCED, assumption 28. -/
def openBypass (s : State) : State :=
  let s1 := setRing s (fun r => { r with bypass := false, st := .spliced, asking := false, stopped := true,
                                         rolls := [], tables := [], rollTurn := false, dupFound := false })
  let s2 := ringMod s1 (fun r => { r with paused := true })
  gateMod (gateMod s2 .a (fun _ => Gate.reset)) .b (fun _ => Gate.reset)

/-- The chip that GRANT names opens its bypass; at the master the GRANT has come round and roll call follows. -/
def execGrant (chip : Byte) (s : State) : Res :=
  if canDrive s then
    if isMaster s then
      match s.ring.op with
      | .grantFor _ _ => .next (rollCall s)
      | _ => .next s
    else .next (passOn s msgGRANT chip)
  else if chip = s.chipnum ∧ mayJoin s = true ∧ s.ring.st = .waiting then
    .next (ringMod (openBypass s) (fun r => { r with granted := true }))
  else .next s

/-- R193: the master receives JOIN; another chip forwards it. -/
def execJoin (chip : Byte) (s : State) : Res :=
  if canDrive s = false then .next s
  else if isMaster s then .next (masterJoin s chip)
  else .next (passOn s msgJOIN chip)

/-- R196 steps 1 and 2. -/
def execLeave (chip : Byte) (s : State) : Res :=
  if canDrive s = false then .next s
  else if isMaster s then .next (serveLeave s chip)
  else .next (passOn s msgLEAVE chip)

/-- R196 step 4. -/
def execRelease (chip : Byte) (s : State) : Res :=
  if canDrive s = false ∨ isMaster s = true then .next s
  else if chip ≠ s.chipnum then .next (passOn s msgRELEASE chip)
  else if s.ring.leaveWhy = .none ∨ s.ring.resync = true then .next s
  else .next (unsplice s)

/-- R196: RELEASE has not come within RINGTO. -/
def execRingtoExpiry (s : State) : Res :=
  if canDrive s ∧ s.ring.leaveWhy ≠ .none then .next (unsplice s) else .next s

/-- R195: chip 0 has waited 3 ms. -/
def execMasterSelfSplice (pulseSeen : Bool) (s : State) : Res :=
  if isMaster s ∧ mayJoin s = true then
    if pulseSeen then .next (setRing s (fun r => { r with dupFlag := true })) else .next (rollCall (openBypass s))
  else .next s

/-! ## Roll call (R187 to R189, R203) -/

/-- R187 step 4, R193 step 7: RESUME: the new table is in force and packets start again; a chip that was granted has spliced. -/
def resumeSelf (s : State) (l : List Byte) : State :=
  let s1 := tableSet s l true
  let s2 := setRing s1 (fun r => { r with paused := false, stopped := false, resync := false, rolls := [], tables := [], rollTurn := false,
                                          dupFound := false, op := .idle, st := if r.st = .orphan then .spliced else r.st })
  let s3 := gateMod (gateMod s2 .a (fun y => { y with abortSeen := 0 })) .b (fun y => { y with abortSeen := 0 })
  let s4 := if s.ring.granted then dirSplice (ringMod s3 (fun r => { r with granted := false })) else s3
  upkeep (seamPumps (if s.ring.reform then clearCtl s4 false true else s4))

/-- A LEAVE that came during the pause is served. -/
def leavesServe (s : State) : State :=
  match s.ring.leaves with
  | [] => s
  | c :: rest => startPause (ringMod s (fun r => { r with leaves := rest })) false c

/-- ROLLSTART at the master is its own come round, or another master's (R199). -/
def execRollstart (s : State) : Res :=
  if canDrive s = false then .next s
  else if isMaster s then .next (if s.ring.op = .rollCall then s else ringFault s cDUPMASTER)
  else
    let s1 := passOn s msgROLLSTART 0
    if inRing s then .next (ringMod s1 (fun r => { r with rollTurn := false, dupFound := false, tables := [] })) else .next s1

/-- R187 step 2, R188. -/
def execRoll (chip : Byte) (s : State) : Res :=
  if canDrive s = false then .next s
  else if isMaster s then
    .next (if s.ring.op = .rollCall then ringMod s (fun r => { r with rolls := r.rolls ++ [chip] }) else s)
  else if inRing s && decide (chip = s.chipnum) && !s.ring.rollTurn then
    if s.ring.granted then .next (ejectSelf s)
    else .next (passOn (ringMod s (fun r => { r with dupFound := true })) msgROLL chip)
  else .next (passOn s msgROLL chip)

/-- R187 step 3: the master sends the table and RESUME, and takes it itself. -/
def rollDone (s : State) : State :=
  let l := s.ring.rolls
  let s1 := l.foldl (fun t c => gwRing t .a msgTABLE c) s
  leavesServe (resumeSelf (gwRing s1 .a msgRESUME 0) l)

/-- R187 steps 2 and 3, R188. -/
def execRollend (s : State) : Res :=
  if canDrive s = false then .next s
  else if isMaster s then
    .next (if s.ring.op ≠ .rollCall then s else if s.ring.dupFound then rollCall s else rollDone s)
  else if inRing s = false then .next (passOn s msgROLLEND 0)
  else
    let s1 := if s.ring.dupFound then gwRing s .a msgDUP s.chipnum else s
    let s2 := gwRing (gwRing s1 .a msgROLL s.chipnum) .a msgROLLEND 0
    .next (ringMod s2 (fun r => { r with rollTurn := true, tables := [] }))

def execTable (chip : Byte) (s : State) : Res :=
  if canDrive s = false ∨ isMaster s = true then .next s
  else
    let s1 := passOn s msgTABLE chip
    .next (if inRing s then ringMod s1 (fun r => { r with tables := r.tables ++ [chip] }) else s1)

/-- R187 step 4. -/
def execResume (s : State) : Res :=
  if canDrive s = false ∨ isMaster s = true then .next s
  else
    let s1 := passOn s msgRESUME 0
    .next (if inRing s then resumeSelf s1 s.ring.tables else s1)

/-- R188: the master ejects the number and repeats roll call when this one has come round. -/
def execDup (chip : Byte) (s : State) : Res :=
  if canDrive s = false then .next s
  else if isMaster s then
    .next (if s.ring.op = .rollCall then ringMod (gwRing s .a msgEJECT chip) (fun r => { r with dupFound := true }) else s)
  else .next (passOn s msgDUP chip)

/-- R188. -/
def execEject (chip : Byte) (s : State) : Res :=
  if canDrive s = false ∨ isMaster s = true then .next s
  else if inRing s && decide (chip = s.chipnum) && s.ring.granted then .next (ejectSelf s)
  else .next (passOn s msgEJECT chip)

/-! ## Faults and re-forming (R199 to R201) -/

/-- R201: the master acts as on a fault of its own, if it has not already, and aborts. -/
def masterAbort (s : State) : State := reform (if s.ring.op = .reform then s else ringStop s cABORTED false)

/-- R201: FAULT reaches the master; another chip forwards it, and the chip it names takes it off the ring. -/
def execRingFaultMsg (chip : Byte) (s : State) : Res :=
  if canDrive s = false then .next s
  else if isMaster s then .next (if s.ring.op = .reform then s else masterAbort s)
  else if chip = s.chipnum then .next s
  else .next (passOn s msgFAULT chip)

/-- R201: all four ABORTs have come back on both rings: roll call. -/
def abortReturned (s : State) (ring : Ring) : State :=
  let s1 := gateMod s ring (fun y => { y with abortSeen := y.abortSeen + 1 })
  if 4 ≤ s1.ring.gateA.abortSeen ∧ 4 ≤ s1.ring.gateB.abortSeen then rollCall s1 else s1

/-- R201: the first valid ABORT since the last roll call does the work; every one is forwarded. -/
def execAbort (ring : Ring) (s : State) : Res :=
  if canDrive s = false then .next s
  else if isMaster s then .next (if s.ring.op = .reform then abortReturned s ring else s)
  else
    let first := decide (s.ring.gateA.abortSeen = 0) && decide (s.ring.gateB.abortSeen = 0)
    let s1 := gwRing s ring msgABORT 0
    let s2 := if first then abortClear (if s.ring.resync then s1 else ringStop s1 cABORTED false) else s1
    .next (gateMod s2 ring (fun y => { y with abortSeen := y.abortSeen + 1 }))

def execAbortRepeat (s : State) : Res :=
  if isMaster s ∧ s.ring.op = .reform ∧ canDrive s = true then .next (sendAborts s) else .next s

/-- R199, R200 step 5: no PULSE within 1.5 ms, or a pulse that did not return to the master. -/
def execNopulse (s : State) : Res :=
  if canDrive s = false then .next s
  else if isMaster s then
    if s.ring.gateA.pulseOut || s.ring.gateB.pulseOut then
      let clear := fun (t : State) (g : Ring) => gateMod t g (fun y => { y with pulseOut := false })
      .next (ringFault (clear (clear s .a) .b) cNOPULSE)
    else .next s
  else if s.ring.resync then .next (setRing s (fun r => { r with st := .orphan }))
  else .next (ringFault s cNOPULSE)

end Sys2Proof.Machine
end

