-- ==== Sys2Proof/Machine/Resets.lean ====
section
/-!
DEFINITION. The resets that RESETCMD starts (R430 to R437): PORT, SYS, CHIP and RING.
-/
namespace Sys2Proof.Machine

/-! ## PORT (R430, R431, R240, R248, R261) -/

/-- R240: the write of a port-reset notice to SYS of another chip. -/
def portrstAddr : BitVec 30 := 0x46

def noticeSend (s : State) (chip : Byte) (port : Nat) : State :=
  agentAsk s chip nodeSys (.write 1) portrstAddr [goodUnit (BitVec.ofNat 32 port) 0xF] (.notice chip port)

/-- R240: the notices of a reset of port n, to every other chip in the table. -/
def noticesSend (s : State) (n : Nat) : State :=
  let l := s.ring.chips.filter (fun c => c ≠ s.chipnum)
  l.foldl (fun t c => noticeSend (sysMod t (fun y => { y with notices := y.notices ++ [(c, n)] })) c n) s

/-- R240, R261: what SYS and BOB do on hearing of a reset of a port of some chip: votes of its clients, locks held from it. -/
def portGone (s : State) (chip : Byte) (n : Nat) : State :=
  let clients := clientsOf s chip n
  locksFree (votesDrop s (fun v => clients.contains v)) (fun k => decide (k.schip = chip) && decide (k.snode = portNode n))

/-- R248: the bobbins that port n owns are flushed and their doorbells cleared; each flush is journaled with kind RESET. -/
def bobsGone (s : State) (n : Nat) : State :=
  (List.range 64).foldl (fun t b =>
    if bOwner (bcfg t b) = n then
      let t1 := bobMod (bobFlush t b) b (fun x => { x with bell := 0 })
      if (bcfg t b) = 0 ∧ bobGet t b = Bobbin.reset then t
      else jHw t1 kRESET (tidBobbin 0 b) ((bobGet t1 b).epoch.setWidth 32) false
    else t) s

/-- R357: a set that a client of port n owns is emptied; a STITCH of it that still places entries goes with it. -/
def basteGone (s : State) (clients : List Nat) : State :=
  match s.sys.baster with
  | some (.fab _ _ c) => if clients.contains c.toNat then sysMod (basteEmpty s) (fun y => { y with stitch := none }) else s
  | _ => s

/-- R436: port n's words, working state, domain, fault record and counters are back at their reset values. R431, R341: the quiet
time runs from here, or for a dead port from its declaration. -/
def portReturn (s : State) (n : Nat) : State :=
  let p := portGet s n
  let s1 := cfgDrop s (fun b _ => decide (b = n))
  let s2 := portSet s1 n { PortSt.reset with quiet := p.quiet || !p.dead }
  let s3 := faultSet (domSet s2 n (Dom.resetOf n)) n FaultRec.reset
  zeroCounters s3 (.port n)

/-- R430 steps 3 to 6, once the domain's own sequence is over (step 2). -/
def portRstGo (s : State) : State :=
  match s.sys.portRst with
  | none => s
  | some n =>
    if (domGet s n).st = .waking ∨ (domGet s n).st = .hemming then s
    else
      let clients := clientsOf s s.chipnum n
      let s1 := portUnpower (finishPort s n .isolated) n
      let s2 := if (domGet s1 n).st = .off then s1 else domChange s1 n (fun x => { x with st := .off, rung := 0 })
      let s3 := basteGone (bobsGone (portGone s2 s.chipnum n) n) clients
      let s4 := portReturn (noticesSend (dirFreePort s3 n) n) n
      upkeep (sysMod (anchor s4 aRESET) (fun y => { y with busy := false, portRst := none }))

/-! ## SYS (R432) -/

/-- What is left to drive of a packet whose head has left; a packet not begun is gone. -/
def restOnly (out : List LinkUnit) : List LinkUnit := out.takeWhile (fun u => utOf u.d ≠ 1)

/-- R409, R432 step 1: requests at SYS, BOB and COL are dropped, and responses that have not left. -/
def agentsDrop (s : State) : State :=
  [nodeSys, nodeBob, nodeCol].foldl (fun t node => [Net.req, .dat, .rsp, .snp].foldl (fun u net =>
    nodeMod u node net (fun q => { q with out := restOnly q.out, part := [], rx := [] })) t) s

/-- R432 steps 1 and 2; the ladder waits for the end of a hush (R438). -/
def sysReset (s : State) : State :=
  let s1 := agentTagsDone (sysMod s (fun y => { y with queued := [], bellDue := false })) (fun _ => true) .isolated
  let s2 := agentsDrop (sysMod s1 (fun y => { y with claims := [], forwarded := [], fences := [], stalls := [], voteWait := [],
                                                     held := hostHeld s1, stitch := none }))
  let s3 := hostMod s2 (fun h => { h with waitLow := !(hostHeld s1).isEmpty })
  domMod s3 66 (fun x => { x with st := if s.power.hush then .off else .waking, rung := 0, retried := false, rest := false })

/-! ## CHIP and RING (R434, R435) -/

/-- R434: a spliced chip first unsplices. -/
def chipReset (s : State) : State :=
  if canDrive s then
    if s.ring.leaveWhy = .none then askLeave s .chipReset else ringMod s (fun r => { r with leaveWhy := .chipReset })
  else startUp (wideReturn s true true true true) 5

/-- R435: the CHIP reset of a ring reset, which skips the unsplice. -/
def ringChipReset (s : State) : State := startUp (wideReturn s true true true true) 6

/-- R435: a RING command on this chip. The notices themselves have no packet form in the spec: assumption 12. -/
def ringReset (s : State) : State :=
  if !spliced s then ringChipReset s
  else if isMaster s then sysMod s (fun y => { y with ringWait := true })
  else sysMod s (fun y => { y with ringAsk := true })

/-- R427: the scope and port that an origin's RESETSCOPE holds. -/
def scopeKey : Origin → Nat
  | .host => 256
  | .fab _ _ c => c.toNat

def scopeOf (s : State) (o : Origin) : Byte := tget (fun _ => 0) s.sys.scopes (scopeKey o)

/-- R437: must a RESETCMD of this origin wait for the reset in progress? -/
def resetWaits (s : State) (o : Origin) : Bool := s.sys.busy && decide ((scopeOf s o).toNat % 4 < 2)

/-- R430, R432, R434, R435: the reset begins. In a chip fault only CHIP and RING run (R297). -/
def resetStart (s : State) (o : Origin) : State :=
  let c := scopeOf s o
  let s1 := sysMod s (fun y => { y with busy := true })
  match c.toNat % 4 with
  | 0 => if s.power.mode = .chipFault then s else portRstGo (sysMod s1 (fun y => { y with portRst := some (c.toNat / 4) }))
  | 1 => if s.power.mode = .chipFault then s else sysReset s1
  | 2 => chipReset s1
  | _ => ringReset s1

/-! ## Rows -/

/-- R435: a ring-reset notice from SYS of the master, or, at the master, from SYS of a chip in its table. -/
def execRingResetNotice (schip : Byte) (s : State) : Res :=
  if sysOn s = false then .next s
  else if ringSource s schip && (isMaster s || decide (schip = 0)) then
    .next (sysMod s (fun y => { y with busy := true, ringWait := true, ringAsk := false }))
  else .next (refuse s 0 whyAGENT)

def execRingResetDelay (s : State) : Res := if s.sys.ringWait then .next (ringChipReset s) else .next s

def execRingResetNoAnswer (s : State) : Res := if s.sys.ringAsk then .next (ringChipReset s) else .next s

/-- R240: notices not answered OK, and whose write is no longer outstanding, are sent again. -/
def execRingManagementResend (s : State) : Res :=
  if sysOn s = false then .next s
  else
    let out := fun (m : Byte × Nat) =>
      s.sys.agents.tags.any (fun e => decide (e.2.st = .held) && decide (e.2.use = .notice m.1 m.2)) ||
      s.sys.queued.any (fun r => decide (r.use = .notice m.1 m.2))
    .next ((s.sys.notices.filter (fun m => !out m)).foldl (fun t m => noticeSend t m.1 m.2) s)

end Sys2Proof.Machine
end

