-- ==== Sys2Proof/Machine/Words.lean ====
section
/-!
DEFINITION. The registers and bank words as SYS names them (17): which words exist, what each reads as, its fields, its reserved codes
and its target ID. Host registers and the flat view reach the same words (R401, R420).
-/
namespace Sys2Proof.Machine

/-- A word of the state that SYS holds or reaches. -/
inductive Wd where
  | bank (b i : Nat)
  | reg (i : Nat)
  | domcmd (d : Nat)
  | domstat (d : Nat)
  | vote (d : Nat)
  | iso (n : Nat)
  | flt (src : Nat)
  | timeLo
  | timeHi
  | rtcSecs
  | rtcFr
  | alarmSecs
  | wakeReq
  | portRst
  | jrn (i j : Nat)
  deriving DecidableEq, Repr

/-! ## The map (R401, R415, R420) -/

/-- R401: the registers that have no word in the flat view. -/
def hostOnly (i : Nat) : Bool := [4, 5, 8, 9, 10, 11, 12, 13, 14, 15, 16, 17, 18, 20, 21, 22, 23, 24, 30, 31, 35, 36, 37, 43, 44, 45, 46, 47].contains i

/-- R415: is this index of a bank a word, not reserved? -/
def bankHas (b i : Nat) : Bool :=
  if b < 0x40 then
    decide (i ≤ 8) || decide (0x10 ≤ i ∧ i < 0x50 ∧ i % 4 ≠ 3) || decide (0x50 ≤ i ∧ i < 0xD0 ∧ i % 8 < 6) || decide (0xD0 ≤ i ∧ i ≤ 0xE4)
  else if b < 0x80 then decide (i < 16)
  else match b with
    | 0x80 => decide (i ≤ 0x100)
    | 0x81 => decide (i < 0x100)
    | 0x82 => decide (i < 4) || decide (i = 0x10) || decide (i = 0x11)
    | 0x83 => decide (i ≤ 4) || decide (0x10 ≤ i ∧ i < 0x50 ∧ i % 8 < 5) || decide (0x50 ≤ i ∧ i ≤ 0x58)
    | 0x84 => decide (i < 0x400 ∧ i % 16 < 9) || decide (0x400 ≤ i ∧ i ≤ 0x408)
    | 0x85 => decide (i ≤ 0x102)
    | 0x86 => decide (i < 0x410) || decide (0x420 ≤ i ∧ i ≤ 0x442) || decide (0x500 ≤ i ∧ i < 0x520)
    | 0x87 => decide (i < 64)
    | 0x88 => decide (i < 2) || decide (i = 0x10) || decide (i = 0x11)
    | _ => false

/-- R420: the word at fabric byte address F of SYS. -/
def flatWord (F : Nat) : Option Wd :=
  let w := F / 4
  if F < 0xC0 then (if hostOnly w then none else some (.reg w))
  else if F < 0x200 then
    match w with
    | 0x40 => some .timeLo | 0x41 => some .timeHi | 0x42 => some .rtcSecs | 0x43 => some .rtcFr | 0x44 => some .alarmSecs
    | 0x45 => some .wakeReq | 0x46 => some .portRst | _ => none
  else if F < 0x400 then (if w - 0x80 < 68 then some (.domcmd (w - 0x80)) else none)
  else if F < 0x600 then (if w - 0x100 < 68 then some (.domstat (w - 0x100)) else none)
  else if F < 0x800 then (if w - 0x180 < 64 then some (.vote (w - 0x180)) else none)
  else if F < 0xA00 then (if w - 0x200 < 64 then some (.iso (w - 0x200)) else none)
  else if F < 0x10_0000 then (if w - 0x280 < 69 then some (.flt (w - 0x280)) else none)
  else if F < 0x10_0000 + 0x4000 * 0x89 then
    let b := (F - 0x10_0000) / 0x4000
    let i := (F - 0x10_0000) / 4 % 0x1000
    if bankHas b i then some (.bank b i) else none
  else if 0x100_0000 ≤ F ∧ F < 0x200_0000 then some (.jrn ((F - 0x100_0000) / 16) (w % 4))
  else none

/-! ## Values -/

def bit (b : Bool) : BitVec 1 := BitVec.ofBool b

/-- R345: the condition of a source still holds. -/
def faultActive (s : State) (src : Nat) : Bool :=
  if src < 64 then (portGet s src).dead || decide ((domGet s src).st = .fault)
  else if src < 68 then decide ((domGet s src).st = .fault)
  else s.power.limp || decide (s.power.mode = .chipFault) || s.time.rtcHalt

/-- FAULT (R345). -/
def faultWord (s : State) (src : Nat) : Half :=
  let r := faultGet s src
  r.count ++ 0#1 ++ bit r.isNew ++ bit (faultActive s src) ++ r.code

/-- STATUS (R405). CUR reads 6 in LIMP; JFULL: no place for a host or fabric entry. -/
def statusWord (s : State) : Half :=
  0#5 ++ bit ((List.range 69).any (faultActive s)) ++ bit ((List.range 64).any (fun n => (portGet s n).dead)) ++ bit s.cnt.busy ++
    bit (!jPlace s) ++ bit (!s.sys.basted.isEmpty) ++ bit (spliced s) ++ bit (decide (s.power.mode = .chipFault)) ++ bit s.power.hush ++
    s.power.cur

/-- RESETCMD as read (R409). -/
def resetcmdWord (s : State) : Half := 0#11 ++ bit s.sys.busy ++ s.sys.last

/-- TACKSTAT (R319). -/
def tackstatWord (s : State) : Half :=
  let t := s.time
  t.patrols ++ bit t.rtcstop ++ bit t.jqfull ++ bit t.mabandon ++ bit t.merr ++ bit t.mmatch ++ t.mstep

/-- JRNWEAR (R372). -/
def jrnwearWord (s : State) : Half := wearLevel s.jrn.passes ++ BitVec.ofNat 14 (min 16383 (s.jrn.passes.toNat / 1024))

/-- CNTSTAT (R385). -/
def cntstatWord (s : State) : Half :=
  let c := s.cnt
  0#4 ++ c.seq ++ 0#3 ++ bit c.miss ++ bit (!c.ovf.isEmpty) ++ bit c.done ++ bit c.busy ++ bit c.frozen

/-- REFUSE (R353). -/
def refuseWord (s : State) : Word := bit s.sys.refuseSeen ++ 0#3 ++ s.sys.refuseWhy ++ s.sys.refuseCid ++ s.sys.refuseN

/-- Bank 0x88 index 1 (R417). -/
def bastingWord (s : State) : Word :=
  let own : Byte := match s.sys.baster with | some (.fab _ _ c) => c | _ => 0
  0#2 ++ BitVec.ofNat 10 s.sys.basted.length ++ s.sys.result ++ own ++ 0#6 ++ bit (decide (s.sys.baster = some .host)) ++
    bit (!s.sys.basted.isEmpty)

/-- ISOn (R340, R420): DEAD bit 1, CAUSE [6:2]. -/
def isoWord (s : State) (n : Nat) : Word :=
  let p := portGet s n
  0#25 ++ (if p.dead then p.cause else 0) ++ bit p.dead ++ 0#1

/-- The 32 bits of a table of flags from index `lo` on. -/
def bits32 (f : Nat → Bool) (lo : Nat) : Word :=
  (List.range 32).foldl (fun (w : Word) i => if f (lo + i) then w ||| ((1 : Word) <<< (i : Nat)) else w) 0

/-- The journal word j of entry i, j = 0 holding bits [127:96] (R371). -/
def jrnWord (s : State) (i j : Nat) : Word := (arrGet s i).extractLsb' (96 - 32 * j) 32

/-- The counter that a CSEL or CVAL index belongs to: block, number, and whether it is CVAL (R374). -/
def counterAt (b i : Nat) : Option (Blk × Nat × Bool) :=
  if b < 0x40 then (if 0xD0 ≤ i ∧ i < 0xE0 then some (.port b, i % 8, decide (0xD8 ≤ i)) else none)
  else if b < 0x80 then (if i < 16 then some (.router (b - 0x40), i % 8, decide (8 ≤ i)) else none)
  else if b = 0x86 ∧ 0x500 ≤ i ∧ i < 0x520 then some (.sys, i % 16, decide (0x510 ≤ i))
  else none

def counterWord (s : State) (blk : Blk) (k : Nat) (val : Bool) : Word :=
  if val then cval s (gNum blk k) else cselGet s blk k ||| (if covf s (gNum blk k) then 0x80000000 else 0)

/-- R320: a word of bank 0x83 as last written; writes made in a patrol are held until it ends. -/
def tackWord (s : State) (i : Nat) : Word := ((s.time.tackHeld.reverse.find? (fun e => e.1 = i)).map (·.2)).getD (cfgGet s 0x83 i)

/-- Words of a port bank that are not kept in the configuration (R114, R221, R342, R394). -/
def portWord (s : State) (n i : Nat) : Word :=
  let p := portGet s n
  match i with
  | 0x03 => p.perr
  | 0x05 => p.drops ++ 0#13 ++ bit p.nomap ++ bit p.rdrop ++ bit p.sdrop
  | 0x06 => p.wmark
  | 0x08 => p.swallow ++ 0#10 ++ (if p.dead then p.cause else 0) ++ bit p.dead
  | 0xE0 => p.lastRd
  | 0xE1 => p.lastWr
  | 0xE2 => p.peakRd
  | 0xE3 => p.peakWr
  | 0xE4 => 0#30 ++ bit p.pvalid ++ bit p.lvalid
  | _ => cfgGet s n i

/-- A word of bank 0x84 below 0x400 (R268). -/
def voteBankWord (s : State) (i : Nat) : Word :=
  let d := i / 16
  let v := (domGet s d).votes
  if i % 16 < 8 then bits32 (fun c => v.contains c) (32 * (i % 16))
  else holdLeft s d ++ BitVec.ofNat 9 v.length ++ 0#15 ++ bit (v.contains 256)

/-- A bank word as read. Bank 0x82 indexes 0 to 3 read the journal for the host, and 0 from the fabric (R420). -/
def bankWord (s : State) (o : Origin) (b i : Nat) : Word :=
  match counterAt b i with
  | some (blk, k, val) => counterWord s blk k val
  | none =>
    if b < 0x40 then portWord s b i
    else match b with
      | 0x80 => if i = 0x100 then refuseWord s else cfgGet s b i
      | 0x82 =>
        if i < 4 then (match o with | .host => jrnWord s s.host.jptr.toNat i | _ => 0)
        else if i = 0x10 then s.jrn.passes else s.jrn.vfail
      | 0x83 =>
        if i = 3 then bit s.time.armed ++ 0#21 ++ (tackWord s 3).extractLsb' 0 10
        else if i = 4 then s.host.rtcFrac.setWidth 32
        else if i = 0x58 then s.time.lvalid.setWidth 32
        else if 0x50 ≤ i then tget (fun _ => 0) s.time.lastv (i - 0x50)
        else tackWord s i
      | 0x84 => if i < 0x400 then voteBankWord s i else cfgGet s b i
      | 0x85 =>
        if i < 0x100 then (match s.ring.chips[i]? with | some c => 0#23 ++ 1#1 ++ c | none => 0)
        else if i = 0x100 then nchipWord s
        else if i = 0x101 then s.ring.count ++ 0#12 ++ s.ring.cause
        else cfgGet s b i
      | 0x86 =>
        if i < 0x410 then tget (fun _ => 0) s.cnt.shadow i
        else if i ≤ 0x440 then bits32 (fun g => tget (fun _ => false) s.cnt.sovf g) (32 * (i - 0x420))
        else bits32 (fun n => s.cnt.missP.contains n) (32 * (i - 0x441))
      | 0x88 =>
        if i = 1 then bastingWord s
        else if i = 0x11 then 0#27 ++ bit s.sys.fenceVal ++ s.sys.fenceStat
        else 0
      | _ => cfgGet s b i

/-- A register of the flat view, or the same register on the host bus, as read (R401); WO registers read 0 (R7). -/
def regWord (s : State) (o : Origin) (i : Nat) : Half :=
  match i with
  | 0x00 => 0xD640
  | 0x01 => 0x0422
  | 0x02 => 0#7 ++ bit (isMaster s) ++ s.chipnum
  | 0x03 => statusWord s
  | 0x04 => 0#7 ++ s.sys.event
  | 0x05 => 0#7 ++ s.sys.eventEn
  | 0x06 => resetcmdWord s
  | 0x07 => 0#8 ++ scopeOf s o
  | 0x13 => pstateWord s
  | 0x19 => reglinkWord s
  | 0x1A => 0#8 ++ s.power.trim
  | 0x1B => brownWord s
  | 0x1C => 0#13 ++ s.time.lastStep
  | 0x1D => tackstatWord s
  | 0x20 => s.jrn.head.extractLsb' 0 16
  | 0x21 => jrnhead1 s
  | 0x22 => jrnwearWord s
  | 0x27 => cntstatWord s
  | 0x28 => s.time.bwwin
  | 0x29 => ringstatWord s
  | 0x2A => ringctlWord s
  | _ => 0

/-- R256, R267: HELD as the origin reads it. -/
def holdsVote (s : State) (o : Origin) (d : Nat) : Bool :=
  match o with
  | .host => (domGet s d).votes.contains s.host.votesel.toNat
  | .fab _ _ c => (domGet s d).votes.contains c.toNat

/-- Any word as read. -/
def wordRead (s : State) (o : Origin) : Wd → Word
  | .bank b i => bankWord s o b i
  | .reg i => (regWord s o i).setWidth 32
  | .domcmd d => (domcmdWord s d).setWidth 32
  | .domstat d => (domstatWord s d).setWidth 32
  | .vote d => 0#31 ++ bit (holdsVote s o d)
  | .iso n => isoWord s n
  | .flt src => (faultWord s src).setWidth 32
  | .timeLo => s.time.ts.extractLsb' 0 32
  | .timeHi => (s.time.ts.extractLsb' 32 16).setWidth 32
  | .rtcSecs => s.time.rtcSec
  | .rtcFr => s.time.rtcFr.setWidth 32
  | .alarmSecs => s.time.alSec
  | .wakeReq => 0
  | .portRst => 0
  | .jrn i j => jrnWord s i j

/-- Read-clear fields are cleared by the read (R7): TACKSTAT, CNTSTAT.DONE, WMARK. -/
def readClear (s : State) : Wd → State
  | .reg i =>
    if i = 0x1D then timeMod s (fun t => { t with mstep := 0, mmatch := false, merr := false, mabandon := false, jqfull := false,
                                                  rtcstop := false, patrols := 0 })
    else if i = 0x27 then cntMod s (fun c => { c with done := false })
    else s
  | .bank b i => if b < 0x40 ∧ i = 6 then portMod s b (fun p => { p with wmark := p.wmark &&& 0x3FFFFFFF }) else s
  | _ => s

/-- R414: a word of a port or router bank that is not kept in the retention store, whose block's domain is not ON. -/
def wordAsleep (s : State) : Wd → Bool
  | .bank b i =>
    if b < 0x40 then
      !domOn s b && (decide (i = 3) || decide (i = 5) || decide (i = 6) || decide (i = 8) || decide (0xD8 ≤ i))
    else decide (b < 0x80) && !domOn s 64
  | _ => false

/-- R371: fabric reads of the journal need the AUTHORITY right. -/
def readNeeds : Wd → Bool
  | .jrn _ _ => true
  | .bank b _ => decide (b = 0x82)
  | _ => false

/-! ## Fields (the field tables of 05 to 17) -/

/-- R7: how a field takes a write; RO fields and bits are not listed. -/
inductive Acc where
  | rw | wo | w1
  deriving DecidableEq, Repr

/-- One field, or several of one kind: its bits, its access (W1C and W1S alike), the right it needs, whether it is journaled. -/
structure Fld where
  mask  : Word
  acc   : Acc
  right : Option Nat
  jrn   : Bool
  deriving DecidableEq, Repr

/-- A RW field marked Yes. -/
def fRW (mask : Word) (right : Nat) : Fld := { mask := mask, acc := .rw, right := some right, jrn := true }

def fld (mask : Word) (acc : Acc) (right : Option Nat) (jrn : Bool) : Fld := { mask := mask, acc := acc, right := right, jrn := jrn }

def portFields (i : Nat) : List Fld :=
  match i with
  | 0 => [fRW 0x1FFFFFFF rMAP]
  | 1 => [fRW 0x07FFFFFF rMAP]
  | 2 => [fRW 0x00FFFFFF rMAP]
  | 3 => [fld 0x10 .w1 (some rMAP) false]
  | 4 => [fRW 0xFFFF rMAP]
  | 5 => [fld 7 .w1 (some rMAP) false]
  | 7 => [fRW 0xFFFF rMAP]
  | 0xE4 => [fld 4 .wo (some rCOUNT) false]
  | _ =>
    if 0x10 ≤ i ∧ i < 0x50 then
      (match i % 4 with | 0 => [fRW 0x00FFFF1F rMAP] | 1 => [fRW 0xFFFFFF00 rMAP] | 2 => [fRW 0x80FF7FFF rMAP] | _ => [])
    else if 0x50 ≤ i ∧ i < 0xD0 then
      (match i % 8 with | 0 => [fRW 0xFFFFFF1F rMAP] | 1 => [fRW 0xFF07 rMAP] | 6 => [] | 7 => [] | _ => [fRW 0x7FFF7FFF rMAP])
    else []

def counterFields (val : Bool) : List Fld :=
  if val then [fld 0xFFFFFFFF .rw (some rCOUNT) false] else [fRW 0x1FF rCOUNT, fld 0x80000000 .w1 (some rCOUNT) false]

def bankFields (b i : Nat) : List Fld :=
  match counterAt b i with
  | some (_, _, val) => counterFields val
  | none =>
    if b < 0x40 then portFields i
    else match b with
      | 0x80 => if i = 0x100 then [fld 0x80000000 .w1 (some rAUTHORITY) false] else [fRW 0xFF rAUTHORITY]
      | 0x81 => [fld 0x23FFF .rw none true]
      | 0x83 =>
        (match i with
        | 0 => [fRW 0xFFFF rPOWER]
        | 1 => [fRW 0xFFFFFFFF rPOWER]
        | 2 => [fRW 0xFFFFFFFF rPOWER]
        | 3 => [fld 0x3FF .rw (some rPOWER) false, fld 0x80000000 .w1 (some rPOWER) true]
        | _ =>
          if i < 0x10 ∨ 0x50 ≤ i then []
          else (match i % 8 with
            | 0 => [fRW 0xFFFFFFFC rPOWER] | 1 => [fRW 0x00077FFF rPOWER] | 4 => [fRW 0x007FFFFF rPOWER]
            | _ => [fRW 0xFFFFFFFF rPOWER]))
      | 0x84 =>
        (match i with
        | 0x400 => [fRW 0xFFFF rPOWER] | 0x401 => [fRW 0xFFFF rPOWER] | 0x402 => [fRW 0x3FF rAUTHORITY]
        | 0x403 => [fRW 0x1FFFFF rISOLATE] | 0x404 => [fRW 0xFFFF rMAP] | 0x405 => [fRW 0xFFFF rMAP] | 0x406 => [fRW 0xFFFF rMAP]
        | 0x407 => [fRW 0xFFFF rMAP] | 0x408 => [fRW 0xFFFF rPOWER] | _ => [])
      | 0x85 => if i = 0x102 then [fRW 0xFFFF rRESET] else []
      | 0x87 => [fRW 0xFFFF01FF rMAP]
      | 0x88 => if i = 0 then [fld 3 .wo none false] else if i = 0x10 then [fld 0xFF7F .wo none false] else []
      | _ => []

def regFields (i : Nat) : List Fld :=
  match i with
  | 0x05 => [fld 0x1FF .rw none true]
  | 0x06 => [fld 0xFFFF .wo (some rRESET) true]
  | 0x07 => [fld 0xFF .rw (some rRESET) false]
  | 0x13 => [fRW 7 rPOWER]
  | 0x19 => [fRW 0x0FF1 rPOWER]
  | 0x1A => [fRW 0xFF rPOWER]
  | 0x1B => [fld 0x10 .w1 (some rPOWER) true]
  | 0x1C => [fRW 7 rPOWER]
  | 0x26 => [fld 7 .wo (some rCOUNT) true]
  | 0x28 => [fRW 0xFFFF rCOUNT]
  | 0x29 => [fld 0x10 .w1 (some rRESET) true]
  | 0x2A => [fRW 5 rMAP, fld 0xA .w1 (some rRESET) true]
  | _ => []

def fieldsOf : Wd → List Fld
  | .bank b i => bankFields b i
  | .reg i => regFields i
  | .domcmd _ => [fRW 7 rPOWER]
  | .domstat _ => [fld 0x40 .w1 (some rPOWER) true]
  | .vote _ => [fRW 1 rVOTE]
  | .iso _ => [fld 1 .w1 (some rISOLATE) true]
  | .flt _ => [fld 0x40 .w1 (some rISOLATE) true]
  | .rtcSecs => [fRW 0xFFFFFFFF rAUTHORITY]
  | .alarmSecs => [fRW 0xFFFFFFFF rPOWER]
  | _ => []

/-- R363: the target ID of a change of a word. -/
def tidOf : Wd → Half
  | .bank b i => tidBank b i
  | .reg i => tidHost i
  | .domcmd d => tidDom 0 d
  | .domstat d => tidDom 1 d
  | .vote d => tidDom 2 d
  | .iso _ => tidHost 0x25
  | .flt _ => tidHost 0x24
  | .rtcSecs => tidHost 0x10
  | .alarmSecs => tidHost 0x12
  | _ => 0

/-! ## Reserved codes (R3) -/

/-- R379 to R381: is this EVENT code listed for the block? -/
def eventListed (blk : Blk) (ev : Nat) : Bool :=
  let hi := ev / 64
  let c := ev % 64
  match blk with
  | .port _ => decide (c ≤ 0x19) && (decide (c = 1) || decide (c = 2) || (decide (c = 5) && decide (hi < 2)) || decide (hi = 0))
  | .router _ => decide (c / 8 < 6) && (decide (c % 8 ≠ 6) || decide (4 ≤ c / 8))
  | .sys => decide (ev ≤ 0x1A)

/-- R90: combinations that PCFG may not hold, and changes that need the domain OFF. -/
def pcfgBad (s : State) (n : Nat) (old v : Word) : Bool :=
  let pe := fieldNat v 0 2
  let ro := fieldNat v 2 2
  let ps := fieldNat v 14 2
  decide (pe = 3) || decide (ro = 3) || decide (ps = 3) || (decide (ro = 2) && decide (pe ≠ 2)) ||
  (decide (pe = 2) && decide (ro ≠ 0) && !v.getLsbD 6) || (v.getLsbD 7 && !(decide (pe = 0) && decide (ro = 1))) ||
  (decide (ps = 1) && !(decide (pe = 0) && decide (ro = 1))) ||
  (decide ((domGet s n).st ≠ .off) && decide ((old ^^^ v) &&& 0x00FFC0FF ≠ 0))

/-- R92. -/
def pclkBad (v : Word) : Bool :=
  let f := fieldNat v 0 16
  let d := fieldNat v 16 11
  decide (d < 12) || decide (1600 < d) || (decide (d = 1600) && decide (f ≠ 0)) || (decide (d = 12) && decide (f < 7944))

def low16Zero (v : Word) : Bool := decide (fieldNat v 0 16 = 0)
def sizeBad (v : Word) : Bool := decide (fieldNat v 0 5 < 8) || decide (24 < fieldNat v 0 5)

def bankReserved (s : State) (b i : Nat) (old v : Word) : Bool :=
  match counterAt b i with
  | some (blk, k, val) => !val && (!eventListed blk (fieldNat v 0 8) || (decide (k % 2 = 1) && v.getLsbD 8))
  | none =>
    if b < 0x40 then
      match i with
      | 0 => pcfgBad s b old v
      | 1 => pclkBad v
      | 7 => low16Zero v
      | _ => ((decide (0x10 ≤ i ∧ i < 0x50) && decide (i % 4 = 0)) || (decide (0x50 ≤ i ∧ i < 0xD0) && decide (i % 8 = 0))) && sizeBad v
    else match b with
      | 0x83 =>
        if i = 0 then low16Zero v
        else if 0x10 ≤ i ∧ i < 0x50 ∧ i % 8 = 1 then decide (fieldNat v 16 3 = 7)
        else if 0x10 ≤ i ∧ i < 0x50 ∧ i % 8 = 4 then decide (fieldNat v 0 2 = 3) || decide (fieldNat v 2 3 < 2) || decide (5 < fieldNat v 2 3)
        else false
      | 0x84 =>
        (match i with
        | 0x400 => low16Zero v | 0x401 => low16Zero v | 0x402 => decide (fieldNat v 0 10 = 0) || decide (1000 < fieldNat v 0 10)
        | 0x404 => low16Zero v | 0x405 => decide (fieldNat v 0 16 < 64) | 0x406 => low16Zero v | 0x407 => decide (fieldNat v 0 16 < 25)
        | 0x408 => low16Zero v | _ => false)
      | 0x85 => decide (i = 0x102) && low16Zero v
      | 0x88 => decide (i = 0) && decide (fieldNat v 0 2 = 3)
      | _ => false

/-- R3: does the word written hold a reserved code, or what its chapter handles as one (R90, R92, R252, R287)? `v` is the word as the
write would leave it, with the bits of WO, W1C and W1S fields as written. -/
def reservedCode (s : State) (wd : Wd) (old v : Word) : Bool :=
  match wd with
  | .bank b i => bankReserved s b i old v
  | .reg i =>
    match i with
    | 0x06 => decide (v ≠ 0xC1EA)
    | 0x13 => decide (5 < fieldNat v 0 3)
    | 0x19 => decide (fieldNat v 8 4 = 0)
    | 0x1A => decide ((v.extractLsb' 0 8).toInt < -71) || decide (51 < (v.extractLsb' 0 8).toInt)
    | 0x26 => decide (4 < fieldNat v 0 3)
    | 0x28 => decide (fieldNat v 0 16 < 25)
    | _ => false
  | .domcmd d =>
    decide (fieldNat v 0 2 = 3) ||
      (decide (64 ≤ d) && ((decide (d ≠ 65) && (decide (fieldNat v 0 2 ≠ 0) && decide (fieldNat v 0 2 ≠ fieldNat old 0 2))) || !v.getLsbD 2))
  | _ => false

end Sys2Proof.Machine
end

