-- ==== Sys2Proof/Machine/Registers.lean ====
section
/-!
DEFINITION. Writing one word of SYS (R8, R9, R356 to R359, R366, R414, R418, R473): the checks in their order, the change, its journal
entry, and what follows from it.
-/
namespace Sys2Proof.Machine

/-- How the write of one word ends: applied (or without effect), refused with a status, waiting on internal state (R80, R423), or
taken up and answered by a later event. -/
inductive WRes where
  | done (s : State)
  | refused (s : State) (st : Status)
  | wait (w : Wait)
  | later (s : State)
  deriving DecidableEq, Repr

/-! ## Checks (R8, R9) -/

/-- The bits of the fields for which `sel` holds. -/
def maskOf (fs : List Fld) (sel : Fld → Bool) : Word := (fs.filter sel).foldl (fun (m : Word) f => m ||| f.mask) 0

/-- R42: the word that a write of these lanes leaves: RW fields keep the lanes not written; other fields are 0 there. -/
def mergeWord (fs : List Fld) (old data : Word) (be : BitVec 4) : Word :=
  (old &&& maskOf fs (fun f => decide (f.acc = .rw)) &&& ~~~ laneMask be) ||| (data &&& maskOf fs (fun _ => true) &&& laneMask be)

/-- R8: does the write take effect on a field? -/
def takes (f : Fld) (old v : Word) : Bool :=
  match f.acc with
  | .rw => decide ((old ^^^ v) &&& f.mask ≠ 0)
  | _ => decide (v &&& f.mask ≠ 0)

/-- R353: the lowest-numbered right that the origin lacks among the fields on which the write takes effect. -/
def lacks (s : State) (o : Origin) (fs : List Fld) (old v : Word) : Option Nat :=
  (List.range 8).find? (fun k => !holdsRight s o k && fs.any (fun f => decide (f.right = some k) && takes f old v))

def hasRight (s : State) (o : Origin) (f : Fld) : Bool := match f.right with | some k => holdsRight s o k | none => true

/-- R8, R9: does the write make an entry: it writes lanes of a RW field marked Yes, changed or with its right held; or it takes effect on
another field marked Yes. -/
def journals (s : State) (o : Origin) (fs : List Fld) (old v : Word) (be : BitVec 4) : Bool :=
  fs.any (fun f => f.jrn && (match f.acc with
    | .rw => decide (f.mask &&& laneMask be ≠ 0) && (takes f old v || hasRight s o f)
    | _ => takes f old v))

/-- R317, R366, R367: what a journaled change does when it finds no place: it waits, or, with NV off, is not applied. -/
def noPlace (s : State) : WRes :=
  if nvOn s then .wait .staging else .done (timeMod s (fun t => { t with jqfull := true }))

/-! ## Counter commands (R384 to R386, R389) -/

/-- The blocks and how they stand in global numbers. -/
def blkOf (g : Nat) : Blk := if g < 512 then .port (g / 8) else if g < 1024 then .router ((g - 512) / 8) else .sys

/-- R386 steps 2 and 3: the edge: every counter of a block that is ON is copied, and the gather starts. -/
def gatherStart (s : State) : State :=
  let c := s.cnt
  cntMod s (fun x => { x with busy := true, edge := c.value.filter (fun e => blkOn s (blkOf e.1)),
                              edgeO := c.ovf.filter (fun e => blkOn s (blkOf e.1)),
                              missP := (List.range 64).filter (fun n => !domOn s n),
                              miss := !domOn s 64 || (List.range 64).any (fun n => !domOn s n) })

def counterCmd (s : State) (cmd : Nat) : State :=
  match cmd with
  | 1 => gatherStart s
  | 2 => gatherStart (cntMod s (fun c => { c with frozen := true }))
  | 3 => cntMod s (fun c => { c with frozen := false })
  | 4 => cntMod s (fun c => { c with value := [], ovf := [] })
  | _ => s

/-- R375, R376: a write of CSEL or CVAL. -/
def counterPut (s : State) (b i : Nat) (blk : Blk) (k : Nat) (val : Bool) (v : Word) : State :=
  let zero := fun (t : State) (j : Nat) => setCovf (setCval t (gNum blk j) 0) (gNum blk j) false
  if val then setCval s (gNum blk k) v
  else
    let old := cselGet s blk k
    let new := v &&& 0x1FF
    let s1 := cfgSet s b i new
    let s2 := if old = new then s1 else zero s1 k
    let s3 := if old.getLsbD 8 = new.getLsbD 8 then s2 else zero s2 (k + 1)
    if v.msb then setCovf s3 (gNum blk k) false else s3

/-! ## The change of a word -/

/-- R149: a host write to a directory entry. -/
def dirWrite (w v : Word) : Option Word :=
  if v.getLsbD 17 then some (mkDir (v.extractLsb' 0 8) (fieldNat v 8 6) true true false)
  else if dirPinned w then some 0 else none

/-- R320: bank 0x83 takes a write now, or after the patrol. -/
def tackPut (s : State) (i : Nat) (v : Word) : State :=
  if s.time.patrol.isSome then timeMod s (fun t => { t with tackHeld := t.tackHeld ++ [(i, v)] })
  else if i = 3 then timeMod (cfgSet s 0x83 3 (v &&& 0x3FF)) (fun t => { t with armed := t.armed && !v.msb })
  else cfgSet s 0x83 i v

def bankPut (s : State) (b i : Nat) (v : Word) : State :=
  match counterAt b i with
  | some (blk, k, val) => counterPut s b i blk k val v
  | none =>
    if b < 0x40 then
      match i with
      | 0x03 => if v.getLsbD 4 then portMod s b (fun p => { p with perr := 0 }) else s
      | 0x05 =>
        let p := portGet s b
        let cleared := (v.getLsbD 0 && p.sdrop) || (v.getLsbD 1 && p.rdrop) || (v.getLsbD 2 && p.nomap)
        portMod s b (fun q => { q with sdrop := q.sdrop && !v.getLsbD 0, rdrop := q.rdrop && !v.getLsbD 1,
                                       nomap := q.nomap && !v.getLsbD 2, drops := if cleared then 0 else q.drops })
      | 0xE4 => if v.getLsbD 2 then portMod s b (fun p => { p with peakRd := 0, peakWr := 0, pvalid := false }) else s
      | _ => cfgSet s b i v
    else match b with
      | 0x80 => if v.msb then sysMod s (fun y => { y with refuseSeen := false, refuseN := 0 }) else s
      | 0x81 => cfgSet s b i ((dirWrite (cfgGet s b i) v).getD (cfgGet s b i))
      | 0x83 => tackPut s i v
      | _ => cfgSet s b i v

def regPut (s : State) (o : Origin) (i : Nat) (v : Word) : State :=
  let h : Half := v.extractLsb' 0 16
  match i with
  | 0x05 => sysMod s (fun y => { y with eventEn := h.extractLsb' 0 9 })
  | 0x07 => sysMod s (fun y => { y with scopes := tset (fun _ => 0) y.scopes (scopeKey o) (h.extractLsb' 0 8) })
  | 0x13 => powMod s (fun p => { p with code := h.extractLsb' 0 3 })
  | 0x19 => powMod s (fun p => { p with pec := h.getLsbD 0, settle := h.extractLsb' 4 4, regto := h.extractLsb' 8 4 })
  | 0x1A => powMod s (fun p => { p with trim := h.extractLsb' 0 8 })
  | 0x1B => if h.getLsbD 4 then powMod s (fun p => { p with seen := false, browns := 0 }) else s
  | 0x1C => timeMod s (fun t => { t with lastStep := h.extractLsb' 0 3 })
  | 0x28 => timeMod s (fun t => { t with bwwin := h })
  | 0x29 => if h.getLsbD 4 then ringMod s (fun r => { r with fault := false }) else s
  | 0x2A => ringMod s (fun r => { r with joinEn := h.getLsbD 0, slotEn := h.getLsbD 2, leaveBit := r.leaveBit || h.getLsbD 1,
                                         reform := r.reform || h.getLsbD 3 })
  | _ => s

/-- R265. MESH, SYS and NV cannot be commanded, and only a port domain can be VOTED (R252). -/
def domcmdPut (d : Nat) (x : Dom) (v : Word) : Dom :=
  { x with voted := decide (d < 64) && !v.getLsbD 2,
           cmdOn := if fieldNat v 0 2 = 0 ∨ (64 ≤ d ∧ d ≠ 65) then x.cmdOn else decide (fieldNat v 0 2 = 1) }

/-- The change itself. The RTC and the alarm are set in `wordAfter`, after their entries. -/
def wordPut (s : State) (o : Origin) (wd : Wd) (v : Word) : State :=
  match wd with
  | .bank b i => bankPut s b i v
  | .reg i => regPut s o i v
  | .domcmd d => domMod s d (fun x => domcmdPut d x v)
  | .domstat d => if v.getLsbD 6 then domMod s d (fun x => { x with forced := false }) else s
  | .flt src => if v.getLsbD 6 then faultSet s src { faultGet s src with isNew := false, count := 0 } else s
  | _ => s

/-- R340: the ISOLATE word of a GO entry. -/
def goValue (s : State) (n : Nat) : Word :=
  let p := portGet s n
  0#19 ++ (if p.dead then p.cause else fCOMMAND) ++ 1#1 ++ 1#1 ++ BitVec.ofNat 6 n

/-- R363: the VALUE of an entry: the whole new word, with what a command or selection carries; `s1` has the change made. -/
def wordValue (s1 : State) (o : Origin) (wd : Wd) (v : Word) : Word :=
  match wd with
  | .reg 0x06 => v
  | .reg 0x26 => v &&& 7
  | .bank 0x83 3 =>
    if s1.time.patrol.isSome then bit (s1.time.armed && !v.msb) ++ 0#21 ++ v.extractLsb' 0 10 else bankWord s1 o 0x83 3
  | .iso n => goValue s1 n
  | .flt src => faultValue src (faultGet s1 src).code true 0
  | .rtcSecs => v >>> (16 : Nat)
  | .alarmSecs => v >>> (16 : Nat)
  | wd => wordRead s1 o wd

/-! ## What follows -/

/-- R229: BCFG of bobbin b changes; OWNER, MODE or a cleared ENABLE flushes first. -/
def bcfgFlush (s : State) (b : Nat) (old v : Word) : State :=
  if decide ((old ^^^ v) &&& 0x7F ≠ 0) || (bEnable old && !bEnable v) then bobFlush s b else s

/-- R196, R201, R204: LEAVE, REFORM and JOINEN. A chip that no longer asks to join is not WAITING. DEDUCED, assumption 17. -/
def ringctlAfter (s : State) (v : Word) : State :=
  let s1 := if v.getLsbD 1 then
      (if canDrive s then (if s.ring.leaveWhy = .none then askLeave s .leave else s) else clearCtl s true false) else s
  let s2 := if v.getLsbD 3 then
      (if isMaster s1 && canDrive s1 then reform (if s1.ring.op = .reform then s1 else ringStop s1 cABORTED false)
       else clearCtl s1 false true) else s1
  if !s2.ring.joinEn && decide (s2.ring.st = .waiting) then setRing (ringMod s2 (fun r => { r with asking := false })) (fun r => { r with st := .alone })
  else s2

/-- The effects of an applied write beyond its word. `s0` is the state before it. -/
def wordAfter (s0 s : State) (o : Origin) (wd : Wd) (v : Word) : State :=
  match wd with
  | .bank b i =>
    if b < 0x40 ∧ i = 1 then portMod s b (fun p => { p with pclkLive := v })
    else if b = 0x87 then bellWake s i (bellPending s0 i)
    else s
  | .reg 0x06 => resetStart s o
  | .reg 0x13 => upkeep s
  | .reg 0x26 => counterCmd s (fieldNat v 0 3)
  | .reg 0x2A => ringctlAfter s v
  | .domcmd d => upkeep (evalDom s d)
  | .iso n => if v.getLsbD 0 then upkeep (portDie s n fCOMMAND 0) else s
  | .rtcSecs => rtcSet s v
  | .alarmSecs => alarmSet s v
  | _ => s

/-- The change, its entry, and what follows. R229: a flush comes before the new BCFG. -/
def wordApply (s : State) (o : Origin) (wd : Wd) (old v : Word) (j : Bool) : State :=
  let s0 := match wd with | .bank 0x87 b => bcfgFlush s b old v | _ => s
  let s1 := wordPut s0 o wd v
  let s2 := if j then jOrigin s1 o (tidOf wd) (wordValue s1 o wd v) else s1
  wordAfter s s2 o wd v

/-- A write that has passed its checks: it waits for a gather (R386), a reset (R437) or a place, or is applied. -/
def wordGo (s : State) (o : Origin) (wd : Wd) (old v : Word) (j : Bool) : WRes :=
  if decide (wd = .reg 0x26) && s.cnt.busy && decide (v &&& 7 ≠ 0) then .wait .gather
  else if decide (wd = .reg 0x06) && resetWaits s o then .wait .reset
  else if j && !jRoom s then noPlace s
  else .done (wordApply s o wd old v j)

/-! ## Writes with rules of their own -/

/-- R356, R357: a basting write. -/
def basteWrite (s : State) (o : Origin) (b i : Nat) (data : Word) (be : BitVec 4) : WRes :=
  let fs := bankFields b i
  let old := bastedOr s b i
  let v := mergeWord fs old data be
  if reservedCode s (.bank b i) old v then .refused s .decerr
  else if !ownsSet s o then .refused (refuse s (refusedCid o) whyBASTED) .rights
  else
    match lacks s o fs old v with
    | some k => .refused (refuse s (refusedCid o) (BitVec.ofNat 4 k)) .rights
    | none =>
      if !fs.all (hasRight s o) then .done s
      else if s.sys.stitch.isSome then .wait .stitch
      else if setFull s b i then .refused s .decerr
      else .done (basteIn s o b i v)

/-- R357 to R359: STITCH and ABANDON, at bank 0x88 index 0. -/
def bastingCmd (s : State) (o : Origin) (cmd : Nat) (req : Option (Pkt × Nat)) : WRes :=
  let other := WRes.refused (refuse s (refusedCid o) whyBASTED) .rights
  if s.sys.stitch.isSome then .wait .stitch
  else if cmd = 1 then
    if !ownsSet s o then other
    else if s.sys.basted.isEmpty then .done (sysMod s (fun y => { y with result := 0 }))
    else
      let c := stitchCheck s o
      let s1 := sysMod s (fun y => { y with result := c })
      if c = 0 then .later (stitchStart s o req)
      else
        match o with
        | .host => .done s1
        | _ => if c = 4 then .refused (refuse s1 (refusedCid o) (BitVec.ofNat 4 ((setRight s o).getD 0))) .rights else .refused s1 .decerr
  else if ownsSet s o || decide (o = .host) then .done (basteEmpty s) else other

/-- R418: a write of the FENCE word. -/
def fenceCmd (s : State) (v : Word) (req : Option (Pkt × Nat)) : WRes :=
  if s.sys.fenceBusy then .wait .fence
  else .later (agentAsk (sysMod s (fun y => { y with fenceBusy := true })) (v.extractLsb' 8 8) (v.extractLsb' 0 7) .fence 0 [] (.fence req))

/-- R256 to R258, R260: a vote write. The host's vote for another voter is not paced. -/
def voteWrite (s : State) (o : Origin) (d : Nat) (data : Word) (be : BitVec 4) (req : Option (Pkt × Nat)) : WRes :=
  let cast := data.getLsbD 0
  let voter := match o with | .host => s.host.votesel.toNat | .fab _ _ c => c.toNat
  let held := (domGet s d).votes.contains voter
  if o.isAgent || decide (64 ≤ d) then .refused s .decerr
  else if !be.getLsbD 0 then .done s
  else if !holdsRight s o rVOTE then
    if held = cast then .done s else .refused (refuse s (refusedCid o) (BitVec.ofNat 4 rVOTE)) .rights
  else if !nvOn s && !jRoom s then noPlace s
  else if decide (o = .host) && decide (voter ≠ 256) then
    if jRoom s then .done (upkeep (evalDom (jOrigin (voteSet s d voter cast) o (tidDom 2 d) (voteWordValue voter cast)) d)) else noPlace s
  else .later (upkeep (voteArrive s voter { dom := d, cast := cast, req := req }))

/-- R263: does a wake event on domain d make a journal entry? -/
def wakeJournals (s : State) (d : Nat) : Bool :=
  let x := domGet s d
  if x.st = .fault ∨ domDead s d = true then true
  else (decide (x.st = .off) || decide (x.st = .hemming)) && (if x.voted then !x.hold else !x.cmdOn)

/-- R262: the wake-request word. -/
def wakeWrite (s : State) (o : Origin) (data : Word) : WRes :=
  let node : BitVec 7 := data.extractLsb' 0 7
  let d := nodeRouter node
  if nodeSlotB node then .refused s .decerr
  else if wakeJournals s d && !jRoom s then noPlace s
  else .done (upkeep (wakeEvent (bump s .sys yWAKEREQ) d (fun t v => jOrigin t o (tidDom 3 d) v)))

/-- R240, R261, R352: the port-reset notice. -/
def portrstWrite (s : State) (o : Origin) (data : Word) : WRes :=
  match o with
  | .fab c snode _ =>
    if snode = nodeSys ∧ ringSource s c = true then .done (upkeep (portGone s c (fieldNat data 0 6)))
    else .refused (refuse s (refusedCid o) whyAGENT) .rights
  | .host => .done s

/-- R146, R149: the directory. -/
def directoryWrite (s : State) (o : Origin) (i : Nat) (data : Word) : WRes :=
  match o with
  | .host =>
    if (dirWrite (cfgGet s 0x81 i) data).isNone then .refused s .decerr
    else if jRoom s then .done (wordApply s o (.bank 0x81 i) (cfgGet s 0x81 i) data true)
    else noPlace s
  | _ => .refused (refuse s (refusedCid o) whyHOSTONLY) .rights

/-! ## One word written -/

/-- R473: a write of the lanes `be` of one word; `req` is the fabric write and the word's place in it, none for the host. -/
def writeWord (s : State) (o : Origin) (wd : Wd) (data : Word) (be : BitVec 4) (req : Option (Pkt × Nat)) : WRes :=
  let fs := fieldsOf wd
  let old := wordRead s o wd
  let v := mergeWord fs old data be
  match wd with
  | .vote d => voteWrite s o d data be req
  | .wakeReq => wakeWrite s o data
  | .portRst => portrstWrite s o data
  | .jrn _ _ => .done s
  | .bank 0x81 i => directoryWrite s o i data
  | _ =>
    if (match wd with | .bank b i => isBasted b i | _ => false) then
      (match wd with | .bank b i => basteWrite s o b i data be | _ => .done s)
    else if fs.isEmpty then (if wordAsleep s wd then .refused s .asleep else .done s)
    else if reservedCode s wd old v then .refused s .decerr
    else
      match lacks s o fs old v with
      | some k => .refused (refuse s (refusedCid o) (BitVec.ofNat 4 k)) .rights
      | none =>
        if wordAsleep s wd then .refused s .asleep
        else
          match wd with
          | .bank 0x88 0 => if fieldNat v 0 2 = 0 then .done s else bastingCmd s o (fieldNat v 0 2) req
          | .bank 0x88 0x10 => fenceCmd s v req
          | _ =>
            let j := journals s o fs old v be
            if fs.any (fun f => takes f old v) || j then wordGo s o wd old v j else .done s

end Sys2Proof.Machine
end

