-- ==== Sys2Proof/Machine/SysAccess.lean ====
section
/-!
DEFINITION. Accesses of SYS: the host bus (R395 to R400), the window (R410 to R413), the bobbin window (R419), the flat view (R420,
R421), and the accesses that wait (R80, R399, R423).
-/
namespace Sys2Proof.Machine

/-! ## What the host bus serves (R297, R316, R400, R426) -/

/-- R400: the registers kept by the thimble. -/
def thimbleKept (i : Nat) : Bool :=
  [0x00, 0x01, 0x02, 0x03, 0x06, 0x07, 0x0F, 0x10, 0x11, 0x12, 0x13, 0x19, 0x1A, 0x1B, 0x1C, 0x1D, 0x23, 0x24].contains i

/-- R316, R400: the registers served in DEEP, and in TACKING between patrols; of the window, bank 0x83 alone. -/
def sleepServed (s : State) (i : Nat) : Bool :=
  [0x0F, 0x10, 0x11, 0x12, 0x1C, 0x1D, 0x08, 0x09, 0x0B].contains i || (decide (i = 0x0A) && decide (s.host.winsel = 0x83)) ||
  (decide (i = 0x13) && decide (s.power.mode = .tacking))

/-- How the bus takes an access: performs it, lets it read 0 or be ignored, holds it, or completes no access at all. -/
inductive Serve where
  | serve | blank | hold | dead
  deriving DecidableEq, Repr

/-- R400, R426. While SYS is not ON, a register that the thimble does not keep holds the bus. -/
def hostGate (s : State) (i : Nat) : Serve :=
  match s.power.mode with
  | .unpowered | .held => .dead
  | .deep | .tacking => if sleepServed s i then .serve else .blank
  | .chipFault => if thimbleKept i then .serve else .blank
  | _ => if thimbleKept i || sysOn s then .serve else .hold

/-! ## The bobbin window (R235 to R238, R419) -/

def bobOn (s : State) (b : Nat) : Bool := bEnable (bcfg s b)

/-- RXHEAD (R235): SCHIP, SCID, STAG, SEQ, VALID, LENM1. -/
def rxHeadWord (x : Bobbin) : Word :=
  match x.msgs with
  | m :: _ => m.schip ++ m.scid ++ m.stag ++ m.seq ++ 1#1 ++ m.lenM1
  | [] => 0

/-- RXWORD i (R236). -/
def rxWord (x : Bobbin) (i : Nat) : Word := match x.msgs with | m :: _ => m.words.getD i 0 | [] => 0

/-- STAT (R237). -/
def bobStat (x : Bobbin) : Word :=
  0#13 ++ bit x.lock.isSome ++ bit x.asm.isSome ++ bit x.coll ++ x.epoch ++ BitVec.ofNat 6 (bobFreeW x) ++ BitVec.ofNat 6 x.msgs.length

/-- R238: the holder's client ID + 1, or 0. -/
def holderCode (x : Bobbin) : BitVec 9 := match x.lock with | some l => l.cid.setWidth 9 + 1 | none => 0

/-- BOBSTAT as read (R419). -/
def hostBobStat (x : Bobbin) : Half :=
  x.epoch ++ 0#3 ++ bit x.lock.isSome ++ bit x.asm.isSome ++ bit x.coll ++ BitVec.ofNat 6 x.msgs.length

/-- R236: RXDONE with this SEQ. -/
def bobDone (s : State) (b : Nat) (seq : BitVec 4) : State :=
  bobMod s b (fun x => match x.msgs with
    | m :: rest => if m.seq = seq then { x with msgs := rest } else x
    | [] => x)

def bobSelN (s : State) : Nat := s.host.bobsel.toNat

/-- R419: the host writes BOBSTAT: COLL, then FLUSH, then DONE (DEDUCED order, assumption 41). The flush is journaled. -/
def hostBobStatWrite (s : State) (hd : Half) : WRes :=
  let b := bobSelN s
  if bobOn s b = false then .done s
  else if hd.getLsbD 9 && !jRoom s then noPlace s
  else
    let s1 := if hd.getLsbD 6 then bobMod s b (fun x => { x with coll := false }) else s
    let s2 := if hd.getLsbD 9 then
        let t := bobFlush s1 b
        jOrigin t .host (tidBobbin 0 b) ((bobGet t b).epoch.setWidth 32)
      else s1
    .done (if hd.getLsbD 10 then bobDone s2 b (hd.extractLsb' 12 4) else s2)

/-- R245, R419: the host writes DOORBELL. -/
def hostDoorbellWrite (s : State) (hd : Half) : State :=
  let b := bobSelN s
  if bobOn s b = false then s
  else if s.host.bobclr then bellClear s b hd
  else upkeep (bellSet s b hd)

/-- R419: the item that BOBSEL names. -/
def bobItem (s : State) : Word :=
  let x := bobGet s (bobSelN s)
  if bobOn s (bobSelN s) = false then 0
  else if s.host.bobitem = 0 then rxHeadWord x else rxWord x (s.host.bobitem.toNat - 1)

/-- R419, R424: a read of BOBDATA. -/
def bobdataRead (s : State) : State :=
  let h := s.host
  if h.bobphase then
    hostMod s (fun y => { y with hd := h.boblatch, bobphase := false, bobitem := if 8 ≤ h.bobitem.toNat then 8 else h.bobitem + 1 })
  else
    let w := bobItem s
    hostMod s (fun y => { y with hd := w.extractLsb' 0 16, boblatch := w.extractLsb' 16 16, bobphase := true })

/-! ## The window (R410 to R413, R371, R383) -/

/-- R371, R412: what a high-half access leaves of WINADDR and JRNPTR. -/
def winNext (s : State) : State :=
  let h := s.host
  if h.inc = false then s
  else if h.winsel = 0x82 ∧ h.winaddr = 3 then hostMod s (fun y => { y with winaddr := 0, jptr := h.jptr + 1 })
  else hostMod s (fun y => { y with winaddr := h.winaddr + 1 })

def winB (s : State) : Nat := s.host.winsel.toNat
def winI (s : State) : Nat := s.host.winaddr.toNat

/-- R383: a host read of an even chained CVAL latches its partner. -/
def cvalLatch (s : State) (b i : Nat) : State :=
  match counterAt b i with
  | some (blk, k, true) =>
    if k % 2 = 0 ∧ (cselGet s blk k).getLsbD 8 = true then
      hostMod s (fun y => { y with cvLatch := some (gNum blk (k + 1), cval s (gNum blk (k + 1))) })
    else if (s.host.cvLatch.map (·.1)) = some (gNum blk k) then hostMod s (fun y => { y with cvLatch := none })
    else s
  | _ => s

/-- The whole bank word that the host reads at one instant, with the latched partner of a chained CVAL. -/
def winValue (s : State) : Word :=
  match counterAt (winB s) (winI s), s.host.cvLatch with
  | some (blk, k, true), some (g, v) => if g = gNum blk k then v else bankWord s .host (winB s) (winI s)
  | _, _ => bankWord s .host (winB s) (winI s)

/-- R411, R413, R414: a read of WINDATA. -/
def windataRead (s : State) : State :=
  let h := s.host
  let wd := Wd.bank (winB s) (winI s)
  if h.phase && h.phaseRd then winNext (hostMod s (fun y => { y with hd := h.rlatch, phase := false }))
  else
    let low := fun (t : State) (w : Word) =>
      hostMod t (fun y => { y with hd := w.extractLsb' 0 16, rlatch := w.extractLsb' 16 16, phase := true, phaseRd := true })
    if bankHas (winB s) (winI s) = false then low (hostMod s (fun y => { y with decerr := true })) 0
    else if wordAsleep s wd then low (hostMod s (fun y => { y with asleep := true })) 0
    else low (readClear (cvalLatch s (winB s) (winI s)) wd) (winValue s)

/-- R413: the marks of a word write that was not applied. A STITCH that fails a check ends normally (R359). -/
def winMark (s : State) (st : Status) : State :=
  match st with
  | .asleep => hostMod s (fun y => { y with asleep := true })
  | _ => hostMod s (fun y => { y with refused := true })

/-- The write of a bank word by the host; its refusals mark WINCTL. -/
def winWrite (s : State) (b i : Nat) (v : Word) : WRes :=
  if bankHas b i = false then .done (hostMod s (fun y => { y with decerr := true }))
  else
    match writeWord s .host (.bank b i) v 0xF none with
    | .refused s1 st => .done (winMark s1 st)
    | r => r

/-- R411: does this write of WINDATA take the high half? -/
def winHigh (s : State) : Bool := s.host.phase && !s.host.phaseRd

/-- The word that a high-half write of `hd` writes. -/
def winWord (s : State) (hd : Half) : Word := hd ++ s.host.wlatch

/-! ## Host writes (R401, R409 to R413, R419) -/

/-- A host register written by its word: refusals end the cycle normally (R3). -/
def plainWrite (s : State) (wd : Wd) (hd : Half) : WRes :=
  match writeWord s .host wd (hd.setWidth 32) 0xF none with
  | .refused s1 _ => .done s1
  | r => r

/-- R340: ISOLATE: PORT, and GO for that port. -/
def isolateWrite (s : State) (hd : Half) : WRes :=
  let s1 := hostMod s (fun y => { y with isoport := hd.extractLsb' 0 6 })
  if hd.getLsbD 6 then plainWrite s1 (.iso (fieldNat (hd.setWidth 32) 0 6)) 1 else .done s1

/-- The write of one host register, once the bus serves it. -/
def hostPerform (s : State) (ha : Nat) (hd : Half) : WRes :=
  match ha with
  | 0x04 => .done (sysMod s (fun y => { y with event := y.event &&& ~~~ (hd.extractLsb' 0 9) }))
  | 0x08 => .done (hostMod s (fun y => { y with winsel := hd.extractLsb' 0 8, phase := false }))
  | 0x09 => .done (hostMod s (fun y => { y with winaddr := hd, phase := false }))
  | 0x0A =>
    if winHigh s then winWrite (winNext (hostMod s (fun y => { y with phase := false }))) (winB s) (winI s) (winWord s hd)
    else .done (hostMod s (fun y => { y with wlatch := hd, phase := true, phaseRd := false }))
  | 0x0B => .done (hostMod s (fun y => { y with inc := hd.getLsbD 0, refused := y.refused && !hd.getLsbD 2,
                                                decerr := y.decerr && !hd.getLsbD 3, asleep := y.asleep && !hd.getLsbD 4 }))
  | 0x0F => .done (hostMod s (fun y => { y with rtcStage := hd }))
  | 0x10 => writeWord s .host .rtcSecs (hd ++ s.host.rtcStage) 0xF none
  | 0x11 => .done (hostMod s (fun y => { y with alStage := hd }))
  | 0x12 => writeWord s .host .alarmSecs (hd ++ s.host.alStage) 0xF none
  | 0x14 => .done (if 67 < (hd.extractLsb' 0 7).toNat then s else hostMod s (fun y => { y with domsel := hd.extractLsb' 0 7 }))
  | 0x15 => plainWrite s (.domcmd s.host.domsel.toNat) hd
  | 0x16 => plainWrite s (.domstat s.host.domsel.toNat) hd
  | 0x17 => .done (if 256 < (hd.extractLsb' 0 9).toNat then s else hostMod s (fun y => { y with votesel := hd.extractLsb' 0 9 }))
  | 0x18 => plainWrite s (.vote s.host.domsel.toNat) hd
  | 0x1E => .done (hostMod s (fun y => { y with jptr := y.jptr.extractLsb' 16 4 ++ hd }))
  | 0x1F => .done (hostMod s (fun y => { y with jptr := hd.extractLsb' 0 4 ++ y.jptr.extractLsb' 0 16 }))
  | 0x23 => .done (if 68 < (hd.extractLsb' 0 7).toNat then s else hostMod s (fun y => { y with faultsel := hd.extractLsb' 0 7 }))
  | 0x24 => plainWrite s (.flt s.host.faultsel.toNat) hd
  | 0x25 => isolateWrite s hd
  | 0x2B =>
    let s1 := hostMod s (fun y => { y with bobphase := false })
    .done (if 8 < (hd.extractLsb' 8 4).toNat then s1
           else hostMod s1 (fun y => { y with bobsel := hd.extractLsb' 0 6, bobitem := hd.extractLsb' 8 4, bobclr := hd.getLsbD 12 }))
  | 0x2E => hostBobStatWrite s hd
  | 0x2F => .done (hostDoorbellWrite s hd)
  | i => if decide (i < 0x30) && (!hostOnly i || decide (i = 0x05)) then plainWrite s (.reg i) hd else .done s

/-- Ends or keeps the host's bus cycle after a write (R399). A high half that waits is kept as its word: PHASE and WINADDR have moved. -/
def hostResult (s : State) (ha : BitVec 6) (hd : Half) : WRes → State
  | .done t => hostEnd t
  | .refused t _ => hostEnd t
  | .later t => t
  | .wait w =>
    let keep := fun (t : State) (h : Held) => bump (sysMod t (fun y => { y with held := y.held ++ [(w, h)] })) .sys (if w = .staging then yJSTALL else 0)
    if ha = 0x0A then
      keep (winNext (hostMod s (fun y => { y with phase := false }))) (.hostWord (BitVec.ofNat 8 (winB s)) s.host.winaddr (winWord s hd))
    else keep s (.host ha hd)

/-- R397, R399, R400: a host write cycle. While another one waits, none starts. -/
def hostWrite (s : State) (ha : BitVec 6) (hd : Half) : State :=
  if s.host.waitLow then s
  else
    match hostGate s ha.toNat with
    | .dead => s
    | .blank => s
    | .hold => sysMod (hostMod s (fun y => { y with waitLow := true })) (fun y => { y with held := y.held ++ [(.reset, .host ha hd)] })
    | .serve =>
      let s1 := hostMod (bump s .sys yHOSTACC) (fun y => { y with waitLow := true })
      hostResult s1 ha hd (hostPerform s1 ha.toNat hd)

/-! ## Host reads -/

/-- The registers that the bus reads through selectors and latches, and those of the flat view. -/
def hostReadWord (s : State) (ha : Nat) : Half :=
  let h := s.host
  let bob := bobGet s (bobSelN s)
  match ha with
  | 0x08 => h.winsel.setWidth 16
  | 0x09 => h.winaddr
  | 0x0B => 0#11 ++ bit h.asleep ++ bit h.decerr ++ bit h.refused ++ bit h.phase ++ bit h.inc
  | 0x0C => s.time.ts.extractLsb' 0 16
  | 0x0D => h.timeL.extractLsb' 0 16
  | 0x0E => h.timeL.extractLsb' 16 16
  | 0x0F => s.time.rtcSec.extractLsb' 0 16
  | 0x10 => h.rtcHi
  | 0x11 => s.time.alSec.extractLsb' 0 16
  | 0x12 => h.alHi
  | 0x14 => h.domsel.setWidth 16
  | 0x15 => domcmdWord s h.domsel.toNat
  | 0x16 => domstatWord s h.domsel.toNat
  | 0x17 => h.votesel.setWidth 16
  | 0x18 =>
    let v := h.votesel.toNat
    let pend := (match stallGet s v with | some x => decide (x.dom = h.domsel.toNat) | none => false) ||
      s.sys.voteWait.any (fun e => decide (e.1 = v) && decide (e.2.dom = h.domsel.toNat))
    0#14 ++ bit pend ++ bit ((domGet s h.domsel.toNat).votes.contains v)
  | 0x1E => h.jptr.extractLsb' 0 16
  | 0x1F => 0#12 ++ h.jptr.extractLsb' 16 4
  | 0x21 => h.jlatch
  | 0x23 => h.faultsel.setWidth 16
  | 0x24 => faultWord s h.faultsel.toNat
  | 0x25 =>
    let p := portGet s h.isoport.toNat
    0#3 ++ (if p.dead then p.cause else 0) ++ bit p.dead ++ 0#1 ++ h.isoport
  | 0x2B => 0#3 ++ bit h.bobclr ++ h.bobitem ++ 0#2 ++ h.bobsel
  | 0x2C => if bobOn s (bobSelN s) then bit bob.lock.isSome ++ 0#6 ++ holderCode bob else 0
  | 0x2E => if bobOn s (bobSelN s) then hostBobStat bob else 0
  | 0x2F => if bobOn s (bobSelN s) then bob.bell else 0
  | i => if i < 0x30 then regWord s .host i else 0

/-- What a read latches or clears besides (R311, R313, R372, R7). -/
def hostReadLatch (s : State) (ha : Nat) : State :=
  match ha with
  | 0x0C => hostMod s (fun y => { y with timeL := s.time.ts.extractLsb' 16 32 })
  | 0x0F => hostMod s (fun y => { y with rtcHi := s.time.rtcSec.extractLsb' 16 16, rtcFrac := s.time.rtcFr })
  | 0x11 => hostMod s (fun y => { y with alHi := s.time.alSec.extractLsb' 16 16 })
  | 0x20 => hostMod s (fun y => { y with jlatch := jrnhead1 s })
  | i => readClear s (.reg i)

/-- The read of one host register, once the bus serves it. -/
def hostTake (s : State) (ha : Nat) : State :=
  match ha with
  | 0x0A => windataRead s
  | 0x2D => bobdataRead s
  | i => hostMod (hostReadLatch s i) (fun y => { y with hd := hostReadWord s i })

/-- R396, R400: a host read cycle. A cycle that the bus holds goes on holding: the command has no effect yet. -/
def hostRead (s : State) (ha : BitVec 6) : State :=
  if s.host.waitLow then s
  else
    match hostGate s ha.toNat with
    | .dead => s
    | .hold => s
    | .blank => hostMod s (fun y => { y with hd := 0 })
    | .serve => hostTake (bump s .sys yHOSTACC) ha.toNat

/-! ## Fabric requests at SYS (R351, R420, R421, R473) -/

def fabOrigin (p : Pkt) : Origin := .fab p.schip p.snode p.cid

/-- The words that a request names, as the flat view decodes them. -/
def sysWords (p : Pkt) (n : Nat) : List (Option Wd) := (List.range n).map (fun k => flatWord (byteAddr p.addr + 4 * k))

/-- R420, R421, R371, R414: a READ, all its words at one instant. -/
def sysRead (s : State) (p : Pkt) (n : Nat) : State :=
  let o := fabOrigin p
  let ws := (sysWords p n).filterMap id
  if ws.any readNeeds && !holdsRight s o rAUTHORITY then respond (refuse s (refusedCid o) (BitVec.ofNat 4 rAUTHORITY)) p .rights []
  else if ws.any (wordAsleep s) then respond s p .asleep []
  else
    let ds := (sysWords p n).map (fun w => goodUnit (match w with | some wd => wordRead s o wd | none => 0) 0xF)
    respond (ws.foldl readClear s) p .ok ds

/-- R421: a WRITE, word by word in address order from word k on; a word that waits leaves the arbiter and comes back (R423). A reset
that covers SYS drops the response (R409). -/
def sysWriteFrom (s : State) (p : Pkt) (k : Nat) : List DataUnit → State
  | [] => respond s p .ok []
  | u :: us =>
    match flatWord (byteAddr p.addr + 4 * k) with
    | none => respond s p .decerr []
    | some wd =>
      if u.be = 0 then sysWriteFrom s p (k + 1) us
      else
        match writeWord s (fabOrigin p) wd u.data u.be (some (p, k)) with
        | .done t => if sysOn t then sysWriteFrom t p (k + 1) us else t
        | .refused t st => respond t p st []
        | .later t => t
        | .wait w =>
          bump (sysMod s (fun y => { y with held := y.held ++ [(w, .fab p k)] })) .sys (if w = .staging then yJSTALL else 0)

/-- R420, R473: a write names, with lanes written, a reserved word or the read-only journal. -/
def sysWriteBad (p : Pkt) : Bool :=
  (p.data.zipIdx).any (fun e => decide (e.1.be ≠ 0) && (match flatWord (byteAddr p.addr + 4 * e.2) with
    | none => true
    | some (.jrn _ _) => true
    | _ => false))

/-- The fabric requests that SYS has accepted and not finished, FENCE commands (R418) apart, which themselves wait for a FENCE. -/
def openReqs (s : State) : List Pkt :=
  s.sys.held.filterMap (fun e => match e with | (.fence, _) => none | (_, .fab p _) => some p | _ => none) ++
  (s.sys.stalls.filterMap (fun e => e.2.bind (·.req))).map (·.1) ++ (s.sys.voteWait.filterMap (fun e => e.2.req)).map (·.1) ++
  (s.sys.stitch.bind (·.req)).toList.map (·.1)

/-- R47: a FENCE waits at an agent. Only SYS keeps requests unfinished after it took them. -/
def agentFence (s : State) (node : BitVec 7) (p : Pkt) : State :=
  let f : AgentFence := { node := node, pkt := p, before := if node = nodeSys then openReqs s else [],
                          claims := if node = nodeSys then s.sys.claims ++ s.sys.forwarded else [] }
  sysMod s (fun y => { y with fences := y.fences ++ [f] })

/-- R47: the oldest FENCE of an agent's node is answered, once what was accepted before it has finished. -/
def agentFenceDone (s : State) (node : BitVec 7) : State :=
  match s.sys.fences.find? (fun f => decide (f.node = node)) with
  | none => s
  | some f =>
    if f.before.any ((openReqs s).contains ·) || f.claims.any ((s.sys.claims ++ s.sys.forwarded).contains ·) || !sysOn s ||
       !(nodeGet s node .rsp).out.isEmpty then s
    else respond (sysMod s (fun y => { y with fences := y.fences.erase f })) f.pkt .ok []

/-- What a request of SYS does once it is taken (R57, R136). A PROBE is answered at once (R48), a FENCE waits (R47). -/
def sysPerform (s : State) (p : Pkt) : State :=
  match reqCheck p with
  | .discard => s
  | .answer st => respond s p st []
  | .perform =>
    let s1 := bump s .sys yFABACC
    match opOf p.cmd with
    | .read n => sysRead s1 p n
    | .write _ => if sysWriteBad p then respond s1 p .decerr [] else sysWriteFrom s1 p 0 p.data
    | .probe => respond s1 p .ok []
    | .fence => agentFence s nodeSys p
    | _ => respond s1 p .decerr []

/-- SYS takes the oldest request of a network, when `sel` holds of it. -/
def sysTake (s : State) (net : Net) (sel : Pkt → Bool) : State :=
  if sysOn s = false then s
  else
    match rxHead s nodeSys net with
    | none => s
    | some p => if sel p then sysPerform (rxDrop s nodeSys net) p else s

/-! ## Accesses that wait (R80, R386, R399, R423, R437) -/

/-- Can this access be taken up again? -/
def heldReady (s : State) (e : Wait × Held) : Bool :=
  let gate := match e.2 with
    | .host ha _ => match hostGate s ha.toNat with | .hold => false | .dead => false | _ => true
    | .hostWord _ _ _ => (match hostGate s 0x0A with | .hold => false | .dead => false | _ => true)
    | .fab _ _ => sysOn s
  let waits := match e.2 with
    | .host ha _ => decide (ha = 6) && resetWaits s .host
    | .hostWord _ _ _ => false
    | .fab p _ => resetWaits s (fabOrigin p)
  gate && (match e.1 with
    | .staging => jRoom s || !nvOn s
    | .gather => !s.cnt.busy
    | .reset => !waits
    | .fence => !s.sys.fenceBusy
    | .stitch => s.sys.stitch.isNone
    | .turn => true)

/-- Takes a waiting access up again. -/
def heldRun (s : State) : Held → State
  | .host ha hd =>
    match hostGate s ha.toNat with
    | .serve => hostResult s ha hd (hostPerform s ha.toNat hd)
    | _ => hostEnd s
  | .hostWord b i v =>
    match hostGate s 0x0A with
    | .serve =>
      (match winWrite s b.toNat i.toNat v with
      | .done t => hostEnd t
      | .refused t _ => hostEnd t
      | .later t => t
      | .wait w => sysMod s (fun y => { y with held := y.held ++ [(w, .hostWord b i v)] }))
    | _ => hostEnd s
  | .fab p k => sysWriteFrom s p k (p.data.drop k)

/-- Takes up, oldest first, the accesses whose wait is over. -/
def heldPump : Nat → State → State
  | 0, s => s
  | n + 1, s =>
    match s.sys.held.find? (heldReady s) with
    | none => s
    | some e => heldPump n (heldRun (sysMod s (fun y => { y with held := y.held.erase e })) e.2)

/-- What every command that may have ended a wait leaves to be done: moves, the patrol, a PORT reset whose domain has settled, and the
accesses that waited. -/
def settle (s : State) : State := heldPump 300 (portRstGo (upkeep s))

end Sys2Proof.Machine
end

