-- ==== Sys2Proof/Machine/BobRows.lean ====
section
/-!
DEFINITION. BOB and COL as agents (10, 16): the words of a bobbin, what reads and writes of them do, and the store of gathered counters.
-/
namespace Sys2Proof.Machine

/-! ## Addresses and checks (R225 to R227, R473) -/

def bobOf (addr : BitVec 30) : Nat := byteAddr addr / 256 % 64
def bobWordIx (addr : BitVec 30) (k : Nat) : Nat := (byteAddr addr / 4 + k) % 64

/-- R225: the words that take a write. -/
def bobWritable (w : Nat) : Bool := [0, 1, 2, 3, 5, 6].contains w || (decide (0x0F ≤ w) && decide (w ≤ 0x17))

/-- R226: lanes not written are 0. -/
def bobData (u : DataUnit) : Word := u.data &&& laneMask u.be

/-- R227: is the requester the owner: on BOB's own chip, at the owner port's node? -/
def bobOwns (s : State) (b : Nat) (p : Pkt) : Bool :=
  decide (p.schip = s.chipnum) && decide (p.snode = portNode (bOwner (bcfg s b)))

/-- R234, R239: is the requester the holder of the lock? -/
def bobHolds (s : State) (b : Nat) (p : Pkt) : Bool :=
  match (bobGet s b).lock with
  | some l => decide (l.schip = p.schip) && decide (l.cid = p.cid) && !p.snode.getLsbD 0
  | none => false

/-- R225, R226, R239, R473: what a READ or WRITE is answered DECERR for, whatever the requester's rights. -/
def bobBad (s : State) (p : Pkt) : Bool :=
  decide (16384 ≤ byteAddr p.addr) || !bobOn s (bobOf p.addr) ||
  (match opOf p.cmd with
   | .read n => decide (1 < n) && (List.range n).any (fun k => decide (bobWordIx p.addr k = 0))
   | .write _ => (p.data.zipIdx).any (fun e => decide (e.1.be ≠ 0) &&
       (!bobWritable (bobWordIx p.addr e.2) || (decide (bobWordIx p.addr e.2 = 0) && decide (bobData e.1 ≠ 0))))
   | _ => true)

/-! ## Reads (R235 to R238, R245) -/

/-- R238: the value of LOCK for a requester. -/
def lockWord (s : State) (b : Nat) (p : Pkt) : Word :=
  match (bobGet s b).lock with
  | none => 0
  | some _ => if bobHolds s b p then 0 else 0xFF#8 ++ 0#15 ++ holderCode (bobGet s b)

/-- R238: a client that reads a free lock takes it; an agent does not. -/
def lockTake (s : State) (b : Nat) (p : Pkt) : State :=
  if p.snode.getLsbD 0 then s
  else bobMod s b (fun x => match x.lock with
    | none => { x with lock := some { schip := p.schip, snode := p.snode, cid := p.cid } }
    | some _ => x)

def bobReadWord (s : State) (b : Nat) (p : Pkt) (w : Nat) : Word :=
  let x := bobGet s b
  if w = 0 then lockWord s b p
  else if w = 1 then bobStat x
  else if w = 2 then x.bell.setWidth 32
  else if w = 4 then rxHeadWord x
  else if 0x18 ≤ w ∧ w ≤ 0x1F then rxWord x (w - 0x18)
  else 0

/-- R225, R238: a READ; of LOCK, it may take the lock. -/
def bobRead (s : State) (p : Pkt) (n : Nat) : State :=
  let b := bobOf p.addr
  let ds := (List.range n).map (fun k => goodUnit (bobReadWord s b p (bobWordIx p.addr k)) 0xF)
  respond (if n = 1 ∧ bobWordIx p.addr 0 = 0 then lockTake s b p else s) p .ok ds

/-! ## Writes (R230 to R234, R236, R239, R243, R245) -/

/-- R231: a sender's START. -/
def txStart (s : State) (b : Nat) (schip cid : Byte) (d : Word) : State × Status :=
  let lk := bLocked (bcfg s b)
  let x := bobGet s b
  let need := fieldNat d 0 3 + 1
  let other := match x.asm with | some a => !(decide (a.schip = schip) && decide (a.cid = cid)) | none => false
  let y : Bobbin := { x with asm := none, coll := x.coll || other }
  let fits := fun (z : Bobbin) => decide (need ≤ bobFreeW z) && decide (z.msgs.length < 32)
  let asm : Asm := { schip := schip, cid := cid, lenM1 := d.extractLsb' 0 3, dbbit := d.extractLsb' 3 4, stag := d.extractLsb' 8 8, words := [] }
  if lk then
    if fits y then (bobSet s b { y with asm := some asm }, .ok) else (bobSet s b y, .decerr)
  else
    let k := ((List.range 33).find? (fun i => fits { y with msgs := y.msgs.drop i })).getD 32
    (bobSet s b { y with msgs := y.msgs.drop k, coll := y.coll || decide (0 < k), asm := some asm }, .ok)

/-- R232, R233: a TXDATA word; with the last one the message commits and its doorbell bit is set. -/
def txWord (s : State) (b : Nat) (schip cid : Byte) (d : Word) : State × Status :=
  let x := bobGet s b
  match x.asm with
  | none => (s, .flushed)
  | some a =>
    if a.schip ≠ schip ∨ a.cid ≠ cid then (s, .flushed)
    else if a.words.length < a.lenM1.toNat then (bobSet s b { x with asm := some { a with words := a.words ++ [d] } }, .ok)
    else
      let m : Msg := { lenM1 := a.lenM1, seq := x.seq, stag := a.stag, scid := a.cid, schip := a.schip, words := a.words ++ [d] }
      let s1 := bump (bobSet s b { x with asm := none, msgs := x.msgs ++ [m], seq := x.seq + 1 }) .sys yBOBCOMMIT
      (bellSet s1 b (1 <<< a.dbbit.toNat), .ok)

/-- How the write of one BOB word ends: a status, or a wait for staging. -/
inductive BRes where
  | st (s : State) (r : Status)
  | wait
  deriving DecidableEq, Repr

/-- R234, R227: refused as not the owner or the holder. -/
def bobRefuse (s : State) (p : Pkt) : BRes := .st (refuse s (refusedCid (fabOrigin p)) whyOWNER) .rights

/-- R243: the owner's FLUSH, which is journaled. -/
def bobFlushWrite (s : State) (b : Nat) (p : Pkt) (d : Word) : BRes :=
  if d.getLsbD 0 = false then .st s .ok
  else if nvOn s && !jRoom s then .wait
  else if !jRoom s then .st (timeMod s (fun t => { t with jqfull := true })) .ok
  else
    let s1 := bobFlush s b
    .st (jOrigin s1 (fabOrigin p) (tidBobbin 0 b) ((bobGet s1 b).epoch.setWidth 32)) .ok

/-- One word written; the form has been checked. -/
def bobWriteWord (s : State) (b : Nat) (p : Pkt) (w : Nat) (d : Word) : BRes :=
  let own := bobOwns s b p
  match w with
  | 0 => if bobHolds s b p then .st (lockFree s b) .ok else bobRefuse s p
  | 1 => if own then .st (if d.getLsbD 16 then bobMod s b (fun x => { x with coll := false }) else s) .ok else bobRefuse s p
  | 2 => .st (bellSet s b (d.extractLsb' 0 16)) .ok
  | 3 => if own then .st (bellClear s b (d.extractLsb' 0 16)) .ok else bobRefuse s p
  | 5 => if own then .st (bobDone s b (d.extractLsb' 4 4)) .ok else bobRefuse s p
  | 6 => if own then bobFlushWrite s b p d else bobRefuse s p
  | _ =>
    if bLocked (bcfg s b) && !bobHolds s b p then bobRefuse s p
    else
      let r := if w = 0x0F then txStart s b p.schip p.cid d else txWord s b p.schip p.cid d
      .st r.1 r.2

/-- R232: the words of a write in address order from word k on. A discarded word lets the next ones be tried; any other refusal stops
the write there. -/
def bobWriteFrom (s : State) (p : Pkt) (k : Nat) (lost : Bool) : List DataUnit → Option State
  | [] =>
    some (respond (if lost then bump s .sys yBOBFLUSHED else s) p (if lost then .flushed else .ok) [])
  | u :: us =>
    if u.be = 0 then bobWriteFrom s p (k + 1) lost us
    else
      match bobWriteWord s (bobOf p.addr) p (bobWordIx p.addr k) (bobData u) with
      | .wait => none
      | .st t .ok => bobWriteFrom t p (k + 1) lost us
      | .st t .flushed => bobWriteFrom t p (k + 1) true us
      | .st t r => some (respond t p r [])

/-- What BOB does with a request it takes; none: it must wait for staging, and stays where it is. -/
def bobPerform (s : State) (p : Pkt) : Option State :=
  match reqCheck p with
  | .discard => some s
  | .answer st => some (respond s p st [])
  | .perform =>
    let right := holdsRight s (fabOrigin p) rBOBBIN
    let deny := respond (refuse s (refusedCid (fabOrigin p)) (BitVec.ofNat 4 rBOBBIN)) p .rights []
    match opOf p.cmd with
    | .probe => some (if 16384 ≤ byteAddr p.addr then respond s p .decerr [] else if right then respond s p .ok [] else deny)
    | .fence =>
      some (if 16384 ≤ byteAddr p.addr then respond s p .decerr []
            else if right then agentFence s nodeBob p else deny)
    | op =>
      if bobBad s p then some (respond s p .decerr [])
      else if !right then some deny
      else
        match op with
        | .read n => some (bobRead s p n)
        | _ => bobWriteFrom s p 0 false p.data

/-- BOB takes the oldest request of a network, when `sel` holds of it. -/
def bobTake (s : State) (net : Net) (sel : Pkt → Bool) : State :=
  if sysOn s = false then s
  else
    match rxHead s nodeBob net with
    | none => s
    | some p =>
      if sel p = false then s
      else
        match bobPerform (rxDrop s nodeBob net) p with
        | some t => settle t
        | none => s

/-! ## COL (R390) -/

/-- COL answers READs of the store, and every write with DECERR. -/
def colPerform (s : State) (p : Pkt) : State :=
  match reqCheck p with
  | .discard => s
  | .answer st => respond s p st []
  | .perform =>
    match opOf p.cmd with
    | .read n =>
      let i := byteAddr p.addr / 4
      respond s p .ok ((List.range n).map (fun k =>
        goodUnit (if bankHas 0x86 (i + k) && decide (i + k < 0x500) then bankWord s (fabOrigin p) 0x86 (i + k) else 0) 0xF))
    | .probe => respond s p .ok []
    | .fence => agentFence s nodeCol p
    | _ => respond s p .decerr []

def colTake (s : State) (net : Net) (sel : Pkt → Bool) : State :=
  if sysOn s = false then s
  else
    match rxHead s nodeCol net with
    | none => s
    | some p => if sel p then colPerform (rxDrop s nodeCol net) p else s

/-! ## Rows -/

/-- A write to BOB of which some word, with lanes written, has index `w`. -/
def bobNames (p : Pkt) (sel : Nat → Bool) : Bool :=
  match opOf p.cmd with
  | .write _ => (p.data.zipIdx).any (fun e => decide (e.1.be ≠ 0) && sel (bobWordIx p.addr e.2))
  | _ => false

/-- A one-word READ of LOCK. -/
def execLockRead (s : State) : Res :=
  .next (bobTake s .req (fun p => decide (opOf p.cmd = .read 1) && decide (bobWordIx p.addr 0 = 0)))

def execLockRelease (net : Net) (s : State) : Res := .next (bobTake s net (fun p => bobNames p (fun w => decide (w = 0))))
def execTxstart (net : Net) (s : State) : Res := .next (bobTake s net (fun p => bobNames p (fun w => decide (w = 0x0F))))
def execTxdata (net : Net) (s : State) : Res :=
  .next (bobTake s net (fun p => bobNames p (fun w => decide (0x10 ≤ w) && decide (w ≤ 0x17))))
def execRxdone (net : Net) (s : State) : Res := .next (bobTake s net (fun p => bobNames p (fun w => decide (w = 5))))
def execFlush (net : Net) (s : State) : Res := .next (bobTake s net (fun p => bobNames p (fun w => decide (w = 6))))
def execBobStatWrite (net : Net) (s : State) : Res := .next (bobTake s net (fun p => bobNames p (fun w => decide (w = 1))))
def execDoorbellWrite (net : Net) (s : State) : Res := .next (bobTake s net (fun p => bobNames p (fun w => decide (w = 2))))
def execDbclr (net : Net) (s : State) : Res := .next (bobTake s net (fun p => bobNames p (fun w => decide (w = 3))))

end Sys2Proof.Machine
end

