-- ==== Sys2Proof/Machine/PowerRows.lean ====
section
/-!
DEFINITION. The rows of supply, ladders, domains, time and faults (07, 11 to 14, 18): what pins, timers and rails do to the chip. The
timers of the spec that count to an expiry are commands of the outside: assumption 18.
-/
namespace Sys2Proof.Machine

/-! ## Domains (R263, R269, R272, R274, R276, R341) -/

/-- R263: WAKEHOLD ms have passed since the domain reached ON. -/
def execWakeHoldExpiry (d : Fin 64) (s : State) : Res :=
  let x := domGet s d.val
  if x.hold && decide (x.st = .on) then .next (settle (evalDom (domMod s d.val (fun y => { y with hold := false })) d.val)) else .next s

/-- May domain d be hemmed to its end now? -/
def hemDone (s : State) (d : Nat) : Bool :=
  let x := domGet s d
  decide (x.st = .hemming) && decide (x.hem = .drain) && (if d < 64 then portDrained s d else decide (seamHeld s = 0))

def execHemDrainDone (d : Fin 68) (s : State) : Res := if hemDone s d.val then .next (settle (domOff s d.val false)) else .next s

/-- R272, R276: DRAINTO after step 1 the drain is ended; the DRAIN fault is raised. -/
def drainEnd (s : State) (d : Nat) : State :=
  let s1 := if d < 64 then sendFail (finishPort s d .isolated) d else discardHeld (discardHeld s .a) .b
  raiseFault (domOff s1 d true) d fDRAIN 0

def execDraintoExpiry (d : Fin 68) (s : State) : Res :=
  let x := domGet s d.val
  if decide (x.st = .hemming) && decide (x.hem = .drain) then .next (settle (drainEnd s d.val)) else .next s

def execWakeHoldoffExpiry (d : Fin 64) (s : State) : Res :=
  if (domGet s d.val).holdOff then .next (settle (evalDom (domMod s d.val (fun y => { y with holdOff := false })) d.val)) else .next s

/-- R341, R431: one response timeout since the declaration or the reset has passed. -/
def execPortQuietExpiry (n : Fin 64) (s : State) : Res :=
  if (portGet s n.val).quiet then .next (settle (evalDom (portMod s n.val (fun p => { p with quiet := false })) n.val)) else .next s

/-- R332, R333: the target timer runs while a request or a replay is performed. -/
def execTargetTimeout (n : Fin 64) (s : State) : Res :=
  let p := portGet s n.val
  let replays := match p.replay with | some r => r.running | none => false
  if p.tgt.isSome || replays then .next (settle (portDie s n.val fRESPTO 0)) else .next s

/-- R160, R163: the watchdog runs while the port's domain is ON, and until its clamps in hemming. -/
def execClockStopped (n : Fin 64) (s : State) : Res :=
  let x := domGet s n.val
  if decide (x.st = .on) || decide (x.st = .hemming) then .next (settle (portDie s n.val fCLKSTOP 0)) else .next s

/-! ## The regulator link (R281 to R286, R291, R296) -/

/-- R292: the chip's regulator rung is ready; the oscillator rung starts, but not during a hush (R303). -/
def regRungDone (s : State) : State :=
  match s.power.mode with
  | .ladder why _ =>
    if s.power.hush then powMod s (fun p => { p with req := none, regDone := true })
    else powMod s (fun p => { p with req := none, regDone := false, mode := .ladder why 1 })
  | _ => powMod s (fun p => { p with req := none })

/-- R283: does this read acknowledge the request? -/
def pollAcks (s : State) (ack : Bool) (status : Half) : Bool := ack && s.power.pgoodRun && decide (status &&& 0xE8FE = 0)

/-- R283: a STATUS_WORD read ends; the next starts at once. -/
def execRegulatorPoll (ack : Bool) (status : Half) (s : State) : Res :=
  let p := s.power
  match p.req with
  | none => .next s
  | some q =>
    let s1 := powMod s (fun y => { y with pgoodRun := p.pgoodNow, lastWord := if ack then status else p.lastWord })
    if pollAcks s ack status then
      match q with
      | .move _ new => .next (settle (endMove s1 new))
      | .ladder _ => .next (regRungDone s1)
    else .next s1

/-- R291: the move is abandoned. -/
def moveFail (s : State) : State :=
  let s1 := setPstate s (fun p => { p with req := none, second := false, bias := .zero, assist := true, code := p.lvl })
  raiseFault s1 srcCHIP fREGLINK s.power.lastWord

/-- R295, R296: the chip's regulator rung failed: OPERATION 0x00, and DEEP, or tacking goes on. -/
def ladderFail (s : State) (why : LadderWhy) : State :=
  let s1 := raiseFault (powMod s (fun p => { p with req := none, second := false, operOn := false })) srcCHIP fREGRUNG 0
  match why with
  | .patrol => patrolOver (timeMod s1 (fun t => { t with mabandon := true }))
  | _ => powMod s1 (fun p => { p with mode := .deep, cur := 0, lvl := if p.limp then p.lvl else 0, ladderBad := true, assist := false,
                                      bias := .zero })

/-- R284: REGTO has passed: one more attempt, then the request has failed. -/
def execRegtoExpiry (s : State) : Res :=
  match s.power.req with
  | none => .next s
  | some q =>
    if s.power.second = false then .next (powMod s (fun p => { p with second := true, pgoodRun := p.pgoodNow }))
    else
      match q, s.power.mode with
      | .move _ _, _ => .next (settle (moveFail s))
      | .ladder _, .ladder why _ => .next (settle (ladderFail s why))
      | _, _ => .next (powMod s (fun p => { p with req := none }))

/-- R285: RALERT_N falls, and STATUS_WORD is read once. -/
def execRalert (status : Half) (s : State) : Res :=
  if s.power.alertLow ∨ s.power.mode = .unpowered then .next s
  else
    let s1 := powMod s (fun p => { p with alertLow := true, alertGot := true, lastWord := status })
    .next (if status &&& 0xE8FE = 0 then s1 else raiseFault s1 srcCHIP fREGLINK status)

def execRalertRelease (s : State) : Res := .next (powMod s (fun p => { p with alertLow := false, alertGot := false }))

/-- R283, R286: RPGOOD changes; a low level spoils the read in progress. -/
def execRpgoodChange (level : Bool) (s : State) : Res :=
  .next (powMod s (fun p => { p with pgoodNow := level, pgoodRun := p.pgoodRun && level }))

/-! ## Rungs (R292, R293, R295, R298, R310) -/

/-- R293, R310: the chip ladder is over: the timestamp starts, and the core ladders with it. -/
def chipLadderDone (s : State) (why : LadderWhy) : State := startCore (timeMod s (fun t => { t with ts := 0 })) why

def execRungReady (sub : Subject) (s : State) : Res :=
  match sub with
  | .chip =>
    (match s.power.mode with
    | .ladder why 1 => .next (if s.power.hush then s else chipLadderDone s why)
    | _ => .next s)
  | .dom d =>
    let x := domGet s d.val
    if decide (x.st ≠ .waking) || x.rest then .next s
    else
      match nextRung d.val x.rung with
      | some r => .next (if s.power.hush then s else domMod s d.val (fun y => { y with rung := r, retried := false }))
      | none => .next (settle (domUp s d.val))

/-- R295, R298. -/
def execRungTimeout (sub : Subject) (s : State) : Res :=
  match sub with
  | .chip =>
    (match s.power.mode with
    | .ladder why 1 =>
      .next (if s.power.hush then s else startCore (raiseFault (enterLimp s) srcCHIP fOSCRUNG 0) why)
    | _ => .next s)
  | .dom d =>
    let x := domGet s d.val
    let core := decide (d.val = 64) || decide (66 ≤ d.val)
    if decide (x.st ≠ .waking) || x.rest then .next s
    else if x.retried = false ∧ x.rung = 0 then .next (domMod s d.val (fun y => { y with rest := true, retried := true }))
    else if x.retried = false ∧ core = true then .next (domMod s d.val (fun y => { y with retried := true }))
    else .next (settle (domBroken s d.val x.rung))

def execRungRetry (sub : Subject) (s : State) : Res :=
  match sub with
  | .chip => .next s
  | .dom d =>
    if (domGet s d.val).st = .waking ∧ (domGet s d.val).rest = true ∧ s.power.hush = false then
      .next (domMod s d.val (fun y => { y with rest := false }))
    else .next s

/-- R298: loss of lock after the oscillator rung. -/
def execPllLoss (s : State) : Res :=
  let later := match s.power.mode with | .up | .core _ | .chipFault => true | _ => false
  if later = false ∨ s.power.limp = true then .next s
  else
    let s1 := raiseFault (enterLimp s) srcCHIP fPLLLOSS 0
    .next (settle ((List.range 64).foldl (fun t n => if domOn t n && clkSynth t n then portDie t n fCLKSTOP 0 else t) s1))

/-! ## Supplies (R300 to R308, R335) -/

/-- R301: the VCORE comparators are enabled. -/
def vcoreOn (s : State) : Bool :=
  match s.power.mode with
  | .up | .core _ | .chipFault => true
  | .ladder _ r => decide (1 ≤ r.toNat)
  | _ => false

/-- R303: a rail falls below its warning level. -/
def execSupplyWarning (vcore vaon : Bool) (s : State) : Res :=
  let vc := vcore && vcoreOn s
  if s.power.mode = .unpowered ∨ (vc = false ∧ vaon = false) then .next s
  else .next (powMod s (fun p => { p with vcWarn := p.vcWarn || vc, aonWarn := p.aonWarn || vaon, hush := true,
                                          hushAon := if p.hush then p.hushAon else vaon }))

/-- R305: the value of the hush entry. -/
def hushValue (rail : Bool) (minv : BitVec 11) (duration : BitVec 20) : Word := BitVec.ofBool rail ++ minv ++ duration

/-- R303, R305: ladders and moves that waited for the end of the hush. -/
def hushResume (s : State) : State :=
  let s1 := match s.power.mode with
    | .ladder why 0 =>
      if s.power.req.isSome then s
      else if s.power.regDone then powMod s (fun p => { p with regDone := false, mode := .ladder why 1 })
      else sendVolt s (.ladder (ladderCode why)) (ladderCode why).toNat
    | _ => s
  let s2 := if decide (s.power.mode = .up) && s.sys.busy && decide ((domGet s1 66).st = .off) then
      domMod s1 66 (fun x => { x with st := .waking, rung := 0, retried := false, rest := false }) else s1
  seamPumps (evalDoms s2)

def execHushEnd (minv : BitVec 11) (duration : BitVec 20) (s : State) : Res :=
  let p := s.power
  if p.hush = false then .next s
  else
    let s1 := powMod s (fun q => { q with hush := false, vcWarn := false, aonWarn := false, seen := true,
                                          browns := if q.browns = 255 then 255 else q.browns + 1 })
    let s2 := if p.seen then s1 else raiseEvent s1 evBROWN
    let s3 := jHw s2 kHARDWARE (tidHost 0x1B) (hushValue p.hushAon minv duration) false
    .next (settle (hushResume s3))

/-- R306: a power-on reset of every switchable domain; a hush of VAON goes on, one of VCORE leaves no entry. -/
def execVcoreReset (s : State) : Res :=
  if vcoreOn s then
    .next (startUp (powMod (wideReturn s false false false false) (fun p => { p with hush := p.aonWarn, vcWarn := false })) 2)
  else .next s

def execVnvWarning (s : State) : Res :=
  if s.power.mode = .unpowered then .next s else .next (powMod s (fun p => { p with nvWarn := true }))

def execVnvRecover (s : State) : Res := .next (settle (powMod s (fun p => { p with nvWarn := false })))

def vioSet (s : State) (k : Nat) (low : Bool) : State := powMod s (fun p => { p with vioLow := tset (fun _ => false) p.vioLow k low })

/-- R335: every port of the bank that is not OFF dies. -/
def execVioLow (k : Fin 8) (s : State) : Res :=
  if vioIsLow s k.val ∨ s.power.mode = .unpowered then .next s
  else
    .next (settle ((List.range 64).foldl (fun t n =>
      if decide (vioBank n = k.val) && decide ((domGet t n).st ≠ .off) then portDie t n fVIOLOW (BitVec.ofNat 16 k.val) else t)
      (vioSet s k.val true)))

def execVioRecover (k : Fin 8) (s : State) : Res := .next (vioSet s k.val false)

/-! ## Power-on and RESET_N (R306, R370, R425, R426, R428) -/

/-- R366, R370: VAON falls: staging is lost, and the entry being written is torn. -/
def powerFall (s : State) : State :=
  let s1 := match s.jrn.staging with
    | e :: _ =>
      if nvOn s && !s.power.hush && !s.power.nvWarn then
        let d := freeDraw s
        let old := arrGet s s.jrn.head.toNat
        let new := entryBits e (passOdd s)
        arrPut d.2 s.jrn.head.toNat ((old &&& d.1) ||| (new &&& ~~~ d.1))
      else s
    | [] => s
  powMod (jrnMod s1 (fun j => { j with staging := [], queue := [], waiting := [], lastTs := none }))
    (fun p => { p with mode := .unpowered, req := none, hush := false })

/-- R425, R428, R436: VAON rises: the array and its header are all that is kept. -/
def powerRise (s : State) : State :=
  startUp { State.reset with
    pending := s.pending, freeCount := s.freeCount,
    jrn := { Journal.reset with array := s.jrn.array, head := s.jrn.head, passes := s.jrn.passes, vfail := s.jrn.vfail,
                                hdrHead := s.jrn.hdrHead, hdrPass := s.jrn.hdrPass, level := s.jrn.level } } 0

def execPowerOn (rise : Bool) (s : State) : Res :=
  if rise then .next (if s.power.mode = .unpowered then powerRise s else s)
  else .next (if s.power.mode = .unpowered then s else powerFall s)

/-- The chip is held: every switchable domain in reset, the bypass closed. -/
def heldReset (s : State) : State :=
  let s1 := wideReturn s true true true true
  powMod ([64, 65, 66, 67].foldl (fun t d => domMod t d (fun x => { x with st := .off })) s1) (fun p => { p with mode := .held })

def execResetPin (s : State) : Res :=
  if s.power.mode = .unpowered then .next s else .next (powMod (heldReset s) (fun p => { p with rstLow := true }))

/-- R426, R428: RESET_N rises; a test instruction of the TAP goes on holding the chip (R460). -/
def execResetRelease (s : State) : Res :=
  if s.power.rstLow = false then .next s
  else
    let s1 := powMod s (fun p => { p with rstLow := false })
    .next (if s.tap.test then s1 else startUp s1 1)

/-! ## Time (R312, R314, R318, R323, R327, R329) -/

/-- R312: the RTC advances by 1/1024 s. -/
def rtcAdvance (t : Time) : Time :=
  if t.rtcFr = 1023 then { t with rtcSec := t.rtcSec + 1, rtcFr := 0, rtcHalt := false }
  else { t with rtcFr := t.rtcFr + 1, rtcHalt := false }

/-- R327: the interval between patrols; one that falls due in a patrol waits for the first step after its end. -/
def patrolCount (s : State) (fired : Bool) : State :=
  let tint := (cfgGet s 0x83 0).extractLsb' 0 16
  if s.power.mode = .tacking ∨ s.time.patrol.isSome = true then
    let n := s.time.sinceDue.toNat + 1
    if n < tint.toNat then timeMod s (fun t => { t with sinceDue := BitVec.ofNat 16 n })
    else if s.power.mode = .tacking then timeMod s (fun t => { t with sinceDue := 0, due := t.due || !fired })
    else s
  else s

def execRtcStep (s : State) : Res :=
  if s.power.mode = .unpowered then .next s
  else
    let s1 := timeMod s rtcAdvance
    let s2 := if s1.time.rtcSec ≠ s.time.rtcSec ∧ s1.time.rtcSec ≠ 0 ∧ s1.time.rtcSec.toNat % 3600 = 0 ∧ nvOn s = true then
        anchor s1 aHOURLY else s1
    let due := s2.time.armed && decide ((s2.time.alSec ++ s2.time.alFr : BitVec 42) ≤ s2.time.rtcSec ++ s2.time.rtcFr)
    .next (settle (alarmCompare (patrolCount s2 due)))

/-- R324 step 1: a patrol that fell due starts, but not in a hush. -/
def execPatrolDue (s : State) : Res :=
  if decide (s.power.mode = .tacking) && s.time.due && !s.power.hush then .next (patrolStart s) else .next s

/-- R323: the answer to the step's READ is taken; a status other than OK sets ERR. -/
def execTackReadDone (s : State) : Res :=
  match s.time.patrol, s.time.tackRes with
  | some (.reading k), some (st, w) =>
    let s1 := timeMod s (fun t => { t with tackRes := none })
    if st = .ok then .next (settle (tackTest s1 k w))
    else .next (settle (tackNext (timeMod s1 (fun t => { t with merr := true })) k))
  | _, _ => .next s

/-- R329. -/
def execRtcStopDetect (s : State) : Res :=
  if tsRuns s && !s.time.rtcHalt then
    .next (raiseFault (timeMod s (fun t => { t with rtcstop := true, rtcHalt := true })) srcCHIP fRTCSTOP 0)
  else .next s

end Sys2Proof.Machine
end

