-- ==== Sys2Proof/Machine/CmdRows.lean ====
section
/-!
DEFINITION. Rows of the fabric command family (03, 05, 06): requests as they arrive at a target port or an agent, responses as they
arrive at an initiator, tag timers.
-/
namespace Sys2Proof.Machine

/-! ## Requests arriving at a node -/

/-- What sits at a node and takes requests: a port's NI, SYS, BOB or COL; nothing else does (R11). -/
inductive Server where
  | port (n : Nat) | sys | bob | col | none
  deriving DecidableEq, Repr

def serverOf (node : BitVec 7) : Server :=
  if nodeSlotB node = false then .port (nodeRouter node)
  else if node = nodeSys then .sys
  else if node = nodeBob then .bob
  else if node = nodeCol then .col
  else .none

/-- The network whose oldest request at the node is one that `sel` names: REQ before DAT. R45 gives the codes of both. -/
def netWith (s : State) (node : BitVec 7) (sel : Op → Bool) : Net :=
  match (nodeGet s node .req).rx with
  | p :: _ => if sel (opOf p.cmd) then .req else .dat
  | [] => .dat

/-- An agent takes the oldest request of a network, when `sel` holds of its command. -/
def agentTake (s : State) (node : BitVec 7) (net : Net) (sel : Op → Bool) : State :=
  match serverOf node with
  | .sys => settle (sysTake s net (fun p => sel (opOf p.cmd)))
  | .bob => bobTake s net (fun p => sel (opOf p.cmd))
  | .col => colTake s net (fun p => sel (opOf p.cmd))
  | _ => s

def execCmdRead (node : BitVec 7) (busyN : Bool) (s : State) : Res :=
  let net := netWith s node isReadOp
  match serverOf node with
  | .port n => .next (portRead s n net busyN)
  | _ => .next (agentTake s node net isReadOp)

/-- A WRITE, or a request whose CMD is reserved. -/
def execCmdWrite (node : BitVec 7) (net : Net) (busyN : Bool) (s : State) : Res :=
  match serverOf node with
  | .port n => .next (portWrite s n net busyN)
  | _ => .next (agentTake s node net isWriteOp)

/-- R135, R136: an atomic; agents answer it DECERR. -/
def atomicTake (op : Op) (node : BitVec 7) (busyN : Bool) (dev : List DevBeat) (s : State) : State :=
  let net := netWith s node (fun o => decide (o = op))
  match serverOf node with
  | .port n => portAtomic s n net op busyN dev
  | _ => agentTake s node net (fun o => decide (o = op))

def execCmdSwap (node : BitVec 7) (busyN : Bool) (dev : List DevBeat) (s : State) : Res := .next (atomicTake .swap node busyN dev s)
def execCmdFadd (node : BitVec 7) (busyN : Bool) (dev : List DevBeat) (s : State) : Res := .next (atomicTake .fadd node busyN dev s)
def execCmdTas (node : BitVec 7) (busyN : Bool) (dev : List DevBeat) (s : State) : Res := .next (atomicTake .tas node busyN dev s)
def execCmdCas (node : BitVec 7) (busyN : Bool) (dev : List DevBeat) (s : State) : Res := .next (atomicTake .cas node busyN dev s)

def execCmdProbe (node : BitVec 7) (s : State) : Res :=
  let net := netWith s node (fun o => decide (o = .probe))
  match serverOf node with
  | .port n => .next (portProbe s n net)
  | _ => .next (agentTake s node net (fun o => decide (o = .probe)))

/-- R47: at an agent too, a FENCE waits behind a write that DAT has delivered and the agent has not yet taken. -/
def execCmdFence (node : BitVec 7) (s : State) : Res :=
  let net := netWith s node (fun o => decide (o = .fence))
  match serverOf node with
  | .port n => .next (portFence s n net)
  | _ =>
    if net = .dat ∨ (nodeGet s node .dat).rx.isEmpty = true then .next (agentTake s node net (fun o => decide (o = .fence)))
    else .next s

def execFenceComplete (node : BitVec 7) (s : State) : Res :=
  match serverOf node with
  | .port n => if niServes s n then .next (portFenceDone s n) else .next s
  | _ => .next (agentFenceDone s node)

/-! ## Responses (R23, R50, R57, R79, R139, R140, R144) -/

/-- What the initiator makes of a response to the command of a HELD tag. -/
inductive Verdict where
  | poison (malformed : Bool)
  | done (st : Status) (ws : List Word)
  deriving DecidableEq, Repr

/-- R50, R57: malformed for the command `cmd`; the kind is checked only with OK. -/
def malformedRsp (cmd : BitVec 6) (p : Pkt) : Bool :=
  !p.formed || p.hasAddr ||
  (match statusOf (p.cmd.extractLsb' 0 4) with
   | none => true
   | some .ok => decide (p.cmd.extractLsb' 4 2 ≠ kindOf (opOf cmd)) || decide (p.data.length ≠ okUnits (opOf cmd))
   | some _ => decide (p.data.length ≠ 0))

/-- R23, R57: malformed and poisoned responses complete with POISON. -/
def rspVerdict (cmd : BitVec 6) (p : Pkt) : Verdict :=
  if malformedRsp cmd p then .poison true
  else if p.data.any (·.bad) then .poison false
  else .done ((statusOf (p.cmd.extractLsb' 0 4)).getD .poison) (p.data.map (·.data))

/-- R79: is port n's NI at work, so that it takes responses? -/
def niAlive (s : State) (n : Nat) : Bool :=
  let x := domGet s n
  !(portGet s n).dead && (decide (x.st = .on) || (decide (x.st = .hemming) && decide (x.hem = .drain)))

/-- R113, R144: is this answer no completion, but a wait: ASLEEP-WAKING, or ASLEEP through a window with WAKE? Never for a PROBE (R48). -/
def waitsOn (x : Tag) (st : Status) : Bool :=
  decide (opOf x.cmd ≠ .probe) && !x.pkt.isEmpty && (decide (st = .aslWaking) || (decide (st = .asleep) && x.wake))

/-- R144 step 3: on ASLEEP the wake is requested under the client of the access; in a hush no head leaves (R303), and the next
answer asks. -/
def wakeStep (s : State) (n : Nat) (t : Byte) (x : Tag) (st : Status) : State :=
  let s1 := portMod s n (fun p => { p with pool := tagPut p.pool t { x with retry := true } })
  if st = .asleep ∧ s.power.hush = false ∧ (portGet s n).quiet = false then
    match parsePkt x.pkt with
    | some q => wakeAsk s1 n t x q.cid
    | none => s1
  else s1

/-- The oldest response at port n. -/
def portMatch (s : State) (n : Nat) (p : Pkt) : State :=
  let x := tagAt (portGet s n).pool p.tag
  match x.st with
  | .free => bump s (.port n) pUNKTAG
  | .stale => bump (portMod s n (fun q => { q with pool := tagFree q.pool p.tag })) (.port n) pLATE
  | .held =>
    match rspVerdict x.cmd p with
    | .poison m => portTagDone (if m then bump s (.port n) pMALFORMED else s) n p.tag .poison []
    | .done st ws => if waitsOn x st then wakeStep s n p.tag x st else portTagDone s n p.tag st ws

/-- The oldest response at SYS. -/
def agentMatch (s : State) (p : Pkt) : State :=
  let x := tagAt s.sys.agents p.tag
  match x.st with
  | .free => s
  | .stale => sysMod s (fun y => { y with agents := tagFree y.agents p.tag })
  | .held =>
    match rspVerdict x.cmd p with
    | .poison _ => agentTagDone s p.tag .poison []
    | .done st ws => agentTagDone s p.tag st ws

/-- A response arrives at its initiator and is matched by its tag; a node that formed no request discards it. -/
def execResponseMatch (node : BitVec 7) (s : State) : Res :=
  match (nodeGet s node .rsp).rx with
  | [] => .next s
  | p :: _ =>
    let s1 := rxDrop s node .rsp
    match serverOf node with
    | .port n => if niAlive s n then .next (settle (pirqPump (portMatch s1 n p) n)) else .next s1
    | .sys => if sysOn s then .next (settle (agentMatch s1 p)) else .next s1
    | _ => .next s1

/-! ## TAG_TIMEOUT (R140) -/

/-- Has the head unit of a tag's packet left its node, so that the tag's timer runs? -/
def headDriven (s : State) (node : BitVec 7) (x : Tag) : Bool :=
  match x.pkt with
  | h :: _ => !(nodeGet s node x.net).out.contains h
  | [] => true

/-- The timer of a HELD tag expires. -/
def execTagTimeout (h : Holder) (tag : Byte) (s : State) : Res :=
  let x := tagAt (poolGet s h) tag
  if x.st ≠ .held then .next s
  else
    match h with
    | .port n =>
      if headDriven s (portNode n.val) x then .next (settle (pirqPump (portTagDone s n.val tag .timeout []) n.val)) else .next s
    | .agents => if headDriven s nodeSys x then .next (settle (agentTagDone s tag .timeout [])) else .next s

end Sys2Proof.Machine
end

