-- ==== Sys2Proof/Machine/HostRows.lean ====
section
/-!
DEFINITION. The rows of SYS: writes and reads of its registers and bank words by the host and from the fabric (06, 08, 10, 11, 13 to 18),
the journal's controller (15), gathers and bandwidth windows (16). A row whose access does not occur as it names leaves the state.
-/
namespace Sys2Proof.Machine

/-! ## Which word a write names -/

/-- The word and the data that a host write names. For ISOLATE it is ISOn of the port written, bit 0 GO. -/
def hostNames (s : State) (ha : BitVec 6) (hd : Half) : Option (Wd × Word) :=
  match ha.toNat with
  | 0x0A => if winHigh s then some (.bank (winB s) (winI s), winWord s hd) else none
  | 0x15 => some (.domcmd s.host.domsel.toNat, hd.setWidth 32)
  | 0x25 => some (.iso (fieldNat (hd.setWidth 32) 0 6), (hd >>> (6 : Nat) &&& 1).setWidth 32)
  | i => some (.reg i, hd.setWidth 32)

/-- Does a fabric write carry a word for which `sel` holds? -/
def fabNames (p : Pkt) (sel : Origin → Wd → Word → Bool) : Bool :=
  match opOf p.cmd with
  | .write _ =>
    (p.data.zipIdx).any (fun e => match flatWord (byteAddr p.addr + 4 * e.2) with
      | some wd => sel (fabOrigin p) wd e.1.data
      | none => false)
  | _ => false

/-- A write to a word for which `sel` holds: the host cycle on register `ha`, or the oldest fabric request at SYS. -/
def byWrite (s : State) (ha : BitVec 6) (sel : Origin → Wd → Word → Bool) : By → State
  | .host hd =>
    (match hostNames s ha hd with
    | some (wd, v) => if sel .host wd v then settle (hostWrite s ha hd) else s
    | none => s)
  | .fabric net => settle (sysTake s net (fun p => fabNames p sel))

/-- The oldest fabric request at SYS, a write to a word for which `sel` holds. -/
def fabWrite (s : State) (net : Net) (sel : Wd → Bool) : State := settle (sysTake s net (fun p => fabNames p (fun _ wd _ => sel wd)))

/-! ## Ports and the directory -/

def execPcfgWrite (n : Fin 64) (by_ : By) (s : State) : Res := .next (byWrite s 0x0A (fun _ wd _ => decide (wd = .bank n.val 0)) by_)

def execPclkWrite (n : Fin 64) (by_ : By) (s : State) : Res := .next (byWrite s 0x0A (fun _ wd _ => decide (wd = .bank n.val 1)) by_)

def execDirectoryWrite (c : Byte) (by_ : By) (s : State) : Res := .next (byWrite s 0x0A (fun _ wd _ => decide (wd = .bank 0x81 c.toNat)) by_)

def execPortrstNotice (net : Net) (s : State) : Res := .next (fabWrite s net (fun wd => decide (wd = .portRst)))

/-- R126, R340: GO for port n. -/
def execIsolateGo (n : Fin 64) (by_ : By) (s : State) : Res :=
  .next (byWrite s 0x25 (fun _ wd v => decide (wd = .iso n.val) && v.getLsbD 0) by_)

def execClrpeak (n : Fin 64) (by_ : By) (s : State) : Res :=
  .next (byWrite s 0x0A (fun _ wd v => decide (wd = .bank n.val 0xE4) && v.getLsbD 2) by_)

/-! ## The ring -/

def execRingctlLeave (by_ : By) (s : State) : Res := .next (byWrite s 0x2A (fun _ wd v => decide (wd = .reg 0x2A) && v.getLsbD 1) by_)

def execRingctlReform (by_ : By) (s : State) : Res := .next (byWrite s 0x2A (fun _ wd v => decide (wd = .reg 0x2A) && v.getLsbD 3) by_)

/-! ## Bobbins -/

def execBcfgWrite (b : Fin 64) (by_ : By) (s : State) : Res := .next (byWrite s 0x0A (fun _ wd _ => decide (wd = .bank 0x87 b.val)) by_)

def execHostBobFlush (hd : Half) (s : State) : Res := .next (if hd.getLsbD 9 then settle (hostWrite s 0x2E hd) else s)

def execHostBobDone (hd : Half) (s : State) : Res := .next (if hd.getLsbD 10 then settle (hostWrite s 0x2E hd) else s)

def execHostDoorbell (hd : Half) (s : State) : Res := .next (settle (hostWrite s 0x2F hd))

def execBobdataRead (s : State) : Res := .next (hostRead s 0x2D)

/-! ## Domains and power -/

def execVoteWrite (net : Net) (s : State) : Res := .next (fabWrite s net (fun wd => match wd with | .vote _ => true | _ => false))

/-- R257, R258: the interval of a voter on a domain ends. -/
def execVotePaceExpiry (voter : Fin 257) (d : Fin 64) (s : State) : Res :=
  if pacing s d.val voter.val then .next (settle (voteSettle 600 (paceSet s d.val voter.val false))) else .next s

def execHostVote (hd : Half) (s : State) : Res := .next (settle (hostWrite s 0x18 hd))

def execWakeRequest (net : Net) (s : State) : Res := .next (fabWrite s net (fun wd => decide (wd = .wakeReq)))

def execDomcmdWrite (d : Fin 68) (by_ : By) (s : State) : Res := .next (byWrite s 0x15 (fun _ wd _ => decide (wd = .domcmd d.val)) by_)

def execPstateWrite (by_ : By) (s : State) : Res := .next (byWrite s 0x13 (fun _ wd _ => decide (wd = .reg 0x13)) by_)

/-! ## Time -/

def execTime0Read (s : State) : Res := .next (hostRead s 0x0C)

def execRtcsec0Read (s : State) : Res := .next (hostRead s 0x0F)

def execRtcsec0Write (hd : Half) (s : State) : Res := .next (hostWrite s 0x0F hd)

def execRtcsec1Write (hd : Half) (s : State) : Res := .next (settle (hostWrite s 0x10 hd))

def execAlarm0Read (s : State) : Res := .next (hostRead s 0x11)

def execAlarm0Write (hd : Half) (s : State) : Res := .next (hostWrite s 0x11 hd)

def execAlarm1Write (hd : Half) (s : State) : Res := .next (settle (hostWrite s 0x12 hd))

def execRtcsecsWrite (net : Net) (s : State) : Res := .next (fabWrite s net (fun wd => decide (wd = .rtcSecs)))

def execAlarmsecsWrite (net : Net) (s : State) : Res := .next (fabWrite s net (fun wd => decide (wd = .alarmSecs)))

def execAlarmDisarm (by_ : By) (s : State) : Res :=
  .next (byWrite s 0x0A (fun _ wd v => decide (wd = .bank 0x83 3) && v.msb) by_)

/-! ## Basting and the journal -/

def execBasteWrite (by_ : By) (s : State) : Res :=
  .next (byWrite s 0x0A (fun _ wd _ => match wd with | .bank b i => isBasted b i | _ => false) by_)

def execStitch (by_ : By) (s : State) : Res :=
  .next (byWrite s 0x0A (fun _ wd v => decide (wd = .bank 0x88 0) && decide (fieldNat v 0 2 = 1)) by_)

def execAbandon (by_ : By) (s : State) : Res :=
  .next (byWrite s 0x0A (fun _ wd v => decide (wd = .bank 0x88 0) && decide (fieldNat v 0 2 = 2)) by_)

/-- Does this waiting access stand on the host's side? -/
def heldHost (e : Wait × Held) : Bool := match e.2 with | .fab _ _ => false | _ => true

/-- R367: the waiting accesses that may be admitted: with both sides stalled, the side that was not admitted last. -/
def admissible (s : State) : List (Wait × Held) :=
  let l := s.sys.held.filter (fun e => decide (e.1 = .staging))
  if l.any heldHost && l.any (fun e => !heldHost e) then l.filter (fun e => heldHost e != s.sys.admitHost) else l

/-- R366, R367: a place is free: hardware changes that wait enter first, then a STITCH, then one of the stalled accesses, which one is
not specified: the command names it. -/
def admitOne (s : State) (pick : Nat) : State :=
  let s1 := stitchRun (admitHw 80 s)
  let l := admissible s1
  match l[pick % l.length]? with
  | some e =>
    if jRoom s1 then heldRun (sysMod s1 (fun y => { y with held := y.held.erase e, admitHost := heldHost e })) e.2 else s1
  | none => s1

/-- R368 to R370: the controller writes the oldest staged entry at the head and reads it back. What an index that fails holds is not
stated: a free value. -/
def execJournalArrayWrite (readsBack : Bool) (pick : Nat) (s : State) : Res :=
  if !nvOn s || s.power.hush || s.power.nvWarn then .next s
  else
    match s.jrn.staging with
    | [] => .next s
    | e :: rest =>
      if readsBack then
        let s1 := headAdvance (arrPut s s.jrn.head.toNat (entryBits e (passOdd s)))
        .next (settle (voteSettle 600 (admitOne (jrnMod s1 (fun j => { j with staging := rest })) pick)))
      else
        let d := freeDraw s
        let s1 := arrPut d.2 s.jrn.head.toNat d.1
        .next (headAdvance (jrnMod s1 (fun j => { j with vfail := if j.vfail = 0xFFFFFFFF then j.vfail else j.vfail + 1 })))

def execJrnhead0Read (s : State) : Res := .next (hostRead s 0x20)

/-! ## Counters (R384 to R389, R392 to R394) -/

def cntRow (s : State) (code : Nat) (by_ : By) : State :=
  byWrite s 0x26 (fun _ wd v => decide (wd = .reg 0x26) && decide (fieldNat v 0 3 = code)) by_

def execSnapshot (by_ : By) (s : State) : Res := .next (cntRow s 1 by_)
def execFreeze (by_ : By) (s : State) : Res := .next (cntRow s 2 by_)
def execThaw (by_ : By) (s : State) : Res := .next (cntRow s 3 by_)
def execClear (by_ : By) (s : State) : Res := .next (cntRow s 4 by_)

/-- R386 step 4, R389: the gather ends; a block whose domain has left ON since the edge counts as missed. -/
def execGatherDone (s : State) : Res :=
  if s.cnt.busy = false then .next s
  else
    let on := fun (g : Nat) => blkOn s (blkOf g)
    let gone := (List.range 64).filter (fun n => s.cnt.missP.contains n || !domOn s n)
    let s1 := cntMod s (fun c => { c with
      busy := false, done := true, seq := c.seq + 1, shadow := c.edge.filter (fun e => on e.1), sovf := c.edgeO.filter (fun e => on e.1),
      missP := gone, miss := c.miss || !gone.isEmpty || !domOn s 64 || !sysOn s, edge := [], edgeO := [] })
    .next (settle (raiseEvent s1 evCOUNTER))

def execCselWrite (by_ : By) (s : State) : Res :=
  .next (byWrite s 0x0A (fun _ wd _ => match wd with
    | .bank b i => (match counterAt b i with | some (_, _, val) => !val | none => false)
    | _ => false) by_)

/-- R383: the host reads the CVAL of an even counter with CHAIN 1. -/
def execCvalRead (s : State) : Res :=
  match counterAt (winB s) (winI s) with
  | some (blk, k, true) =>
    .next (if k % 2 = 0 ∧ (cselGet s blk k).getLsbD 8 = true ∧ (s.host.phase && s.host.phaseRd) = false then hostRead s 0x0A else s)
  | _ => .next s

/-- R394: what a boundary does at a port. -/
def portBoundary (on : Bool) (p : PortSt) : PortSt :=
  let q := if on && p.wholeWin then
      { p with lastRd := p.bytesRd, lastWr := p.bytesWr, lvalid := true, pvalid := true,
               peakRd := if p.peakRd < p.bytesRd then p.bytesRd else p.peakRd,
               peakWr := if p.peakWr < p.bytesWr then p.bytesWr else p.peakWr }
    else p
  { q with bytesRd := 0, bytesWr := 0, wholeWin := on }

/-- R392, R394; in LIMP no boundary occurs. -/
def execBwWindowBoundary (s : State) : Res :=
  if tsRuns s then
    .next ((List.range 64).foldl (fun t n => portMod t n (portBoundary (domOn t n)))
      (timeMod s (fun t => { t with bwCount := 0, bwLive := t.bwwin })))
  else .next s

/-! ## The window, general accesses, resets -/

def execWindataRead (s : State) : Res := .next (hostRead s 0x0A)

def execWindataWrite (hd : Half) (s : State) : Res := .next (settle (hostWrite s 0x0A hd))

def execHostFence (by_ : By) (s : State) : Res := .next (byWrite s 0x0A (fun _ wd _ => decide (wd = .bank 0x88 0x10)) by_)

def isReadPkt (p : Pkt) : Bool := match opOf p.cmd with | .read _ => true | _ => false
def isWritePkt (p : Pkt) : Bool := match opOf p.cmd with | .write _ => true | _ => false

/-- Any host write cycle, or any fabric write at SYS. -/
def execRegisterWrite (w : RegWrite) (s : State) : Res :=
  match w with
  | .host ha hd => .next (settle (hostWrite s ha hd))
  | .fabric net => .next (settle (sysTake s net isWritePkt))

/-- Any host read cycle, or any fabric READ at SYS. -/
def execRegisterReadClear (r : RegRead) (s : State) : Res :=
  match r with
  | .host ha => .next (hostRead s ha)
  | .fabric net => .next (sysTake s net isReadPkt)

/-- R409, R427: the key written to RESETCMD by an origin whose RESETSCOPE holds this scope. -/
def resetRow (s : State) (scope : Nat) (by_ : By) : State :=
  byWrite s 0x06 (fun o wd v => decide (wd = .reg 6) && decide (v.extractLsb' 0 16 = 0xC1EA) && decide ((scopeOf s o).toNat % 4 = scope)) by_

def execResetPort (by_ : By) (s : State) : Res := .next (resetRow s 0 by_)
def execResetSys (by_ : By) (s : State) : Res := .next (resetRow s 1 by_)
def execResetChip (by_ : By) (s : State) : Res := .next (resetRow s 2 by_)
def execResetRing (by_ : By) (s : State) : Res := .next (resetRow s 3 by_)

end Sys2Proof.Machine
end

