-- ==== Sys2Proof/Machine/TapRows.lean ====
section
/-!
DEFINITION. The test access port (19): the current instruction, the boundary register, and the reset that the test instructions hold.
-/
namespace Sys2Proof.Machine

def tapMod (s : State) (f : Tap → Tap) : State := { s with tap := f s.tap }

/-- R460. -/
def idcodeWord : Word := 0x2D6405EB

/-- What the register that the current instruction selects reads, bit 0 first (R459, R460); the bypass register captures 0
(PRESUMED, assumption 9). -/
def tapRead (t : Tap) : List Bool :=
  match t.ir.toNat with
  | 0 | 2 => t.bsr
  | 1 => (List.range 32).map (fun k => idcodeWord.getLsbD k)
  | _ => [false]

/-- R459: the codes of IR. -/
def irEXTEST : BitVec 4 := 0x0
def irIDCODE : BitVec 4 := 0x1
def irSAMPLE : BitVec 4 := 0x2
def irHIGHZ : BitVec 4 := 0x3
def irCLAMP : BitVec 4 := 0x4
def irBYPASS : BitVec 4 := 0xF

/-- R461: EXTEST, HIGHZ or CLAMP becomes current: the chip is held as with RESET_N low. -/
def tapHold (s : State) (ir : BitVec 4) : State :=
  let s1 := if s.tap.test then s else heldReset s
  tapMod s1 (fun t => { t with ir := ir, test := true })

/-- R461: does VAON supply the TAP? -/
def tapOn (s : State) : Bool := decide (s.power.mode ≠ .unpowered)

/-- EXTEST: the boundary register samples the pins. -/
def execExtest (pins : List Bool) (s : State) : Res :=
  if tapOn s then .next (tapMod (tapHold s irEXTEST) (fun t => { t with bsr := pins })) else .next s

/-- HIGHZ. -/
def execHighz (s : State) : Res := if tapOn s then .next (tapHold s irHIGHZ) else .next s

/-- CLAMP. -/
def execClamp (s : State) : Res := if tapOn s then .next (tapHold s irCLAMP) else .next s

/-- R461: an instruction that does not disturb the chip. While a test instruction is current, the TAP leaves it first
(TAP_TEST_EXIT). -/
def tapPlain (s : State) (ir : BitVec 4) : State := if tapOn s && !s.tap.test then tapMod s (fun t => { t with ir := ir }) else s

def execIdcode (s : State) : Res := .next (tapPlain s irIDCODE)

/-- SAMPLE/PRELOAD: the boundary register samples the pins. -/
def execSamplePreload (pins : List Bool) (s : State) : Res :=
  .next (if tapOn s && !s.tap.test then tapMod s (fun t => { t with ir := irSAMPLE, bsr := pins }) else s)

def execBypass (s : State) : Res := .next (tapPlain s irBYPASS)

/-- R461: the TAP leaves a test instruction, for Test-Logic-Reset and so IDCODE; the chip runs start-up with cause PIN, unless RESET_N
holds it. -/
def execTapTestExit (s : State) : Res :=
  if s.tap.test then
    let s1 := tapMod s (fun t => { t with ir := irIDCODE, test := false })
    .next (if s.power.rstLow then s1 else startUp s1 1)
  else .next s

end Sys2Proof.Machine
end

