-- ==== Sys2Proof/Machine/Dispatch.lean ====
section
/-!
DEFINITION. One arm per command of the table, in the table's order, each one direct call of its meaning.
-/
namespace Sys2Proof.Machine

/-- What a command does to everything but the queue. -/
def exec (i : Instr) (s : State) : Host.Outcome State Fault Refusal :=
  match i with
  | .unitTransfer l noise => Sys2Proof.Machine.execUnitTransfer l noise s
  | .routerHeadArrival net r inp => Sys2Proof.Machine.execRouterHeadArrival net r inp s
  | .outputGrant net r arb mask => Sys2Proof.Machine.execOutputGrant net r arb mask s
  | .bulkPromotion net r arb cand => Sys2Proof.Machine.execBulkPromotion net r arb cand s
  | .delayLineSwap r tap => Sys2Proof.Machine.execDelayLineSwap r tap s
  | .isoFrameBoundary => Sys2Proof.Machine.execIsoFrameBoundary s
  | .accessCapture n acc => Sys2Proof.Machine.execAccessCapture n acc s
  | .strobeRelease n => Sys2Proof.Machine.execStrobeRelease n s
  | .sync16Read n c1 c2 => Sys2Proof.Machine.execSync16Read n c1 c2 s
  | .sync16Write n c1 c2 beats => Sys2Proof.Machine.execSync16Write n c1 c2 beats s
  | .sync16Swap n c1 c2 o1 o2 => Sys2Proof.Machine.execSync16Swap n c1 c2 o1 o2 s
  | .sync16Fadd n c1 c2 o1 o2 => Sys2Proof.Machine.execSync16Fadd n c1 c2 o1 o2 s
  | .sync16Tas n c1 c2 => Sys2Proof.Machine.execSync16Tas n c1 c2 s
  | .sync16Cas n c1 c2 o1 o2 o3 o4 => Sys2Proof.Machine.execSync16Cas n c1 c2 o1 o2 o3 o4 s
  | .sync16Fence n c1 c2 => Sys2Proof.Machine.execSync16Fence n c1 c2 s
  | .sync16Probe n c1 c2 => Sys2Proof.Machine.execSync16Probe n c1 c2 s
  | .intakeDecode n => Sys2Proof.Machine.execIntakeDecode n s
  | .responseMatch node => Sys2Proof.Machine.execResponseMatch node s
  | .tagTimeout h tag => Sys2Proof.Machine.execTagTimeout h tag s
  | .staleTagExpiry h tag => Sys2Proof.Machine.execStaleTagExpiry h tag s
  | .wakeRetry n tag => Sys2Proof.Machine.execWakeRetry n tag s
  | .cmdRead node busyN => Sys2Proof.Machine.execCmdRead node busyN s
  | .cmdWrite node net busyN => Sys2Proof.Machine.execCmdWrite node net busyN s
  | .cmdSwap node busyN dev => Sys2Proof.Machine.execCmdSwap node busyN dev s
  | .cmdFadd node busyN dev => Sys2Proof.Machine.execCmdFadd node busyN dev s
  | .cmdTas node busyN dev => Sys2Proof.Machine.execCmdTas node busyN dev s
  | .cmdCas node busyN dev => Sys2Proof.Machine.execCmdCas node busyN dev s
  | .cmdProbe node => Sys2Proof.Machine.execCmdProbe node s
  | .cmdFence node => Sys2Proof.Machine.execCmdFence node s
  | .fenceComplete node => Sys2Proof.Machine.execFenceComplete node s
  | .busClaim n valid => Sys2Proof.Machine.execBusClaim n valid s
  | .targetRequestDone n dev => Sys2Proof.Machine.execTargetRequestDone n dev s
  | .watchSendTimeout n => Sys2Proof.Machine.execWatchSendTimeout n s
  | .watchArrival n busyN => Sys2Proof.Machine.execWatchArrival n busyN s
  | .watchReplayTimeout n => Sys2Proof.Machine.execWatchReplayTimeout n s
  | .watchReplayDone n => Sys2Proof.Machine.execWatchReplayDone n s
  | .pirqActivation n => Sys2Proof.Machine.execPirqActivation n s
  | .pirqRepeat n => Sys2Proof.Machine.execPirqRepeat n s
  | .pcfgWrite n by_ => Sys2Proof.Machine.execPcfgWrite n by_ s
  | .pclkWrite n by_ => Sys2Proof.Machine.execPclkWrite n by_ s
  | .clockStopped n => Sys2Proof.Machine.execClockStopped n s
  | .seamUnit ring t1 t2 t3 => Sys2Proof.Machine.execSeamUnit ring t1 t2 t3 s
  | .credit ring arg => Sys2Proof.Machine.execCredit ring arg s
  | .pulse ring arg => Sys2Proof.Machine.execPulse ring arg s
  | .pulseTimer => Sys2Proof.Machine.execPulseTimer s
  | .joinSlot sample => Sys2Proof.Machine.execJoinSlot sample s
  | .pause => Sys2Proof.Machine.execPause s
  | .quiet ring => Sys2Proof.Machine.execQuiet ring s
  | .resume => Sys2Proof.Machine.execResume s
  | .join chip => Sys2Proof.Machine.execJoin chip s
  | .grant chip => Sys2Proof.Machine.execGrant chip s
  | .leave chip => Sys2Proof.Machine.execLeave chip s
  | .release chip => Sys2Proof.Machine.execRelease chip s
  | .rollstart => Sys2Proof.Machine.execRollstart s
  | .roll chip => Sys2Proof.Machine.execRoll chip s
  | .rollend => Sys2Proof.Machine.execRollend s
  | .table chip => Sys2Proof.Machine.execTable chip s
  | .dup chip => Sys2Proof.Machine.execDup chip s
  | .eject chip => Sys2Proof.Machine.execEject chip s
  | .ringFaultMsg chip => Sys2Proof.Machine.execRingFaultMsg chip s
  | .abort ring => Sys2Proof.Machine.execAbort ring s
  | .abortRepeat => Sys2Proof.Machine.execAbortRepeat s
  | .masterSelfSplice pulseSeen => Sys2Proof.Machine.execMasterSelfSplice pulseSeen s
  | .nopulse => Sys2Proof.Machine.execNopulse s
  | .ringtoExpiry => Sys2Proof.Machine.execRingtoExpiry s
  | .ringctlLeave by_ => Sys2Proof.Machine.execRingctlLeave by_ s
  | .ringctlReform by_ => Sys2Proof.Machine.execRingctlReform by_ s
  | .clientClaim from_ => Sys2Proof.Machine.execClientClaim from_ s
  | .directoryWrite c by_ => Sys2Proof.Machine.execDirectoryWrite c by_ s
  | .directoryCopy dir auth => Sys2Proof.Machine.execDirectoryCopy dir auth s
  | .authorityCopy schip ochip ocid words => Sys2Proof.Machine.execAuthorityCopy schip ochip ocid words s
  | .portrstNotice net => Sys2Proof.Machine.execPortrstNotice net s
  | .lockRead => Sys2Proof.Machine.execLockRead s
  | .lockRelease net => Sys2Proof.Machine.execLockRelease net s
  | .txstart net => Sys2Proof.Machine.execTxstart net s
  | .txdata net => Sys2Proof.Machine.execTxdata net s
  | .rxdone net => Sys2Proof.Machine.execRxdone net s
  | .flush net => Sys2Proof.Machine.execFlush net s
  | .bobStatWrite net => Sys2Proof.Machine.execBobStatWrite net s
  | .doorbellWrite net => Sys2Proof.Machine.execDoorbellWrite net s
  | .dbclr net => Sys2Proof.Machine.execDbclr net s
  | .bcfgWrite b by_ => Sys2Proof.Machine.execBcfgWrite b by_ s
  | .hostBobFlush hd => Sys2Proof.Machine.execHostBobFlush hd s
  | .hostBobDone hd => Sys2Proof.Machine.execHostBobDone hd s
  | .hostDoorbell hd => Sys2Proof.Machine.execHostDoorbell hd s
  | .bobdataRead => Sys2Proof.Machine.execBobdataRead s
  | .voteWrite net => Sys2Proof.Machine.execVoteWrite net s
  | .votePaceExpiry voter d => Sys2Proof.Machine.execVotePaceExpiry voter d s
  | .hostVote hd => Sys2Proof.Machine.execHostVote hd s
  | .wakeRequest net => Sys2Proof.Machine.execWakeRequest net s
  | .wakeHoldExpiry d => Sys2Proof.Machine.execWakeHoldExpiry d s
  | .domcmdWrite d by_ => Sys2Proof.Machine.execDomcmdWrite d by_ s
  | .hemDrainDone d => Sys2Proof.Machine.execHemDrainDone d s
  | .draintoExpiry d => Sys2Proof.Machine.execDraintoExpiry d s
  | .wakeHoldoffExpiry d => Sys2Proof.Machine.execWakeHoldoffExpiry d s
  | .pstateWrite by_ => Sys2Proof.Machine.execPstateWrite by_ s
  | .regulatorPoll ack status => Sys2Proof.Machine.execRegulatorPoll ack status s
  | .regtoExpiry => Sys2Proof.Machine.execRegtoExpiry s
  | .ralert status => Sys2Proof.Machine.execRalert status s
  | .rungReady sub => Sys2Proof.Machine.execRungReady sub s
  | .rungTimeout sub => Sys2Proof.Machine.execRungTimeout sub s
  | .rungRetry sub => Sys2Proof.Machine.execRungRetry sub s
  | .pllLoss => Sys2Proof.Machine.execPllLoss s
  | .supplyWarning vcore vaon => Sys2Proof.Machine.execSupplyWarning vcore vaon s
  | .hushEnd minv duration => Sys2Proof.Machine.execHushEnd minv duration s
  | .vcoreReset => Sys2Proof.Machine.execVcoreReset s
  | .vnvWarning => Sys2Proof.Machine.execVnvWarning s
  | .vnvRecover => Sys2Proof.Machine.execVnvRecover s
  | .vioLow k => Sys2Proof.Machine.execVioLow k s
  | .powerOn rise => Sys2Proof.Machine.execPowerOn rise s
  | .resetPin => Sys2Proof.Machine.execResetPin s
  | .time0Read => Sys2Proof.Machine.execTime0Read s
  | .rtcsec0Read => Sys2Proof.Machine.execRtcsec0Read s
  | .rtcsec0Write hd => Sys2Proof.Machine.execRtcsec0Write hd s
  | .rtcsec1Write hd => Sys2Proof.Machine.execRtcsec1Write hd s
  | .alarm0Read => Sys2Proof.Machine.execAlarm0Read s
  | .alarm0Write hd => Sys2Proof.Machine.execAlarm0Write hd s
  | .alarm1Write hd => Sys2Proof.Machine.execAlarm1Write hd s
  | .rtcsecsWrite net => Sys2Proof.Machine.execRtcsecsWrite net s
  | .alarmsecsWrite net => Sys2Proof.Machine.execAlarmsecsWrite net s
  | .alarmDisarm by_ => Sys2Proof.Machine.execAlarmDisarm by_ s
  | .rtcStep => Sys2Proof.Machine.execRtcStep s
  | .patrolDue => Sys2Proof.Machine.execPatrolDue s
  | .tackReadDone => Sys2Proof.Machine.execTackReadDone s
  | .rtcStopDetect => Sys2Proof.Machine.execRtcStopDetect s
  | .targetTimeout n => Sys2Proof.Machine.execTargetTimeout n s
  | .isolateGo n by_ => Sys2Proof.Machine.execIsolateGo n by_ s
  | .portQuietExpiry n => Sys2Proof.Machine.execPortQuietExpiry n s
  | .basteWrite by_ => Sys2Proof.Machine.execBasteWrite by_ s
  | .stitch by_ => Sys2Proof.Machine.execStitch by_ s
  | .abandon by_ => Sys2Proof.Machine.execAbandon by_ s
  | .journalArrayWrite readsBack pick => Sys2Proof.Machine.execJournalArrayWrite readsBack pick s
  | .jrnhead0Read => Sys2Proof.Machine.execJrnhead0Read s
  | .snapshot by_ => Sys2Proof.Machine.execSnapshot by_ s
  | .freeze by_ => Sys2Proof.Machine.execFreeze by_ s
  | .thaw by_ => Sys2Proof.Machine.execThaw by_ s
  | .clear by_ => Sys2Proof.Machine.execClear by_ s
  | .gatherDone => Sys2Proof.Machine.execGatherDone s
  | .cselWrite by_ => Sys2Proof.Machine.execCselWrite by_ s
  | .cvalRead => Sys2Proof.Machine.execCvalRead s
  | .bwWindowBoundary => Sys2Proof.Machine.execBwWindowBoundary s
  | .clrpeak n by_ => Sys2Proof.Machine.execClrpeak n by_ s
  | .windataRead => Sys2Proof.Machine.execWindataRead s
  | .windataWrite hd => Sys2Proof.Machine.execWindataWrite hd s
  | .hostFence by_ => Sys2Proof.Machine.execHostFence by_ s
  | .registerWrite w => Sys2Proof.Machine.execRegisterWrite w s
  | .registerReadClear r => Sys2Proof.Machine.execRegisterReadClear r s
  | .resetPort by_ => Sys2Proof.Machine.execResetPort by_ s
  | .resetSys by_ => Sys2Proof.Machine.execResetSys by_ s
  | .resetChip by_ => Sys2Proof.Machine.execResetChip by_ s
  | .resetRing by_ => Sys2Proof.Machine.execResetRing by_ s
  | .ringResetNotice schip => Sys2Proof.Machine.execRingResetNotice schip s
  | .ringResetDelay => Sys2Proof.Machine.execRingResetDelay s
  | .extest pins => Sys2Proof.Machine.execExtest pins s
  | .idcode => Sys2Proof.Machine.execIdcode s
  | .samplePreload pins => Sys2Proof.Machine.execSamplePreload pins s
  | .highz => Sys2Proof.Machine.execHighz s
  | .clamp => Sys2Proof.Machine.execClamp s
  | .bypass => Sys2Proof.Machine.execBypass s
  | .tapTestExit => Sys2Proof.Machine.execTapTestExit s
  | .ctlpar ring d => Sys2Proof.Machine.execCtlpar ring d s
  | .ringManagementResend => Sys2Proof.Machine.execRingManagementResend s
  | .ringResetNoAnswer => Sys2Proof.Machine.execRingResetNoAnswer s
  | .resetRelease => Sys2Proof.Machine.execResetRelease s
  | .vioRecover k => Sys2Proof.Machine.execVioRecover k s
  | .pirqDeactivation n => Sys2Proof.Machine.execPirqDeactivation n s
  | .ralertRelease => Sys2Proof.Machine.execRalertRelease s
  | .rpgoodChange level => Sys2Proof.Machine.execRpgoodChange level s
  | .sync16ReservedOp n c1 c2 => Sys2Proof.Machine.execSync16ReservedOp n c1 c2 s

end Sys2Proof.Machine
end

