-- ==== Sys2Proof/Machine/Tick.lean ====
section
/-!
DEFINITION. One tick of the reference clock, 40 ns: what the block does while no command waits. DESIGN CHOICE, assumption 7, safe.
-/
namespace Sys2Proof.Machine

/-- A counter that its boundary command returns to 0 counts up to one below its length. -/
def countUp (n len : BitVec 16) : BitVec 16 := if n.toNat + 1 < len.toNat then n + 1 else n

/-- R70, R310, R392: the timestamp advances while its source runs, and with it the tick counts of the ISO frame and of the
bandwidth window. -/
def tick (s : State) : State :=
  if tsRuns s then
    timeMod s (fun t => { t with ts := t.ts + 1, isoCount := countUp t.isoCount t.isoLive,
                                 bwCount := countUp t.bwCount t.bwLive })
  else s

end Sys2Proof.Machine
end

