-- ==== Sys2Proof/WellFormed.lean ====
section
/-!
DEFINITION. The checks on a command's operands: those that name no event which can occur. A router's hop leads to a neighbour on
the 8 by 8 grid (R10, R16); a SYNC16 write has 1 to 32 data beats (R107, R108).
-/
namespace Sys2Proof

/-- R10, R16: is there a neighbour on this side of router r? -/
def hasNeighbour (r : Nat) : Dir → Bool
  | .north => decide (r / 8 < 7)
  | .east => decide (r % 8 < 7)
  | .south => decide (0 < r / 8)
  | .west => decide (0 < r % 8)
  | .loc => false

/-- R16: does the link exist? -/
def Link.wf : Link → Bool
  | .hop _ r out => hasNeighbour r.val out
  | _ => true

/-- Do the operands name an event that can occur? Every other operand is of a type whose every value can. -/
def Instr.wf : Instr → Bool
  | .unitTransfer l _ => l.wf
  | .sync16Write _ _ _ beats => decide (0 < beats.length) && decide (beats.length ≤ 32)
  | _ => true

end Sys2Proof
end

