-- ==== Sys2Proof/Safety.lean ====
section
/-!
DEFINITION. What every state that the block can be in satisfies, in the terms claims use.
-/
namespace Sys2Proof.Machine

/-- The sparse tables are in canonical form (Machine/Table.lean), so that equal contents are equal data. -/
def State.tablesOk (s : State) : Prop :=
  twf (fun _ => PortSt.reset) s.ports = true ∧ twf Dom.resetOf s.doms = true ∧ twf cfgReset s.cfg = true ∧
  twf (fun _ => Bobbin.reset) s.bobs = true ∧ twf (fun _ => FaultRec.reset) s.faults = true ∧
  twf (fun _ => NodeQ.reset) s.mesh.nodes = true ∧ twf (fun _ => RIn.reset) s.mesh.ins = true ∧
  twf arbReset s.mesh.arbs = true ∧ twf (fun _ => Delay.reset) s.mesh.delays = true

/-- No selector of the host bus holds a reserved code: DOMSEL (R264), VOTESEL (R267), FAULTSEL (R343), BOBSEL.ITEM (R419). -/
def selectorsOk (h : HostIf) : Prop :=
  h.domsel.toNat ≤ 67 ∧ h.votesel.toNat ≤ 256 ∧ h.faultsel.toNat ≤ 68 ∧ h.bobitem.toNat ≤ 8

/-- What holds of one domain: SEAM and the core domains are COMMANDED and hold no votes; MESH, SYS and NV keep CMD ON (R252, R256,
R265). -/
def domOk (d : Nat) (x : Dom) : Prop :=
  64 ≤ d → x.voted = false ∧ x.votes = [] ∧ (d ≠ 65 → x.cmdOn = true)

/-- R252, R256. -/
def State.domainsOk (s : State) : Prop := ∀ d, domOk d (domGet s d)

/-- R461: the TAP holds the chip exactly while EXTEST, HIGHZ or CLAMP is the current instruction. -/
def tapOk (t : Tap) : Prop := t.test = (decide (t.ir = 0) || decide (t.ir = 3) || decide (t.ir = 4))

/-- The invariant that every step keeps. -/
def State.Inv (s : State) : Prop := s.tablesOk ∧ selectorsOk s.host ∧ s.domainsOk ∧ tapOk s.tap

/-! ## Frames and quiet states -/

/-- t is s but for the event counters (16) and the pending host events (R406). -/
def CountsOnly (s t : State) : Prop :=
  t = { s with cnt := t.cnt, sys := { s.sys with event := t.sys.event, eventLate := t.sys.eventLate } }

/-- t is s but for the mesh, the event counters and the pending host events. -/
def MeshOnly (s t : State) : Prop :=
  t = { s with mesh := t.mesh, cnt := t.cnt, sys := { s.sys with event := t.sys.event, eventLate := t.sys.eventLate } }

/-- t is s but for the ports, the mesh, the event counters and the pending host events. -/
def PortsOnly (s t : State) : Prop :=
  t = { s with ports := t.ports, mesh := t.mesh, cnt := t.cnt,
               sys := { s.sys with event := t.sys.event, eventLate := t.sys.eventLate } }

/-- t is s but for the journal, the event counters and the pending host events. -/
def JournalOnly (s t : State) : Prop :=
  t = { s with jrn := t.jrn, cnt := t.cnt, sys := { s.sys with event := t.sys.event, eventLate := t.sys.eventLate } }

/-- t is s but for the fault records, the journal, the event counters and the pending host events. -/
def RecordsOnly (s t : State) : Prop :=
  t = { s with faults := t.faults, jrn := t.jrn, cnt := t.cnt, sys := { s.sys with event := t.sys.event, eventLate := t.sys.eventLate } }

/-- From s to t one entry entered staging: its origin kind, target ID and value (R361 to R363), stamped with the time (R366). -/
def StagesOne (s t : State) (kind : BitVec 3) (tid : Half) (v : Word) : Prop :=
  ∃ e, t.jrn.staging = s.jrn.staging ++ [e] ∧ e.ts = s.time.ts ∧ e.okind = kind ∧ e.tid = tid ∧ e.value = v

/-- No gateway of this chip holds a unit or has one to send on. -/
def gatesEmpty (s : State) : Prop :=
  ∀ (g : Ring) (c : Nat), (sinGet (gateGet s g) c).latch = none ∧ (sinGet (gateGet s g) c).busy = false ∧
    (soutGet (gateGet s g) c).fromMsh = none

/-- Nothing of this chip depends on the ring: no tag is HELD, no request or notice of SYS waits, no claim is with the master, no lock is
held, and the gateways are empty. -/
def State.ringStill (s : State) : Prop :=
  (∀ n, ∀ e ∈ (portGet s n).pool.tags, e.2.st ≠ .held) ∧ (∀ e ∈ s.sys.agents.tags, e.2.st ≠ .held) ∧ s.sys.queued = [] ∧
  s.sys.notices = [] ∧ s.sys.forwarded = [] ∧ (∀ b, (bobGet s b).lock = none) ∧ gatesEmpty s

/-- The chip is up in the power state it was told to take; no move, patrol or PORT reset is in progress, and no access of SYS waits.
Then nothing is left over for a command to take on. -/
def State.calm (s : State) : Prop :=
  s.power.mode = .up ∧ s.power.code = s.power.lvl ∧ 2 ≤ s.power.code.toNat ∧ s.power.moving = none ∧ s.time.patrol = none ∧
  s.sys.portRst = none ∧ s.sys.held = []

/-- The chip is up: no move to TACKING or DEEP, patrol or PORT reset is in progress, and no access of SYS waits. A move between the other
power states may be. -/
def State.awake (s : State) : Prop :=
  s.power.mode = .up ∧ s.power.moving = none ∧ s.time.patrol = none ∧ s.sys.portRst = none ∧ s.sys.held = []

/-- From s to t, nothing but port n, the event counters and the pending host events changed; the port became p. -/
def PortBecomes (s t : State) (n : Nat) (p : PortSt) : Prop :=
  portGet t n = p ∧ (∀ m, m ≠ n → portGet t m = portGet s m) ∧ t.mesh = s.mesh ∧ PortsOnly s t

/-- Bytes that an access writes, as R393 counts them. -/
def writtenBytes (a : Access) : Word := BitVec.ofNat 32 ((a.bytes.filter (·.2)).length)

/-- Port n after access a has entered its intake (R112): a write that is posted has ended its bus cycle, any other waits. -/
def portEntered (s : State) (n : Nat) (a : Access) : PortSt :=
  let p := portGet s n
  let posted := postedAt s n a
  { p with intake := p.intake ++ [{ a with posted := posted }], bytesWr := p.bytesWr + writtenBytes a,
           bus := if posted then { phase := .ended, rdata := [], stat := .ok } else { phase := .waiting, rdata := [], stat := .ok } }

/-- Port p after the device has seen access a end with a status and its read data (R112, R113): a posted write ended at its entry. -/
def portEnded (p : PortSt) (a : Access) (st : Status) (rdata : List Byte) : PortSt :=
  if a.kind = .write ∧ a.posted = true then p
  else
    { p with bytesRd := p.bytesRd + BitVec.ofNat 32 (countedRead a)
             bus := { phase := .ended, stat := st,
                      rdata := if a.kind = .fence ∨ a.kind = .probe then [0, 0]
                               else if st = .ok then rdata else List.replicate (devBytes a) 0xFF } }

/-- From s to t, nothing but port n, the packets waiting at one node's network, the event counters and the pending host events changed:
the port became p and the node's queue q. -/
def PortAndNode (s t : State) (n : Nat) (p : PortSt) (node : BitVec 7) (net : Net) (q : NodeQ) : Prop :=
  portGet t n = p ∧ (∀ m, m ≠ n → portGet t m = portGet s m) ∧ nodeGet t node net = q ∧
  (∀ (k : BitVec 7) (m : Net), ¬(k = node ∧ m = net) → nodeGet t k m = nodeGet s k m) ∧ PortsOnly s t

/-! ## Accesses of SYS -/

/-- A write access that SYS can take now names word wd with the data raw in the lanes be: the host's bus cycle on register ha, or the oldest
request on a network at SYS, a write of one word. -/
def Writes (s : State) (ha : BitVec 6) (wd : Wd) (raw : Word) (be : BitVec 4) : By → Prop
  | .host hd => s.host.waitLow = false ∧ hostGate s ha.toNat = .serve ∧ hostNames s ha hd = some (wd, raw) ∧ be = 0xF
  | .fabric net =>
    net ≠ .rsp ∧ sysOn s = true ∧ ∃ p u, rxHead s nodeSys net = some p ∧ p.dnode = nodeSys ∧ reqCheck p = .perform ∧ opOf p.cmd = .write 1 ∧ p.data = [u] ∧
      u.data = raw ∧ u.be = be ∧ be ≠ 0 ∧ flatWord (byteAddr p.addr) = some wd

/-- Whose access it is (R8, R351). -/
def askOrigin (s : State) : By → Origin
  | .host _ => .host
  | .fabric net => match rxHead s nodeSys net with | some p => fabOrigin p | none => .host

/-- What a write of the host leaves of the host side but for the wait: the high half of WINDATA ends the pair and moves WINADDR (R411,
R412), and ISOLATE keeps its PORT (R340). -/
def hostLeft (s : State) (ha : BitVec 6) (hd : Half) : HostIf :=
  if ha = 0x0A then (winNext (hostMod s (fun y => { y with phase := false }))).host
  else if ha = 0x25 then { s.host with isoport := hd.extractLsb' 0 6 } else s.host

/-- The packets at every node are as they were, and so is the rest of the mesh. -/
def NodesSame (s t : State) : Prop := t.mesh = { s.mesh with nodes := t.mesh.nodes } ∧ ∀ k m, nodeGet t k m = nodeGet s k m

/-- From s to t SYS has taken the oldest request of a network and answered it with a status. -/
def Answered (s t : State) (net : Net) (st : Status) : Prop :=
  t.mesh = { s.mesh with nodes := t.mesh.nodes } ∧ ∃ p, rxHead s nodeSys net = some p ∧
    nodeGet t nodeSys .rsp = { nodeGet s nodeSys .rsp with out := pktUnits (responsePkt p st []) } ∧
    nodeGet t nodeSys net = { nodeGet s nodeSys net with rx := (nodeGet s nodeSys net).rx.drop 1 } ∧
    (∀ (k : BitVec 7) (m : Net), ¬(k = nodeSys ∧ (m = net ∨ m = .rsp)) → nodeGet t k m = nodeGet s k m)

/-- From s to t the access has ended with status OK: the host's bus is free again, or SYS has taken the request and answered it. -/
def AccessEnds (s t : State) (ha : BitVec 6) : By → Prop
  | .host hd => NodesSame s t ∧ t.host = { hostLeft s ha hd with waitLow := false }
  | .fabric net => t.host = s.host ∧ Answered s t net .ok

/-- t is s but for what an access itself leaves: the host side, the packets waiting at nodes, the journal, the event counters and the
pending host events. -/
def AccessOnly (s t : State) : Prop :=
  t = { s with host := t.host, mesh := t.mesh, jrn := t.jrn, cnt := t.cnt,
               sys := { s.sys with event := t.sys.event, eventLate := t.sys.eventLate } }

/-- R353: s with one refusal more on record: whose request it was (0 for an agent), and why. -/
def refusedBy (s : State) (o : Origin) (why : BitVec 4) : State :=
  { s with sys := { s.sys with
      refuseN := if s.sys.refuseN = 0xFFFF then 0xFFFF else s.sys.refuseN + 1
      refuseCid := match o with | .fab _ node cid => if node.getLsbD 0 then 0 else cid | .host => 0
      refuseWhy := why, refuseSeen := true } }

/-- From s to t the write of a bank word has ended with status st and without effect: WINCTL.REFUSED is set for the host (R413), or SYS has
answered the request. -/
def AccessRefused (s t : State) (st : Status) : By → Prop
  | .host hd => NodesSame s t ∧ t.host = { hostLeft s 0x0A hd with waitLow := false, refused := true }
  | .fabric net => t.host = s.host ∧ Answered s t net st

/-- From s to u the access on register ha was taken, and no answer given: the host's bus is held low (R399), or SYS has taken the request. -/
def Taking (s u : State) (ha : BitVec 6) (by_ : By) : Prop :=
  (match by_ with
  | .host hd => u.mesh = s.mesh ∧ u.host = { hostLeft s ha hd with waitLow := true }
  | .fabric net => u.mesh = (rxDrop s nodeSys net).mesh ∧ u.host = s.host) ∧
  u = { s with host := u.host, mesh := u.mesh, cnt := u.cnt, sys := { s.sys with event := u.sys.event, eventLate := u.sys.eventLate } }

/-- The fabric write that by_ is, and the first of its words; none for the host. -/
def askReq (s : State) : By → Option (Pkt × Nat)
  | .host _ => none
  | .fabric net => (rxHead s nodeSys net).map (fun p => (p, 0))

/-- R37, R54, R142: from s to t SYS drove a request with the tag that has been FREE longest, and holds the tag. -/
def AgentSends (s t : State) (dchip : Byte) (dnode : BitVec 7) (op : Op) (addr : BitVec 30) (data : List DataUnit) (use : TagUse) : Prop :=
  ∃ tag rest, s.sys.agents.free = tag :: rest ∧
    let p : Pkt := { dchip := dchip, dnode := dnode, snode := nodeSys, cmd := cmdOf op, cls := 2, tag := tag, hasAddr := true, addrBad := false,
                     schip := s.chipnum, cid := 0, addr := addr, data := data, formed := true }
    let net := netOf false op
    let q := nodeGet s nodeSys net
    t.sys.agents = { tagPut s.sys.agents tag { st := .held, dchip := dchip, dnode := dnode, cmd := cmdOf op, wr := opWrites op, wake := false,
                                               retry := false, net := net, pkt := pktUnits p, use := use } with free := rest } ∧
    nodeGet t nodeSys net = { q with out := q.out ++ pktUnits p } ∧
    (∀ (k : BitVec 7) (m : Net), ¬(k = nodeSys ∧ m = net) → nodeGet t k m = nodeGet s k m) ∧
    t = { s with sys := { s.sys with agents := t.sys.agents }, mesh := { s.mesh with nodes := t.mesh.nodes } }

/-! ## Bobbins -/

/-- BOB can take the oldest request of a network, p: it is one that BOB performs, with an address in an enabled bobbin, and its client holds
BOBBIN (R225 to R227). -/
def BobAsks (s : State) (net : Net) (p : Pkt) : Prop :=
  sysOn s = true ∧ net ≠ .rsp ∧ rxHead s nodeBob net = some p ∧ p.dnode = nodeBob ∧ reqCheck p = .perform ∧ byteAddr p.addr < 16384 ∧
  bEnable (bcfg s (bobOf p.addr)) = true ∧ holdsRight s (fabOrigin p) rBOBBIN = true

/-- That request is a write of one word, of index w in its bobbin; the lanes not written count as 0 (R226). -/
def BobWrites (s : State) (net : Net) (p : Pkt) (w : Nat) (d : Word) : Prop :=
  BobAsks s net p ∧ opOf p.cmd = .write 1 ∧ bobWordIx p.addr 0 = w ∧ ∃ u, p.data = [u] ∧ u.be ≠ 0 ∧ d = u.data &&& laneMask u.be

/-- From s to t BOB took request p and answered it; its bobbin became x. Besides, nothing changed but the journal, the event counters and
the pending host events. -/
def BobDoes (s t : State) (net : Net) (p : Pkt) (x : Bobbin) (st : Status) (ds : List DataUnit) : Prop :=
  bobGet t (bobOf p.addr) = x ∧ (∀ c, c ≠ bobOf p.addr → bobGet t c = bobGet s c) ∧
  nodeGet t nodeBob .rsp = { nodeGet s nodeBob .rsp with out := pktUnits (responsePkt p st ds) } ∧
  nodeGet t nodeBob net = { nodeGet s nodeBob net with rx := (nodeGet s nodeBob net).rx.drop 1 } ∧
  (∀ (k : BitVec 7) (m : Net), ¬(k = nodeBob ∧ (m = net ∨ m = .rsp)) → nodeGet t k m = nodeGet s k m) ∧
  t = { s with bobs := t.bobs, mesh := { s.mesh with nodes := t.mesh.nodes }, jrn := t.jrn, cnt := t.cnt
               sys := { s.sys with event := t.sys.event, eventLate := t.sys.eventLate } }

/-! ## Counters -/

/-- The counters of ports and routers read in t as in s. -/
def lowSame (s t : State) : Prop := ∀ g, g < 1024 → cval t g = cval s g ∧ covf t g = covf s g

/-- The edge that a gather in t has taken, of counters as u holds them (R386). -/
def gathersFrom (s t : State) : Prop :=
  t.cnt.busy = true ∧ (∀ g, tget (fun _ => (0 : Word)) t.cnt.edge g = if blkOn s (blkOf g) then cval t g else 0) ∧
  (∀ g, tget (fun _ => false) t.cnt.edgeO g = if blkOn s (blkOf g) then covf t g else false) ∧
  (∀ n, t.cnt.missP.contains n = (decide (n < 64) && !domOn s n)) ∧ t.cnt.miss = (!domOn s 64 || (List.range 64).any (fun n => !domOn s n))


/-! ## Power, resets, faults -/

/-- R436: u is s after a reset of a scope wider than SYS, by the columns of its table: whether retention words of the port banks, fault records,
REGLINK with VCORESET and RESETSCOPE, and the tack program with the alarm return. The journal, the RTC, the supply readings and the
TAP stay; a waiting host access goes on waiting (R400). -/
def Returned (s u : State) (ret rec link tack : Bool) : Prop :=
  (∀ k, tget cfgReset u.cfg k =
    if (k / 65536 < 0x40 ∧ ret = false) ∨ (k / 65536 = 0x83 ∧ tack = false) then tget cfgReset s.cfg k else cfgReset k) ∧
  u = { State.reset with
    pending := s.pending, freeCount := s.freeCount, jrn := s.jrn, tap := s.tap, cfg := u.cfg, faults := if rec then [] else s.faults
    power := { Power.reset with
      pgoodNow := s.power.pgoodNow, alertLow := s.power.alertLow, alertGot := s.power.alertGot, lastWord := s.power.lastWord,
      vcWarn := s.power.vcWarn, aonWarn := s.power.aonWarn, nvWarn := s.power.nvWarn, hush := s.power.hush, seen := s.power.seen,
      browns := s.power.browns, hushAon := s.power.hushAon, vioLow := s.power.vioLow, rstLow := s.power.rstLow,
      ladderBad := s.power.ladderBad, pec := if link then false else s.power.pec, settle := if link then 4 else s.power.settle,
      regto := if link then 2 else s.power.regto, trim := if link then 0 else s.power.trim }
    time := if tack then { Time.reset with rtcSec := s.time.rtcSec, rtcFr := s.time.rtcFr, rtcHalt := s.time.rtcHalt }
      else { s.time with ts := 0, isoLive := 1600, isoCount := 0, bwLive := 25000, bwCount := 0, bwwin := 25000, patrol := none,
                         tackRes := none, matches_ := [], wakeHit := none, wakeAfter := none, tackHeld := [] }
    sys := { Sys.reset with held := hostHeld s, scopes := if link then [] else s.sys.scopes, last := s.sys.last, busy := s.sys.busy }
    host := { HostIf.reset with
      hd := s.host.hd, waitLow := !(hostHeld s).isEmpty, jlatch := s.host.jlatch, timeL := s.host.timeL, cvLatch := s.host.cvLatch,
      rtcStage := s.host.rtcStage, rtcHi := s.host.rtcHi, rtcFrac := s.host.rtcFrac, alStage := s.host.alStage, alHi := s.host.alHi } }

/-- From u to t, MESH, SEAM, SYS and NV are put down, and nothing else changed but the power side. -/
def CoresOff (u t : State) : Prop :=
  (∀ d, domGet t d = if 64 ≤ d ∧ d < 68 then { domGet u d with st := .off } else domGet u d) ∧ t = { u with doms := t.doms, power := t.power }

/-- R428: from u to t start-up began with cause c (RUNGFAIL after a failed ladder, R425): MESH, SEAM, SYS and NV are down, the timestamp
stands at 0, and the regulator rung asks for the voltage of RUN; during a hush it waits (R438). -/
def StartsUp (u t : State) (c : BitVec 4) : Prop :=
  ∃ v, CoresOff u v ∧ v.power = u.power ∧
    let p : Power := { u.power with
      mode := .ladder (.reset (if u.power.ladderBad then 7 else c)) 0, req := none, second := false, regDone := false, limp := false }
    t = { v with
      jrn := { u.jrn with newRun := true }, time := { u.time with ts := 0, isoCount := 0, bwCount := 0 }
      power := if u.power.hush then p
        else { p with vout := mantissa u.power.trim 4, operOn := true, req := some (.ladder 4), pgoodRun := u.power.pgoodNow } }

/-- R426: t is s held as with RESET_N low. -/
def HeldReset (s t : State) : Prop := ∃ u, Returned s u true true true true ∧ CoresOff u t ∧ t.power = { u.power with mode := .held }

/-- From s to t one entry entered the journal: staging, or while NV is not ON the thimble's queue (R317). -/
def Enters (s t : State) (kind : BitVec 3) (tid : Half) (v : Word) : Prop :=
  if nvOn s then StagesOne s t kind tid v
  else ∃ e, t.jrn.queue = s.jrn.queue ++ [e] ∧ e.ts = s.time.ts ∧ e.okind = kind ∧ e.tid = tid ∧ e.value = v

/-- From s to t the power side became p and nothing else changed but the journal: a change of PSTATE entered it as its new word (R9, R278). -/
def PstateBecomes (s t : State) (p : Power) : Prop :=
  (pstateWord { s with power := p } = pstateWord s → t.jrn = s.jrn) ∧
  (pstateWord { s with power := p } ≠ pstateWord s → Enters s t kHARDWARE (tidHost 0x13) ((pstateWord { s with power := p }).setWidth 32)) ∧
  t = { s with power := p, jrn := t.jrn, cnt := t.cnt, sys := { s.sys with event := t.sys.event, eventLate := t.sys.eventLate } }

/-- A fault of this source and code is recorded at once and rings no doorbell: its entry has room (R366), FAULTDB is not armed (R349), and
it does not repeat a LINKPAR (R344). -/
def FaultPlain (s : State) (src : Nat) (code : BitVec 5) : Prop :=
  hwRoom s = true ∧ (faultdb s).getLsbD 18 = false ∧ (code ≠ fLINKPAR ∨ (faultGet s src).isNew = false)

/-- From s to t one fault was recorded (R343, R344, R346): the record of its source, one entry, the fault event; nothing else. -/
def FaultRaised (s t : State) (src : Nat) (code : BitVec 5) (detail : Half) : Prop :=
  faultGet t src = { code := code, isNew := true, count := if (faultGet s src).count = 255 then 255 else (faultGet s src).count + 1 } ∧
  (∀ k, k ≠ src → faultGet t k = faultGet s k) ∧ Enters s t kHARDWARE (tidHost 0x24) (faultValue src code false detail) ∧
  t.sys.event.getLsbD 0 = true ∧ RecordsOnly s t

/-- No port domain, nor SEAM, that is ON or OFF is to change. -/
def State.domsStill (s : State) : Prop :=
  ∀ d, d < 66 → d ≠ 64 → ((domGet s d).st = .on → wantedOn s d = true) ∧ ((domGet s d).st = .off → wantedOn s d = false)

/-- Port n holds no access, no tag in use, no replay and no packet that waits; it may perform a request of the fabric. -/
def portAlone (s : State) (n : Nat) : Prop :=
  let p := portGet s n
  p.intake = [] ∧ p.front = none ∧ p.captured = none ∧ (∀ e ∈ p.pool.tags, e.2.st ≠ .held) ∧ p.replay = none ∧ p.fences = [] ∧
  (∀ net, net ≠ .rsp → (nodeGet s (portNode n) net).rx = []) ∧
  (∀ r, p.tgt = some r → r.pkt.dnode = portNode n ∧ r.pkt.hasAddr = true ∧ r.pkt.addrBad = false)

/-- From s to t port n died of a cause (R336, R163): the request it performs is answered with st, and the fault is raised. -/
def PortDies (s t : State) (n : Nat) (cause : BitVec 5) (detail : Half) (st : Status) : Prop :=
  let p := portGet s n
  let q := nodeGet s (portNode n) .rsp
  ∃ u, PortAndNode s u n
      { p with tgt := none, claimed := false, claiming := false, dead := true, cause := cause, quiet := true,
               clockStop := decide (cause = fCLKSTOP ∨ cause = fOSCRUNG) } (portNode n) .rsp
      { q with out := match p.tgt with | some r => q.out ++ pktUnits (responsePkt r.pkt st []) | none => q.out } ∧
    FaultRaised u t n cause detail

/-! ## Domains -/

/-- From s to t domain d became x and nothing else did but the journal: a change of its state entered it as the new DOMSTAT word (R266). -/
def DomBecomes (s t : State) (d : Nat) (x : Dom) : Prop :=
  domGet t d = x ∧ (∀ k, k ≠ d → domGet t k = domGet s k) ∧ (∀ n, portGet t n = portGet s n) ∧
  ((x.st = (domGet s d).st → t.jrn = s.jrn) ∧
   (x.st ≠ (domGet s d).st → Enters s t kHARDWARE (tidDom 1 d) ((domstatWord t d).setWidth 32))) ∧
  t = { s with doms := t.doms, ports := t.ports, jrn := t.jrn, cnt := t.cnt,
               sys := { s.sys with event := t.sys.event, eventLate := t.sys.eventLate } }

/-- R253, R254, R269, R292: what a port domain or SEAM is next, by what it is wanted for: its ladder starts, or its fence. -/
def domNext (s : State) (d : Nat) : Dom :=
  let x := domGet s d
  if d = 64 ∨ 66 ≤ d then x
  else if x.st = .off ∧ wantedOn s d = true ∧ mayWake s d = true then { x with st := .waking, rung := 0, retried := false, rest := false }
  else if x.st = .on ∧ wantedOn s d = false then { x with st := .hemming, hem := .drain }
  else x

/-- The fence of domain d has nothing to complete: a port whose intake is empty, SEAM with the bypass closed. -/
def fenceEmpty (s : State) (d : Nat) : Prop :=
  if d < 64 then (portGet s d).intake = [] ∧ (portGet s d).front = none ∧ (portGet s d).captured = none else canDrive s = false

/-- From s to t the words of domain d became those of e and the change was journaled; then the domain was looked at again (R254). -/
def DomChanged (s e t : State) (d : Nat) (kind : BitVec 3) (tid : Half) (v : Word) : Prop :=
  ∃ u, StagesOne s u kind tid v ∧ AccessOnly e u ∧ DomBecomes u t d (domNext u d)

/-- From s to u port n's interface lost its power (R269 steps 3 to 5): its STALE tags are FREE (R271), its device bus is at rest, the packets
that its node had not taken are gone. -/
def PortDown (s u : State) (n : Nat) : Prop :=
  let p := portGet s n
  portGet u n = { p with bus := DevBus.reset, pool := ((p.pool.tags.filter (fun e => decide (e.2.st = .stale))).map (fun e => BitVec.ofNat 8 e.1)).foldl tagFree p.pool } ∧
  (∀ m, m ≠ n → portGet u m = portGet s m) ∧
  (∀ k net, nodeGet u k net = if k = portNode n then { nodeGet s k net with rx := [] } else nodeGet s k net) ∧ PortsOnly s u

/-- From s to t domain d reached the end of its hemming, and then was looked at again (R254). -/
def GoesOff (s t : State) (d : Nat) (forced : Bool) : Prop :=
  let x := domGet s d
  ∃ u v, (if d < 64 then PortDown s u d else u = s) ∧
    DomBecomes u v d { x with st := .off, hem := .none, forced := x.forced || forced, holdOff := forced && decide (d < 64) } ∧
    DomBecomes v t d (domNext v d)

end Sys2Proof.Machine
end

