-- ==== Sys2Proof/Certificates/Slice0/Obligations.lean ====
section
/-!
DEFINITION. The statements for the provers. Each rule of the machine stands once under Rules; an obligation joins the rules of one
subject. A docstring says which rules of the spec it formalises.
-/
open Sys2Proof Sys2Proof.Machine

/-- R20: the 49 bits of a unit and its parity hold an odd number of ones; a unit of all zeros travels with LNK_P at 1. -/
def Sys2Proof.Rules.LinkParityIsOdd : Prop :=
  ∀ d : BitVec 48, (((List.range 48).filter (fun k => d.getLsbD k)).length + (parityOf d).toNat) % 2 = 1 ∧ parityOf 0 = true

/-- R17, R19: a sound unit held for an output crosses to the neighbouring router when that input latch is free; its own latch is freed and nothing else
moves. -/
def Sys2Proof.Rules.UnitCrossesHop : Prop :=
  ∀ (s : State) (net : Net) (r r2 : Fin 64) (out inp d2 : Dir) (u : LinkUnit),
    neighbour r.val out = some (r2.val, d2) → heldUnit s net r.val out = some (inp, u) →
    rinFree s net r2.val d2 = true → (rinGet s net r2.val d2).absorb = none →
    ((rinGet s net r2.val d2).left ≠ 0 ∨ (rinGet s net r2.val d2).discard = false ∨ utOf u.d = 1) → unitGood u = true →
    ∃ t, exec (.unitTransfer (.hop net r out) 0) s = .next t ∧
      (rinGet t net r.val inp).latch = none ∧ (rinGet t net r2.val d2).latch = some u ∧
      (∀ (m : Net) (q : Fin 64) (e : Dir), ¬(m = net ∧ q = r ∧ e = inp) → ¬(m = net ∧ q = r2 ∧ e = d2) →
        rinGet t m q.val e = rinGet s m q.val e) ∧
      t.mesh.nodes = s.mesh.nodes ∧ MeshOnly s t

/-- R17, R61: the slot that holds the local input drives its next unit into the free latch of its router. For a port or an agent that output loses just
this unit. -/
def Sys2Proof.Rules.NodeDrivesUnit : Prop :=
  ∀ (s : State) (net : Net) (node : BitVec 7) (r : Fin 64) (u : LinkUnit) (rest : List LinkUnit),
    r.val = nodeRouter node → (nodeGet s node net).out = u :: rest →
    (arbGet s net r.val .localIn).holder = some (if nodeSlotB node then 1 else 0) →
    rinFree s net r.val .loc = true → domOn s 64 = true → (rinGet s net r.val .loc).absorb = none →
    ((rinGet s net r.val .loc).left ≠ 0 ∨ (rinGet s net r.val .loc).discard = false ∨ utOf u.d = 1) → unitGood u = true →
    ∃ t, exec (.unitTransfer (.inject net node) 0) s = .next t ∧
      (rinGet t net r.val .loc).latch = some u ∧
      (∀ (m : Net) (q : Fin 64) (e : Dir), ¬(m = net ∧ q = r ∧ e = .loc) → rinGet t m q.val e = rinGet s m q.val e) ∧
      (node ≠ nodeGateA → node ≠ nodeGateB → (nodeSlotB node = true ∨ net ≠ .snp) →
        nodeGet t node net = { nodeGet s node net with out := rest } ∧
        (∀ (k : BitVec 7) (m : Net), ¬(k = node ∧ m = net) → nodeGet t k m = nodeGet s k m) ∧ MeshOnly s t)

/-- R17, R32: the slot takes a unit for its node. A unit that does not yet complete the packet is kept; the last one completes it, and the node then holds
the whole packet. -/
def Sys2Proof.Rules.NodeTakesUnit : Prop :=
  ∀ (s : State) (net : Net) (r : Fin 64) (b : Bool) (inp : Dir) (u : LinkUnit),
    heldUnit s net r.val .loc = some (inp, u) → (rinGet s net r.val inp).route = some { out := .loc, slot := b } →
    let node := slotNode r.val b
    let q := nodeGet s node net
    node ≠ nodeGateA → node ≠ nodeGateB → nodeRoom s node net = true →
    (q.part ≠ [] ∨ (utOf u.d = 1 ∧ unitGood u = true ∧ lenGood u.d = true)) →
    ((∀ h, (q.part ++ [u]).head? = some h → (q.part ++ [u]).length ≤ (hLen h.d).toNat) →
      ∃ t, exec (.unitTransfer (.deliver net r b) 0) s = .next t ∧ (rinGet t net r.val inp).latch = none ∧
        nodeGet t node net = { q with part := q.part ++ [u] } ∧
        (∀ (k : BitVec 7) (m : Net), ¬(k = node ∧ m = net) → nodeGet t k m = nodeGet s k m) ∧ MeshOnly s t) ∧
    (∀ p, (∀ h, (q.part ++ [u]).head? = some h → (hLen h.d).toNat < (q.part ++ [u]).length) →
      parsePkt (q.part ++ [u]) = some p → nodeTakes s node = true → ¬(nodeSlotB node = true ∧ net = .snp) →
      ∃ t, exec (.unitTransfer (.deliver net r b) 0) s = .next t ∧ (rinGet t net r.val inp).latch = none ∧
        nodeGet t node net = { q with part := [], rx := q.rx ++ [p] } ∧
        (∀ (k : BitVec 7) (m : Net), ¬(k = node ∧ m = net) → nodeGet t k m = nodeGet s k m) ∧ MeshOnly s t)

/-- R58, R59, R62: a sound head waiting in an input latch gets the output its DCHIP and DNODE choose, the count of following units, and a place among the
heads waiting for that output while another holds it. -/
def Sys2Proof.Rules.HeadIsRouted : Prop :=
  ∀ (s : State) (net : Net) (r : Fin 64) (inp : Dir) (u : LinkUnit),
    let x := rinGet s net r.val inp
    let tgt := routeTarget s u.d
    let out := routeTo r.val tgt
    let rt : Route := { out := out, slot := decide (out = .loc) && nodeSlotB tgt }
    let a := arbGet s net r.val (.out out)
    x.latch = some u → x.route = none → x.absorb = none →
    unitGood u = true → utOf u.d = 1 → lenGood u.d = true →
    (out = .loc → slotDo s tgt net (hDchip u.d) = .deliver) →
    ∃ t, exec (.routerHeadArrival net r inp) s = .next t ∧
      rinGet t net r.val inp = { x with route := some rt, left := (hLen u.d).toNat, discard := false } ∧
      (∀ (m : Net) (q : Fin 64) (e : Dir), ¬(m = net ∧ q = r ∧ e = inp) → rinGet t m q.val e = rinGet s m q.val e) ∧
      (a.holder = none → arbGet t net r.val (.out out) = a) ∧
      (a.holder ≠ none → arbGet t net r.val (.out out) = { a with waited := a.waited ++ [dirIx inp] }) ∧
      t.mesh.nodes = s.mesh.nodes ∧ MeshOnly s t

/-- R14, R275, R338: a sound head for a slot that answers in the place of its node is absorbed with the answer that slot gives; the units that follow go
with it. -/
def Sys2Proof.Rules.HeadIsAbsorbed : Prop :=
  ∀ (s : State) (net : Net) (r : Fin 64) (inp : Dir) (u : LinkUnit) (ans : Option Status),
    let x := rinGet s net r.val inp
    let tgt := routeTarget s u.d
    x.latch = some u → x.route = none → x.absorb = none →
    unitGood u = true → utOf u.d = 1 → lenGood u.d = true → routeTo r.val tgt = .loc →
    slotDo s tgt net (hDchip u.d) = .absorb ans →
    ∃ t, exec (.routerHeadArrival net r inp) s = .next t ∧
      rinGet t net r.val inp = { x with latch := none, discard := false,
                                        absorb := if hLen u.d = 0 then none
                                                  else some { head := headPkt u.d, answer := ans, done := false, left := (hLen u.d).toNat } } ∧
      (∀ (m : Net) (q : Fin 64) (e : Dir), ¬(m = net ∧ q = r ∧ e = inp) → rinGet t m q.val e = rinGet s m q.val e) ∧
      t.mesh.nodes = s.mesh.nodes ∧ PortsOnly s t

/-- R22: what arrives where a head is due and is not a sound head is dropped, and the input discards until the next head. -/
def Sys2Proof.Rules.BadHeadIsDiscarded : Prop :=
  ∀ (s : State) (net : Net) (r : Fin 64) (inp : Dir) (u : LinkUnit),
    let x := rinGet s net r.val inp
    x.latch = some u → x.route = none → x.absorb = none → (unitGood u = false ∨ utOf u.d ≠ 1) →
    exec (.routerHeadArrival net r inp) s = .next (rinSet s net r.val inp { x with latch := none, discard := true })

/-- R62, R63, R65: a free output is granted to a waiting head of the highest effective class among those the arbiter sees; the pointer of that class moves
to it, and the output is held for its packet. -/
def Sys2Proof.Rules.GrantTakesHighestClass : Prop :=
  ∀ (s : State) (net : Net) (r : Fin 64) (arb : ArbName) (mask : BitVec 5),
    let a := arbGet s net r.val arb
    let seen := (contenders s net r.val arb).filter (fun c => a.waited.contains c.1 || mask.getLsbD c.1)
    a.holder = none → seen ≠ [] →
    ∃ t w c, exec (.outputGrant net r arb mask) s = .next t ∧ (w, c) ∈ seen ∧
      (∀ x ∈ seen, effClass a x.1 x.2 ≤ effClass a w c) ∧
      (arbGet t net r.val arb).holder = some w ∧ (arbGet t net r.val arb).left = packetLen s net r.val arb w ∧
      (arbGet t net r.val arb).ptr = a.ptr.set (effClass a w c) w ∧
      (∀ (m : Net) (q : Fin 64) (b : ArbName), ¬(m = net ∧ q = r ∧ b = arb) → arbGet t m q.val b = arbGet s m q.val b) ∧
      t.mesh.ins = s.mesh.ins ∧ t.mesh.nodes = s.mesh.nodes ∧ MeshOnly s t

/-- R62: a held output is not granted again. -/
def Sys2Proof.Rules.HeldOutputIsNotGranted : Prop :=
  ∀ (s : State) (net : Net) (r : Fin 64) (arb : ArbName) (mask : BitVec 5),
    (arbGet s net r.val arb).holder ≠ none → exec (.outputGrant net r arb mask) s = .next s

/-- R66: a BULK head passed eight times competes as STD. That the count then stands at 9, so that the row counts once, is the model's own bookkeeping. -/
def Sys2Proof.Rules.PromotionIsCountedOnce : Prop :=
  ∀ (s : State) (net : Net) (r : Fin 64) (arb : ArbName) (cand : Fin 5),
    let a := arbGet s net r.val arb
    (cand.val, 0) ∈ contenders s net r.val arb → tget (fun _ => 0) a.passes cand.val = 8 →
    ∃ t, exec (.bulkPromotion net r arb cand) s = .next t ∧
      arbGet t net r.val arb = { a with passes := tset (fun _ => 0) a.passes cand.val 9 } ∧
      effClass (arbGet t net r.val arb) cand.val 0 = 1 ∧
      CountsOnly (arbSet s net r.val arb { a with passes := tset (fun _ => 0) a.passes cand.val 9 }) t

/-- R25: when a swap is due or a line has moved 4,096 handshakes, the idle line is trimmed to the new tap and the two lines change places, between
packets. -/
def Sys2Proof.Rules.DelayLinesSwap : Prop :=
  ∀ (s : State) (r : Fin 64) (tap : BitVec 6),
    let x := delayGet s r.val
    (x.due = true ∨ ∃ e ∈ x.shakes, 4096 ≤ e.2) → betweenPackets s r.val = true → domOn s 64 = true →
    exec (.delayLineSwap r tap) s = .next (delaySet s r.val
      { lineB := !x.lineB, tapA := if x.lineB then tap else x.tapA, tapB := if x.lineB then x.tapB else tap, due := false, shakes := [] })

/-- R74, R70: at a frame boundary every port NI has its whole ISOBUD again, whatever was left, and the frame count starts again under the ISOFRAME then in
force. Premise: the chip is not in LIMP, where no frame boundary is given (R165). -/
def Sys2Proof.Rules.IsoBudgetsReload : Prop :=
  ∀ s : State, s.power.limp = false →
    ∃ t, exec .isoFrameBoundary s = .next t ∧
      (∀ n : Fin 64, portGet t n.val = { portGet s n.val with isoLeft := isobud s n.val }) ∧
      t.time = { s.time with isoLive := (cfgGet s 0x84 0x405).extractLsb' 0 16, isoCount := 0 } ∧
      PortsOnly { s with time := t.time } t

/-- R98 step 6, R112: an access of a FLAT8 or MUX16 device enters the intake while an entry is free; with both taken it is captured and waits at the pins. -/
def Sys2Proof.Rules.AccessEntersIntake : Prop :=
  ∀ (s : State) (n : Fin 64) (acc : PinAccess),
    pinPort s n.val = true → (portGet s n.val).bus.phase = .idle → acc.rdN ≠ acc.wrN →
    (isFlat s n.val = true → acc.csN = false) → (isFlat s n.val = false → ¬(acc.addr.getLsbD 0 = true ∧ acc.bheN = true)) →
    (portGet s n.val).dead = false → domOn s n.val = true →
    ((portGet s n.val).intake.length < 2 →
      ∃ t, exec (.accessCapture n acc) s = .next t ∧ PortBecomes s t n.val (portEntered s n.val (pinAccess s n.val acc))) ∧
    (2 ≤ (portGet s n.val).intake.length →
      ∃ t, exec (.accessCapture n acc) s = .next t ∧
        PortBecomes s t n.val { portGet s n.val with
          captured := some (pinAccess s n.val acc)
          bytesWr := (portGet s n.val).bytesWr + writtenBytes (pinAccess s n.val acc)
          bus := { phase := .waiting, rdata := [], stat := .ok } })

/-- R99: the completion is cleared as the strobe rises. -/
def Sys2Proof.Rules.StrobeReleaseReadiesBus : Prop :=
  ∀ (s : State) (n : Fin 64), pinPort s n.val = true → (portGet s n.val).bus.phase = .ended →
    exec (.strobeRelease n) s = .next (portSet s n.val { portGet s n.val with bus := { phase := .idle, rdata := [], stat := .ok } })

/-- R100: both strobes low, or a MUX16 access with A0 = 1 and BHE_N = 1, forms no request: the access ends at once with no data, and PERR records DECERR. -/
def Sys2Proof.Rules.ReservedStrobesEndDecerr : Prop :=
  ∀ (s : State) (n : Fin 64) (acc : PinAccess),
    pinPort s n.val = true → (portGet s n.val).bus.phase = .idle → (isFlat s n.val = true → acc.csN = false) →
    ((acc.rdN = false ∧ acc.wrN = false) ∨
      (acc.rdN ≠ acc.wrN ∧ isFlat s n.val = false ∧ acc.addr.getLsbD 0 = true ∧ acc.bheN = true)) →
    (portGet s n.val).dead = false → domOn s n.val = true →
    ∃ t, exec (.accessCapture n acc) s = .next t ∧
      PortBecomes s t n.val { portGet s n.val with perr := perrRec (portGet s n.val).perr .decerr (pinAccess s n.val acc).p, bus := { phase := .ended, rdata := [], stat := .decerr } }

/-- R106, R107, R108, R112: each SYNC16 command enters the intake with the kind, the length and the operand beats that its command beats give. -/
def Sys2Proof.Rules.SyncCommandsEnterIntake : Prop :=
  ∀ (s : State) (n : Fin 64) (c1 c2 o1 o2 o3 o4 : Beat) (bs : List Beat) (i : Instr) (k : AccKind) (len : Nat) (beats : List Beat),
    ((i = .sync16Read n c1 c2 ∧ k = .read ∧ len = 2 * ((if xcmd s n.val then c2Count c2 else srdlen s n.val) + 1) ∧ beats = []) ∨
     (i = .sync16Write n c1 c2 bs ∧ k = .write ∧ len = 2 * bs.length ∧ beats = bs ∧ 0 < bs.length ∧ bs.length ≤ 32 ∧
       (xcmd s n.val = true → bs.length = c2Count c2 + 1)) ∨
     (i = .sync16Swap n c1 c2 o1 o2 ∧ k = .swap ∧ len = 4 ∧ beats = [o1, o2]) ∨
     (i = .sync16Fadd n c1 c2 o1 o2 ∧ k = .fadd ∧ len = 4 ∧ beats = [o1, o2]) ∨
     (i = .sync16Tas n c1 c2 ∧ k = .tas ∧ len = 4 ∧ beats = []) ∨
     (i = .sync16Cas n c1 c2 o1 o2 o3 o4 ∧ k = .cas ∧ len = 4 ∧ beats = [o1, o2, o3, o4]) ∨
     (i = .sync16Fence n c1 c2 ∧ k = .fence ∧ len = 2 ∧ beats = []) ∨
     (i = .sync16Probe n c1 c2 ∧ k = .probe ∧ len = 2 ∧ beats = [])) →
    syncReady s n.val = true → syncIs s n.val c1 c2 k = true → domOn s n.val = true →
    ∃ t, exec i s = .next t ∧ PortBecomes s t n.val (portEntered s n.val
      { kind := k, p := c1Addr c1, len := len, bytes := beats.flatMap beatBytes, cid := syncCid s n.val c2, posted := false })

/-- R107: a reserved OP ends with DECERR and sends no packet. -/
def Sys2Proof.Rules.ReservedSyncOpEndsDecerr : Prop :=
  ∀ (s : State) (n : Fin 64) (c1 c2 : Beat),
    syncReady s n.val = true → xcmd s n.val = true → opCode16 (c2Op c2) = none → domOn s n.val = true →
    ∃ t, exec (.sync16ReservedOp n c1 c2) s = .next t ∧
      PortBecomes s t n.val { portGet s n.val with perr := perrRec (portGet s n.val).perr .decerr (c1Addr c1), bus := { phase := .ended, rdata := [], stat := .decerr } }

/-- R75, R112, R129, R139: the access at the head of the intake is decoded; its first packet takes the tag longest FREE, its ISO charge is subtracted, its
units are driven, and the access leaves the intake with its last packet. -/
def Sys2Proof.Rules.DecodeSendsFirstPacket : Prop :=
  ∀ (s : State) (n : Fin 64) (a : Access) (rest : List Access) (f : Front) (q : Part) (ps : List Part) (tag : Byte) (ts : List Byte),
    let p := portGet s n.val
    let net := netOf (splitMode s n.val) (opOf q.cmd)
    let cost := isoCost s f.cls (opOf q.cmd)
    let pkt : Pkt := { dchip := f.dchip, dnode := f.dnode, snode := portNode n.val, cmd := q.cmd, cls := isoClass s f.cls, tag := tag,
                       hasAddr := true, addrBad := false, schip := s.chipnum, cid := a.cid, addr := q.addr, data := q.data, formed := true }
    mayRequest s n.val = true → domOn s n.val = true → p.intake = a :: rest → p.front = none → p.captured = none →
    claimHeld p = false → decodeAccess s n.val a = .go f → f.parts = q :: ps → markOf p a.cid = .claimed →
    p.pool.free = tag :: ts → hazard p.pool f.dchip f.dnode = false → cost ≤ p.isoLeft.toNat →
    ∃ t, exec (.intakeDecode n) s = .next t ∧
      nodeGet t (portNode n.val) net = { nodeGet s (portNode n.val) net with out := (nodeGet s (portNode n.val) net).out ++ pktUnits pkt } ∧
      (∀ (k : BitVec 7) (m : Net), ¬(k = portNode n.val ∧ m = net) → nodeGet t k m = nodeGet s k m) ∧
      (portGet t n.val).pool = { tagPut p.pool tag
        { st := .held, dchip := f.dchip, dnode := f.dnode, cmd := q.cmd, wr := opWrites (opOf q.cmd), wake := f.wake, retry := false,
          net := net, pkt := pktUnits pkt, use := .access f.id f.sent } with free := ts } ∧
      (portGet t n.val).isoLeft = p.isoLeft - BitVec.ofNat 16 cost ∧
      (ps = [] → (portGet t n.val).intake = rest ∧ (portGet t n.val).front = none) ∧
      (ps ≠ [] → (portGet t n.val).intake = a :: rest ∧ (portGet t n.val).front = some { f with sent := f.sent + 1, parts := ps }) ∧
      (∀ m, m ≠ n.val → portGet t m = portGet s m) ∧ PortsOnly s t

/-- R129, R130, R133: an access that decodes to no window, or fails in it, ends with DECERR and PERR records it. -/
def Sys2Proof.Rules.UndecodableAccessEndsDecerr : Prop :=
  ∀ (s : State) (n : Fin 64) (a : Access) (rest : List Access) (miss : Bool),
    let p := portGet s n.val
    niFree s n.val = true → domOn s n.val = true → p.intake = a :: rest → p.front = none → p.captured = none →
    claimHeld p = false → decodeAccess s n.val a = .fail miss →
    ∃ t, exec (.intakeDecode n) s = .next t ∧
      PortBecomes s t n.val (portEnded { p with intake := rest, front := none, perr := perrRec p.perr .decerr a.p } a .decerr [])

/-- R147: an access under an unclaimed client first sends a claim, which holds a tag. Claims go to SYS as state, not as a packet (log 12). -/
def Sys2Proof.Rules.FirstUseSendsClaim : Prop :=
  ∀ (s : State) (n : Fin 64) (a : Access) (rest : List Access) (f : Front) (tag : Byte) (ts : List Byte),
    let p := portGet s n.val
    mayRequest s n.val = true → domOn s n.val = true → sysOn s = true → p.intake = a :: rest → p.front = none → claimHeld p = false →
    decodeAccess s n.val a = .go f → markOf p a.cid = .unclaimed →
    p.pool.free = tag :: ts → hazard p.pool s.chipnum nodeSys = false →
    ∃ t, exec (.intakeDecode n) s = .next t ∧
      t.sys.claims = s.sys.claims ++ [{ chip := s.chipnum, port := n.val, cid := a.cid, tag := tag }] ∧
      portGet t n.val = { p with pool := { tagPut p.pool tag
        { Tag.reset with st := .held, dchip := s.chipnum, dnode := nodeSys, cmd := cmdOf (.write 1), wr := true, use := .claim a.cid }
          with free := ts } } ∧
      (∀ m, m ≠ n.val → portGet t m = portGet s m) ∧ t.mesh = s.mesh ∧
      PortsOnly { s with sys := { s.sys with claims := t.sys.claims } } t

/-- R139, R141, R113: the last response of an access returns its tag and ends it at the device with its status and the bytes read; a failure is recorded
in PERR. -/
def Sys2Proof.Rules.ResponseEndsAccess : Prop :=
  ∀ (s : State) (n : Fin 64) (pk : Pkt) (more : List Pkt) (id part : Nat) (o : Outst) (st : Status) (ws : List Word),
    let p := portGet s n.val
    let x := tagAt p.pool pk.tag
    s.calm → (nodeGet s (portNode n.val) .rsp).rx = pk :: more → niAlive s n.val = true → p.fwdDue = false →
    x.st = .held → x.use = .access id part → rspVerdict x.cmd pk = .done st ws → waitsOn x st = false →
    p.accs.find? (fun e => e.1 = id) = some (id, o) → o.left ≤ 1 → o.failed = none →
    ∃ t, exec (.responseMatch (portNode n.val)) s = .next t ∧
      PortAndNode s t n.val
        (portEnded { p with pool := tagAfter st p.pool pk.tag, accs := terase p.accs id, perr := if st = .ok then p.perr else perrRec p.perr st o.acc.p }
          o.acc st (readBytes o.faddr.toNat o.acc.len (rdWords ((part, ws) :: o.rd) 64)))
        (portNode n.val) .rsp { nodeGet s (portNode n.val) .rsp with rx := more }

/-- R140: at the response timeout the access ends with TIMEOUT and its tag becomes STALE. -/
def Sys2Proof.Rules.TimeoutLeavesTagStale : Prop :=
  ∀ (s : State) (n : Fin 64) (tag : Byte) (id part : Nat) (o : Outst),
    let p := portGet s n.val
    let x := tagAt p.pool tag
    s.calm → p.fwdDue = false → x.st = .held → x.use = .access id part → headDriven s (portNode n.val) x = true →
    p.accs.find? (fun e => e.1 = id) = some (id, o) → o.left ≤ 1 → o.failed = none →
    ∃ t, exec (.tagTimeout (.port n) tag) s = .next t ∧ (tagAt (portGet t n.val).pool tag).st = .stale ∧
      PortBecomes s t n.val
        (portEnded { p with pool := tagPut p.pool tag { x with st := .stale }, accs := terase p.accs id, perr := perrRec p.perr .timeout o.acc.p }
          o.acc .timeout [])

/-- R139, R140: the further timeout of a STALE tag returns it to FREE. -/
def Sys2Proof.Rules.StaleTagBecomesFree : Prop :=
  ∀ (s : State) (tag : Byte),
    (∀ n : Fin 64, (tagAt (portGet s n.val).pool tag).st = .stale →
      exec (.staleTagExpiry (.port n) tag) s = .next (portSet s n.val { portGet s n.val with pool := tagFree (portGet s n.val).pool tag })) ∧
    ((tagAt s.sys.agents tag).st = .stale →
      exec (.staleTagExpiry .agents tag) s = .next { s with sys := { s.sys with agents := tagFree s.sys.agents tag } })

/-- R418, R140: the FENCE of index 0x10 completes with its response, or with TIMEOUT and a STALE tag; the result is held at the index. -/
def Sys2Proof.Rules.HostFenceEndsWithItsTag : Prop :=
  ∀ (s : State) (tag : Byte),
    let x := tagAt s.sys.agents tag
    s.calm → s.sys.queued = [] → x.st = .held → x.use = .fence none →
    (headDriven s nodeSys x = true →
      exec (.tagTimeout .agents tag) s = .next { s with
        host := { s.host with waitLow := false }
        sys := { s.sys with agents := tagPut s.sys.agents tag { x with st := .stale }, fenceStat := 6, fenceVal := true, fenceBusy := false } }) ∧
    (∀ pk more, sysOn s = true → (nodeGet s nodeSys .rsp).rx = pk :: more → pk.tag = tag → rspVerdict x.cmd pk = .done .ok [] →
      ∃ t, exec (.responseMatch nodeSys) s = .next t ∧
        nodeGet t nodeSys .rsp = { nodeGet s nodeSys .rsp with rx := more } ∧
        t = { s with
          host := { s.host with waitLow := false }
          sys := { s.sys with agents := tagFree s.sys.agents tag, fenceStat := 0, fenceVal := true, fenceBusy := false }
          mesh := t.mesh })

/-- R144, R145: ASLEEP-WAKING completes nothing; the tag is kept and will drive its request again. -/
def Sys2Proof.Rules.AsleepWakingKeepsTag : Prop :=
  ∀ (s : State) (n : Fin 64) (pk : Pkt) (more : List Pkt) (ws : List Word),
    let p := portGet s n.val
    let x := tagAt p.pool pk.tag
    s.calm → (nodeGet s (portNode n.val) .rsp).rx = pk :: more → niAlive s n.val = true → p.fwdDue = false →
    x.st = .held → rspVerdict x.cmd pk = .done .aslWaking ws → opOf x.cmd ≠ .probe → x.pkt ≠ [] →
    ∃ t, exec (.responseMatch (portNode n.val)) s = .next t ∧
      PortAndNode s t n.val { p with pool := tagPut p.pool pk.tag { x with retry := true } }
        (portNode n.val) .rsp { nodeGet s (portNode n.val) .rsp with rx := more }

/-- R144 step 5: the same request is driven again with the same tag, when its ISO charge still fits. -/
def Sys2Proof.Rules.RetryDrivesPacketAgain : Prop :=
  ∀ (s : State) (n : Fin 64) (tag : Byte) (q : Pkt),
    let p := portGet s n.val
    let x := tagAt p.pool tag
    let cost := isoCost s q.cls (opOf x.cmd)
    x.st = .held → x.retry = true → mayRequest s n.val = true → parsePkt x.pkt = some q → cost ≤ p.isoLeft.toNat →
    ∃ t, exec (.wakeRetry n tag) s = .next t ∧
      PortAndNode s t n.val { p with pool := tagPut p.pool tag { x with retry := false }, isoLeft := p.isoLeft - BitVec.ofNat 16 cost }
        (portNode n.val) x.net { nodeGet s (portNode n.val) x.net with out := (nodeGet s (portNode n.val) x.net).out ++ x.pkt }

/-- R97, R110, R136: a request the port may perform leaves the queue and its bus cycles begin: the run of the words of a READ, of the enabled lanes of a
WRITE, and for an atomic of a FLAT8 or MUX16 port the reads and, when something is to be written, the writes. -/
def Sys2Proof.Rules.TargetStartsBusCycles : Prop :=
  ∀ (s : State) (n : Fin 64) (net : Net) (busyN : Bool) (q : Pkt) (more : List Pkt) (i : Instr) (cs : List BusCycle) (words : List Word)
    (wrote : List DataUnit) (dev : List DevBeat) (u : DataUnit) (us : List DataUnit) (op : Op),
    let node := portNode n.val
    let f := byteAddr q.addr
    let old := (gatherWord s n.val u.be dev).1
    let res := atomicWrite op u.be old u.data ((us.headD u).data)
    ((∃ k, i = .cmdRead node busyN ∧ net = netWith s node isReadOp ∧ opOf q.cmd = .read k ∧ cs = readRun s n.val f k ∧ words = [] ∧ wrote = []) ∨
     (∃ k, i = .cmdWrite node net busyN ∧ opOf q.cmd = .write k ∧ cs = writeRun s n.val f q.data ∧ words = [] ∧ wrote = q.data) ∨
     ((i = .cmdSwap node busyN dev ∧ op = .swap ∨ i = .cmdFadd node busyN dev ∧ op = .fadd ∨ i = .cmdTas node busyN dev ∧ op = .tas ∨
        i = .cmdCas node busyN dev ∧ op = .cas) ∧ opOf q.cmd = op ∧ net = netWith s node (fun o => decide (o = op)) ∧ q.data = u :: us ∧
       isSync s n.val = false ∧ dev.length = (readCycles s n.val f u.be).length ∧ words = [old &&& laneMask u.be] ∧
       ((∃ w, res = some w ∧ cs = readCycles s n.val f u.be ++ writeCycles s n.val f { u with data := w } ∧ wrote = [{ u with data := w }]) ∨
        (res = none ∧ cs = readCycles s n.val f u.be ∧ wrote = [])))) →
    niServes s n.val = true → (nodeGet s node .rsp).out = [] → (nodeGet s node net).rx = q :: more → judge s n.val q = .device →
    busFree s n.val = true → refusedBusy s n.val busyN cs = false →
    ∃ t, exec i s = .next t ∧
      PortAndNode s t n.val { portGet s n.val with tgt := some { pkt := q, net := net, stat := .ok, words := words, wrote := wrote }, cycles := cs }
        node net { nodeGet s node net with rx := more }

/-- R110, R136: a SYNC16 target hands an atomic to its device: operand beats at the address of the word, low halfword first. -/
def Sys2Proof.Rules.SyncAtomicGoesToDevice : Prop :=
  ∀ (s : State) (n : Fin 64) (busyN : Bool) (q : Pkt) (more : List Pkt) (i : Instr) (dev : List DevBeat) (u : DataUnit) (us : List DataUnit) (op : Op),
    let node := portNode n.val
    let net := netWith s node (fun o => decide (o = op))
    (i = .cmdSwap node busyN dev ∧ op = .swap ∨ i = .cmdFadd node busyN dev ∧ op = .fadd ∨ i = .cmdTas node busyN dev ∧ op = .tas ∨
        i = .cmdCas node busyN dev ∧ op = .cas) →
    opOf q.cmd = op → q.data = u :: us → isSync s n.val = true →
    niServes s n.val = true → (nodeGet s node .rsp).out = [] → (nodeGet s node net).rx = q :: more → judge s n.val q = .device →
    busFree s n.val = true →
    ∃ t cs, exec i s = .next t ∧
      cs.length = 2 * (match op with | .tas => if u.be = 0xF then 0 else 1 | _ => us.length + 1) ∧
      (∀ c ∈ cs, c.write = true ∧ (c.addr = BitVec.ofNat 24 (byteAddr q.addr) ∨ c.addr = BitVec.ofNat 24 (byteAddr q.addr + 2))) ∧
      PortAndNode s t n.val { portGet s n.val with tgt := some { pkt := q, net := net, stat := .ok, words := [], wrote := [] }, cycles := cs }
        node net { nodeGet s node net with rx := more }

/-- R57, R115: a request that the port answers itself leaves the queue, reaches no device, and its answer is the only unit sent. -/
def Sys2Proof.Rules.TargetTurnsRequestAway : Prop :=
  ∀ (s : State) (n : Fin 64) (net : Net) (busyN : Bool) (q : Pkt) (more : List Pkt) (i : Instr) (dev : List DevBeat) (st : Status),
    let node := portNode n.val
    ((i = .cmdRead node busyN ∧ net = netWith s node isReadOp ∧ isReadOp (opOf q.cmd) = true) ∨
     (i = .cmdWrite node net busyN ∧ isWriteOp (opOf q.cmd) = true) ∨
     (i = .cmdSwap node busyN dev ∧ net = netWith s node (fun o => decide (o = .swap)) ∧ opOf q.cmd = .swap) ∨
     (i = .cmdFadd node busyN dev ∧ net = netWith s node (fun o => decide (o = .fadd)) ∧ opOf q.cmd = .fadd) ∨
     (i = .cmdTas node busyN dev ∧ net = netWith s node (fun o => decide (o = .tas)) ∧ opOf q.cmd = .tas) ∨
     (i = .cmdCas node busyN dev ∧ net = netWith s node (fun o => decide (o = .cas)) ∧ opOf q.cmd = .cas) ∨
     (i = .cmdProbe node ∧ net = netWith s node (fun o => decide (o = .probe)) ∧ opOf q.cmd = .probe) ∨
     (i = .cmdFence node ∧ net = netWith s node (fun o => decide (o = .fence)) ∧ opOf q.cmd = .fence)) →
    niServes s n.val = true → (nodeGet s node .rsp).out = [] → (nodeGet s node net).rx = q :: more → judge s n.val q = .answer st →
    q.dnode = node → net ≠ .rsp →
    ∃ t, exec i s = .next t ∧ (nodeGet t node .rsp).out = pktUnits (responsePkt q st []) ∧
      nodeGet t node net = { nodeGet s node net with rx := more } ∧
      (∀ (k : BitVec 7) (m : Net), ¬(k = node ∧ (m = net ∨ m = .rsp)) → nodeGet t k m = nodeGet s k m) ∧ MeshOnly s t

/-- R48: a PROBE is answered OK at once by a port that performs requests; the device is not reached. -/
def Sys2Proof.Rules.ProbeIsAnswered : Prop :=
  ∀ (s : State) (n : Fin 64) (q : Pkt) (more : List Pkt),
    let node := portNode n.val
    let net := netWith s node (fun o => decide (o = .probe))
    niServes s n.val = true → (nodeGet s node .rsp).out = [] → (nodeGet s node net).rx = q :: more → opOf q.cmd = .probe →
    judge s n.val q = .device → q.dnode = node →
    ∃ t, exec (.cmdProbe node) s = .next t ∧ (nodeGet t node .rsp).out = pktUnits (responsePkt q .ok []) ∧
      nodeGet t node net = { nodeGet s node net with rx := more } ∧
      (∀ (k : BitVec 7) (m : Net), ¬(k = node ∧ (m = net ∨ m = .rsp)) → nodeGet t k m = nodeGet s k m) ∧ MeshOnly s t

/-- R47: a FENCE is taken and held; it is answered OK once no request is in progress and the notifications have been sent. -/
def Sys2Proof.Rules.FenceWaitsThenIsAnswered : Prop :=
  ∀ (s : State) (n : Fin 64) (q : Pkt) (more : List Pkt),
    let node := portNode n.val
    let net := netWith s node (fun o => decide (o = .fence))
    let p := portGet s n.val
    niServes s n.val = true → (nodeGet s node .rsp).out = [] →
    ((nodeGet s node net).rx = q :: more → opOf q.cmd = .fence → judge s n.val q = .device →
      (net = .dat ∨ (nodeGet s node .dat).rx = []) →
      ∃ t, exec (.cmdFence node) s = .next t ∧
        PortAndNode s t n.val { p with fences := p.fences ++ [q] } node net { nodeGet s node net with rx := more }) ∧
    (∀ f fs, p.fences = f :: fs → f.dnode = node → p.tgt = none → p.wsend = [] → p.wheld = [] → (nodeGet s node .snp).out = [] →
      ∃ t, exec (.fenceComplete node) s = .next t ∧
        PortAndNode s t n.val { p with fences := fs } node .rsp { nodeGet s node .rsp with out := pktUnits (responsePkt f .ok []) })

/-- R97, R214: when the bus cycles are done the response is sent first, then the notifications of what was written: the first is driven, the others stay
in the send buffer. The byte counts of R393 advance. -/
def Sys2Proof.Rules.TargetAnswersWhenDone : Prop :=
  ∀ (s : State) (n : Fin 64) (dev : List DevBeat) (r : TgtReq) (ds wrote : List DataUnit),
    let node := portNode n.val
    let p := portGet s n.val
    let p1 : PortSt := { p with tgt := none, claimed := false, bytesRd := p.bytesRd + BitVec.ofNat 32 (readCount s n.val p.cycles dev),
                                bytesWr := p.bytesWr + BitVec.ofNat 32 (cycleBytes true p.cycles) }
    let q1 : NodeQ := { nodeGet s node .rsp with out := pktUnits (responsePkt r.pkt .ok ds) }
    p.tgt = some r → r.pkt.dnode = node → (nodeGet s node .rsp).out = [] → tgtResult s n.val r dev = some (ds, wrote) →
    ((wrote = [] ∨ watchList s n.val r.pkt wrote = []) →
      ∃ t, exec (.targetRequestDone n dev) s = .next t ∧ PortAndNode s t n.val p1 node .rsp q1) ∧
    (∀ w ws, wrote ≠ [] → watchList s n.val r.pkt wrote = w :: ws → (∀ v ∈ w :: ws, inTable s v.dchip = true) →
      p.wsend = [] → (nodeGet s node .snp).out = [] →
      ∃ t, exec (.targetRequestDone n dev) s = .next t ∧ portGet t n.val = { p1 with wsend := ws } ∧ nodeGet t node .rsp = q1 ∧
        (nodeGet t node .snp).out = pktUnits w ∧ PortsOnly s t)

/-- R111: a DUAL port asks for its bus by DIR and has it when the device has let go; a beat already offered delays it once. -/
def Sys2Proof.Rules.BusIsClaimed : Prop :=
  ∀ (s : State) (n : Fin 64) (valid : Bool),
    let p := portGet s n.val
    isDual s n.val = true → niServes s n.val = true → p.claimed = false → p.bus.phase ≠ .waiting → busWanted s n.val = true →
    exec (.busClaim n valid) s = .next (portSet s n.val
      (if valid = true ∧ p.claiming = false then { p with claiming := true } else { p with claimed := true, claiming := false }))

/-- R220, R218, R219: a WATCH without data units is marked in WMARK and not replayed; one with data runs as a write through the window chosen, and without
such a window, or in role INIT, it is discarded and counted. -/
def Sys2Proof.Rules.WatchArrives : Prop :=
  ∀ (s : State) (n : Fin 64) (busyN : Bool) (q : Pkt) (more : List Pkt),
    let node := portNode n.val
    let p := portGet s n.val
    let q1 : NodeQ := { nodeGet s node .snp with rx := more }
    niServes s n.val = true → p.replay = none → (nodeGet s node .snp).rx = q :: more → watchBad q = false →
    (q.data = [] →
      ∃ t, exec (.watchArrival n busyN) s = .next t ∧
        PortAndNode s t n.val { p with wmark := 1#1 ++ BitVec.ofBool (p.wmark.getLsbD 31 || p.wmark.getLsbD 30) ++ q.addr } node .snp q1) ∧
    (∀ a, q.data ≠ [] → isInit s n.val = false → replayAddr s n.val q = some a → busFree s n.val = true →
      refusedBusy s n.val busyN (writeRun s n.val a q.data) = false →
      ∃ t, exec (.watchArrival n busyN) s = .next t ∧
        PortAndNode s t n.val { p with replay := some { pkt := q, running := true }, cycles := writeRun s n.val a q.data } node .snp q1) ∧
    (q.data ≠ [] → (isInit s n.val = true ∨ replayAddr s n.val q = none) →
      ∃ t, exec (.watchArrival n busyN) s = .next t ∧
        PortAndNode s t n.val { p with nomap := true, drops := if p.drops = 0xFFFF then 0xFFFF else p.drops + 1 } node .snp q1)

/-- R216, R217: after WATCHTO the sender drops the notification at the front, and the watcher the one that found its replay buffer busy; each drop is
flagged and counted up to 65,535. -/
def Sys2Proof.Rules.WatchDropsAreCounted : Prop :=
  ∀ (s : State) (n : Fin 64),
    let node := portNode n.val
    let p := portGet s n.val
    let more := if p.drops = 0xFFFF then 0xFFFF else p.drops + 1
    (∀ q qs, p.replay ≠ none → (nodeGet s node .snp).rx = q :: qs → niServes s n.val = true →
      ∃ t, exec (.watchReplayTimeout n) s = .next t ∧
        PortAndNode s t n.val { p with rdrop := true, drops := more } node .snp { nodeGet s node .snp with rx := qs }) ∧
    (∀ u us, (nodeGet s node .snp).out = u :: us → utOf u.d = 1 → us.length = (hLen u.d).toNat →
      (arbGet s .snp n.val .localIn).holder ≠ some 0 → p.wsend = [] → p.wheld = [] →
      ∃ t, exec (.watchSendTimeout n) s = .next t ∧
        PortAndNode s t n.val { p with sdrop := true, drops := more } node .snp { nodeGet s node .snp with out := [] })

/-- R217: the replay buffer frees when the last bus cycle of the replay ends. -/
def Sys2Proof.Rules.ReplayEnds : Prop :=
  ∀ (s : State) (n : Fin 64) (q : Pkt),
    let p := portGet s n.val
    p.replay = some { pkt := q, running := true } →
    ∃ t, exec (.watchReplayDone n) s = .next t ∧
      PortBecomes s t n.val { countCycles p p.cycles with replay := none, claimed := false }

/-- R119, R120, R247: an activation, or a repeat while the pin stays active, sends one CTL write of the DOORBELL word of the bobbin that PIRQCFG names,
with the bit it names. -/
def Sys2Proof.Rules.PirqIsForwarded : Prop :=
  ∀ (s : State) (n : Fin 64) (i : Instr) (tag : Byte) (ts : List Byte),
    let p := portGet s n.val
    let w := pirqcfg s n.val
    let chip : Byte := w.extractLsb' 10 8
    let pkt : Pkt := { dchip := chip, dnode := nodeBob, snode := portNode n.val, cmd := 0x20, cls := 2, tag := tag, hasAddr := true,
                       addrBad := false, schip := s.chipnum, cid := dcid s n.val, addr := BitVec.ofNat 30 (fieldNat w 0 6 * 64 + 2),
                       data := [{ data := BitVec.ofNat 32 (2 ^ fieldNat w 6 4), be := 3, bad := false }], formed := true }
    ((i = .pirqActivation n ∧ p.pirqIn = false) ∨ (i = .pirqRepeat n ∧ p.pirqIn = true ∧ fieldNat w 19 3 ≠ 0)) →
    pirqOn s n.val = true → p.fwdOut = false → mayRequest s n.val = true → inTable s chip = true → p.pool.free = tag :: ts →
    hazard p.pool chip nodeBob = false →
    ∃ t net, exec i s = .next t ∧ net = (if splitMode s n.val then Net.dat else .req) ∧
      (portGet t n.val).pirqIn = true ∧ (portGet t n.val).fwdOut = true ∧ (portGet t n.val).fwdDue = false ∧
      (tagAt (portGet t n.val).pool tag).st = .held ∧ (portGet t n.val).pool.free = ts ∧
      (∀ m, m ≠ n.val → portGet t m = portGet s m) ∧
      (nodeGet t (portNode n.val) net).out = (nodeGet s (portNode n.val) net).out ++ pktUnits pkt ∧
      (∀ (k : BitVec 7) (m : Net), ¬(k = portNode n.val ∧ m = net) → nodeGet t k m = nodeGet s k m) ∧ PortsOnly s t

/-- R119: the pin is seen inactive. -/
def Sys2Proof.Rules.PirqReadsInactive : Prop :=
  ∀ (s : State) (n : Fin 64), domOn s n.val = true →
    exec (.pirqDeactivation n) s = .next (portSet s n.val { portGet s n.val with pirqIn := false })

/-- R174: a spliced chip that is not the addressee forwards JOIN, GRANT, LEAVE, RELEASE, ROLL, DUP, EJECT and FAULT unchanged on ring A. That EJECT is
followed only in a pause that granted this chip is a reading (log 28). -/
def Sys2Proof.Rules.RingMessagesGoOn : Prop :=
  ∀ (s : State) (c : Byte) (i : Instr) (msg : BitVec 4),
    canDrive s = true → isMaster s = false → s.ring.resync = false →
    ((i = .join c ∧ msg = 0x4) ∨ (i = .grant c ∧ msg = 0x5) ∨ (i = .leave c ∧ msg = 0x6) ∨ (i = .release c ∧ msg = 0x7 ∧ c ≠ s.chipnum) ∨
     (i = .roll c ∧ msg = 0x9 ∧ c ≠ s.chipnum) ∨ (i = .dup c ∧ msg = 0xC) ∨
     (i = .eject c ∧ msg = 0xD ∧ (c ≠ s.chipnum ∨ s.ring.granted = false)) ∨ (i = .ringFaultMsg c ∧ msg = 0xE ∧ c ≠ s.chipnum)) →
    exec i s = .next (gwTx s .a [ctlTransfer 3 msg c])

/-- R187, R188: the roll call of a chip that is not the master: it passes ROLLSTART and TABLE on, and adds its own number (after DUP, where it found its
number taken) before ROLLEND. -/
def Sys2Proof.Rules.RollCallPassesOn : Prop :=
  ∀ (s : State) (c : Byte), canDrive s = true → isMaster s = false → s.ring.resync = false →
    exec .rollstart s = .next (ringMod (gwTx s .a [ctlTransfer 3 0x8 0]) (fun r => { r with rollTurn := false, dupFound := false, tables := [] })) ∧
    exec (.table c) s = .next (ringMod (gwTx s .a [ctlTransfer 3 0xB c]) (fun r => { r with tables := r.tables ++ [c] })) ∧
    (s.ring.dupFound = false →
      exec .rollend s = .next (ringMod (gwTx s .a [ctlTransfer 3 0x9 s.chipnum, ctlTransfer 3 0xA 0])
        (fun r => { r with rollTurn := true, tables := [] }))) ∧
    (s.ring.dupFound = true →
      exec .rollend s = .next (ringMod (gwTx s .a [ctlTransfer 3 0xC s.chipnum, ctlTransfer 3 0x9 s.chipnum, ctlTransfer 3 0xA 0])
        (fun r => { r with rollTurn := true, tables := [] })))

/-- R201: after its first ABORT a chip forwards each one; the master sends four on both rings and repeats them until they return. -/
def Sys2Proof.Rules.AbortsGoOn : Prop :=
  ∀ (s : State) (g : Ring), canDrive s = true →
    (isMaster s = false → (s.ring.gateA.abortSeen ≠ 0 ∨ s.ring.gateB.abortSeen ≠ 0) →
      exec (.abort g) s = .next (gateMod (gwTx s g [ctlTransfer 3 0xF 0]) g (fun y => { y with abortSeen := y.abortSeen + 1 }))) ∧
    (isMaster s = true → s.ring.op = .reform →
      ∃ t, exec .abortRepeat s = .next t ∧ t = { s with ring := t.ring } ∧
        t.ring.gateA.tx = s.ring.gateA.tx ++ List.replicate 4 (ctlTransfer 3 0xF 0) ∧
        t.ring.gateB.tx = s.ring.gateB.tx ++ List.replicate 4 (ctlTransfer 3 0xF 0) ∧
        t.ring.gateA.abortSeen = 0 ∧ t.ring.gateB.abortSeen = 0 ∧ t.ring.op = .reform ∧ t.ring.st = s.ring.st ∧
        t.ring.chips = s.ring.chips)

/-- R193, R194: PAUSE is forwarded and stops new packets; QUIET goes on once the seam of this chip is quiet. -/
def Sys2Proof.Rules.PauseStopsPackets : Prop :=
  ∀ (s : State), canDrive s = true → isMaster s = false →
    (s.ring.resync = false →
      ∃ t, exec .pause s = .next t ∧
        CountsOnly (ringMod (gwTx s .a [ctlTransfer 3 0x1 0]) (fun r => { r with paused := true, stopped := true, granted := false })) t ∧
        mayStart t = false) ∧
    (seamQuiet s = true → ∀ g, exec (.quiet g) s = .next (gwTx s g [ctlTransfer 3 0x2 0]))

/-- R184, R185: PULSE goes round with ARG + 1, the master ends its own and opens the join slot, and every 1 ms the master sends PULSE 0 on both rings. -/
def Sys2Proof.Rules.PulsesGoRound : Prop :=
  ∀ (s : State) (g : Ring), canDrive s = true →
    (isMaster s = false → s.ring.st ≠ .orphan → ∀ arg : Byte, (s.ring.paused = true ∨ arg.toNat = pulseArg s g) →
      exec (.pulse g arg) s =
        .next (gwTx (if g = .a then ringMod s (fun r => { r with slotOpen := true }) else s) g [ctlTransfer 2 0 (arg + 1)])) ∧
    (isMaster s = true → (gateGet s g).pulseOut = true → ∀ arg : Byte, (s.ring.paused = true ∨ arg.toNat = pulseArg s g) →
      exec (.pulse g arg) s =
        .next (if g = .a then ringMod (gateMod s g (fun y => { y with pulseOut := false })) (fun r => { r with slotOpen := r.slotEn })
               else gateMod s g (fun y => { y with pulseOut := false }))) ∧
    (isMaster s = true →
      exec .pulseTimer s = .next (gateMod (gwTx (gateMod (gwTx s .a [ctlTransfer 2 0 0]) .a (fun y => { y with pulseOut := true }))
        .b [ctlTransfer 2 0 0]) .b (fun y => { y with pulseOut := true })))

/-- R190, R191: a request that passes its check goes on as JOIN; one that fails is ignored; the slot is closed either way. A chip that is bypassed stops
asking in that slot. -/
def Sys2Proof.Rules.JoinSlotsCarryRequests : Prop :=
  ∀ (s : State) (sample : Half),
    (canDrive s = true → isMaster s = false → s.ring.slotOpen = true → joinWordGood (~~~ sample) = true →
      exec (.joinSlot sample) s = .next (gwTx (ringMod s (fun r => { r with slotOpen := false })) .a
        [ctlTransfer 3 0x4 ((~~~ sample).extractLsb' 0 8)])) ∧
    (canDrive s = true → s.ring.slotOpen = true → joinWordGood (~~~ sample) = false →
      exec (.joinSlot sample) s = .next (ringMod s (fun r => { r with slotOpen := false }))) ∧
    (canDrive s = false → exec (.joinSlot sample) s = .next (ringMod s (fun r => { r with asking := false })))

/-- R170, R171, R176, R180: the head of a packet for this chip enters the mesh at the gateway of its ring, with its type and parity made anew, and the
credit of its channel goes back on the other ring. -/
def Sys2Proof.Rules.SeamUnitEntersMesh : Prop :=
  ∀ (s : State) (g : Ring) (t1 t2 t3 : BitVec 17),
    let c := seamCh t1
    let x := sinGet (gateGet s g) c
    let y := sinGet (gateGet s g) (if c % 2 = 0 then c + 1 else c - 1)
    let d : BitVec 48 := 1#2 ++ seamU t1 t2 t3
    let node := gateNode g
    let net := netOfChannel c
    canDrive s = true → s.ring.resync = false → t1.msb = true → seamSpGood t1 t2 t3 = true → x.latch = none → x.left = 0 →
    hDchip d = s.chipnum → inTable s s.chipnum = true → (y.toMesh && y.busy) = false → (nodeGet s node net).out = [] →
    ∃ t, exec (.seamUnit g t1 t2 t3) s = .next t ∧
      nodeGet t node net = { nodeGet s node net with out := [{ d := d, p := parityOf d }] } ∧
      (∀ (k : BitVec 7) (m : Net), ¬(k = node ∧ m = net) → nodeGet t k m = nodeGet s k m) ∧
      sinGet (gateGet t g) c = { latch := none, left := (hLen d).toNat, first := true, toMesh := true, drop := false,
                                 busy := decide ((hLen d).toNat ≠ 0) } ∧
      (gateGet t (otherRing g)).tx = (gateGet s (otherRing g)).tx ++ [ctlTransfer 1 0 (BitVec.ofNat 8 (2 ^ c))] ∧
      MeshOnly { s with ring := t.ring } t

/-- R175, R176: CREDIT gives back the credits it names, and no other. Premise: nothing waits at the gateways, so that no unit goes at once. -/
def Sys2Proof.Rules.CreditsReturn : Prop :=
  ∀ (s : State) (g : Ring) (arg : Byte),
    canDrive s = true → s.ring.resync = false → gatesEmpty s →
    (∀ c, c < 8 → arg.getLsbD c = true → (soutGet (gateGet s (otherRing g)) c).credit = false) →
    ∃ t, exec (.credit g arg) s = .next t ∧
      (∀ c, c < 8 → soutGet (gateGet t (otherRing g)) c =
        { soutGet (gateGet s (otherRing g)) c with credit := (soutGet (gateGet s (otherRing g)) c).credit || arg.getLsbD c }) ∧
      gateGet t g = gateGet s g ∧ t = { s with ring := t.ring }

/-- R199, R200, R346: a control transfer of even parity (cause 2), or no PULSE (cause 3), makes a chip that is not the master declare a ring fault:
packets stop, FAULT goes out on ring A, and the fault of SEAM is raised with its cause. -/
def Sys2Proof.Rules.RingFaultIsDeclared : Prop :=
  ∀ (s : State) (i : Instr) (cause : BitVec 4) (g : Ring) (d : Half),
    ((i = .ctlpar g d ∧ ctlGood d = false ∧ cause = 2) ∨ (i = .nopulse ∧ cause = 3)) →
    canDrive s = true → isMaster s = false → (s.ring.st = .spliced ∨ s.ring.st = .orphan) → s.ring.resync = false → s.ringStill →
    nvOn s = true → s.jrn.staging.length + 2 ≤ 72 → (faultdb s).getLsbD 18 = false →
    ∃ t, exec i s = .next t ∧
      t.ring = { s.ring with stopped := true, fault := true, cause := cause, resync := true, op := .idle,
                             count := if s.ring.count = 0xFFFF then 0xFFFF else s.ring.count + 1,
                             st := if cause = 3 then .orphan else s.ring.st,
                             gateA := { s.ring.gateA with tx := s.ring.gateA.tx ++ [ctlTransfer 3 0xE s.chipnum] } } ∧
      (faultGet t 65).code = 0x0E ∧ (faultGet t 65).isNew = true ∧ (∀ k, k ≠ 65 → faultGet t k = faultGet s k) ∧
      t.sys.event.getLsbD 0 = true ∧ RecordsOnly { s with ring := t.ring } t

/-- R199, R200: a spliced chip that sees no PULSE while it resynchronises is an ORPHAN. -/
def Sys2Proof.Rules.LostPulseMakesOrphan : Prop :=
  ∀ s : State, canDrive s = true → isMaster s = false → s.ring.resync = true →
    ∃ t, exec .nopulse s = .next t ∧ t.ring = { s.ring with st := .orphan } ∧ JournalOnly { s with ring := t.ring } t

/-- R193 step 5, R195: the GRANT a waiting chip asked for opens its bypass; the master opens its own after 3 ms without a PULSE and starts the roll call,
and where it sees one sets RINGSTAT.DUP. -/
def Sys2Proof.Rules.GrantOpensBypass : Prop :=
  ∀ s : State, canDrive s = false → mayJoin s = true →
    (s.ring.st = .waiting →
      ∃ t, exec (.grant s.chipnum) s = .next t ∧
        t.ring = { s.ring with bypass := false, st := .spliced, asking := false, paused := true, stopped := true, rolls := [], tables := [],
                               rollTurn := false, dupFound := false, granted := true, gateA := Gate.reset, gateB := Gate.reset } ∧
        JournalOnly { s with ring := t.ring } t) ∧
    (isMaster s = true →
      (∃ t, exec (.masterSelfSplice false) s = .next t ∧ t.ring.bypass = false ∧ t.ring.st = .spliced ∧ t.ring.paused = true ∧
        t.ring.op = .rollCall ∧ t.ring.gateA.tx = [ctlTransfer 3 0x8 0, ctlTransfer 3 0x9 0, ctlTransfer 3 0xA 0] ∧
        JournalOnly { s with ring := t.ring } t) ∧
      (∃ t, exec (.masterSelfSplice true) s = .next t ∧ t.ring = { s.ring with dupFlag := true } ∧ JournalOnly { s with ring := t.ring } t))

/-- R196: at RELEASE, or when RINGTO has passed, a chip that asked to leave closes its bypass and stands ALONE with itself as its only table entry. -/
def Sys2Proof.Rules.UnspliceClosesBypass : Prop :=
  ∀ (s : State) (i : Instr), (i = .ringtoExpiry ∨ (i = .release s.chipnum ∧ isMaster s = false ∧ s.ring.resync = false)) →
    canDrive s = true → s.ring.leaveWhy = .leave → s.ringStill → s.calm → s.sys.stitch = none →
    (domGet s 65).st = .on → (domGet s 65).cmdOn = true →
    ∃ t, exec i s = .next t ∧ t.ring.bypass = true ∧ t.ring.st = .alone ∧ t.ring.chips = [s.chipnum] ∧ t.ring.pos = 0 ∧
      t.ring.paused = false ∧ t.ring.stopped = false ∧ t.ring.leaveWhy = .none ∧ t.ring.leaveBit = false ∧ t.ring.reform = false ∧
      t.ring.joinEn = s.ring.joinEn ∧ t.ring.dupFlag = s.ring.dupFlag ∧ t.ring.fault = s.ring.fault ∧
      JournalOnly { s with ring := t.ring } t

/-- R187, R193: RESUME ends the pause, and the chip takes the table the roll call brought. -/
def Sys2Proof.Rules.ResumeTakesTable : Prop :=
  ∀ s : State, canDrive s = true → isMaster s = false → s.ring.resync = false → s.ringStill → s.calm → s.ring.granted = false →
    s.ring.reform = false →
    ∃ t, exec .resume s = .next t ∧ t.ring.chips = s.ring.tables ∧ t.ring.pos = posIn s.chipnum s.ring.tables ∧ t.ring.paused = false ∧
      t.ring.stopped = false ∧ t.ring.st = (if s.ring.st = .orphan then .spliced else s.ring.st) ∧ t.ring.tables = [] ∧
      t.ring.gateA.tx = s.ring.gateA.tx ++ [ctlTransfer 3 0x3 0] ∧ t.ring.gateB.tx = s.ring.gateB.tx ∧
      JournalOnly { s with ring := t.ring } t

/-- R196, R204: writing LEAVE sends LEAVE with the chip's number on ring A. -/
def Sys2Proof.Rules.RingctlAsksToLeave : Prop :=
  ∀ (s : State) (by_ : By) (raw : Word) (be : BitVec 4), s.calm → nvOn s = true → jRoom s = true →
    Writes s 0x2A (.reg 0x2A) raw be by_ → holdsRight s (askOrigin s by_) rMAP = true → holdsRight s (askOrigin s by_) rRESET = true →
    be.getLsbD 0 = true → raw.getLsbD 1 = true → raw.getLsbD 3 = false →
    canDrive s = true → isMaster s = false → s.ring.st = .spliced → s.ring.leaveWhy = .none →
    let r := { s.ring with joinEn := raw.getLsbD 0, slotEn := raw.getLsbD 2, leaveBit := true }
    ∃ t, exec (.ringctlLeave by_) s = .next t ∧ AccessEnds s t 0x2A by_ ∧
      StagesOne s t (originKind (askOrigin s by_)) (tidHost 0x2A) ((ringctlWord { s with ring := r }).setWidth 32) ∧
      AccessOnly { s with ring := { r with leaveWhy := .leave, gateA := { s.ring.gateA with tx := s.ring.gateA.tx ++ [ctlTransfer 3 0x6 s.chipnum] } } } t

/-- R199 (cause 7), R201, R204: REFORM at the master declares a ring fault and sends the four ABORTs on both rings. -/
def Sys2Proof.Rules.RingctlReforms : Prop :=
  ∀ (s : State) (by_ : By) (raw : Word) (be : BitVec 4), s.calm → nvOn s = true → s.jrn.staging.length + 3 ≤ 72 → jRoom s = true →
    Writes s 0x2A (.reg 0x2A) raw be by_ → holdsRight s (askOrigin s by_) rMAP = true → holdsRight s (askOrigin s by_) rRESET = true →
    be.getLsbD 0 = true → raw.getLsbD 1 = false → raw.getLsbD 3 = true →
    canDrive s = true → isMaster s = true → s.ring.st = .spliced → s.ring.op ≠ .reform → s.ringStill → (faultdb s).getLsbD 18 = false →
    let r := { s.ring with joinEn := raw.getLsbD 0, slotEn := raw.getLsbD 2, reform := true }
    ∃ t u, exec (.ringctlReform by_) s = .next t ∧ AccessEnds s t 0x2A by_ ∧
      StagesOne s u (originKind (askOrigin s by_)) (tidHost 0x2A) ((ringctlWord { s with ring := r }).setWidth 32) ∧
      AccessOnly { s with ring := r } u ∧
      t.ring = { r with stopped := true, fault := true, cause := 7, resync := false, op := .reform, rolls := [], tables := [], granted := false,
                        rollTurn := false, dupFound := false, count := if s.ring.count = 0xFFFF then 0xFFFF else s.ring.count + 1,
                        gateA := t.ring.gateA, gateB := t.ring.gateB } ∧
      t.ring.gateA.tx = s.ring.gateA.tx ++ List.replicate 4 (ctlTransfer 3 0xF 0) ∧
      t.ring.gateB.tx = s.ring.gateB.tx ++ List.replicate 4 (ctlTransfer 3 0xF 0) ∧ gatesEmpty t ∧
      (faultGet t 65).code = 0x0E ∧ (faultGet t 65).isNew = true ∧ (∀ k, k ≠ 65 → faultGet t k = faultGet s k) ∧
      t.sys.event.getLsbD 0 = true ∧ RecordsOnly { u with ring := t.ring, host := t.host, mesh := t.mesh } t

/-- R89, R91, R394, R8, R366: writes of PCFG and PCLK that are not refused set the word, and its entry is in staging; CLRPEAK clears the peaks and is not
journaled. -/
def Sys2Proof.Rules.PortWordsAreWritten : Prop :=
  ∀ (s : State) (n : Fin 64) (by_ : By) (raw v : Word) (be : BitVec 4), s.calm → nvOn s = true → jRoom s = true →
    (v = mergeWord (portFields 0) (pcfg s n) raw be → Writes s 0x0A (.bank n 0) raw be by_ → holdsRight s (askOrigin s by_) rMAP = true →
      pcfgBad s n (pcfg s n) v = false →
      ∃ t, exec (.pcfgWrite n by_) s = .next t ∧ AccessOnly (cfgSet s n 0 v) t ∧ AccessEnds s t 0x0A by_ ∧
        StagesOne s t (originKind (askOrigin s by_)) (tidBank n 0) v) ∧
    (v = mergeWord (portFields 1) (cfgGet s n 1) raw be → Writes s 0x0A (.bank n 1) raw be by_ → holdsRight s (askOrigin s by_) rMAP = true →
      pclkBad v = false →
      ∃ t, exec (.pclkWrite n by_) s = .next t ∧ AccessOnly (portMod (cfgSet s n 1 v) n (fun p => { p with pclkLive := v })) t ∧
        AccessEnds s t 0x0A by_ ∧ StagesOne s t (originKind (askOrigin s by_)) (tidBank n 1) v) ∧
    (Writes s 0x0A (.bank n 0xE4) raw be by_ → holdsRight s (askOrigin s by_) rCOUNT = true → domOn s n = true →
      raw.getLsbD 2 = true → be.getLsbD 0 = true →
      ∃ t, exec (.clrpeak n by_) s = .next t ∧ AccessOnly (portMod s n (fun p => { p with peakRd := 0, peakWr := 0, pvalid := false })) t ∧
        AccessEnds s t 0x0A by_ ∧ t.jrn = s.jrn)

/-- R3, R8, R90, R92, R353, R413: a write of PCFG or PCLK that is refused leaves the word, and all else, and makes no entry: DECERR for what the word may
not hold, RIGHTS, on record, for a client without MAP. The host's bus cycle ends normally with WINCTL.REFUSED. -/
def Sys2Proof.Rules.RefusedPortWritesChangeNothing : Prop :=
  ∀ (s : State) (n : Fin 64) (by_ : By) (raw v : Word) (be : BitVec 4), s.calm →
    let o := askOrigin s by_
    (v = mergeWord (portFields 0) (pcfg s n) raw be → Writes s 0x0A (.bank n 0) raw be by_ →
      (pcfgBad s n (pcfg s n) v = true →
        ∃ t, exec (.pcfgWrite n by_) s = .next t ∧ AccessRefused s t .decerr by_ ∧ AccessOnly s t ∧ t.jrn = s.jrn) ∧
      (pcfgBad s n (pcfg s n) v = false → holdsRight s o rMAP = false → (pcfg s n ^^^ v) &&& 0x1FFFFFFF ≠ 0 →
        ∃ t, exec (.pcfgWrite n by_) s = .next t ∧ AccessRefused s t .rights by_ ∧ AccessOnly (refusedBy s o 0) t ∧ t.jrn = s.jrn)) ∧
    (v = mergeWord (portFields 1) (cfgGet s n 1) raw be → Writes s 0x0A (.bank n 1) raw be by_ →
      (pclkBad v = true →
        ∃ t, exec (.pclkWrite n by_) s = .next t ∧ AccessRefused s t .decerr by_ ∧ AccessOnly s t ∧ t.jrn = s.jrn) ∧
      (pclkBad v = false → holdsRight s o rMAP = false → (cfgGet s n 1 ^^^ v) &&& 0x07FFFFFF ≠ 0 →
        ∃ t, exec (.pclkWrite n by_) s = .next t ∧ AccessRefused s t .rights by_ ∧ AccessOnly (refusedBy s o 0) t ∧ t.jrn = s.jrn))

/-- R375, R376: a CSEL that changes sets its counter to 0, and a changed CHAIN the odd partner as well. (A clause over the counters of ports and routers;
those of SYS count this very access.) -/
def Sys2Proof.Rules.CounterSelectIsWritten : Prop :=
  ∀ (s : State) (b i k : Nat) (blk : Blk) (by_ : By) (raw v : Word) (be : BitVec 4), s.calm → nvOn s = true → jRoom s = true →
    counterAt b i = some (blk, k, false) → (∀ r, blk = .router r → domOn s 64 = true) →
    v = mergeWord (counterFields false) (cselGet s blk k) raw be → Writes s 0x0A (.bank b i) raw be by_ →
    holdsRight s (askOrigin s by_) rCOUNT = true → be.getLsbD 0 = true → eventListed blk (fieldNat v 0 8) = true → (k % 2 = 1 → v.getLsbD 8 = false) →
    ∃ t, exec (.cselWrite by_) s = .next t ∧ AccessOnly (cfgSet s b i (v &&& 0x1FF)) t ∧ AccessEnds s t 0x0A by_ ∧
      (∃ w, StagesOne s t (originKind (askOrigin s by_)) (tidBank b i) w ∧ w &&& 0x1FF = v &&& 0x1FF) ∧
      (∀ g, g < 1024 →
        cval t g = (if (g = gNum blk k ∧ cselGet s blk k ≠ v &&& 0x1FF) ∨
                       (g = gNum blk (k + 1) ∧ (cselGet s blk k).getLsbD 8 ≠ v.getLsbD 8) then 0 else cval s g) ∧
        covf t g = (if (g = gNum blk k ∧ (cselGet s blk k ≠ v &&& 0x1FF ∨ v.msb = true)) ∨
                       (g = gNum blk (k + 1) ∧ (cselGet s blk k).getLsbD 8 ≠ v.getLsbD 8) then false else covf s g))

/-- R383, R411: a host read of CVAL of an even chained counter returns its low half, latches the other half and latches the partner. -/
def Sys2Proof.Rules.ChainedCounterReadLatches : Prop :=
  ∀ (s : State) (blk : Blk) (k : Nat), s.host.waitLow = false → hostGate s 0x0A = .serve → s.host.phase = false →
    counterAt (winB s) (winI s) = some (blk, k, true) → k % 2 = 0 → (cselGet s blk k).getLsbD 8 = true → wordAsleep s (.bank (winB s) (winI s)) = false →
    s.host.cvLatch = none →
    ∃ t, exec .cvalRead s = .next t ∧
      t.host = { s.host with hd := (cval t (gNum blk k)).extractLsb' 0 16, rlatch := (cval t (gNum blk k)).extractLsb' 16 16, phase := true, phaseRd := true,
                             cvLatch := some (gNum blk (k + 1), cval t (gNum blk (k + 1))) } ∧
      t = { s with host := t.host, cnt := t.cnt, sys := { s.sys with event := t.sys.event, eventLate := t.sys.eventLate } }

/-- R384, R386: SNAPSHOT and FREEZE start a gather of every counter at one edge, FREEZE and THAW set and clear FROZEN, and CLEAR sets every counter to 0.
Each command is journaled. -/
def Sys2Proof.Rules.CounterCommands : Prop :=
  ∀ (s : State) (by_ : By) (raw v : Word) (be : BitVec 4), s.calm → nvOn s = true → jRoom s = true → s.cnt.busy = false →
    v = mergeWord (regFields 0x26) 0 raw be → Writes s 0x26 (.reg 0x26) raw be by_ → holdsRight s (askOrigin s by_) rCOUNT = true →
    (v = 1 → ∃ t, exec (.snapshot by_) s = .next t ∧ AccessOnly s t ∧ AccessEnds s t 0x26 by_ ∧ gathersFrom s t ∧ t.cnt.frozen = s.cnt.frozen ∧
      lowSame s t ∧ StagesOne s t (originKind (askOrigin s by_)) (tidHost 0x26) 1) ∧
    (v = 2 → ∃ t, exec (.freeze by_) s = .next t ∧ AccessOnly s t ∧ AccessEnds s t 0x26 by_ ∧ gathersFrom s t ∧ t.cnt.frozen = true ∧
      lowSame s t ∧ StagesOne s t (originKind (askOrigin s by_)) (tidHost 0x26) 2) ∧
    (v = 3 → ∃ t, exec (.thaw by_) s = .next t ∧ AccessOnly s t ∧ AccessEnds s t 0x26 by_ ∧ t.cnt.frozen = false ∧ t.cnt.busy = false ∧
      lowSame s t ∧ StagesOne s t (originKind (askOrigin s by_)) (tidHost 0x26) 3) ∧
    (v = 4 → ∃ t, exec (.clear by_) s = .next t ∧ AccessOnly s t ∧ AccessEnds s t 0x26 by_ ∧ t.cnt.frozen = s.cnt.frozen ∧ t.cnt.busy = false ∧
      (∀ g, cval t g = 0 ∧ covf t g = false) ∧ StagesOne s t (originKind (askOrigin s by_)) (tidHost 0x26) 4)

/-- R386, R389: at the end of a gather the store holds the edge of every counter whose block is still ON and 0 for the others, whose MISS bit is set; SEQ
advances and the counter event is raised. -/
def Sys2Proof.Rules.GatherEnds : Prop :=
  ∀ s : State, s.calm → s.cnt.busy = true →
    ∃ t, exec .gatherDone s = .next t ∧
      t.cnt = { s.cnt with busy := false, done := true, seq := s.cnt.seq + 1, edge := [], edgeO := [], shadow := t.cnt.shadow, sovf := t.cnt.sovf,
                           missP := t.cnt.missP, miss := t.cnt.miss } ∧
      (∀ g, tget (fun _ => (0 : Word)) t.cnt.shadow g = if blkOn s (blkOf g) then tget (fun _ => 0) s.cnt.edge g else 0) ∧
      (∀ n, t.cnt.missP.contains n = (decide (n < 64) && (s.cnt.missP.contains n || !domOn s n))) ∧
      (t.sys.event ||| t.sys.eventLate).getLsbD evCOUNTER = true ∧
      t = { s with cnt := t.cnt, sys := { s.sys with event := t.sys.event, eventLate := t.sys.eventLate } }

/-- R394, R392: at the boundary each port records LAST, and PEAK where LAST is larger, when its domain was ON for the whole window; the counts start
again. -/
def Sys2Proof.Rules.BandwidthWindowEnds : Prop :=
  ∀ s : State, tsRuns s = true →
    ∃ t, exec .bwWindowBoundary s = .next t ∧ t.time = { s.time with bwCount := 0, bwLive := s.time.bwwin } ∧
      (∀ n, n < 64 →
        let p := portGet s n
        portGet t n = { p with
          bytesRd := 0, bytesWr := 0, wholeWin := domOn s n
          lastRd := if domOn s n && p.wholeWin then p.bytesRd else p.lastRd
          lastWr := if domOn s n && p.wholeWin then p.bytesWr else p.lastWr
          lvalid := p.lvalid || (domOn s n && p.wholeWin), pvalid := p.pvalid || (domOn s n && p.wholeWin)
          peakRd := if domOn s n && p.wholeWin && decide (p.peakRd < p.bytesRd) then p.bytesRd else p.peakRd
          peakWr := if domOn s n && p.wholeWin && decide (p.peakWr < p.bytesWr) then p.bytesWr else p.peakWr }) ∧
      t = { s with ports := t.ports, time := t.time }

/-- R311, R313, R372, R319, R385, R419: what the host reads of TIME0, RTCSEC0, ALARM0, JRNHEAD0, TACKSTAT, CNTSTAT and BOBDATA return, latch and clear. -/
def Sys2Proof.Rules.HostReadsLatch : Prop :=
  ∀ s : State, s.host.waitLow = false →
    (hostGate s 0x0C = .serve → ∃ t, exec .time0Read s = .next t ∧
      CountsOnly { s with host := { s.host with hd := s.time.ts.extractLsb' 0 16, timeL := s.time.ts.extractLsb' 16 32 } } t) ∧
    (hostGate s 0x0F = .serve → ∃ t, exec .rtcsec0Read s = .next t ∧
      CountsOnly { s with host := { s.host with hd := s.time.rtcSec.extractLsb' 0 16, rtcHi := s.time.rtcSec.extractLsb' 16 16, rtcFrac := s.time.rtcFr } } t) ∧
    (hostGate s 0x11 = .serve → ∃ t, exec .alarm0Read s = .next t ∧
      CountsOnly { s with host := { s.host with hd := s.time.alSec.extractLsb' 0 16, alHi := s.time.alSec.extractLsb' 16 16 } } t) ∧
    (hostGate s 0x20 = .serve → ∃ t, exec .jrnhead0Read s = .next t ∧
      CountsOnly { s with host := { s.host with hd := s.jrn.head.extractLsb' 0 16, jlatch := jrnhead1 s } } t) ∧
    (hostGate s 0x1D = .serve → ∃ t, exec (.registerReadClear (.host 0x1D)) s = .next t ∧
      CountsOnly { s with host := { s.host with hd := tackstatWord s }
                          time := { s.time with mstep := 0, mmatch := false, merr := false, mabandon := false, jqfull := false, rtcstop := false, patrols := 0 } } t) ∧
    (hostGate s 0x27 = .serve → ∃ t, exec (.registerReadClear (.host 0x27)) s = .next t ∧ t.cnt.done = false ∧
      (t.host.hd.getLsbD 2 = s.cnt.done) ∧ CountsOnly { s with host := { s.host with hd := t.host.hd } } t) ∧
    (hostGate s 0x2D = .serve → ∃ t, exec .bobdataRead s = .next t ∧
      CountsOnly { s with host :=
        if s.host.bobphase then { s.host with hd := s.host.boblatch, bobphase := false, bobitem := if 8 ≤ s.host.bobitem.toNat then 8 else s.host.bobitem + 1 }
        else { s.host with hd := (bobItem s).extractLsb' 0 16, boblatch := (bobItem s).extractLsb' 16 16, bobphase := true } } t)

/-- R411, R412, R414, R220: the low-half read of WINDATA reads the whole word at one instant and latches the high half, which the next read returns;
WINADDR then advances. A word that is absent answers DECERR, one asleep reads 0. WMARK is cleared by its read. -/
def Sys2Proof.Rules.WindowIsRead : Prop :=
  ∀ s : State, s.host.waitLow = false → hostGate s 0x0A = .serve →
    let h := s.host
    let b := winB s
    let i := winI s
    let w := Wd.bank b i
    (h.phase = true → h.phaseRd = true → ∃ t, exec .windataRead s = .next t ∧
      CountsOnly { s with host :=
        let k := { h with hd := h.rlatch, phase := false }
        if h.inc = false then k
        else if h.winsel = 0x82 ∧ h.winaddr = 3 then { k with winaddr := 0, jptr := h.jptr + 1 } else { k with winaddr := h.winaddr + 1 } } t) ∧
    ((h.phase && h.phaseRd) = false →
      (bankHas b i = false → ∃ t, exec .windataRead s = .next t ∧
        CountsOnly { s with host := { h with decerr := true, hd := 0, rlatch := 0, phase := true, phaseRd := true } } t) ∧
      (bankHas b i = true → wordAsleep s w = true → ∃ t, exec .windataRead s = .next t ∧
        CountsOnly { s with host := { h with asleep := true, hd := 0, rlatch := 0, phase := true, phaseRd := true } } t) ∧
      (bankHas b i = true → wordAsleep s w = false → counterAt b i = none → ∃ t, exec .windataRead s = .next t ∧
        (let v := bankWord { t with host := h, ports := s.ports } .host b i
         CountsOnly { s with
          host := { h with hd := v.extractLsb' 0 16, rlatch := v.extractLsb' 16 16, phase := true, phaseRd := true }
          ports := if b < 0x40 ∧ i = 6 then (portSet s b { portGet s b with wmark := (portGet s b).wmark &&& 0x3FFFFFFF }).ports else s.ports } t)))

/-- R313, R410, R411, R372: host writes that only stage a half: RTCSEC0, ALARM0 and the low half of WINDATA; WINSEL and WINADDR set PHASE to 0. -/
def Sys2Proof.Rules.HostHalvesAreStaged : Prop :=
  ∀ (s : State) (hd : Half), s.host.waitLow = false →
    (hostGate s 0x0F = .serve → ∃ t, exec (.rtcsec0Write hd) s = .next t ∧ CountsOnly { s with host := { s.host with rtcStage := hd } } t) ∧
    (hostGate s 0x11 = .serve → ∃ t, exec (.alarm0Write hd) s = .next t ∧ CountsOnly { s with host := { s.host with alStage := hd } } t) ∧
    (s.calm → hostGate s 0x0A = .serve → winHigh s = false → ∃ t, exec (.windataWrite hd) s = .next t ∧
      CountsOnly { s with host := { s.host with wlatch := hd, phase := true, phaseRd := false } } t) ∧
    (s.calm → hostGate s 0x08 = .serve → ∃ t, exec (.registerWrite (.host 0x08 hd)) s = .next t ∧
      CountsOnly { s with host := { s.host with winsel := hd.extractLsb' 0 8, phase := false } } t) ∧
    (s.calm → hostGate s 0x09 = .serve → ∃ t, exec (.registerWrite (.host 0x09 hd)) s = .next t ∧
      CountsOnly { s with host := { s.host with winaddr := hd, phase := false } } t) ∧
    (s.calm → hostGate s 0x1E = .serve → ∃ t, exec (.registerWrite (.host 0x1E hd)) s = .next t ∧
      CountsOnly { s with host := { s.host with jptr := s.host.jptr.extractLsb' 16 4 ++ hd } } t)

/-- R411, R420: the rows that name one access do one thing: the high half of WINDATA at PCFG, the write of host register 0x0A and the flat write of the
word are the PCFG write. -/
def Sys2Proof.Rules.RowsOfOneAccessAgree : Prop :=
  ∀ (s : State) (n : Fin 64) (hd : Half) (net : Net), winB s = n.val → winI s = 0 → winHigh s = true →
    exec (.windataWrite hd) s = exec (.pcfgWrite n (.host hd)) s ∧
    exec (.registerWrite (.host 0x0A hd)) s = exec (.pcfgWrite n (.host hd)) s ∧
    (∀ p, rxHead s nodeSys net = some p → opOf p.cmd = .write 1 → p.data.length = 1 → flatWord (byteAddr p.addr) = some (.bank n.val 0) →
      exec (.registerWrite (.fabric net)) s = exec (.pcfgWrite n (.fabric net)) s)

/-- R426: RESET_N low holds the chip in reset. -/
def Sys2Proof.Rules.ResetPinHolds : Prop :=
  ∀ s : State, s.power.mode ≠ .unpowered →
    ∃ t, exec .resetPin s = .next t ∧ ∃ u, HeldReset s u ∧ t = { u with power := { u.power with rstLow := true } }

/-- R459, R461: EXTEST, HIGHZ and CLAMP hold the chip as RESET_N low does; EXTEST takes the pins shifted in. -/
def Sys2Proof.Rules.TestInstructionsHold : Prop :=
  ∀ (s : State) (pins : List Bool), s.power.mode ≠ .unpowered →
    (∃ t u, exec (.extest pins) s = .next t ∧ (if s.tap.test then u = s else HeldReset s u) ∧ t = { u with tap := { ir := 0, bsr := pins, test := true } }) ∧
    (∃ t u, exec .highz s = .next t ∧ (if s.tap.test then u = s else HeldReset s u) ∧ t = { u with tap := { ir := 3, bsr := s.tap.bsr, test := true } }) ∧
    (∃ t u, exec .clamp s = .next t ∧ (if s.tap.test then u = s else HeldReset s u) ∧ t = { u with tap := { ir := 4, bsr := s.tap.bsr, test := true } })

/-- R459, R460, R461: IDCODE, SAMPLE/PRELOAD and BYPASS leave the chip alone; IDCODE shifts out 0x2D6405EB, and BYPASS has one bit. -/
def Sys2Proof.Rules.OtherTapInstructionsDoNot : Prop :=
  ∀ (s : State) (pins : List Bool), s.power.mode ≠ .unpowered → s.tap.test = false →
    exec .idcode s = .next { s with tap := { s.tap with ir := 1 } } ∧
    (∀ k, k < 32 → (tapRead { s.tap with ir := 1 })[k]? = some ((0x2D6405EB : Word).getLsbD k)) ∧
    exec (.samplePreload pins) s = .next { s with tap := { s.tap with ir := 2, bsr := pins } } ∧ tapRead { s.tap with ir := 2, bsr := pins } = pins ∧
    exec .bypass s = .next { s with tap := { s.tap with ir := 15 } } ∧ (tapRead { s.tap with ir := 15 }).length = 1

/-- R425, R428, R461, R306, R435: RESET_N high, leaving a test instruction, VCORE back above its reset level, power-on and the end of a RING reset start
the chip with the cause of each. That leaving a test instruction selects IDCODE is the model's choice (log 9). -/
def Sys2Proof.Rules.StartUpFollows : Prop :=
  ∀ s : State,
    (s.power.rstLow = true → s.tap.test = false → ∃ t, exec .resetRelease s = .next t ∧
      StartsUp { s with power := { s.power with rstLow := false } } t 1) ∧
    (s.tap.test = true → s.power.rstLow = false → ∃ t, exec .tapTestExit s = .next t ∧
      StartsUp { s with tap := { s.tap with ir := 1, test := false } } t 1) ∧
    (vcoreOn s = true → ∃ t u, exec .vcoreReset s = .next t ∧ Returned s u false false false false ∧
      StartsUp { u with power := { u.power with hush := s.power.aonWarn, vcWarn := false } } t 2) ∧
    (s.power.mode = .unpowered → ∃ t, exec (.powerOn true) s = .next t ∧
      StartsUp { State.reset with
        pending := s.pending, freeCount := s.freeCount
        jrn := { Journal.reset with array := s.jrn.array, head := s.jrn.head, passes := s.jrn.passes, vfail := s.jrn.vfail,
                                    hdrHead := s.jrn.hdrHead, hdrPass := s.jrn.hdrPass, level := s.jrn.level } } t 0) ∧
    (s.sys.ringWait = true → ∃ t u, exec .ringResetDelay s = .next t ∧ Returned s u true true true true ∧ StartsUp u t 6) ∧
    (s.sys.ringAsk = true → ∃ t u, exec .ringResetNoAnswer s = .next t ∧ Returned s u true true true true ∧ StartsUp u t 6)

/-- R306, R366, R370: losing VAON loses staging and the queue; the entry then being written, and no other, may be torn (a free value, log 10). -/
def Sys2Proof.Rules.VaonLossTearsTheEntry : Prop :=
  ∀ s : State, s.power.mode ≠ .unpowered →
    ∃ t, exec (.powerOn false) s = .next t ∧ t.power.mode = .unpowered ∧ t.jrn.staging = [] ∧ t.jrn.queue = [] ∧
      (∀ i, i ≠ s.jrn.head.toNat → arrGet t i = arrGet s i) ∧
      ((s.jrn.staging = [] ∨ nvOn s = false ∨ s.power.hush = true ∨ s.power.nvWarn = true) → arrGet t s.jrn.head.toNat = arrGet s s.jrn.head.toNat) ∧
      t = { s with power := { s.power with mode := .unpowered, req := none, hush := false }, jrn := { s.jrn with array := t.jrn.array, staging := [], queue := [], waiting := [], lastTs := none }, freeCount := t.freeCount }

/-- R283, R285, R303, R307, R335: what the supply pins do: RALERT_N is read once per fall and raises a fault when its word fails the mask; RPGOOD low
breaks the acknowledgement; VNV holds the journal; VCORE or VAON low starts a hush; a bank that recovers is no longer low. -/
def Sys2Proof.Rules.SupplyPinsAreLatched : Prop :=
  ∀ (s : State) (status : Half) (level vcore vaon : Bool) (k : Fin 8), s.power.mode ≠ .unpowered →
    exec .ralertRelease s = .next { s with power := { s.power with alertLow := false, alertGot := false } } ∧
    exec (.rpgoodChange level) s = .next { s with power := { s.power with pgoodNow := level, pgoodRun := s.power.pgoodRun && level } } ∧
    (s.power.alertLow = false →
      let u : State := { s with power := { s.power with alertLow := true, alertGot := true, lastWord := status } }
      (status &&& 0xE8FE = 0 → exec (.ralert status) s = .next u) ∧
      (status &&& 0xE8FE ≠ 0 → FaultPlain s srcCHIP fREGLINK → ∃ t, exec (.ralert status) s = .next t ∧ FaultRaised u t srcCHIP fREGLINK status)) ∧
    exec .vnvWarning s = .next { s with power := { s.power with nvWarn := true } } ∧
    (s.calm → exec .vnvRecover s = .next { s with power := { s.power with nvWarn := false } }) ∧
    ((vcore && vcoreOn s || vaon) = true → exec (.supplyWarning vcore vaon) s = .next { s with power := { s.power with
      vcWarn := s.power.vcWarn || (vcore && vcoreOn s), aonWarn := s.power.aonWarn || vaon, hush := true,
      hushAon := if s.power.hush then s.power.hushAon else vaon } }) ∧
    (∃ t, exec (.vioRecover k) s = .next t ∧ (∀ j, vioIsLow t j = if j = k.val then false else vioIsLow s j) ∧
      t = { s with power := { s.power with vioLow := t.power.vioLow } })

/-- R305, R308: the hush ends, BROWN counts it and one entry names the rail, the lowest level and the duration. -/
def Sys2Proof.Rules.HushEndIsJournaled : Prop :=
  ∀ (s : State) (minv : BitVec 11) (duration : BitVec 20), s.calm → s.domsStill → gatesEmpty s → sysOn s = true → nvOn s = true → hwRoom s = true →
    s.power.hush = true →
    ∃ t, exec (.hushEnd minv duration) s = .next t ∧
      (let u : State := { s with power := { s.power with hush := false, vcWarn := false, aonWarn := false, seen := true,
                                                         browns := if s.power.browns = 255 then 255 else s.power.browns + 1 } }
      JournalOnly u t) ∧
      StagesOne s t kHARDWARE (tidHost 0x1B) (BitVec.ofBool s.power.hushAon ++ minv ++ duration) ∧
      (s.power.seen = false → t.sys.event.getLsbD evBROWN = true)

/-- R163, R334, R336, R335, R346: a stopped clock, a target timeout and a low bank each make a port dead and raise its fault. -/
def Sys2Proof.Rules.DyingPorts : Prop :=
  ∀ (s : State) (n : Fin 64), s.calm → (portGet s n.val).dead = false → portAlone s n.val →
    (((domGet s n.val).st = .on ∨ (domGet s n.val).st = .hemming) → FaultPlain s n.val fCLKSTOP →
      ∃ t, exec (.clockStopped n) s = .next t ∧ PortDies s t n.val fCLKSTOP 0 .timeout) ∧
    ((portGet s n.val).tgt ≠ none → FaultPlain s n.val fRESPTO →
      ∃ t, exec (.targetTimeout n) s = .next t ∧ PortDies s t n.val fRESPTO 0 .isolated) ∧
    (∀ k : Fin 8, vioBank n.val = k.val → vioIsLow s k.val = false → (domGet s n.val).st ≠ .off →
      (∀ m, m < 64 → m ≠ n.val → vioBank m = k.val → (domGet s m).st = .off ∨ (portGet s m).dead = true) → FaultPlain s n.val fVIOLOW →
      ∃ t u, exec (.vioLow k) s = .next t ∧ (∀ j, vioIsLow u j = if j = k.val then true else vioIsLow s j) ∧
        u = { s with power := { s.power with vioLow := u.power.vioLow } } ∧ PortDies u t n.val fVIOLOW (BitVec.ofNat 16 k.val) .isolated)

/-- R340, R334, R336: ISOLATE.GO makes the port dead with cause COMMAND, journaled first with the origin of the write. -/
def Sys2Proof.Rules.IsolateKillsThePort : Prop :=
  ∀ (s : State) (n : Fin 64) (by_ : By) (raw : Word) (be : BitVec 4), s.calm → nvOn s = true → jRoom s = true → s.jrn.staging.length < 71 →
    (portGet s n.val).dead = false → portAlone s n.val → (portGet s n.val).tgt = none → (faultdb s).getLsbD 18 = false →
    raw.getLsbD 0 = true → be.getLsbD 0 = true → Writes s 0x25 (.iso n.val) raw be by_ → holdsRight s (askOrigin s by_) rISOLATE = true →
    ∃ t u, exec (.isolateGo n by_) s = .next t ∧ AccessEnds s t 0x25 by_ ∧
      StagesOne s u (originKind (askOrigin s by_)) (tidHost 0x25) (0#19 ++ fCOMMAND ++ 1#1 ++ 1#1 ++ BitVec.ofNat 6 n.val) ∧
      portGet u n.val = { portGet s n.val with dead := true, cause := fCOMMAND, quiet := true, clockStop := false, claimed := false, claiming := false } ∧
      (∀ m, m ≠ n.val → portGet u m = portGet s m) ∧
      u = { s with host := u.host, mesh := u.mesh, ports := u.ports, jrn := u.jrn, cnt := u.cnt, sys := { s.sys with event := u.sys.event, eventLate := u.sys.eventLate } } ∧
      FaultRaised u t n.val fCOMMAND 0

/-- R263, R274, R431: when the wake hold, the hold-off after a forced drain or the quiet time ends, R253 is evaluated again. -/
def Sys2Proof.Rules.DomainTimersExpire : Prop :=
  ∀ (s : State) (d : Fin 64), s.calm → hwRoom s = true →
    let x := domGet s d.val
    (x.hold = true → x.st = .on →
      let u := domSet s d.val { x with hold := false }
      (wantedOn u d.val = false → fenceEmpty s d.val) →
      ∃ t, exec (.wakeHoldExpiry d) s = .next t ∧ DomBecomes u t d.val (domNext u d.val)) ∧
    (x.holdOff = true →
      let u := domSet s d.val { x with holdOff := false }
      (x.st = .on → wantedOn u d.val = false → fenceEmpty s d.val) →
      ∃ t, exec (.wakeHoldoffExpiry d) s = .next t ∧ DomBecomes u t d.val (domNext u d.val)) ∧
    ((portGet s d.val).quiet = true →
      let u := portSet s d.val { portGet s d.val with quiet := false }
      (x.st = .on → wantedOn s d.val = false → fenceEmpty s d.val) →
      ∃ t, exec (.portQuietExpiry d) s = .next t ∧ DomBecomes u t d.val (domNext u d.val))

/-- R265, R253: DOMCMD is set and journaled, and R253 is evaluated again. -/
def Sys2Proof.Rules.DomcmdIsWritten : Prop :=
  ∀ (s : State) (d : Fin 68) (by_ : By) (raw v : Word) (be : BitVec 4), s.calm → nvOn s = true → jRoom s = true → s.jrn.staging.length < 71 →
    v = mergeWord [fRW 7 rPOWER] ((domcmdWord s d.val).setWidth 32) raw be → Writes s 0x15 (.domcmd d.val) raw be by_ →
    holdsRight s (askOrigin s by_) rPOWER = true → be.getLsbD 0 = true → reservedCode s (.domcmd d.val) ((domcmdWord s d.val).setWidth 32) v = false →
    let x := domGet s d.val
    let y : Dom := { x with voted := decide (d.val < 64) && !v.getLsbD 2, cmdOn := if fieldNat v 0 2 = 0 ∨ (64 ≤ d.val ∧ d.val ≠ 65) then x.cmdOn else decide (fieldNat v 0 2 = 1) }
    (d.val < 66 → x.st = .on → wantedOn (domSet s d.val y) d.val = false → fenceEmpty s d.val) →
    ∃ t u, exec (.domcmdWrite d by_) s = .next t ∧ AccessEnds s t 0x15 by_ ∧
      StagesOne s u (originKind (askOrigin s by_)) (tidDom 0 d.val) ((domcmdWord (domSet s d.val y) d.val).setWidth 32) ∧
      AccessOnly (domSet s d.val y) u ∧ DomBecomes u t d.val (domNext u d.val)

/-- R256, R257, R260, R268: a vote is cast or withdrawn for its voter, journaled, its pacing interval starts, and R253 is evaluated again. The host may
vote for itself, paced, or for a client, not paced. -/
def Sys2Proof.Rules.VotesAreCast : Prop :=
  ∀ (s : State) (d : Fin 64), s.calm → nvOn s = true → jRoom s = true → s.jrn.staging.length < 71 →
    let x := domGet s d.val
    let cast := fun (v : Nat) (c : Bool) => domSet s d.val { x with votes := votePut x.votes v c }
    (∀ (net : Net) (raw : Word) (be : BitVec 4) (chip cid : Byte) (node : BitVec 7),
      let e := paceSet (cast cid.toNat (raw.getLsbD 0)) d.val cid.toNat true
      Writes s 0 (.vote d.val) raw be (.fabric net) → be.getLsbD 0 = true → askOrigin s (.fabric net) = .fab chip node cid → node.getLsbD 0 = false →
      holdsRight s (.fab chip node cid) rVOTE = true → pacing s d.val cid.toNat = false → stallGet s cid.toNat = none →
      (x.st = .on → wantedOn e d.val = false → fenceEmpty s d.val) →
      ∃ t, exec (.voteWrite net) s = .next t ∧ AccessEnds s t 0 (.fabric net) ∧
        DomChanged s e t d.val (originKind (.fab chip node cid)) (tidDom 2 d.val) (voteWordValue cid.toNat (raw.getLsbD 0))) ∧
    (∀ hd : Half,
      let v := s.host.votesel.toNat
      let e := if v = 256 then paceSet (cast v (hd.getLsbD 0)) d.val v true else cast v (hd.getLsbD 0)
      s.host.waitLow = false → hostGate s 0x18 = .serve → s.host.domsel.toNat = d.val →
      (v = 256 → pacing s d.val 256 = false ∧ stallGet s 256 = none) → (x.st = .on → wantedOn e d.val = false → fenceEmpty s d.val) →
      ∃ t, exec (.hostVote hd) s = .next t ∧ AccessEnds s t 0x18 (.host hd) ∧
        DomChanged s e t d.val kHOST (tidDom 2 d.val) (voteWordValue v (hd.getLsbD 0)))

/-- R257: the interval of that voter on that domain ends. Premise: no vote write is stalled. -/
def Sys2Proof.Rules.VotePaceEnds : Prop :=
  ∀ (s : State) (d : Fin 64) (v : Fin 257), s.calm → pacing s d.val v.val = true →
    (s.sys.stalls = [] → ∃ t, exec (.votePaceExpiry v d) s = .next t ∧ (∀ k w, k < 64 → w < 257 → pacing t k w = if k = d.val ∧ w = v.val then false else pacing s k w) ∧
      t = { s with sys := { s.sys with pacing := t.sys.pacing } })

/-- R262, R263, R255, R339: a wake request holds a voted domain that is off, commands ON a domain that is not voted, is journaled without effect for a
domain in FAULT or a dead port, and does nothing for a domain that is up. -/
def Sys2Proof.Rules.WakeRequestWakes : Prop :=
  ∀ (s : State) (d : Fin 64) (net : Net) (raw : Word) (be : BitVec 4), s.calm → nvOn s = true → jRoom s = true → s.jrn.staging.length < 71 →
    Writes s 0 .wakeReq raw be (.fabric net) → raw.extractLsb' 0 7 = portNode d.val →
    let x := domGet s d.val
    let o := askOrigin s (.fabric net)
    (x.st = .fault ∨ (portGet s d.val).dead = true →
      ∃ t, exec (.wakeRequest net) s = .next t ∧ AccessEnds s t 0 (.fabric net) ∧ AccessOnly s t ∧ StagesOne s t (originKind o) (tidDom 3 d.val) 0) ∧
    (x.st = .off ∨ x.st = .hemming → (portGet s d.val).dead = false → x.voted = true → x.hold = false →
      ∃ t, exec (.wakeRequest net) s = .next t ∧ AccessEnds s t 0 (.fabric net) ∧
        DomChanged s (domSet s d.val { x with hold := true, holdMs := (cfgGet s 0x84 0x400).extractLsb' 0 16 }) t d.val (originKind o) (tidDom 3 d.val) 1) ∧
    (x.st = .off ∨ x.st = .hemming → (portGet s d.val).dead = false → x.voted = false → x.cmdOn = false →
      ∃ t, exec (.wakeRequest net) s = .next t ∧ AccessEnds s t 0 (.fabric net) ∧
        DomChanged s (domSet s d.val { x with cmdOn := true }) t d.val (originKind o) (tidDom 3 d.val) 2) ∧
    (x.st = .on ∨ x.st = .waking ∨ ((x.st = .off ∨ x.st = .hemming) ∧ (if x.voted then x.hold else x.cmdOn) = true) → (portGet s d.val).dead = false →
      ∃ t, exec (.wakeRequest net) s = .next t ∧ AccessEnds s t 0 (.fabric net) ∧ AccessOnly s t ∧ t.jrn = s.jrn)

/-- R269, R272, R276: the drain ends by itself or by DRAINTO; the domain is OFF, and a forced drain raises DRAIN and starts its hold-off. -/
def Sys2Proof.Rules.HemmingEnds : Prop :=
  ∀ (s : State) (d : Fin 68), s.calm → nvOn s = true → s.jrn.staging.length < 69 → d.val < 66 →
    let x := domGet s d.val
    x.st = .hemming → x.hem = .drain →
    ((if d.val < 64 then portDrained s d.val = true else seamHeld s = 0) → ∃ t, exec (.hemDrainDone d) s = .next t ∧ GoesOff s t d.val false) ∧
    (d.val < 64 → portAlone s d.val → (portGet s d.val).wsend = [] → (portGet s d.val).wheld = [] → (faultdb s).getLsbD 18 = false →
      ∃ t u v, exec (.draintoExpiry d) s = .next t ∧
        (let p := portGet s d.val
         let q := nodeGet s (portNode d.val) .rsp
         PortAndNode s u d.val { p with tgt := none, claimed := false, claiming := false } (portNode d.val) .rsp
          { q with out := match p.tgt with | some r => q.out ++ pktUnits (responsePkt r.pkt .isolated []) | none => q.out }) ∧
        GoesOff u v d.val true ∧ FaultRaised v t d.val fDRAIN 0)

/-- R278, R279, R289, R290: CODE is set and journaled. A code from 2 to 5 starts the change unless one is in progress or the chip hushes; codes 0 and 1
with every domain off begin the move to DEEP or TACKING. -/
def Sys2Proof.Rules.PstateIsWritten : Prop :=
  ∀ (s : State) (by_ : By) (raw : Word) (be : BitVec 4), s.awake → nvOn s = true → jRoom s = true →
    Writes s 0x13 (.reg 0x13) raw be by_ → holdsRight s (askOrigin s by_) rPOWER = true → be.getLsbD 0 = true →
    let c := raw.extractLsb' 0 3
    let p := { s.power with code := c }
    let w := ((0#7 ++ s.power.lvl ++ s.power.cur ++ c : Half)).setWidth 32
    c.toNat < 6 →
    (2 ≤ c.toNat → ∃ t, exec (.pstateWrite by_) s = .next t ∧ AccessEnds s t 0x13 by_ ∧
      StagesOne s t (originKind (askOrigin s by_)) (tidHost 0x13) w ∧
      AccessOnly { s with power :=
        if s.power.hush = true ∨ s.power.req ≠ none ∨ c = s.power.lvl then p
        else { p with bias := .zero, assist := s.power.assist || decide (c.toNat ≤ 3), vout := mantissa s.power.trim c.toNat, operOn := true,
                      req := some (.move s.power.lvl c), second := false, pgoodRun := s.power.pgoodNow } } t) ∧
    (c.toNat < 2 → s.power.hush = false → s.power.req = none → s.power.movedJ = false → (∀ d, d < 66 → d ≠ 64 → (domGet s d).st = .off ∨ (domGet s d).st = .fault) →
      s.jrn.staging.length < 68 →
      ∃ t, exec (.pstateWrite by_) s = .next t ∧ AccessEnds s t 0x13 by_ ∧
        (∃ u, StagesOne s u (originKind (askOrigin s by_)) (tidHost 0x13) w ∧
          StagesOne u t kHARDWARE (tidHost 0x13) (((0#7 ++ (if s.power.limp then s.power.lvl else c) ++ c ++ c : Half)).setWidth 32)) ∧
        AccessOnly { s with power := { p with moving := some c, movedJ := true } } t)

/-- R283, R289, R292: a STATUS_WORD that meets the three conditions acknowledges the request; a rung is then ready and a change completes. Any other
leaves the request waiting. -/
def Sys2Proof.Rules.VoltageRequestIsPolled : Prop :=
  ∀ (s : State) (ack : Bool) (status : Half) (q : VReq), s.power.req = some q →
    let p : Power := { s.power with pgoodRun := s.power.pgoodNow, lastWord := if ack then status else s.power.lastWord }
    let good := ack = true ∧ s.power.pgoodRun = true ∧ status &&& 0xE8FE = 0
    (¬ good → exec (.regulatorPoll ack status) s = .next { s with power := p }) ∧
    (∀ c why r, good → q = .ladder c → s.power.mode = .ladder why r →
      exec (.regulatorPoll ack status) s = .next { s with power :=
        if s.power.hush then { p with req := none, regDone := true } else { p with req := none, regDone := false, mode := .ladder why 1 } }) ∧
    (∀ old new, good → q = .move old new → s.awake → s.power.code = new → 2 ≤ new.toNat → hwRoom s = true →
      ∃ t u, exec (.regulatorPoll ack status) s = .next t ∧
        PstateBecomes s u { p with req := none, second := false, assist := decide (new.toNat ≤ 3), bias := biasOf new.toNat,
                                   lvl := new, cur := if s.power.limp then s.power.cur else new } ∧
        (∀ r, delayGet t r = if r < 64 then { delayGet s r with due := true } else delayGet s r) ∧
        t = { u with mesh := { s.mesh with delays := t.mesh.delays } })

/-- R284, R291, R295, R296: the first REGTO sends the request again, the second abandons a change or fails the rung, and raises the fault. -/
def Sys2Proof.Rules.VoltageRequestTimesOut : Prop :=
  ∀ (s : State) (q : VReq), s.power.req = some q →
    (s.power.second = false → exec .regtoExpiry s = .next { s with power := { s.power with second := true, pgoodRun := s.power.pgoodNow } }) ∧
    (∀ old new, q = .move old new → s.power.second = true → s.awake → 2 ≤ s.power.lvl.toNat → nvOn s = true → s.jrn.staging.length < 68 →
      FaultPlain s srcCHIP fREGLINK →
      ∃ t u, exec .regtoExpiry s = .next t ∧
        PstateBecomes s u { s.power with req := none, second := false, bias := .zero, assist := true, code := s.power.lvl } ∧
        FaultRaised u t srcCHIP fREGLINK s.power.lastWord) ∧
    (∀ c why r, q = .ladder c → s.power.mode = .ladder why r → why ≠ .patrol → s.power.second = true → s.power.moving = none →
      s.time.patrol = none → s.sys.portRst = none → s.sys.held = [] → FaultPlain s srcCHIP fREGRUNG →
      let p : Power := { s.power with req := none, second := false, operOn := false }
      ∃ t u, exec .regtoExpiry s = .next t ∧ FaultRaised { s with power := p } u srcCHIP fREGRUNG 0 ∧
        t = { u with power := { p with mode := .deep, cur := 0, lvl := if p.limp then p.lvl else 0, ladderBad := true, assist := false, bias := .zero } })

/-- R292, R293: each ready rung lets the next start; the chip ladder ends in the MESH, SYS and NV ladders and the timestamp at 0. A rung that rests starts
again. -/
def Sys2Proof.Rules.RungsAreClimbed : Prop :=
  ∀ s : State, s.power.hush = false →
    (∀ why, s.power.mode = .ladder why 1 → ∃ t, exec (.rungReady .chip) s = .next t ∧
      (∀ d, domGet t d = if d = 64 ∨ d = 66 ∨ (d = 67 ∧ why ≠ .patrol) then { domGet s d with st := .waking, rung := 0, retried := false, rest := false }
        else domGet s d) ∧
      t = { s with doms := t.doms, time := { s.time with ts := 0 }
                   power := { s.power with mode := .core why, assist := assistOf (ladderCode why).toNat, bias := .zero } }) ∧
    (∀ (d : Fin 68) (r : BitVec 2), (domGet s d.val).st = .waking → (domGet s d.val).rest = false → nextRung d.val (domGet s d.val).rung = some r →
      exec (.rungReady (.dom d)) s = .next (domSet s d.val { domGet s d.val with rung := r, retried := false })) ∧
    (∀ d : Fin 68, (domGet s d.val).st = .waking → (domGet s d.val).rest = true →
      exec (.rungRetry (.dom d)) s = .next (domSet s d.val { domGet s d.val with rest := false }))

/-- R292, R253, R377: at its last rung a port domain is ON with a port NI fresh but for what is kept (log 16), its counters at 0 and its CSEL kept; R253
is evaluated again. -/
def Sys2Proof.Rules.PortReachesOn : Prop :=
  ∀ (s : State) (d : Fin 68), d.val < 64 → s.calm → nvOn s = true → s.jrn.staging.length < 68 → vioIsLow s (vioBank d.val) = false →
    let x := domGet s d.val
    x.st = .waking → x.rest = false → x.rung = 3 →
    ∃ t u v, exec (.rungReady (.dom d)) s = .next t ∧
      portGet u d.val = { PortSt.reset with pool := (portGet s d.val).pool, dead := (portGet s d.val).dead, cause := (portGet s d.val).cause, swallow := (portGet s d.val).swallow, clockStop := (portGet s d.val).clockStop, quiet := (portGet s d.val).quiet, isoLeft := isobud s d.val, pclkLive := cfgGet s d.val 1 } ∧
      (∀ m, m ≠ d.val → portGet u m = portGet s m) ∧
      (∀ g, cval u g = if d.val * 8 ≤ g ∧ g < d.val * 8 + 8 then 0 else cval s g) ∧
      (∀ g, covf u g = if d.val * 8 ≤ g ∧ g < d.val * 8 + 8 then false else covf s g) ∧
      u = { s with ports := u.ports, cnt := { s.cnt with value := u.cnt.value, ovf := u.cnt.ovf } } ∧
      DomBecomes u v d.val { x with st := .on, rung := 0, holdAt := s.time.ts } ∧ DomBecomes v t d.val (domNext v d.val)

/-- R292, R377: at its last rung MESH is ON: every router is as at reset, and so are the router selectors and counters. -/
def Sys2Proof.Rules.MeshComesUpFresh : Prop :=
  ∀ (s : State) (why : LadderWhy), s.power.mode = .core why → sysOn s = false → s.power.moving = none → s.time.patrol = none → s.sys.portRst = none → s.sys.held = [] →
    let x := domGet s 64
    x.st = .waking → x.rest = false → x.rung = 3 →
    ∃ t, exec (.rungReady (.dom 64)) s = .next t ∧ domGet t 64 = { x with st := .on, rung := 0, retried := false } ∧ (∀ d, d ≠ 64 → domGet t d = domGet s d) ∧
      t.mesh = Mesh.reset ∧ (∀ b i, i < 0x10000 → cfgGet t b i = if 0x40 ≤ b ∧ b < 0x80 then cfgReset (b * 0x10000 + i) else cfgGet s b i) ∧
      (∀ g, cval t g = if 512 ≤ g ∧ g < 1024 then 0 else cval s g) ∧ (∀ g, covf t g = if 512 ≤ g ∧ g < 1024 then false else covf s g) ∧
      t = { s with doms := t.doms, mesh := t.mesh, cfg := t.cfg, cnt := { s.cnt with value := t.cnt.value, ovf := t.cnt.ovf } }

/-- R295, R298: a rung late once rests or goes on; late again a port domain is in FAULT and its port dead. A late oscillator rung starts the chip in LIMP. -/
def Sys2Proof.Rules.RungFailures : Prop :=
  ∀ s : State,
    (∀ why, s.power.mode = .ladder why 1 → s.power.hush = false → s.time.patrol = none → nvOn s = true → s.jrn.staging.length < 68 →
      FaultPlain s srcCHIP fOSCRUNG →
      ∃ t u v, exec (.rungTimeout .chip) s = .next t ∧ PstateBecomes s u { s.power with limp := true, cur := 6 } ∧ FaultRaised u v srcCHIP fOSCRUNG 0 ∧
        t = { v with doms := t.doms, power := { u.power with mode := .core why, assist := assistOf (ladderCode why).toNat, bias := .zero } } ∧
        (∀ d, domGet t d = if d = 64 ∨ d = 66 ∨ (d = 67 ∧ why ≠ .patrol) then { domGet s d with st := .waking, rung := 0, retried := false, rest := false }
          else domGet s d)) ∧
    (∀ d : Fin 68, (domGet s d.val).st = .waking → (domGet s d.val).rest = false → (domGet s d.val).retried = false →
      ((domGet s d.val).rung = 0 → exec (.rungTimeout (.dom d)) s = .next (domSet s d.val { domGet s d.val with rest := true, retried := true })) ∧
      ((domGet s d.val).rung ≠ 0 → (d.val = 64 ∨ 66 ≤ d.val) →
        exec (.rungTimeout (.dom d)) s = .next (domSet s d.val { domGet s d.val with retried := true }))) ∧
    (∀ d : Fin 68, d.val < 64 → s.calm → (domGet s d.val).st = .waking → (domGet s d.val).rest = false →
      (domGet s d.val).retried = true ∨ (domGet s d.val).rung ≠ 0 → (portGet s d.val).dead = false → portAlone s d.val →
      nvOn s = true → s.jrn.staging.length < 68 → FaultPlain s d.val (rungFault (domGet s d.val).rung) →
      ∃ t u, exec (.rungTimeout (.dom d)) s = .next t ∧
        DomBecomes s u d.val { domGet s d.val with st := .fault, rest := false } ∧
        PortDies u t d.val (rungFault (domGet s d.val).rung) 0 (if (domGet s d.val).rung = 1 then .timeout else .isolated))

/-- R298, R299: loss of lock puts the chip in LIMP: CUR reads 6, LVL is kept, and the fault is raised. Premise: no port that is on takes its clock from
the synthesiser. -/
def Sys2Proof.Rules.LostLockIsLimp : Prop :=
  ∀ s : State, s.calm → s.power.limp = false → nvOn s = true → s.jrn.staging.length < 68 → FaultPlain s srcCHIP fPLLLOSS →
    (∀ n, n < 64 → domOn s n = true → clkSynth s n = false) →
    ∃ t u, exec .pllLoss s = .next t ∧ PstateBecomes s u { s.power with limp := true, cur := 6 } ∧ FaultRaised u t srcCHIP fPLLLOSS 0

/-- R313, R314, R318: RTCSEC1 sets the RTC to {written, staged} with fraction 0, a fabric write all 32 bits; an anchor follows the entry. That the write
is applied at once, and what VALUE holds, are readings (log 24). -/
def Sys2Proof.Rules.RtcIsSet : Prop :=
  ∀ s : State, s.calm → nvOn s = true → jRoom s = true → s.jrn.staging.length < 68 →
    let Sets := fun (t : State) (o : Origin) (v : Word) =>
      (∃ u, StagesOne s u (originKind o) (tidHost 0x10) (v >>> 16) ∧ StagesOne u t kRESET (BitVec.ofNat 6 aRTCSET ++ 0#10) v) ∧
      AccessOnly { s with time := { s.time with rtcSec := v, rtcFr := 0 } } t
    (∀ hd : Half, s.host.waitLow = false → hostGate s 0x10 = .serve →
      ∃ t, exec (.rtcsec1Write hd) s = .next t ∧ AccessEnds s t 0x10 (.host hd) ∧ Sets t .host (hd ++ s.host.rtcStage)) ∧
    (∀ (net : Net) (raw : Word) (be : BitVec 4), Writes s 0 .rtcSecs raw be (.fabric net) → holdsRight s (askOrigin s (.fabric net)) rAUTHORITY = true →
      ∃ t, exec (.rtcsecsWrite net) s = .next t ∧ AccessEnds s t 0 (.fabric net) ∧
        Sets t (askOrigin s (.fabric net)) (mergeWord [fRW 0xFFFFFFFF rAUTHORITY] s.time.rtcSec raw be))

/-- R313, R314: ALARM1 or a fabric write sets and arms the alarm, which fires at once when the RTC is at or beyond it. Readings: log 24. -/
def Sys2Proof.Rules.AlarmIsSet : Prop :=
  ∀ s : State, s.calm → nvOn s = true → jRoom s = true → s.jrn.staging.length < 68 → s.power.cur ≠ 1 →
    let fr := (cfgGet s 0x83 3).extractLsb' 0 10
    let Sets := fun (t : State) (o : Origin) (v : Word) =>
      if v ++ fr ≤ s.time.rtcSec ++ s.time.rtcFr then
        (∃ u, StagesOne s u (originKind o) (tidHost 0x12) (v >>> 16) ∧ StagesOne u t kHARDWARE (tidBank 0x83 3) (fr.setWidth 32)) ∧
        t.sys.event.getLsbD evALARM = true ∧ AccessOnly { s with time := { s.time with alSec := v, alFr := fr, armed := false } } t
      else
        StagesOne s t (originKind o) (tidHost 0x12) (v >>> 16) ∧ AccessOnly { s with time := { s.time with alSec := v, alFr := fr, armed := true } } t
    (∀ hd : Half, s.host.waitLow = false → hostGate s 0x12 = .serve → sysOn s = true →
      ∃ t, exec (.alarm1Write hd) s = .next t ∧ AccessEnds s t 0x12 (.host hd) ∧ Sets t .host (hd ++ s.host.alStage)) ∧
    (∀ (net : Net) (raw : Word) (be : BitVec 4), Writes s 0 .alarmSecs raw be (.fabric net) → holdsRight s (askOrigin s (.fabric net)) rPOWER = true →
      ∃ t, exec (.alarmsecsWrite net) s = .next t ∧ AccessEnds s t 0 (.fabric net) ∧
        Sets t (askOrigin s (.fabric net)) (mergeWord [fRW 0xFFFFFFFF rPOWER] s.time.alSec raw be))

/-- R314, R320: writing 1 to ALCTL.ARMED disarms the alarm and keeps FRAC. -/
def Sys2Proof.Rules.AlarmIsDisarmed : Prop :=
  ∀ (s : State) (by_ : By) (raw v : Word) (be : BitVec 4), s.calm → nvOn s = true → jRoom s = true → s.time.tackHeld = [] →
    v = mergeWord (bankFields 0x83 3) (alctlWord s) raw be → Writes s 0x0A (.bank 0x83 3) raw be by_ → holdsRight s (askOrigin s by_) rPOWER = true →
    v.msb = true →
    ∃ t, exec (.alarmDisarm by_) s = .next t ∧ AccessOnly (timeMod (cfgSet s 0x83 3 (v &&& 0x3FF)) (fun m => { m with armed := false })) t ∧
      AccessEnds s t 0x0A by_ ∧ StagesOne s t (originKind (askOrigin s by_)) (tidBank 0x83 3) (v &&& 0x3FF)

/-- R312, R318: one step is 1/1024 s; each hour makes an anchor. Premise: the alarm does not fire. -/
def Sys2Proof.Rules.RtcSteps : Prop :=
  ∀ s : State, s.calm → (s.time.armed = false ∨ ¬ (s.time.alSec ++ s.time.alFr ≤ (rtcAdvance s.time).rtcSec ++ (rtcAdvance s.time).rtcFr)) →
    let T : Time :=
      if s.time.rtcFr = 1023 then { s.time with rtcSec := s.time.rtcSec + 1, rtcFr := 0, rtcHalt := false }
      else { s.time with rtcFr := s.time.rtcFr + 1, rtcHalt := false }
    let hourly := s.time.rtcFr = 1023 ∧ T.rtcSec ≠ 0 ∧ T.rtcSec.toNat % 3600 = 0 ∧ nvOn s = true
    (¬ hourly → exec .rtcStep s = .next { s with time := T }) ∧
    (hourly → hwRoom s = true → ∃ t, exec .rtcStep s = .next t ∧ JournalOnly { s with time := T } t ∧ StagesOne s t kRESET (BitVec.ofNat 6 aHOURLY ++ 0#10) T.rtcSec)

/-- R329: TACKSTAT.RTCSTOP is set and the fault raised once. -/
def Sys2Proof.Rules.StoppedRtcIsAFault : Prop :=
  ∀ s : State, tsRuns s = true → s.time.rtcHalt = false → FaultPlain s srcCHIP fRTCSTOP →
    ∃ t, exec .rtcStopDetect s = .next t ∧ FaultRaised { s with time := { s.time with rtcstop := true, rtcHalt := true } } t srcCHIP fRTCSTOP 0

/-- R324, R327: a due patrol starts the chip ladder at RUN's voltage and the timestamp at 0. -/
def Sys2Proof.Rules.PatrolStarts : Prop :=
  ∀ s : State, s.power.mode = .tacking → s.time.due = true → s.power.hush = false →
    exec .patrolDue s = .next { s with
      time := { s.time with patrol := some .waking, due := false, tackRes := none, matches_ := [], wakeHit := none, ts := 0, isoCount := 0, bwCount := 0
                            patrols := if s.time.patrols = 255 then 255 else s.time.patrols + 1 }
      jrn := { s.jrn with newRun := true }
      power := { s.power with mode := .ladder .patrol 0, cur := if s.power.limp then 6 else s.power.cur, regDone := false, second := false
                              vout := mantissa s.power.trim 3, operOn := true, req := some (.ladder 3), pgoodRun := s.power.pgoodNow } }

/-- R321, R322, R323: what a patrol read brings is compared under OP; a match is kept for its entry, an error is flagged, and the next step follows.
Premise: a hush, so that no further read starts at once. -/
def Sys2Proof.Rules.PatrolReadIsTested : Prop :=
  ∀ (s : State) (k : Nat) (st : Status) (d : Word), s.time.patrol = some (.reading k) → s.time.tackRes = some (st, d) → k < s.time.lastStep.toNat →
    s.power.hush = true → s.power.moving = none → s.sys.portRst = none → s.sys.held = [] →
    let hit := tackMatch (fieldNat (tdest s k) 16 3) d (cfgGet s 0x83 (0x12 + 8 * k)) (cfgGet s 0x83 (0x13 + 8 * k)) (tget (fun _ => 0) s.time.lastv k) (s.time.lvalid.getLsbD k)
    let T := { s.time with tackRes := none, patrol := some (.next (k + 1)) }
    let U := { T with lastv := tset (fun _ => 0) s.time.lastv k d, lvalid := s.time.lvalid ||| (1 <<< k) }
    (st ≠ .ok → exec .tackReadDone s = .next { s with time := { T with merr := true } }) ∧
    (st = .ok → hit = false → exec .tackReadDone s = .next { s with time := U }) ∧
    (st = .ok → hit = true → fieldNat (tact s k) 0 2 = 0 → exec .tackReadDone s = .next { s with time :=
      { U with mmatch := true, mstep := BitVec.ofNat 3 k, matches_ := s.time.matches_ ++ [(k, d)] } })

/-- R368, R369: the oldest staged entry is written at the head and leaves staging; when the read-back fails, the head advances, VFAIL counts it and the
entry stays to be written again. PASSES advances at the wrap, and the header store every 4,096 entries. -/
def Sys2Proof.Rules.StagedEntryIsWritten : Prop :=
  ∀ (s : State) (pick : Nat) (e : Entry) (rest : List Entry), nvOn s = true → s.power.hush = false → s.power.nvWarn = false →
    s.jrn.staging = e :: rest →
    let h := s.jrn.head
    let Advances := fun (t : State) =>
      t.jrn.head = h + 1 ∧ t.jrn.passes = (if h + 1 = 0 then s.jrn.passes + 1 else s.jrn.passes) ∧
      (∀ i, i ≠ h.toNat → arrGet t i = arrGet s i) ∧
      (t.jrn.hdrHead = if (h + 1).toNat % 4096 = 0 then h + 1 else s.jrn.hdrHead) ∧
      (t.jrn.hdrPass = if (h + 1).toNat % 4096 = 0 then t.jrn.passes else s.jrn.hdrPass)
    (s.calm → s.sys.stalls = [] → s.sys.stitch = none → s.jrn.waiting = [] →
      ∃ t, exec (.journalArrayWrite true pick) s = .next t ∧ Advances t ∧ t.jrn.staging = rest ∧
        arrGet t h.toNat = entryBits e (s.jrn.passes.getLsbD 0) ∧
        t = { s with jrn := { s.jrn with array := t.jrn.array, head := t.jrn.head, passes := t.jrn.passes, hdrHead := t.jrn.hdrHead, hdrPass := t.jrn.hdrPass, level := t.jrn.level, staging := rest }
                     sys := { s.sys with event := t.sys.event, eventLate := t.sys.eventLate } }) ∧
    (∃ t, exec (.journalArrayWrite false pick) s = .next t ∧ Advances t ∧ t.jrn.staging = s.jrn.staging ∧
      t.jrn.vfail = (if s.jrn.vfail = 0xFFFFFFFF then s.jrn.vfail else s.jrn.vfail + 1) ∧
      t = { s with jrn := { s.jrn with array := t.jrn.array, head := t.jrn.head, passes := t.jrn.passes, hdrHead := t.jrn.hdrHead, hdrPass := t.jrn.hdrPass, level := t.jrn.level, vfail := t.jrn.vfail }
                   sys := { s.sys with event := t.sys.event, eventLate := t.sys.eventLate }, freeCount := s.freeCount + 1 })

/-- R238, R239, R242: reading a free lock takes it; a held one reads 0 to its holder and the holder's CID + 1 to others; 0 written by the holder releases
it, and in LOCKED mode discards an open assembly. -/
def Sys2Proof.Rules.LockIsReadAndReleased : Prop :=
  ∀ (s : State) (p : Pkt), s.calm →
    let b := bobOf p.addr
    let x := bobGet s b
    let free : Bobbin := if x.lock = none then x
      else if bOverwrite (bcfg s b) = false ∧ x.asm ≠ none then { x with lock := none, asm := none, coll := true } else { x with lock := none }
    (BobAsks s .req p → opOf p.cmd = .read 1 → bobWordIx p.addr 0 = 0 → p.data = [] →
      (p.snode.getLsbD 0 = false → x.lock = none → ∃ t, exec .lockRead s = .next t ∧
        BobDoes s t .req p { x with lock := some { schip := p.schip, snode := p.snode, cid := p.cid } } .ok [goodUnit 0 0xF]) ∧
      (p.snode.getLsbD 0 = true → x.lock = none → ∃ t, exec .lockRead s = .next t ∧ BobDoes s t .req p x .ok [goodUnit 0 0xF]) ∧
      (∀ l, x.lock = some l → ∃ t, exec .lockRead s = .next t ∧ BobDoes s t .req p x .ok
        [goodUnit (if l.schip = p.schip ∧ l.cid = p.cid ∧ p.snode.getLsbD 0 = false then 0 else 0xFF#8 ++ 0#15 ++ (l.cid.setWidth 9 + 1 : BitVec 9)) 0xF])) ∧
    (∀ net, BobWrites s net p 0 0 → bobHolds s b p = true → ∃ t, exec (.lockRelease net) s = .next t ∧ BobDoes s t net p free .ok [])

/-- R227, R232, R234, R239, R353: at a bobbin, a LOCK write of anything but 0 is answered DECERR; a release by anyone but the holder, a write of the
owner's words by anyone but the owner, and in LOCKED mode TXSTART or TXDATA by anyone but the holder are refused with RIGHTS and recorded; TXDATA of
another sender is FLUSHED. The bobbin is unchanged. -/
def Sys2Proof.Rules.OthersAreRefused : Prop :=
  ∀ (s : State) (p : Pkt) (net : Net) (d : Word) (w : Nat) (i : Instr), s.calm → BobWrites s net p w d →
    let b := bobOf p.addr
    let x := bobGet s b
    (w = 0 → d ≠ 0 → ∃ t, exec (.lockRelease net) s = .next t ∧ BobDoes s t net p x .decerr []) ∧
    (((i = .lockRelease net ∧ w = 0 ∧ d = 0 ∧ bobHolds s b p = false) ∨
      ((i = .bobStatWrite net ∧ w = 1 ∨ i = .dbclr net ∧ w = 3 ∨ i = .rxdone net ∧ w = 5 ∨ i = .flush net ∧ w = 6) ∧
        ¬(p.schip = s.chipnum ∧ p.snode = portNode (bOwner (bcfg s b)))) ∨
      ((i = .txstart net ∧ w = 0x0F ∨ i = .txdata net ∧ 0x10 ≤ w ∧ w ≤ 0x17) ∧ bOverwrite (bcfg s b) = false ∧ bobHolds s b p = false)) →
      ∃ t, exec i s = .next t ∧ BobDoes (refusedBy s (fabOrigin p) 9) t net p x .rights []) ∧
    (∀ a, 0x10 ≤ w → w ≤ 0x17 → (bOverwrite (bcfg s b) = true ∨ bobHolds s b p = true) → x.asm = some a → ¬(a.schip = p.schip ∧ a.cid = p.cid) →
      ∃ t, exec (.txdata net) s = .next t ∧ BobDoes s t net p x .flushed [])

/-- R230 to R234: START opens an assembly where there is room, drops the oldest messages in OVERWRITE mode, and is answered DECERR in LOCKED mode without
room; TXDATA appends, the last word commits with its SEQ and its doorbell bit; without an assembly it is FLUSHED. -/
def Sys2Proof.Rules.MessagesAreSent : Prop :=
  ∀ (s : State) (p : Pkt) (net : Net) (d : Word), s.calm →
    let b := bobOf p.addr
    let x := bobGet s b
    let lk := !bOverwrite (bcfg s b)
    (lk = true → bobHolds s b p = true) →
    (BobWrites s net p 0x0F d →
      let need := (d.extractLsb' 0 3).toNat + 1
      let other := match x.asm with | some a => !(decide (a.schip = p.schip) && decide (a.cid = p.cid)) | none => false
      let y : Bobbin := { x with asm := none, coll := x.coll || other }
      let asm : Asm := { schip := p.schip, cid := p.cid, lenM1 := d.extractLsb' 0 3, dbbit := d.extractLsb' 3 4, stag := d.extractLsb' 8 8, words := [] }
      let fits := fun (z : Bobbin) => need ≤ bobFreeW z ∧ z.msgs.length < 32
      (fits y → ∃ t, exec (.txstart net) s = .next t ∧ BobDoes s t net p { y with asm := some asm } .ok []) ∧
      (lk = true → ¬ fits y → ∃ t, exec (.txstart net) s = .next t ∧ BobDoes s t net p y .decerr []) ∧
      (lk = false → ∀ k, 0 < k → k < 33 → fits { y with msgs := y.msgs.drop k } → (∀ j, j < k → ¬ fits { y with msgs := y.msgs.drop j }) →
        ∃ t, exec (.txstart net) s = .next t ∧ BobDoes s t net p { y with msgs := y.msgs.drop k, coll := true, asm := some asm } .ok [])) ∧
    (∀ w, 0x10 ≤ w → w ≤ 0x17 → BobWrites s net p w d →
      (x.asm = none → ∃ t, exec (.txdata net) s = .next t ∧ BobDoes s t net p x .flushed []) ∧
      (∀ a, x.asm = some a → a.schip = p.schip → a.cid = p.cid →
        (a.words.length < a.lenM1.toNat → ∃ t, exec (.txdata net) s = .next t ∧
          BobDoes s t net p { x with asm := some { a with words := a.words ++ [d] } } .ok []) ∧
        (¬ a.words.length < a.lenM1.toNat → (bWake (bcfg s b) = false ∨ domOn s (bOwner (bcfg s b)) = true) →
          ∃ t, exec (.txdata net) s = .next t ∧ BobDoes s t net p
            { x with asm := none, seq := x.seq + 1, bell := x.bell ||| (1 <<< a.dbbit.toNat)
                     msgs := x.msgs ++ [{ lenM1 := a.lenM1, seq := x.seq, stag := a.stag, scid := a.cid, schip := a.schip, words := a.words ++ [d] }] } .ok [])))

/-- R236, R237, R243, R245: DOORBELL sets bits; the owner clears COLL, clears doorbell bits, frees the oldest message by its SEQ and flushes, which is
journaled. -/
def Sys2Proof.Rules.OwnerServesItsBobbin : Prop :=
  ∀ (s : State) (p : Pkt) (net : Net) (d : Word), s.calm →
    let b := bobOf p.addr
    let x := bobGet s b
    (BobWrites s net p 2 d → (bWake (bcfg s b) = false ∨ domOn s (bOwner (bcfg s b)) = true) → ∃ t, exec (.doorbellWrite net) s = .next t ∧
      BobDoes s t net p { x with bell := x.bell ||| d.extractLsb' 0 16 } .ok []) ∧
    (p.schip = s.chipnum → p.snode = portNode (bOwner (bcfg s b)) →
      (BobWrites s net p 1 d → ∃ t, exec (.bobStatWrite net) s = .next t ∧ BobDoes s t net p { x with coll := x.coll && !d.getLsbD 16 } .ok []) ∧
      (BobWrites s net p 3 d → ∃ t, exec (.dbclr net) s = .next t ∧ BobDoes s t net p { x with bell := x.bell &&& ~~~ (d.extractLsb' 0 16) } .ok []) ∧
      (BobWrites s net p 5 d → ∃ t, exec (.rxdone net) s = .next t ∧
        BobDoes s t net p { x with msgs := match x.msgs with | m :: rest => if m.seq = d.extractLsb' 4 4 then rest else m :: rest | [] => [] } .ok []) ∧
      (BobWrites s net p 6 d → d.getLsbD 0 = true → nvOn s = true → jRoom s = true → ∃ t, exec (.flush net) s = .next t ∧
        BobDoes s t net p { x with msgs := [], asm := none, epoch := x.epoch + 1 } .ok [] ∧
        StagesOne s t (originKind (fabOrigin p)) (tidBobbin 0 b) ((x.epoch + 1).setWidth 32)))

/-- R249, R419: the host flushes, frees the oldest message, clears COLL, and sets or clears doorbell bits of the bobbin BOBSEL names. -/
def Sys2Proof.Rules.HostServesBobbins : Prop :=
  ∀ (s : State) (hd : Half), s.calm → s.host.waitLow = false →
    let b := s.host.bobsel.toNat
    let x := bobGet s b
    let y : Bobbin := { x with coll := x.coll && !hd.getLsbD 6 }
    let done := fun (z : Bobbin) => if hd.getLsbD 10 then { z with msgs := match z.msgs with | m :: rest => if m.seq = hd.extractLsb' 12 4 then rest else m :: rest | [] => [] } else z
    let Does := fun (t : State) (z : Bobbin) => bobGet t b = z ∧ (∀ c, c ≠ b → bobGet t c = bobGet s c) ∧
      t = { s with bobs := t.bobs, jrn := t.jrn, cnt := t.cnt, sys := { s.sys with event := t.sys.event, eventLate := t.sys.eventLate } }
    bEnable (bcfg s b) = true →
    (hostGate s 0x2E = .serve →
      (hd.getLsbD 9 = true → nvOn s = true → jRoom s = true → ∃ t, exec (.hostBobFlush hd) s = .next t ∧
        Does t (done { y with msgs := [], asm := none, epoch := y.epoch + 1 }) ∧ StagesOne s t kHOST (tidBobbin 0 b) ((x.epoch + 1).setWidth 32)) ∧
      (hd.getLsbD 9 = false → hd.getLsbD 10 = true → ∃ t, exec (.hostBobDone hd) s = .next t ∧ Does t (done y) ∧ t.jrn = s.jrn)) ∧
    (hostGate s 0x2F = .serve → (s.host.bobclr = true ∨ bWake (bcfg s b) = false ∨ domOn s (bOwner (bcfg s b)) = true) →
      ∃ t, exec (.hostDoorbell hd) s = .next t ∧ Does t { x with bell := if s.host.bobclr then x.bell &&& ~~~ hd else x.bell ||| hd } ∧ t.jrn = s.jrn)

/-- R228, R229: BCFG is set and journaled; a change of OWNER or MODE, or clearing ENABLE, flushes the bobbin. -/
def Sys2Proof.Rules.BcfgIsWritten : Prop :=
  ∀ (s : State) (b : Fin 64) (by_ : By) (raw v : Word) (be : BitVec 4), s.calm → nvOn s = true → jRoom s = true →
    v = mergeWord (bankFields 0x87 b) (bcfg s b) raw be → Writes s 0x0A (.bank 0x87 b) raw be by_ → holdsRight s (askOrigin s by_) rMAP = true →
    (bWake v = false ∨ domOn s (bOwner v) = true) →
    ∃ t, exec (.bcfgWrite b by_) s = .next t ∧ AccessOnly { cfgSet s 0x87 b v with bobs := t.bobs } t ∧ AccessEnds s t 0x0A by_ ∧
      bobGet t b = (if bOwner v ≠ bOwner (bcfg s b) ∨ bOverwrite v ≠ bOverwrite (bcfg s b) ∨ (bEnable (bcfg s b) = true ∧ bEnable v = false)
                    then { bobGet s b with msgs := [], asm := none, epoch := (bobGet s b).epoch + 1 } else bobGet s b) ∧
      (∀ c, c ≠ b.val → bobGet t c = bobGet s c) ∧ StagesOne s t (originKind (askOrigin s by_)) (tidBank 0x87 b) v

/-- R125, R356, R357: a basting write by the owner, or the first into an empty set, keeps the word in the set; the live word is unchanged and nothing is
journaled. -/
def Sys2Proof.Rules.WordsAreBasted : Prop :=
  ∀ (s : State) (b i : Nat) (by_ : By) (raw v : Word) (be : BitVec 4), s.calm → Writes s 0x0A (.bank b i) raw be by_ → isBasted b i = true →
    v = mergeWord (bankFields b i) (bastedOr s b i) raw be → (∀ k ∈ (bankFields b i).map (·.right), ∀ r, k = some r → holdsRight s (askOrigin s by_) r = true) →
    bankReserved s b i (bastedOr s b i) v = false → ownsSet s (askOrigin s by_) = true → s.sys.stitch = none → setFull s b i = false →
    ∃ t, exec (.basteWrite by_) s = .next t ∧ AccessEnds s t 0x0A by_ ∧ t.jrn = s.jrn ∧ bastedAt t b i = some v ∧
      AccessOnly { s with sys := { s.sys with basted := tput s.sys.basted (cfgKey b i) v, baster := some (s.sys.baster.getD (askOrigin s by_)) } } t

/-- R357: ABANDON by the owner or the host empties the set. -/
def Sys2Proof.Rules.AbandonEmptiesTheSet : Prop :=
  ∀ (s : State) (by_ : By) (raw : Word) (be : BitVec 4), s.calm → Writes s 0x0A (.bank 0x88 0) raw be by_ → s.sys.stitch = none →
    be.getLsbD 0 = true → raw.extractLsb' 0 2 = 2 → (ownsSet s (askOrigin s by_) = true ∨ askOrigin s by_ = .host) →
    ∃ t, exec (.abandon by_) s = .next t ∧ AccessEnds s t 0x0A by_ ∧ t.jrn = s.jrn ∧
      AccessOnly { s with sys := { s.sys with basted := [], baster := none } } t

/-- R127, R358: an accepted STITCH journals each changed word and makes every word of the set live at once; the set is empty. Premise: the set has no
authority word that the master must apply first. -/
def Sys2Proof.Rules.StitchAppliesTheSet : Prop :=
  ∀ (s : State) (by_ : By) (raw : Word) (be : BitVec 4), s.calm → nvOn s = true → Writes s 0x0A (.bank 0x88 0) raw be by_ → s.sys.stitch = none →
    be.getLsbD 0 = true → raw.extractLsb' 0 2 = 1 → ownsSet s (askOrigin s by_) = true → s.sys.basted ≠ [] → stitchCheck s (askOrigin s by_) = 0 →
    (underMaster s = false ∨ setAuth s = []) →
    let changed := s.sys.basted.filter (fun e => decide (e.2 ≠ cfgGet s (e.1 / 65536) (e.1 % 65536)))
    s.jrn.staging.length + changed.length ≤ 64 →
    ∃ t, exec (.stitch by_) s = .next t ∧ AccessEnds s t 0x0A by_ ∧
      (∃ es, t.jrn.staging = s.jrn.staging ++ es ∧ es.map (fun e => (e.tid, e.value)) = changed.map (fun e => (tidBank (e.1 / 65536) (e.1 % 65536), e.2)) ∧
        ∀ e ∈ es, e.okind = originKind (askOrigin s by_) ∧ e.ts = s.time.ts) ∧
      (∀ e ∈ s.sys.basted, (∀ d ∈ s.sys.basted, d.1 = e.1 ∨ (d.1 / 65536 = 0x80 ∧ e.1 / 65536 = 0x80 ∧ d.1 % 256 = e.1 % 256) → d = e) →
        (e.1 / 65536 < 64 → tget cfgReset t.cfg e.1 = e.2) ∧ (e.1 / 65536 = 0x80 → e.1 % 65536 < 256 → tget cfgReset t.cfg e.1 = (e.2.extractLsb' 0 8).setWidth 32)) ∧
      (∀ k, (∀ e ∈ s.sys.basted, e.1 ≠ k ∧ (e.1 / 65536 = 0x80 → k / 65536 = 0x80 → e.1 % 256 ≠ k % 256)) → tget cfgReset t.cfg k = tget cfgReset s.cfg k) ∧
      AccessOnly { s with cfg := t.cfg, sys := { s.sys with basted := [], baster := none, result := 0 } } t

/-- R418: a write to index 0x10 sends one FENCE with an agent tag; the write waits for it. -/
def Sys2Proof.Rules.FenceIsSent : Prop :=
  ∀ (s : State) (by_ : By) (raw v : Word) (be : BitVec 4), s.calm → Writes s 0x0A (.bank 0x88 0x10) raw be by_ → sysOn s = true → s.sys.fenceBusy = false →
    v = raw &&& 0xFF7F &&& laneMask be →
    let chip := v.extractLsb' 8 8
    let node := v.extractLsb' 0 7
    inTable s chip = true → s.sys.queued = [] → s.sys.agents.free ≠ [] → hazard s.sys.agents chip node = false →
    ∃ u t, exec (.hostFence by_) s = .next t ∧ Taking s u 0x0A by_ ∧
      AgentSends { u with sys := { u.sys with fenceBusy := true } } t chip node .fence 0 [] (.fence (askReq s by_))

/-- R240: an unanswered port-reset notice is sent again. -/
def Sys2Proof.Rules.NoticesAreSentAgain : Prop :=
  ∀ (s : State) (c : Byte) (n : Nat), sysOn s = true → s.sys.notices = [(c, n)] → s.sys.queued = [] → inTable s c = true →
    (∀ e ∈ s.sys.agents.tags, e.2.st = .held → e.2.use ≠ .notice c n) → s.sys.agents.free ≠ [] → hazard s.sys.agents c nodeSys = false →
    ∃ t, exec .ringManagementResend s = .next t ∧ AgentSends s t c nodeSys (.write 1) 0x46 [goodUnit (BitVec.ofNat 32 n) 0xF] (.notice c n)

/-- R240, R261: a port-reset notice releases every lock that port held. Premise: no client of the port holds a vote here. -/
def Sys2Proof.Rules.PortResetNoticeIsTaken : Prop :=
  ∀ (s : State) (net : Net) (raw : Word) (be : BitVec 4) (chip cid : Byte), s.calm →
    Writes s 0 .portRst raw be (.fabric net) → askOrigin s (.fabric net) = .fab chip nodeSys cid → ringSource s chip = true →
    let n := fieldNat raw 0 6
    (∀ d, d < 64 → ∀ v ∈ (domGet s d).votes, v ∉ clientsOf s chip n) →
    ∃ t, exec (.portrstNotice net) s = .next t ∧ AccessEnds s t 0 (.fabric net) ∧
      (∀ b, b < 64 → bobGet t b =
        let x := bobGet s b
        if x.lock.any (fun l => decide (l.schip = chip) && decide (l.snode = portNode n)) then
          (if bOverwrite (bcfg s b) = false ∧ x.asm ≠ none then { x with lock := none, asm := none, coll := true } else { x with lock := none })
        else x) ∧
      (∀ b, 64 ≤ b → bobGet t b = bobGet s b) ∧ AccessOnly { s with bobs := t.bobs } t

/-- R435: a ring-reset notice marks the chip BUSY until the delay ends. -/
def Sys2Proof.Rules.RingResetNoticeStarts : Prop :=
  ∀ (s : State) (chip : Byte), sysOn s = true → ringSource s chip = true → (isMaster s = true ∨ chip = 0) →
    exec (.ringResetNotice chip) s = .next { s with sys := { s.sys with busy := true, ringWait := true, ringAsk := false } }

/-- R147, R148, R202: SYS decides the oldest claim: a free entry is taken, the same port is answered OK, another port DUPCID, with CONFLICT set and
journaled once; a spliced chip sends the claim on to the master. -/
def Sys2Proof.Rules.ClaimsAreDecided : Prop :=
  ∀ (s : State) (k : Claim) (rest : List Claim), sysOn s = true → s.sys.claims = k :: rest → (nodeGet s nodeSys .rsp).out = [] → hwRoom s = true →
    let w := dirWord s k.cid
    let Answers := fun (t e : State) (st : Status) =>
      nodeGet t nodeSys .rsp = { nodeGet s nodeSys .rsp with out := pktUnits (responsePkt
        { dchip := s.chipnum, dnode := nodeSys, snode := portNode k.port, cmd := cmdOf (.write 1), cls := 2, tag := k.tag, hasAddr := true,
          addrBad := false, schip := s.chipnum, cid := k.cid, addr := 0, data := [], formed := true } st []) } ∧
      (∀ (n : BitVec 7) (m : Net), ¬(n = nodeSys ∧ m = .rsp) → nodeGet t n m = nodeGet s n m) ∧
      t = { e with
            mesh := { s.mesh with nodes := t.mesh.nodes }, jrn := t.jrn, cnt := t.cnt
            sys := { s.sys with claims := rest, event := t.sys.event, eventLate := t.sys.eventLate } }
    (dirValid w = false → (spliced s = false ∨ isMaster s = true) → ∃ t, exec (.clientClaim .here) s = .next t ∧
      let v := mkDir k.chip k.port true false (dirConflict w)
      Answers t (cfgSet s 0x81 k.cid.toNat v) .ok ∧ Enters s t kHARDWARE (tidBank 0x81 k.cid.toNat) v) ∧
    (dirNames w k.chip k.port = true → ∃ t, exec (.clientClaim .here) s = .next t ∧ Answers t s .ok ∧ t.jrn = s.jrn) ∧
    (dirValid w = true → dirNames w k.chip k.port = false → ∃ t, exec (.clientClaim .here) s = .next t ∧ t.sys.event.getLsbD evCLIENT = true ∧
      (dirConflict w = false → Answers t (cfgSet s 0x81 k.cid.toNat (w ||| 0x40000)) .dupcid ∧ Enters s t kHARDWARE (tidBank 0x81 k.cid.toNat) (w ||| 0x40000)) ∧
      (dirConflict w = true → Answers t s .dupcid ∧ t.jrn = s.jrn)) ∧
    (dirValid w = false → spliced s = true → isMaster s = false →
      exec (.clientClaim .here) s = .next { s with sys := { s.sys with claims := rest, forwarded := s.sys.forwarded ++ [k] } })

/-- R148, R202, R203: what the master sets for a claim, a pin and a pin at a splice that another chip sends. -/
def Sys2Proof.Rules.MasterDecidesClaims : Prop :=
  ∀ (s : State) (c cid : Byte) (port : Fin 64), sysOn s = true → isMaster s = true → ringSource s c = true → hwRoom s = true →
    let w := dirWord s cid
    let Sets := fun (t : State) (v : Word) =>
      (w = v → t.jrn = s.jrn ∧ CountsOnly s t) ∧ (w ≠ v → Enters s t kHARDWARE (tidBank 0x81 cid.toNat) v ∧ JournalOnly (cfgSet s 0x81 cid.toNat v) t)
    (∃ t, exec (.clientClaim (.chip c port cid .learned)) s = .next t ∧ Sets t (if dirValid w = false then mkDir c port true false (dirConflict w)
      else if dirNames w c port then w else w ||| 0x40000)) ∧
    (∃ t, exec (.clientClaim (.chip c port cid .pinNow)) s = .next t ∧ Sets t (mkDir c port true true false)) ∧
    (∃ t, exec (.clientClaim (.chip c port cid .pinSplice)) s = .next t ∧ Sets t (if dirPinned w = true ∧ dirNames w c port = false then w ||| 0x40000
      else mkDir c port true true false))

/-- R149: PINNED 1 sets the entry and clears CONFLICT; PINNED 0 frees a pinned entry. -/
def Sys2Proof.Rules.HostPinsClients : Prop :=
  ∀ (s : State) (c : Byte) (hd : Half) (raw : Word) (be : BitVec 4), s.calm → nvOn s = true → jRoom s = true →
    Writes s 0x0A (.bank 0x81 c.toNat) raw be (.host hd) →
    let Does := fun (t : State) (v : Word) => AccessEnds s t 0x0A (.host hd) ∧ AccessOnly (cfgSet s 0x81 c.toNat v) t ∧
      StagesOne s t kHOST (tidBank 0x81 c.toNat) v
    (raw.getLsbD 17 = true → ∃ t, exec (.directoryWrite c (.host hd)) s = .next t ∧
      Does t (mkDir (raw.extractLsb' 0 8) (fieldNat raw 8 6) true true false)) ∧
    (raw.getLsbD 17 = false → dirPinned (dirWord s c) = true → ∃ t, exec (.directoryWrite c (.host hd)) s = .next t ∧ Does t 0)

/-- R203, R354, R433: a directory copy sets the whole directory and rights and keeps the marks the new directory still names; an authority copy sets the
words it carries, journaled as REMOTE with the origin of the STITCH. Their form is the model's (log 12). -/
def Sys2Proof.Rules.CopiesOfTheMasterAreTaken : Prop :=
  ∀ (s : State), sysOn s = true → spliced s = true → isMaster s = false →
    (∀ (dir : List (Byte × Word)) (auth : List (Byte × Byte)),
      let e := fun (c : Byte) => ((dir.find? (fun x => x.1 = c)).map (·.2 &&& 0x73FFF)).getD 0
      let a := fun (c : Byte) => ((auth.find? (fun x => x.1 = c)).map (·.2)).getD 0x0C
      s.sys.forwarded = [] → jRoomFor s ((List.range 256).filter (fun c => rights s (BitVec.ofNat 8 c) ≠ a (BitVec.ofNat 8 c))).length = true →
      ∃ t, exec (.directoryCopy dir auth) s = .next t ∧ (∀ c, dirWord t c = e c) ∧ (∀ c, rights t c = a c) ∧
        (∀ k, ¬(0x81 * 65536 ≤ k ∧ k < 0x81 * 65536 + 256) → ¬(0x80 * 65536 ≤ k ∧ k < 0x80 * 65536 + 256) → tget cfgReset t.cfg k = tget cfgReset s.cfg k) ∧
        (∀ n, n < 64 → portGet t n = { portGet s n with marks := (portGet s n).marks.filter (fun m => dirNames (cfgGet t 0x81 m.1) s.chipnum n) }) ∧
        t = { s with cfg := t.cfg, ports := t.ports, jrn := t.jrn, cnt := t.cnt, sys := { s.sys with event := t.sys.event, eventLate := t.sys.eventLate } }) ∧
    (∀ (schip ochip ocid : Byte) (words : List (Byte × Byte)), ringSource s schip = true → s.sys.stitch = none → (words.map (·.1)).Nodup →
      jRoomFor s (authChanged s words).length = true →
      ∃ t, exec (.authorityCopy schip ochip ocid words) s = .next t ∧ (∀ x ∈ words, rights t x.1 = x.2) ∧
        (∀ k, (∀ x ∈ words, k ≠ cfgKey 0x80 x.1.toNat) → tget cfgReset t.cfg k = tget cfgReset s.cfg k) ∧
        AccessOnly { s with cfg := t.cfg } t ∧
        (nvOn s = true → ∃ es, t.jrn.staging = s.jrn.staging ++ es ∧ es.map (fun x => (x.tid, x.value)) = (authChanged s words).map (fun x => (tidBank 0x80 x.1.toNat, x.2.setWidth 32)) ∧
          ∀ x ∈ es, x.okind = kREMOTE ∧ x.ochip = ochip ∧ x.ocid = ocid))

/-- R409, R434, R435: a CHIP reset of a chip not on the ring starts at once, of a spliced one after it has left; a RING reset waits for its notices. -/
def Sys2Proof.Rules.ChipAndRingResets : Prop :=
  ∀ (s : State) (by_ : By) (raw : Word) (be : BitVec 4), s.calm → nvOn s = true → jRoom s = true → Writes s 6 (.reg 6) raw be by_ →
    holdsRight s (askOrigin s by_) rRESET = true → be.getLsbD 0 = true → be.getLsbD 1 = true → raw.extractLsb' 0 16 = 0xC1EA →
    let o := askOrigin s by_
    let scope := (scopeOf s o).toNat % 4
    let Starts := fun (t : State) (c : BitVec 4) => ∃ x a u, Taking s x 6 by_ ∧ StagesOne x a (originKind o) (tidHost 6) 0xC1EA ∧
      JournalOnly { x with sys := { x.sys with busy := true } } a ∧ Returned a u true true true true ∧ StartsUp u t c
    let Begins := fun (t : State) (e : State) => AccessEnds s t 6 by_ ∧ StagesOne s t (originKind o) (tidHost 6) 0xC1EA ∧ AccessOnly e t
    (scope = 2 → canDrive s = false → ∃ t, exec (.resetChip by_) s = .next t ∧ Starts t 5) ∧
    (scope = 2 → canDrive s = true → isMaster s = false → s.ring.leaveWhy = .none → ∃ t, exec (.resetChip by_) s = .next t ∧
      Begins t { s with sys := { s.sys with busy := true }, ring := { s.ring with leaveWhy := .chipReset, gateA := { s.ring.gateA with tx := s.ring.gateA.tx ++ [ctlTransfer 3 0x6 s.chipnum] } } }) ∧
    (scope = 3 → spliced s = false → ∃ t, exec (.resetRing by_) s = .next t ∧ Starts t 6) ∧
    (scope = 3 → spliced s = true → ∃ t, exec (.resetRing by_) s = .next t ∧
      Begins t { s with sys := { s.sys with busy := true, ringWait := s.sys.ringWait || isMaster s, ringAsk := s.sys.ringAsk || !isMaster s } })

/-- R432, R436: a SYS reset ends what SYS, BOB and COL had in progress and wakes their domain; ports, routers and seams keep running. -/
def Sys2Proof.Rules.SysReset : Prop :=
  ∀ (s : State) (by_ : By) (raw : Word) (be : BitVec 4), s.calm → nvOn s = true → jRoom s = true → Writes s 6 (.reg 6) raw be by_ →
    holdsRight s (askOrigin s by_) rRESET = true → be.getLsbD 0 = true → be.getLsbD 1 = true → raw.extractLsb' 0 16 = 0xC1EA →
    let o := askOrigin s by_
    (scopeOf s o).toNat % 4 = 1 → s.sys.busy = false → (∀ e ∈ s.sys.agents.tags, e.2.st ≠ .held) →
    ∃ t x a, exec (.resetSys by_) s = .next t ∧ Taking s x 6 by_ ∧ StagesOne x a (originKind o) (tidHost 6) 0xC1EA ∧ JournalOnly x a ∧
      (∀ d, domGet t d = if d = 66 then { domGet s 66 with st := if s.power.hush then .off else .waking, rung := 0, retried := false, rest := false } else domGet s d) ∧
      (∀ k net, nodeGet t k net = if k = nodeSys ∨ k = nodeBob ∨ k = nodeCol then { nodeGet x k net with out := restOnly (nodeGet x k net).out, part := [], rx := [] }
                                  else nodeGet s k net) ∧
      t = { a with
        doms := t.doms, mesh := { a.mesh with nodes := t.mesh.nodes }, host := { x.host with waitLow := false }
        sys := { a.sys with busy := true, queued := [], bellDue := false, claims := [], forwarded := [], fences := [], stalls := [], voteWait := [],
                            stitch := none, held := [] } }

/-- R430, R431, R436, R341: a PORT reset turns the domain off and returns the port, its domain, its fault record, its words and its counters to reset
values, with an anchor; the quiet time of R431 starts. Premise: the port had nothing in progress and no client. -/
def Sys2Proof.Rules.PortReset : Prop :=
  ∀ (s : State) (by_ : By) (raw : Word) (be : BitVec 4), s.calm → nvOn s = true → jRoom s = true → s.jrn.staging.length + 3 ≤ 72 →
    Writes s 6 (.reg 6) raw be by_ →
    holdsRight s (askOrigin s by_) rRESET = true → be.getLsbD 0 = true → be.getLsbD 1 = true → raw.extractLsb' 0 16 = 0xC1EA →
    let o := askOrigin s by_
    let n := (scopeOf s o).toNat / 4
    let x := domGet s n
    let p := portGet s n
    (scopeOf s o).toNat % 4 = 0 → s.sys.busy = false → x.st ≠ .waking → x.st ≠ .hemming → portAlone s n → p.tgt = none → p.claimed = false → p.claiming = false →
    (nodeGet s (portNode n) .rsp).rx = [] → s.ring.chips = [s.chipnum] → clientsOf s s.chipnum n = [] →
    (∀ b, b < 64 → (bOwner (bcfg s b) = n → bcfg s b = 0 ∧ bobGet s b = Bobbin.reset) ∧
      ∀ l, (bobGet s b).lock = some l → ¬(l.schip = s.chipnum ∧ l.snode = portNode n)) →
    ∃ t a b, exec (.resetPort by_) s = .next t ∧ AccessEnds s t 6 by_ ∧
      StagesOne s a (originKind o) (tidHost 6) 0xC1EA ∧
      DomBecomes a b n (if x.st = .off then x else { x with st := .off, rung := 0 }) ∧
      StagesOne b t kRESET (BitVec.ofNat 6 aRESET ++ s.time.rtcFr) s.time.rtcSec ∧
      (∀ m, portGet t m = if m = n then { PortSt.reset with quiet := p.quiet || !p.dead } else portGet s m) ∧
      (∀ d, domGet t d = if d = n then Dom.resetOf n else domGet s d) ∧
      (∀ k, faultGet t k = if k = n then FaultRec.reset else faultGet s k) ∧
      (∀ k, tget cfgReset t.cfg k = if k / 65536 = n then cfgReset k else tget cfgReset s.cfg k) ∧
      (∀ g, g / 8 = n → cval t g = 0 ∧ covf t g = false) ∧
      AccessOnly { s with ports := t.ports, doms := t.doms, faults := t.faults, cfg := t.cfg } t

/-- A step takes the command at the front of the queue and is exec of it with the rest. -/
def Sys2Proof.Rules.StepRunsFrontCommand : Prop :=
  ∀ (s : State) (c : Instr), step { s with pending := c :: s.pending } = exec c s

/-- R310, R70, R392: the model's choice (log 7): a step with an empty queue is one tick of the timestamp while it runs, and nothing otherwise. -/
def Sys2Proof.Rules.EmptyQueueTicks : Prop :=
  ∀ s : State, s.pending = [] →
    (tsRuns s = false → step s = .next s) ∧
    (tsRuns s = true → ∃ t, step s = .next t ∧ t.time.ts = s.time.ts + 1 ∧
      (s.time.isoCount.toNat + 1 < s.time.isoLive.toNat → t.time.isoCount = s.time.isoCount + 1) ∧
      (s.time.bwCount.toNat + 1 < s.time.bwLive.toNat → t.time.bwCount = s.time.bwCount + 1) ∧
      t = { s with time := { s.time with ts := t.time.ts, isoCount := t.time.isoCount, bwCount := t.time.bwCount } })

/-- The invariant holds at reset. -/
def Sys2Proof.Rules.InvariantAtReset : Prop := State.reset.Inv

/-- From every state that meets the invariant a step leads to one that meets it: the tables stay in canonical form, no host selector holds a reserved code
(R3, R264, R267, R343, R419), SEAM and the core domains stay COMMANDED without votes (R252, R256, R265), and the TAP holds the chip exactly while
EXTEST, HIGHZ or CLAMP is current (R461). -/
def Sys2Proof.Rules.StepKeepsInvariant : Prop := ∀ s t : State, s.Inv → step s = .next t → t.Inv

/-- No command touches the queue of waiting commands. -/
def Sys2Proof.Rules.ExecLeavesQueue : Prop := ∀ (i : Instr) (s t : State), s.Inv → exec i s = .next t → t.pending = s.pending

/-- Every well-formed command answers with a next state in every state; an ill-formed one stops by name (log 1). -/
def Sys2Proof.Rules.WellFormedCommandsAnswer : Prop :=
  ∀ (i : Instr) (s : State), (i.wf = true → ∃ t, exec i s = .next t) ∧ (i.wf = false → ∃ row, exec i s = .fault (.illFormed row))

/-- LNK_P makes every unit odd. For every unit, the 48 bits and LNK_P together hold an odd number of ones; a unit of all zeros has LNK_P at 1. -/
def Obligations.LinkParityOfEveryUnit : Prop := Sys2Proof.Rules.LinkParityIsOdd

/-- UNIT_TRANSFER moves one unit over a link and changes nothing else. A sound unit crosses a hop to a free input latch, enters the mesh from the slot
that holds the local input, or is taken by the addressed slot, where the last unit completes the packet. The other latches, the other nodes and the
rest of the chip are unchanged. -/
def Obligations.UnitsMoveOverLinks : Prop := Sys2Proof.Rules.UnitCrossesHop ∧ Sys2Proof.Rules.NodeDrivesUnit ∧ Sys2Proof.Rules.NodeTakesUnit

/-- ROUTER_HEAD_ARRIVAL routes, absorbs or discards. A sound head gets its output by routing target, length and waiting order; one whose slot answers in
the place of the node is absorbed with that answer; what is not a sound head is dropped and the input discards until the next head. -/
def Obligations.HeadsAreRouted : Prop := Sys2Proof.Rules.HeadIsRouted ∧ Sys2Proof.Rules.HeadIsAbsorbed ∧ Sys2Proof.Rules.BadHeadIsDiscarded

/-- OUTPUT_GRANT and BULK_PROMOTION. A free output with heads waiting is granted to one of the highest effective class, and is held for its packet; a held
output is not granted. A BULK head passed eight times competes as STD; that the model moves the count to 9 to count the promotion once is its own
bookkeeping. -/
def Obligations.OutputsAreGranted : Prop :=
  Sys2Proof.Rules.GrantTakesHighestClass ∧
  Sys2Proof.Rules.HeldOutputIsNotGranted ∧
  Sys2Proof.Rules.PromotionIsCountedOnce

/-- DELAY_LINE_SWAP trims the idle line and swaps the two. When a swap is due or 4,096 handshakes have passed, between packets, the idle line takes the
trimmed tap and comes into service. -/
def Obligations.DelayLinesChangePlaces : Prop := Sys2Proof.Rules.DelayLinesSwap

/-- ISO_FRAME_BOUNDARY gives every port its ISOBUD. At a frame boundary every port has its whole budget again, whatever was left of the last; the frame
count starts again. The chip is not in LIMP, where the frame counter does not run. -/
def Obligations.BudgetsReloadAtTheFrame : Prop := Sys2Proof.Rules.IsoBudgetsReload

/-- ACCESS_CAPTURE and STROBE_RELEASE. An access of a FLAT8 or MUX16 device enters the intake while it has room and waits at the pins when it has none;
the strobe that rises clears the completion. -/
def Obligations.AccessesEnterTheIntake : Prop := Sys2Proof.Rules.AccessEntersIntake ∧ Sys2Proof.Rules.StrobeReleaseReadiesBus

/-- Both strobes low, or A0 = 1 with BHE_N = 1, form no request. Such an access ends without delay, with no data, sends nothing, and PERR records DECERR. -/
def Obligations.ReservedStrobesFormNoRequest : Prop := Sys2Proof.Rules.ReservedStrobesEndDecerr

/-- The nine SYNC16 command rows. Each SYNC16 command enters the intake with the kind, length, client and operand beats its command beats give; a reserved
OP ends with DECERR. -/
def Obligations.SyncCommandsAreTaken : Prop := Sys2Proof.Rules.SyncCommandsEnterIntake ∧ Sys2Proof.Rules.ReservedSyncOpEndsDecerr

/-- INTAKE_DECODE drives a packet, ends with DECERR, or sends a claim. The oldest access is decoded: under a claimed client its next packet is driven with
the tag longest FREE and its ISO charge subtracted; one that decodes to nothing ends with DECERR; under an unclaimed client a claim is sent first. The
form of a claim is the model's (log 12). -/
def Obligations.IntakeIsDecoded : Prop :=
  Sys2Proof.Rules.DecodeSendsFirstPacket ∧
  Sys2Proof.Rules.UndecodableAccessEndsDecerr ∧
  Sys2Proof.Rules.FirstUseSendsClaim

/-- RESPONSE_MATCH, TAG_TIMEOUT and STALE_TAG_EXPIRY. A response frees its tag and ends the access with its status and data; a timeout ends it with
TIMEOUT and leaves the tag STALE, which a further timeout frees. The FENCE of index 0x10 completes the same way. -/
def Obligations.TagsPassTheirStates : Prop :=
  Sys2Proof.Rules.ResponseEndsAccess ∧
  Sys2Proof.Rules.TimeoutLeavesTagStale ∧
  Sys2Proof.Rules.StaleTagBecomesFree ∧
  Sys2Proof.Rules.HostFenceEndsWithItsTag

/-- ASLEEP-WAKING keeps the tag, WAKE_RETRY drives the request again. ASLEEP-WAKING completes nothing; the same packet is driven again with the same tag,
when its ISO charge fits. -/
def Obligations.AsleepAccessesAreDrivenAgain : Prop := Sys2Proof.Rules.AsleepWakingKeepsTag ∧ Sys2Proof.Rules.RetryDrivesPacketAgain

/-- CMD_READ, CMD_WRITE and the atomics at a port. A request that the port may perform leaves its queue and its bus cycles begin; a FLAT8 or MUX16 port
runs an atomic itself from what the device reads, a SYNC16 port hands it to its device. -/
def Obligations.TargetsPerformRequests : Prop := Sys2Proof.Rules.TargetStartsBusCycles ∧ Sys2Proof.Rules.SyncAtomicGoesToDevice

/-- A request the port answers itself reaches no device. For each request row: where the port answers with a status of its own, the request leaves the
queue, that answer is sent, and every other node and the rest of the chip are unchanged. -/
def Obligations.TargetsTurnRequestsAway : Prop := Sys2Proof.Rules.TargetTurnsRequestAway

/-- CMD_PROBE, CMD_FENCE and FENCE_COMPLETE at a port. A PROBE is answered at once; a FENCE is held, and answered OK when no request is in progress and no
notification waits. -/
def Obligations.ProbesAndFencesAreAnswered : Prop := Sys2Proof.Rules.ProbeIsAnswered ∧ Sys2Proof.Rules.FenceWaitsThenIsAnswered

/-- TARGET_REQUEST_DONE and BUS_CLAIM. When the cycles of a request end, the response is sent, then the notifications of what was written; the byte counts
advance. A DUAL port claims its bus first. -/
def Obligations.TargetsAnswerWhenDone : Prop := Sys2Proof.Rules.TargetAnswersWhenDone ∧ Sys2Proof.Rules.BusIsClaimed

/-- WATCH_ARRIVAL marks, replays or discards. A WATCH without data units is never replayed: WMARK takes its address, VALID is set, and MORE when VALID was
1. One with data is replayed as a write through the WATCHABLE window chosen; in role INIT or without a window it is discarded, with NOMAP set and the
drop counted. -/
def Obligations.WatchesAreMarkedOrReplayed : Prop := Sys2Proof.Rules.WatchArrives

/-- WATCH_SEND_TIMEOUT, WATCH_REPLAY_TIMEOUT and WATCH_REPLAY_DONE. A notification that waited WATCHTO is dropped, flagged and counted, at the sender and
at the watcher; the end of a replay frees its buffer. -/
def Obligations.WatchDropsAndEnds : Prop := Sys2Proof.Rules.WatchDropsAreCounted ∧ Sys2Proof.Rules.ReplayEnds

/-- PIRQ_ACTIVATION, PIRQ_REPEAT and PIRQ_DEACTIVATION. An activation, or a repeat while active, sends one CTL write to the DOORBELL word of the bobbin
that PIRQCFG names, with one tag; nothing else of the chip changes. -/
def Obligations.PirqIsForwardedOnce : Prop := Sys2Proof.Rules.PirqIsForwarded ∧ Sys2Proof.Rules.PirqReadsInactive

/-- RING messages at a chip that is not the addressee. JOIN, GRANT, LEAVE, RELEASE, ROLL, DUP, EJECT and FAULT go on unchanged; the roll call is extended;
ABORT goes on after the first, and the master repeats its four. EJECT is followed only in a pause that granted this chip (log 28). -/
def Obligations.RingMessagesPass : Prop := Sys2Proof.Rules.RingMessagesGoOn ∧ Sys2Proof.Rules.RollCallPassesOn ∧ Sys2Proof.Rules.AbortsGoOn

/-- PAUSE, QUIET, PULSE, PULSE_TIMER and JOIN_SLOT. PAUSE stops new packets and goes on; QUIET goes on when this chip is quiet; PULSE goes round with ARG
+ 1, and the join slot it opens carries one checked request on as JOIN. -/
def Obligations.PausesAndPulsesGoRound : Prop :=
  Sys2Proof.Rules.PauseStopsPackets ∧
  Sys2Proof.Rules.PulsesGoRound ∧
  Sys2Proof.Rules.JoinSlotsCarryRequests

/-- SEAM_UNIT and CREDIT. The head of a packet for this chip enters the mesh at its gateway with type and parity made anew and its credit is returned;
CREDIT gives back the credits it names. -/
def Obligations.SeamUnitsAndCredits : Prop := Sys2Proof.Rules.SeamUnitEntersMesh ∧ Sys2Proof.Rules.CreditsReturn

/-- CTLPAR and NOPULSE. A chip that is not the master declares a ring fault: it stops starting packets, sends FAULT, resynchronises, and raises the fault
of SEAM; with no PULSE it is an ORPHAN. -/
def Obligations.RingFaultsAreDeclared : Prop := Sys2Proof.Rules.RingFaultIsDeclared ∧ Sys2Proof.Rules.LostPulseMakesOrphan

/-- GRANT, MASTER_SELF_SPLICE, RELEASE, RINGTO_EXPIRY and RESUME. A waiting chip is spliced by its GRANT, the master by itself; RELEASE or RINGTO closes
the bypass of a chip that leaves; RESUME takes the table of the roll call. -/
def Obligations.BypassOpensAndCloses : Prop :=
  Sys2Proof.Rules.GrantOpensBypass ∧
  Sys2Proof.Rules.UnspliceClosesBypass ∧
  Sys2Proof.Rules.ResumeTakesTable

/-- RINGCTL_LEAVE and RINGCTL_REFORM. Both are journaled; LEAVE sends LEAVE with this chip's number, REFORM at the master declares a ring fault of cause 7
and sends four ABORTs on both rings. -/
def Obligations.RingctlStartsOperations : Prop := Sys2Proof.Rules.RingctlAsksToLeave ∧ Sys2Proof.Rules.RingctlReforms

/-- PCFG_WRITE, PCLK_WRITE and CLRPEAK. For the host and for a fabric client alike: the word is set lane by lane and journaled before it applies; CLRPEAK
clears the peaks and is not journaled. Nothing else but the access itself changes. -/
def Obligations.PortWordsAndPeaks : Prop := Sys2Proof.Rules.PortWordsAreWritten

/-- PCFG_WRITE and PCLK_WRITE that are refused. A reserved or refused value, or a client without MAP, leaves the word and all else as it was and makes no
entry; the answer is DECERR or RIGHTS, the latter recorded in REFUSE; the host sees WINCTL.REFUSED. -/
def Obligations.RefusedWritesChangeNothing : Prop := Sys2Proof.Rules.RefusedPortWritesChangeNothing

/-- CSEL_WRITE and CVAL_READ. A changed CSEL sets its counter, and with CHAIN its partner, to 0; a read of a chained even counter latches its partner. The
clause on values covers the counters of ports and routers. -/
def Obligations.CountersAreSelectedAndRead : Prop := Sys2Proof.Rules.CounterSelectIsWritten ∧ Sys2Proof.Rules.ChainedCounterReadLatches

/-- SNAPSHOT, FREEZE, THAW, CLEAR, GATHER_DONE and BW_WINDOW_BOUNDARY. The four commands of CNTCTL, journaled; the store at the end of a gather and its
MISS bits; what each port records at a window boundary. -/
def Obligations.CountersAreCommanded : Prop :=
  Sys2Proof.Rules.CounterCommands ∧
  Sys2Proof.Rules.GatherEnds ∧
  Sys2Proof.Rules.BandwidthWindowEnds

/-- TIME0_READ, RTCSEC0_READ, ALARM0_READ, JRNHEAD0_READ, WINDATA_READ, BOBDATA_READ and REGISTER_READ_CLEAR. What each host read returns, latches and
clears; nothing else but a counter of SYS changes. -/
def Obligations.HostReadsAreLatched : Prop := Sys2Proof.Rules.HostReadsLatch ∧ Sys2Proof.Rules.WindowIsRead

/-- RTCSEC0_WRITE, ALARM0_WRITE, WINDATA_WRITE and REGISTER_WRITE. Low halves and selectors only stage; the rows that name one access to PCFG have one
effect. -/
def Obligations.HostHalvesAndViews : Prop := Sys2Proof.Rules.HostHalvesAreStaged ∧ Sys2Proof.Rules.RowsOfOneAccessAgree

/-- RESET_PIN and the six TAP instructions. RESET_N low, EXTEST, HIGHZ and CLAMP hold the chip; IDCODE, SAMPLE/PRELOAD and BYPASS do not disturb it;
IDCODE reads 0x2D6405EB. -/
def Obligations.ResetPinAndTestHold : Prop :=
  Sys2Proof.Rules.ResetPinHolds ∧
  Sys2Proof.Rules.TestInstructionsHold ∧
  Sys2Proof.Rules.OtherTapInstructionsDoNot

/-- RESET_RELEASE, TAP_TEST_EXIT, VCORE_RESET, POWER_ON, RING_RESET_DELAY and RING_RESET_NO_ANSWER. Each starts the chip with the cause R425 gives; the
loss of VAON loses staging and may tear the entry being written. Leaving a test instruction selects IDCODE: the model's choice (log 9). -/
def Obligations.StartUpAndPowerLoss : Prop := Sys2Proof.Rules.StartUpFollows ∧ Sys2Proof.Rules.VaonLossTearsTheEntry

/-- RALERT, RALERT_RELEASE, RPGOOD_CHANGE, VNV_WARNING, VNV_RECOVER, SUPPLY_WARNING, VIO_RECOVER and HUSH_END. What each supply event sets; a failing
alert word raises REGLINK; the end of a hush is counted in BROWN and journaled. -/
def Obligations.SuppliesAreWatched : Prop := Sys2Proof.Rules.SupplyPinsAreLatched ∧ Sys2Proof.Rules.HushEndIsJournaled

/-- CLOCK_STOPPED, TARGET_TIMEOUT, VIO_LOW and ISOLATE_GO. The port is dead with its cause, its request in progress is answered ISOLATED (TIMEOUT for a
stopped clock), the fault is raised; ISOLATE is journaled with its origin first. -/
def Obligations.PortsAreDeclaredDead : Prop := Sys2Proof.Rules.DyingPorts ∧ Sys2Proof.Rules.IsolateKillsThePort

/-- DOMCMD_WRITE, WAKE_HOLD_EXPIRY, WAKE_HOLDOFF_EXPIRY and PORT_QUIET_EXPIRY. The field is set, or the timer ends, and then R253 decides whether the
domain wakes or is hemmed. -/
def Obligations.DomainsAreCommanded : Prop := Sys2Proof.Rules.DomainTimersExpire ∧ Sys2Proof.Rules.DomcmdIsWritten

/-- VOTE_WRITE, HOST_VOTE, VOTE_PACE_EXPIRY and WAKE_REQUEST. A vote is cast or withdrawn for its voter and journaled, and its interval starts; a wake
request holds or commands the domain it names, or is only journaled, by the state of the domain. -/
def Obligations.VotesAndWakeRequests : Prop :=
  Sys2Proof.Rules.VotesAreCast ∧
  Sys2Proof.Rules.VotePaceEnds ∧
  Sys2Proof.Rules.WakeRequestWakes

/-- HEM_DRAIN_DONE and DRAINTO_EXPIRY. The domain is OFF and journaled; a forced drain completes what was held, raises DRAIN and starts the hold-off. -/
def Obligations.HemmingEndsInOff : Prop := Sys2Proof.Rules.HemmingEnds

/-- PSTATE_WRITE. CODE is set and journaled; a code from 2 to 5 starts its change unless one is in progress or the chip hushes; 0 and 1 begin the move to
DEEP or TACKING when every domain that must be off is. -/
def Obligations.PowerStateIsWritten : Prop := Sys2Proof.Rules.PstateIsWritten

/-- REGULATOR_POLL and REGTO_EXPIRY. A status word that meets the three conditions acknowledges; the first REGTO repeats the request, the second abandons
it with its fault. -/
def Obligations.VoltageRequests : Prop := Sys2Proof.Rules.VoltageRequestIsPolled ∧ Sys2Proof.Rules.VoltageRequestTimesOut

/-- RUNG_READY and RUNG_RETRY. Each rung lets the next start; a port domain comes ON with its NI fresh but for what is kept (log 16), MESH with every
router as at reset. -/
def Obligations.LaddersAreClimbed : Prop :=
  Sys2Proof.Rules.RungsAreClimbed ∧
  Sys2Proof.Rules.PortReachesOn ∧
  Sys2Proof.Rules.MeshComesUpFresh

/-- RUNG_TIMEOUT and PLL_LOSS. A late rung rests or is tried again, and at last is the domain's fault; a late oscillator rung, or a lost lock, is LIMP
with CUR 6 and LVL kept. -/
def Obligations.LateRungsAndLostLock : Prop := Sys2Proof.Rules.RungFailures ∧ Sys2Proof.Rules.LostLockIsLimp

/-- RTCSEC1_WRITE, RTCSECS_WRITE, ALARM1_WRITE, ALARMSECS_WRITE and ALARM_DISARM. The RTC or the alarm takes its seconds, journaled; setting the RTC makes
an anchor; an alarm at or before the RTC fires. That it is applied at once and what VALUE holds are readings (log 24). -/
def Obligations.ClockAndAlarmAreSet : Prop := Sys2Proof.Rules.RtcIsSet ∧ Sys2Proof.Rules.AlarmIsSet ∧ Sys2Proof.Rules.AlarmIsDisarmed

/-- RTC_STEP and RTC_STOP_DETECT. A step advances the fraction, 1,024 to the second, with an anchor each hour; a stopped RTC sets RTCSTOP and raises its
fault. -/
def Obligations.RtcStepsOrStops : Prop := Sys2Proof.Rules.RtcSteps ∧ Sys2Proof.Rules.StoppedRtcIsAFault

/-- PATROL_DUE and TACK_READ_DONE. A due patrol starts the ladder; what a step read is compared under its OP, kept for its entry on a match, flagged on an
error. -/
def Obligations.PatrolsReadAndTest : Prop := Sys2Proof.Rules.PatrolStarts ∧ Sys2Proof.Rules.PatrolReadIsTested

/-- JOURNAL_ARRAY_WRITE. The oldest staged entry is written at the head; after a failed read-back it is written again at the next index and VFAIL
advances. The wrap advances PASSES, and the header store follows every 4,096 entries. What a failed index holds is a free value (log 10). -/
def Obligations.JournalEntriesAreWritten : Prop := Sys2Proof.Rules.StagedEntryIsWritten

/-- LOCK_READ and LOCK_RELEASE, and what others are refused. What a lock read returns, when it takes the lock, and what the release does; a LOCK write of
another value is answered DECERR, a release by anyone but the holder is refused with RIGHTS. So are the owner's words to others, and in LOCKED mode
TXSTART and TXDATA to all but the holder. -/
def Obligations.LocksAreTakenAndReleased : Prop := Sys2Proof.Rules.LockIsReadAndReleased ∧ Sys2Proof.Rules.OthersAreRefused

/-- TXSTART, TXDATA, DOORBELL_WRITE, BOB_STAT_WRITE, DBCLR, RXDONE and FLUSH. The sender's side and the owner's side of a bobbin: what each write does to
it and how it is answered. -/
def Obligations.MessagesPassThroughBobbins : Prop := Sys2Proof.Rules.MessagesAreSent ∧ Sys2Proof.Rules.OwnerServesItsBobbin

/-- HOST_BOB_FLUSH, HOST_BOB_DONE, HOST_DOORBELL and BCFG_WRITE. The host serves the bobbin BOBSEL names; a BCFG write that changes OWNER or MODE, or
clears ENABLE, flushes it. -/
def Obligations.BobbinsAreConfiguredAndServed : Prop := Sys2Proof.Rules.HostServesBobbins ∧ Sys2Proof.Rules.BcfgIsWritten

/-- BASTE_WRITE, ABANDON and STITCH. A basting write changes the set only; ABANDON empties it; STITCH makes every word of it live at once, journals each
changed word, and empties it. The STITCH clause is for a set with no word that the master must apply first. -/
def Obligations.SetsAreBastedAndStitched : Prop :=
  Sys2Proof.Rules.WordsAreBasted ∧
  Sys2Proof.Rules.AbandonEmptiesTheSet ∧
  Sys2Proof.Rules.StitchAppliesTheSet

/-- HOST_FENCE, RING_MANAGEMENT_RESEND, PORTRST_NOTICE and RING_RESET_NOTICE. One FENCE for each write of index 0x10; an unanswered notice is sent again;
a port-reset notice releases the locks of that port; a ring-reset notice marks BUSY. -/
def Obligations.SysSendsFencesAndNotices : Prop :=
  Sys2Proof.Rules.FenceIsSent ∧
  Sys2Proof.Rules.NoticesAreSentAgain ∧
  Sys2Proof.Rules.PortResetNoticeIsTaken ∧
  Sys2Proof.Rules.RingResetNoticeStarts

/-- CLIENT_CLAIM, DIRECTORY_WRITE, DIRECTORY_COPY and AUTHORITY_COPY. How the directory is decided here, by the master and by the host, and how a chip
takes the copies of the master. The form of these messages is the model's (log 12). -/
def Obligations.ClientsAreDecided : Prop :=
  Sys2Proof.Rules.ClaimsAreDecided ∧
  Sys2Proof.Rules.MasterDecidesClaims ∧
  Sys2Proof.Rules.HostPinsClients ∧
  Sys2Proof.Rules.CopiesOfTheMasterAreTaken

/-- RESET_CHIP, RESET_RING, RESET_SYS and RESET_PORT. The write is journaled first; then the scope of its own origin starts: what returns to reset values
and what is kept. -/
def Obligations.ResetsOfEachScope : Prop := Sys2Proof.Rules.ChipAndRingResets ∧ Sys2Proof.Rules.SysReset ∧ Sys2Proof.Rules.PortReset

/-- A step is exec of the command at the front of the queue. For every command c and state s: step of s with c at the front is exec of c on s with the
queue's rest. -/
def Obligations.StepRunsTheFrontCommand : Prop := Sys2Proof.Rules.StepRunsFrontCommand

/-- A step with an empty queue is one tick. The model's choice (log 7): with no command waiting, the timestamp advances while it runs, with the frame and
window counts, and nothing else changes. -/
def Obligations.EmptyQueueIsATick : Prop := Sys2Proof.Rules.EmptyQueueTicks

/-- The invariant holds at reset. State.reset meets the invariant of Safety.lean. -/
def Obligations.TheInvariantHoldsAtReset : Prop := Sys2Proof.Rules.InvariantAtReset

/-- Every step keeps the invariant. From every state that meets the invariant of Safety.lean, each step that answers a next state leads to one that meets
it: tables in canonical form; host selectors without a reserved code; MESH, SEAM, SYS and NV COMMANDED, without votes, the core domains commanded ON;
the TAP holding the chip exactly while EXTEST, HIGHZ or CLAMP is its instruction. -/
def Obligations.EveryStepKeepsTheInvariant : Prop := Sys2Proof.Rules.StepKeepsInvariant

/-- No command changes the queue of waiting commands. For every command and every state that meets the invariant, a next state has the same queue. -/
def Obligations.CommandsLeaveTheQueue : Prop := Sys2Proof.Rules.ExecLeavesQueue

/-- Every well-formed command answers with a next state. No command stops on any state but for an operand that its row cannot have, and that stop says
which row (log 1: operands are the model's). -/
def Obligations.EveryWellFormedCommandAnswers : Prop := Sys2Proof.Rules.WellFormedCommandsAnswer
end

