-- ==== Sys2Proof/Laws/State.lean ====
section
/-!
SUPPORT. One lemma per field per update of the state: what an update does not touch reads as before, what it sets reads as set.
-/
namespace Sys2Proof.Machine

variable (s : State)

/-! ## Setting one field leaves the others -/

@[simp] theorem setPower_pending (x : Power) : ({ s with power := x } : State).pending = s.pending := rfl
@[simp] theorem setPower_freeCount (x : Power) : ({ s with power := x } : State).freeCount = s.freeCount := rfl
@[simp] theorem setPower_chipnum (x : Power) : ({ s with power := x } : State).chipnum = s.chipnum := rfl
@[simp] theorem setPower_doms (x : Power) : ({ s with power := x } : State).doms = s.doms := rfl
@[simp] theorem setPower_ports (x : Power) : ({ s with power := x } : State).ports = s.ports := rfl
@[simp] theorem setPower_cfg (x : Power) : ({ s with power := x } : State).cfg = s.cfg := rfl
@[simp] theorem setPower_mesh (x : Power) : ({ s with power := x } : State).mesh = s.mesh := rfl
@[simp] theorem setPower_ring (x : Power) : ({ s with power := x } : State).ring = s.ring := rfl
@[simp] theorem setPower_sys (x : Power) : ({ s with power := x } : State).sys = s.sys := rfl
@[simp] theorem setPower_bobs (x : Power) : ({ s with power := x } : State).bobs = s.bobs := rfl
@[simp] theorem setPower_host (x : Power) : ({ s with power := x } : State).host = s.host := rfl
@[simp] theorem setPower_time (x : Power) : ({ s with power := x } : State).time = s.time := rfl
@[simp] theorem setPower_jrn (x : Power) : ({ s with power := x } : State).jrn = s.jrn := rfl
@[simp] theorem setPower_faults (x : Power) : ({ s with power := x } : State).faults = s.faults := rfl
@[simp] theorem setPower_cnt (x : Power) : ({ s with power := x } : State).cnt = s.cnt := rfl
@[simp] theorem setPower_tap (x : Power) : ({ s with power := x } : State).tap = s.tap := rfl

@[simp] theorem setDoms_pending (x : Table Dom) : ({ s with doms := x } : State).pending = s.pending := rfl
@[simp] theorem setDoms_freeCount (x : Table Dom) : ({ s with doms := x } : State).freeCount = s.freeCount := rfl
@[simp] theorem setDoms_chipnum (x : Table Dom) : ({ s with doms := x } : State).chipnum = s.chipnum := rfl
@[simp] theorem setDoms_power (x : Table Dom) : ({ s with doms := x } : State).power = s.power := rfl
@[simp] theorem setDoms_ports (x : Table Dom) : ({ s with doms := x } : State).ports = s.ports := rfl
@[simp] theorem setDoms_cfg (x : Table Dom) : ({ s with doms := x } : State).cfg = s.cfg := rfl
@[simp] theorem setDoms_mesh (x : Table Dom) : ({ s with doms := x } : State).mesh = s.mesh := rfl
@[simp] theorem setDoms_ring (x : Table Dom) : ({ s with doms := x } : State).ring = s.ring := rfl
@[simp] theorem setDoms_sys (x : Table Dom) : ({ s with doms := x } : State).sys = s.sys := rfl
@[simp] theorem setDoms_bobs (x : Table Dom) : ({ s with doms := x } : State).bobs = s.bobs := rfl
@[simp] theorem setDoms_host (x : Table Dom) : ({ s with doms := x } : State).host = s.host := rfl
@[simp] theorem setDoms_time (x : Table Dom) : ({ s with doms := x } : State).time = s.time := rfl
@[simp] theorem setDoms_jrn (x : Table Dom) : ({ s with doms := x } : State).jrn = s.jrn := rfl
@[simp] theorem setDoms_faults (x : Table Dom) : ({ s with doms := x } : State).faults = s.faults := rfl
@[simp] theorem setDoms_cnt (x : Table Dom) : ({ s with doms := x } : State).cnt = s.cnt := rfl
@[simp] theorem setDoms_tap (x : Table Dom) : ({ s with doms := x } : State).tap = s.tap := rfl

@[simp] theorem setPorts_pending (x : Table PortSt) : ({ s with ports := x } : State).pending = s.pending := rfl
@[simp] theorem setPorts_freeCount (x : Table PortSt) : ({ s with ports := x } : State).freeCount = s.freeCount := rfl
@[simp] theorem setPorts_chipnum (x : Table PortSt) : ({ s with ports := x } : State).chipnum = s.chipnum := rfl
@[simp] theorem setPorts_power (x : Table PortSt) : ({ s with ports := x } : State).power = s.power := rfl
@[simp] theorem setPorts_doms (x : Table PortSt) : ({ s with ports := x } : State).doms = s.doms := rfl
@[simp] theorem setPorts_cfg (x : Table PortSt) : ({ s with ports := x } : State).cfg = s.cfg := rfl
@[simp] theorem setPorts_mesh (x : Table PortSt) : ({ s with ports := x } : State).mesh = s.mesh := rfl
@[simp] theorem setPorts_ring (x : Table PortSt) : ({ s with ports := x } : State).ring = s.ring := rfl
@[simp] theorem setPorts_sys (x : Table PortSt) : ({ s with ports := x } : State).sys = s.sys := rfl
@[simp] theorem setPorts_bobs (x : Table PortSt) : ({ s with ports := x } : State).bobs = s.bobs := rfl
@[simp] theorem setPorts_host (x : Table PortSt) : ({ s with ports := x } : State).host = s.host := rfl
@[simp] theorem setPorts_time (x : Table PortSt) : ({ s with ports := x } : State).time = s.time := rfl
@[simp] theorem setPorts_jrn (x : Table PortSt) : ({ s with ports := x } : State).jrn = s.jrn := rfl
@[simp] theorem setPorts_faults (x : Table PortSt) : ({ s with ports := x } : State).faults = s.faults := rfl
@[simp] theorem setPorts_cnt (x : Table PortSt) : ({ s with ports := x } : State).cnt = s.cnt := rfl
@[simp] theorem setPorts_tap (x : Table PortSt) : ({ s with ports := x } : State).tap = s.tap := rfl

@[simp] theorem setCfg_pending (x : Table Word) : ({ s with cfg := x } : State).pending = s.pending := rfl
@[simp] theorem setCfg_freeCount (x : Table Word) : ({ s with cfg := x } : State).freeCount = s.freeCount := rfl
@[simp] theorem setCfg_chipnum (x : Table Word) : ({ s with cfg := x } : State).chipnum = s.chipnum := rfl
@[simp] theorem setCfg_power (x : Table Word) : ({ s with cfg := x } : State).power = s.power := rfl
@[simp] theorem setCfg_doms (x : Table Word) : ({ s with cfg := x } : State).doms = s.doms := rfl
@[simp] theorem setCfg_ports (x : Table Word) : ({ s with cfg := x } : State).ports = s.ports := rfl
@[simp] theorem setCfg_mesh (x : Table Word) : ({ s with cfg := x } : State).mesh = s.mesh := rfl
@[simp] theorem setCfg_ring (x : Table Word) : ({ s with cfg := x } : State).ring = s.ring := rfl
@[simp] theorem setCfg_sys (x : Table Word) : ({ s with cfg := x } : State).sys = s.sys := rfl
@[simp] theorem setCfg_bobs (x : Table Word) : ({ s with cfg := x } : State).bobs = s.bobs := rfl
@[simp] theorem setCfg_host (x : Table Word) : ({ s with cfg := x } : State).host = s.host := rfl
@[simp] theorem setCfg_time (x : Table Word) : ({ s with cfg := x } : State).time = s.time := rfl
@[simp] theorem setCfg_jrn (x : Table Word) : ({ s with cfg := x } : State).jrn = s.jrn := rfl
@[simp] theorem setCfg_faults (x : Table Word) : ({ s with cfg := x } : State).faults = s.faults := rfl
@[simp] theorem setCfg_cnt (x : Table Word) : ({ s with cfg := x } : State).cnt = s.cnt := rfl
@[simp] theorem setCfg_tap (x : Table Word) : ({ s with cfg := x } : State).tap = s.tap := rfl

@[simp] theorem setMesh_pending (x : Mesh) : ({ s with mesh := x } : State).pending = s.pending := rfl
@[simp] theorem setMesh_freeCount (x : Mesh) : ({ s with mesh := x } : State).freeCount = s.freeCount := rfl
@[simp] theorem setMesh_chipnum (x : Mesh) : ({ s with mesh := x } : State).chipnum = s.chipnum := rfl
@[simp] theorem setMesh_power (x : Mesh) : ({ s with mesh := x } : State).power = s.power := rfl
@[simp] theorem setMesh_doms (x : Mesh) : ({ s with mesh := x } : State).doms = s.doms := rfl
@[simp] theorem setMesh_ports (x : Mesh) : ({ s with mesh := x } : State).ports = s.ports := rfl
@[simp] theorem setMesh_cfg (x : Mesh) : ({ s with mesh := x } : State).cfg = s.cfg := rfl
@[simp] theorem setMesh_ring (x : Mesh) : ({ s with mesh := x } : State).ring = s.ring := rfl
@[simp] theorem setMesh_sys (x : Mesh) : ({ s with mesh := x } : State).sys = s.sys := rfl
@[simp] theorem setMesh_bobs (x : Mesh) : ({ s with mesh := x } : State).bobs = s.bobs := rfl
@[simp] theorem setMesh_host (x : Mesh) : ({ s with mesh := x } : State).host = s.host := rfl
@[simp] theorem setMesh_time (x : Mesh) : ({ s with mesh := x } : State).time = s.time := rfl
@[simp] theorem setMesh_jrn (x : Mesh) : ({ s with mesh := x } : State).jrn = s.jrn := rfl
@[simp] theorem setMesh_faults (x : Mesh) : ({ s with mesh := x } : State).faults = s.faults := rfl
@[simp] theorem setMesh_cnt (x : Mesh) : ({ s with mesh := x } : State).cnt = s.cnt := rfl
@[simp] theorem setMesh_tap (x : Mesh) : ({ s with mesh := x } : State).tap = s.tap := rfl

@[simp] theorem setRing_pending (x : RingSt) : ({ s with ring := x } : State).pending = s.pending := rfl
@[simp] theorem setRing_freeCount (x : RingSt) : ({ s with ring := x } : State).freeCount = s.freeCount := rfl
@[simp] theorem setRing_chipnum (x : RingSt) : ({ s with ring := x } : State).chipnum = s.chipnum := rfl
@[simp] theorem setRing_power (x : RingSt) : ({ s with ring := x } : State).power = s.power := rfl
@[simp] theorem setRing_doms (x : RingSt) : ({ s with ring := x } : State).doms = s.doms := rfl
@[simp] theorem setRing_ports (x : RingSt) : ({ s with ring := x } : State).ports = s.ports := rfl
@[simp] theorem setRing_cfg (x : RingSt) : ({ s with ring := x } : State).cfg = s.cfg := rfl
@[simp] theorem setRing_mesh (x : RingSt) : ({ s with ring := x } : State).mesh = s.mesh := rfl
@[simp] theorem setRing_sys (x : RingSt) : ({ s with ring := x } : State).sys = s.sys := rfl
@[simp] theorem setRing_bobs (x : RingSt) : ({ s with ring := x } : State).bobs = s.bobs := rfl
@[simp] theorem setRing_host (x : RingSt) : ({ s with ring := x } : State).host = s.host := rfl
@[simp] theorem setRing_time (x : RingSt) : ({ s with ring := x } : State).time = s.time := rfl
@[simp] theorem setRing_jrn (x : RingSt) : ({ s with ring := x } : State).jrn = s.jrn := rfl
@[simp] theorem setRing_faults (x : RingSt) : ({ s with ring := x } : State).faults = s.faults := rfl
@[simp] theorem setRing_cnt (x : RingSt) : ({ s with ring := x } : State).cnt = s.cnt := rfl
@[simp] theorem setRing_tap (x : RingSt) : ({ s with ring := x } : State).tap = s.tap := rfl

@[simp] theorem setSys_pending (x : Sys) : ({ s with sys := x } : State).pending = s.pending := rfl
@[simp] theorem setSys_freeCount (x : Sys) : ({ s with sys := x } : State).freeCount = s.freeCount := rfl
@[simp] theorem setSys_chipnum (x : Sys) : ({ s with sys := x } : State).chipnum = s.chipnum := rfl
@[simp] theorem setSys_power (x : Sys) : ({ s with sys := x } : State).power = s.power := rfl
@[simp] theorem setSys_doms (x : Sys) : ({ s with sys := x } : State).doms = s.doms := rfl
@[simp] theorem setSys_ports (x : Sys) : ({ s with sys := x } : State).ports = s.ports := rfl
@[simp] theorem setSys_cfg (x : Sys) : ({ s with sys := x } : State).cfg = s.cfg := rfl
@[simp] theorem setSys_mesh (x : Sys) : ({ s with sys := x } : State).mesh = s.mesh := rfl
@[simp] theorem setSys_ring (x : Sys) : ({ s with sys := x } : State).ring = s.ring := rfl
@[simp] theorem setSys_bobs (x : Sys) : ({ s with sys := x } : State).bobs = s.bobs := rfl
@[simp] theorem setSys_host (x : Sys) : ({ s with sys := x } : State).host = s.host := rfl
@[simp] theorem setSys_time (x : Sys) : ({ s with sys := x } : State).time = s.time := rfl
@[simp] theorem setSys_jrn (x : Sys) : ({ s with sys := x } : State).jrn = s.jrn := rfl
@[simp] theorem setSys_faults (x : Sys) : ({ s with sys := x } : State).faults = s.faults := rfl
@[simp] theorem setSys_cnt (x : Sys) : ({ s with sys := x } : State).cnt = s.cnt := rfl
@[simp] theorem setSys_tap (x : Sys) : ({ s with sys := x } : State).tap = s.tap := rfl

@[simp] theorem setBobs_pending (x : Table Bobbin) : ({ s with bobs := x } : State).pending = s.pending := rfl
@[simp] theorem setBobs_freeCount (x : Table Bobbin) : ({ s with bobs := x } : State).freeCount = s.freeCount := rfl
@[simp] theorem setBobs_chipnum (x : Table Bobbin) : ({ s with bobs := x } : State).chipnum = s.chipnum := rfl
@[simp] theorem setBobs_power (x : Table Bobbin) : ({ s with bobs := x } : State).power = s.power := rfl
@[simp] theorem setBobs_doms (x : Table Bobbin) : ({ s with bobs := x } : State).doms = s.doms := rfl
@[simp] theorem setBobs_ports (x : Table Bobbin) : ({ s with bobs := x } : State).ports = s.ports := rfl
@[simp] theorem setBobs_cfg (x : Table Bobbin) : ({ s with bobs := x } : State).cfg = s.cfg := rfl
@[simp] theorem setBobs_mesh (x : Table Bobbin) : ({ s with bobs := x } : State).mesh = s.mesh := rfl
@[simp] theorem setBobs_ring (x : Table Bobbin) : ({ s with bobs := x } : State).ring = s.ring := rfl
@[simp] theorem setBobs_sys (x : Table Bobbin) : ({ s with bobs := x } : State).sys = s.sys := rfl
@[simp] theorem setBobs_host (x : Table Bobbin) : ({ s with bobs := x } : State).host = s.host := rfl
@[simp] theorem setBobs_time (x : Table Bobbin) : ({ s with bobs := x } : State).time = s.time := rfl
@[simp] theorem setBobs_jrn (x : Table Bobbin) : ({ s with bobs := x } : State).jrn = s.jrn := rfl
@[simp] theorem setBobs_faults (x : Table Bobbin) : ({ s with bobs := x } : State).faults = s.faults := rfl
@[simp] theorem setBobs_cnt (x : Table Bobbin) : ({ s with bobs := x } : State).cnt = s.cnt := rfl
@[simp] theorem setBobs_tap (x : Table Bobbin) : ({ s with bobs := x } : State).tap = s.tap := rfl

@[simp] theorem setHost_pending (x : HostIf) : ({ s with host := x } : State).pending = s.pending := rfl
@[simp] theorem setHost_freeCount (x : HostIf) : ({ s with host := x } : State).freeCount = s.freeCount := rfl
@[simp] theorem setHost_chipnum (x : HostIf) : ({ s with host := x } : State).chipnum = s.chipnum := rfl
@[simp] theorem setHost_power (x : HostIf) : ({ s with host := x } : State).power = s.power := rfl
@[simp] theorem setHost_doms (x : HostIf) : ({ s with host := x } : State).doms = s.doms := rfl
@[simp] theorem setHost_ports (x : HostIf) : ({ s with host := x } : State).ports = s.ports := rfl
@[simp] theorem setHost_cfg (x : HostIf) : ({ s with host := x } : State).cfg = s.cfg := rfl
@[simp] theorem setHost_mesh (x : HostIf) : ({ s with host := x } : State).mesh = s.mesh := rfl
@[simp] theorem setHost_ring (x : HostIf) : ({ s with host := x } : State).ring = s.ring := rfl
@[simp] theorem setHost_sys (x : HostIf) : ({ s with host := x } : State).sys = s.sys := rfl
@[simp] theorem setHost_bobs (x : HostIf) : ({ s with host := x } : State).bobs = s.bobs := rfl
@[simp] theorem setHost_time (x : HostIf) : ({ s with host := x } : State).time = s.time := rfl
@[simp] theorem setHost_jrn (x : HostIf) : ({ s with host := x } : State).jrn = s.jrn := rfl
@[simp] theorem setHost_faults (x : HostIf) : ({ s with host := x } : State).faults = s.faults := rfl
@[simp] theorem setHost_cnt (x : HostIf) : ({ s with host := x } : State).cnt = s.cnt := rfl
@[simp] theorem setHost_tap (x : HostIf) : ({ s with host := x } : State).tap = s.tap := rfl

@[simp] theorem setTime_pending (x : Time) : ({ s with time := x } : State).pending = s.pending := rfl
@[simp] theorem setTime_freeCount (x : Time) : ({ s with time := x } : State).freeCount = s.freeCount := rfl
@[simp] theorem setTime_chipnum (x : Time) : ({ s with time := x } : State).chipnum = s.chipnum := rfl
@[simp] theorem setTime_power (x : Time) : ({ s with time := x } : State).power = s.power := rfl
@[simp] theorem setTime_doms (x : Time) : ({ s with time := x } : State).doms = s.doms := rfl
@[simp] theorem setTime_ports (x : Time) : ({ s with time := x } : State).ports = s.ports := rfl
@[simp] theorem setTime_cfg (x : Time) : ({ s with time := x } : State).cfg = s.cfg := rfl
@[simp] theorem setTime_mesh (x : Time) : ({ s with time := x } : State).mesh = s.mesh := rfl
@[simp] theorem setTime_ring (x : Time) : ({ s with time := x } : State).ring = s.ring := rfl
@[simp] theorem setTime_sys (x : Time) : ({ s with time := x } : State).sys = s.sys := rfl
@[simp] theorem setTime_bobs (x : Time) : ({ s with time := x } : State).bobs = s.bobs := rfl
@[simp] theorem setTime_host (x : Time) : ({ s with time := x } : State).host = s.host := rfl
@[simp] theorem setTime_jrn (x : Time) : ({ s with time := x } : State).jrn = s.jrn := rfl
@[simp] theorem setTime_faults (x : Time) : ({ s with time := x } : State).faults = s.faults := rfl
@[simp] theorem setTime_cnt (x : Time) : ({ s with time := x } : State).cnt = s.cnt := rfl
@[simp] theorem setTime_tap (x : Time) : ({ s with time := x } : State).tap = s.tap := rfl

@[simp] theorem setJrn_pending (x : Journal) : ({ s with jrn := x } : State).pending = s.pending := rfl
@[simp] theorem setJrn_freeCount (x : Journal) : ({ s with jrn := x } : State).freeCount = s.freeCount := rfl
@[simp] theorem setJrn_chipnum (x : Journal) : ({ s with jrn := x } : State).chipnum = s.chipnum := rfl
@[simp] theorem setJrn_power (x : Journal) : ({ s with jrn := x } : State).power = s.power := rfl
@[simp] theorem setJrn_doms (x : Journal) : ({ s with jrn := x } : State).doms = s.doms := rfl
@[simp] theorem setJrn_ports (x : Journal) : ({ s with jrn := x } : State).ports = s.ports := rfl
@[simp] theorem setJrn_cfg (x : Journal) : ({ s with jrn := x } : State).cfg = s.cfg := rfl
@[simp] theorem setJrn_mesh (x : Journal) : ({ s with jrn := x } : State).mesh = s.mesh := rfl
@[simp] theorem setJrn_ring (x : Journal) : ({ s with jrn := x } : State).ring = s.ring := rfl
@[simp] theorem setJrn_sys (x : Journal) : ({ s with jrn := x } : State).sys = s.sys := rfl
@[simp] theorem setJrn_bobs (x : Journal) : ({ s with jrn := x } : State).bobs = s.bobs := rfl
@[simp] theorem setJrn_host (x : Journal) : ({ s with jrn := x } : State).host = s.host := rfl
@[simp] theorem setJrn_time (x : Journal) : ({ s with jrn := x } : State).time = s.time := rfl
@[simp] theorem setJrn_faults (x : Journal) : ({ s with jrn := x } : State).faults = s.faults := rfl
@[simp] theorem setJrn_cnt (x : Journal) : ({ s with jrn := x } : State).cnt = s.cnt := rfl
@[simp] theorem setJrn_tap (x : Journal) : ({ s with jrn := x } : State).tap = s.tap := rfl

@[simp] theorem setFaults_pending (x : Table FaultRec) : ({ s with faults := x } : State).pending = s.pending := rfl
@[simp] theorem setFaults_freeCount (x : Table FaultRec) : ({ s with faults := x } : State).freeCount = s.freeCount := rfl
@[simp] theorem setFaults_chipnum (x : Table FaultRec) : ({ s with faults := x } : State).chipnum = s.chipnum := rfl
@[simp] theorem setFaults_power (x : Table FaultRec) : ({ s with faults := x } : State).power = s.power := rfl
@[simp] theorem setFaults_doms (x : Table FaultRec) : ({ s with faults := x } : State).doms = s.doms := rfl
@[simp] theorem setFaults_ports (x : Table FaultRec) : ({ s with faults := x } : State).ports = s.ports := rfl
@[simp] theorem setFaults_cfg (x : Table FaultRec) : ({ s with faults := x } : State).cfg = s.cfg := rfl
@[simp] theorem setFaults_mesh (x : Table FaultRec) : ({ s with faults := x } : State).mesh = s.mesh := rfl
@[simp] theorem setFaults_ring (x : Table FaultRec) : ({ s with faults := x } : State).ring = s.ring := rfl
@[simp] theorem setFaults_sys (x : Table FaultRec) : ({ s with faults := x } : State).sys = s.sys := rfl
@[simp] theorem setFaults_bobs (x : Table FaultRec) : ({ s with faults := x } : State).bobs = s.bobs := rfl
@[simp] theorem setFaults_host (x : Table FaultRec) : ({ s with faults := x } : State).host = s.host := rfl
@[simp] theorem setFaults_time (x : Table FaultRec) : ({ s with faults := x } : State).time = s.time := rfl
@[simp] theorem setFaults_jrn (x : Table FaultRec) : ({ s with faults := x } : State).jrn = s.jrn := rfl
@[simp] theorem setFaults_cnt (x : Table FaultRec) : ({ s with faults := x } : State).cnt = s.cnt := rfl
@[simp] theorem setFaults_tap (x : Table FaultRec) : ({ s with faults := x } : State).tap = s.tap := rfl

@[simp] theorem setCnt_pending (x : Counters) : ({ s with cnt := x } : State).pending = s.pending := rfl
@[simp] theorem setCnt_freeCount (x : Counters) : ({ s with cnt := x } : State).freeCount = s.freeCount := rfl
@[simp] theorem setCnt_chipnum (x : Counters) : ({ s with cnt := x } : State).chipnum = s.chipnum := rfl
@[simp] theorem setCnt_power (x : Counters) : ({ s with cnt := x } : State).power = s.power := rfl
@[simp] theorem setCnt_doms (x : Counters) : ({ s with cnt := x } : State).doms = s.doms := rfl
@[simp] theorem setCnt_ports (x : Counters) : ({ s with cnt := x } : State).ports = s.ports := rfl
@[simp] theorem setCnt_cfg (x : Counters) : ({ s with cnt := x } : State).cfg = s.cfg := rfl
@[simp] theorem setCnt_mesh (x : Counters) : ({ s with cnt := x } : State).mesh = s.mesh := rfl
@[simp] theorem setCnt_ring (x : Counters) : ({ s with cnt := x } : State).ring = s.ring := rfl
@[simp] theorem setCnt_sys (x : Counters) : ({ s with cnt := x } : State).sys = s.sys := rfl
@[simp] theorem setCnt_bobs (x : Counters) : ({ s with cnt := x } : State).bobs = s.bobs := rfl
@[simp] theorem setCnt_host (x : Counters) : ({ s with cnt := x } : State).host = s.host := rfl
@[simp] theorem setCnt_time (x : Counters) : ({ s with cnt := x } : State).time = s.time := rfl
@[simp] theorem setCnt_jrn (x : Counters) : ({ s with cnt := x } : State).jrn = s.jrn := rfl
@[simp] theorem setCnt_faults (x : Counters) : ({ s with cnt := x } : State).faults = s.faults := rfl
@[simp] theorem setCnt_tap (x : Counters) : ({ s with cnt := x } : State).tap = s.tap := rfl

@[simp] theorem setTap_pending (x : Tap) : ({ s with tap := x } : State).pending = s.pending := rfl
@[simp] theorem setTap_freeCount (x : Tap) : ({ s with tap := x } : State).freeCount = s.freeCount := rfl
@[simp] theorem setTap_chipnum (x : Tap) : ({ s with tap := x } : State).chipnum = s.chipnum := rfl
@[simp] theorem setTap_power (x : Tap) : ({ s with tap := x } : State).power = s.power := rfl
@[simp] theorem setTap_doms (x : Tap) : ({ s with tap := x } : State).doms = s.doms := rfl
@[simp] theorem setTap_ports (x : Tap) : ({ s with tap := x } : State).ports = s.ports := rfl
@[simp] theorem setTap_cfg (x : Tap) : ({ s with tap := x } : State).cfg = s.cfg := rfl
@[simp] theorem setTap_mesh (x : Tap) : ({ s with tap := x } : State).mesh = s.mesh := rfl
@[simp] theorem setTap_ring (x : Tap) : ({ s with tap := x } : State).ring = s.ring := rfl
@[simp] theorem setTap_sys (x : Tap) : ({ s with tap := x } : State).sys = s.sys := rfl
@[simp] theorem setTap_bobs (x : Tap) : ({ s with tap := x } : State).bobs = s.bobs := rfl
@[simp] theorem setTap_host (x : Tap) : ({ s with tap := x } : State).host = s.host := rfl
@[simp] theorem setTap_time (x : Tap) : ({ s with tap := x } : State).time = s.time := rfl
@[simp] theorem setTap_jrn (x : Tap) : ({ s with tap := x } : State).jrn = s.jrn := rfl
@[simp] theorem setTap_faults (x : Tap) : ({ s with tap := x } : State).faults = s.faults := rfl
@[simp] theorem setTap_cnt (x : Tap) : ({ s with tap := x } : State).cnt = s.cnt := rfl

/-! ## The named updates -/

@[simp] theorem cfgSet_pending (b i : Nat) (v : Word) : (cfgSet s b i v).pending = s.pending := setCfg_pending s _
@[simp] theorem cfgSet_freeCount (b i : Nat) (v : Word) : (cfgSet s b i v).freeCount = s.freeCount := setCfg_freeCount s _
@[simp] theorem cfgSet_chipnum (b i : Nat) (v : Word) : (cfgSet s b i v).chipnum = s.chipnum := setCfg_chipnum s _
@[simp] theorem cfgSet_power (b i : Nat) (v : Word) : (cfgSet s b i v).power = s.power := setCfg_power s _
@[simp] theorem cfgSet_doms (b i : Nat) (v : Word) : (cfgSet s b i v).doms = s.doms := setCfg_doms s _
@[simp] theorem cfgSet_ports (b i : Nat) (v : Word) : (cfgSet s b i v).ports = s.ports := setCfg_ports s _
@[simp] theorem cfgSet_mesh (b i : Nat) (v : Word) : (cfgSet s b i v).mesh = s.mesh := setCfg_mesh s _
@[simp] theorem cfgSet_ring (b i : Nat) (v : Word) : (cfgSet s b i v).ring = s.ring := setCfg_ring s _
@[simp] theorem cfgSet_sys (b i : Nat) (v : Word) : (cfgSet s b i v).sys = s.sys := setCfg_sys s _
@[simp] theorem cfgSet_bobs (b i : Nat) (v : Word) : (cfgSet s b i v).bobs = s.bobs := setCfg_bobs s _
@[simp] theorem cfgSet_host (b i : Nat) (v : Word) : (cfgSet s b i v).host = s.host := setCfg_host s _
@[simp] theorem cfgSet_time (b i : Nat) (v : Word) : (cfgSet s b i v).time = s.time := setCfg_time s _
@[simp] theorem cfgSet_jrn (b i : Nat) (v : Word) : (cfgSet s b i v).jrn = s.jrn := setCfg_jrn s _
@[simp] theorem cfgSet_faults (b i : Nat) (v : Word) : (cfgSet s b i v).faults = s.faults := setCfg_faults s _
@[simp] theorem cfgSet_cnt (b i : Nat) (v : Word) : (cfgSet s b i v).cnt = s.cnt := setCfg_cnt s _
@[simp] theorem cfgSet_tap (b i : Nat) (v : Word) : (cfgSet s b i v).tap = s.tap := setCfg_tap s _

@[simp] theorem cfgDrop_pending (p : Nat → Nat → Bool) : (cfgDrop s p).pending = s.pending := setCfg_pending s _
@[simp] theorem cfgDrop_freeCount (p : Nat → Nat → Bool) : (cfgDrop s p).freeCount = s.freeCount := setCfg_freeCount s _
@[simp] theorem cfgDrop_chipnum (p : Nat → Nat → Bool) : (cfgDrop s p).chipnum = s.chipnum := setCfg_chipnum s _
@[simp] theorem cfgDrop_power (p : Nat → Nat → Bool) : (cfgDrop s p).power = s.power := setCfg_power s _
@[simp] theorem cfgDrop_doms (p : Nat → Nat → Bool) : (cfgDrop s p).doms = s.doms := setCfg_doms s _
@[simp] theorem cfgDrop_ports (p : Nat → Nat → Bool) : (cfgDrop s p).ports = s.ports := setCfg_ports s _
@[simp] theorem cfgDrop_mesh (p : Nat → Nat → Bool) : (cfgDrop s p).mesh = s.mesh := setCfg_mesh s _
@[simp] theorem cfgDrop_ring (p : Nat → Nat → Bool) : (cfgDrop s p).ring = s.ring := setCfg_ring s _
@[simp] theorem cfgDrop_sys (p : Nat → Nat → Bool) : (cfgDrop s p).sys = s.sys := setCfg_sys s _
@[simp] theorem cfgDrop_bobs (p : Nat → Nat → Bool) : (cfgDrop s p).bobs = s.bobs := setCfg_bobs s _
@[simp] theorem cfgDrop_host (p : Nat → Nat → Bool) : (cfgDrop s p).host = s.host := setCfg_host s _
@[simp] theorem cfgDrop_time (p : Nat → Nat → Bool) : (cfgDrop s p).time = s.time := setCfg_time s _
@[simp] theorem cfgDrop_jrn (p : Nat → Nat → Bool) : (cfgDrop s p).jrn = s.jrn := setCfg_jrn s _
@[simp] theorem cfgDrop_faults (p : Nat → Nat → Bool) : (cfgDrop s p).faults = s.faults := setCfg_faults s _
@[simp] theorem cfgDrop_cnt (p : Nat → Nat → Bool) : (cfgDrop s p).cnt = s.cnt := setCfg_cnt s _
@[simp] theorem cfgDrop_tap (p : Nat → Nat → Bool) : (cfgDrop s p).tap = s.tap := setCfg_tap s _

@[simp] theorem portSet_pending (n : Nat) (p : PortSt) : (portSet s n p).pending = s.pending := setPorts_pending s _
@[simp] theorem portSet_freeCount (n : Nat) (p : PortSt) : (portSet s n p).freeCount = s.freeCount := setPorts_freeCount s _
@[simp] theorem portSet_chipnum (n : Nat) (p : PortSt) : (portSet s n p).chipnum = s.chipnum := setPorts_chipnum s _
@[simp] theorem portSet_power (n : Nat) (p : PortSt) : (portSet s n p).power = s.power := setPorts_power s _
@[simp] theorem portSet_doms (n : Nat) (p : PortSt) : (portSet s n p).doms = s.doms := setPorts_doms s _
@[simp] theorem portSet_cfg (n : Nat) (p : PortSt) : (portSet s n p).cfg = s.cfg := setPorts_cfg s _
@[simp] theorem portSet_mesh (n : Nat) (p : PortSt) : (portSet s n p).mesh = s.mesh := setPorts_mesh s _
@[simp] theorem portSet_ring (n : Nat) (p : PortSt) : (portSet s n p).ring = s.ring := setPorts_ring s _
@[simp] theorem portSet_sys (n : Nat) (p : PortSt) : (portSet s n p).sys = s.sys := setPorts_sys s _
@[simp] theorem portSet_bobs (n : Nat) (p : PortSt) : (portSet s n p).bobs = s.bobs := setPorts_bobs s _
@[simp] theorem portSet_host (n : Nat) (p : PortSt) : (portSet s n p).host = s.host := setPorts_host s _
@[simp] theorem portSet_time (n : Nat) (p : PortSt) : (portSet s n p).time = s.time := setPorts_time s _
@[simp] theorem portSet_jrn (n : Nat) (p : PortSt) : (portSet s n p).jrn = s.jrn := setPorts_jrn s _
@[simp] theorem portSet_faults (n : Nat) (p : PortSt) : (portSet s n p).faults = s.faults := setPorts_faults s _
@[simp] theorem portSet_cnt (n : Nat) (p : PortSt) : (portSet s n p).cnt = s.cnt := setPorts_cnt s _
@[simp] theorem portSet_tap (n : Nat) (p : PortSt) : (portSet s n p).tap = s.tap := setPorts_tap s _

@[simp] theorem portMod_pending (n : Nat) (f : PortSt → PortSt) : (portMod s n f).pending = s.pending := setPorts_pending s _
@[simp] theorem portMod_freeCount (n : Nat) (f : PortSt → PortSt) : (portMod s n f).freeCount = s.freeCount := setPorts_freeCount s _
@[simp] theorem portMod_chipnum (n : Nat) (f : PortSt → PortSt) : (portMod s n f).chipnum = s.chipnum := setPorts_chipnum s _
@[simp] theorem portMod_power (n : Nat) (f : PortSt → PortSt) : (portMod s n f).power = s.power := setPorts_power s _
@[simp] theorem portMod_doms (n : Nat) (f : PortSt → PortSt) : (portMod s n f).doms = s.doms := setPorts_doms s _
@[simp] theorem portMod_cfg (n : Nat) (f : PortSt → PortSt) : (portMod s n f).cfg = s.cfg := setPorts_cfg s _
@[simp] theorem portMod_mesh (n : Nat) (f : PortSt → PortSt) : (portMod s n f).mesh = s.mesh := setPorts_mesh s _
@[simp] theorem portMod_ring (n : Nat) (f : PortSt → PortSt) : (portMod s n f).ring = s.ring := setPorts_ring s _
@[simp] theorem portMod_sys (n : Nat) (f : PortSt → PortSt) : (portMod s n f).sys = s.sys := setPorts_sys s _
@[simp] theorem portMod_bobs (n : Nat) (f : PortSt → PortSt) : (portMod s n f).bobs = s.bobs := setPorts_bobs s _
@[simp] theorem portMod_host (n : Nat) (f : PortSt → PortSt) : (portMod s n f).host = s.host := setPorts_host s _
@[simp] theorem portMod_time (n : Nat) (f : PortSt → PortSt) : (portMod s n f).time = s.time := setPorts_time s _
@[simp] theorem portMod_jrn (n : Nat) (f : PortSt → PortSt) : (portMod s n f).jrn = s.jrn := setPorts_jrn s _
@[simp] theorem portMod_faults (n : Nat) (f : PortSt → PortSt) : (portMod s n f).faults = s.faults := setPorts_faults s _
@[simp] theorem portMod_cnt (n : Nat) (f : PortSt → PortSt) : (portMod s n f).cnt = s.cnt := setPorts_cnt s _
@[simp] theorem portMod_tap (n : Nat) (f : PortSt → PortSt) : (portMod s n f).tap = s.tap := setPorts_tap s _

@[simp] theorem domSet_pending (d : Nat) (x : Dom) : (domSet s d x).pending = s.pending := setDoms_pending s _
@[simp] theorem domSet_freeCount (d : Nat) (x : Dom) : (domSet s d x).freeCount = s.freeCount := setDoms_freeCount s _
@[simp] theorem domSet_chipnum (d : Nat) (x : Dom) : (domSet s d x).chipnum = s.chipnum := setDoms_chipnum s _
@[simp] theorem domSet_power (d : Nat) (x : Dom) : (domSet s d x).power = s.power := setDoms_power s _
@[simp] theorem domSet_ports (d : Nat) (x : Dom) : (domSet s d x).ports = s.ports := setDoms_ports s _
@[simp] theorem domSet_cfg (d : Nat) (x : Dom) : (domSet s d x).cfg = s.cfg := setDoms_cfg s _
@[simp] theorem domSet_mesh (d : Nat) (x : Dom) : (domSet s d x).mesh = s.mesh := setDoms_mesh s _
@[simp] theorem domSet_ring (d : Nat) (x : Dom) : (domSet s d x).ring = s.ring := setDoms_ring s _
@[simp] theorem domSet_sys (d : Nat) (x : Dom) : (domSet s d x).sys = s.sys := setDoms_sys s _
@[simp] theorem domSet_bobs (d : Nat) (x : Dom) : (domSet s d x).bobs = s.bobs := setDoms_bobs s _
@[simp] theorem domSet_host (d : Nat) (x : Dom) : (domSet s d x).host = s.host := setDoms_host s _
@[simp] theorem domSet_time (d : Nat) (x : Dom) : (domSet s d x).time = s.time := setDoms_time s _
@[simp] theorem domSet_jrn (d : Nat) (x : Dom) : (domSet s d x).jrn = s.jrn := setDoms_jrn s _
@[simp] theorem domSet_faults (d : Nat) (x : Dom) : (domSet s d x).faults = s.faults := setDoms_faults s _
@[simp] theorem domSet_cnt (d : Nat) (x : Dom) : (domSet s d x).cnt = s.cnt := setDoms_cnt s _
@[simp] theorem domSet_tap (d : Nat) (x : Dom) : (domSet s d x).tap = s.tap := setDoms_tap s _

@[simp] theorem domMod_pending (d : Nat) (f : Dom → Dom) : (domMod s d f).pending = s.pending := setDoms_pending s _
@[simp] theorem domMod_freeCount (d : Nat) (f : Dom → Dom) : (domMod s d f).freeCount = s.freeCount := setDoms_freeCount s _
@[simp] theorem domMod_chipnum (d : Nat) (f : Dom → Dom) : (domMod s d f).chipnum = s.chipnum := setDoms_chipnum s _
@[simp] theorem domMod_power (d : Nat) (f : Dom → Dom) : (domMod s d f).power = s.power := setDoms_power s _
@[simp] theorem domMod_ports (d : Nat) (f : Dom → Dom) : (domMod s d f).ports = s.ports := setDoms_ports s _
@[simp] theorem domMod_cfg (d : Nat) (f : Dom → Dom) : (domMod s d f).cfg = s.cfg := setDoms_cfg s _
@[simp] theorem domMod_mesh (d : Nat) (f : Dom → Dom) : (domMod s d f).mesh = s.mesh := setDoms_mesh s _
@[simp] theorem domMod_ring (d : Nat) (f : Dom → Dom) : (domMod s d f).ring = s.ring := setDoms_ring s _
@[simp] theorem domMod_sys (d : Nat) (f : Dom → Dom) : (domMod s d f).sys = s.sys := setDoms_sys s _
@[simp] theorem domMod_bobs (d : Nat) (f : Dom → Dom) : (domMod s d f).bobs = s.bobs := setDoms_bobs s _
@[simp] theorem domMod_host (d : Nat) (f : Dom → Dom) : (domMod s d f).host = s.host := setDoms_host s _
@[simp] theorem domMod_time (d : Nat) (f : Dom → Dom) : (domMod s d f).time = s.time := setDoms_time s _
@[simp] theorem domMod_jrn (d : Nat) (f : Dom → Dom) : (domMod s d f).jrn = s.jrn := setDoms_jrn s _
@[simp] theorem domMod_faults (d : Nat) (f : Dom → Dom) : (domMod s d f).faults = s.faults := setDoms_faults s _
@[simp] theorem domMod_cnt (d : Nat) (f : Dom → Dom) : (domMod s d f).cnt = s.cnt := setDoms_cnt s _
@[simp] theorem domMod_tap (d : Nat) (f : Dom → Dom) : (domMod s d f).tap = s.tap := setDoms_tap s _

@[simp] theorem bobSet_pending (b : Nat) (x : Bobbin) : (bobSet s b x).pending = s.pending := setBobs_pending s _
@[simp] theorem bobSet_freeCount (b : Nat) (x : Bobbin) : (bobSet s b x).freeCount = s.freeCount := setBobs_freeCount s _
@[simp] theorem bobSet_chipnum (b : Nat) (x : Bobbin) : (bobSet s b x).chipnum = s.chipnum := setBobs_chipnum s _
@[simp] theorem bobSet_power (b : Nat) (x : Bobbin) : (bobSet s b x).power = s.power := setBobs_power s _
@[simp] theorem bobSet_doms (b : Nat) (x : Bobbin) : (bobSet s b x).doms = s.doms := setBobs_doms s _
@[simp] theorem bobSet_ports (b : Nat) (x : Bobbin) : (bobSet s b x).ports = s.ports := setBobs_ports s _
@[simp] theorem bobSet_cfg (b : Nat) (x : Bobbin) : (bobSet s b x).cfg = s.cfg := setBobs_cfg s _
@[simp] theorem bobSet_mesh (b : Nat) (x : Bobbin) : (bobSet s b x).mesh = s.mesh := setBobs_mesh s _
@[simp] theorem bobSet_ring (b : Nat) (x : Bobbin) : (bobSet s b x).ring = s.ring := setBobs_ring s _
@[simp] theorem bobSet_sys (b : Nat) (x : Bobbin) : (bobSet s b x).sys = s.sys := setBobs_sys s _
@[simp] theorem bobSet_host (b : Nat) (x : Bobbin) : (bobSet s b x).host = s.host := setBobs_host s _
@[simp] theorem bobSet_time (b : Nat) (x : Bobbin) : (bobSet s b x).time = s.time := setBobs_time s _
@[simp] theorem bobSet_jrn (b : Nat) (x : Bobbin) : (bobSet s b x).jrn = s.jrn := setBobs_jrn s _
@[simp] theorem bobSet_faults (b : Nat) (x : Bobbin) : (bobSet s b x).faults = s.faults := setBobs_faults s _
@[simp] theorem bobSet_cnt (b : Nat) (x : Bobbin) : (bobSet s b x).cnt = s.cnt := setBobs_cnt s _
@[simp] theorem bobSet_tap (b : Nat) (x : Bobbin) : (bobSet s b x).tap = s.tap := setBobs_tap s _

@[simp] theorem bobMod_pending (b : Nat) (f : Bobbin → Bobbin) : (bobMod s b f).pending = s.pending := setBobs_pending s _
@[simp] theorem bobMod_freeCount (b : Nat) (f : Bobbin → Bobbin) : (bobMod s b f).freeCount = s.freeCount := setBobs_freeCount s _
@[simp] theorem bobMod_chipnum (b : Nat) (f : Bobbin → Bobbin) : (bobMod s b f).chipnum = s.chipnum := setBobs_chipnum s _
@[simp] theorem bobMod_power (b : Nat) (f : Bobbin → Bobbin) : (bobMod s b f).power = s.power := setBobs_power s _
@[simp] theorem bobMod_doms (b : Nat) (f : Bobbin → Bobbin) : (bobMod s b f).doms = s.doms := setBobs_doms s _
@[simp] theorem bobMod_ports (b : Nat) (f : Bobbin → Bobbin) : (bobMod s b f).ports = s.ports := setBobs_ports s _
@[simp] theorem bobMod_cfg (b : Nat) (f : Bobbin → Bobbin) : (bobMod s b f).cfg = s.cfg := setBobs_cfg s _
@[simp] theorem bobMod_mesh (b : Nat) (f : Bobbin → Bobbin) : (bobMod s b f).mesh = s.mesh := setBobs_mesh s _
@[simp] theorem bobMod_ring (b : Nat) (f : Bobbin → Bobbin) : (bobMod s b f).ring = s.ring := setBobs_ring s _
@[simp] theorem bobMod_sys (b : Nat) (f : Bobbin → Bobbin) : (bobMod s b f).sys = s.sys := setBobs_sys s _
@[simp] theorem bobMod_host (b : Nat) (f : Bobbin → Bobbin) : (bobMod s b f).host = s.host := setBobs_host s _
@[simp] theorem bobMod_time (b : Nat) (f : Bobbin → Bobbin) : (bobMod s b f).time = s.time := setBobs_time s _
@[simp] theorem bobMod_jrn (b : Nat) (f : Bobbin → Bobbin) : (bobMod s b f).jrn = s.jrn := setBobs_jrn s _
@[simp] theorem bobMod_faults (b : Nat) (f : Bobbin → Bobbin) : (bobMod s b f).faults = s.faults := setBobs_faults s _
@[simp] theorem bobMod_cnt (b : Nat) (f : Bobbin → Bobbin) : (bobMod s b f).cnt = s.cnt := setBobs_cnt s _
@[simp] theorem bobMod_tap (b : Nat) (f : Bobbin → Bobbin) : (bobMod s b f).tap = s.tap := setBobs_tap s _

@[simp] theorem faultSet_pending (k : Nat) (x : FaultRec) : (faultSet s k x).pending = s.pending := setFaults_pending s _
@[simp] theorem faultSet_freeCount (k : Nat) (x : FaultRec) : (faultSet s k x).freeCount = s.freeCount := setFaults_freeCount s _
@[simp] theorem faultSet_chipnum (k : Nat) (x : FaultRec) : (faultSet s k x).chipnum = s.chipnum := setFaults_chipnum s _
@[simp] theorem faultSet_power (k : Nat) (x : FaultRec) : (faultSet s k x).power = s.power := setFaults_power s _
@[simp] theorem faultSet_doms (k : Nat) (x : FaultRec) : (faultSet s k x).doms = s.doms := setFaults_doms s _
@[simp] theorem faultSet_ports (k : Nat) (x : FaultRec) : (faultSet s k x).ports = s.ports := setFaults_ports s _
@[simp] theorem faultSet_cfg (k : Nat) (x : FaultRec) : (faultSet s k x).cfg = s.cfg := setFaults_cfg s _
@[simp] theorem faultSet_mesh (k : Nat) (x : FaultRec) : (faultSet s k x).mesh = s.mesh := setFaults_mesh s _
@[simp] theorem faultSet_ring (k : Nat) (x : FaultRec) : (faultSet s k x).ring = s.ring := setFaults_ring s _
@[simp] theorem faultSet_sys (k : Nat) (x : FaultRec) : (faultSet s k x).sys = s.sys := setFaults_sys s _
@[simp] theorem faultSet_bobs (k : Nat) (x : FaultRec) : (faultSet s k x).bobs = s.bobs := setFaults_bobs s _
@[simp] theorem faultSet_host (k : Nat) (x : FaultRec) : (faultSet s k x).host = s.host := setFaults_host s _
@[simp] theorem faultSet_time (k : Nat) (x : FaultRec) : (faultSet s k x).time = s.time := setFaults_time s _
@[simp] theorem faultSet_jrn (k : Nat) (x : FaultRec) : (faultSet s k x).jrn = s.jrn := setFaults_jrn s _
@[simp] theorem faultSet_cnt (k : Nat) (x : FaultRec) : (faultSet s k x).cnt = s.cnt := setFaults_cnt s _
@[simp] theorem faultSet_tap (k : Nat) (x : FaultRec) : (faultSet s k x).tap = s.tap := setFaults_tap s _

@[simp] theorem nodeSet_pending (m : BitVec 7) (n : Net) (x : NodeQ) : (nodeSet s m n x).pending = s.pending := setMesh_pending s _
@[simp] theorem nodeSet_freeCount (m : BitVec 7) (n : Net) (x : NodeQ) : (nodeSet s m n x).freeCount = s.freeCount := setMesh_freeCount s _
@[simp] theorem nodeSet_chipnum (m : BitVec 7) (n : Net) (x : NodeQ) : (nodeSet s m n x).chipnum = s.chipnum := setMesh_chipnum s _
@[simp] theorem nodeSet_power (m : BitVec 7) (n : Net) (x : NodeQ) : (nodeSet s m n x).power = s.power := setMesh_power s _
@[simp] theorem nodeSet_doms (m : BitVec 7) (n : Net) (x : NodeQ) : (nodeSet s m n x).doms = s.doms := setMesh_doms s _
@[simp] theorem nodeSet_ports (m : BitVec 7) (n : Net) (x : NodeQ) : (nodeSet s m n x).ports = s.ports := setMesh_ports s _
@[simp] theorem nodeSet_cfg (m : BitVec 7) (n : Net) (x : NodeQ) : (nodeSet s m n x).cfg = s.cfg := setMesh_cfg s _
@[simp] theorem nodeSet_ring (m : BitVec 7) (n : Net) (x : NodeQ) : (nodeSet s m n x).ring = s.ring := setMesh_ring s _
@[simp] theorem nodeSet_sys (m : BitVec 7) (n : Net) (x : NodeQ) : (nodeSet s m n x).sys = s.sys := setMesh_sys s _
@[simp] theorem nodeSet_bobs (m : BitVec 7) (n : Net) (x : NodeQ) : (nodeSet s m n x).bobs = s.bobs := setMesh_bobs s _
@[simp] theorem nodeSet_host (m : BitVec 7) (n : Net) (x : NodeQ) : (nodeSet s m n x).host = s.host := setMesh_host s _
@[simp] theorem nodeSet_time (m : BitVec 7) (n : Net) (x : NodeQ) : (nodeSet s m n x).time = s.time := setMesh_time s _
@[simp] theorem nodeSet_jrn (m : BitVec 7) (n : Net) (x : NodeQ) : (nodeSet s m n x).jrn = s.jrn := setMesh_jrn s _
@[simp] theorem nodeSet_faults (m : BitVec 7) (n : Net) (x : NodeQ) : (nodeSet s m n x).faults = s.faults := setMesh_faults s _
@[simp] theorem nodeSet_cnt (m : BitVec 7) (n : Net) (x : NodeQ) : (nodeSet s m n x).cnt = s.cnt := setMesh_cnt s _
@[simp] theorem nodeSet_tap (m : BitVec 7) (n : Net) (x : NodeQ) : (nodeSet s m n x).tap = s.tap := setMesh_tap s _

@[simp] theorem nodeMod_pending (m : BitVec 7) (n : Net) (f : NodeQ → NodeQ) : (nodeMod s m n f).pending = s.pending := setMesh_pending s _
@[simp] theorem nodeMod_freeCount (m : BitVec 7) (n : Net) (f : NodeQ → NodeQ) : (nodeMod s m n f).freeCount = s.freeCount := setMesh_freeCount s _
@[simp] theorem nodeMod_chipnum (m : BitVec 7) (n : Net) (f : NodeQ → NodeQ) : (nodeMod s m n f).chipnum = s.chipnum := setMesh_chipnum s _
@[simp] theorem nodeMod_power (m : BitVec 7) (n : Net) (f : NodeQ → NodeQ) : (nodeMod s m n f).power = s.power := setMesh_power s _
@[simp] theorem nodeMod_doms (m : BitVec 7) (n : Net) (f : NodeQ → NodeQ) : (nodeMod s m n f).doms = s.doms := setMesh_doms s _
@[simp] theorem nodeMod_ports (m : BitVec 7) (n : Net) (f : NodeQ → NodeQ) : (nodeMod s m n f).ports = s.ports := setMesh_ports s _
@[simp] theorem nodeMod_cfg (m : BitVec 7) (n : Net) (f : NodeQ → NodeQ) : (nodeMod s m n f).cfg = s.cfg := setMesh_cfg s _
@[simp] theorem nodeMod_ring (m : BitVec 7) (n : Net) (f : NodeQ → NodeQ) : (nodeMod s m n f).ring = s.ring := setMesh_ring s _
@[simp] theorem nodeMod_sys (m : BitVec 7) (n : Net) (f : NodeQ → NodeQ) : (nodeMod s m n f).sys = s.sys := setMesh_sys s _
@[simp] theorem nodeMod_bobs (m : BitVec 7) (n : Net) (f : NodeQ → NodeQ) : (nodeMod s m n f).bobs = s.bobs := setMesh_bobs s _
@[simp] theorem nodeMod_host (m : BitVec 7) (n : Net) (f : NodeQ → NodeQ) : (nodeMod s m n f).host = s.host := setMesh_host s _
@[simp] theorem nodeMod_time (m : BitVec 7) (n : Net) (f : NodeQ → NodeQ) : (nodeMod s m n f).time = s.time := setMesh_time s _
@[simp] theorem nodeMod_jrn (m : BitVec 7) (n : Net) (f : NodeQ → NodeQ) : (nodeMod s m n f).jrn = s.jrn := setMesh_jrn s _
@[simp] theorem nodeMod_faults (m : BitVec 7) (n : Net) (f : NodeQ → NodeQ) : (nodeMod s m n f).faults = s.faults := setMesh_faults s _
@[simp] theorem nodeMod_cnt (m : BitVec 7) (n : Net) (f : NodeQ → NodeQ) : (nodeMod s m n f).cnt = s.cnt := setMesh_cnt s _
@[simp] theorem nodeMod_tap (m : BitVec 7) (n : Net) (f : NodeQ → NodeQ) : (nodeMod s m n f).tap = s.tap := setMesh_tap s _

@[simp] theorem rinSet_pending (n : Net) (r : Nat) (d : Dir) (x : RIn) : (rinSet s n r d x).pending = s.pending := setMesh_pending s _
@[simp] theorem rinSet_freeCount (n : Net) (r : Nat) (d : Dir) (x : RIn) : (rinSet s n r d x).freeCount = s.freeCount := setMesh_freeCount s _
@[simp] theorem rinSet_chipnum (n : Net) (r : Nat) (d : Dir) (x : RIn) : (rinSet s n r d x).chipnum = s.chipnum := setMesh_chipnum s _
@[simp] theorem rinSet_power (n : Net) (r : Nat) (d : Dir) (x : RIn) : (rinSet s n r d x).power = s.power := setMesh_power s _
@[simp] theorem rinSet_doms (n : Net) (r : Nat) (d : Dir) (x : RIn) : (rinSet s n r d x).doms = s.doms := setMesh_doms s _
@[simp] theorem rinSet_ports (n : Net) (r : Nat) (d : Dir) (x : RIn) : (rinSet s n r d x).ports = s.ports := setMesh_ports s _
@[simp] theorem rinSet_cfg (n : Net) (r : Nat) (d : Dir) (x : RIn) : (rinSet s n r d x).cfg = s.cfg := setMesh_cfg s _
@[simp] theorem rinSet_ring (n : Net) (r : Nat) (d : Dir) (x : RIn) : (rinSet s n r d x).ring = s.ring := setMesh_ring s _
@[simp] theorem rinSet_sys (n : Net) (r : Nat) (d : Dir) (x : RIn) : (rinSet s n r d x).sys = s.sys := setMesh_sys s _
@[simp] theorem rinSet_bobs (n : Net) (r : Nat) (d : Dir) (x : RIn) : (rinSet s n r d x).bobs = s.bobs := setMesh_bobs s _
@[simp] theorem rinSet_host (n : Net) (r : Nat) (d : Dir) (x : RIn) : (rinSet s n r d x).host = s.host := setMesh_host s _
@[simp] theorem rinSet_time (n : Net) (r : Nat) (d : Dir) (x : RIn) : (rinSet s n r d x).time = s.time := setMesh_time s _
@[simp] theorem rinSet_jrn (n : Net) (r : Nat) (d : Dir) (x : RIn) : (rinSet s n r d x).jrn = s.jrn := setMesh_jrn s _
@[simp] theorem rinSet_faults (n : Net) (r : Nat) (d : Dir) (x : RIn) : (rinSet s n r d x).faults = s.faults := setMesh_faults s _
@[simp] theorem rinSet_cnt (n : Net) (r : Nat) (d : Dir) (x : RIn) : (rinSet s n r d x).cnt = s.cnt := setMesh_cnt s _
@[simp] theorem rinSet_tap (n : Net) (r : Nat) (d : Dir) (x : RIn) : (rinSet s n r d x).tap = s.tap := setMesh_tap s _

@[simp] theorem arbSet_pending (n : Net) (r : Nat) (a : ArbName) (x : Arb) : (arbSet s n r a x).pending = s.pending := setMesh_pending s _
@[simp] theorem arbSet_freeCount (n : Net) (r : Nat) (a : ArbName) (x : Arb) : (arbSet s n r a x).freeCount = s.freeCount := setMesh_freeCount s _
@[simp] theorem arbSet_chipnum (n : Net) (r : Nat) (a : ArbName) (x : Arb) : (arbSet s n r a x).chipnum = s.chipnum := setMesh_chipnum s _
@[simp] theorem arbSet_power (n : Net) (r : Nat) (a : ArbName) (x : Arb) : (arbSet s n r a x).power = s.power := setMesh_power s _
@[simp] theorem arbSet_doms (n : Net) (r : Nat) (a : ArbName) (x : Arb) : (arbSet s n r a x).doms = s.doms := setMesh_doms s _
@[simp] theorem arbSet_ports (n : Net) (r : Nat) (a : ArbName) (x : Arb) : (arbSet s n r a x).ports = s.ports := setMesh_ports s _
@[simp] theorem arbSet_cfg (n : Net) (r : Nat) (a : ArbName) (x : Arb) : (arbSet s n r a x).cfg = s.cfg := setMesh_cfg s _
@[simp] theorem arbSet_ring (n : Net) (r : Nat) (a : ArbName) (x : Arb) : (arbSet s n r a x).ring = s.ring := setMesh_ring s _
@[simp] theorem arbSet_sys (n : Net) (r : Nat) (a : ArbName) (x : Arb) : (arbSet s n r a x).sys = s.sys := setMesh_sys s _
@[simp] theorem arbSet_bobs (n : Net) (r : Nat) (a : ArbName) (x : Arb) : (arbSet s n r a x).bobs = s.bobs := setMesh_bobs s _
@[simp] theorem arbSet_host (n : Net) (r : Nat) (a : ArbName) (x : Arb) : (arbSet s n r a x).host = s.host := setMesh_host s _
@[simp] theorem arbSet_time (n : Net) (r : Nat) (a : ArbName) (x : Arb) : (arbSet s n r a x).time = s.time := setMesh_time s _
@[simp] theorem arbSet_jrn (n : Net) (r : Nat) (a : ArbName) (x : Arb) : (arbSet s n r a x).jrn = s.jrn := setMesh_jrn s _
@[simp] theorem arbSet_faults (n : Net) (r : Nat) (a : ArbName) (x : Arb) : (arbSet s n r a x).faults = s.faults := setMesh_faults s _
@[simp] theorem arbSet_cnt (n : Net) (r : Nat) (a : ArbName) (x : Arb) : (arbSet s n r a x).cnt = s.cnt := setMesh_cnt s _
@[simp] theorem arbSet_tap (n : Net) (r : Nat) (a : ArbName) (x : Arb) : (arbSet s n r a x).tap = s.tap := setMesh_tap s _

@[simp] theorem delaySet_pending (r : Nat) (x : Delay) : (delaySet s r x).pending = s.pending := setMesh_pending s _
@[simp] theorem delaySet_freeCount (r : Nat) (x : Delay) : (delaySet s r x).freeCount = s.freeCount := setMesh_freeCount s _
@[simp] theorem delaySet_chipnum (r : Nat) (x : Delay) : (delaySet s r x).chipnum = s.chipnum := setMesh_chipnum s _
@[simp] theorem delaySet_power (r : Nat) (x : Delay) : (delaySet s r x).power = s.power := setMesh_power s _
@[simp] theorem delaySet_doms (r : Nat) (x : Delay) : (delaySet s r x).doms = s.doms := setMesh_doms s _
@[simp] theorem delaySet_ports (r : Nat) (x : Delay) : (delaySet s r x).ports = s.ports := setMesh_ports s _
@[simp] theorem delaySet_cfg (r : Nat) (x : Delay) : (delaySet s r x).cfg = s.cfg := setMesh_cfg s _
@[simp] theorem delaySet_ring (r : Nat) (x : Delay) : (delaySet s r x).ring = s.ring := setMesh_ring s _
@[simp] theorem delaySet_sys (r : Nat) (x : Delay) : (delaySet s r x).sys = s.sys := setMesh_sys s _
@[simp] theorem delaySet_bobs (r : Nat) (x : Delay) : (delaySet s r x).bobs = s.bobs := setMesh_bobs s _
@[simp] theorem delaySet_host (r : Nat) (x : Delay) : (delaySet s r x).host = s.host := setMesh_host s _
@[simp] theorem delaySet_time (r : Nat) (x : Delay) : (delaySet s r x).time = s.time := setMesh_time s _
@[simp] theorem delaySet_jrn (r : Nat) (x : Delay) : (delaySet s r x).jrn = s.jrn := setMesh_jrn s _
@[simp] theorem delaySet_faults (r : Nat) (x : Delay) : (delaySet s r x).faults = s.faults := setMesh_faults s _
@[simp] theorem delaySet_cnt (r : Nat) (x : Delay) : (delaySet s r x).cnt = s.cnt := setMesh_cnt s _
@[simp] theorem delaySet_tap (r : Nat) (x : Delay) : (delaySet s r x).tap = s.tap := setMesh_tap s _

@[simp] theorem ringMod_pending (f : RingSt → RingSt) : (ringMod s f).pending = s.pending := setRing_pending s _
@[simp] theorem ringMod_freeCount (f : RingSt → RingSt) : (ringMod s f).freeCount = s.freeCount := setRing_freeCount s _
@[simp] theorem ringMod_chipnum (f : RingSt → RingSt) : (ringMod s f).chipnum = s.chipnum := setRing_chipnum s _
@[simp] theorem ringMod_power (f : RingSt → RingSt) : (ringMod s f).power = s.power := setRing_power s _
@[simp] theorem ringMod_doms (f : RingSt → RingSt) : (ringMod s f).doms = s.doms := setRing_doms s _
@[simp] theorem ringMod_ports (f : RingSt → RingSt) : (ringMod s f).ports = s.ports := setRing_ports s _
@[simp] theorem ringMod_cfg (f : RingSt → RingSt) : (ringMod s f).cfg = s.cfg := setRing_cfg s _
@[simp] theorem ringMod_mesh (f : RingSt → RingSt) : (ringMod s f).mesh = s.mesh := setRing_mesh s _
@[simp] theorem ringMod_ring (f : RingSt → RingSt) : (ringMod s f).ring = f s.ring := rfl
@[simp] theorem ringMod_sys (f : RingSt → RingSt) : (ringMod s f).sys = s.sys := setRing_sys s _
@[simp] theorem ringMod_bobs (f : RingSt → RingSt) : (ringMod s f).bobs = s.bobs := setRing_bobs s _
@[simp] theorem ringMod_host (f : RingSt → RingSt) : (ringMod s f).host = s.host := setRing_host s _
@[simp] theorem ringMod_time (f : RingSt → RingSt) : (ringMod s f).time = s.time := setRing_time s _
@[simp] theorem ringMod_jrn (f : RingSt → RingSt) : (ringMod s f).jrn = s.jrn := setRing_jrn s _
@[simp] theorem ringMod_faults (f : RingSt → RingSt) : (ringMod s f).faults = s.faults := setRing_faults s _
@[simp] theorem ringMod_cnt (f : RingSt → RingSt) : (ringMod s f).cnt = s.cnt := setRing_cnt s _
@[simp] theorem ringMod_tap (f : RingSt → RingSt) : (ringMod s f).tap = s.tap := setRing_tap s _

@[simp] theorem gateMod_pending (g : Ring) (f : Gate → Gate) : (gateMod s g f).pending = s.pending := by cases g <;> exact setRing_pending s _
@[simp] theorem gateMod_freeCount (g : Ring) (f : Gate → Gate) : (gateMod s g f).freeCount = s.freeCount := by cases g <;> exact setRing_freeCount s _
@[simp] theorem gateMod_chipnum (g : Ring) (f : Gate → Gate) : (gateMod s g f).chipnum = s.chipnum := by cases g <;> exact setRing_chipnum s _
@[simp] theorem gateMod_power (g : Ring) (f : Gate → Gate) : (gateMod s g f).power = s.power := by cases g <;> exact setRing_power s _
@[simp] theorem gateMod_doms (g : Ring) (f : Gate → Gate) : (gateMod s g f).doms = s.doms := by cases g <;> exact setRing_doms s _
@[simp] theorem gateMod_ports (g : Ring) (f : Gate → Gate) : (gateMod s g f).ports = s.ports := by cases g <;> exact setRing_ports s _
@[simp] theorem gateMod_cfg (g : Ring) (f : Gate → Gate) : (gateMod s g f).cfg = s.cfg := by cases g <;> exact setRing_cfg s _
@[simp] theorem gateMod_mesh (g : Ring) (f : Gate → Gate) : (gateMod s g f).mesh = s.mesh := by cases g <;> exact setRing_mesh s _
@[simp] theorem gateMod_sys (g : Ring) (f : Gate → Gate) : (gateMod s g f).sys = s.sys := by cases g <;> exact setRing_sys s _
@[simp] theorem gateMod_bobs (g : Ring) (f : Gate → Gate) : (gateMod s g f).bobs = s.bobs := by cases g <;> exact setRing_bobs s _
@[simp] theorem gateMod_host (g : Ring) (f : Gate → Gate) : (gateMod s g f).host = s.host := by cases g <;> exact setRing_host s _
@[simp] theorem gateMod_time (g : Ring) (f : Gate → Gate) : (gateMod s g f).time = s.time := by cases g <;> exact setRing_time s _
@[simp] theorem gateMod_jrn (g : Ring) (f : Gate → Gate) : (gateMod s g f).jrn = s.jrn := by cases g <;> exact setRing_jrn s _
@[simp] theorem gateMod_faults (g : Ring) (f : Gate → Gate) : (gateMod s g f).faults = s.faults := by cases g <;> exact setRing_faults s _
@[simp] theorem gateMod_cnt (g : Ring) (f : Gate → Gate) : (gateMod s g f).cnt = s.cnt := by cases g <;> exact setRing_cnt s _
@[simp] theorem gateMod_tap (g : Ring) (f : Gate → Gate) : (gateMod s g f).tap = s.tap := by cases g <;> exact setRing_tap s _

@[simp] theorem sysMod_pending (f : Sys → Sys) : (sysMod s f).pending = s.pending := setSys_pending s _
@[simp] theorem sysMod_freeCount (f : Sys → Sys) : (sysMod s f).freeCount = s.freeCount := setSys_freeCount s _
@[simp] theorem sysMod_chipnum (f : Sys → Sys) : (sysMod s f).chipnum = s.chipnum := setSys_chipnum s _
@[simp] theorem sysMod_power (f : Sys → Sys) : (sysMod s f).power = s.power := setSys_power s _
@[simp] theorem sysMod_doms (f : Sys → Sys) : (sysMod s f).doms = s.doms := setSys_doms s _
@[simp] theorem sysMod_ports (f : Sys → Sys) : (sysMod s f).ports = s.ports := setSys_ports s _
@[simp] theorem sysMod_cfg (f : Sys → Sys) : (sysMod s f).cfg = s.cfg := setSys_cfg s _
@[simp] theorem sysMod_mesh (f : Sys → Sys) : (sysMod s f).mesh = s.mesh := setSys_mesh s _
@[simp] theorem sysMod_ring (f : Sys → Sys) : (sysMod s f).ring = s.ring := setSys_ring s _
@[simp] theorem sysMod_sys (f : Sys → Sys) : (sysMod s f).sys = f s.sys := rfl
@[simp] theorem sysMod_bobs (f : Sys → Sys) : (sysMod s f).bobs = s.bobs := setSys_bobs s _
@[simp] theorem sysMod_host (f : Sys → Sys) : (sysMod s f).host = s.host := setSys_host s _
@[simp] theorem sysMod_time (f : Sys → Sys) : (sysMod s f).time = s.time := setSys_time s _
@[simp] theorem sysMod_jrn (f : Sys → Sys) : (sysMod s f).jrn = s.jrn := setSys_jrn s _
@[simp] theorem sysMod_faults (f : Sys → Sys) : (sysMod s f).faults = s.faults := setSys_faults s _
@[simp] theorem sysMod_cnt (f : Sys → Sys) : (sysMod s f).cnt = s.cnt := setSys_cnt s _
@[simp] theorem sysMod_tap (f : Sys → Sys) : (sysMod s f).tap = s.tap := setSys_tap s _

@[simp] theorem hostMod_pending (f : HostIf → HostIf) : (hostMod s f).pending = s.pending := setHost_pending s _
@[simp] theorem hostMod_freeCount (f : HostIf → HostIf) : (hostMod s f).freeCount = s.freeCount := setHost_freeCount s _
@[simp] theorem hostMod_chipnum (f : HostIf → HostIf) : (hostMod s f).chipnum = s.chipnum := setHost_chipnum s _
@[simp] theorem hostMod_power (f : HostIf → HostIf) : (hostMod s f).power = s.power := setHost_power s _
@[simp] theorem hostMod_doms (f : HostIf → HostIf) : (hostMod s f).doms = s.doms := setHost_doms s _
@[simp] theorem hostMod_ports (f : HostIf → HostIf) : (hostMod s f).ports = s.ports := setHost_ports s _
@[simp] theorem hostMod_cfg (f : HostIf → HostIf) : (hostMod s f).cfg = s.cfg := setHost_cfg s _
@[simp] theorem hostMod_mesh (f : HostIf → HostIf) : (hostMod s f).mesh = s.mesh := setHost_mesh s _
@[simp] theorem hostMod_ring (f : HostIf → HostIf) : (hostMod s f).ring = s.ring := setHost_ring s _
@[simp] theorem hostMod_sys (f : HostIf → HostIf) : (hostMod s f).sys = s.sys := setHost_sys s _
@[simp] theorem hostMod_bobs (f : HostIf → HostIf) : (hostMod s f).bobs = s.bobs := setHost_bobs s _
@[simp] theorem hostMod_host (f : HostIf → HostIf) : (hostMod s f).host = f s.host := rfl
@[simp] theorem hostMod_time (f : HostIf → HostIf) : (hostMod s f).time = s.time := setHost_time s _
@[simp] theorem hostMod_jrn (f : HostIf → HostIf) : (hostMod s f).jrn = s.jrn := setHost_jrn s _
@[simp] theorem hostMod_faults (f : HostIf → HostIf) : (hostMod s f).faults = s.faults := setHost_faults s _
@[simp] theorem hostMod_cnt (f : HostIf → HostIf) : (hostMod s f).cnt = s.cnt := setHost_cnt s _
@[simp] theorem hostMod_tap (f : HostIf → HostIf) : (hostMod s f).tap = s.tap := setHost_tap s _

@[simp] theorem powMod_pending (f : Power → Power) : (powMod s f).pending = s.pending := setPower_pending s _
@[simp] theorem powMod_freeCount (f : Power → Power) : (powMod s f).freeCount = s.freeCount := setPower_freeCount s _
@[simp] theorem powMod_chipnum (f : Power → Power) : (powMod s f).chipnum = s.chipnum := setPower_chipnum s _
@[simp] theorem powMod_power (f : Power → Power) : (powMod s f).power = f s.power := rfl
@[simp] theorem powMod_doms (f : Power → Power) : (powMod s f).doms = s.doms := setPower_doms s _
@[simp] theorem powMod_ports (f : Power → Power) : (powMod s f).ports = s.ports := setPower_ports s _
@[simp] theorem powMod_cfg (f : Power → Power) : (powMod s f).cfg = s.cfg := setPower_cfg s _
@[simp] theorem powMod_mesh (f : Power → Power) : (powMod s f).mesh = s.mesh := setPower_mesh s _
@[simp] theorem powMod_ring (f : Power → Power) : (powMod s f).ring = s.ring := setPower_ring s _
@[simp] theorem powMod_sys (f : Power → Power) : (powMod s f).sys = s.sys := setPower_sys s _
@[simp] theorem powMod_bobs (f : Power → Power) : (powMod s f).bobs = s.bobs := setPower_bobs s _
@[simp] theorem powMod_host (f : Power → Power) : (powMod s f).host = s.host := setPower_host s _
@[simp] theorem powMod_time (f : Power → Power) : (powMod s f).time = s.time := setPower_time s _
@[simp] theorem powMod_jrn (f : Power → Power) : (powMod s f).jrn = s.jrn := setPower_jrn s _
@[simp] theorem powMod_faults (f : Power → Power) : (powMod s f).faults = s.faults := setPower_faults s _
@[simp] theorem powMod_cnt (f : Power → Power) : (powMod s f).cnt = s.cnt := setPower_cnt s _
@[simp] theorem powMod_tap (f : Power → Power) : (powMod s f).tap = s.tap := setPower_tap s _

@[simp] theorem timeMod_pending (f : Time → Time) : (timeMod s f).pending = s.pending := setTime_pending s _
@[simp] theorem timeMod_freeCount (f : Time → Time) : (timeMod s f).freeCount = s.freeCount := setTime_freeCount s _
@[simp] theorem timeMod_chipnum (f : Time → Time) : (timeMod s f).chipnum = s.chipnum := setTime_chipnum s _
@[simp] theorem timeMod_power (f : Time → Time) : (timeMod s f).power = s.power := setTime_power s _
@[simp] theorem timeMod_doms (f : Time → Time) : (timeMod s f).doms = s.doms := setTime_doms s _
@[simp] theorem timeMod_ports (f : Time → Time) : (timeMod s f).ports = s.ports := setTime_ports s _
@[simp] theorem timeMod_cfg (f : Time → Time) : (timeMod s f).cfg = s.cfg := setTime_cfg s _
@[simp] theorem timeMod_mesh (f : Time → Time) : (timeMod s f).mesh = s.mesh := setTime_mesh s _
@[simp] theorem timeMod_ring (f : Time → Time) : (timeMod s f).ring = s.ring := setTime_ring s _
@[simp] theorem timeMod_sys (f : Time → Time) : (timeMod s f).sys = s.sys := setTime_sys s _
@[simp] theorem timeMod_bobs (f : Time → Time) : (timeMod s f).bobs = s.bobs := setTime_bobs s _
@[simp] theorem timeMod_host (f : Time → Time) : (timeMod s f).host = s.host := setTime_host s _
@[simp] theorem timeMod_time (f : Time → Time) : (timeMod s f).time = f s.time := rfl
@[simp] theorem timeMod_jrn (f : Time → Time) : (timeMod s f).jrn = s.jrn := setTime_jrn s _
@[simp] theorem timeMod_faults (f : Time → Time) : (timeMod s f).faults = s.faults := setTime_faults s _
@[simp] theorem timeMod_cnt (f : Time → Time) : (timeMod s f).cnt = s.cnt := setTime_cnt s _
@[simp] theorem timeMod_tap (f : Time → Time) : (timeMod s f).tap = s.tap := setTime_tap s _

@[simp] theorem jrnMod_pending (f : Journal → Journal) : (jrnMod s f).pending = s.pending := setJrn_pending s _
@[simp] theorem jrnMod_freeCount (f : Journal → Journal) : (jrnMod s f).freeCount = s.freeCount := setJrn_freeCount s _
@[simp] theorem jrnMod_chipnum (f : Journal → Journal) : (jrnMod s f).chipnum = s.chipnum := setJrn_chipnum s _
@[simp] theorem jrnMod_power (f : Journal → Journal) : (jrnMod s f).power = s.power := setJrn_power s _
@[simp] theorem jrnMod_doms (f : Journal → Journal) : (jrnMod s f).doms = s.doms := setJrn_doms s _
@[simp] theorem jrnMod_ports (f : Journal → Journal) : (jrnMod s f).ports = s.ports := setJrn_ports s _
@[simp] theorem jrnMod_cfg (f : Journal → Journal) : (jrnMod s f).cfg = s.cfg := setJrn_cfg s _
@[simp] theorem jrnMod_mesh (f : Journal → Journal) : (jrnMod s f).mesh = s.mesh := setJrn_mesh s _
@[simp] theorem jrnMod_ring (f : Journal → Journal) : (jrnMod s f).ring = s.ring := setJrn_ring s _
@[simp] theorem jrnMod_sys (f : Journal → Journal) : (jrnMod s f).sys = s.sys := setJrn_sys s _
@[simp] theorem jrnMod_bobs (f : Journal → Journal) : (jrnMod s f).bobs = s.bobs := setJrn_bobs s _
@[simp] theorem jrnMod_host (f : Journal → Journal) : (jrnMod s f).host = s.host := setJrn_host s _
@[simp] theorem jrnMod_time (f : Journal → Journal) : (jrnMod s f).time = s.time := setJrn_time s _
@[simp] theorem jrnMod_jrn (f : Journal → Journal) : (jrnMod s f).jrn = f s.jrn := rfl
@[simp] theorem jrnMod_faults (f : Journal → Journal) : (jrnMod s f).faults = s.faults := setJrn_faults s _
@[simp] theorem jrnMod_cnt (f : Journal → Journal) : (jrnMod s f).cnt = s.cnt := setJrn_cnt s _
@[simp] theorem jrnMod_tap (f : Journal → Journal) : (jrnMod s f).tap = s.tap := setJrn_tap s _

@[simp] theorem cntMod_pending (f : Counters → Counters) : (cntMod s f).pending = s.pending := setCnt_pending s _
@[simp] theorem cntMod_freeCount (f : Counters → Counters) : (cntMod s f).freeCount = s.freeCount := setCnt_freeCount s _
@[simp] theorem cntMod_chipnum (f : Counters → Counters) : (cntMod s f).chipnum = s.chipnum := setCnt_chipnum s _
@[simp] theorem cntMod_power (f : Counters → Counters) : (cntMod s f).power = s.power := setCnt_power s _
@[simp] theorem cntMod_doms (f : Counters → Counters) : (cntMod s f).doms = s.doms := setCnt_doms s _
@[simp] theorem cntMod_ports (f : Counters → Counters) : (cntMod s f).ports = s.ports := setCnt_ports s _
@[simp] theorem cntMod_cfg (f : Counters → Counters) : (cntMod s f).cfg = s.cfg := setCnt_cfg s _
@[simp] theorem cntMod_mesh (f : Counters → Counters) : (cntMod s f).mesh = s.mesh := setCnt_mesh s _
@[simp] theorem cntMod_ring (f : Counters → Counters) : (cntMod s f).ring = s.ring := setCnt_ring s _
@[simp] theorem cntMod_sys (f : Counters → Counters) : (cntMod s f).sys = s.sys := setCnt_sys s _
@[simp] theorem cntMod_bobs (f : Counters → Counters) : (cntMod s f).bobs = s.bobs := setCnt_bobs s _
@[simp] theorem cntMod_host (f : Counters → Counters) : (cntMod s f).host = s.host := setCnt_host s _
@[simp] theorem cntMod_time (f : Counters → Counters) : (cntMod s f).time = s.time := setCnt_time s _
@[simp] theorem cntMod_jrn (f : Counters → Counters) : (cntMod s f).jrn = s.jrn := setCnt_jrn s _
@[simp] theorem cntMod_faults (f : Counters → Counters) : (cntMod s f).faults = s.faults := setCnt_faults s _
@[simp] theorem cntMod_cnt (f : Counters → Counters) : (cntMod s f).cnt = f s.cnt := rfl
@[simp] theorem cntMod_tap (f : Counters → Counters) : (cntMod s f).tap = s.tap := setCnt_tap s _

@[simp] theorem tapMod_pending (f : Tap → Tap) : (tapMod s f).pending = s.pending := setTap_pending s _
@[simp] theorem tapMod_freeCount (f : Tap → Tap) : (tapMod s f).freeCount = s.freeCount := setTap_freeCount s _
@[simp] theorem tapMod_chipnum (f : Tap → Tap) : (tapMod s f).chipnum = s.chipnum := setTap_chipnum s _
@[simp] theorem tapMod_power (f : Tap → Tap) : (tapMod s f).power = s.power := setTap_power s _
@[simp] theorem tapMod_doms (f : Tap → Tap) : (tapMod s f).doms = s.doms := setTap_doms s _
@[simp] theorem tapMod_ports (f : Tap → Tap) : (tapMod s f).ports = s.ports := setTap_ports s _
@[simp] theorem tapMod_cfg (f : Tap → Tap) : (tapMod s f).cfg = s.cfg := setTap_cfg s _
@[simp] theorem tapMod_mesh (f : Tap → Tap) : (tapMod s f).mesh = s.mesh := setTap_mesh s _
@[simp] theorem tapMod_ring (f : Tap → Tap) : (tapMod s f).ring = s.ring := setTap_ring s _
@[simp] theorem tapMod_sys (f : Tap → Tap) : (tapMod s f).sys = s.sys := setTap_sys s _
@[simp] theorem tapMod_bobs (f : Tap → Tap) : (tapMod s f).bobs = s.bobs := setTap_bobs s _
@[simp] theorem tapMod_host (f : Tap → Tap) : (tapMod s f).host = s.host := setTap_host s _
@[simp] theorem tapMod_time (f : Tap → Tap) : (tapMod s f).time = s.time := setTap_time s _
@[simp] theorem tapMod_jrn (f : Tap → Tap) : (tapMod s f).jrn = s.jrn := setTap_jrn s _
@[simp] theorem tapMod_faults (f : Tap → Tap) : (tapMod s f).faults = s.faults := setTap_faults s _
@[simp] theorem tapMod_cnt (f : Tap → Tap) : (tapMod s f).cnt = s.cnt := setTap_cnt s _
@[simp] theorem tapMod_tap (f : Tap → Tap) : (tapMod s f).tap = f s.tap := rfl

end Sys2Proof.Machine
end

