-- ==== Sys2Proof/Laws/Shape.lean ====
section
/-!
SUPPORT. What the shared operations leave of the state: one lemma each, which says once everything the operation can change.
-/
namespace Sys2Proof.Machine

variable {s t u : State}

/-! ## Events and counters -/

theorem CountsOnly.refl (s : State) : CountsOnly s s := rfl

theorem CountsOnly.trans (h : CountsOnly s t) (g : CountsOnly t u) : CountsOnly s u := by
  unfold CountsOnly at *; rw [g, h]

theorem raiseEvent_shape (s : State) (k : Nat) : CountsOnly s (raiseEvent s k) := by
  unfold raiseEvent; split <;> rfl

theorem setCval_shape (s : State) (g : Nat) (v : Word) : CountsOnly s (setCval s g v) := rfl
theorem setCovf_shape (s : State) (g : Nat) (v : Bool) : CountsOnly s (setCovf s g v) := rfl

theorem raiseOvf_shape (s : State) (g : Nat) : CountsOnly s (raiseOvf s g) := by
  unfold raiseOvf; split
  · rfl
  · exact (setCovf_shape s g true).trans (raiseEvent_shape _ _)

theorem stepCounter_shape (s : State) (b : Blk) (k : Nat) : CountsOnly s (stepCounter s b k) := by
  unfold stepCounter; dsimp only
  split
  · exact setCval_shape _ _ _
  · split
    · split
      · exact (setCval_shape _ _ _).trans (setCval_shape _ _ _)
      · exact ((setCval_shape _ _ _).trans (setCval_shape _ _ _)).trans (raiseOvf_shape _ _)
    · exact (setCval_shape _ _ _).trans (raiseOvf_shape _ _)

theorem CountsOnly.foldl {α : Type} {f : State → α → State} (l : List α) (h : CountsOnly s t)
    (hf : ∀ u x, CountsOnly u (f u x)) : CountsOnly s (l.foldl f t) := by
  induction l generalizing t with
  | nil => exact h
  | cons x l ih => exact ih (h.trans (hf t x))

/-- R374 to R385: counting an event changes the counters and the COUNTER event alone. -/
theorem bump_shape (s : State) (b : Blk) (c : Nat) : CountsOnly s (bump s b c) := by
  unfold bump; split
  · rfl
  · refine CountsOnly.foldl _ rfl fun u k => ?_
    split
    · exact stepCounter_shape u b k
    · rfl
theorem CountsOnly.freeCount (h : CountsOnly s t) : t.freeCount = s.freeCount := by rw [h]
theorem CountsOnly.chipnum (h : CountsOnly s t) : t.chipnum = s.chipnum := by rw [h]
theorem CountsOnly.power (h : CountsOnly s t) : t.power = s.power := by rw [h]
theorem CountsOnly.doms (h : CountsOnly s t) : t.doms = s.doms := by rw [h]
theorem CountsOnly.ports (h : CountsOnly s t) : t.ports = s.ports := by rw [h]
theorem CountsOnly.cfg (h : CountsOnly s t) : t.cfg = s.cfg := by rw [h]
theorem CountsOnly.mesh (h : CountsOnly s t) : t.mesh = s.mesh := by rw [h]
theorem CountsOnly.ring (h : CountsOnly s t) : t.ring = s.ring := by rw [h]
theorem CountsOnly.bobs (h : CountsOnly s t) : t.bobs = s.bobs := by rw [h]
theorem CountsOnly.host (h : CountsOnly s t) : t.host = s.host := by rw [h]
theorem CountsOnly.time (h : CountsOnly s t) : t.time = s.time := by rw [h]
theorem CountsOnly.jrn (h : CountsOnly s t) : t.jrn = s.jrn := by rw [h]
theorem CountsOnly.faults (h : CountsOnly s t) : t.faults = s.faults := by rw [h]
theorem CountsOnly.tap (h : CountsOnly s t) : t.tap = s.tap := by rw [h]
theorem CountsOnly.pending (h : CountsOnly s t) : t.pending = s.pending := by rw [h]
end Sys2Proof.Machine
end

