-- ==== Sys2Proof/Laws/Table.lean ====
section
/-!
SUPPORT. The laws of sparse tables: a read after a write, and that every operation keeps the canonical form.
-/
namespace Sys2Proof.Machine

variable {α : Type}

theorem tget_tput_same (d : Nat → α) (m : Table α) (k : Nat) (v : α) : tget d (tput m k v) k = v := by
  induction m with
  | nil => simp [tput, tget]
  | cons e t ih =>
    obtain ⟨j, w⟩ := e
    simp only [tput]
    split
    · simp [tget]
    · split
      · simp [tget]
      · rename_i h; simp [tget, h, ih]

theorem tget_tput_ne (d : Nat → α) (m : Table α) (k j : Nat) (v : α) (h : j ≠ k) : tget d (tput m k v) j = tget d m j := by
  induction m with
  | nil => simp [tput, tget, h]
  | cons e t ih =>
    obtain ⟨i, w⟩ := e
    simp only [tput]
    split
    · simp [tget, h]
    · split
      · rename_i hk; subst hk; simp [tget, h]
      · simp only [tget]; split <;> simp_all

theorem tget_terase_same (d : Nat → α) (m : Table α) (k : Nat) : tget d (terase m k) k = d k := by
  induction m with
  | nil => simp [terase, tget]
  | cons e t ih =>
    obtain ⟨j, w⟩ := e
    simp only [terase, List.filter] at ih ⊢
    split
    · rename_i h; have : ¬ k = j := fun hk => by simp [hk] at h
      simp [tget, this, ih]
    · exact ih

theorem tget_terase_ne (d : Nat → α) (m : Table α) (k j : Nat) (h : j ≠ k) : tget d (terase m k) j = tget d m j := by
  induction m with
  | nil => simp [terase, tget]
  | cons e t ih =>
    obtain ⟨i, w⟩ := e
    simp only [terase, List.filter] at ih ⊢
    split
    · simp only [tget]; split <;> simp_all
    · rename_i hb; have : i = k := by simpa using hb
      simp [tget, ih, this, h]

/-- A read after a write to the same key gives the value written. -/
@[simp] theorem tget_tset_same [DecidableEq α] (d : Nat → α) (m : Table α) (k : Nat) (v : α) : tget d (tset d m k v) k = v := by
  unfold tset; split
  · rename_i h; rw [tget_terase_same, h]
  · exact tget_tput_same d m k v

/-- A write leaves every other key alone. -/
theorem tget_tset_ne [DecidableEq α] (d : Nat → α) (m : Table α) (k j : Nat) (v : α) (h : j ≠ k) :
    tget d (tset d m k v) j = tget d m j := by
  unfold tset; split
  · exact tget_terase_ne d m k j h
  · exact tget_tput_ne d m k j v h

theorem tget_tset [DecidableEq α] (d : Nat → α) (m : Table α) (k j : Nat) (v : α) :
    tget d (tset d m k v) j = if j = k then v else tget d m j := by
  split
  · rename_i h; subst h; simp
  · rename_i h; exact tget_tset_ne d m k j v h

@[simp] theorem twf_nil [DecidableEq α] (d : Nat → α) : twf d ([] : Table α) = true := rfl

/-- Dropping entries keeps the form. -/
theorem twf_filter [DecidableEq α] (d : Nat → α) (m : Table α) (p : Nat × α → Bool) (h : twf d m = true) :
    twf d (m.filter p) = true := by
  induction m with
  | nil => simp
  | cons e t ih =>
    obtain ⟨k, v⟩ := e
    simp only [twf, Bool.and_eq_true, decide_eq_true_eq, List.all_eq_true] at h
    obtain ⟨⟨h1, h2⟩, h3⟩ := h
    simp only [List.filter]
    split
    · simp only [twf, Bool.and_eq_true, decide_eq_true_eq, List.all_eq_true]
      exact ⟨⟨h1, fun x hx => h2 x (List.mem_filter.1 hx).1⟩, ih h3⟩
    · exact ih h3

theorem mem_tput (m : Table α) (k : Nat) (v : α) (e : Nat × α) (h : e ∈ tput m k v) : e = (k, v) ∨ e ∈ m := by
  induction m with
  | nil => simpa [tput] using h
  | cons x t ih =>
    obtain ⟨j, w⟩ := x
    simp only [tput] at h
    split at h
    · simpa using h
    · split at h
      · rename_i hk; subst hk
        rcases List.mem_cons.1 h with h | h
        · exact Or.inl h
        · exact Or.inr (List.mem_cons_of_mem _ h)
      · rcases List.mem_cons.1 h with h | h
        · exact Or.inr (by simp [h])
        · rcases ih h with h | h
          · exact Or.inl h
          · exact Or.inr (List.mem_cons_of_mem _ h)

theorem twf_tput [DecidableEq α] (d : Nat → α) (m : Table α) (k : Nat) (v : α) (hv : v ≠ d k) (h : twf d m = true) :
    twf d (tput m k v) = true := by
  induction m with
  | nil => simp [tput, twf, hv]
  | cons e t ih =>
    obtain ⟨j, w⟩ := e
    have h' := h
    simp only [twf, Bool.and_eq_true, decide_eq_true_eq, List.all_eq_true] at h
    obtain ⟨⟨h1, h2⟩, h3⟩ := h
    simp only [tput]
    split
    · rename_i hk
      simp only [twf, Bool.and_eq_true, decide_eq_true_eq, List.all_eq_true] at h' ⊢
      refine ⟨⟨hv, ?_⟩, h'⟩
      intro x hx
      rcases List.mem_cons.1 hx with rfl | hx
      · exact hk
      · exact Nat.lt_trans hk (h2 x hx)
    · split
      · rename_i hk; subst hk
        simp only [twf, Bool.and_eq_true, decide_eq_true_eq, List.all_eq_true]
        exact ⟨⟨hv, h2⟩, h3⟩
      · rename_i hn he
        simp only [twf, Bool.and_eq_true, decide_eq_true_eq, List.all_eq_true]
        refine ⟨⟨h1, ?_⟩, ih h3⟩
        intro x hx
        rcases mem_tput t k v x hx with rfl | hx
        · show j < k; omega
        · exact h2 x hx

/-- A write keeps the canonical form. -/
theorem twf_tset [DecidableEq α] (d : Nat → α) (m : Table α) (k : Nat) (v : α) (h : twf d m = true) : twf d (tset d m k v) = true := by
  unfold tset; split
  · exact twf_filter d m _ h
  · rename_i hv; exact twf_tput d m k v hv h

theorem tget_filterKey {α : Type} (d : Nat → α) (m : Table α) (f : Nat → Bool) (k : Nat) :
    tget d (m.filter (fun e => f e.1)) k = if f k then tget d m k else d k := by
  induction m with
  | nil => simp [tget]
  | cons e m ih =>
    obtain ⟨j, v⟩ := e
    by_cases hj : f j = true
    · rw [List.filter_cons_of_pos (by simpa using hj)]
      simp only [tget]
      by_cases hk : k = j
      · subst hk; simp [hj]
      · simp only [hk, if_false]; exact ih
    · rw [List.filter_cons_of_neg (by simpa using hj), ih]
      by_cases hk : k = j
      · subst hk; simp [hj]
      · simp [tget, hk]


end Sys2Proof.Machine
end

