-- ==== Sys2Proof/Laws/Reads.lean ====
section
/-!
SUPPORT. Reading a table after an update of it: what was written, and everything else as before.
-/
namespace Sys2Proof.Machine

variable (s : State)

/-! ## Ports, domains, bobbins, fault records, configuration words -/

@[simp] theorem portGet_portSet_same (n : Nat) (p : PortSt) : portGet (portSet s n p) n = p := tget_tset_same _ _ _ _
theorem portGet_portSet_ne (n m : Nat) (p : PortSt) (h : m ≠ n) : portGet (portSet s n p) m = portGet s m := tget_tset_ne _ _ _ _ _ h
@[simp] theorem portGet_portMod_same (n : Nat) (f : PortSt → PortSt) : portGet (portMod s n f) n = f (portGet s n) := tget_tset_same _ _ _ _
theorem portGet_portMod_ne (n m : Nat) (f : PortSt → PortSt) (h : m ≠ n) : portGet (portMod s n f) m = portGet s m := tget_tset_ne _ _ _ _ _ h

@[simp] theorem domGet_domSet_same (d : Nat) (x : Dom) : domGet (domSet s d x) d = x := tget_tset_same _ _ _ _
theorem domGet_domSet_ne (d e : Nat) (x : Dom) (h : e ≠ d) : domGet (domSet s d x) e = domGet s e := tget_tset_ne _ _ _ _ _ h
@[simp] theorem domGet_domMod_same (d : Nat) (f : Dom → Dom) : domGet (domMod s d f) d = f (domGet s d) := tget_tset_same _ _ _ _
theorem domGet_domMod_ne (d e : Nat) (f : Dom → Dom) (h : e ≠ d) : domGet (domMod s d f) e = domGet s e := tget_tset_ne _ _ _ _ _ h
theorem domGet_domMod (s : State) (d e : Nat) (f : Dom → Dom) : domGet (domMod s d f) e = if e = d then f (domGet s d) else domGet s e := by
  by_cases h : e = d
  · subst h; rw [if_pos rfl, domGet_domMod_same]
  · rw [if_neg h, domGet_domMod_ne s d e f h]

@[simp] theorem bobGet_bobSet_same (b : Nat) (x : Bobbin) : bobGet (bobSet s b x) b = x := tget_tset_same _ _ _ _
theorem bobGet_bobSet_ne (b c : Nat) (x : Bobbin) (h : c ≠ b) : bobGet (bobSet s b x) c = bobGet s c := tget_tset_ne _ _ _ _ _ h
@[simp] theorem bobGet_bobMod_same (b : Nat) (f : Bobbin → Bobbin) : bobGet (bobMod s b f) b = f (bobGet s b) := tget_tset_same _ _ _ _
theorem bobGet_bobMod_ne (b c : Nat) (f : Bobbin → Bobbin) (h : c ≠ b) : bobGet (bobMod s b f) c = bobGet s c := tget_tset_ne _ _ _ _ _ h

@[simp] theorem faultGet_faultSet_same (k : Nat) (x : FaultRec) : faultGet (faultSet s k x) k = x := tget_tset_same _ _ _ _
theorem faultGet_faultSet_ne (k j : Nat) (x : FaultRec) (h : j ≠ k) : faultGet (faultSet s k x) j = faultGet s j := tget_tset_ne _ _ _ _ _ h

@[simp] theorem cfgGet_cfgSet_same (b i : Nat) (v : Word) : cfgGet (cfgSet s b i v) b i = v := tget_tset_same _ _ _ _
theorem cfgGet_cfgSet_ne (b i c j : Nat) (v : Word) (h : cfgKey c j ≠ cfgKey b i) : cfgGet (cfgSet s b i v) c j = cfgGet s c j :=
  tget_tset_ne _ _ _ _ _ h

/-! ## The mesh -/

@[simp] theorem nodeGet_nodeSet_same (m : BitVec 7) (n : Net) (x : NodeQ) : nodeGet (nodeSet s m n x) m n = x := tget_tset_same _ _ _ _
@[simp] theorem nodeGet_nodeMod_same (m : BitVec 7) (n : Net) (f : NodeQ → NodeQ) : nodeGet (nodeMod s m n f) m n = f (nodeGet s m n) :=
  tget_tset_same _ _ _ _

theorem netIx_inj {a b : Net} (h : netIx a = netIx b) : a = b := by cases a <;> cases b <;> first | rfl | (exact absurd h (by decide))
theorem dirIx_inj {a b : Dir} (h : dirIx a = dirIx b) : a = b := by cases a <;> cases b <;> first | rfl | (exact absurd h (by decide))
theorem netIx_lt (a : Net) : netIx a < 4 := by cases a <;> decide
theorem dirIx_lt (a : Dir) : dirIx a < 5 := by cases a <;> decide

theorem nodeKey_inj {m k : BitVec 7} {a b : Net} (h : nodeKey m a = nodeKey k b) : m = k ∧ a = b := by
  have ha := netIx_lt a
  have hb := netIx_lt b
  unfold nodeKey at h
  refine ⟨BitVec.eq_of_toNat_eq (by omega), netIx_inj (by omega)⟩

theorem nodeGet_nodeSet_ne (m k : BitVec 7) (a b : Net) (x : NodeQ) (h : ¬(k = m ∧ b = a)) :
    nodeGet (nodeSet s m a x) k b = nodeGet s k b := tget_tset_ne _ _ _ _ _ (fun e => h (nodeKey_inj e))
theorem nodeGet_nodeMod_ne (m k : BitVec 7) (a b : Net) (f : NodeQ → NodeQ) (h : ¬(k = m ∧ b = a)) :
    nodeGet (nodeMod s m a f) k b = nodeGet s k b := nodeGet_nodeSet_ne s m k a b _ h

theorem rinKey_inj {a b : Net} {r q : Fin 64} {d e : Dir} (h : rinKey a r.val d = rinKey b q.val e) : a = b ∧ r = q ∧ d = e := by
  have := dirIx_lt d
  have := dirIx_lt e
  have := r.isLt
  have := q.isLt
  unfold rinKey at h
  refine ⟨netIx_inj (by omega), Fin.ext (by omega), dirIx_inj (by omega)⟩

@[simp] theorem rinGet_rinSet_same (n : Net) (r : Nat) (d : Dir) (x : RIn) : rinGet (rinSet s n r d x) n r d = x := tget_tset_same _ _ _ _
theorem rinGet_rinSet_ne (n m : Net) (r q : Fin 64) (d e : Dir) (x : RIn) (h : ¬(m = n ∧ q = r ∧ e = d)) :
    rinGet (rinSet s n r.val d x) m q.val e = rinGet s m q.val e := tget_tset_ne _ _ _ _ _ (fun k => h (rinKey_inj k))

theorem arbIx_lt (a : ArbName) : arbIx a < 6 := by cases a with | out d => have := dirIx_lt d; exact Nat.lt_succ_of_lt this | localIn => decide
theorem arbIx_inj {a b : ArbName} (h : arbIx a = arbIx b) : a = b := by
  cases a with
  | out d =>
    cases b with
    | out e => exact congrArg _ (dirIx_inj h)
    | localIn => have := dirIx_lt d; exact absurd h (by show dirIx d ≠ 5; omega)
  | localIn =>
    cases b with
    | out e => have := dirIx_lt e; exact absurd h (by show 5 ≠ dirIx e; omega)
    | localIn => rfl

theorem arbKey_inj {a b : Net} {r q : Fin 64} {d e : ArbName} (h : arbKey a r.val d = arbKey b q.val e) : a = b ∧ r = q ∧ d = e := by
  have := arbIx_lt d
  have := arbIx_lt e
  have := r.isLt
  have := q.isLt
  unfold arbKey at h
  refine ⟨netIx_inj (by omega), Fin.ext (by omega), arbIx_inj (by omega)⟩

@[simp] theorem arbGet_arbSet_same (n : Net) (r : Nat) (a : ArbName) (x : Arb) : arbGet (arbSet s n r a x) n r a = x := tget_tset_same _ _ _ _
theorem arbGet_arbSet_ne (n m : Net) (r q : Fin 64) (d e : ArbName) (x : Arb) (h : ¬(m = n ∧ q = r ∧ e = d)) :
    arbGet (arbSet s n r.val d x) m q.val e = arbGet s m q.val e := tget_tset_ne _ _ _ _ _ (fun k => h (arbKey_inj k))

@[simp] theorem rinGet_arbSet (n m : Net) (r q : Nat) (a : ArbName) (x : Arb) (d : Dir) : rinGet (arbSet s n r a x) m q d = rinGet s m q d := rfl
@[simp] theorem arbGet_rinSet (n m : Net) (r q : Nat) (a : ArbName) (x : RIn) (d : Dir) : arbGet (rinSet s n r d x) m q a = arbGet s m q a := rfl
@[simp] theorem nodeGet_rinSet (n m : Net) (r : Nat) (x : RIn) (d : Dir) (k : BitVec 7) : nodeGet (rinSet s n r d x) k m = nodeGet s k m := rfl
@[simp] theorem nodeGet_arbSet (n m : Net) (r : Nat) (x : Arb) (a : ArbName) (k : BitVec 7) : nodeGet (arbSet s n r a x) k m = nodeGet s k m := rfl
@[simp] theorem rinGet_nodeSet (n m : Net) (q : Nat) (x : NodeQ) (d : Dir) (k : BitVec 7) : rinGet (nodeSet s k n x) m q d = rinGet s m q d := rfl
@[simp] theorem rinGet_nodeMod (n m : Net) (q : Nat) (f : NodeQ → NodeQ) (d : Dir) (k : BitVec 7) : rinGet (nodeMod s k n f) m q d = rinGet s m q d := rfl
@[simp] theorem arbGet_nodeMod (n m : Net) (q : Nat) (f : NodeQ → NodeQ) (a : ArbName) (k : BitVec 7) : arbGet (nodeMod s k n f) m q a = arbGet s m q a := rfl
@[simp] theorem delayGet_delaySet_same (r : Nat) (x : Delay) : delayGet (delaySet s r x) r = x := tget_tset_same _ _ _ _
@[simp] theorem rinGet_delaySet (m : Net) (r q : Nat) (d : Dir) (x : Delay) : rinGet (delaySet s r x) m q d = rinGet s m q d := rfl

end Sys2Proof.Machine
end

