-- ==== Sys2Proof/Laws/Mesh.lean ====
section
/-!
SUPPORT. What the mesh operations leave of the state: frames of units, heads, grants and handshakes.
-/
namespace Sys2Proof.Machine

variable {s t u : State}

/-! ## Frames -/

theorem CountsOnly.rinGet (h : CountsOnly s t) (m : Net) (q : Nat) (e : Dir) : Machine.rinGet t m q e = Machine.rinGet s m q e := by
  unfold Machine.rinGet; rw [h.mesh]
theorem CountsOnly.nodeGet (h : CountsOnly s t) (m : BitVec 7) (n : Net) : Machine.nodeGet t m n = Machine.nodeGet s m n := by
  unfold Machine.nodeGet; rw [h.mesh]
theorem CountsOnly.arbGet (h : CountsOnly s t) (m : Net) (q : Nat) (e : ArbName) : Machine.arbGet t m q e = Machine.arbGet s m q e := by
  unfold Machine.arbGet; rw [h.mesh]
theorem CountsOnly.portGet (h : CountsOnly s t) (n : Nat) : Machine.portGet t n = Machine.portGet s n := by
  unfold Machine.portGet; rw [h.ports]
theorem CountsOnly.toMesh (h : CountsOnly s t) : MeshOnly s t := by unfold MeshOnly; unfold CountsOnly at h; rw [h]
theorem CountsOnly.toPorts (h : CountsOnly s t) : PortsOnly s t := by unfold PortsOnly; unfold CountsOnly at h; rw [h]
theorem MeshOnly.refl (s : State) : MeshOnly s s := rfl
theorem MeshOnly.trans (h : MeshOnly s t) (g : MeshOnly t u) : MeshOnly s u := by unfold MeshOnly at *; rw [g, h]
theorem MeshOnly.toPorts (h : MeshOnly s t) : PortsOnly s t := by unfold PortsOnly; unfold MeshOnly at h; rw [h]
theorem PortsOnly.refl (s : State) : PortsOnly s s := rfl
theorem PortsOnly.trans (h : PortsOnly s t) (g : PortsOnly t u) : PortsOnly s u := by unfold PortsOnly at *; rw [g, h]
theorem rinSet_frame (s : State) (n : Net) (r : Nat) (d : Dir) (x : RIn) : MeshOnly s (rinSet s n r d x) := rfl
theorem arbSet_frame (s : State) (n : Net) (r : Nat) (d : ArbName) (x : Arb) : MeshOnly s (arbSet s n r d x) := rfl
theorem delaySet_frame (s : State) (r : Nat) (x : Delay) : MeshOnly s (delaySet s r x) := rfl
theorem nodeMod_frame (s : State) (n : BitVec 7) (m : Net) (f : NodeQ → NodeQ) : MeshOnly s (nodeMod s n m f) := rfl
theorem nodeSet_frame (s : State) (n : BitVec 7) (m : Net) (x : NodeQ) : MeshOnly s (nodeSet s n m x) := rfl
theorem sendPkt_frame (s : State) (n : BitVec 7) (m : Net) (p : Pkt) : MeshOnly s (sendPkt s n m p) := rfl
theorem respond_frame (s : State) (q : Pkt) (st : Status) (ds : List DataUnit) : MeshOnly s (respond s q st ds) := rfl
theorem portMod_frame (s : State) (n : Nat) (f : PortSt → PortSt) : PortsOnly s (portMod s n f) := rfl

theorem PortBecomes.counts {n : Nat} {p : PortSt} (h : PortBecomes s t n p) (c : CountsOnly t u) : PortBecomes s u n p :=
  ⟨by rw [c.portGet]; exact h.1, fun m hm => by rw [c.portGet]; exact h.2.1 m hm, by rw [c.mesh]; exact h.2.2.1, h.2.2.2.trans c.toPorts⟩
theorem PortBecomes.mod {n : Nat} {p : PortSt} (h : PortBecomes s t n p) (f : PortSt → PortSt) : PortBecomes s (portMod t n f) n (f p) :=
  ⟨by rw [portGet_portMod_same, h.1], fun m hm => by rw [portGet_portMod_ne _ _ _ _ hm]; exact h.2.1 m hm, h.2.2.1, h.2.2.2.trans rfl⟩
theorem PortBecomes.cfg {n : Nat} {p : PortSt} (h : PortBecomes s t n p) : t.cfg = s.cfg := by rw [h.2.2.2]
theorem postedAt_congr (h : t.cfg = s.cfg) (n : Nat) (a : Access) : postedAt t n a = postedAt s n a := by
  unfold postedAt windowFor window cfgGet; rw [h]
theorem PortBecomes.iteBump {n : Nat} {p : PortSt} (h : PortBecomes s t n p) (c : Prop) [Decidable c] (b : Blk) (k : Nat) :
    PortBecomes s (if c then bump t b k else t) n p := by
  split
  · exact h.counts (bump_shape _ _ _)
  · exact h
/-- R112: an access enters the intake; a posted write ends its bus cycle there. -/
theorem PortBecomes.intakePut {n : Nat} {p : PortSt} (h : PortBecomes s t n p) (a : Access) :
    PortBecomes s (Machine.intakePut t n a) n { p with
      intake := p.intake ++ [{ a with posted := postedAt s n a }]
      bus := if postedAt s n a then { phase := .ended, rdata := [], stat := .ok } else p.bus } := by
  unfold Machine.intakePut
  dsimp only
  rw [postedAt_congr h.cfg]
  refine PortBecomes.iteBump ?_ _ _ _
  exact h.mod _
theorem PortBecomes.refl (s : State) (n : Nat) : PortBecomes s s n (portGet s n) := ⟨rfl, fun _ _ => rfl, rfl, rfl⟩

/-- What a frame leaves open, by name. -/
theorem PortsOnly.open (h : PortsOnly s t) : ∃ ps m c e l, t = { s with ports := ps, mesh := m, cnt := c, sys := { s.sys with event := e, eventLate := l } } :=
  ⟨_, _, _, _, _, h⟩
theorem CountsOnly.open (h : CountsOnly s t) : ∃ c e l, t = { s with cnt := c, sys := { s.sys with event := e, eventLate := l } } :=
  ⟨_, _, _, h⟩

/-! ## Units -/

/-- A wire noise of zeros changes no unit. -/
theorem noise_zero (u : LinkUnit) :
    ({ d := u.d ^^^ (0 : BitVec 49).extractLsb' 0 48, p := xor u.p ((0 : BitVec 49).getLsbD 48) } : LinkUnit) = u := by
  cases u; simp

theorem neighbour_ne {r r2 : Fin 64} {out d2 : Dir} (h : neighbour r.val out = some (r2.val, d2)) : r2 ≠ r := by
  intro e; subst e
  have hr := r2.isLt
  unfold neighbour rX rY at h
  cases out <;> dsimp only at h <;> (try split at h) <;> simp only [Option.some.injEq, Prod.mk.injEq, reduceCtorEq] at h <;> omega

/-- Taking a unit out of a latch empties that latch alone. -/
theorem rinLeave_spec (s : State) (net : Net) (r : Fin 64) (d : Dir) (out : ArbName) :
    (rinGet (rinLeave s net r.val d out) net r.val d).latch = none ∧
    (∀ (m : Net) (q : Fin 64) (e : Dir), ¬(m = net ∧ q = r ∧ e = d) → rinGet (rinLeave s net r.val d out) m q.val e = rinGet s m q.val e) ∧
    (rinLeave s net r.val d out).mesh.nodes = s.mesh.nodes ∧ MeshOnly s (rinLeave s net r.val d out) := by
  unfold rinLeave; dsimp only; split
  · exact ⟨by simp, fun m q e h => by simp [rinGet_rinSet_ne _ _ _ _ _ _ _ _ h], rfl, rfl⟩
  · exact ⟨by simp, fun m q e h => by simp [rinGet_rinSet_ne _ _ _ _ _ _ _ _ h], rfl, rfl⟩

/-- A router's free input captures a sound unit of a packet that it does not absorb. -/
theorem routerTake_spec (s : State) (net : Net) (r : Fin 64) (d : Dir) (u : LinkUnit) (pg : Bool)
    (ha : (rinGet s net r.val d).absorb = none)
    (hl : (rinGet s net r.val d).left ≠ 0 ∨ (rinGet s net r.val d).discard = false ∨ utOf u.d = 1) (hg : unitGood u = true) :
    (rinGet (routerTake s net r.val d u pg) net r.val d).latch = some u ∧
    (∀ (m : Net) (q : Fin 64) (e : Dir), ¬(m = net ∧ q = r ∧ e = d) → rinGet (routerTake s net r.val d u pg) m q.val e = rinGet s m q.val e) ∧
    (routerTake s net r.val d u pg).mesh.nodes = s.mesh.nodes ∧ MeshOnly s (routerTake s net r.val d u pg) := by
  unfold routerTake
  simp only [hg, if_true, ha]
  have hb := bump_shape s (.router r.val) (routerEv net (inSide s net r.val d) kUNITIN)
  generalize bump s (.router r.val) (routerEv net (inSide s net r.val d) kUNITIN) = b at hb ⊢
  split
  · exact ⟨by simp, fun m q e h => by simp [rinGet_rinSet_ne _ _ _ _ _ _ _ _ h, hb.rinGet], by show b.mesh.nodes = _; rw [hb.mesh],
      hb.toMesh.trans (rinSet_frame ..)⟩
  · split
    · rename_i h1 h2
      rcases hl with h | h | h
      · exact absurd h (by simpa using h1)
      · exact absurd h2.1 (by simp [h])
      · exact absurd h h2.2
    · exact ⟨by simp, fun m q e h => by simp [rinGet_rinSet_ne _ _ _ _ _ _ _ _ h, hb.rinGet], by show b.mesh.nodes = _; rw [hb.mesh],
        hb.toMesh.trans (rinSet_frame ..)⟩

/-! ## Gateways leave the mesh's inputs alone -/

@[simp] theorem gwTx_mesh (s : State) (g : Ring) (ts : List (BitVec 17)) : (gwTx s g ts).mesh = s.mesh := gateMod_mesh ..
@[simp] theorem gwCtl_mesh (s : State) (g : Ring) (c : BitVec 3) (m : BitVec 4) (a : Byte) : (gwCtl s g c m a).mesh = s.mesh := by
  unfold gwCtl; split <;> simp
@[simp] theorem gwCredit_mesh (s : State) (g : Ring) (c : Nat) : (gwCredit s g c).mesh = s.mesh := gwCtl_mesh ..
@[simp] theorem bump_mesh (s : State) (b : Blk) (c : Nat) : (bump s b c).mesh = s.mesh := (bump_shape s b c).mesh

@[simp] theorem seamGrant_mesh (s : State) (g : Ring) (c : Nat) : (seamGrant s g c).mesh = s.mesh := by
  unfold seamGrant; dsimp only
  repeat' split
  all_goals first | rfl | exact gateMod_mesh ..

theorem seamSend_mesh {s t : State} {g : Ring} {c : Nat} (h : seamSend s g c = some t) : t.mesh = s.mesh := by
  unfold seamSend at h; dsimp only at h
  split at h
  · cases h
  · split at h
    · cases h
    · split at h
      · cases h
      · split at h <;> cases h <;> simp

theorem seamPump_mesh : ∀ (k : Nat) (s : State) (g : Ring), (seamPump k s g).mesh = s.mesh
  | 0, _, _ => rfl
  | k + 1, s, g => by
    unfold seamPump
    split
    · split
      · rename_i t h
        obtain ⟨c, -, hc⟩ := List.exists_of_findSome?_eq_some h
        rw [seamPump_mesh k t g, seamSend_mesh hc]
      · rfl
    · rfl

theorem gwTake_mesh (s : State) (g : Ring) (n : Net) (u : LinkUnit) : (gwTake s g n u).mesh = s.mesh := by
  unfold gwTake; dsimp only
  repeat' split
  all_goals simp [seamPump_mesh]

theorem meshFromSeam_ins (s : State) (g : Ring) (c : Nat) : (meshFromSeam s g c).mesh.ins = s.mesh.ins := by
  unfold meshFromSeam; dsimp only
  generalize sinGet (gateGet s g) (if c % 2 = 0 then c + 1 else c - 1) = y
  split
  · rfl
  · split
    · rfl
    · rw [gwCredit_mesh]; unfold nodeMod nodeSet; simp

theorem meshFromSeams_ins (s : State) (g : Ring) : (meshFromSeams s g).mesh.ins = s.mesh.ins := by
  unfold meshFromSeams
  have : ∀ (l : List Nat) (u : State), (l.foldl (fun t c => meshFromSeam t g c) u).mesh.ins = u.mesh.ins := by
    intro l; induction l with
    | nil => intro u; rfl
    | cons c l ih => intro u; exact (ih _).trans (meshFromSeam_ins u g c)
  exact this _ s

theorem watchPump_ins (s : State) (n : Nat) : (watchPump s n).mesh.ins = s.mesh.ins := by
  unfold watchPump; dsimp only
  repeat' split
  all_goals rfl

theorem rinGet_ins {s t : State} (h : t.mesh.ins = s.mesh.ins) (m : Net) (q : Nat) (e : Dir) : rinGet t m q e = rinGet s m q e := by
  unfold rinGet; rw [h]

end Sys2Proof.Machine
end

