-- ==== Sys2Proof/Laws/Calm.lean ====
section
/-!
SUPPORT. In a calm state nothing is left over for a command to take on: what follows every change changes nothing more.
-/
namespace Sys2Proof.Machine

variable {s t : State}

theorem upkeep_calm (h : s.calm) : upkeep s = s := by
  obtain ⟨h1, h2, h3, h4, h5, h6, h7⟩ := h
  have d : downCheck s = s := by unfold downCheck; rw [h4]
  have e : powerEval s = s := by
    unfold powerEval; dsimp only
    split
    · rfl
    · have h8 : ¬ s.power.code.toNat < 2 := by omega
      simp only [h1, if_neg h8]
  have f : patrolPump s = s := by unfold patrolPump; rw [h5]
  unfold upkeep
  rw [d, e, f]

theorem heldPump_calm (n : Nat) (h : s.sys.held = []) : heldPump n s = s := by
  cases n with
  | zero => rfl
  | succ n => unfold heldPump; rw [h]; rfl

theorem settle_calm (h : s.calm) : settle s = s := by
  unfold settle
  rw [upkeep_calm h]
  have e : portRstGo s = s := by unfold portRstGo; rw [h.2.2.2.2.2.1]
  rw [e, heldPump_calm _ h.2.2.2.2.2.2]

/-- Calm is a matter of the power state, the patrol, and two fields of SYS. -/
theorem calm_congr (hp : t.power = s.power) (ht : t.time.patrol = s.time.patrol) (hr : t.sys.portRst = s.sys.portRst)
    (hh : t.sys.held = s.sys.held) (h : s.calm) : t.calm := by
  obtain ⟨h1, h2, h3, h4, h5, h6, h7⟩ := h
  exact ⟨by rw [hp]; exact h1, by rw [hp]; exact h2, by rw [hp]; exact h3, by rw [hp]; exact h4, by rw [ht]; exact h5, by rw [hr]; exact h6,
    by rw [hh]; exact h7⟩

theorem PortsOnly.calm (g : PortsOnly s t) (h : s.calm) : t.calm :=
  calm_congr (by rw [g]) (by rw [g]) (by rw [g]) (by rw [g]) h

theorem MeshOnly.calm (g : MeshOnly s t) (h : s.calm) : t.calm := g.toPorts.calm h
theorem CountsOnly.calm (g : CountsOnly s t) (h : s.calm) : t.calm := g.toPorts.calm h

/-- The same for a chip that is up with nothing for powerEval to start. -/
theorem settle_awake (h : s.awake) (hp : powerEval s = s) : settle s = s := by
  obtain ⟨h1, h2, h3, h4, h5⟩ := h
  have d : downCheck s = s := by unfold downCheck; rw [h2]
  have f : patrolPump s = s := by unfold patrolPump; rw [h3]
  unfold settle upkeep
  rw [d, hp, f]
  have e : portRstGo s = s := by unfold portRstGo; rw [h4]
  rw [e, heldPump_calm _ h5]

theorem awake_calm (h : s.awake) (h1 : s.power.code = s.power.lvl) (h2 : 2 ≤ s.power.code.toNat) : s.calm :=
  ⟨h.1, h1, h2, h.2.1, h.2.2.1, h.2.2.2.1, h.2.2.2.2⟩

end Sys2Proof.Machine
end

