-- ==== Sys2Proof/Laws/Record.lean ====
section
/-!
SUPPORT. What journal entries and fault records leave of the state.
-/
namespace Sys2Proof.Machine

variable {s t u : State}

/-! ## Frames -/

theorem JournalOnly.refl (s : State) : JournalOnly s s := rfl
theorem JournalOnly.trans (h : JournalOnly s t) (g : JournalOnly t u) : JournalOnly s u := by unfold JournalOnly at *; rw [g, h]
theorem CountsOnly.toJournal (h : CountsOnly s t) : JournalOnly s t := by unfold JournalOnly; unfold CountsOnly at h; rw [h]
theorem RecordsOnly.refl (s : State) : RecordsOnly s s := rfl
theorem RecordsOnly.trans (h : RecordsOnly s t) (g : RecordsOnly t u) : RecordsOnly s u := by unfold RecordsOnly at *; rw [g, h]
theorem JournalOnly.toRecords (h : JournalOnly s t) : RecordsOnly s t := by unfold RecordsOnly; unfold JournalOnly at h; rw [h]
theorem CountsOnly.toRecords (h : CountsOnly s t) : RecordsOnly s t := h.toJournal.toRecords
theorem JournalOnly.open (h : JournalOnly s t) :
    ∃ j c e l, t = { s with jrn := j, cnt := c, sys := { s.sys with event := e, eventLate := l } } := ⟨_, _, _, _, h⟩
theorem RecordsOnly.open (h : RecordsOnly s t) :
    ∃ f j c e l, t = { s with faults := f, jrn := j, cnt := c, sys := { s.sys with event := e, eventLate := l } } := ⟨_, _, _, _, _, h⟩
theorem JournalOnly.calm (g : JournalOnly s t) (h : s.calm) : t.calm := by
  obtain ⟨_, _, _, _, rfl⟩ := g.open; exact calm_congr rfl rfl rfl rfl h
theorem RecordsOnly.calm (g : RecordsOnly s t) (h : s.calm) : t.calm := by
  obtain ⟨_, _, _, _, _, rfl⟩ := g.open; exact calm_congr rfl rfl rfl rfl h

/-! ## Entries -/

/-- R366: an entry enters staging; nothing else changes but the counters. -/
theorem stage_spec (s : State) (e : Entry) : JournalOnly s (stage s e) ∧ (stage s e).jrn.staging = s.jrn.staging ++ [e] := by
  unfold stage
  dsimp only
  generalize hj : jrnMod s (fun j => { j with staging := j.staging ++ [e], lastTs := some e.ts, newRun := false }) = s1
  have h1 : JournalOnly s s1 ∧ s1.jrn.staging = s.jrn.staging ++ [e] := by subst hj; exact ⟨rfl, rfl⟩
  have hb := bump_shape s1 .sys yJENTRY
  split
  · have hc := hb.trans (bump_shape (bump s1 .sys yJENTRY) .sys ySAMETICK)
    exact ⟨h1.1.trans hc.toJournal, by rw [hc.jrn]; exact h1.2⟩
  · exact ⟨h1.1.trans hb.toJournal, by rw [hb.jrn]; exact h1.2⟩

theorem jHw_shape (s : State) (k : BitVec 3) (tid : Half) (v : Word) (a : Bool) : JournalOnly s (jHw s k tid v a) := by
  unfold jHw
  split
  · split
    · exact (stage_spec _ _).1
    · rfl
  · rfl

theorem jHw_stages (k : BitVec 3) (tid : Half) (v : Word) (a : Bool) (hn : nvOn s = true) (hr : hwRoom s = true) :
    StagesOne s (jHw s k tid v a) k tid v := by
  unfold jHw
  rw [if_pos hr, if_pos hn]
  exact ⟨_, (stage_spec _ _).2, rfl, rfl, rfl, rfl⟩

theorem jHw_enters (k : BitVec 3) (tid : Half) (v : Word) (a : Bool) (hr : hwRoom s = true) : Enters s (jHw s k tid v a) k tid v := by
  unfold Enters
  by_cases hn : nvOn s = true
  · rw [if_pos hn]; exact jHw_stages k tid v a hn hr
  · rw [if_neg hn]
    unfold jHw; rw [if_pos hr, if_neg hn]
    exact ⟨mkEntry s k s.chipnum 0 tid v a true, rfl, rfl, rfl, rfl, rfl⟩
theorem Enters.congr {k : BitVec 3} {tid : Half} {v : Word} {t' : State} (h : t'.jrn = t.jrn) (e : Enters s t k tid v) : Enters s t' k tid v := by
  unfold Enters StagesOne at *; rw [h]; exact e

theorem jPut_shape (s : State) (k : BitVec 3) (c d : Byte) (tid : Half) (v : Word) : JournalOnly s (jPut s k c d tid v) := by
  unfold jPut
  split
  · exact (stage_spec _ _).1
  · rfl

theorem jPut_stages (k : BitVec 3) (c d : Byte) (tid : Half) (v : Word) (hn : nvOn s = true) : StagesOne s (jPut s k c d tid v) k tid v := by
  unfold jPut
  rw [if_pos hn]
  exact ⟨_, (stage_spec _ _).2, rfl, rfl, rfl, rfl⟩

theorem jOrigin_shape (s : State) (o : Origin) (tid : Half) (v : Word) : JournalOnly s (jOrigin s o tid v) := jPut_shape ..

theorem anchor_shape (s : State) (r : Nat) : JournalOnly s (anchor s r) := jHw_shape ..

/-- Counting leaves the journal as it is. -/
theorem StagesOne.counts {k : BitVec 3} {tid : Half} {v : Word} (h : StagesOne s t k tid v) (c : CountsOnly t u) : StagesOne s u k tid v := by
  obtain ⟨e, h1, h2⟩ := h
  exact ⟨e, by rw [c.jrn]; exact h1, h2⟩

theorem StagesOne.from {s0 : State} {k : BitVec 3} {tid : Half} {v : Word} (h : StagesOne s0 t k tid v)
    (hj : s0.jrn.staging = s.jrn.staging) (ht : s0.time.ts = s.time.ts) : StagesOne s t k tid v := by
  obtain ⟨e, h1, h2, h3⟩ := h
  exact ⟨e, by rw [h1, hj], by rw [h2, ht], h3⟩

/-! ## The ring's own words -/

theorem setRing_spec (s : State) (f : RingSt → RingSt) : (setRing s f).ring = f s.ring ∧ JournalOnly { s with ring := f s.ring } (setRing s f) := by
  have key : JournalOnly { s with ring := f s.ring } (setRing s f) := by
    unfold setRing
    dsimp only
    have hj : ∀ c : Prop, ∀ [Decidable c], JournalOnly { s with ring := f s.ring }
        (if c then jHw (ringMod s f) kHARDWARE (tidHost 0x29) ((ringstatWord (ringMod s f)).setWidth 32) false else ringMod s f) := by
      intro c _; split
      · exact jHw_shape _ _ _ _ _
      · rfl
    split
    · exact (hj _).trans (raiseEvent_shape _ _).toJournal
    · exact hj _
  exact ⟨by rw [key], key⟩

theorem clearCtl_spec (s : State) (l r : Bool) :
    (clearCtl s l r).ring = { s.ring with leaveBit := s.ring.leaveBit && !l, reform := s.ring.reform && !r } ∧
    JournalOnly { s with ring := (clearCtl s l r).ring } (clearCtl s l r) := by
  have key : JournalOnly { s with ring := { s.ring with leaveBit := s.ring.leaveBit && !l, reform := s.ring.reform && !r } } (clearCtl s l r) := by
    unfold clearCtl
    dsimp only
    split
    · rfl
    · exact jHw_shape _ _ _ _ _
  have e : (clearCtl s l r).ring = { s.ring with leaveBit := s.ring.leaveBit && !l, reform := s.ring.reform && !r } := by rw [key]
  exact ⟨e, by rw [e]; exact key⟩

/-! ## Fault records -/

/-- Counting and raising events clear no pending event. -/
theorem raiseEvent_keeps (s : State) (k j : Nat) (h : s.sys.event.getLsbD j = true) : (raiseEvent s k).sys.event.getLsbD j = true := by
  unfold raiseEvent; split
  · show (s.sys.event ||| (1 <<< k)).getLsbD j = true
    simp [h]
  · exact h

theorem raiseOvf_keeps (s : State) (g j : Nat) (h : s.sys.event.getLsbD j = true) : (raiseOvf s g).sys.event.getLsbD j = true := by
  unfold raiseOvf; split
  · exact h
  · exact raiseEvent_keeps _ _ _ h

theorem stepCounter_keeps (s : State) (b : Blk) (k j : Nat) (h : s.sys.event.getLsbD j = true) :
    (stepCounter s b k).sys.event.getLsbD j = true := by
  unfold stepCounter; dsimp only
  repeat' split
  all_goals first | exact h | exact raiseOvf_keeps _ _ _ h

theorem bump_keeps (s : State) (b : Blk) (c j : Nat) (h : s.sys.event.getLsbD j = true) : (bump s b c).sys.event.getLsbD j = true := by
  unfold bump; split
  · exact h
  · have : ∀ (l : List Nat) (u : State), u.sys.event.getLsbD j = true →
        (l.foldl (fun t k => if counts s b c k then stepCounter t b k else t) u).sys.event.getLsbD j = true := by
      intro l; induction l with
      | nil => exact fun u hu => hu
      | cons x l ih =>
        intro u hu
        rw [List.foldl_cons]
        apply ih
        split
        · exact stepCounter_keeps _ _ _ _ hu
        · exact hu
    exact this _ _ h

theorem raiseEvent_fault (s : State) : (raiseEvent s evFAULT).sys.event.getLsbD 0 = true := by
  unfold raiseEvent
  rw [if_pos (by simp [evFAULT])]
  show (s.sys.event ||| (1 <<< 0)).getLsbD 0 = true
  simp

theorem RecordsOnly.cfg (h : RecordsOnly s t) : t.cfg = s.cfg := by rw [h]
theorem JournalOnly.cfg (h : JournalOnly s t) : t.cfg = s.cfg := by rw [h]
theorem JournalOnly.faultGet (h : JournalOnly s t) (k : Nat) : Machine.faultGet t k = Machine.faultGet s k := by unfold Machine.faultGet; rw [h]
theorem CountsOnly.faultGet (h : CountsOnly s t) (k : Nat) : Machine.faultGet t k = Machine.faultGet s k := by unfold Machine.faultGet; rw [h]

/-- R346: what raising a fault does when its entry has room and no doorbell is armed. -/
theorem raiseFault_plain {src : Nat} {code : BitVec 5} (detail : Half) (h : FaultPlain s src code) :
    FaultRaised s (raiseFault s src code detail) src code detail := by
  obtain ⟨hroom, hb, hc⟩ := h
  unfold raiseFault faultApply
  dsimp only
  rw [if_pos hroom, if_neg (by rcases hc with h | h <;> simp [h])]
  generalize hR : ({ code := code, isNew := true, count := if (faultGet s src).count = 255 then 255 else (faultGet s src).count + 1 } : FaultRec) = R
  have g1 : RecordsOnly s (faultSet s src R) := rfl
  have g2 := jHw_shape (faultSet s src R) kHARDWARE (tidHost 0x24) (faultValue src code false detail) false
  have st2 := jHw_enters (s := faultSet s src R) kHARDWARE (tidHost 0x24) (faultValue src code false detail) false hroom
  generalize jHw (faultSet s src R) kHARDWARE (tidHost 0x24) (faultValue src code false detail) false = s2 at g2 st2
  have g3 := raiseEvent_shape s2 evFAULT
  have e3 := raiseEvent_fault s2
  generalize raiseEvent s2 evFAULT = s3 at g3 e3
  have hbell : faultBell s3 src = s3 := by
    unfold faultBell; dsimp only
    have : (faultdb s3).getLsbD 18 = false := by
      unfold faultdb cfgGet at hb ⊢; rw [g3.cfg, g2.cfg]; exact hb
    rw [this]; rfl
  rw [hbell]
  have g4 := bump_shape s3 .sys yFAULTS
  have e4 := bump_keeps s3 .sys yFAULTS 0 e3
  have hf : ∀ k, faultGet (bump s3 .sys yFAULTS) k = faultGet (faultSet s src R) k := fun k => by rw [g4.faultGet, g3.faultGet, g2.faultGet]
  refine ⟨by rw [hf, faultGet_faultSet_same, ← hR], fun k hk => by rw [hf, faultGet_faultSet_ne _ _ _ _ hk], ?_, e4,
    g1.trans (g2.toRecords.trans (g3.toRecords.trans g4.toRecords))⟩
  exact Enters.congr (by rw [g4.jrn, g3.jrn]) st2

/-- R346: a fault whose doorbell is not armed: its record, its entry, the FAULT event, and nothing else. -/
theorem raiseFault_spec (src : Nat) (code : BitVec 5) (detail : Half) (hn : nvOn s = true) (hr : s.jrn.staging.length < 72)
    (hb : (faultdb s).getLsbD 18 = false) (hc : code ≠ fLINKPAR ∨ (faultGet s src).isNew = false) :
    faultGet (raiseFault s src code detail) src =
      { code := code, isNew := true, count := if (faultGet s src).count = 255 then 255 else (faultGet s src).count + 1 } ∧
    (∀ k, k ≠ src → faultGet (raiseFault s src code detail) k = faultGet s k) ∧
    StagesOne s (raiseFault s src code detail) kHARDWARE (tidHost 0x24) (faultValue src code false detail) ∧
    (raiseFault s src code detail).sys.event.getLsbD 0 = true ∧ RecordsOnly s (raiseFault s src code detail) := by
  have hroom : hwRoom s = true := by unfold hwRoom; simp [hn, hr]
  unfold raiseFault faultApply
  dsimp only
  rw [if_pos hroom, if_neg (by rcases hc with h | h <;> simp [h])]
  generalize hR : ({ code := code, isNew := true, count := if (faultGet s src).count = 255 then 255 else (faultGet s src).count + 1 } : FaultRec) = R
  have g1 : RecordsOnly s (faultSet s src R) := rfl
  have g2 := jHw_shape (faultSet s src R) kHARDWARE (tidHost 0x24) (faultValue src code false detail) false
  have st2 := jHw_stages (s := faultSet s src R) kHARDWARE (tidHost 0x24) (faultValue src code false detail) false hn hroom
  generalize jHw (faultSet s src R) kHARDWARE (tidHost 0x24) (faultValue src code false detail) false = s2 at g2 st2
  have g3 := raiseEvent_shape s2 evFAULT
  have e3 := raiseEvent_fault s2
  generalize raiseEvent s2 evFAULT = s3 at g3 e3
  have hbell : faultBell s3 src = s3 := by
    unfold faultBell; dsimp only
    have : (faultdb s3).getLsbD 18 = false := by
      unfold faultdb cfgGet at hb ⊢; rw [g3.cfg, g2.cfg]; exact hb
    rw [this]; rfl
  rw [hbell]
  have g4 := bump_shape s3 .sys yFAULTS
  have e4 := bump_keeps s3 .sys yFAULTS 0 e3
  have hf : ∀ k, faultGet (bump s3 .sys yFAULTS) k = faultGet (faultSet s src R) k := fun k => by rw [g4.faultGet, g3.faultGet, g2.faultGet]
  refine ⟨by rw [hf, faultGet_faultSet_same], fun k hk => by rw [hf, faultGet_faultSet_ne _ _ _ _ hk], ?_, e4,
    g1.trans (g2.toRecords.trans (g3.toRecords.trans g4.toRecords))⟩
  exact ((st2.counts g3).counts g4).from rfl rfl

/-! ## Counters -/

theorem lowSame.trans {a b c : State} (h : lowSame a b) (k : lowSame b c) : lowSame a c := fun g hg => ⟨(k g hg).1.trans (h g hg).1, (k g hg).2.trans (h g hg).2⟩
theorem cval_setCval (s : State) (g j : Nat) (v : Word) : cval (setCval s j v) g = if g = j then v else cval s g := by
  unfold cval setCval; exact tget_tset _ _ _ _ _
theorem covf_setCovf (s : State) (g j : Nat) (v : Bool) : covf (setCovf s j v) g = if g = j then v else covf s g := by
  unfold covf setCovf; exact tget_tset _ _ _ _ _
theorem covf_setCval (s : State) (g j : Nat) (v : Word) : covf (setCval s j v) g = covf s g := rfl
theorem cval_setCovf (s : State) (g j : Nat) (v : Bool) : cval (setCovf s j v) g = cval s g := rfl
theorem cval_cnt {s t : State} (h : t.cnt = s.cnt) (g : Nat) : cval t g = cval s g ∧ covf t g = covf s g := by unfold cval covf; rw [h]; exact ⟨rfl, rfl⟩
theorem low_setCval (s : State) (j : Nat) (v : Word) (h : 1024 ≤ j) : lowSame s (setCval s j v) := fun g hg =>
  ⟨by rw [cval_setCval, if_neg (by omega)], rfl⟩
theorem low_raiseOvf (s : State) (j : Nat) (h : 1024 ≤ j) : lowSame s (raiseOvf s j) := by
  unfold raiseOvf; split
  · exact fun g _ => ⟨rfl, rfl⟩
  · intro g hg
    have : (raiseEvent (setCovf s j true) evCOUNTER).cnt = (setCovf s j true).cnt := by unfold raiseEvent; split <;> rfl
    rw [(cval_cnt this g).1, (cval_cnt this g).2, covf_setCovf, if_neg (by omega)]; exact ⟨rfl, rfl⟩
theorem low_step (s : State) (k : Nat) : lowSame s (stepCounter s .sys k) := by
  have hg : gNum .sys k = 1024 + k := rfl
  unfold stepCounter; dsimp only
  rw [hg]
  split
  · exact low_setCval _ _ _ (by omega)
  · split
    · split
      · exact (low_setCval _ _ _ (by omega)).trans (low_setCval _ _ _ (by omega))
      · exact ((low_setCval _ _ _ (by omega)).trans (low_setCval _ _ _ (by omega))).trans (low_raiseOvf _ _ (by omega))
    · exact (low_setCval _ _ _ (by omega)).trans (low_raiseOvf _ _ (by omega))
theorem low_bump (s : State) (c : Nat) : lowSame s (bump s .sys c) := by
  unfold bump; split
  · exact fun g _ => ⟨rfl, rfl⟩
  · generalize List.range (blkCount .sys) = l
    have : ∀ u : State, lowSame s u → lowSame s (l.foldl (fun t k => if counts s .sys c k then stepCounter t .sys k else t) u) := by
      induction l with
      | nil => exact fun u h => h
      | cons a l ih =>
        intro u h
        rw [List.foldl_cons]; apply ih
        split
        · exact h.trans (low_step _ _)
        · exact h
    exact this s (fun g _ => ⟨rfl, rfl⟩)
theorem low_jOrigin (s : State) (o : Origin) (tid : Half) (v : Word) : lowSame s (jOrigin s o tid v) := by
  unfold jOrigin jPut
  split
  · unfold stage; dsimp only
    split
    · exact lowSame.trans (lowSame.trans (b := jrnMod s _) (fun g _ => ⟨rfl, rfl⟩) (low_bump _ _)) (low_bump _ _)
    · exact lowSame.trans (b := jrnMod s _) (fun g _ => ⟨rfl, rfl⟩) (low_bump _ _)
  · exact fun g _ => ⟨rfl, rfl⟩

/-- The counters of t are those of s but for their values and overflow flags. -/
def valuesOnly (s t : State) : Prop := t.cnt = { s.cnt with value := t.cnt.value, ovf := t.cnt.ovf }
theorem valuesOnly.trans {a b c : State} (h : valuesOnly a b) (k : valuesOnly b c) : valuesOnly a c := by unfold valuesOnly at *; rw [k, h]
theorem values_raiseOvf (s : State) (g : Nat) : valuesOnly s (raiseOvf s g) := by
  unfold raiseOvf raiseEvent; repeat' split
  all_goals rfl
theorem values_setCval (s : State) (g : Nat) (v : Word) : valuesOnly s (setCval s g v) := rfl
theorem values_step (s : State) (b : Blk) (k : Nat) : valuesOnly s (stepCounter s b k) := by
  unfold stepCounter; dsimp only
  split
  · exact values_setCval _ _ _
  · split
    · split
      · exact (values_setCval _ _ _).trans (values_setCval _ _ _)
      · exact ((values_setCval _ _ _).trans (values_setCval _ _ _)).trans (values_raiseOvf _ _)
    · exact (values_setCval _ _ _).trans (values_raiseOvf _ _)
theorem values_bump (s : State) (b : Blk) (c : Nat) : valuesOnly s (bump s b c) := by
  unfold bump; split
  · rfl
  · generalize List.range (blkCount b) = l
    have : ∀ u : State, valuesOnly s u → valuesOnly s (l.foldl (fun t k => if counts s b c k then stepCounter t b k else t) u) := by
      induction l with
      | nil => exact fun u h => h
      | cons a l ih =>
        intro u h
        rw [List.foldl_cons]; apply ih
        split
        · exact h.trans (values_step _ _ _)
        · exact h
    exact this s rfl
theorem values_jOrigin (s : State) (o : Origin) (tid : Half) (v : Word) : valuesOnly s (jOrigin s o tid v) := by
  unfold jOrigin jPut
  split
  · unfold stage; dsimp only
    split
    · exact valuesOnly.trans (valuesOnly.trans (b := jrnMod s _) rfl (values_bump _ _ _)) (values_bump _ _ _)
    · exact valuesOnly.trans (b := jrnMod s _) rfl (values_bump _ _ _)
  · rfl

theorem stage_keeps (s : State) (e : Entry) (j : Nat) (h : s.sys.event.getLsbD j = true) : (stage s e).sys.event.getLsbD j = true := by
  unfold stage; dsimp only
  split
  · exact bump_keeps _ _ _ _ (bump_keeps _ _ _ _ h)
  · exact bump_keeps _ _ _ _ h
theorem jHw_keeps (s : State) (k : BitVec 3) (tid : Half) (v : Word) (a : Bool) (j : Nat) (h : s.sys.event.getLsbD j = true) :
    (jHw s k tid v a).sys.event.getLsbD j = true := by
  unfold jHw
  repeat' split
  · exact stage_keeps _ _ _ h
  · exact h
  · exact h

end Sys2Proof.Machine
end

