-- ==== Sys2Proof/Laws/Still.lean ====
section
/-!
SUPPORT. While nothing of the chip depends on the ring, what the ring breaks off is nothing, and its gateways have nothing to send.
-/
namespace Sys2Proof.Machine

variable {s t : State} {g : Ring}

/-! ## Gateways -/

theorem gateGet_gateMod_same (s : State) (g : Ring) (f : Gate → Gate) : gateGet (gateMod s g f) g = f (gateGet s g) := by cases g <;> rfl
theorem gateGet_gateMod_other (s : State) (g : Ring) (f : Gate → Gate) : gateGet (gateMod s (otherRing g) f) g = gateGet s g := by cases g <;> rfl
theorem gateGet_gateMod_other' (s : State) (g : Ring) (f : Gate → Gate) : gateGet (gateMod s g f) (otherRing g) = gateGet s (otherRing g) := by cases g <;> rfl
theorem gateMod_ringOnly (s : State) (g : Ring) (f : Gate → Gate) : gateMod s g f = { s with ring := (gateMod s g f).ring } := by cases g <;> rfl
theorem soutGet_soutSet (y : Gate) (c k : Nat) (x : SeamOut) : soutGet (soutSet y c x) k = if k = c then x else soutGet y k := by
  unfold soutGet soutSet; rw [tget_tset]
theorem sinGet_sinSet (y : Gate) (c k : Nat) (x : SeamIn) : sinGet (sinSet y c x) k = if k = c then x else sinGet y k := by
  unfold sinGet sinSet; rw [tget_tset]
@[simp] theorem sinGet_soutSet (y : Gate) (c k : Nat) (x : SeamOut) : sinGet (soutSet y c x) k = sinGet y k := rfl
@[simp] theorem soutGet_sinSet (y : Gate) (c k : Nat) (x : SeamIn) : soutGet (sinSet y c x) k = soutGet y k := rfl

theorem gwRing_drive (h : canDrive s = true) (g : Ring) (m : BitVec 4) (a : Byte) : gwRing s g m a = gwTx s g [ctlTransfer 3 m a] := by
  unfold gwRing gwCtl; rw [if_pos h]
theorem gwCtl_drive (h : canDrive s = true) (g : Ring) (k : BitVec 3) (m : BitVec 4) (a : Byte) : gwCtl s g k m a = gwTx s g [ctlTransfer k m a] := by
  unfold gwCtl; rw [if_pos h]
theorem gwTx_canDrive (s : State) (g : Ring) (l : List (BitVec 17)) : canDrive (gwTx s g l) = canDrive s := by cases g <;> rfl

theorem gatesEmpty_ring (h : t.ring.gateA.ins = s.ring.gateA.ins ∧ t.ring.gateA.outs = s.ring.gateA.outs ∧
    t.ring.gateB.ins = s.ring.gateB.ins ∧ t.ring.gateB.outs = s.ring.gateB.outs) (hs : gatesEmpty s) : gatesEmpty t := by
  intro g c
  have := hs g c
  cases g
  · unfold sinGet soutGet gateGet at *; rw [h.1, h.2.1]; exact this
  · unfold sinGet soutGet gateGet at *; rw [h.2.2.1, h.2.2.2]; exact this

theorem arbPick_nil (a : Arb) (n : Nat) : arbPick a n [] = none := by
  unfold arbPick nextAfter; simp

theorem seamFront_none (h : gatesEmpty s) (c k : Nat) : seamFront s g c k = none := by
  unfold seamFront
  dsimp only
  split
  · split
    · exact (h g k).1
    · rfl
  · exact (h g c).2.2

theorem seamSend_idle (h : gatesEmpty s) (c : Nat) : seamSend s g c = none := by
  have hg : seamGrant s g c = s := by
    unfold seamGrant
    dsimp only
    split
    · rfl
    · have : seamContenders s g c = [] := by
        unfold seamContenders
        simp only [seamFront_none h]
        simp
      rw [this]
      simp only [List.map_nil, arbPick_nil]
  unfold seamSend
  dsimp only
  rw [hg]
  split
  · rfl
  · rw [seamFront_none h]

theorem seamPump_idle (h : gatesEmpty s) (n : Nat) : seamPump n s g = s := by
  cases n with
  | zero => rfl
  | succ n =>
    unfold seamPump
    split
    · rw [List.findSome?_eq_none_iff.mpr (fun c _ => seamSend_idle h c)]
    · rfl

theorem seamPumps_idle (h : gatesEmpty s) : seamPumps s = s := by
  unfold seamPumps; rw [seamPump_idle h, seamPump_idle h]

/-! ## Tags, requests, locks -/

theorem foldl_same {α : Type} (f : State → α → State) (l : List α) (u : State) (h : ∀ x, f u x = u) : l.foldl f u = u := by
  induction l with
  | nil => rfl
  | cons x l ih => rw [List.foldl_cons, h, ih]

theorem heldTags_nil (l : Table Tag) (h : ∀ e ∈ l, e.2.st ≠ .held) (p : Tag → Bool) :
    l.filter (fun e => decide (e.2.st = .held) && p e.2) = [] :=
  List.filter_eq_nil_iff.mpr (fun e he => by simp [h e he])

theorem breakTags_still (hp : ∀ n, ∀ e ∈ (portGet s n).pool.tags, e.2.st ≠ .held) (ha : ∀ e ∈ s.sys.agents.tags, e.2.st ≠ .held)
    (pick : Byte → Bool) : breakTags s pick = s := by
  unfold breakTags
  dsimp only
  rw [foldl_same (fun u n => portTagsDone u n (fun x => pick x.dchip) .ringbreak)]
  · unfold agentTagsDone
    rw [heldTags_nil _ ha (fun x => pick x.dchip)]; rfl
  · intro n
    unfold portTagsDone
    rw [heldTags_nil _ (hp n) (fun x => pick x.dchip)]; rfl

theorem queuedAbsent_nil (h : s.sys.queued = []) : queuedAbsent s = s := by
  unfold queuedAbsent
  have e : sysMod s (fun y => { y with queued := y.queued.filter (fun r => inTable s r.dchip) }) = s := by
    have q : s.sys.queued.filter (fun r => inTable s r.dchip) = s.sys.queued := by rw [h]; rfl
    unfold sysMod; dsimp only; rw [q]
  rw [e, h]; rfl

theorem locksFree_none (h : ∀ b, (bobGet s b).lock = none) (pick : Lock → Bool) : locksFree s pick = s := by
  unfold locksFree
  refine foldl_same _ _ _ fun b => ?_
  rw [h b]

theorem dropGone_nil (h : s.sys.notices = []) : dropGone s = s := by
  have q : s.sys.notices.filter (fun m => inTable s m.1) = s.sys.notices := by rw [h]; rfl
  unfold dropGone sysMod; dsimp only; rw [q]

/-- Only tags, requests, notices, locks and the gateways' contents make a chip depend on the ring. -/
theorem still_congr (h : s.ringStill) (hp : ∀ n, portGet t n = portGet s n) (ha : t.sys.agents = s.sys.agents) (hq : t.sys.queued = s.sys.queued)
    (hn : t.sys.notices = s.sys.notices) (hf : t.sys.forwarded = s.sys.forwarded) (hb : ∀ b, bobGet t b = bobGet s b) (hg : gatesEmpty t) :
    t.ringStill := by
  obtain ⟨h1, h2, h3, h4, h5, h6, h7⟩ := h
  exact ⟨fun n => by rw [hp]; exact h1 n, by rw [ha]; exact h2, by rw [hq]; exact h3, by rw [hn]; exact h4, by rw [hf]; exact h5,
    fun b => by rw [hb]; exact h6 b, hg⟩

theorem JournalOnly.still (g : JournalOnly s t) (h : s.ringStill) : t.ringStill := by
  obtain ⟨_, _, _, _, rfl⟩ := g.open; exact h

/-- A change of the ring's own state that keeps what the gateways hold. -/
theorem ring_still (h : s.ringStill) (f : RingSt → RingSt) (hg : gatesEmpty (ringMod s f)) : (ringMod s f).ringStill :=
  still_congr h (fun _ => rfl) rfl rfl rfl rfl (fun _ => rfl) hg

/-- R187, R197: a new table takes nothing from a still chip. -/
theorem tableSet_still (h : s.ringStill) (l : List Byte) (roll : Bool) :
    (tableSet s l roll).ring = { s.ring with chips := l, pos := posIn s.chipnum l } ∧
    JournalOnly { s with ring := { s.ring with chips := l, pos := posIn s.chipnum l } } (tableSet s l roll) := by
  have key : JournalOnly { s with ring := { s.ring with chips := l, pos := posIn s.chipnum l } } (tableSet s l roll) := by
    unfold tableSet
    dsimp only
    generalize hs2 : (if roll ∧ s.ring.chips ≠ l then jHw (ringMod s (fun r => { r with chips := l, pos := posIn s.chipnum l })) kHARDWARE
      (tidBank 0x85 0x100) (nchipWord (ringMod s (fun r => { r with chips := l, pos := posIn s.chipnum l }))) false
      else ringMod s (fun r => { r with chips := l, pos := posIn s.chipnum l })) = s2
    have h2 : JournalOnly { s with ring := { s.ring with chips := l, pos := posIn s.chipnum l } } s2 := by
      subst hs2; split
      · exact jHw_shape _ _ _ _ _
      · rfl
    have st2 : s2.ringStill := h2.still (s := { s with ring := { s.ring with chips := l, pos := posIn s.chipnum l } })
      (ring_still h (fun r => { r with chips := l, pos := posIn s.chipnum l }) (gatesEmpty_ring ⟨rfl, rfl, rfl, rfl⟩ h.2.2.2.2.2.2))
    rw [breakTags_still st2.1 st2.2.1, locksFree_none st2.2.2.2.2.2.1, queuedAbsent_nil st2.2.2.1, dropGone_nil st2.2.2.2.1]
    exact h2
  exact ⟨by rw [key], key⟩

end Sys2Proof.Machine
end

