-- ==== Sys2Proof/Laws/Write.lean ====
section
/-!
SUPPORT. A write access of SYS from its start to its end: the host's bus cycle and the fabric's one-word write alike.
-/
namespace Sys2Proof.Machine

variable {s t u x : State}

/-- x is s but for what the taking of an access changes: the event counters, the host side, the packets at nodes. -/
def Taken (s x : State) : Prop :=
  x = { s with cnt := x.cnt, host := x.host, mesh := x.mesh, sys := { s.sys with event := x.sys.event, eventLate := x.sys.eventLate } } ∧
  x.host.votesel = s.host.votesel ∧ x.host.rtcFrac = s.host.rtcFrac ∧ lowSame s x ∧ valuesOnly s x ∧
  ∀ (k : BitVec 7) (m : Net), k ≠ nodeSys → nodeGet x k m = nodeGet s k m

/-- The state e with what the taking of an access left in x. -/
def overlay (x e : State) : State :=
  { e with cnt := x.cnt, host := x.host, mesh := x.mesh, sys := { e.sys with event := x.sys.event, eventLate := x.sys.eventLate } }

theorem AccessOnly.refl (s : State) : AccessOnly s s := rfl

/-- What a high-half access leaves of the host side (R371, R412). -/
def winHost (h : HostIf) : HostIf :=
  if h.inc = false then h
  else if h.winsel = 0x82 ∧ h.winaddr = 3 then { h with winaddr := 0, jptr := h.jptr + 1 }
  else { h with winaddr := h.winaddr + 1 }

theorem winNext_eq (s : State) : winNext s = hostMod s winHost := by
  unfold winNext hostMod winHost; dsimp only
  repeat' split
  all_goals rfl
theorem winHost_fields (h : HostIf) : (winHost h).votesel = h.votesel ∧ (winHost h).rtcFrac = h.rtcFrac := by
  unfold winHost; repeat' split
  all_goals exact ⟨rfl, rfl⟩
theorem winHost_wait (h : HostIf) (b c : Bool) : { winHost { h with waitLow := b } with waitLow := c } = { winHost h with waitLow := c } := by
  unfold winHost; dsimp only; repeat' split
  all_goals rfl

theorem hostGate_taken (h : Taken s x) (i : Nat) (hw : x.host.winsel = s.host.winsel) : hostGate x i = hostGate s i := by
  have p : x.power = s.power := by rw [h.1]
  have d : x.doms = s.doms := by rw [h.1]
  unfold hostGate sleepServed sysOn domOn domGet
  rw [p, d, hw]

/-! ## The fabric's write -/

/-- R420, R421: SYS takes a one-word write that is applied, and answers it. -/
theorem fabricWrite_done {net : Net} {p : Pkt} {v : DataUnit} {wd : Wd} {sel : Origin → Wd → Word → Bool} {ha : BitVec 6} {g : State}
    (hon : sysOn s = true) (hrx : rxHead s nodeSys net = some p) (hck : reqCheck p = .perform) (hop : opOf p.cmd = .write 1)
    (hd : p.data = [v]) (hbe : v.be ≠ 0) (hf : flatWord (byteAddr p.addr) = some wd) (hsel : sel (fabOrigin p) wd v.data = true)
    (hj : ∀ i j, wd ≠ .jrn i j)
    (hg : writeWord (bump (rxDrop s nodeSys net) .sys yFABACC) (fabOrigin p) wd v.data v.be (some (p, 0)) = .done g) (hgon : sysOn g = true) :
    byWrite s ha sel (.fabric net) = settle (respond g p .ok []) := by
  have hn : fabNames p sel = true := by
    unfold fabNames; rw [hop]
    rw [hd]; simp [hf, hsel]
  have hb : sysWriteBad p = false := by
    unfold sysWriteBad; rw [hd]
    simp only [List.zipIdx_cons, List.zipIdx_nil, List.any_cons, List.any_nil, Bool.or_false, Nat.mul_zero, Nat.add_zero]
    rw [hf]
    cases wd <;> simp_all
  show settle (sysTake s net (fun p => fabNames p sel)) = _
  congr 1
  unfold sysTake
  rw [if_neg (by simp [hon]), hrx]
  dsimp only
  rw [if_pos hn]
  unfold sysPerform
  rw [hck]
  dsimp only
  rw [hop]
  dsimp only
  rw [hb, hd]
  simp only [Bool.false_eq_true, if_false]
  unfold sysWriteFrom
  rw [Nat.mul_zero, Nat.add_zero, hf]
  dsimp only
  rw [if_neg hbe, hg]
  dsimp only
  rw [if_pos hgon]
  rfl

/-- R420, R421: The same for a word whose operation answers the request itself. -/
theorem fabricWrite_later {net : Net} {p : Pkt} {v : DataUnit} {wd : Wd} {sel : Origin → Wd → Word → Bool} {ha : BitVec 6} {g : State}
    (hon : sysOn s = true) (hrx : rxHead s nodeSys net = some p) (hck : reqCheck p = .perform) (hop : opOf p.cmd = .write 1)
    (hd : p.data = [v]) (hbe : v.be ≠ 0) (hf : flatWord (byteAddr p.addr) = some wd) (hsel : sel (fabOrigin p) wd v.data = true)
    (hj : ∀ i j, wd ≠ .jrn i j)
    (hg : writeWord (bump (rxDrop s nodeSys net) .sys yFABACC) (fabOrigin p) wd v.data v.be (some (p, 0)) = .later g) :
    byWrite s ha sel (.fabric net) = settle g := by
  have hn : fabNames p sel = true := by
    unfold fabNames; rw [hop]
    rw [hd]; simp [hf, hsel]
  have hb : sysWriteBad p = false := by
    unfold sysWriteBad; rw [hd]
    simp only [List.zipIdx_cons, List.zipIdx_nil, List.any_cons, List.any_nil, Bool.or_false, Nat.mul_zero, Nat.add_zero]
    rw [hf]
    cases wd <;> simp_all
  show settle (sysTake s net (fun p => fabNames p sel)) = _
  congr 1
  unfold sysTake
  rw [if_neg (by simp [hon]), hrx]
  dsimp only
  rw [if_pos hn]
  unfold sysPerform
  rw [hck]
  dsimp only
  rw [hop]
  dsimp only
  rw [hb, hd]
  simp only [Bool.false_eq_true, if_false]
  unfold sysWriteFrom
  rw [Nat.mul_zero, Nat.add_zero, hf]
  dsimp only
  rw [if_neg hbe, hg]

/-! ## The host's write -/

/-- R411: the high half of WINDATA writes a bank word that is applied. -/
theorem windataWrite_done {hd : Half} {b i : Nat} {raw : Word} {sel : Origin → Wd → Word → Bool} {g : State}
    (hw : s.host.waitLow = false) (hgate : hostGate s 0x0A = .serve) (hn : hostNames s 0x0A hd = some (.bank b i, raw))
    (hsel : sel .host (.bank b i) raw = true) (hb : bankHas b i = true)
    (hg : writeWord (winNext (hostMod (hostMod (bump s .sys yHOSTACC) (fun y => { y with waitLow := true })) (fun y => { y with phase := false })))
      .host (.bank b i) raw 0xF none = .done g) :
    byWrite s 0x0A sel (.host hd) = settle (hostEnd g) := by
  unfold byWrite
  dsimp only
  rw [hn]
  dsimp only
  rw [if_pos hsel]
  congr 1
  have h2 : winHigh s = true ∧ winB s = b ∧ winI s = i ∧ winWord s hd = raw := by
    have hn' : (if winHigh s then some (Wd.bank (winB s) (winI s), winWord s hd) else none) = some (.bank b i, raw) := hn
    by_cases h : winHigh s = true
    · rw [if_pos h] at hn'
      simp only [Option.some.injEq, Prod.mk.injEq, Wd.bank.injEq] at hn'
      exact ⟨h, hn'.1.1, hn'.1.2, hn'.2⟩
    · rw [if_neg h] at hn'; cases hn'
  obtain ⟨h1, h2, h3, h4⟩ := h2
  unfold hostWrite
  have hgate' : hostGate s (BitVec.toNat (0x0A : BitVec 6)) = .serve := hgate
  rw [if_neg (by simp [hw]), hgate']
  dsimp only
  generalize hs1 : hostMod (bump s .sys yHOSTACC) (fun y => { y with waitLow := true }) = s1 at hg ⊢
  have e : hostPerform s1 (BitVec.toNat (0x0A : BitVec 6)) hd = .done g := by
    have hh : s1.host = { s.host with waitLow := true } := by
      subst hs1; show ({ (bump s .sys yHOSTACC).host with waitLow := true } : HostIf) = _
      rw [(bump_shape _ _ _).host]
    show (if winHigh s1 then winWrite (winNext (hostMod s1 (fun y => { y with phase := false }))) (winB s1) (winI s1) (winWord s1 hd)
      else _) = _
    have w1 : winHigh s1 = true := by unfold winHigh at h1 ⊢; rw [hh]; exact h1
    have w2 : winB s1 = b := by unfold winB at h2 ⊢; rw [hh]; exact h2
    have w3 : winI s1 = i := by unfold winI at h3 ⊢; rw [hh]; exact h3
    have w4 : winWord s1 hd = raw := by unfold winWord at h4 ⊢; rw [hh]; exact h4
    rw [if_pos w1, w2, w3, w4]
    unfold winWrite
    rw [if_neg (by simp [hb]), hg]
  rw [e]
  rfl

/-- R401: a register written as its own word, and applied. -/
theorem regWrite_done {ha : BitVec 6} {hd : Half} {wd : Wd} {raw : Word} {sel : Origin → Wd → Word → Bool} {g : State}
    (hw : s.host.waitLow = false) (hgate : hostGate s ha.toNat = .serve) (hn : hostNames s ha hd = some (wd, raw))
    (hsel : sel .host wd raw = true)
    (hp : ∀ x, Taken s x → x.host = { s.host with waitLow := true } → hostPerform x ha.toNat hd = plainWrite x wd hd) (hraw : raw = hd.setWidth 32)
    (hg : writeWord (hostMod (bump s .sys yHOSTACC) (fun y => { y with waitLow := true })) .host wd raw 0xF none = .done g) :
    byWrite s ha sel (.host hd) = settle (hostEnd g) := by
  unfold byWrite
  dsimp only
  rw [hn]
  dsimp only
  rw [if_pos hsel]
  congr 1
  unfold hostWrite
  rw [if_neg (by simp [hw]), hgate]
  dsimp only
  have hc := bump_shape s .sys yHOSTACC
  have ht : Taken s (hostMod (bump s .sys yHOSTACC) (fun y => { y with waitLow := true })) := by
    obtain ⟨_, _, _, e⟩ := hc.open
    have hl := And.intro (low_bump s yHOSTACC) (values_bump s .sys yHOSTACC)
    rw [e] at hl ⊢; exact ⟨rfl, rfl, rfl, hl.1, hl.2, fun _ _ _ => rfl⟩
  have hh : (hostMod (bump s .sys yHOSTACC) (fun y => { y with waitLow := true })).host = { s.host with waitLow := true } := by
    show ({ (bump s .sys yHOSTACC).host with waitLow := true } : HostIf) = _
    rw [hc.host]
  rw [hp _ ht hh]
  unfold plainWrite
  rw [← hraw, hg]
  rfl

/-! ## Both -/

theorem nodeGet_respond_rsp (g : State) (p : Pkt) (n : BitVec 7) (h : p.dnode = n) (hn : (nodeGet g n .rsp).out = []) :
    nodeGet (respond g p .ok []) n .rsp = { nodeGet g n .rsp with out := pktUnits (responsePkt p .ok []) } := by
  subst h
  unfold respond sendPkt
  rw [nodeGet_nodeMod_same, hn]; rfl

/-- A write that every taking of it applies alike: P is what holds once it is applied, whatever the host side and the packets at nodes. -/
theorem write_rowN {ha : BitVec 6} {wd : Wd} {raw : Word} {be : BitVec 4} {by_ : By} {sel : Origin → Wd → Word → Bool} {P : State → Prop}
    (hw : Writes s ha wd raw be by_) (hsel : sel (askOrigin s by_) wd raw = true)
    (hb : match wd with | .bank b i => bankHas b i = true ∧ ha = 0x0A | .reg i => ha.toNat = i ∧ (i = 6 ∨ i = 0x13 ∨ i = 0x26 ∨ i = 0x2A)
                        | .domcmd _ => ha = 0x15 | .iso _ => ha = 0x25 ∧ raw.getLsbD 0 = true | _ => False)
    (hE : ∀ x req, Taken s x → ∃ g, writeWord x (askOrigin s by_) wd raw be req = .done g ∧ g.host = x.host ∧ NodesSame x g ∧ P g)
    (hP : ∀ g h m, P g → P { g with host := h, mesh := m }) (hc : ∀ g, P g → settle g = g) (hon : ∀ g, P g → sysOn s = true → sysOn g = true) :
    ∃ t, byWrite s ha sel by_ = t ∧ AccessEnds s t ha by_ ∧ P t := by
  cases by_ with
  | host hd =>
    obtain ⟨hwait, hgate, hn, rfl⟩ := hw
    have hc1 := bump_shape s .sys yHOSTACC
    have key : ∃ x g, Taken s x ∧ x.mesh = s.mesh ∧ { x.host with waitLow := false } = { hostLeft s ha hd with waitLow := false } ∧
        g.host = x.host ∧ NodesSame x g ∧ P g ∧ byWrite s ha sel (.host hd) = settle (hostEnd g) := by
      have regCase : (∀ x, Taken s x → x.host = { s.host with waitLow := true } → hostPerform x ha.toNat hd = plainWrite x wd hd) →
          raw = hd.setWidth 32 → ha ≠ 0x0A → ha ≠ 0x25 → ∃ x g, Taken s x ∧ x.mesh = s.mesh ∧
          { x.host with waitLow := false } = { hostLeft s ha hd with waitLow := false } ∧
          g.host = x.host ∧ NodesSame x g ∧ P g ∧ byWrite s ha sel (.host hd) = settle (hostEnd g) := by
        intro hp hraw hne hne2
        have ht : Taken s (hostMod (bump s .sys yHOSTACC) (fun y => { y with waitLow := true })) := by
          obtain ⟨_, _, _, e⟩ := hc1.open
          have hl := And.intro (low_bump s yHOSTACC) (values_bump s .sys yHOSTACC)
          rw [e] at hl ⊢; exact ⟨rfl, rfl, rfl, hl.1, hl.2, fun _ _ _ => rfl⟩
        obtain ⟨g, h1, h2, h3, h5⟩ := hE _ none ht
        refine ⟨_, g, ht, hc1.mesh, ?_, h2, h3, h5, regWrite_done hwait hgate hn hsel hp hraw h1⟩
        unfold hostLeft
        rw [if_neg hne, if_neg hne2]
        show ({ (bump s .sys yHOSTACC).host with waitLow := false } : HostIf) = _
        rw [hc1.host]
      cases wd with
      | bank b i =>
        obtain ⟨hb, rfl⟩ := hb
        have ht : Taken s (winNext (hostMod (hostMod (bump s .sys yHOSTACC) (fun y => { y with waitLow := true })) (fun y => { y with phase := false }))) := by
          rw [winNext_eq]
          obtain ⟨_, _, _, e⟩ := hc1.open
          have hl := And.intro (low_bump s yHOSTACC) (values_bump s .sys yHOSTACC)
          rw [e] at hl ⊢
          exact ⟨rfl, (winHost_fields _).1, (winHost_fields _).2, hl.1, hl.2, fun _ _ _ => rfl⟩
        obtain ⟨g, h1, h2, h3, h5⟩ := hE _ none ht
        refine ⟨_, g, ht, ?_, ?_, h2, h3, h5, windataWrite_done hwait hgate hn hsel hb h1⟩
        · rw [winNext_eq]; exact hc1.mesh
        · unfold hostLeft
          rw [if_pos rfl, winNext_eq, winNext_eq]
          show { winHost { (bump s .sys yHOSTACC).host with waitLow := true, phase := false } with waitLow := false } =
            ({ winHost { s.host with phase := false } with waitLow := false } : HostIf)
          rw [hc1.host]
          exact winHost_wait { s.host with phase := false } true false
      | reg i =>
        obtain ⟨rfl, hi⟩ := hb
        rcases hi with h | h | h | h
        all_goals
          have hne : ha ≠ 0x0A := fun hx => by rw [hx] at h; exact absurd h (by decide)
          have hne2 : ha ≠ 0x25 := fun hx => by rw [hx] at h; exact absurd h (by decide)
          refine regCase (fun x hx hh => ?_) ?_ hne hne2
          · rw [h]; rfl
          · have := hn; unfold hostNames at this; rw [h] at this
            simp only [Option.some.injEq, Prod.mk.injEq] at this
            exact this.2.symm
      | domcmd d =>
        have h15 : ha.toNat = 0x15 := by rw [show ha = 0x15 from hb]; rfl
        have hn' : some (Wd.domcmd s.host.domsel.toNat, hd.setWidth 32) = some (Wd.domcmd d, raw) := by
          have := hn; unfold hostNames at this; rw [h15] at this; exact this
        simp only [Option.some.injEq, Prod.mk.injEq, Wd.domcmd.injEq] at hn'
        refine regCase (fun x hx hh => ?_) hn'.2.symm (fun hx => by rw [hx] at h15; exact absurd h15 (by decide)) (fun hx => by rw [hx] at h15; exact absurd h15 (by decide))
        rw [h15]
        show plainWrite x (.domcmd x.host.domsel.toNat) hd = _
        rw [hh, ← hn'.1]
      | iso n =>
        obtain ⟨rfl, hr1⟩ := hb
        obtain ⟨hnn, hrr⟩ : fieldNat (hd.setWidth 32) 0 6 = n ∧ (hd >>> (6 : Nat) &&& 1).setWidth 32 = raw := by
          have h' : some (Wd.iso (fieldNat (hd.setWidth 32) 0 6), (hd >>> (6 : Nat) &&& 1).setWidth 32) = some (Wd.iso n, raw) := hn
          simpa using h'
        have hbit : hd.getLsbD 6 = true := by
          have := congrArg (fun w : Word => w.getLsbD 0) hrr
          rw [hr1] at this
          simpa using this
        have hr2 : raw = 1 := by
          rw [← hrr]
          apply BitVec.eq_of_getLsbD_eq
          intro i hi
          cases i with
          | zero => simpa using hbit
          | succ i => simp
        have ht : Taken s (hostMod (hostMod (bump s .sys yHOSTACC) (fun y => { y with waitLow := true })) (fun y => { y with isoport := hd.extractLsb' 0 6 })) := by
          obtain ⟨_, _, _, e⟩ := hc1.open
          have hl := And.intro (low_bump s yHOSTACC) (values_bump s .sys yHOSTACC)
          rw [e] at hl ⊢; exact ⟨rfl, rfl, rfl, hl.1, hl.2, fun _ _ _ => rfl⟩
        obtain ⟨g, h1, h2, h3, h5⟩ := hE _ none ht
        refine ⟨_, g, ht, hc1.mesh, ?_, h2, h3, h5, ?_⟩
        · unfold hostLeft
          rw [if_neg (by decide), if_pos rfl]
          show ({ (bump s .sys yHOSTACC).host with waitLow := false, isoport := hd.extractLsb' 0 6 } : HostIf) = _
          rw [hc1.host]
        · unfold byWrite
          dsimp only
          rw [hn]
          dsimp only
          rw [if_pos (by exact hsel)]
          congr 1
          unfold hostWrite
          rw [if_neg (by simp [hwait]), hgate]
          dsimp only
          have e : hostPerform (hostMod (bump s .sys yHOSTACC) (fun y => { y with waitLow := true })) (BitVec.toNat (0x25 : BitVec 6)) hd = .done g := by
            show isolateWrite _ hd = _
            unfold isolateWrite
            dsimp only
            rw [if_pos hbit, hnn]
            unfold plainWrite
            have h1' : writeWord _ .host (.iso n) raw 0xF none = .done g := h1
            rw [show ((1 : Half).setWidth 32 : Word) = raw by rw [hr2]; rfl, h1']
          rw [e]
          rfl
      | _ => exact absurd hb (by simp)
    obtain ⟨x, g, hx, hm, hl, h2, h3, h5, h4⟩ := key
    have hg : P (hostEnd g) := hP g { g.host with waitLow := false } g.mesh h5
    rw [h4, hc _ hg]
    refine ⟨_, rfl, ⟨?_, ?_⟩, hg⟩
    · show NodesSame s g
      exact ⟨by rw [h3.1, hm], fun k m => by rw [h3.2]; unfold nodeGet; rw [hm]⟩
    · show ({ g.host with waitLow := false } : HostIf) = _
      rw [← hl, h2]
  | fabric net =>
    obtain ⟨hnet, hon0, p, v, hrx, hdn, hck, hop, hd, rfl, rfl, hbe, hf⟩ := hw
    have ho : askOrigin s (.fabric net) = fabOrigin p := by show (match rxHead s nodeSys net with | some p => fabOrigin p | none => Origin.host) = _; rw [hrx]
    rw [ho] at hsel hE
    have hc1 := bump_shape (rxDrop s nodeSys net) .sys yFABACC
    have ht : Taken s (bump (rxDrop s nodeSys net) .sys yFABACC) := by
      have hl : lowSame s (bump (rxDrop s nodeSys net) .sys yFABACC) := lowSame.trans (b := rxDrop s nodeSys net) (fun g _ => ⟨rfl, rfl⟩) (low_bump _ _)
      have hl := And.intro hl (values_bump (rxDrop s nodeSys net) .sys yFABACC)
      obtain ⟨_, _, _, e⟩ := hc1.open
      refine ⟨?_, ?_, ?_, hl.1, hl.2, ?_⟩
      · rw [e]; rfl
      · rw [e]; rfl
      · rw [e]; rfl
      · intro k m hk
        rw [e]; show nodeGet (rxDrop s nodeSys net) k m = _
        exact nodeGet_nodeMod_ne s nodeSys k net m _ (fun h => hk h.1)
    obtain ⟨g, h1, h2, h3, h5⟩ := hE _ (some (p, 0)) ht
    have hj : ∀ i j, wd ≠ .jrn i j := by intro i j h; subst h; exact hb
    have hgon : sysOn g = true := hon g h5 hon0
    rw [fabricWrite_done (ha := ha) hon0 hrx hck hop hd hbe hf hsel hj h1 hgon]
    have hg : P (respond g p .ok []) := hP g g.host (respond g p .ok []).mesh h5
    rw [hc _ hg]
    have hgm : g.mesh = { (rxDrop s nodeSys net).mesh with nodes := g.mesh.nodes } := by rw [h3.1, hc1.mesh]
    have hng : ∀ k m, nodeGet g k m = nodeGet (rxDrop s nodeSys net) k m := fun k m => by rw [h3.2]; unfold nodeGet; rw [hc1.mesh]
    refine ⟨_, rfl, ⟨?_, ?_, p, hrx, ?_, ?_, ?_⟩, hg⟩
    · show g.host = s.host
      rw [h2]; show (bump (rxDrop s nodeSys net) .sys yFABACC).host = _
      rw [hc1.host]; rfl
    · unfold respond sendPkt nodeMod nodeSet; dsimp only; rw [hgm]; rfl
    · have hrsp : (nodeGet s nodeSys .rsp).out = [] := by
        unfold rxHead at hrx; by_contra h; rw [if_neg h] at hrx; cases hrx
      rw [nodeGet_respond_rsp g p nodeSys hdn]
      · rw [hng]; unfold rxDrop; rw [nodeGet_nodeMod_ne _ _ _ _ _ _ (fun h => hnet h.2.symm)]
      · rw [hng]; unfold rxDrop; rw [nodeGet_nodeMod_ne _ _ _ _ _ _ (fun h => hnet h.2.symm)]; exact hrsp
    · unfold respond sendPkt
      rw [hdn, nodeGet_nodeMod_ne _ _ _ _ _ _ (fun h => hnet h.2), hng]
      unfold rxDrop; rw [nodeGet_nodeMod_same]
    · intro k m hk
      unfold respond sendPkt
      rw [hdn, nodeGet_nodeMod_ne _ _ _ _ _ _ (fun h => hk ⟨h.1, Or.inr h.2⟩), hng]
      unfold rxDrop
      rw [nodeGet_nodeMod_ne _ _ _ _ _ _ (fun h => hk ⟨h.1, Or.inl h.2⟩)]

/-- The same for a write that leaves the mesh alone: P is what holds once it is applied, whatever the host side and the packets at nodes. -/
theorem write_rowP {ha : BitVec 6} {wd : Wd} {raw : Word} {be : BitVec 4} {by_ : By} {sel : Origin → Wd → Word → Bool} {P : State → Prop}
    (hw : Writes s ha wd raw be by_) (hsel : sel (askOrigin s by_) wd raw = true)
    (hb : match wd with | .bank b i => bankHas b i = true ∧ ha = 0x0A | .reg i => ha.toNat = i ∧ (i = 6 ∨ i = 0x13 ∨ i = 0x26 ∨ i = 0x2A)
                        | .domcmd _ => ha = 0x15 | .iso _ => ha = 0x25 ∧ raw.getLsbD 0 = true | _ => False)
    (hE : ∀ x req, Taken s x → ∃ g, writeWord x (askOrigin s by_) wd raw be req = .done g ∧ g.host = x.host ∧ g.mesh = x.mesh ∧ P g)
    (hP : ∀ g h m, P g → P { g with host := h, mesh := m }) (hc : ∀ g, P g → g.calm) (hon : ∀ g, P g → sysOn s = true → sysOn g = true) :
    ∃ t, byWrite s ha sel by_ = t ∧ AccessEnds s t ha by_ ∧ P t := by
  refine write_rowN hw hsel hb ?_ hP (fun g hg => settle_calm (hc g hg)) hon
  intro x req hx
  obtain ⟨g, h1, h2, h3, h4⟩ := hE x req hx
  exact ⟨g, h1, h2, ⟨by rw [h3], fun k m => by unfold nodeGet; rw [h3]⟩, h4⟩

/-- The write of one word is applied and leaves g: at once, or, for a vote, by the operation that also ends the access. -/
def Applied (x : State) (o : Origin) (wd : Wd) (raw : Word) (be : BitVec 4) (req : Option (Pkt × Nat)) (g : State) : Prop :=
  writeWord x o wd raw be req = .done g ∨
  writeWord x o wd raw be req = .later (match req with | some (p, _) => respond g p .ok [] | none => hostEnd g)

/-- The fabric's one-word write, for any word: P is what holds once it is applied. -/
theorem fab_row {ha : BitVec 6} {wd : Wd} {raw : Word} {be : BitVec 4} {net : Net} {sel : Origin → Wd → Word → Bool} {P : State → Prop}
    (hw : Writes s ha wd raw be (.fabric net)) (hsel : sel (askOrigin s (.fabric net)) wd raw = true) (hj : ∀ i j, wd ≠ .jrn i j)
    (hE : ∀ x p, Taken s x → p.data.length = 1 → fabOrigin p = askOrigin s (.fabric net) → ∃ g, Applied x (askOrigin s (.fabric net)) wd raw be (some (p, 0)) g ∧ g.host = x.host ∧ NodesSame x g ∧ P g)
    (hP : ∀ g h m, P g → P { g with host := h, mesh := m }) (hc : ∀ g, P g → settle g = g) (hon : ∀ g, P g → sysOn s = true → sysOn g = true) :
    ∃ t, byWrite s ha sel (.fabric net) = t ∧ AccessEnds s t ha (.fabric net) ∧ P t := by
  obtain ⟨hnet, hon0, p, v, hrx, hdn, hck, hop, hd, rfl, rfl, hbe, hf⟩ := hw
  have ho : askOrigin s (.fabric net) = fabOrigin p := by show (match rxHead s nodeSys net with | some p => fabOrigin p | none => Origin.host) = _; rw [hrx]
  rw [ho] at hsel
  have hc1 := bump_shape (rxDrop s nodeSys net) .sys yFABACC
  have ht : Taken s (bump (rxDrop s nodeSys net) .sys yFABACC) := by
    have hl : lowSame s (bump (rxDrop s nodeSys net) .sys yFABACC) := lowSame.trans (b := rxDrop s nodeSys net) (fun g _ => ⟨rfl, rfl⟩) (low_bump _ _)
    have hl := And.intro hl (values_bump (rxDrop s nodeSys net) .sys yFABACC)
    obtain ⟨_, _, _, e⟩ := hc1.open
    refine ⟨?_, ?_, ?_, hl.1, hl.2, ?_⟩
    · rw [e]; rfl
    · rw [e]; rfl
    · rw [e]; rfl
    · intro k m hk
      rw [e]; show nodeGet (rxDrop s nodeSys net) k m = _
      exact nodeGet_nodeMod_ne s nodeSys k net m _ (fun h => hk h.1)
  obtain ⟨g, h1, h2, h3, h5⟩ := hE _ p ht (by rw [hd]; rfl) ho.symm
  rw [ho] at h1
  have hgon : sysOn g = true := hon g h5 hon0
  have hb : byWrite s ha sel (.fabric net) = settle (respond g p .ok []) := by
    rcases h1 with h1 | h1
    · exact fabricWrite_done (ha := ha) hon0 hrx hck hop hd hbe hf hsel hj h1 hgon
    · exact fabricWrite_later (ha := ha) hon0 hrx hck hop hd hbe hf hsel hj h1
  rw [hb]
  have hg : P (respond g p .ok []) := hP g g.host (respond g p .ok []).mesh h5
  rw [hc _ hg]
  have hgm : g.mesh = { (rxDrop s nodeSys net).mesh with nodes := g.mesh.nodes } := by rw [h3.1, hc1.mesh]
  have hng : ∀ k m, nodeGet g k m = nodeGet (rxDrop s nodeSys net) k m := fun k m => by rw [h3.2]; unfold nodeGet; rw [hc1.mesh]
  refine ⟨_, rfl, ⟨?_, ?_, p, hrx, ?_, ?_, ?_⟩, hg⟩
  · show g.host = s.host
    rw [h2]; show (bump (rxDrop s nodeSys net) .sys yFABACC).host = _
    rw [hc1.host]; rfl
  · unfold respond sendPkt nodeMod nodeSet; dsimp only; rw [hgm]; rfl
  · have hrsp : (nodeGet s nodeSys .rsp).out = [] := by
      unfold rxHead at hrx; by_contra h; rw [if_neg h] at hrx; cases hrx
    rw [nodeGet_respond_rsp g p nodeSys hdn]
    · rw [hng]; unfold rxDrop; rw [nodeGet_nodeMod_ne _ _ _ _ _ _ (fun h => hnet h.2.symm)]
    · rw [hng]; unfold rxDrop; rw [nodeGet_nodeMod_ne _ _ _ _ _ _ (fun h => hnet h.2.symm)]; exact hrsp
  · unfold respond sendPkt
    rw [hdn, nodeGet_nodeMod_ne _ _ _ _ _ _ (fun h => hnet h.2), hng]
    unfold rxDrop; rw [nodeGet_nodeMod_same]
  · intro k m hk
    unfold respond sendPkt
    rw [hdn, nodeGet_nodeMod_ne _ _ _ _ _ _ (fun h => hk ⟨h.1, Or.inr h.2⟩), hng]
    unfold rxDrop
    rw [nodeGet_nodeMod_ne _ _ _ _ _ _ (fun h => hk ⟨h.1, Or.inl h.2⟩)]

/-- The host's write of a register that writes a word, whichever: P is what holds once it is applied. -/
theorem host_row {ha : BitVec 6} {hd : Half} {wd : Wd} {raw : Word} {P : State → Prop} (hw : s.host.waitLow = false) (hgate : hostGate s ha.toNat = .serve)
    (h0A : ha ≠ 0x0A)
    (hp : ∀ x g, Taken s x → x.host = { s.host with waitLow := true } → (writeWord x .host wd raw 0xF none = .done g → hostPerform x ha.toNat hd = .done g) ∧
      (writeWord x .host wd raw 0xF none = .later g → hostPerform x ha.toNat hd = .later g))
    (hE : ∀ x, Taken s x → x.host = { s.host with waitLow := true } → ∃ g, Applied x .host wd raw 0xF none g ∧ g.host = x.host ∧ NodesSame x g ∧ P g)
    (hP : ∀ g h m, P g → P { g with host := h, mesh := m }) (hc : ∀ g, P g → settle g = g) :
    ∃ t, settle (hostWrite s ha hd) = t ∧ hostWrite s ha hd = t ∧ NodesSame s t ∧ t.host = { s.host with waitLow := false } ∧ P t := by
  have hc1 := bump_shape s .sys yHOSTACC
  have ht : Taken s (hostMod (bump s .sys yHOSTACC) (fun y => { y with waitLow := true })) := by
    obtain ⟨_, _, _, e⟩ := hc1.open
    have hl := And.intro (low_bump s yHOSTACC) (values_bump s .sys yHOSTACC)
    rw [e] at hl ⊢; exact ⟨rfl, rfl, rfl, hl.1, hl.2, fun _ _ _ => rfl⟩
  have hh : (hostMod (bump s .sys yHOSTACC) (fun y => { y with waitLow := true })).host = { s.host with waitLow := true } := by
    show ({ (bump s .sys yHOSTACC).host with waitLow := true } : HostIf) = _
    rw [hc1.host]
  obtain ⟨g, h1, h2, h3, h5⟩ := hE _ ht hh
  have hb : hostWrite s ha hd = hostEnd g := by
    unfold hostWrite
    rw [if_neg (by simp [hw]), hgate]
    dsimp only
    rcases h1 with h1 | h1
    · rw [(hp _ _ ht hh).1 h1]; rfl
    · rw [(hp _ _ ht hh).2 h1]; rfl
  have hg : P (hostEnd g) := hP g { g.host with waitLow := false } g.mesh h5
  rw [hb, hc _ hg]
  refine ⟨_, rfl, rfl, ⟨?_, fun k m => ?_⟩, ?_, hg⟩
  · have e : (hostMod (bump s .sys yHOSTACC) (fun y => { y with waitLow := true })).mesh = s.mesh := hc1.mesh
    have := h3.1
    rw [e] at this; exact this
  · show nodeGet g k m = _; rw [h3.2]; show nodeGet (bump s .sys yHOSTACC) k m = _; unfold nodeGet; rw [hc1.mesh]
  · show ({ g.host with waitLow := false } : HostIf) = _; rw [h2, hh]

theorem AccessOnly.jrn_free {e g : State} (h : AccessOnly e g) (k : HostIf) (m : Mesh) : AccessOnly e { g with host := k, mesh := m } := by
  unfold AccessOnly at h ⊢
  generalize hk : ({ g with host := k, mesh := m } : State) = u
  have : u = { g with host := u.host, mesh := u.mesh } := by subst hk; rfl
  rw [this, h]

theorem AccessOnly.calm {e g : State} (h : AccessOnly e g) (hc : e.calm) : g.calm := by
  refine calm_congr ?_ ?_ ?_ ?_ hc <;> rw [h]

theorem AccessOnly.sysOn {e g : State} (h : AccessOnly e g) : Machine.sysOn g = Machine.sysOn e := by
  unfold Machine.sysOn domOn domGet; rw [h]

theorem AccessOnly.cnt {e g : State} (h : AccessOnly e g) (c : Counters) : AccessOnly e { g with cnt := c } := by
  unfold AccessOnly at h ⊢
  generalize hk : ({ g with cnt := c } : State) = u
  have : u = { g with cnt := u.cnt } := by subst hk; rfl
  rw [this, h]

theorem JournalOnly.access {e g : State} (h : JournalOnly (overlay x e) g) : AccessOnly e g := by
  unfold AccessOnly
  obtain ⟨_, _, _, _, h⟩ := h.open
  rw [h]; rfl

/-- A write that every taking of it applies alike: e is what it does, Q what it leaves in the journal. -/
theorem write_row {ha : BitVec 6} {wd : Wd} {raw : Word} {be : BitVec 4} {by_ : By} {sel : Origin → Wd → Word → Bool} {e : State} {Q : Journal → Prop}
    (hw : Writes s ha wd raw be by_) (hsel : sel (askOrigin s by_) wd raw = true)
    (hb : match wd with | .bank b i => bankHas b i = true ∧ ha = 0x0A | .reg i => ha.toNat = i ∧ (i = 6 ∨ i = 0x13 ∨ i = 0x26 ∨ i = 0x2A)
                        | .domcmd _ => ha = 0x15 | .iso _ => ha = 0x25 ∧ raw.getLsbD 0 = true | _ => False)
    (hE : ∀ x req, Taken s x → ∃ g, writeWord x (askOrigin s by_) wd raw be req = .done g ∧ JournalOnly (overlay x e) g ∧ Q g.jrn)
    (hc : e.calm) (hon : sysOn s = true → sysOn e = true) :
    ∃ t, byWrite s ha sel by_ = t ∧ AccessOnly e t ∧ AccessEnds s t ha by_ ∧ Q t.jrn := by
  obtain ⟨t, h1, h2, h3, h4⟩ := write_rowP (P := fun g => AccessOnly e g ∧ Q g.jrn) hw hsel hb
    (fun x req hx => by
      obtain ⟨g, h1, h2, h3⟩ := hE x req hx
      exact ⟨g, h1, by rw [h2]; rfl, by rw [h2]; rfl, h2.access, h3⟩)
    (fun g h m hg => ⟨hg.1.jrn_free h m, hg.2⟩) (fun g hg => hg.1.calm hc) (fun g hg h => by rw [hg.1.sysOn]; exact hon h)
  exact ⟨t, h1, h3, h2, h4⟩

/-! ## One word -/

/-- The words that writeWord treats by their fields alone. -/
def plainWd : Wd → Bool
  | .vote _ => false
  | .wakeReq => false
  | .portRst => false
  | .jrn _ _ => false
  | .bank b i => !isBasted b i && decide (b ≠ 0x81) && !(decide (b = 0x88) && (decide (i = 0) || decide (i = 0x10)))
  | _ => true

theorem isBasted_dir (b i : Nat) (h : b = 0x81) : isBasted b i = false := by subst h; simp [isBasted]

/-- R8, R9, R414: a word whose checks pass is changed, journaled and acted on. -/
theorem writeWord_go {o : Origin} {wd : Wd} {raw old v : Word} {be : BitVec 4} {req : Option (Pkt × Nat)} {j : Bool} (hp : plainWd wd = true)
    (hf : (fieldsOf wd).isEmpty = false) (ho : wordRead x o wd = old) (hv : mergeWord (fieldsOf wd) old raw be = v)
    (hres : reservedCode x wd old v = false) (hl : lacks x o (fieldsOf wd) old v = none) (ha : wordAsleep x wd = false)
    (hj : journals x o (fieldsOf wd) old v be = j) (ht : (fieldsOf wd).any (fun f => takes f old v) = true ∨ j = true) :
    writeWord x o wd raw be req = wordGo x o wd old v j := by
  have hdo : ((fieldsOf wd).any (fun f => takes f old v) || j) = true := by rcases ht with h | h <;> simp [h]
  unfold writeWord
  rw [ho]
  dsimp only
  rw [hv]
  cases wd with
  | bank b i =>
    simp only [plainWd, Bool.and_eq_true, Bool.not_eq_true', decide_eq_true_eq] at hp
    obtain ⟨⟨h1, h2⟩, h3⟩ := hp
    dsimp only
    split
    all_goals first | (simp_all; done) | skip
  | _ =>
    first
    | (simp [plainWd] at hp; done)
    | (dsimp only
       rw [if_neg (by simp), hf, if_neg (by simp), hres, hl, ha, hj]
       simp only [Bool.false_eq_true, if_false]
       rw [if_pos hdo])

/-- A change that waits for nothing is applied. -/
theorem wordGo_done {o : Origin} {wd : Wd} {old v : Word} {j : Bool} (h26 : wd ≠ .reg 0x26) (h06 : wd ≠ .reg 0x06) (hr : j = true → jRoom x = true) :
    wordGo x o wd old v j = .done (wordApply x o wd old v j) := by
  unfold wordGo
  rw [if_neg (by simp [h26]), if_neg (by simp [h06]), if_neg]
  intro h
  simp only [Bool.and_eq_true, Bool.not_eq_true'] at h
  rw [hr h.1] at h; exact absurd h.2 (by simp)

theorem lacks_none {o : Origin} {fs : List Fld} {old v : Word} (h : ∀ f ∈ fs, ∀ k, f.right = some k → holdsRight x o k = true) :
    lacks x o fs old v = none := by
  unfold lacks
  rw [List.find?_eq_none]
  intro k _ hk
  simp only [Bool.and_eq_true, Bool.not_eq_true', List.any_eq_true, decide_eq_true_eq] at hk
  obtain ⟨h1, f, hf, h2, -⟩ := hk
  rw [h f hf k h2] at h1; cases h1

theorem Taken.cfg (h : Taken s x) : x.cfg = s.cfg := by rw [h.1]
theorem Taken.doms (h : Taken s x) : x.doms = s.doms := by rw [h.1]
theorem Taken.jrn (h : Taken s x) : x.jrn = s.jrn := by rw [h.1]
theorem Taken.power (h : Taken s x) : x.power = s.power := by rw [h.1]
theorem Taken.ring (h : Taken s x) : x.ring = s.ring := by rw [h.1]
theorem Taken.ports (h : Taken s x) : x.ports = s.ports := by rw [h.1]
theorem Taken.bobs (h : Taken s x) : x.bobs = s.bobs := by rw [h.1]
theorem Taken.time (h : Taken s x) : x.time = s.time := by rw [h.1]
theorem Taken.chipnum (h : Taken s x) : x.chipnum = s.chipnum := by rw [h.1]
theorem Taken.cfgGet (h : Taken s x) (b i : Nat) : Machine.cfgGet x b i = Machine.cfgGet s b i := by unfold Machine.cfgGet; rw [h.cfg]
theorem Taken.domGet (h : Taken s x) (d : Nat) : Machine.domGet x d = Machine.domGet s d := by unfold Machine.domGet; rw [h.doms]
theorem Taken.portGet (h : Taken s x) (d : Nat) : Machine.portGet x d = Machine.portGet s d := by unfold Machine.portGet; rw [h.ports]
theorem Taken.bobGet (h : Taken s x) (d : Nat) : Machine.bobGet x d = Machine.bobGet s d := by unfold Machine.bobGet; rw [h.bobs]
theorem Taken.nvOn (h : Taken s x) : Machine.nvOn x = Machine.nvOn s := by unfold Machine.nvOn domOn; rw [h.domGet]
theorem Taken.sysOn (h : Taken s x) : Machine.sysOn x = Machine.sysOn s := by unfold Machine.sysOn domOn; rw [h.domGet]
theorem Taken.jRoom (h : Taken s x) : Machine.jRoom x = Machine.jRoom s := by
  unfold Machine.jRoom jPlace; rw [h.nvOn, h.jrn, h.1]
theorem Taken.holdsRight (h : Taken s x) (o : Origin) (k : Nat) : Machine.holdsRight x o k = Machine.holdsRight s o k := by
  unfold Machine.holdsRight rights; cases o with
  | host => rfl
  | fab c n i => dsimp only; rw [h.cfgGet]
theorem Taken.nodeGet (h : Taken s x) (k : BitVec 7) (m : Net) (hk : k ≠ nodeSys) : Machine.nodeGet x k m = Machine.nodeGet s k m := h.2.2.2.2.2 k m hk
/-- What the taking of an access left, over what the write does. -/
theorem Taken.eq (h : Taken s x) : x = overlay x s := h.1

theorem jOrigin_stages {o : Origin} (tid : Half) (v : Word) (hn : nvOn s = true) : StagesOne s (jOrigin s o tid v) (originKind o) tid v := by
  unfold jOrigin; exact jPut_stages _ _ _ _ _ hn

/-- What StagesOne says, of the journal alone. -/
def Staged (s : State) (kind : BitVec 3) (tid : Half) (v : Word) (j : Journal) : Prop :=
  ∃ e, j.staging = s.jrn.staging ++ [e] ∧ e.ts = s.time.ts ∧ e.okind = kind ∧ e.tid = tid ∧ e.value = v

theorem Writes.be_ne {ha : BitVec 6} {wd : Wd} {raw : Word} {be : BitVec 4} {by_ : By} (h : Writes s ha wd raw be by_) : be ≠ 0 := by
  cases by_ with
  | host hd => obtain ⟨_, _, _, rfl⟩ := h; decide
  | fabric net => obtain ⟨_, _, _, _, _, _, _, _, _, _, _, h, _⟩ := h; exact h

/-- The usual ending of a write: the change e of the words, then its entry. -/
theorem entry_row {by_ : By} {e g : State} (hn : nvOn s = true) (tid : Half) (w : Word)
    (he : g = jOrigin (overlay x e) (askOrigin s by_) tid w) (hj : e.jrn = s.jrn) (hd : (domGet e 67).st = (domGet s 67).st) (hti : e.time.ts = s.time.ts) :
    JournalOnly (overlay x e) g ∧ Staged s (originKind (askOrigin s by_)) tid w g.jrn := by
  subst he
  refine ⟨jOrigin_shape _ _ _ _, ?_⟩
  have hn' : nvOn (overlay x e) = true := by
    unfold nvOn domOn at hn ⊢
    rw [show (domGet (overlay x e) 67).st = (domGet s 67).st from hd]; exact hn
  obtain ⟨y, h1, h2, h3⟩ := jOrigin_stages (s := overlay x e) (o := askOrigin s by_) tid w hn'
  exact ⟨y, by rw [h1]; show e.jrn.staging ++ _ = _; rw [hj], by rw [h2]; exact hti, h3⟩

/-- A write of a word by its fields, whoever makes it: what holds once it is applied holds of the row. -/
theorem word_rowP {ha : BitVec 6} {wd : Wd} {raw old v : Word} {be : BitVec 4} {by_ : By} {sel : Origin → Wd → Word → Bool} {P : State → Prop}
    {j : Bool} (hw : Writes s ha wd raw be by_) (hsel : sel (askOrigin s by_) wd raw = true)
    (hb : match wd with | .bank b i => bankHas b i = true ∧ ha = 0x0A | .reg i => ha.toNat = i ∧ (i = 6 ∨ i = 0x13 ∨ i = 0x26 ∨ i = 0x2A)
                        | .domcmd _ => ha = 0x15 | .iso _ => ha = 0x25 ∧ raw.getLsbD 0 = true | _ => False)
    (hp : plainWd wd = true) (hf : (fieldsOf wd).isEmpty = false) (hv : mergeWord (fieldsOf wd) old raw be = v)
    (hold : ∀ x, Taken s x → wordRead x (askOrigin s by_) wd = old) (hres : ∀ x, Taken s x → reservedCode x wd old v = false)
    (hright : ∀ f ∈ fieldsOf wd, ∀ k, f.right = some k → holdsRight s (askOrigin s by_) k = true)
    (ha' : ∀ x, Taken s x → wordAsleep x wd = false) (hj : ∀ x, Taken s x → journals x (askOrigin s by_) (fieldsOf wd) old v be = j)
    (ht : (fieldsOf wd).any (fun f => takes f old v) = true ∨ j = true) (hr : j = true → jRoom s = true)
    (h26 : ∀ x, Taken s x → wordGo x (askOrigin s by_) wd old v j = .done (wordApply x (askOrigin s by_) wd old v j))
    (hE : ∀ x g, Taken s x → wordApply x (askOrigin s by_) wd old v j = g → g.host = x.host ∧ g.mesh = x.mesh ∧ P g)
    (hP : ∀ g h m, P g → P { g with host := h, mesh := m }) (hc : ∀ g, P g → g.calm) (hon : ∀ g, P g → sysOn s = true → sysOn g = true) :
    ∃ t, byWrite s ha sel by_ = t ∧ AccessEnds s t ha by_ ∧ P t := by
  refine write_rowP hw hsel hb ?_ hP hc hon
  intro x req hx
  refine ⟨_, ?_, hE x _ hx rfl⟩
  rw [writeWord_go hp hf (hold x hx) hv (hres x hx) (lacks_none fun f hf k hk => by rw [hx.holdsRight]; exact hright f hf k hk) (ha' x hx) (hj x hx) ht]
  exact h26 x hx

/-- A write of a word by its fields, whoever makes it: what its application does is what the row does. -/
theorem word_row {ha : BitVec 6} {wd : Wd} {raw old v : Word} {be : BitVec 4} {by_ : By} {sel : Origin → Wd → Word → Bool} {e : State} {Q : Journal → Prop}
    {j : Bool} (hw : Writes s ha wd raw be by_) (hsel : sel (askOrigin s by_) wd raw = true)
    (hb : match wd with | .bank b i => bankHas b i = true ∧ ha = 0x0A | .reg i => ha.toNat = i ∧ (i = 6 ∨ i = 0x13 ∨ i = 0x26 ∨ i = 0x2A)
                        | .domcmd _ => ha = 0x15 | .iso _ => ha = 0x25 ∧ raw.getLsbD 0 = true | _ => False)
    (hp : plainWd wd = true) (hf : (fieldsOf wd).isEmpty = false) (hv : mergeWord (fieldsOf wd) old raw be = v)
    (hold : ∀ x, Taken s x → wordRead x (askOrigin s by_) wd = old) (hres : ∀ x, Taken s x → reservedCode x wd old v = false)
    (hright : ∀ f ∈ fieldsOf wd, ∀ k, f.right = some k → holdsRight s (askOrigin s by_) k = true)
    (ha' : ∀ x, Taken s x → wordAsleep x wd = false) (hj : ∀ x, Taken s x → journals x (askOrigin s by_) (fieldsOf wd) old v be = j)
    (ht : (fieldsOf wd).any (fun f => takes f old v) = true ∨ j = true) (hr : j = true → jRoom s = true)
    (h26 : ∀ x, Taken s x → wordGo x (askOrigin s by_) wd old v j = .done (wordApply x (askOrigin s by_) wd old v j))
    (hE : ∀ x, Taken s x → JournalOnly (overlay x e) (wordApply x (askOrigin s by_) wd old v j) ∧ Q (wordApply x (askOrigin s by_) wd old v j).jrn)
    (hc : e.calm) (hon : sysOn s = true → sysOn e = true) :
    ∃ t, byWrite s ha sel by_ = t ∧ AccessOnly e t ∧ AccessEnds s t ha by_ ∧ Q t.jrn := by
  refine write_row hw hsel hb ?_ hc hon
  intro x req hx
  refine ⟨_, ?_, hE x hx⟩
  rw [writeWord_go hp hf (hold x hx) hv (hres x hx) (lacks_none fun f hf k hk => by rw [hx.holdsRight]; exact hright f hf k hk) (ha' x hx) (hj x hx) ht]
  exact h26 x hx

/-- A bank word outside BCFG and ALCTL: the change, the whole new word as its entry's value, what follows. -/
theorem wordApply_bank {o : Origin} {b i : Nat} {old v : Word} {j : Bool} (h87 : b ≠ 0x87) (h83 : ¬(b = 0x83 ∧ i = 3)) :
    wordApply x o (.bank b i) old v j = wordAfter x (if j then jOrigin (bankPut x b i v) o (tidBank b i) (bankWord (bankPut x b i v) o b i)
      else bankPut x b i v) o (.bank b i) v := by
  have h1 : ∀ u : State, wordValue u o (.bank b i) v = bankWord u o b i := by
    intro u
    by_cases h : b = 0x83
    · subst h
      have : i ≠ 3 := fun h => h83 ⟨rfl, h⟩
      unfold wordValue
      split
      all_goals first | rfl | (exfalso; simp_all; done)
    · unfold wordValue
      split
      all_goals first | rfl | (exfalso; simp_all; done)
  unfold wordApply
  dsimp only
  split
  · split
    · rename_i h; simp only [Wd.bank.injEq] at h; exact absurd h.1 h87
    · simp only [h1]; rfl
  · split
    · rename_i h; simp only [Wd.bank.injEq] at h; exact absurd h.1 h87
    · rfl

/-- R420: the plain words of a port bank. -/
theorem port_facts (n i : Nat) (hn : n < 0x40) (hi : i < 0x10 ∨ i = 0xE4) (hi4 : i ≠ 4) : counterAt n i = none ∧ bankFields n i = portFields i ∧
    plainWd (.bank n i) = true ∧ ∀ s o, bankWord s o n i = portWord s n i := by
  have h1 : counterAt n i = none := by unfold counterAt; rw [if_pos hn, if_neg (by omega)]
  have h2 : isBasted n i = false := by
    unfold isBasted
    have : n ≠ 0x80 := by omega
    simp [this]; omega
  refine ⟨h1, ?_, ?_, ?_⟩
  · unfold bankFields; rw [h1]; dsimp only; rw [if_pos hn]
  · have h3 : n ≠ 0x81 := by omega
    have h4 : n ≠ 0x88 := by omega
    simp [plainWd, h2, h3, h4]
  · intro s o; unfold bankWord; rw [h1]; dsimp only; rw [if_pos hn]

end Sys2Proof.Machine
end

