-- ==== Sys2Proof/Laws/Power.lean ====
section
/-!
SUPPORT. Resets and start-up (18), domains that stay as they are (11), a port that dies with no work of its own (14).
-/
namespace Sys2Proof.Machine

theorem wideReturn_spec (s : State) (ret rec link tack : Bool) : Returned s (wideReturn s ret rec link tack) ret rec link tack := by
  refine ⟨fun k => ?_, ?_⟩
  · have h : (wideReturn s ret rec link tack).cfg =
        (s.cfg.filter (fun e => !(fun b _ => !(decide (b < 0x80) || decide (b = 0x83) || decide (b = 0x85))) (e.1 / 65536) (e.1 % 65536))).filter (fun e => !(fun (b _ : Nat) => (decide (b < 0x40) && ret) || (decide (0x40 ≤ b) && decide (b < 0x80)) || (decide (b = 0x83) && tack) || decide (b = 0x85)) (e.1 / 65536) (e.1 % 65536)) := rfl
    rw [h, tget_filterKey (f := fun k => !((decide (k / 65536 < 0x40) && ret) || (decide (0x40 ≤ k / 65536) && decide (k / 65536 < 0x80)) || (decide (k / 65536 = 0x83) && tack) || decide (k / 65536 = 0x85))),
      tget_filterKey (f := fun k => !(!(decide (k / 65536 < 0x80) || decide (k / 65536 = 0x83) || decide (k / 65536 = 0x85))))]
    cases ret <;> cases tack <;> simp <;> (repeat' split) <;> first | rfl | (exfalso; omega) | (intros; exfalso; omega)
  · cases ret <;> cases rec <;> cases link <;> cases tack <;> rfl

theorem domOff4 (u : State) (d : Nat) :
    domGet ([64, 65, 66, 67].foldl (fun t d => domMod t d (fun x => { x with st := .off })) u) d =
      if 64 ≤ d ∧ d < 68 then { domGet u d with st := .off } else domGet u d := by
  by_cases h : 64 ≤ d ∧ d < 68
  · rw [if_pos h]
    have : d = 64 ∨ d = 65 ∨ d = 66 ∨ d = 67 := by omega
    simp only [List.foldl_cons, List.foldl_nil]
    rcases this with rfl | rfl | rfl | rfl <;> simp [domGet_domMod]
  · rw [if_neg h]
    simp only [List.foldl_cons, List.foldl_nil]
    simp only [domGet_domMod]
    simp [show ¬ d = 64 by omega, show ¬ d = 65 by omega, show ¬ d = 66 by omega, show ¬ d = 67 by omega]

theorem startUp_spec (s : State) (c : BitVec 4) : StartsUp s (startUp s c) c := by
  refine ⟨[64, 65, 66, 67].foldl (fun t d => domMod t d (fun x => { x with st := .off })) s, ⟨domOff4 s, rfl⟩, rfl, ?_⟩
  unfold startUp chipLadder
  generalize hv : [64, 65, 66, 67].foldl (fun t d => domMod t d (fun x => { x with st := .off })) s = v
  have hp : v.power = s.power := by subst hv; rfl
  have hj : v.jrn = s.jrn := by subst hv; rfl
  have ht : v.time = s.time := by subst hv; rfl
  dsimp only
  rw [show (timeMod (powMod v fun p => { p with mode := .ladder (.reset (if s.power.ladderBad then 7 else c)) 0, req := none, second := false, regDone := false, limp := false }) (fun t => { t with ts := 0, isoCount := 0, bwCount := 0 })) = ({ v with power := { s.power with mode := .ladder (.reset (if s.power.ladderBad then 7 else c)) 0, req := none, second := false, regDone := false, limp := false }, time := { s.time with ts := 0, isoCount := 0, bwCount := 0 } } : State) by unfold timeMod powMod; rw [hp, ht]]
  by_cases hh : s.power.hush = true
  · rw [if_pos (show v.power.hush = true by rw [hp]; exact hh), if_pos hh]
    unfold jrnMod; rw [hj]
  · rw [if_neg (show ¬ v.power.hush = true by rw [hp]; exact hh), if_neg hh]
    unfold jrnMod sendVolt powMod; dsimp only; rw [hj]; rfl

theorem heldReset_spec (s : State) : HeldReset s (heldReset s) := by
  refine ⟨wideReturn s true true true true, wideReturn_spec s _ _ _ _, ⟨?_, rfl⟩, rfl⟩
  exact domOff4 (wideReturn s true true true true)

theorem evalDoms_still {s : State} (h : s.domsStill) : evalDoms s = s := by
  have : ∀ l : List Nat, (∀ d ∈ l, d < 66) → l.foldl evalDom s = s := by
    intro l
    induction l with
    | nil => intro _; rfl
    | cons d l ih =>
      intro hl
      have e : evalDom s d = s := by
        unfold evalDom; dsimp only
        by_cases h64 : d = 64 ∨ 66 ≤ d
        · rw [if_pos h64]
        · rw [if_neg h64]
          have hd := h d (hl d (by simp)) (by omega)
          split
          · rename_i he; rw [if_pos (hd.1 he)]
          · rename_i he; rw [if_neg (by simp [hd.2 he])]
          · rfl
      rw [List.foldl_cons, e]; exact ih (fun k hk => hl k (by simp [hk]))
  exact this _ (fun d hd => List.mem_range.mp hd)

theorem domsStill_congr {s t : State} (hd : t.doms = s.doms) (hn : s.time.patrol = none) (ht : t.time.patrol = none)
    (hm : t.power.moving = s.power.moving) (hmo : t.power.mode = s.power.mode) (h : s.domsStill) : t.domsStill := by
  intro d hd' hd64
  have e : domGet t d = domGet s d := by unfold domGet; rw [hd]
  have w : wantedOn t d = wantedOn s d := by unfold wantedOn; dsimp only; rw [e, ht, hn, hm, hmo]
  rw [e, w]; exact h d hd' hd64

theorem portGet_nodes (s : State) (m : Mesh) (n : Nat) : portGet { s with mesh := m } n = portGet s n := rfl

theorem finishPort_alone {s : State} {n : Nat} (st : Status) (h : portAlone s n) :
    PortAndNode s (finishPort s n st) n { portGet s n with tgt := none, claimed := false, claiming := false } (portNode n) .rsp
      { nodeGet s (portNode n) .rsp with out := match (portGet s n).tgt with
        | some r => (nodeGet s (portNode n) .rsp).out ++ pktUnits (responsePkt r.pkt st []) | none => (nodeGet s (portNode n) .rsp).out } ∧
    (finishPort s n st).mesh = { s.mesh with nodes := (finishPort s n st).mesh.nodes } := by
  obtain ⟨h1, h2, h3, h4, h5, h6, h7, h8⟩ := h
  have e1 : ∃ a, intakeFail s n st true = a ∧ PortBecomes s a n (portGet s n) := by
    refine ⟨_, rfl, ?_⟩
    unfold intakeFail; dsimp only
    rw [h2, h1, h3]
    dsimp only [Option.toList, List.append_nil, List.foldl_nil]
    have g := ((PortBecomes.refl s n).mod (fun q => { q with captured := none })).mod (fun q => { q with intake := [] })
    have : ({ ({ portGet s n with captured := none } : PortSt) with intake := [] } : PortSt) = portGet s n := by
      have : portGet s n = { portGet s n with captured := none, intake := [] } := by
        conv_lhs => rw [show portGet s n = { portGet s n with captured := (portGet s n).captured, intake := (portGet s n).intake } from rfl, h3, h1]
      exact this.symm
    rw [this] at g; exact g
  obtain ⟨a, ea, ga⟩ := e1
  have e2 : portTagsDone a n (fun _ => true) st = a := by
    unfold portTagsDone
    rw [ga.1]
    exact congrArg (List.foldl (fun u e => portTagDone u n (BitVec.ofNat 8 e.1) st []) a) (heldTags_nil _ h4 (fun _ => true))
  have na : ∀ k m, nodeGet a k m = nodeGet s k m := fun k m => by unfold nodeGet; rw [ga.2.2.1]
  unfold finishPort
  rw [ea, e2]
  -- the target side
  have e3 : ∃ b, targetFail a n st = b ∧ portGet b n = { portGet s n with tgt := none, claimed := false, claiming := false } ∧
      (∀ m, m ≠ n → portGet b m = portGet s m) ∧
      (∀ k m, nodeGet b k m = if k = portNode n ∧ m = .rsp then { nodeGet s (portNode n) .rsp with out := match (portGet s n).tgt with
        | some r => (nodeGet s (portNode n) .rsp).out ++ pktUnits (responsePkt r.pkt st []) | none => (nodeGet s (portNode n) .rsp).out } else nodeGet s k m) ∧ PortsOnly s b ∧ b.mesh = { s.mesh with nodes := b.mesh.nodes } := by
    refine ⟨_, rfl, ?_⟩
    unfold targetFail; dsimp only
    rw [na, na, h7 .req (by simp), h7 .dat (by simp), ga.1, h6]
    have hp := ga.mod (fun q => { q with tgt := none, fences := [], claimed := false, claiming := false })
    generalize hb : portMod a n (fun q => { q with tgt := none, fences := [], claimed := false, claiming := false }) = b at hp
    have nb : ∀ k m, nodeGet b k m = nodeGet s k m := fun k m => by unfold nodeGet; rw [hp.2.2.1]
    have hrx : ∀ (x : State) (m : Net), (nodeGet x (portNode n) m).rx = [] → ({ nodeGet x (portNode n) m with rx := [] } : NodeQ) = nodeGet x (portNode n) m := by
      intro x m hm
      cases hq : nodeGet x (portNode n) m with | mk o p r => rw [hq] at hm; simp only at hm; rw [hm]
    have nc : ∀ k m, nodeGet (nodeMod (nodeMod b (portNode n) .req (fun q => { q with rx := [] })) (portNode n) .dat (fun q => { q with rx := [] })) k m = nodeGet s k m := by
      intro k m
      by_cases h1 : k = portNode n ∧ m = .dat
      · rw [h1.1, h1.2, nodeGet_nodeMod_same, nodeGet_nodeMod_ne _ _ _ _ _ _ (by simp), nb, hrx _ _ (h7 .dat (by simp))]
      · rw [nodeGet_nodeMod_ne _ _ _ _ _ _ h1]
        by_cases h2 : k = portNode n ∧ m = .req
        · rw [h2.1, h2.2, nodeGet_nodeMod_same, nb, hrx _ _ (h7 .req (by simp))]
        · rw [nodeGet_nodeMod_ne _ _ _ _ _ _ h2, nb]
    cases ht : (portGet s n).tgt with
    | none =>
      dsimp only [List.append_nil, List.nil_append, List.filter_nil, List.foldl_nil]
      refine ⟨hp.1, fun m hm => hp.2.1 m hm, fun k m => ?_, ?_⟩
      · rw [nc]; split
        · rename_i h; rw [h.1, h.2]
        · rfl
      · exact ⟨hp.2.2.2.trans rfl, by rw [← hp.2.2.1]; rfl⟩
    | some r =>
      obtain ⟨r1, r2, r3⟩ := h8 r ht
      have hf : (([r.pkt] ++ [] ++ [] ++ []).filter (fun q => q.hasAddr && !q.addrBad)) = [r.pkt] := by simp [r2, r3]
      rw [hf]
      dsimp only [List.foldl_cons, List.foldl_nil]
      refine ⟨hp.1, fun m hm => hp.2.1 m hm, fun k m => ?_, ?_⟩
      · unfold respond sendPkt
        rw [r1]
        by_cases h : k = portNode n ∧ m = .rsp
        · rw [if_pos h, h.1, h.2, nodeGet_nodeMod_same, nc]
        · rw [if_neg h, nodeGet_nodeMod_ne _ _ _ _ _ _ h, nc]
      · exact ⟨hp.2.2.2.trans rfl, by rw [← hp.2.2.1]; rfl⟩
  obtain ⟨b, eb, b1, b2, b3, b4, b5⟩ := e3
  rw [eb]
  have hrp : (portGet b n).replay = none := by rw [b1]; exact h5
  have hsnp : (nodeGet b (portNode n) .snp).rx = [] := by rw [b3, if_neg (by simp)]; exact h7 .snp (by simp)
  unfold replayFail; dsimp only
  rw [hrp, hsnp]
  dsimp only [Option.isSome, List.length_nil]
  show PortAndNode s (nodeMod (portMod b n (fun q => { q with replay := none })) (portNode n) .snp (fun q => { q with rx := [] })) _ _ _ _ _ ∧ (nodeMod (portMod b n (fun q => { q with replay := none })) (portNode n) .snp (fun q => { q with rx := [] })).mesh = _
  refine ⟨⟨?_, fun m hm => ?_, ?_, fun k m hk => ?_, ?_⟩, ?_⟩
  · show portGet (portMod b n (fun q => { q with replay := none })) n = _
    rw [portGet_portMod_same, b1]
    rw [show ({ ({ portGet s n with tgt := none, claimed := false, claiming := false } : PortSt) with replay := none } : PortSt) = { portGet s n with tgt := none, claimed := false, claiming := false, replay := (portGet s n).replay } by rw [h5]]
  · show portGet (portMod b n (fun q => { q with replay := none })) m = _
    rw [portGet_portMod_ne _ _ _ _ hm, b2 m hm]
  · rw [nodeGet_nodeMod_ne _ _ _ _ _ _ (by simp)]
    show nodeGet b _ _ = _
    rw [b3, if_pos ⟨rfl, rfl⟩]
  · by_cases h : k = portNode n ∧ m = .snp
    · rw [h.1, h.2, nodeGet_nodeMod_same]
      show ({ nodeGet b (portNode n) .snp with rx := [] } : NodeQ) = _
      have : nodeGet b (portNode n) .snp = nodeGet s (portNode n) .snp := by rw [b3, if_neg (by simp)]
      rw [this]
      cases hq : nodeGet s (portNode n) .snp with | mk o p r => have := h7 .snp (by simp); rw [hq] at this; simp only at this; rw [this]
    · rw [nodeGet_nodeMod_ne _ _ _ _ _ _ h]
      show nodeGet b k m = _
      rw [b3, if_neg hk]
  · exact b4.trans rfl
  · have hm : ∀ f h, (nodeMod (portMod b n f) (portNode n) .snp h).mesh = { b.mesh with nodes := (nodeMod (portMod b n f) (portNode n) .snp h).mesh.nodes } :=
      fun _ _ => rfl
    refine (hm _ _).trans ?_
    rw [b5]; rfl

theorem FaultPlain.congr {s t : State} {src : Nat} {code : BitVec 5} (hj : t.jrn = s.jrn) (hd : t.doms = s.doms) (hc : t.cfg = s.cfg) (hf : t.faults = s.faults)
    (h : FaultPlain s src code) : FaultPlain t src code := by
  obtain ⟨h1, h2, h3⟩ := h
  refine ⟨?_, ?_, ?_⟩
  · unfold hwRoom nvOn domOn domGet at *; rw [hj, hd]; exact h1
  · unfold faultdb cfgGet at *; rw [hc]; exact h2
  · unfold faultGet at *; rw [hf]; exact h3

/-- A port with no work of its own dies: what PortDies says, and the mesh holds what it held but for packets at nodes. -/
theorem portDie_alone_mesh {s : State} {n : Nat} {cause : BitVec 5} (detail : Half) (hd : (portGet s n).dead = false) (h : portAlone s n) (hf : FaultPlain s n cause) :
    PortDies s (portDie s n cause detail) n cause detail (if cause = fCLKSTOP ∨ cause = fOSCRUNG then .timeout else .isolated) ∧
    (portDie s n cause detail).mesh = { s.mesh with nodes := (portDie s n cause detail).mesh.nodes } := by
  unfold portDie
  rw [if_neg (by simp [hd])]
  dsimp only
  have g := finishPort_alone (if cause = fCLKSTOP ∨ cause = fOSCRUNG then Status.timeout else .isolated) h
  generalize finishPort s n (if cause = fCLKSTOP ∨ cause = fOSCRUNG then Status.timeout else .isolated) = a at g
  obtain ⟨⟨g1, g2, g3, g4, g5⟩, g6⟩ := g
  generalize hb : portMod a n (fun p => { p with dead := true, cause := cause, quiet := true, clockStop := decide (cause = fCLKSTOP ∨ cause = fOSCRUNG) }) = b
  have hba : b = { a with ports := b.ports } := by subst hb; rfl
  have hr : FaultRaised b (raiseFault b n cause detail) n cause detail := by
    apply raiseFault_plain
    refine FaultPlain.congr (s := s) ?_ ?_ ?_ ?_ hf
    all_goals (rw [hba, g5])
  refine ⟨⟨b, ⟨?_, fun m hm => ?_, ?_, fun k m hk => ?_, ?_⟩, hr⟩, ?_⟩
  · rw [← hb, portGet_portMod_same, g1]
  · rw [← hb, portGet_portMod_ne _ _ _ _ hm, g2 m hm]
  · rw [hba]; exact g3
  · rw [hba]; exact g4 k m hk
  · rw [hba]; exact g5.trans rfl
  · rw [hr.2.2.2.2]; show b.mesh = _; rw [hba]; exact g6

theorem portDie_alone {s : State} {n : Nat} {cause : BitVec 5} (detail : Half) (hd : (portGet s n).dead = false) (h : portAlone s n) (hf : FaultPlain s n cause) :
    PortDies s (portDie s n cause detail) n cause detail (if cause = fCLKSTOP ∨ cause = fOSCRUNG then .timeout else .isolated) :=
  (portDie_alone_mesh detail hd h hf).1

theorem PortDies.calm {s t : State} {n : Nat} {c : BitVec 5} {d : Half} {st : Status} (h : PortDies s t n c d st) (hc : s.calm) : t.calm := by
  obtain ⟨u, h1, h2⟩ := h
  exact h2.2.2.2.2.calm (h1.2.2.2.2.calm hc)

theorem tackingNow_calm {s : State} (h : s.calm) : tackingNow s = false := by
  unfold tackingNow; rw [h.2.2.2.2.1, h.1]; rfl

theorem Enters.nv {s s' t : State} {k : BitVec 3} {tid : Half} {v : Word} (hn : nvOn s' = nvOn s) (hj : s'.jrn = s.jrn) (ht : s'.time = s.time)
    (h : Enters s' t k tid v) : Enters s t k tid v := by
  unfold Enters StagesOne at *; rw [hn, hj, ht] at h; exact h

theorem domstatWord_congr {s t : State} (d : Nat) (hd : ∀ k, domGet t k = domGet s k) (hp : ∀ n, portGet t n = portGet s n) (hc : t.cfg = s.cfg) (hpo : t.power = s.power)
    (ht : t.time = s.time) (hch : t.chipnum = s.chipnum) : domstatWord t d = domstatWord s d := by
  have w : wantedOn t d = wantedOn s d := by
    unfold wantedOn tport tackSeam tdest tact cfgGet; rw [hd, ht, hpo, hc, hch]
  unfold domstatWord wakep domDead tackingNow
  rw [hd, hp, hpo, ht, w]

theorem domBecomes_changeT {s : State} (hc : tackingNow s = false) (hr : hwRoom s = true) (d : Nat) (h67 : d ≠ 67) (f : Dom → Dom) :
    DomBecomes s (domChange s d f) d (f (domGet s d)) := by
  unfold domChange; dsimp only
  have h1 : domGet (domMod s d f) d = f (domGet s d) := domGet_domMod_same ..
  split
  · rename_i h
    refine ⟨h1, fun k hk => domGet_domMod_ne _ _ _ _ hk, fun _ => rfl, ⟨fun _ => rfl, fun hne => ?_⟩, rfl⟩
    rcases h with h | h
    · rw [h1] at h; exact absurd h.symm hne
    · rw [hc] at h; cases h
  · have hn : nvOn (domMod s d f) = nvOn s := by unfold nvOn domOn; rw [domGet_domMod_ne _ _ _ _ (Ne.symm h67)]
    have hr' : hwRoom (domMod s d f) = true := by unfold hwRoom at hr ⊢; rw [hn]; exact hr
    have k1 := jHw_shape (domMod s d f) kHARDWARE (tidDom 1 d) ((domstatWord (domMod s d f) d).setWidth 32) false
    have k2 := jHw_enters (s := domMod s d f) kHARDWARE (tidDom 1 d) ((domstatWord (domMod s d f) d).setWidth 32) false hr'
    generalize hy : jHw (domMod s d f) kHARDWARE (tidDom 1 d) ((domstatWord (domMod s d f) d).setWidth 32) false = y at k1 k2
    have hd : ∀ k, domGet y k = domGet (domMod s d f) k := fun k => by unfold domGet; rw [k1]
    refine ⟨by rw [hd, h1], fun k hk => by rw [hd]; exact domGet_domMod_ne _ _ _ _ hk, fun n => by unfold portGet; rw [k1]; rfl, ⟨fun he => ?_, fun _ => ?_⟩, ?_⟩
    · rename_i hnot; exact absurd (Or.inl (by rw [h1]; exact he.symm)) hnot
    · rw [domstatWord_congr (s := domMod s d f) d hd (fun n => by unfold portGet; rw [k1]) (by rw [k1]) (by rw [k1]) (by rw [k1]) (by rw [k1])]
      exact k2.nv hn rfl rfl
    · rw [k1]; rfl

theorem domBecomes_change {s : State} (hc : s.calm) (hr : hwRoom s = true) (d : Nat) (h67 : d ≠ 67) (f : Dom → Dom) :
    DomBecomes s (domChange s d f) d (f (domGet s d)) := domBecomes_changeT (tackingNow_calm hc) hr d h67 f

theorem DomBecomes.rfl' {s : State} (d : Nat) : DomBecomes s s d (domGet s d) := ⟨rfl, fun _ _ => rfl, fun _ => rfl, ⟨fun _ => rfl, fun h => absurd rfl h⟩, rfl⟩

theorem DomBecomes.calm {s t : State} {d : Nat} {x : Dom} (h : DomBecomes s t d x) (hc : s.calm) : t.calm := by
  refine calm_congr ?_ ?_ ?_ ?_ hc <;> rw [h.2.2.2.2]

theorem evalDom_any {s : State} (hc : s.calm) (hr : hwRoom s = true) (d : Nat) (hf : (domGet s d).st = .on → wantedOn s d = false → fenceEmpty s d) :
    DomBecomes s (evalDom s d) d (domNext s d) := by
  unfold evalDom domNext; dsimp only
  by_cases hcore : d = 64 ∨ 66 ≤ d
  · rw [if_pos hcore, if_pos hcore]; exact .rfl' d
  rw [if_neg hcore, if_neg hcore]
  split
  · rename_i he
    by_cases hw : wantedOn s d = true
    · rw [if_pos hw, if_neg (by simp [he]), if_neg (by simp [hw])]; exact .rfl' d
    · have hw' : wantedOn s d = false := by simpa using hw
      rw [if_neg hw, if_neg (by simp [he]), if_pos ⟨he, hw'⟩]
      have hf := hf he hw'
      have g := domBecomes_change hc hr d (by omega) (fun x => { x with st := .hemming, hem := .drain })
      unfold startHem
      unfold fenceEmpty at hf
      by_cases hd : d < 64
      · rw [if_pos hd] at hf
        rw [if_neg (by rintro ⟨h, _⟩; omega)]
        dsimp only; rw [if_pos hd]
        generalize domChange s d (fun x => { x with st := .hemming, hem := .drain }) = y at g
        obtain ⟨h1, h2, h3⟩ := hf
        unfold intakeFail; dsimp only
        rw [g.2.2.1, h1, h2, h3]
        show DomBecomes s (portMod (portMod y d (fun q => { q with captured := none })) d (fun q => { q with intake := [] })) d _
        refine ⟨g.1, g.2.1, fun n => ?_, ⟨fun he => g.2.2.2.1.1 he, ?_⟩, ?_⟩
        · by_cases hn : n = d
          · subst hn
            rw [portGet_portMod_same, portGet_portMod_same, g.2.2.1]
            rw [show ({ ({ portGet s n with captured := none } : PortSt) with intake := [] } : PortSt) = { portGet s n with captured := (portGet s n).captured, intake := (portGet s n).intake } by rw [h1, h3]]
          · rw [portGet_portMod_ne _ _ _ _ hn, portGet_portMod_ne _ _ _ _ hn, g.2.2.1]
        · intro hne
          have := g.2.2.2.1.2 hne
          have e : domstatWord (portMod (portMod y d (fun q => { q with captured := none })) d (fun q => { q with intake := [] })) d = domstatWord y d := by
            refine domstatWord_congr d (fun _ => rfl) (fun n => ?_) rfl rfl rfl rfl
            by_cases hn : n = d
            · subst hn
              rw [portGet_portMod_same, portGet_portMod_same, g.2.2.1]
              rw [show ({ ({ portGet s n with captured := none } : PortSt) with intake := [] } : PortSt) = { portGet s n with captured := (portGet s n).captured, intake := (portGet s n).intake } by rw [h1, h3]]
            · rw [portGet_portMod_ne _ _ _ _ hn, portGet_portMod_ne _ _ _ _ hn]
          rw [e]; exact Enters.congr rfl this
        · rw [show ∀ (q : State) (m : Nat) (f : PortSt → PortSt), portMod q m f = { q with ports := (portMod q m f).ports } from fun _ _ _ => rfl]
          have h5 := g.2.2.2.2
          generalize (portMod (portMod y d _) d _).ports = ps
          rw [h5]; rfl
      · rw [if_neg hd] at hf
        rw [if_neg (by rintro ⟨_, h⟩; rw [hf] at h; cases h)]
        dsimp only; rw [if_neg hd]; exact g
  · rename_i he
    by_cases hw : wantedOn s d = true ∧ mayWake s d = true
    · rw [if_pos (by simp [hw.1, hw.2]), if_pos ⟨he, hw⟩]
      exact domBecomes_change hc hr d (by omega) _
    · rw [if_neg (by simpa using hw), if_neg (by rintro ⟨_, h⟩; exact hw h), if_neg (by simp [he])]
      exact .rfl' d
  · rename_i h1 h2
    rw [if_neg (by simp; intro h; exact absurd h h2), if_neg (by simp; intro h; exact absurd h h1)]
    exact .rfl' d

theorem evalDom_spec {s : State} (hc : s.calm) (hr : hwRoom s = true) (d : Nat) (_ : d < 66) (hf : (domGet s d).st = .on → wantedOn s d = false → fenceEmpty s d) :
    DomBecomes s (evalDom s d) d (domNext s d) := evalDom_any hc hr d hf

theorem hwRoom_domSet {s : State} (d : Nat) (x : Dom) (hd : d ≠ 67) : hwRoom (domSet s d x) = hwRoom s := by
  unfold hwRoom nvOn domOn; rw [domGet_domSet_ne _ _ _ _ (Ne.symm hd)]; rfl

theorem DomBecomes.access {u g : State} {d : Nat} {x : Dom} (h : DomBecomes u g d x) (k : HostIf) (m : Mesh) :
    DomBecomes { u with host := k, mesh := m } { g with host := k, mesh := m } d x := by
  obtain ⟨h1, h2, h3, h4, h5⟩ := h
  refine ⟨h1, h2, h3, ⟨fun he => h4.1 he, fun hne => h4.2 hne⟩, ?_⟩
  generalize hy : ({ g with host := k, mesh := m } : State) = y
  have : y = { g with host := y.host, mesh := y.mesh } ∧ y.host = k ∧ y.mesh = m := by subst hy; exact ⟨rfl, rfl, rfl⟩
  obtain ⟨e, e1, e2⟩ := this
  rw [e, h5, e1, e2]

theorem AccessOnly.nvOn {e g : State} (h : AccessOnly e g) : Machine.nvOn g = Machine.nvOn e := by
  unfold Machine.nvOn domOn domGet; rw [h]

/-- What a domain does after a change e of its words that was journaled as z (R254). -/
theorem dom_entry {s x0 e z : State} (hj : JournalOnly (overlay x0 e) z) (h67 : (domGet e 67).st = (domGet s 67).st) (hn : nvOn s = true)
    (hl : z.jrn.staging.length < 72) (hc : e.calm) {d : Nat} (hd : d < 66)
    (hf : (domGet e d).st = .on → wantedOn e d = false → fenceEmpty e d) :
    AccessOnly e z ∧ (evalDom z d).host = x0.host ∧ (evalDom z d).mesh = x0.mesh ∧ (evalDom z d).calm ∧ (sysOn e = true → sysOn (evalDom z d) = true) ∧
      DomBecomes z (evalDom z d) d (domNext z d) := by
  have ja : AccessOnly e z := hj.access
  have zc : z.calm := ja.calm hc
  have zd : ∀ k, domGet z k = domGet e k := fun k => by unfold domGet; rw [ja]
  have zw : wantedOn z d = wantedOn e d := by
    unfold wantedOn tport tackSeam tdest tact cfgGet domGet; rw [ja]
  have zn : nvOn z = true := by unfold nvOn domOn at hn ⊢; rw [zd, h67]; exact hn
  have zr : hwRoom z = true := by unfold hwRoom; rw [zn, if_pos rfl]; exact decide_eq_true hl
  have g : DomBecomes z (evalDom z d) d (domNext z d) := by
    refine evalDom_spec zc zr d hd (fun h1 h2 => ?_)
    rw [zd] at h1; rw [zw] at h2
    have := hf h1 h2
    unfold fenceEmpty canDrive at this ⊢
    have e1 : portGet z d = portGet e d := by unfold portGet; rw [ja]
    have e2 : z.ring = e.ring := by rw [ja]
    rw [e1, e2]; exact this
  refine ⟨ja, ?_, ?_, g.calm zc, fun h => ?_, g⟩
  · rw [g.2.2.2.2]; show z.host = _
    obtain ⟨_, _, _, _, e⟩ := hj.open
    rw [e]; rfl
  · rw [g.2.2.2.2]; show z.mesh = _
    obtain ⟨_, _, _, _, e⟩ := hj.open
    rw [e]; rfl
  · unfold sysOn domOn at h ⊢
    rw [g.2.1 66 (by omega), zd]; exact h

theorem DomChanged.host {s e g : State} {d : Nat} {k : BitVec 3} {tid : Half} {v : Word} (h : DomChanged s e g d k tid v) (y : HostIf) (m : Mesh) :
    DomChanged s e { g with host := y, mesh := m } d k tid v := by
  obtain ⟨u, a1, a2, a3⟩ := h
  exact ⟨{ u with host := y, mesh := m }, a1, a2.jrn_free y m, a3.access y m⟩

theorem Taken.sysf {s x : State} (h : Taken s x) : x.sys = { s.sys with event := x.sys.event, eventLate := x.sys.eventLate } := by
  have := h.1
  exact congrArg State.sys this

theorem Taken.bump {s x : State} (h : Taken s x) (c : Nat) : Taken s (Machine.bump x .sys c) := by
  have hl := And.intro (low_bump x c) (values_bump x .sys c)
  obtain ⟨_, _, _, e⟩ := (bump_shape x .sys c).open
  obtain ⟨h1, h2, h3, h4, h5, h6⟩ := h
  refine ⟨?_, ?_, ?_, h4.trans hl.1, h5.trans hl.2, ?_⟩
  · rw [e]; conv_lhs => rw [h1]
  · rw [e]; exact h2
  · rw [e]; exact h3
  · intro k m hk; rw [e]; exact h6 k m hk

end Sys2Proof.Machine
end

