-- ==== Sys2Proof/Laws/FabricRows.lean ====
section
/-!
SUPPORT. What ports and targets do, operation by operation: intakes, tags, claims, responses, replays.
-/
namespace Sys2Proof.Machine

theorem rinSet_meshOnly (s : State) (n : Net) (r : Nat) (d : Dir) (x : RIn) : MeshOnly s (rinSet s n r d x) := rfl

theorem arbSet_meshOnly (s : State) (n : Net) (r : Nat) (d : ArbName) (x : Arb) : MeshOnly s (arbSet s n r d x) := rfl

theorem delaySet_meshOnly (s : State) (r : Nat) (x : Delay) : MeshOnly s (delaySet s r x) := rfl

theorem nodeMod_meshOnly (s : State) (n : BitVec 7) (m : Net) (f) : MeshOnly s (nodeMod s n m f) := rfl

theorem foldl_max_le (f : Nat × Nat → Nat) (l : List (Nat × Nat)) (m : Nat) :
    m ≤ l.foldl (fun m c => max m (f c)) m ∧ (∀ x ∈ l, f x ≤ l.foldl (fun m c => max m (f c)) m) ∧
    (l.foldl (fun m c => max m (f c)) m = m ∨ ∃ x ∈ l, l.foldl (fun m c => max m (f c)) m = f x) := by
  induction l generalizing m with
  | nil => exact ⟨Nat.le_refl _, by simp, .inl rfl⟩
  | cons y l ih =>
    obtain ⟨h1, h2, h3⟩ := ih (max m (f y))
    refine ⟨by simp only [List.foldl_cons]; omega, ?_, ?_⟩
    · intro x hx; simp only [List.foldl_cons]
      rcases List.mem_cons.mp hx with rfl | hx
      · omega
      · exact h2 x hx
    · simp only [List.foldl_cons]
      rcases h3 with h3 | ⟨x, hx, h3⟩
      · rcases Nat.le_total m (f y) with h | h
        · right; exact ⟨y, by simp, by rw [h3]; omega⟩
        · left; rw [h3]; omega
      · right; exact ⟨x, by simp [hx], h3⟩

theorem nextAfter_some {n p : Nat} {cs : List Nat} (hn : cs ≠ []) (h : ∀ c ∈ cs, c < n) :
    ∃ w, nextAfter n p cs = some w ∧ w ∈ cs := by
  unfold nextAfter
  cases hf : List.find? (fun i => cs.contains i) ((List.range n).map (fun k => (p + 1 + k) % n)) with
  | some w => exact ⟨w, rfl, by simpa using List.find?_some hf⟩
  | none =>
    exfalso
    obtain ⟨c, hc⟩ := List.exists_mem_of_ne_nil cs hn
    have hl := h c hc
    rw [List.find?_eq_none] at hf
    refine hf c ?_ (by simpa using hc)
    rw [List.mem_map]
    have hn0 : 0 < n := by omega
    refine ⟨(c + n - (p + 1) % n) % n, by rw [List.mem_range]; exact Nat.mod_lt _ hn0, ?_⟩
    have hm := Nat.mod_lt (p + 1) hn0
    have : (p + 1 + (c + n - (p + 1) % n) % n) % n = ((p + 1) % n + (c + n - (p + 1) % n)) % n := by simp [Nat.add_mod]
    rw [this, show (p + 1) % n + (c + n - (p + 1) % n) = c + n by omega, Nat.add_mod_right, Nat.mod_eq_of_lt hl]

theorem arbPick_some (a : Arb) (n : Nat) (cs : List (Nat × Nat)) (hn : cs ≠ []) (h : ∀ c ∈ cs, c.1 < n) :
    ∃ w c, arbPick a n cs = some (w, effClass a w c) ∧ (w, c) ∈ cs ∧ ∀ x ∈ cs, effClass a x.1 x.2 ≤ effClass a w c := by
  obtain ⟨h1, h2, h3⟩ := foldl_max_le (fun c => effClass a c.1 c.2) cs 0
  unfold arbPick
  dsimp only
  generalize hm : cs.foldl (fun m c => max m (effClass a c.1 c.2)) 0 = m at h2 h3 ⊢
  have hex : ∃ x ∈ cs, m = effClass a x.1 x.2 := by
    rcases h3 with h3 | h3
    · obtain ⟨x, hx⟩ := List.exists_mem_of_ne_nil cs hn
      have := h2 x hx
      exact ⟨x, hx, by omega⟩
    · exact h3
  obtain ⟨x, hx, hxm⟩ := hex
  obtain ⟨w, hw, hwm⟩ := nextAfter_some (n := n) (p := a.ptr.getD m 0)
    (cs := (cs.filter (fun c => effClass a c.1 c.2 = m)).map (·.1))
    (List.ne_nil_of_mem (List.mem_map.mpr ⟨x, List.mem_filter.mpr ⟨hx, by simp [hxm]⟩, rfl⟩))
    (by intro c hc; obtain ⟨y, hy, rfl⟩ := List.mem_map.mp hc; exact h y (List.mem_filter.mp hy).1)
  obtain ⟨y, hy, rfl⟩ := List.mem_map.mp hwm
  obtain ⟨hy1, hy2⟩ := List.mem_filter.mp hy
  have hy3 : effClass a y.1 y.2 = m := by simpa using hy2
  exact ⟨y.1, y.2, by rw [hw, hy3]; rfl, hy1, fun z hz => by rw [hy3]; exact h2 z hz⟩

theorem contenders_out_lt {s : State} {net : Net} {r : Nat} {d : Dir} {c : Nat × Nat} (h : c ∈ contenders s net r (.out d)) : c.1 < 5 := by
  obtain ⟨i, hi, h⟩ := List.mem_filterMap.mp h
  rw [List.mem_range] at hi
  simp only at h
  split at h
  · split at h
    · cases h; exact hi
    · cases h
  · cases h

theorem contenders_loc_lt {s : State} {net : Net} {r : Nat} {c : Nat × Nat} (h : c ∈ contenders s net r .localIn) : c.1 < 2 := by
  obtain ⟨i, hi, h⟩ := List.mem_filterMap.mp h
  rw [List.mem_range] at hi
  split at h
  · split at h
    · cases h
    · cases h; exact hi
  · cases h

theorem isoReload_spec (s : State) (n : Nat) : portGet (isoReload s n) n = { portGet s n with isoLeft := isobud s n } ∧
    (∀ m, m ≠ n → portGet (isoReload s n) m = portGet s m) ∧ (isoReload s n).cfg = s.cfg ∧ (isoReload s n).time = s.time ∧ PortsOnly s (isoReload s n) := by
  unfold isoReload; dsimp only
  generalize hb : (if isoWaiting s n = true ∧ (portGet s n).isoLeft ≠ 0 then bump s (.port n) pISOSHORT else s) = b
  have hc : CountsOnly s b := by subst hb; split; exact bump_shape _ _ _; rfl
  refine ⟨?_, fun m h => ?_, hc.cfg, hc.time, hc.toPorts.trans (portMod_frame ..)⟩
  · rw [portGet_portMod_same, hc.portGet]; unfold isobud cfgGet; rw [hc.cfg]
  · rw [portGet_portMod_ne _ _ _ _ h, hc.portGet]

theorem isoFold (l : List Nat) (hd : l.Nodup) : ∀ s : State,
    (∀ n ∈ l, portGet (l.foldl isoReload s) n = { portGet s n with isoLeft := isobud s n }) ∧
    (∀ n, n ∉ l → portGet (l.foldl isoReload s) n = portGet s n) ∧ (l.foldl isoReload s).cfg = s.cfg ∧
    (l.foldl isoReload s).time = s.time ∧ PortsOnly s (l.foldl isoReload s) := by
  induction l with
  | nil => intro s; exact ⟨by simp, fun _ _ => rfl, rfl, rfl, rfl⟩
  | cons x l ih =>
    intro s
    obtain ⟨hx, hl⟩ := List.nodup_cons.mp hd
    obtain ⟨a1, a2, a3, a4, a5⟩ := isoReload_spec s x
    obtain ⟨b1, b2, b3, b4, b5⟩ := ih hl (isoReload s x)
    refine ⟨?_, ?_, b3.trans a3, b4.trans a4, a5.trans b5⟩
    · intro n hn
      rcases List.mem_cons.mp hn with rfl | hn
      · rw [List.foldl_cons, b2 _ hx, a1]
      · have : n ≠ x := fun e => hx (e ▸ hn)
        rw [List.foldl_cons, b1 n hn, a2 n this]; unfold isobud cfgGet; rw [a3]
    · intro n hn
      simp only [List.mem_cons, not_or] at hn
      rw [List.foldl_cons, b2 n hn.2, a2 n hn.1]

theorem accessStart_enters {s : State} {n : Nat} {a : Access} (hd : (portGet s n).dead = false) (ho : domOn s n = true)
    (hp : a.posted = false) :
    ((portGet s n).intake.length < 2 → PortBecomes s (accessStart s n a) n (portEntered s n a)) ∧
    (2 ≤ (portGet s n).intake.length → PortBecomes s (accessStart s n a) n { portGet s n with captured := some a, bytesWr := (portGet s n).bytesWr + writtenBytes a, bus := { phase := .waiting, rdata := [], stat := .ok } }) := by
  have h1 : (domGet s n).st = .on := by simpa [domOn] using ho
  have h2 : ¬((domGet s n).st = .hemming ∧ (domGet s n).hem = .drain) := by rw [h1]; rintro ⟨h, -⟩; cases h
  unfold accessStart
  dsimp only
  rw [if_neg (by simp [hd]), if_neg h2, if_pos h1]
  refine ⟨fun hl => ?_, fun hl => ?_⟩
  · rw [if_pos hl]
    exact PortBecomes.intakePut ((PortBecomes.refl s n).mod _) _
  · rw [if_neg (by omega)]
    exact ((PortBecomes.refl s n).mod _).mod _

theorem intakeDrop_spec {s t : State} {n : Nat} {p : PortSt} (h : PortBecomes s t n p) (hc : p.captured = none) :
    PortBecomes s (intakeDrop t n) n { p with intake := p.intake.drop 1, front := none } := by
  have g := h.mod (fun p => { p with intake := p.intake.drop 1, front := none })
  unfold intakeDrop
  dsimp only
  rw [g.1]
  simp only [hc]
  simpa only [hc] using g

theorem isoSpend_spec {s t : State} {n : Nat} {p : PortSt} (h : PortBecomes s t n p) (cost : Nat) :
    PortBecomes s (isoSpend t n cost) n { p with isoLeft := p.isoLeft - BitVec.ofNat 16 cost } := by
  unfold isoSpend
  split
  · rename_i hz; subst hz
    have : ({ p with isoLeft := p.isoLeft - BitVec.ofNat 16 0 } : PortSt) = p := by simp
    rw [this]; exact h
  · exact (h.mod _).counts (bump_shape _ _ _)

theorem portNode_facts (n : Fin 64) : nodeSlotB (portNode n.val) = false ∧ nodeRouter (portNode n.val) = n.val := by
  revert n; decide

theorem PortAndNode.of {s s0 t : State} {n : Nat} {p : PortSt} {node : BitVec 7} {net : Net} {q : NodeQ}
    (h : PortBecomes s0 t n p) (h1 : s0.ports = s.ports) (h2 : nodeGet s0 node net = q)
    (h3 : ∀ (k : BitVec 7) (m : Net), ¬(k = node ∧ m = net) → nodeGet s0 k m = nodeGet s k m) (h4 : PortsOnly s s0) : PortAndNode s t n p node net q := by
  have hn : ∀ k m, nodeGet t k m = nodeGet s0 k m := fun k m => by unfold nodeGet; rw [h.2.2.1]
  exact ⟨h.1, fun m hm => by rw [h.2.1 m hm]; unfold portGet; rw [h1], by rw [hn]; exact h2, fun k m hk => by rw [hn]; exact h3 k m hk, h4.trans h.2.2.2⟩

theorem rxDrop_facts (s : State) (node : BitVec 7) (net : Net) {pk : Pkt} {more : List Pkt} (h : (nodeGet s node net).rx = pk :: more) :
    nodeGet (rxDrop s node net) node net = { nodeGet s node net with rx := more } ∧
    (∀ (k : BitVec 7) (m : Net), ¬(k = node ∧ m = net) → nodeGet (rxDrop s node net) k m = nodeGet s k m) ∧
    (rxDrop s node net).ports = s.ports ∧ PortsOnly s (rxDrop s node net) := by
  unfold rxDrop
  exact ⟨by rw [nodeGet_nodeMod_same, h]; rfl, fun k m hk => nodeGet_nodeMod_ne _ _ _ _ _ _ hk, rfl, rfl⟩

theorem devEnd_spec {s t : State} {n : Nat} {p : PortSt} (h : PortBecomes s t n p) (a : Access) (st : Status) (rd : List Byte) :
    PortBecomes s (devEnd t n a st rd) n (portEnded p a st rd) := by
  unfold devEnd portEnded
  split
  · exact h
  · exact h.mod _

theorem portTagDone_access {s t : State} {n : Nat} {p : PortSt} (h : PortBecomes s t n p) (tag : Byte) (id part : Nat) (o : Outst)
    (st : Status) (ws : List Word) (hu : (tagAt p.pool tag).use = .access id part)
    (ho : p.accs.find? (fun e => e.1 = id) = some (id, o)) (hl : o.left ≤ 1) (hf : o.failed = none) :
    PortBecomes s (portTagDone t n tag st ws) n
      (portEnded { p with pool := tagAfter st p.pool tag, accs := terase p.accs id, perr := if st = .ok then p.perr else perrRec p.perr st o.acc.p }
          o.acc st (readBytes o.faddr.toNat o.acc.len (rdWords ((part, ws) :: o.rd) 64))) := by
  unfold portTagDone
  dsimp only
  rw [h.1, hu]
  have h2 := (h.mod (fun p => { p with pool := tagAfter st p.pool tag })).counts (bump_shape _ (.port n) (if st = .ok then pRSPOK else pRSPERR))
  generalize bump _ _ _ = s2 at h2 ⊢
  unfold accPart
  dsimp only
  rw [h2.1]
  dsimp only
  rw [ho]
  dsimp only
  rw [if_neg (by omega), hf]
  have h3 := h2.mod (fun q => { q with accs := terase q.accs id })
  by_cases hs : st = .ok
  · simp only [hs, if_true] at h3 ⊢
    exact devEnd_spec h3 _ _ _
  · simp only [if_neg hs] at h3 ⊢
    have h4 := devEnd_spec (h3.mod (fun q => { q with perr := perrRec q.perr st o.acc.p })) o.acc st []
    unfold portEnded at h4 ⊢
    simp only [if_neg hs] at h4 ⊢
    exact h4

theorem pirqPump_idle {s t : State} {n : Nat} {p : PortSt} (h : PortBecomes s t n p) (hd : p.fwdDue = false) : pirqPump t n = t := by
  unfold pirqPump; rw [h.1, hd]; rfl

theorem portEnded_fwdDue (p : PortSt) (a : Access) (st : Status) (rd : List Byte) : (portEnded p a st rd).fwdDue = p.fwdDue := by
  unfold portEnded; split <;> rfl

theorem netWith_ne (s : State) (node : BitVec 7) (sel : Op → Bool) : netWith s node sel ≠ .rsp := by
  unfold netWith; split
  · split <;> simp
  · simp

theorem rxHead_some {s : State} {node : BitVec 7} {net : Net} {q : Pkt} {more : List Pkt} (h1 : (nodeGet s node .rsp).out = [])
    (h2 : (nodeGet s node net).rx = q :: more) : rxHead s node net = some q := by
  unfold rxHead; rw [if_pos h1, h2]; rfl

theorem tgtTake_start {s : State} {n : Nat} {net : Net} {sel : Op → Bool} {busyN : Bool}
    {plan : Pkt → Option (List BusCycle × List Word × List DataUnit)} {q : Pkt} {more : List Pkt} {cs ws wr}
    (h1 : niServes s n = true) (h2 : (nodeGet s (portNode n) .rsp).out = []) (h3 : (nodeGet s (portNode n) net).rx = q :: more)
    (h4 : judge s n q = .device) (h5 : busFree s n = true) (h6 : sel (opOf q.cmd) = true) (h7 : plan q = some (cs, ws, wr))
    (h8 : refusedBusy s n busyN cs = false) :
    PortAndNode s (tgtTake s n net sel busyN plan) n { portGet s n with tgt := some { pkt := q, net := net, stat := .ok, words := ws, wrote := wr }, cycles := cs }
      (portNode n) net { nodeGet s (portNode n) net with rx := more } := by
  unfold tgtTake
  rw [if_neg (by simp [h1]), rxHead_some h2 h3]
  dsimp only
  rw [if_neg (by simp [h6]), h4]
  dsimp only
  rw [if_neg (by simp [h5]), h7]
  dsimp only
  rw [if_neg (by simp [h8])]
  unfold tgtStart
  have h9 := ((PortBecomes.refl s n).mod (fun q' => { q' with tgt := some { pkt := q, net := net, stat := .ok, words := ws, wrote := wr }, cycles := cs })).counts
    (bump_shape _ (.port n) (pTGTREQ net))
  generalize bump _ _ _ = u at h9 ⊢
  have hn : ∀ k m, nodeGet u k m = nodeGet s k m := fun k m => by unfold nodeGet; rw [h9.2.2.1]
  obtain ⟨b1, b2, b3, b4⟩ := rxDrop_facts u (portNode n) net (by rw [hn]; exact h3)
  refine ⟨?_, ?_, ?_, ?_, h9.2.2.2.trans b4⟩
  · unfold portGet; rw [b3]; exact h9.1
  · intro m hm; unfold portGet; rw [b3]; exact h9.2.1 m hm
  · rw [b1, hn]
  · intro k m hk; rw [b2 _ _ hk, hn]

theorem respond_drop {s u : State} {node : BitVec 7} {net : Net} {q : Pkt} {more : List Pkt} (st : Status) (hc : CountsOnly s u)
    (h2 : (nodeGet s node .rsp).out = []) (h3 : (nodeGet s node net).rx = q :: more) (hd : q.dnode = node) (hn : net ≠ .rsp) :
    (nodeGet (rxDrop (respond u q st []) node net) node .rsp).out = pktUnits (responsePkt q st []) ∧
    nodeGet (rxDrop (respond u q st []) node net) node net = { nodeGet s node net with rx := more } ∧
    (∀ (k : BitVec 7) (m : Net), ¬(k = node ∧ (m = net ∨ m = .rsp)) → nodeGet (rxDrop (respond u q st []) node net) k m = nodeGet s k m) ∧
    MeshOnly s (rxDrop (respond u q st []) node net) := by
  have hne : ¬ ((node = node) ∧ net = Net.rsp) := fun h => hn h.2
  have e1 : nodeGet (respond u q st []) node net = nodeGet s node net := by
    unfold respond sendPkt; rw [hd, nodeGet_nodeMod_ne _ _ _ _ _ _ (by simpa using hn), hc.nodeGet]
  obtain ⟨b1, b2, b3, b4⟩ := rxDrop_facts (respond u q st []) node net (by rw [e1]; exact h3)
  refine ⟨?_, ?_, ?_, ?_⟩
  · rw [b2 _ _ (by rintro ⟨-, h⟩; exact hn h.symm)]
    unfold respond sendPkt; rw [hd, nodeGet_nodeMod_same, hc.nodeGet, h2]; rfl
  · rw [b1, e1]
  · intro k m hk
    rw [b2 _ _ (by rintro ⟨h, h'⟩; exact hk ⟨h, .inl h'⟩)]
    unfold respond sendPkt
    rw [hd, nodeGet_nodeMod_ne _ _ _ _ _ _ (by rintro ⟨h, h'⟩; exact hk ⟨h, .inr h'⟩), hc.nodeGet]
  · exact (hc.toMesh.trans (respond_frame ..)).trans rfl

theorem PortAndNode.chain {s u t : State} {n : Nat} {p : PortSt} {node : BitVec 7} {net : Net} {q : NodeQ} (h9 : PortBecomes s u n p)
    (b1 : nodeGet t node net = q) (b2 : ∀ (k : BitVec 7) (m : Net), ¬(k = node ∧ m = net) → nodeGet t k m = nodeGet u k m)
    (b3 : t.ports = u.ports) (b4 : PortsOnly u t) : PortAndNode s t n p node net q := by
  have hn : ∀ k m, nodeGet u k m = nodeGet s k m := fun k m => by unfold nodeGet; rw [h9.2.2.1]
  refine ⟨?_, ?_, b1, ?_, h9.2.2.2.trans b4⟩
  · unfold portGet; rw [b3]; exact h9.1
  · intro m hm; unfold portGet; rw [b3]; exact h9.2.1 m hm
  · intro k m hk; rw [b2 _ _ hk, hn]

theorem drops_step (d : Half) : (if 65535 < d.toNat + 1 then 0xFFFF else d + BitVec.ofNat 16 1) = if d = 0xFFFF then 0xFFFF else d + 1 := by
  by_cases h : d = 0xFFFF
  · subst h; rfl
  · have : d.toNat ≠ 65535 := fun e => h (BitVec.eq_of_toNat_eq e)
    have := d.isLt
    rw [if_neg (by omega), if_neg h]; rfl

theorem watchDrop_spec {s t : State} {n : Nat} {p : PortSt} (h : PortBecomes s t n p) (k : Nat) :
    PortBecomes s (watchDrop t n k 1) n { p with
      sdrop := p.sdrop || decide (k = 0)
      rdrop := p.rdrop || decide (k = 1)
      nomap := p.nomap || decide (k = 2)
      drops := if p.drops = 0xFFFF then 0xFFFF else p.drops + 1 } := by
  have g := h.mod (fun q => { q with
    sdrop := q.sdrop || decide (k = 0), rdrop := q.rdrop || decide (k = 1), nomap := q.nomap || decide (k = 2),
    drops := if 65535 < q.drops.toNat + 1 then 0xFFFF else q.drops + BitVec.ofNat 16 1 })
  simp only [drops_step] at g
  unfold watchDrop
  dsimp only
  simp only [drops_step]
  split
  · split
    · exact g
    · exact g.counts (raiseEvent_shape _ _)
  · split
    · split
      · exact g
      · exact g.counts (raiseEvent_shape _ _)
    · split
      · exact g
      · exact g.counts (raiseEvent_shape _ _)

end Sys2Proof.Machine
end

