-- ==== Sys2Proof/Laws/SeamRows.lean ====
section
/-!
SUPPORT. What a chip does on the ring: gateways, the bypass, faults, aborts.
-/
namespace Sys2Proof.Machine

theorem meshFromSeam_own {s : State} {g : Ring} {c : Nat} {x : SeamIn} {u : LinkUnit} (hx : sinGet (gateGet s g) c = x) (hl : x.latch = some u)
    (hm : x.toMesh = true) (hdr : x.drop = false)
    (hy : ((sinGet (gateGet s g) (if c % 2 = 0 then c + 1 else c - 1)).toMesh && (sinGet (gateGet s g) (if c % 2 = 0 then c + 1 else c - 1)).busy) = false)
    (ho : (nodeGet s (gateNode g) (netOfChannel c)).out = []) (hd : canDrive s = true) :
    meshFromSeam s g c = gwTx (nodeMod (gateMod s g (fun q => sinSet q c { x with latch := none, busy := decide (x.left ≠ 0) }))
      (gateNode g) (netOfChannel c) (fun q => { q with out := [u] })) (otherRing g) [ctlTransfer 1 0 (BitVec.ofNat 8 (2 ^ c))] := by
  unfold meshFromSeam
  dsimp only
  generalize sinGet (gateGet s g) (if c % 2 = 0 then c + 1 else c - 1) = y at hy ⊢
  rw [hx, hl]
  dsimp only
  rw [if_neg (by simp [hm, hdr, hy, ho])]
  unfold gwCredit gwCtl
  rw [if_pos]
  cases g <;> exact hd

theorem sinGet_sinSet_same (y : Gate) (c : Nat) (x : SeamIn) : sinGet (sinSet y c x) c = x := tget_tset_same ..

theorem sinGet_sinSet_ne (y : Gate) (c k : Nat) (x : SeamIn) (h : k ≠ c) : sinGet (sinSet y c x) k = sinGet y k := tget_tset_ne _ _ _ _ _ h

theorem canDrive_bypass {s : State} (h : canDrive s = true) : s.ring.bypass = false := by simpa [canDrive] using h

theorem ringStop_spec {s : State} (cause : BitVec 4) (orphan : Bool) (hs : s.ringStill) (hn : nvOn s = true) (hl : s.jrn.staging.length + 2 ≤ 72) (hb : (faultdb s).getLsbD 18 = false) :
    (ringStop s cause orphan).ring = { s.ring with
      stopped := true, fault := true, cause := cause, resync := true, op := .idle,
      count := if s.ring.count = 0xFFFF then 0xFFFF else s.ring.count + 1,
      st := if orphan then .orphan else s.ring.st } ∧
    (faultGet (ringStop s cause orphan) 65).code = 0x0E ∧ (faultGet (ringStop s cause orphan) 65).isNew = true ∧
    (∀ k, k ≠ 65 → faultGet (ringStop s cause orphan) k = faultGet s k) ∧
    (ringStop s cause orphan).sys.event.getLsbD 0 = true ∧ RecordsOnly { s with ring := (ringStop s cause orphan).ring } (ringStop s cause orphan) := by
  unfold ringStop
  dsimp only
  have st1 : (ringMod s (fun r => { r with stopped := true })).ringStill := ring_still hs _ (gatesEmpty_ring ⟨rfl, rfl, rfl, rfl⟩ hs.2.2.2.2.2.2)
  rw [breakTags_still st1.1 st1.2.1]
  generalize hf : (fun r : RingSt => { r with fault := true, cause := cause, count := (if r.count = 0xFFFF then 0xFFFF else r.count + 1), resync := true, st := (if orphan = true then RingState.orphan else r.st), op := MasterOp.idle }) = f
  obtain ⟨a1, a2⟩ := setRing_spec (ringMod s (fun r => { r with stopped := true })) f
  have len2 : (setRing (ringMod s (fun r => { r with stopped := true })) f).jrn.staging.length < 72 := by
    have : ∀ (u : State) (c : Prop) [Decidable c] (k : BitVec 3) (tid : Half) (v : Word) (a : Bool), u.jrn.staging.length + 2 ≤ 72 →
        (if c then jHw u k tid v a else u).jrn.staging.length < 72 := by
      intro u c _ k tid v a h
      split
      · unfold jHw
        split
        · split
          · rw [(stage_spec _ _).2]; simp; omega
          · show u.jrn.staging.length < 72; omega
        · show u.jrn.staging.length < 72; omega
      · omega
    unfold setRing
    dsimp only
    split
    · rw [(raiseEvent_shape _ _).jrn]; exact this _ _ _ _ _ _ hl
    · exact this _ _ _ _ _ _ hl
  generalize setRing (ringMod s (fun r => { r with stopped := true })) f = s2 at a1 a2 len2
  have hn2 : nvOn s2 = true := by unfold nvOn domOn domGet; rw [a2]; exact hn
  have hb2 : (faultdb s2).getLsbD 18 = false := by unfold faultdb cfgGet; rw [a2]; exact hb
  have hf2 : ∀ k, faultGet s2 k = faultGet s k := fun k => by rw [a2.faultGet]; rfl
  obtain ⟨b1, b2, b3, b4, b5⟩ := raiseFault_spec (s := s2) srcSEAM fRING (cause.setWidth 16) hn2 len2 hb2 (Or.inl (by decide))
  generalize raiseFault s2 srcSEAM fRING (cause.setWidth 16) = s3 at b1 b2 b3 b4 b5 ⊢
  have hr3 : s3.ring = f { s.ring with stopped := true } := by rw [b5]; show s2.ring = _; rw [a1]; rfl
  refine ⟨by rw [hr3]; subst hf; rfl, by rw [show (65:Nat) = srcSEAM from rfl, b1]; rfl, by rw [show (65:Nat) = srcSEAM from rfl, b1],
    fun k hk => by rw [b2 k hk, hf2], b4, ?_⟩
  have h5 := (a2.toRecords).trans b5
  unfold RecordsOnly at h5 ⊢
  rw [h5]; rfl

theorem ringFault_spec {s : State} {cause : BitVec 4} (hd : canDrive s = true) (hm : isMaster s = false) (hst : s.ring.st = .spliced ∨ s.ring.st = .orphan)
    (hr : s.ring.resync = false) (hs : s.ringStill) (hn : nvOn s = true) (hl : s.jrn.staging.length + 2 ≤ 72) (hb : (faultdb s).getLsbD 18 = false) :
    (ringFault s cause).ring = { s.ring with
      stopped := true, fault := true, cause := cause, resync := true, op := .idle,
      count := if s.ring.count = 0xFFFF then 0xFFFF else s.ring.count + 1,
      st := if cause = 3 then .orphan else s.ring.st,
      gateA := { s.ring.gateA with tx := s.ring.gateA.tx ++ [ctlTransfer 3 0xE s.chipnum] } } ∧
    (faultGet (ringFault s cause) 65).code = 0x0E ∧ (faultGet (ringFault s cause) 65).isNew = true ∧
    (∀ k, k ≠ 65 → faultGet (ringFault s cause) k = faultGet s k) ∧
    (ringFault s cause).sys.event.getLsbD 0 = true ∧ RecordsOnly { s with ring := (ringFault s cause).ring } (ringFault s cause) := by
  unfold ringFault
  rw [if_neg (by rcases hst with h | h <;> simp [h, hr])]
  dsimp only
  rw [hm]
  simp only [Bool.not_false, Bool.and_true, Bool.false_eq_true, if_false]
  obtain ⟨b1, b2, b3, b4, b5, b6⟩ := ringStop_spec cause (decide (cause = cNOPULSE)) hs hn hl hb
  generalize ringStop s cause (decide (cause = cNOPULSE)) = s3 at b1 b2 b3 b4 b5 b6
  have hd3 : canDrive s3 = true := by unfold canDrive at hd ⊢; rw [b1]; exact hd
  rw [gwRing_drive hd3]
  refine ⟨?_, b2, b3, b4, b5, ?_⟩
  · show ({ s3.ring with gateA := _ } : RingSt) = _
    rw [b1]
    have : ∀ (c : BitVec 4) (x : RingState), (if decide (c = cNOPULSE) = true then RingState.orphan else x) = (if c = 3 then .orphan else x) := by
      intro c x; rw [show (3 : BitVec 4) = cNOPULSE from rfl]; by_cases h : c = cNOPULSE
      · rw [if_pos (decide_eq_true h), if_pos h]
      · rw [if_neg (by rw [decide_eq_true_eq]; exact h), if_neg h]
    simp only [this]
    rfl
  · unfold RecordsOnly at b6 ⊢
    show ({ s3 with ring := _ } : State) = _
    rw [b6]; rfl

theorem openBypass_spec (s : State) : (openBypass s).ring = { s.ring with bypass := false, st := .spliced, asking := false, paused := true, stopped := true, rolls := [], tables := [], rollTurn := false, dupFound := false, gateA := Gate.reset, gateB := Gate.reset } ∧
    JournalOnly { s with ring := (openBypass s).ring } (openBypass s) := by
  have h := setRing_spec s (fun r => { r with bypass := false, st := .spliced, asking := false, stopped := true, rolls := [], tables := [], rollTurn := false, dupFound := false })
  have e : openBypass s = { setRing s (fun r => { r with bypass := false, st := .spliced, asking := false, stopped := true, rolls := [], tables := [], rollTurn := false, dupFound := false })
      with ring := { (setRing s (fun r => { r with bypass := false, st := .spliced, asking := false, stopped := true, rolls := [], tables := [], rollTurn := false, dupFound := false })).ring
        with paused := true, gateA := Gate.reset, gateB := Gate.reset } } := rfl
  rw [e]
  obtain ⟨j, c, e, l, hs⟩ := h.2.open
  rw [hs]
  exact ⟨rfl, rfl⟩

theorem rollCall_spec {s : State} (hd : canDrive s = true) : rollCall s = { s with ring := { s.ring with
      op := .rollCall, rolls := [], dupFound := false, paused := true, stopped := true,
      gateA := { s.ring.gateA with tx := s.ring.gateA.tx ++ [ctlTransfer 3 0x8 0, ctlTransfer 3 0x9 0, ctlTransfer 3 0xA 0] } } } := by
  have hb := canDrive_bypass hd
  unfold rollCall
  simp [gwRing, gwCtl, canDrive, gwTx, gateMod, ringMod, hb, msgROLLSTART, msgROLL, msgROLLEND]

theorem foldl_keep {α β : Type} (p : β → Prop) (f : β → α → β) (l : List α) (u : β) (hu : p u) (h : ∀ b x, p b → p (f b x)) : p (l.foldl f u) := by
  induction l generalizing u with
  | nil => exact hu
  | cons x l ih => exact ih _ (h _ _ hu)

/-- t is s but for what its gateways hold. -/
def GatesOnly (s t : State) : Prop :=
  ∃ a b, a.tx = s.ring.gateA.tx ∧ b.tx = s.ring.gateB.tx ∧ t = { s with ring := { s.ring with gateA := a, gateB := b } }

theorem gateMod_gatesOnly (s : State) (g : Ring) (f : Gate → Gate) (hf : ∀ y, (f y).tx = y.tx) : GatesOnly s (gateMod s g f) := by
  cases g
  · exact ⟨f s.ring.gateA, s.ring.gateB, hf _, rfl, rfl⟩
  · exact ⟨s.ring.gateA, f s.ring.gateB, rfl, hf _, rfl⟩

theorem GatesOnly.trans {s t u : State} (h : GatesOnly s t) (g : GatesOnly t u) : GatesOnly s u := by
  obtain ⟨a, b, ha, hb, rfl⟩ := h
  obtain ⟨c, d, hc, hd, rfl⟩ := g
  exact ⟨c, d, hc.trans ha, hd.trans hb, rfl⟩

theorem discardHeld_still {s : State} (h : gatesEmpty s) (g : Ring) : GatesOnly s (discardHeld s g) ∧ gatesEmpty (discardHeld s g) := by
  have hn : ((List.range 8).filter (fun c => (soutGet (gateGet s g) c).fromMsh.isSome)).length = 0 := by
    rw [List.length_eq_zero_iff, List.filter_eq_nil_iff]
    intro c _; rw [(h g c).2.2]; simp
  unfold discardHeld
  dsimp only
  rw [hn]
  show GatesOnly s (List.foldl _ s _) ∧ gatesEmpty (List.foldl _ s _)
  refine foldl_keep (fun t => GatesOnly s t ∧ gatesEmpty t) _ _ _ ⟨⟨_, _, rfl, rfl, rfl⟩, h⟩ fun t c ht => ⟨ht.1.trans (gateMod_gatesOnly _ _ _ (by intro _; rfl)), ?_⟩
  intro k d
  by_cases hk : k = g
  · subst hk
    rw [gateGet_gateMod_same, sinGet_soutSet, soutGet_soutSet]
    refine ⟨(ht.2 k d).1, (ht.2 k d).2.1, ?_⟩
    split
    · rfl
    · exact (ht.2 k d).2.2
  · have : g = otherRing k := by cases k <;> cases g <;> simp_all [otherRing]
    subst this
    rw [gateGet_gateMod_other]; exact ht.2 k d

theorem gateMod_empty {s : State} (h : gatesEmpty s) (g : Ring) (f : Gate → Gate)
    (hf : ∀ y, (∀ c, (sinGet y c).latch = none ∧ (sinGet y c).busy = false ∧ (soutGet y c).fromMsh = none) →
      ∀ c, (sinGet (f y) c).latch = none ∧ (sinGet (f y) c).busy = false ∧ (soutGet (f y) c).fromMsh = none) : gatesEmpty (gateMod s g f) := by
  intro k d
  by_cases hk : k = g
  · subst hk
    rw [gateGet_gateMod_same]
    exact hf _ (h k) d
  · have : g = otherRing k := by cases k <;> cases g <;> simp_all [otherRing]
    subst this
    rw [gateGet_gateMod_other]; exact h k d

theorem flush_still {s : State} (h : gatesEmpty s) (g : Ring) (c : Nat) :
    GatesOnly s (flushOut (flushIn s g c) g c) ∧ gatesEmpty (flushOut (flushIn s g c) g c) := by
  have h1 : flushIn s g c = gateMod s g (fun y => sinSet y c SeamIn.reset) := by
    unfold flushIn; dsimp only
    rw [(h g c).2.1]; simp
  rw [h1]
  unfold flushOut
  have e1 : gatesEmpty (gateMod s g (fun y => sinSet y c SeamIn.reset)) := by
    refine gateMod_empty h g _ fun y hy d => ?_
    rw [sinGet_sinSet, soutGet_sinSet]
    split
    · exact ⟨rfl, rfl, (hy d).2.2⟩
    · exact hy d
  refine ⟨(gateMod_gatesOnly s g _ (by intro _; rfl)).trans (gateMod_gatesOnly _ g _ (by intro _; rfl)), gateMod_empty e1 g _ fun y hy d => ?_⟩
  dsimp only
  rw [sinGet_soutSet, soutGet_soutSet]
  refine ⟨(hy d).1, (hy d).2.1, ?_⟩
  split
  · rename_i hd; subst hd; split
    · rfl
    · exact (hy _).2.2
  · exact (hy d).2.2

theorem gateAbort_still {s : State} (h : gatesEmpty s) (g : Ring) : GatesOnly s (gateAbort s g) ∧ gatesEmpty (gateAbort s g) := by
  unfold gateAbort
  dsimp only
  have := foldl_keep (fun t => GatesOnly s t ∧ gatesEmpty t) (fun t c => flushOut (flushIn t g c) g c) (List.range 8) s ⟨⟨_, _, rfl, rfl, rfl⟩, h⟩
    (fun t c ht => ⟨ht.1.trans (flush_still ht.2 g c).1, (flush_still ht.2 g c).2⟩)
  exact ⟨this.1.trans (gateMod_gatesOnly _ _ _ (by intro _; rfl)), gateMod_empty this.2 g _ fun y hy => hy⟩

theorem GatesOnly.still {s t : State} (g : GatesOnly s t) (h : s.ringStill) (he : gatesEmpty t) : t.ringStill := by
  obtain ⟨a, b, -, -, rfl⟩ := g
  exact still_congr h (fun _ => rfl) rfl rfl rfl rfl (fun _ => rfl) he

theorem closeBypass_still {s : State} (h : s.ringStill) :
    (closeBypass s).ring.bypass = true ∧ (closeBypass s).ring.st = .alone ∧ (closeBypass s).ring.chips = [s.chipnum] ∧ (closeBypass s).ring.pos = 0 ∧
    (closeBypass s).ring.paused = false ∧ (closeBypass s).ring.stopped = false ∧ (closeBypass s).ring.leaveWhy = s.ring.leaveWhy ∧
    (closeBypass s).ring.leaveBit = false ∧ (closeBypass s).ring.reform = false ∧ (closeBypass s).ring.joinEn = s.ring.joinEn ∧
    (closeBypass s).ring.dupFlag = s.ring.dupFlag ∧ (closeBypass s).ring.fault = s.ring.fault ∧
    JournalOnly { s with ring := (closeBypass s).ring } (closeBypass s) := by
  obtain ⟨a1, a2⟩ := gateAbort_still h.2.2.2.2.2.2 .a
  obtain ⟨b1, b2⟩ := gateAbort_still a2 .b
  obtain ⟨c1, c2⟩ := discardHeld_still b2 .a
  obtain ⟨d1, d2⟩ := discardHeld_still c2 .b
  have g := ((a1.trans b1).trans c1).trans d1
  unfold closeBypass
  dsimp only
  generalize discardHeld (discardHeld (gateAbort (gateAbort s .a) .b) .a) .b = s1 at g d2
  have st1 := g.still h d2
  rw [breakTags_still st1.1 st1.2.1]
  generalize hF : (fun r : RingSt => { RingSt.reset s.chipnum with dupFlag := r.dupFlag, fault := r.fault, cause := r.cause, count := r.count, joinEn := r.joinEn, leaveBit := r.leaveBit, slotEn := r.slotEn, reform := r.reform, chips := r.chips, pos := r.pos, leaveWhy := r.leaveWhy, gateA := r.gateA, gateB := r.gateB }) = F
  obtain ⟨u1, u2⟩ := setRing_spec s1 F
  generalize setRing s1 F = s3 at u1 u2 ⊢
  have st3 : s3.ringStill := by
    refine u2.still (s := { s1 with ring := F s1.ring }) (still_congr st1 (fun _ => rfl) rfl rfl rfl rfl (fun _ => rfl) ?_)
    refine gatesEmpty_ring (s := s1) ?_ d2
    subst hF; exact ⟨rfl, rfl, rfl, rfl⟩
  obtain ⟨t1, t2⟩ := tableSet_still st3 [s.chipnum] false
  generalize tableSet s3 [s.chipnum] false = s4 at t1 t2 ⊢
  have h4 : JournalOnly { s with ring := s4.ring } s4 := by
    obtain ⟨x, y, -, -, rfl⟩ := g
    unfold JournalOnly at u2 t2 ⊢
    rw [t2, u2]
  have hf4 : s4.sys.forwarded = [] := by
    obtain ⟨_, _, _, _, h5⟩ := h4.open
    rw [h5]; exact h.2.2.2.2.1
  have e5 : sysMod s4 (fun y => { y with claims := y.claims ++ y.forwarded, forwarded := [] }) = s4 := by
    have q : s4.sys.claims ++ s4.sys.forwarded = s4.sys.claims := by rw [hf4, List.append_nil]
    unfold sysMod; dsimp only; rw [q, ← hf4]
  rw [e5]
  obtain ⟨v1, v2⟩ := clearCtl_spec s4 true true
  have hch : s3.chipnum = s.chipnum := by
    obtain ⟨x, y, -, -, rfl⟩ := g
    obtain ⟨_, _, _, _, h5⟩ := u2.open
    rw [h5]
  have hr4 : s4.ring = { F s1.ring with chips := [s.chipnum], pos := 0 } := by
    rw [t1, u1, hch]
    have : posIn s.chipnum [s.chipnum] = 0 := by simp [posIn]
    rw [this]
  obtain ⟨x, y, -, -, hx⟩ := g
  have hr1 : s1.ring = { s.ring with gateA := x, gateB := y } := by rw [hx]
  have fr : JournalOnly { s with ring := (clearCtl s4 true true).ring } (clearCtl s4 true true) := by
    clear v1 hr4 t1 t2 e5
    obtain ⟨r, j, c, e, l, rfl⟩ : ∃ r j c e l, s4 = { s with ring := r, jrn := j, cnt := c, sys := { s.sys with event := e, eventLate := l } } := ⟨_, _, _, _, _, h4⟩
    exact v2
  rw [v1, hr4, hr1] at fr ⊢
  subst hF
  refine ⟨rfl, rfl, rfl, rfl, rfl, rfl, rfl, by simp, by simp, rfl, rfl, rfl, fr⟩

end Sys2Proof.Machine
end

