-- ==== Sys2Proof/Laws/SysRows.lean ====
section
/-!
SUPPORT. Counters, reads of SYS, and writes through the window.
-/
namespace Sys2Proof.Machine

theorem bcfg_same (a v : Word) : (decide ((a ^^^ v) &&& 0x7F ≠ 0) || (bEnable a && !bEnable v)) = true ↔
    (bOwner v ≠ bOwner a ∨ bOverwrite v ≠ bOverwrite a ∨ (bEnable a = true ∧ bEnable v = false)) := by
  have hm : ∀ i, i < 32 → (0x7F : Word).getLsbD i = decide (i < 7) := by decide
  have key : (a ^^^ v) &&& 0x7F = 0 ↔ (bOwner v = bOwner a ∧ bOverwrite v = bOverwrite a) := by
    constructor
    · intro h
      have hb : ∀ i, i < 7 → a.getLsbD i = v.getLsbD i := by
        intro i hi
        have := congrArg (fun w => BitVec.getLsbD w i) h
        simp only [BitVec.getLsbD_and, BitVec.getLsbD_xor, hm i (by omega), hi, decide_true, Bool.and_true] at this
        cases h1 : a.getLsbD i <;> cases h2 : v.getLsbD i <;> simp [h1, h2] at this ⊢
      refine ⟨?_, (hb 6 (by omega)).symm⟩
      unfold bOwner fieldNat
      congr 1
      apply BitVec.eq_of_getLsbD_eq
      intro i hi
      rw [BitVec.getLsbD_extractLsb', BitVec.getLsbD_extractLsb', Nat.zero_add, hb i (by omega)]
    · rintro ⟨h1, h2⟩
      have h1 := BitVec.eq_of_toNat_eq h1
      apply BitVec.eq_of_getLsbD_eq
      intro i hi
      simp only [BitVec.getLsbD_and, BitVec.getLsbD_xor, hm i hi]
      by_cases h7 : i < 7
      · have : v.getLsbD i = a.getLsbD i := by
          by_cases h6 : i < 6
          · have := congrArg (fun w => BitVec.getLsbD w i) h1
            simpa [h6] using this
          · have : i = 6 := by omega
            subst this; exact h2
        simp [this]
      · simp [h7]
  simp only [Bool.or_eq_true, decide_eq_true_eq, Bool.and_eq_true, Bool.not_eq_true', ne_eq, key]
  tauto

theorem counterAt_facts {b i k : Nat} {blk : Blk} (h : counterAt b i = some (blk, k, false)) :
    bankHas b i = true ∧ plainWd (.bank b i) = true ∧ b ≠ 0x87 ∧ ¬(b = 0x83 ∧ i = 3) ∧ ¬(b < 0x40 ∧ i = 1) ∧ cselAt blk k = (b, i) ∧
    (∀ x : State, wordAsleep x (.bank b i) = (match blk with | .router _ => !domOn x 64 | _ => false)) := by
  unfold counterAt at h
  split at h
  · rename_i h1
    split at h
    · rename_i h2
      simp only [Option.some.injEq, Prod.mk.injEq, decide_eq_false_iff_not] at h
      obtain ⟨rfl, rfl, h3⟩ := h
      have e : i = 0xD0 + i % 8 := by omega
      refine ⟨by unfold bankHas; rw [if_pos h1]; simp; omega, ?_, by omega, by omega, by omega, ?_, ?_⟩
      · have h4 : b ≠ 0x81 := by omega
        have h5 : b ≠ 0x88 := by omega
        have h6 : b ≠ 0x80 := by omega
        simp [plainWd, isBasted, h4, h5, h6]; omega
      · show (b, 0xD0 + i % 8) = (b, i); rw [← e]
      · intro x; unfold wordAsleep; dsimp only; rw [if_pos h1]; simp; intro _; omega
    · cases h
  · rename_i h1
    by_cases h2 : b < 0x80
    · rw [if_pos h2] at h
      by_cases h3 : i < 16
      · rw [if_pos h3] at h
        simp only [Option.some.injEq, Prod.mk.injEq, decide_eq_false_iff_not] at h
        obtain ⟨rfl, rfl, h4⟩ := h
        have e : i % 8 = i := by omega
        refine ⟨by unfold bankHas; rw [if_neg h1, if_pos h2]; simp; omega, ?_, by omega, by omega, by omega, ?_, ?_⟩
        · have h4 : b ≠ 0x81 := by omega
          have h5 : b ≠ 0x88 := by omega
          have h6 : b ≠ 0x80 := by omega
          simp [plainWd, isBasted, h4, h5, h6]; omega
        · show (0x40 + (b - 0x40), i % 8) = (b, i); rw [e, show 0x40 + (b - 0x40) = b by omega]
        · intro x; unfold wordAsleep; dsimp only; rw [if_neg h1]; simp [h2]
      · rw [if_neg h3] at h; cases h
    · rw [if_neg h2] at h
      by_cases h3 : b = 0x86 ∧ 0x500 ≤ i ∧ i < 0x520
      · rw [if_pos h3] at h
        obtain ⟨h3, h4⟩ := h3
        have h := Option.some.inj h
        have hb := (Prod.mk.inj h).1
        have hk := (Prod.mk.inj (Prod.mk.inj h).2).1
        have h5 : ¬ 0x510 ≤ i := of_decide_eq_false (Prod.mk.inj (Prod.mk.inj h).2).2
        subst hb hk h3
        have e : i = 0x500 + i % 16 := by omega
        refine ⟨?_, ?_, by omega, by omega, by omega, ?_, ?_⟩
        · show (decide (i < 0x410) || decide (0x420 ≤ i ∧ i ≤ 0x442) || decide (0x500 ≤ i ∧ i < 0x520)) = true
          simp [h4]
        · simp [plainWd, isBasted]
        · show (0x86, 0x500 + i % 16) = (0x86, i); rw [← e]
        · intro x; unfold wordAsleep; dsimp only; rw [if_neg (by omega)]; simp
      · rw [if_neg h3] at h; cases h

theorem merge_ovf (a raw : Word) (be : BitVec 4) (c : Bool) :
    mergeWord (counterFields false) (a ||| (if c then 0x80000000 else 0)) raw be = mergeWord (counterFields false) a raw be := by
  unfold mergeWord
  have : (a ||| (if c then 0x80000000 else 0)) &&& maskOf (counterFields false) (fun f => decide (f.acc = .rw)) =
      a &&& maskOf (counterFields false) (fun f => decide (f.acc = .rw)) := by
    rw [show maskOf (counterFields false) (fun f => decide (f.acc = .rw)) = 0x1FF by decide, BitVec.and_comm, BitVec.and_or_distrib_left, BitVec.and_comm 0x1FF a]
    cases c
    · simp
    · rw [if_pos rfl, show (0x1FF : Word) &&& 0x80000000 = 0 by decide]; simp
  rw [this]

theorem cval_zero (c : Prop) [Decidable c] (t : State) (j g : Nat) : cval (if c then t else setCovf (setCval t j 0) j false) g = if g = j ∧ ¬c then 0 else cval t g := by
  by_cases h : c
  · simp [h]
  · simp only [h, if_false, cval_setCovf, cval_setCval, not_false_eq_true, and_true]

theorem covf_zero (c : Prop) [Decidable c] (t : State) (j g : Nat) : covf (if c then t else setCovf (setCval t j 0) j false) g = if g = j ∧ ¬c then false else covf t g := by
  by_cases h : c
  · simp [h]
  · simp only [h, if_false, covf_setCovf, covf_setCval, not_false_eq_true, and_true]

theorem zero_cnt (c : Prop) [Decidable c] (t : State) (j : Nat) : ∃ n, (if c then t else setCovf (setCval t j 0) j false) = { t with cnt := n } := by
  split
  · exact ⟨_, rfl⟩
  · exact ⟨_, rfl⟩

theorem counterPut_spec (x : State) (b i k : Nat) (blk : Blk) (v : Word) :
    ∃ c, counterPut x b i blk k false v = { cfgSet x b i (v &&& 0x1FF) with cnt := c } ∧
      ∀ g, cval (counterPut x b i blk k false v) g = (if (g = gNum blk k ∧ cselGet x blk k ≠ v &&& 0x1FF) ∨
                       (g = gNum blk (k + 1) ∧ (cselGet x blk k).getLsbD 8 ≠ v.getLsbD 8) then 0 else cval x g) ∧
        covf (counterPut x b i blk k false v) g = (if (g = gNum blk k ∧ (cselGet x blk k ≠ v &&& 0x1FF ∨ v.msb = true)) ∨
                       (g = gNum blk (k + 1) ∧ (cselGet x blk k).getLsbD 8 ≠ v.getLsbD 8) then false else covf x g) := by
  have h8 : (v &&& 0x1FF).getLsbD 8 = v.getLsbD 8 := by
    rw [BitVec.getLsbD_and, show (0x1FF : Word).getLsbD 8 = true by decide, Bool.and_true]
  unfold counterPut
  simp only [Bool.false_eq_true, if_false, h8]
  generalize ha : cfgSet x b i (v &&& 0x1FF) = a
  have ha1 : ∀ g, cval a g = cval x g ∧ covf a g = covf x g := by subst ha; exact fun g => ⟨rfl, rfl⟩
  have e2 := cval_zero (cselGet x blk k = v &&& 0x1FF) a (gNum blk k)
  have f2 := covf_zero (cselGet x blk k = v &&& 0x1FF) a (gNum blk k)
  obtain ⟨n2, g2⟩ := zero_cnt (cselGet x blk k = v &&& 0x1FF) a (gNum blk k)
  generalize (if cselGet x blk k = v &&& 0x1FF then a else setCovf (setCval a (gNum blk k) 0) (gNum blk k) false) = s2 at e2 f2 g2 ⊢
  have e3 := cval_zero ((cselGet x blk k).getLsbD 8 = v.getLsbD 8) s2 (gNum blk (k + 1))
  have f3 := covf_zero ((cselGet x blk k).getLsbD 8 = v.getLsbD 8) s2 (gNum blk (k + 1))
  obtain ⟨n3, g3⟩ := zero_cnt ((cselGet x blk k).getLsbD 8 = v.getLsbD 8) s2 (gNum blk (k + 1))
  generalize (if (cselGet x blk k).getLsbD 8 = v.getLsbD 8 then s2 else setCovf (setCval s2 (gNum blk (k + 1)) 0) (gNum blk (k + 1)) false) = s3 at e3 f3 g3 ⊢
  have hs3 : s3 = { a with cnt := s3.cnt } := by rw [g3, g2]
  have hc3 : ∀ g, cval s3 g = (if (g = gNum blk k ∧ cselGet x blk k ≠ v &&& 0x1FF) ∨
                       (g = gNum blk (k + 1) ∧ (cselGet x blk k).getLsbD 8 ≠ v.getLsbD 8) then 0 else cval x g) := by
    intro g; rw [e3, e2, (ha1 g).1]; split_ifs <;> first | rfl | (exfalso; tauto)
  refine ⟨(if v.msb then setCovf s3 (gNum blk k) false else s3).cnt, ?_, fun g => ⟨?_, ?_⟩⟩
  · split
    · rw [hs3]; rfl
    · exact hs3
  · split
    · rw [cval_setCovf]; exact hc3 g
    · exact hc3 g
  · cases hm : v.msb
    · simp only [Bool.false_eq_true, if_false, or_false]
      rw [f3, f2, (ha1 g).2]; split_ifs <;> first | rfl | (exfalso; tauto)
    · simp only [if_true, or_true, and_true]
      rw [covf_setCovf, f3, f2, (ha1 g).2]; split_ifs <;> first | rfl | (exfalso; tauto)

theorem gatherStart_spec (x : State) : gathersFrom x (gatherStart x) := by
  refine ⟨rfl, fun g => tget_filterKey _ _ (fun k => blkOn x (blkOf k)) g, fun g => tget_filterKey _ _ (fun k => blkOn x (blkOf k)) g, fun n => ?_, rfl⟩
  show ((List.range 64).filter (fun n => !domOn x n)).contains n = _
  rw [Bool.eq_iff_iff]; simp

theorem counterAt_val {b i : Nat} {blk : Blk} {k : Nat} (h : counterAt b i = some (blk, k, true)) :
    bankHas b i = true ∧ ¬ (b < 0x40 ∧ i = 6) := by
  unfold counterAt at h
  split at h
  · rename_i hb
    split at h
    · rename_i hi
      simp only [Option.some.injEq, Prod.mk.injEq, decide_eq_true_eq] at h
      refine ⟨?_, by omega⟩
      unfold bankHas; rw [if_pos hb]; simp; omega
    · cases h
  · rename_i hb
    split at h
    · rename_i hb2
      split at h
      · rename_i hi
        refine ⟨?_, by omega⟩
        unfold bankHas; rw [if_neg hb, if_pos hb2]; simp; omega
      · cases h
    · split at h
      · rename_i hi
        refine ⟨?_, by omega⟩
        obtain ⟨rfl, h1, h2⟩ := hi
        unfold bankHas; simp; omega
      · cases h

theorem bump_cnt (s : State) (b : Blk) (c : Nat) : (bump s b c).cnt = { s.cnt with value := (bump s b c).cnt.value, ovf := (bump s b c).cnt.ovf } := by
  have ev : ∀ (u : State) (k : Nat), (raiseEvent u k).cnt = u.cnt := fun u k => by unfold raiseEvent; split <;> rfl
  have ov : ∀ (u : State) (g : Nat), (raiseOvf u g).cnt = { u.cnt with value := (raiseOvf u g).cnt.value, ovf := (raiseOvf u g).cnt.ovf } := fun u g => by
    unfold raiseOvf; split
    · rfl
    · rw [ev]; rfl
  have st : ∀ (u : State) (k : Nat), (stepCounter u b k).cnt = { u.cnt with value := (stepCounter u b k).cnt.value, ovf := (stepCounter u b k).cnt.ovf } := fun u k => by
    unfold stepCounter; dsimp only
    repeat' split
    all_goals first | rfl | (rw [ov]; rfl)
  unfold bump; split
  · rfl
  · generalize List.range (blkCount b) = l
    have : ∀ (l : List Nat) (u : State), u.cnt = { s.cnt with value := u.cnt.value, ovf := u.cnt.ovf } →
        (l.foldl (fun t k => if counts s b c k then stepCounter t b k else t) u).cnt = { s.cnt with value := (l.foldl (fun t k => if counts s b c k then stepCounter t b k else t) u).cnt.value, ovf := (l.foldl (fun t k => if counts s b c k then stepCounter t b k else t) u).cnt.ovf } := by
      intro l; induction l with
      | nil => exact fun u hu => hu
      | cons k l ih =>
        intro u hu
        rw [List.foldl_cons]
        apply ih
        split
        · rw [st, hu]
        · exact hu
    exact this l s rfl

theorem hostRead_serve {s : State} {ha : BitVec 6} (hw : s.host.waitLow = false) (hg : hostGate s ha.toNat = .serve) :
    ∃ b, CountsOnly s b ∧ (bump s .sys yHOSTACC = b) ∧ hostRead s ha = hostTake b ha.toNat := by
  refine ⟨_, bump_shape s .sys yHOSTACC, rfl, ?_⟩
  unfold hostRead; rw [if_neg (by simp [hw]), hg]

/-- R411: the high half of WINDATA writes a bank word, and the write ends in its own time. -/
theorem windataWrite_later {s : State} {hd : Half} {b i : Nat} {raw : Word} {sel : Origin → Wd → Word → Bool} {g : State}
    (hw : s.host.waitLow = false) (hgate : hostGate s 0x0A = .serve) (hn : hostNames s 0x0A hd = some (.bank b i, raw))
    (hsel : sel .host (.bank b i) raw = true) (hb : bankHas b i = true)
    (hg : writeWord (winNext (hostMod (hostMod (bump s .sys yHOSTACC) (fun y => { y with waitLow := true })) (fun y => { y with phase := false })))
      .host (.bank b i) raw 0xF none = .later g) :
    byWrite s 0x0A sel (.host hd) = settle g := by
  unfold byWrite
  dsimp only
  rw [hn]
  dsimp only
  rw [if_pos hsel]
  congr 1
  have h2 : winHigh s = true ∧ winB s = b ∧ winI s = i ∧ winWord s hd = raw := by
    have hn' : (if winHigh s then some (Wd.bank (winB s) (winI s), winWord s hd) else none) = some (.bank b i, raw) := hn
    by_cases h : winHigh s = true
    · rw [if_pos h] at hn'
      simp only [Option.some.injEq, Prod.mk.injEq, Wd.bank.injEq] at hn'
      exact ⟨h, hn'.1.1, hn'.1.2, hn'.2⟩
    · rw [if_neg h] at hn'; cases hn'
  obtain ⟨h1, h2, h3, h4⟩ := h2
  unfold hostWrite
  have hgate' : hostGate s (BitVec.toNat (0x0A : BitVec 6)) = .serve := hgate
  rw [if_neg (by simp [hw]), hgate']
  dsimp only
  generalize hs1 : hostMod (bump s .sys yHOSTACC) (fun y => { y with waitLow := true }) = s1 at hg ⊢
  have e : hostPerform s1 (BitVec.toNat (0x0A : BitVec 6)) hd = .later g := by
    have hh : s1.host = { s.host with waitLow := true } := by
      subst hs1; show ({ (bump s .sys yHOSTACC).host with waitLow := true } : HostIf) = _
      rw [(bump_shape _ _ _).host]
    show (if winHigh s1 then winWrite (winNext (hostMod s1 (fun y => { y with phase := false }))) (winB s1) (winI s1) (winWord s1 hd)
      else _) = _
    have w1 : winHigh s1 = true := by unfold winHigh at h1 ⊢; rw [hh]; exact h1
    have w2 : winB s1 = b := by unfold winB at h2 ⊢; rw [hh]; exact h2
    have w3 : winI s1 = i := by unfold winI at h3 ⊢; rw [hh]; exact h3
    have w4 : winWord s1 hd = raw := by unfold winWord at h4 ⊢; rw [hh]; exact h4
    rw [if_pos w1, w2, w3, w4]
    unfold winWrite
    rw [if_neg (by simp [hb]), hg]
  rw [e]
  rfl

/-- The taking of a host access of the high half of WINDATA. -/
theorem window_taken (s : State) : Taken s (winNext (hostMod (hostMod (bump s .sys yHOSTACC) (fun y => { y with waitLow := true })) (fun y => { y with phase := false }))) ∧
    (winNext (hostMod (hostMod (bump s .sys yHOSTACC) (fun y => { y with waitLow := true })) (fun y => { y with phase := false }))).mesh = s.mesh ∧
    ∀ (hd : Half) (b : Bool), { (winNext (hostMod (hostMod (bump s .sys yHOSTACC) (fun y => { y with waitLow := true })) (fun y => { y with phase := false }))).host with waitLow := b } = { hostLeft s 0x0A hd with waitLow := b } ∧
      (winNext (hostMod (hostMod (bump s .sys yHOSTACC) (fun y => { y with waitLow := true })) (fun y => { y with phase := false }))).host = { hostLeft s 0x0A hd with waitLow := true } := by
  have hc1 := bump_shape s .sys yHOSTACC
  have key : ∀ (hd : Half) (b : Bool), { (winNext (hostMod (hostMod (bump s .sys yHOSTACC) (fun y => { y with waitLow := true })) (fun y => { y with phase := false }))).host with waitLow := b } = { hostLeft s 0x0A hd with waitLow := b } := fun hd b => by
    unfold hostLeft
    rw [if_pos rfl, winNext_eq, winNext_eq]
    show { winHost { (bump s .sys yHOSTACC).host with waitLow := true, phase := false } with waitLow := b } =
      ({ winHost { s.host with phase := false } with waitLow := b } : HostIf)
    rw [hc1.host]
    exact winHost_wait { s.host with phase := false } true b
  have hwt : ∀ h : HostIf, (winHost h).waitLow = h.waitLow := fun h => by
    unfold winHost; repeat' split
    all_goals rfl
  refine ⟨?_, ?_, fun hd b => ⟨key hd b, ?_⟩⟩
  · rw [winNext_eq]
    obtain ⟨_, _, _, e⟩ := hc1.open
    have hl := And.intro (low_bump s yHOSTACC) (values_bump s .sys yHOSTACC)
    rw [e] at hl ⊢
    exact ⟨rfl, (winHost_fields _).1, (winHost_fields _).2, hl.1, hl.2, fun _ _ _ => rfl⟩
  · rw [winNext_eq]; exact hc1.mesh
  · rw [← key hd true]
    have : ∀ h : HostIf, h.waitLow = true → h = { h with waitLow := true } := fun h e => by rw [← e]
    refine this _ ?_
    rw [winNext_eq]
    show (winHost _).waitLow = true
    rw [hwt]; rfl

/-- A write of a bank word, whoever makes it, applied at once or by the operation that also ends the access. -/
theorem bank_row {s : State} {b i : Nat} {raw : Word} {be : BitVec 4} {by_ : By} {sel : Origin → Wd → Word → Bool} {P : State → Prop}
    (hw : Writes s 0x0A (.bank b i) raw be by_) (hsel : sel (askOrigin s by_) (.bank b i) raw = true) (hb : bankHas b i = true)
    (hE : ∀ x req, Taken s x → (∀ p k, req = some (p, k) → k = 0 ∧ p.data.length = 1) → ∃ g, Applied x (askOrigin s by_) (.bank b i) raw be req g ∧ g.host = x.host ∧ NodesSame x g ∧ P g)
    (hP : ∀ g h m, P g → P { g with host := h, mesh := m }) (hc : ∀ g, P g → settle g = g) (hon : ∀ g, P g → sysOn s = true → sysOn g = true) :
    ∃ t, byWrite s 0x0A sel by_ = t ∧ AccessEnds s t 0x0A by_ ∧ P t := by
  cases by_ with
  | fabric net =>
    refine fab_row hw hsel (by simp) (fun x p hx hp _ => ?_) hP hc hon
    exact hE x (some (p, 0)) hx (fun p' k h => by simp only [Option.some.injEq, Prod.mk.injEq] at h; obtain ⟨rfl, rfl⟩ := h; exact ⟨rfl, hp⟩)
  | host hd =>
    obtain ⟨hwait, hgate, hn, rfl⟩ := hw
    obtain ⟨ht, hm, hh⟩ := window_taken s
    obtain ⟨g, h1, h2, h3, h5⟩ := hE _ none ht (fun p k h => by cases h)
    have e : byWrite s 0x0A sel (.host hd) = settle (hostEnd g) := by
      rcases h1 with h1 | h1
      · exact windataWrite_done hwait hgate hn hsel hb h1
      · exact windataWrite_later hwait hgate hn hsel hb h1
    have hg : P (hostEnd g) := hP g { g.host with waitLow := false } g.mesh h5
    rw [e, hc _ hg]
    refine ⟨_, rfl, ⟨?_, ?_⟩, hg⟩
    · show NodesSame s g
      exact ⟨by rw [h3.1, hm], fun k m => by rw [h3.2]; unfold nodeGet; rw [hm]⟩
    · show ({ g.host with waitLow := false } : HostIf) = _
      rw [h2, (hh hd false).1]

end Sys2Proof.Machine
end

