-- ==== Sys2Proof/Laws/PowerRows.lean ====
section
/-!
SUPPORT. Start-up, supplies, domains, votes, the rungs, the journal head.
-/
namespace Sys2Proof.Machine

theorem voteSet_eq {s : State} {d v : Nat} {c : Bool} (hd : d < 64) : voteSet s d v c = domSet s d { domGet s d with votes := votePut (domGet s d).votes v c } := by
  unfold voteSet; rw [if_pos hd]; rfl

/-- P of a paced vote: what voteApply leaves before the access ends. -/
theorem vote_core {s x0 : State} {by_ : By} {d v : Nat} {c : Bool} (paced : Bool) (hd : d < 64) (hc : s.calm) (hn : nvOn s = true) (hl : s.jrn.staging.length < 71) (hx : Taken s x0)
    (hf : (domGet s d).st = .on → wantedOn (if paced then paceSet (domSet s d { domGet s d with votes := votePut (domGet s d).votes v c }) d v true else domSet s d { domGet s d with votes := votePut (domGet s d).votes v c }) d = false → fenceEmpty s d) :
    let e := if paced then paceSet (domSet s d { domGet s d with votes := votePut (domGet s d).votes v c }) d v true else domSet s d { domGet s d with votes := votePut (domGet s d).votes v c }
    let z := jOrigin (voteSet x0 d v c) (askOrigin s by_) (tidDom 2 d) (voteWordValue v c)
    let g := evalDom (if paced then paceSet z d v true else z) d
    g.host = x0.host ∧ g.mesh = x0.mesh ∧ g.calm ∧ (sysOn s = true → sysOn g = true) ∧ DomChanged s e g d (originKind (askOrigin s by_)) (tidDom 2 d) (voteWordValue v c) := by
  intro e z g
  have e0 : voteSet x0 d v c = overlay x0 (domSet s d { domGet s d with votes := votePut (domGet s d).votes v c }) := by
    rw [voteSet_eq hd, hx.domGet]
    have := hx.eq
    conv_lhs => rw [this]
    rfl
  obtain ⟨j1, w, k1, k2⟩ := entry_row (x := x0) (g := z) (e := domSet s d { domGet s d with votes := votePut (domGet s d).votes v c }) (by_ := by_) hn (tidDom 2 d) (voteWordValue v c)
    (by rw [← e0]) rfl (by rw [domGet_domSet_ne _ _ _ _ (by omega)]) rfl
  have jz : JournalOnly (overlay x0 e) (if paced then paceSet z d v true else z) := by
    cases paced
    · exact j1
    · obtain ⟨_, _, _, _, ez⟩ := j1.open
      show JournalOnly (overlay x0 (paceSet _ d v true)) (paceSet z d v true)
      rw [ez]; rfl
  have jr : (if paced then paceSet z d v true else z).jrn = z.jrn := by cases paced <;> rfl
  have ec : e.calm := by cases paced <;> exact hc
  have eg : ∀ k, domGet e k = domGet (domSet s d { domGet s d with votes := votePut (domGet s d).votes v c }) k := by intro k; cases paced <;> rfl
  have ef : fenceEmpty e d = fenceEmpty s d := by cases paced <;> rfl
  have := dom_entry (s := s) jz (by rw [eg, domGet_domSet_ne _ _ _ _ (by omega)]) hn (by rw [jr, k1]; simp; omega) ec (d := d) (by omega)
    (fun h1 h2 => by rw [ef]; rw [eg, domGet_domSet_same] at h1; exact hf h1 h2)
  obtain ⟨g1, g2, g3, g4, g5, g6⟩ := this
  refine ⟨g2, g3, g4, fun h => g5 ?_, _, ⟨w, by rw [jr]; exact k1, k2⟩, g1, g6⟩
  unfold sysOn domOn at h ⊢; rw [eg, domGet_domSet_ne _ _ _ _ (by omega)]; exact h

theorem portNode_facts' (n : Fin 64) : nodeSlotB (portNode n.val) = false ∧ nodeRouter (portNode n.val) = n.val := by
  revert n; decide

theorem nodeGet_nodeMod_if (s : State) (n k : BitVec 7) (m q : Net) (f : NodeQ → NodeQ) :
    nodeGet (nodeMod s n m f) k q = if k = n ∧ q = m then f (nodeGet s n m) else nodeGet s k q := by
  by_cases h : k = n ∧ q = m
  · rw [if_pos h, h.1, h.2, nodeGet_nodeMod_same]
  · rw [if_neg h, nodeGet_nodeMod_ne _ _ _ _ _ _ h]

theorem portUnpower_nodes (s : State) (n : Nat) (k : BitVec 7) (net : Net) :
    nodeGet (portUnpower s n) k net = if k = portNode n then { nodeGet s k net with rx := [] } else nodeGet s k net := by
  unfold portUnpower
  generalize portNode n = a
  simp only [List.foldl_cons, List.foldl_nil, nodeGet_nodeMod_if]
  by_cases hk : k = a
  · subst hk; cases net <;> simp
  · simp [hk]

theorem portUnpower_mesh (s : State) (n : Nat) : MeshOnly s (portUnpower s n) := by
  unfold portUnpower
  simp only [List.foldl_cons, List.foldl_nil]
  exact (((nodeMod_frame _ _ _ _).trans (nodeMod_frame _ _ _ _)).trans (nodeMod_frame _ _ _ _)).trans (nodeMod_frame _ _ _ _)

theorem portUnpower_spec (s : State) (n : Nat) (f : PortSt → PortSt) :
    (portGet (portUnpower (portMod s n f) n) n = f (portGet s n)) ∧ (∀ m, m ≠ n → portGet (portUnpower (portMod s n f) n) m = portGet s m) ∧
    (∀ k net, nodeGet (portUnpower (portMod s n f) n) k net = if k = portNode n then { nodeGet s k net with rx := [] } else nodeGet s k net) ∧ PortsOnly s (portUnpower (portMod s n f) n) := by
  have hm := portUnpower_mesh (portMod s n f) n
  have hpg : ∀ m, portGet (portUnpower (portMod s n f) n) m = portGet (portMod s n f) m := fun m => by unfold portGet; rw [hm]
  refine ⟨?_, fun m hm => ?_, fun k net => ?_, (portMod_frame s n f).trans hm.toPorts⟩
  · rw [hpg]; exact portGet_portMod_same ..
  · rw [hpg]; exact portGet_portMod_ne _ _ _ _ hm
  · exact portUnpower_nodes (portMod s n f) n k net

theorem goesOff_spec {s : State} (hc : s.calm) (hn : nvOn s = true) (hl : s.jrn.staging.length < 71) (d : Nat) (hd : d < 66) (forced : Bool) (hst : (domGet s d).st ≠ .off) :
    GoesOff s (domOff s d forced) d forced ∧ (∃ k, (domOff s d forced).jrn.staging.length ≤ s.jrn.staging.length + k ∧ k ≤ 2) := by
  unfold domOff
  dsimp only
  generalize hu : (if d < 64 then portUnpower (portMod s d (fun p => { p with pool := (((portGet s d).pool.tags.filter (fun e => decide (e.2.st = .stale))).map (fun e => BitVec.ofNat 8 e.1)).foldl tagFree p.pool, bus := DevBus.reset })) d else s) = u
  have hus : (if d < 64 then PortDown s u d else u = s) := by
    by_cases h : d < 64
    · rw [if_pos h] at hu ⊢; subst hu
      exact portUnpower_spec s d _
    · rw [if_neg h] at hu ⊢; exact hu.symm
  have up : PortsOnly s u := by
    by_cases h : d < 64
    · rw [if_pos h] at hus; exact hus.2.2.2
    · rw [if_neg h] at hus; rw [hus]; exact .refl _
  have uc : u.calm := up.calm hc
  have ud : ∀ k, domGet u k = domGet s k := fun k => by unfold domGet; rw [up]
  have un : nvOn u = true := by unfold nvOn domOn at hn ⊢; rw [ud]; exact hn
  have uj : u.jrn = s.jrn := by rw [up]
  have ur : hwRoom u = true := by unfold hwRoom; rw [un, if_pos rfl, uj]; exact decide_eq_true (by omega)
  have g1 := domBecomes_change uc ur d (by omega) (fun x => { x with st := .off, hem := .none, forced := x.forced || forced, holdOff := forced && decide (d < 64), hold := x.hold })
  generalize domChange u d (fun x => { x with st := .off, hem := .none, forced := x.forced || forced, holdOff := forced && decide (d < 64), hold := x.hold }) = v at g1
  have vj : v.jrn.staging.length = s.jrn.staging.length + 1 := by
    have := g1.2.2.2.1.2 (by dsimp only; rw [ud]; exact fun h => hst h.symm)
    unfold Enters at this; rw [if_pos un] at this
    obtain ⟨w, w1, _⟩ := this
    rw [w1, uj]; simp
  have vn : nvOn v = true := by unfold nvOn domOn at un ⊢; rw [g1.2.1 67 (by omega)]; exact un
  have vr : hwRoom v = true := by unfold hwRoom; rw [vn, if_pos rfl, vj]; exact decide_eq_true (by omega)
  have vc := g1.calm uc
  have g2 := evalDom_spec vc vr d hd (fun h => by rw [g1.1] at h; cases h)
  refine ⟨⟨u, v, hus, by rw [← ud]; exact g1, g2⟩, ?_⟩
  by_cases h : (domNext v d).st = (domGet v d).st
  · exact ⟨1, by rw [g2.2.2.2.1.1 h, vj], by omega⟩
  · have := g2.2.2.2.1.2 h
    unfold Enters at this; rw [if_pos vn] at this
    obtain ⟨w, w1, _⟩ := this
    exact ⟨2, by rw [w1]; simp; omega, by omega⟩

theorem GoesOff.frame {s t : State} {d : Nat} {f : Bool} (h : GoesOff s t d f) : t = { s with doms := t.doms, ports := t.ports, mesh := t.mesh, jrn := t.jrn, cnt := t.cnt, sys := { s.sys with event := t.sys.event, eventLate := t.sys.eventLate } } := by
  obtain ⟨u, v, h1, h2, h3⟩ := h
  have up : PortsOnly s u := by
    by_cases h : d < 64
    · rw [if_pos h] at h1; exact h1.2.2.2
    · rw [if_neg h] at h1; rw [h1]; exact .refl _
  have e1 := h2.2.2.2.2
  have e2 := h3.2.2.2.2
  rw [e2, e1, up]

theorem pst_merge (raw : Word) (be : BitVec 4) (h : be.getLsbD 0 = true) (old : Word) :
    fieldNat (mergeWord [fRW 7 rPOWER] old raw be) 0 3 = (raw.extractLsb' 0 3).toNat ∧
    ((mergeWord [fRW 7 rPOWER] old raw be).extractLsb' 0 16).extractLsb' 0 3 = raw.extractLsb' 0 3 := by
  have hl : ∀ i, i < 3 → (laneMask be).getLsbD i = true := (show ∀ b : BitVec 4, b.getLsbD 0 = true → ∀ i, i < 3 → (laneMask b).getLsbD i = true by decide) be h
  have h2 : (mergeWord [fRW 7 rPOWER] old raw be).extractLsb' 0 3 = raw.extractLsb' 0 3 := by
    apply BitVec.eq_of_getLsbD_eq
    intro i hi
    have h7 : (7 : Word).getLsbD i = true := (show ∀ i, i < 3 → (7 : Word).getLsbD i = true by decide) i hi
    have m1 : maskOf [fRW 7 rPOWER] (fun f => decide (f.acc = .rw)) = 7 := by decide
    have m2 : maskOf [fRW 7 rPOWER] (fun _ => true) = 7 := by decide
    unfold mergeWord
    rw [m1, m2]
    simp [hi, h7, hl i hi]
    intro; omega
  refine ⟨by unfold fieldNat; rw [h2], ?_⟩
  apply BitVec.eq_of_getLsbD_eq
  intro i hi
  rw [← h2]
  simp [hi]

theorem setPstate_spec {s : State} (f : Power → Power) (hr : hwRoom s = true) : PstateBecomes s (setPstate s f) (f s.power) := by
  unfold setPstate PstateBecomes; dsimp only
  have e : powMod s f = { s with power := f s.power } := rfl
  rw [e]
  split
  · rename_i h
    exact ⟨fun _ => rfl, fun hh => absurd h hh, rfl⟩
  · rename_i h
    refine ⟨fun hh => absurd hh h, fun _ => ?_, ?_⟩
    · exact jHw_enters (s := { s with power := f s.power }) _ _ _ _ hr
    · exact jHw_shape _ _ _ _ _

theorem delaysDue_spec (s : State) : (∀ r, delayGet (delaysDue s) r = if r < 64 then { delayGet s r with due := true } else delayGet s r) ∧
    delaysDue s = { s with mesh := { s.mesh with delays := (delaysDue s).mesh.delays } } := by
  unfold delaysDue
  have : ∀ n, (∀ r, delayGet ((List.range n).foldl (fun t r => delaySet t r { delayGet t r with due := true }) s) r = if r < n then { delayGet s r with due := true } else delayGet s r) ∧
      (List.range n).foldl (fun t r => delaySet t r { delayGet t r with due := true }) s = { s with mesh := { s.mesh with delays := ((List.range n).foldl (fun t r => delaySet t r { delayGet t r with due := true }) s).mesh.delays } } := by
    intro n
    induction n with
    | zero => exact ⟨fun r => by simp, rfl⟩
    | succ n ih =>
      rw [List.range_succ, List.foldl_append]
      obtain ⟨i1, i2⟩ := ih
      generalize (List.range n).foldl (fun t r => delaySet t r { delayGet t r with due := true }) s = u at i1 i2
      rw [List.foldl_cons, List.foldl_nil]
      refine ⟨fun r => ?_, ?_⟩
      · by_cases hr : r = n
        · subst hr; rw [delayGet_delaySet_same, i1, if_neg (by omega), if_pos (by omega)]
        · have : delayGet (delaySet u n { delayGet u n with due := true }) r = delayGet u r := tget_tset_ne _ _ _ _ _ hr
          rw [this, i1]
          by_cases h : r < n
          · rw [if_pos h, if_pos (by omega)]
          · rw [if_neg h, if_neg (by omega)]
      · rw [show delaySet u n { delayGet u n with due := true } = { u with mesh := { u.mesh with delays := (delaySet u n { delayGet u n with due := true }).mesh.delays } } from rfl]
        generalize (delaySet u n { delayGet u n with due := true }).mesh.delays = dl
        rw [i2]
  exact this 64

theorem room_one {s t : State} {k tid v} (hn : nvOn s = true) (hl : s.jrn.staging.length < 68) (ht : nvOn t = nvOn s) (h : t.jrn = s.jrn ∨ StagesOne s t k tid v) : hwRoom t = true := by
  unfold hwRoom; rw [ht, if_pos hn]
  rcases h with h | ⟨e, h, _⟩
  · rw [h]; exact decide_eq_true (by omega)
  · rw [h]; simp; omega

theorem pstate_plain {s t : State} {p : Power} {src c} (h : PstateBecomes s t p) (hn : nvOn s = true) (hl : s.jrn.staging.length < 68) (hf : FaultPlain s src c) : FaultPlain t src c := by
  have hd : t.doms = s.doms := by rw [h.2.2]
  have hnt : nvOn t = nvOn s := by unfold nvOn domOn domGet; rw [hd]
  refine ⟨?_, ?_, ?_⟩
  · by_cases hp : pstateWord { s with power := p } = pstateWord s
    · exact room_one (k := 0) (tid := 0) (v := 0) hn hl hnt (Or.inl (h.1 hp))
    · have := h.2.1 hp
      unfold Enters at this; rw [if_pos hn] at this
      exact room_one hn hl hnt (Or.inr this)
  · have : faultdb t = faultdb s := by unfold faultdb cfgGet; rw [h.2.2]
    rw [this]; exact hf.2.1
  · have : faultGet t src = faultGet s src := by unfold faultGet; rw [h.2.2]
    rw [this]; exact hf.2.2

theorem startCore_spec (s : State) (why : LadderWhy) :
    (∀ d, domGet (startCore s why) d = if d = 64 ∨ d = 66 ∨ (d = 67 ∧ why ≠ .patrol) then { domGet s d with st := .waking, rung := 0, retried := false, rest := false } else domGet s d) ∧
    startCore s why = { s with doms := (startCore s why).doms, power := { s.power with mode := .core why, assist := assistOf (ladderCode why).toNat, bias := .zero } } := by
  unfold startCore; dsimp only
  have e : ∀ t : State, domGet (powMod t (fun p => { p with mode := .core why, assist := assistOf (ladderCode why).toNat, bias := .zero })) = domGet t := fun _ => rfl
  by_cases hw : why = .patrol
  · rw [if_pos hw]
    refine ⟨fun d => ?_, rfl⟩
    simp only [List.foldl_cons, List.foldl_nil, domGet_domMod, e]
    by_cases h1 : d = 64
    · subst h1; simp
    · by_cases h2 : d = 66
      · subst h2; simp
      · simp [h1, h2, hw]
  · rw [if_neg hw]
    refine ⟨fun d => ?_, rfl⟩
    simp only [List.foldl_cons, List.foldl_nil, domGet_domMod, e]
    by_cases h1 : d = 64
    · subst h1; simp
    · by_cases h2 : d = 66
      · subst h2; simp
      · by_cases h3 : d = 67
        · subst h3; simp [hw]
        · simp [h1, h2, h3]

theorem settle_still {z : State} (h1 : z.power.moving = none) (h2 : z.time.patrol = none) (h3 : z.sys.portRst = none) (h4 : z.sys.held = []) (hp : powerEval z = z) : settle z = z := by
  have dc : downCheck z = z := by unfold downCheck; rw [h1]
  have pp : patrolPump z = z := by unfold patrolPump; rw [h2]
  unfold settle upkeep
  rw [dc, hp, pp]
  have e : portRstGo z = z := by unfold portRstGo; rw [h3]
  rw [e, heldPump_calm _ h4]

theorem setCval_get (s : State) (g : Nat) (v : Word) (k : Nat) : cval (setCval s g v) k = if k = g then v else cval s k := by
  by_cases h : k = g
  · rw [if_pos h, h]; exact tget_tset_same ..
  · rw [if_neg h]; exact tget_tset_ne _ _ _ _ _ h

theorem setCovf_get (s : State) (g : Nat) (v : Bool) (k : Nat) : covf (setCovf s g v) k = if k = g then v else covf s k := by
  by_cases h : k = g
  · rw [if_pos h, h]; exact tget_tset_same ..
  · rw [if_neg h]; exact tget_tset_ne _ _ _ _ _ h

theorem zeroCounters_spec (s : State) (d : Nat) : (∀ g, cval (zeroCounters s (.port d)) g = if d * 8 ≤ g ∧ g < d * 8 + 8 then 0 else cval s g) ∧
    (∀ g, covf (zeroCounters s (.port d)) g = if d * 8 ≤ g ∧ g < d * 8 + 8 then false else covf s g) ∧
    zeroCounters s (.port d) = { s with cnt := { s.cnt with value := (zeroCounters s (.port d)).cnt.value, ovf := (zeroCounters s (.port d)).cnt.ovf } } := by
  have e : zeroCounters s (.port d) = (List.range 8).foldl (fun t k => setCovf (setCval t (8 * d + k) 0) (8 * d + k) false) s := rfl
  rw [e]
  have : ∀ n, let z := (List.range n).foldl (fun t k => setCovf (setCval t (8 * d + k) 0) (8 * d + k) false) s
      (∀ g, cval z g = if d * 8 ≤ g ∧ g < d * 8 + n then 0 else cval s g) ∧ (∀ g, covf z g = if d * 8 ≤ g ∧ g < d * 8 + n then false else covf s g) ∧
      z = { s with cnt := { s.cnt with value := z.cnt.value, ovf := z.cnt.ovf } } := by
    intro n
    induction n with
    | zero => exact ⟨fun g => by rw [if_neg (by omega)]; rfl, fun g => by rw [if_neg (by omega)]; rfl, rfl⟩
    | succ n ih =>
      dsimp only at ih ⊢
      rw [List.range_succ, List.foldl_append]
      obtain ⟨i1, i2, i3⟩ := ih
      generalize (List.range n).foldl (fun t k => setCovf (setCval t (8 * d + k) 0) (8 * d + k) false) s = u at i1 i2 i3
      rw [List.foldl_cons, List.foldl_nil]
      refine ⟨fun g => ?_, fun g => ?_, ?_⟩
      · show cval (setCval u (8 * d + n) 0) g = _
        rw [setCval_get, i1]
        repeat' split
        all_goals first | rfl | omega
      · rw [setCovf_get]
        show (if g = 8 * d + n then false else covf u g) = _
        rw [i2]
        repeat' split
        all_goals first | rfl | omega
      · show ({ u with cnt := { u.cnt with value := _, ovf := _ } } : State) = _
        rw [i3]; rfl
  exact this 8

theorem DomBecomes.room {s t : State} {d : Nat} {x : Dom} (h : DomBecomes s t d x) (hn : nvOn s = true) (h67 : d ≠ 67) (hl : s.jrn.staging.length < 68) : hwRoom t = true := by
  have hnt : nvOn t = nvOn s := by unfold nvOn domOn; rw [h.2.1 67 (by omega)]
  by_cases hx : x.st = (domGet s d).st
  · exact room_one (k := 0) (tid := 0) (v := 0) hn hl hnt (Or.inl (h.2.2.2.1.1 hx))
  · have := h.2.2.2.1.2 hx
    unfold Enters at this; rw [if_pos hn] at this
    exact room_one hn hl hnt (Or.inr this)

theorem AccessOnly.setTime {s y : State} (h : AccessOnly s y) (T : Time) : AccessOnly { s with time := T } { y with time := T } := by
  unfold AccessOnly at h ⊢
  generalize hz : ({ y with time := T } : State) = z
  have : z = { y with time := T, host := z.host, mesh := z.mesh, jrn := z.jrn, cnt := z.cnt, sys := z.sys } ∧ z.sys = y.sys := by subst hz; exact ⟨rfl, rfl⟩
  rw [this.1, this.2, h]

theorem AccessOnly.setPower {s y : State} (h : AccessOnly s y) (T : Power) : AccessOnly { s with power := T } { y with power := T } := by
  unfold AccessOnly at h ⊢
  generalize hz : ({ y with power := T } : State) = z
  have : z = { y with power := T, host := z.host, mesh := z.mesh, jrn := z.jrn, cnt := z.cnt, sys := z.sys } ∧ z.sys = y.sys := by subst hz; exact ⟨rfl, rfl⟩
  rw [this.1, this.2, h]

theorem AccessOnly.thenJ {s y g : State} (h : AccessOnly s y) (k : JournalOnly y g) : AccessOnly s g := by
  obtain ⟨_, _, _, _, rfl⟩ := k.open
  unfold AccessOnly at h ⊢
  generalize hz : ({ y with jrn := _, cnt := _, sys := _ } : State) = z
  have : z = { y with jrn := z.jrn, cnt := z.cnt, sys := { y.sys with event := z.sys.event, eventLate := z.sys.eventLate } } ∧ z.host = y.host ∧ z.mesh = y.mesh := by subst hz; exact ⟨rfl, rfl, rfl⟩
  rw [this.2.1, this.2.2]
  rw [this.1, h]

theorem merge_all (k : Nat) (old raw : Word) : mergeWord [fRW 0xFFFFFFFF k] old raw 0xF = raw := by
  unfold mergeWord
  have m1 : maskOf [fRW 0xFFFFFFFF k] (fun f => decide (f.acc = .rw)) = 0xFFFFFFFF := by simp [maskOf, fRW]
  have m2 : maskOf [fRW 0xFFFFFFFF k] (fun _ => true) = 0xFFFFFFFF := by simp [maskOf, fRW]
  rw [m1, m2, show laneMask 0xF = 0xFFFFFFFF by decide]
  have : (0xFFFFFFFF : Word) = BitVec.allOnes 32 := by decide
  rw [this]; simp
  rw [show (4294967295#32) = BitVec.allOnes 32 from rfl, BitVec.and_allOnes, BitVec.and_allOnes]

theorem be_lane (be : BitVec 4) (h : be ≠ 0) : decide ((0xFFFFFFFF : Word) &&& laneMask be ≠ 0) = true :=
  (show ∀ be : BitVec 4, be ≠ 0 → decide ((0xFFFFFFFF : Word) &&& laneMask be ≠ 0) = true by decide) be h

/-- The write of a full RW word with its right held. -/
theorem full_write {s x : State} {o : Origin} {wd : Wd} {raw : Word} {be : BitVec 4} {req} {k : Nat} {old : Word} (hx : Taken s x) (hbe : be ≠ 0) (hk : k < 8)
    (hfs : fieldsOf wd = [fRW 0xFFFFFFFF k]) (hp : plainWd wd = true) (hold : wordRead x o wd = old) (hres : ∀ v, reservedCode x wd old v = false)
    (ha : wordAsleep x wd = false) (hR : holdsRight s o k = true) (h26 : wd ≠ .reg 0x26) (h06 : wd ≠ .reg 0x06) (hr : jRoom s = true) :
    writeWord x o wd raw be req = .done (wordApply x o wd old (mergeWord [fRW 0xFFFFFFFF k] old raw be) true) := by
  rw [writeWord_go (old := old) (v := mergeWord [fRW 0xFFFFFFFF k] old raw be) hp (by rw [hfs]; rfl) hold (by rw [hfs]) (hres _) (lacks_none fun f hf k' hk' => ?_) ha ?_ (Or.inr rfl)]
  · exact wordGo_done h26 h06 (fun _ => by rw [hx.jRoom]; exact hr)
  · rw [hfs]; unfold journals
    have : hasRight x o (fRW 0xFFFFFFFF k) = true := by unfold hasRight; simp [fRW, hx.holdsRight, hR]
    simp only [List.any_cons, List.any_nil, Bool.or_false, this, Bool.or_true, Bool.and_true]
    show (true && decide ((0xFFFFFFFF : Word) &&& laneMask be ≠ 0)) = true
    rw [be_lane be hbe]; rfl
  · rw [hfs] at hf; simp [fRW] at hf; subst hf; simp at hk'; subst hk'; rw [hx.holdsRight]; exact hR

theorem room_two {s t : State} (hn : nvOn s = true) (hnt : nvOn t = nvOn s) {k tid v} (h : StagesOne s t k tid v) (hl : s.jrn.staging.length < 68) : hwRoom t = true := by
  obtain ⟨e, h1, _⟩ := h
  unfold hwRoom; rw [hnt, if_pos hn, h1]; simp; omega

theorem headAdvance_spec (s : State) : (headAdvance s).jrn = { s.jrn with
      head := s.jrn.head + 1, passes := if s.jrn.head + 1 = 0 then s.jrn.passes + 1 else s.jrn.passes
      hdrHead := if (s.jrn.head + 1).toNat % 4096 = 0 then s.jrn.head + 1 else s.jrn.hdrHead
      hdrPass := if (s.jrn.head + 1).toNat % 4096 = 0 then (if s.jrn.head + 1 = 0 then s.jrn.passes + 1 else s.jrn.passes) else s.jrn.hdrPass
      level := (headAdvance s).jrn.level } ∧
    headAdvance s = { s with jrn := (headAdvance s).jrn, sys := { s.sys with event := (headAdvance s).sys.event, eventLate := (headAdvance s).sys.eventLate } } := by
  let h := s.jrn.head + 1
  let p := if h = 0 then s.jrn.passes + 1 else s.jrn.passes
  let k : Journal := if h.toNat % 4096 = 0 then { s.jrn with head := h, passes := p, hdrHead := h, hdrPass := p } else { s.jrn with head := h, passes := p }
  have e : headAdvance s = if (wearLevel p).toNat > s.jrn.level.toNat then raiseEvent { s with jrn := { k with level := wearLevel p } } evJWEAR else { s with jrn := k } := by
    unfold headAdvance; dsimp only
    show (if (wearLevel p).toNat > s.jrn.level.toNat then raiseEvent (jrnMod (if h.toNat % 4096 = 0 then _ else _) _) evJWEAR else (if h.toNat % 4096 = 0 then _ else _)) = _
    have ek : (if h.toNat % 4096 = 0 then jrnMod (jrnMod s (fun j => { j with head := h, passes := p })) (fun j => { j with hdrHead := h, hdrPass := p }) else jrnMod s (fun j => { j with head := h, passes := p })) = { s with jrn := k } := by
      show _ = ({ s with jrn := if h.toNat % 4096 = 0 then _ else _ } : State)
      by_cases hh : h.toNat % 4096 = 0
      · rw [if_pos hh, if_pos hh]; rfl
      · rw [if_neg hh, if_neg hh]; rfl
    rw [ek]; rfl
  have kf : ∀ l, ({ k with level := l } : Journal) = { s.jrn with head := s.jrn.head + 1, passes := p, hdrHead := if h.toNat % 4096 = 0 then h else s.jrn.hdrHead, hdrPass := if h.toNat % 4096 = 0 then p else s.jrn.hdrPass, level := l } := by
    intro l
    show ({ (if h.toNat % 4096 = 0 then _ else _ : Journal) with level := l } : Journal) = _
    by_cases hh : h.toNat % 4096 = 0
    · rw [if_pos hh, if_pos hh, if_pos hh]
    · rw [if_neg hh, if_neg hh, if_neg hh]
  have re : ∀ (u : State) n, (raiseEvent u n).jrn = u.jrn ∧ raiseEvent u n = { u with sys := { u.sys with event := (raiseEvent u n).sys.event, eventLate := (raiseEvent u n).sys.eventLate } } := by
    intro u n; unfold raiseEvent; split <;> exact ⟨rfl, rfl⟩
  rw [e]
  split
  · obtain ⟨r1, r2⟩ := re { s with jrn := { k with level := wearLevel p } } evJWEAR
    refine ⟨?_, ?_⟩
    · rw [r1]; exact kf _
    · rw [r1]; exact r2
  · exact ⟨kf k.level, rfl⟩

theorem arr_tset (s : State) (h i : Nat) (w : BitVec 128) (hi : i ≠ h) : tget (fun _ => (0 : BitVec 128)) (tset (fun _ => 0) s.jrn.array h w) i = arrGet s i := tget_tset_ne _ _ _ _ _ hi

end Sys2Proof.Machine
end

