-- ==== Sys2Proof/Laws/BobRows.lean ====
section
/-!
SUPPORT. Bobbins, basting, the directory, requests of SYS.
-/
namespace Sys2Proof.Machine

def BobsOnly (s t : State) : Prop :=
  t = { s with bobs := t.bobs, jrn := t.jrn, cnt := t.cnt, sys := { s.sys with event := t.sys.event, eventLate := t.sys.eventLate } }

theorem BobsOnly.set {s t : State} (h : BobsOnly s t) (b : Nat) (x : Bobbin) : BobsOnly s (bobSet t b x) := by
  unfold BobsOnly at *
  have : ∀ q : Table Bobbin, ({ t with bobs := q } : State) = { s with bobs := q, jrn := t.jrn, cnt := t.cnt, sys := { s.sys with event := t.sys.event, eventLate := t.sys.eventLate } } := fun q => by
    conv_lhs => rw [h]
  exact this _

theorem BobsOnly.refl (s : State) : BobsOnly s s := rfl

theorem BobsOnly.counts {s t u : State} (h : BobsOnly s t) (k : CountsOnly t u) : BobsOnly s u := by
  obtain ⟨c, e, l, rfl⟩ := k.open
  unfold BobsOnly at *
  conv_lhs => rw [h]

theorem BobsOnly.jrn' {s t u : State} (h : BobsOnly s t) (k : JournalOnly t u) : BobsOnly s u := by
  obtain ⟨j, c, e, l, rfl⟩ := k.open
  unfold BobsOnly at *
  conv_lhs => rw [h]

theorem bobGet_set (s : State) (b c : Nat) (x : Bobbin) : bobGet (bobSet s b x) c = if c = b then x else bobGet s c := by
  by_cases h : c = b
  · rw [if_pos h, h]; exact tget_tset_same ..
  · rw [if_neg h]; exact tget_tset_ne _ _ _ _ _ h

theorem bobGet_counts {s t : State} (k : JournalOnly s t) (c : Nat) : bobGet t c = bobGet s c := by
  obtain ⟨_, _, _, _, rfl⟩ := k.open; rfl

theorem nodeGet_mod_ne (s : State) (n m : BitVec 7) (a b : Net) (f : NodeQ → NodeQ) (h : ¬ (m = n ∧ b = a)) : nodeGet (nodeMod s n a f) m b = nodeGet s m b :=
  nodeGet_nodeMod_ne _ _ _ _ _ _ h

/-- What BOB leaves of a request it performed. -/
theorem bob_fin {s z : State} {net : Net} {p : Pkt} {x : Bobbin} {st : Status} {ds : List DataUnit} (hc : s.calm) (ha : BobAsks s net p)
    (hz : BobsOnly (rxDrop s nodeBob net) z) (hx : bobGet z (bobOf p.addr) = x) (ho : ∀ c, c ≠ bobOf p.addr → bobGet z c = bobGet s c) :
    settle (respond z p st ds) = respond z p st ds ∧ BobDoes s (respond z p st ds) net p x st ds := by
  obtain ⟨h1, h2, h3, h4, -⟩ := ha
  have hrsp : (nodeGet s nodeBob .rsp).out = [] := by
    unfold rxHead at h3; split at h3
    · assumption
    · cases h3
  have hzn : ∀ k m, nodeGet z k m = nodeGet (rxDrop s nodeBob net) k m := fun k m => by unfold nodeGet; rw [hz]
  have hrd : nodeGet (rxDrop s nodeBob net) nodeBob net = { nodeGet s nodeBob net with rx := (nodeGet s nodeBob net).rx.drop 1 } := nodeGet_nodeMod_same ..
  have hro : ∀ k m, ¬ (k = nodeBob ∧ m = net) → nodeGet (rxDrop s nodeBob net) k m = nodeGet s k m := fun k m h => nodeGet_mod_ne _ _ _ _ _ _ h
  have hfr : respond z p st ds = { z with mesh := { z.mesh with nodes := (respond z p st ds).mesh.nodes } } := by
    unfold respond sendPkt; rw [h4]; exact nodeMod_frame _ _ _ _
  refine ⟨?_, ?_, ?_, ?_, ?_, ?_, ?_⟩
  · apply settle_calm
    rw [hfr]
    show z.calm
    rw [hz]; exact hc
  · rw [hfr]; exact hx
  · intro c hcb; rw [hfr]; exact ho c hcb
  · unfold respond sendPkt; rw [h4, nodeGet_nodeMod_same, hzn, hro _ _ (by rintro ⟨_, h⟩; exact h2 h.symm), hrsp]; rfl
  · unfold respond sendPkt; rw [h4, nodeGet_mod_ne _ _ _ _ _ _ (by rintro ⟨_, h⟩; exact h2 h), hzn, hrd]
  · intro k m h
    unfold respond sendPkt; rw [h4, nodeGet_mod_ne _ _ _ _ _ _ (by rintro ⟨h5, h6⟩; exact h ⟨h5, Or.inr h6⟩), hzn, hro _ _ (by rintro ⟨h5, h6⟩; exact h ⟨h5, Or.inl h6⟩)]
  · have h1 : (rxDrop s nodeBob net) = { s with mesh := { s.mesh with nodes := (rxDrop s nodeBob net).mesh.nodes } } := nodeMod_frame _ _ _ _
    rw [h1] at hz
    have : ∀ n : Table NodeQ, ({ z with mesh := { z.mesh with nodes := n } } : State) = { s with bobs := z.bobs, mesh := { s.mesh with nodes := n }, jrn := z.jrn, cnt := z.cnt, sys := { s.sys with event := z.sys.event, eventLate := z.sys.eventLate } } := fun n => by
      conv_lhs => rw [hz]
    have h2 := this (respond z p st ds).mesh.nodes
    rw [← hfr] at h2
    have e1 : (respond z p st ds).bobs = z.bobs := by rw [hfr]
    have e2 : (respond z p st ds).jrn = z.jrn := by rw [hfr]
    have e3 : (respond z p st ds).cnt = z.cnt := by rw [hfr]
    have e4 : (respond z p st ds).sys = z.sys := by rw [hfr]
    rw [e1, e2, e3, e4]; exact h2

theorem rd_facts (s : State) (net : Net) : (∀ b, bobGet (rxDrop s nodeBob net) b = bobGet s b) ∧ (∀ b, bcfg (rxDrop s nodeBob net) b = bcfg s b) ∧
    (rxDrop s nodeBob net).chipnum = s.chipnum ∧ (rxDrop s nodeBob net).doms = s.doms ∧ (rxDrop s nodeBob net).jrn = s.jrn ∧
    (∀ o k, holdsRight (rxDrop s nodeBob net) o k = holdsRight s o k) ∧ (rxDrop s nodeBob net).time = s.time ∧ (rxDrop s nodeBob net).cfg = s.cfg ∧
    jRoom (rxDrop s nodeBob net) = jRoom s ∧ nvOn (rxDrop s nodeBob net) = nvOn s := by
  have h1 : (rxDrop s nodeBob net) = { s with mesh := { s.mesh with nodes := (rxDrop s nodeBob net).mesh.nodes } } := nodeMod_frame _ _ _ _
  generalize rxDrop s nodeBob net = u at h1
  refine ⟨fun b => ?_, fun b => ?_, ?_, ?_, ?_, fun o k => ?_, ?_, ?_, ?_, ?_⟩
  all_goals rw [h1]
  all_goals rfl

theorem bob_take {s g : State} {net : Net} {p : Pkt} {sel : Pkt → Bool} (ha : BobAsks s net p) (hs : sel p = true)
    (hp : bobPerform (rxDrop s nodeBob net) p = some g) : bobTake s net sel = settle g := by
  obtain ⟨h1, h2, h3, h4, -⟩ := ha
  unfold bobTake
  rw [if_neg (by simp [h1]), h3]; dsimp only
  rw [if_neg (by simp [hs]), hp]

theorem bobBad_read {s : State} {p : Pkt} (h1 : byteAddr p.addr < 16384) (h2 : bEnable (bcfg s (bobOf p.addr)) = true) (h : opOf p.cmd = .read 1) : bobBad s p = false := by
  unfold bobBad bobOn; rw [h, h2]; dsimp only; simp; omega

theorem bobBad_write {s : State} {p : Pkt} {u : DataUnit} {w : Nat} (h1 : byteAddr p.addr < 16384) (h2 : bEnable (bcfg s (bobOf p.addr)) = true) (h : opOf p.cmd = .write 1)
    (hd : p.data = [u]) (hw : bobWordIx p.addr 0 = w) (hwr : bobWritable w = true) (h0 : w = 0 → bobData u = 0) : bobBad s p = false := by
  unfold bobBad bobOn; rw [h, h2, hd]; dsimp only
  have h1' : decide (16384 ≤ byteAddr p.addr) = false := decide_eq_false (by omega)
  rw [h1']
  simp only [List.zipIdx_cons, List.zipIdx_nil, List.any_cons, List.any_nil, hw, hwr, Bool.not_true, Bool.false_or, Bool.or_false]
  by_cases hz : w = 0
  · simp [h0 hz]
  · simp [hz]

/-- A one-word write that BOB performs. -/
theorem bob_write {s g : State} {net : Net} {p : Pkt} {sel : Nat → Bool} {w : Nat} {d : Word} {st : Status} (hw : BobWrites s net p w d) (hs : sel w = true)
    (hwr : bobWritable w = true) (h0 : w = 0 → d = 0)
    (hg : bobWriteWord (rxDrop s nodeBob net) (bobOf p.addr) p w d = .st g st) :
    bobTake s net (fun p => bobNames p sel) = settle (respond (if st = .flushed then bump g .sys yBOBFLUSHED else g) p st []) := by
  obtain ⟨ha, hop, hix, u, hd, hbe, hdd⟩ := hw
  obtain ⟨r1, r2, r3, r4, r5, r6, r7, r8, r9, r10⟩ := rd_facts s net
  obtain ⟨h1, h2, h3, h4, h5, h6, h7, h8⟩ := ha
  refine bob_take ⟨h1, h2, h3, h4, h5, h6, h7, h8⟩ ?_ ?_
  · unfold bobNames; rw [hop, hd]; simp [hix, hs]; exact hbe
  · unfold bobPerform; rw [h5]; dsimp only
    rw [hop]; dsimp only
    rw [if_neg (by rw [bobBad_write h6 (by rw [r2]; exact h7) hop hd hix hwr (fun h => by unfold bobData; rw [← hdd]; exact h0 h)]; simp), if_neg (by rw [r6, h8]; simp)]
    rw [hd]
    unfold bobWriteFrom
    rw [if_neg hbe, hix]
    rw [show bobData u = d from hdd.symm, hg]
    cases st <;> simp only [bobWriteFrom] <;> rfl

theorem bellWake_idle {s : State} {b : Nat} (before : Half) (h : bWake (bcfg s b) = false ∨ domOn s (bOwner (bcfg s b)) = true) : bellWake s b before = s := by
  unfold bellWake; dsimp only
  rw [if_neg]
  rcases h with h | h <;> simp [h]

theorem tx_gate {s : State} {net : Net} {p : Pkt} {w : Nat} {d : Word} {y : Bobbin} {st : Status} (hw : w = 0x0F ∨ (0x10 ≤ w ∧ w ≤ 0x17))
    (hl : (!bOverwrite (bcfg s (bobOf p.addr))) = true → bobHolds s (bobOf p.addr) p = true)
    {g : State × Status} (hg : (if w = 0x0F then txStart (rxDrop s nodeBob net) (bobOf p.addr) p.schip p.cid d else txWord (rxDrop s nodeBob net) (bobOf p.addr) p.schip p.cid d) = g) :
    bobWriteWord (rxDrop s nodeBob net) (bobOf p.addr) p w d = .st g.1 g.2 := by
  obtain ⟨r1, r2, r3, r4, r5, r6, r7, r8, r9, r10⟩ := rd_facts s net
  have hn : ¬ (bLocked (bcfg (rxDrop s nodeBob net) (bobOf p.addr)) && !bobHolds (rxDrop s nodeBob net) (bobOf p.addr) p) = true := by
    have : bobHolds (rxDrop s nodeBob net) (bobOf p.addr) p = bobHolds s (bobOf p.addr) p := by unfold bobHolds; rw [r1]
    rw [r2, this]; unfold bLocked
    cases h : (!bOverwrite (bcfg s (bobOf p.addr)))
    · simp
    · rw [hl h]; simp
  have key : (if bLocked (bcfg (rxDrop s nodeBob net) (bobOf p.addr)) && !bobHolds (rxDrop s nodeBob net) (bobOf p.addr) p then bobRefuse (rxDrop s nodeBob net) p
    else
      let r := if w = 0x0F then txStart (rxDrop s nodeBob net) (bobOf p.addr) p.schip p.cid d else txWord (rxDrop s nodeBob net) (bobOf p.addr) p.schip p.cid d
      .st r.1 r.2) = BRes.st g.1 g.2 := by rw [if_neg hn]; dsimp only; rw [hg]
  rw [← key]
  have h7 : w ≠ 0 ∧ w ≠ 1 ∧ w ≠ 2 ∧ w ≠ 3 ∧ w ≠ 5 ∧ w ≠ 6 := by omega
  obtain ⟨a0, a1, a2, a3, a5, a6⟩ := h7
  unfold bobWriteWord; dsimp only
  split <;> first | contradiction | rfl

theorem BobsOnly.trans_jrn {s z g : State} (h : BobsOnly s z) (k : JournalOnly z g) : BobsOnly s g := h.jrn' k

theorem baste_facts {b i : Nat} (h : isBasted b i = true) : bankHas b i = true ∧ b ≠ 0x81 ∧ b ≠ 0x88 ∧ counterAt b i = none := by
  unfold isBasted at h
  simp only [Bool.or_eq_true, Bool.and_eq_true, decide_eq_true_eq] at h
  have hc : counterAt b i = none := by
    unfold counterAt
    rcases h with ⟨h1, h2⟩ | ⟨h1, h2⟩
    · rw [if_pos (by omega), if_neg (by omega)]
    · subst h1; rfl
  refine ⟨?_, by omega, by omega, hc⟩
  unfold bankHas
  rcases h with ⟨h1, h2⟩ | ⟨h1, h2⟩
  · rw [if_pos (by omega)]; simp; omega
  · subst h1; simp; omega

theorem basted_same {s x : State} (hx : Taken s x) (b i : Nat) : bastedAt x b i = bastedAt s b i ∧ bastedOr x b i = bastedOr s b i ∧ setFull x b i = setFull s b i ∧
    (∀ o, ownsSet x o = ownsSet s o) ∧ x.sys.stitch = s.sys.stitch ∧ x.sys.basted = s.sys.basted ∧ x.sys.baster = s.sys.baster := by
  have h1 : x.sys.basted = s.sys.basted := by rw [hx.1]
  have h2 : x.sys.baster = s.sys.baster := by rw [hx.1]
  have h3 : bastedAt x b i = bastedAt s b i := by unfold bastedAt; rw [h1]
  exact ⟨h3, by unfold bastedOr; rw [h3, hx.cfgGet], by unfold setFull; rw [h3, h1], fun o => by unfold ownsSet; rw [h2], by rw [hx.1], h1, h2⟩

theorem find_tput (l : Table Word) (k : Nat) (v : Word) : (tput l k v).find? (fun e => e.1 = k) = some (k, v) := by
  induction l with
  | nil => simp [tput]
  | cons e l ih =>
    obtain ⟨j, w⟩ := e
    unfold tput
    by_cases h1 : k < j
    · rw [if_pos h1]; simp
    · rw [if_neg h1]
      by_cases h2 : k = j
      · rw [if_pos h2]; simp
      · rw [if_neg h2, List.find?_cons_of_neg (by simp; omega), ih]

theorem bastCmd_word (raw : Word) (be : BitVec 4) (h : be.getLsbD 0 = true) (k : BitVec 2) (hk : raw.extractLsb' 0 2 = k) (old : Word) :
    fieldNat (mergeWord [fld 3 .wo none false] old raw be) 0 2 = k.toNat := by
  have hl : ∀ i, i < 2 → (laneMask be).getLsbD i = true := (show ∀ b : BitVec 4, b.getLsbD 0 = true → ∀ i, i < 2 → (laneMask b).getLsbD i = true by decide) be h
  have : (mergeWord [fld 3 .wo none false] old raw be).extractLsb' 0 2 = raw.extractLsb' 0 2 := by
    apply BitVec.eq_of_getLsbD_eq
    intro i hi
    have h7 : (3 : Word).getLsbD i = true := (show ∀ i, i < 2 → (3 : Word).getLsbD i = true by decide) i hi
    have m1 : maskOf [fld 3 .wo none false] (fun f => decide (f.acc = .rw)) = 0 := by decide
    have m2 : maskOf [fld 3 .wo none false] (fun _ => true) = 3 := by decide
    unfold mergeWord
    rw [m1, m2]
    simp [hi, h7, hl i hi]
    exact fun _ => h7
  unfold fieldNat; rw [this, hk]

theorem bastCmd_go {x : State} {o : Origin} {raw : Word} {be : BitVec 4} {req : Option (Pkt × Nat)} {k : BitVec 2} (h : be.getLsbD 0 = true) (hk : raw.extractLsb' 0 2 = k) (h0 : k = 1 ∨ k = 2) :
    writeWord x o (.bank 0x88 0) raw be req = bastingCmd x o k.toNat req := by
  have hf : fieldsOf (.bank 0x88 0) = [fld 3 .wo none false] := rfl
  have hw := bastCmd_word raw be h k hk (wordRead x o (.bank 0x88 0))
  have key : (if reservedCode x (.bank 0x88 0) (wordRead x o (.bank 0x88 0)) (mergeWord (fieldsOf (.bank 0x88 0)) (wordRead x o (.bank 0x88 0)) raw be) then WRes.refused x .decerr
    else match lacks x o (fieldsOf (.bank 0x88 0)) (wordRead x o (.bank 0x88 0)) (mergeWord (fieldsOf (.bank 0x88 0)) (wordRead x o (.bank 0x88 0)) raw be) with
      | some k => .refused (refuse x (refusedCid o) (BitVec.ofNat 4 k)) .rights
      | none => if wordAsleep x (.bank 0x88 0) then .refused x .asleep
        else if fieldNat (mergeWord (fieldsOf (.bank 0x88 0)) (wordRead x o (.bank 0x88 0)) raw be) 0 2 = 0 then .done x
          else bastingCmd x o (fieldNat (mergeWord (fieldsOf (.bank 0x88 0)) (wordRead x o (.bank 0x88 0)) raw be) 0 2) req) = bastingCmd x o k.toNat req := by
    rw [hf, hw, if_neg, lacks_none (fun f hf k hk => by simp [fld] at hf; subst hf; cases hk)]
    · dsimp only
      rw [if_neg (by simp [wordAsleep]), if_neg (by rcases h0 with h0 | h0 <;> (rw [h0]; decide))]
    · show ¬ ((decide ((0 : Nat) = 0) && decide (fieldNat (mergeWord [fld 3 .wo none false] (wordRead x o (.bank 0x88 0)) raw be) 0 2 = 3)) = true)
      rw [hw]; rcases h0 with h0 | h0 <;> (rw [h0]; decide)
  rw [← key]
  rfl

theorem fieldNat_low (raw : Word) (k : BitVec 2) (hk : raw.extractLsb' 0 2 = k) : fieldNat raw 0 2 = k.toNat := by unfold fieldNat; rw [hk]

theorem fold_tset {α β : Type} [DecidableEq β] (d : Nat → β) (key : α → Nat) (val : α → β) (l : List α) (m : Table β) (k : Nat) :
    ((∀ e ∈ l, key e ≠ k) → tget d (l.foldl (fun m e => tset d m (key e) (val e)) m) k = tget d m k) ∧
    ∀ v, (∃ e ∈ l, key e = k) → (∀ e ∈ l, key e = k → val e = v) → tget d (l.foldl (fun m e => tset d m (key e) (val e)) m) k = v := by
  induction l generalizing m with
  | nil => exact ⟨fun _ => rfl, fun v h => by obtain ⟨e, h, _⟩ := h; cases h⟩
  | cons e l ih =>
    obtain ⟨h1, h2⟩ := ih (tset d m (key e) (val e))
    refine ⟨fun h => ?_, fun v h hv => ?_⟩
    · rw [List.foldl_cons, h1 (fun e he => h e (List.mem_cons_of_mem _ he)), tget_tset_ne _ _ _ _ _ (fun hk => h e (List.mem_cons_self ..) hk.symm)]
    · rw [List.foldl_cons]
      by_cases hx : ∃ e ∈ l, key e = k
      · exact h2 v hx (fun e he => hv e (List.mem_cons_of_mem _ he))
      · have he : key e = k := by
          obtain ⟨e', he', hk⟩ := h
          rcases List.mem_cons.mp he' with rfl | h'
          · exact hk
          · exact absurd ⟨e', h', hk⟩ hx
        rw [h1 (fun e he hk => hx ⟨e, he, hk⟩), he, tget_tset_same]
        exact hv e (List.mem_cons_self ..) he

theorem fold_cfgSet {α : Type} (b i : α → Nat) (v : α → Word) (l : List α) (s : State) :
    l.foldl (fun u e => cfgSet u (b e) (i e) (v e)) s = { s with cfg := l.foldl (fun m e => tset cfgReset m (cfgKey (b e) (i e)) (v e)) s.cfg } := by
  induction l generalizing s with
  | nil => rfl
  | cons e l ih => rw [List.foldl_cons, ih]; rfl

theorem cfgKey_divmod (k : Nat) : cfgKey (k / 65536) (k % 65536) = k := by unfold cfgKey; omega

/-- R358 step 2: every entry of a STITCH enters, in order. -/
theorem stitchPump_spec (o : Origin) (req : Option (Pkt × Nat)) (l : List (Nat × Word)) : ∀ (n : Nat) (y : State),
    y.sys.stitch = some { who := o, req := req, left := l, auth := [] } → nvOn y = true → y.jrn.staging.length + l.length ≤ 64 → l.length < n →
    ∃ z, stitchPump n y = stitchApply z { who := o, req := req, left := [], auth := [] } ∧
      JournalOnly (sysMod y (fun q => { q with stitch := some { who := o, req := req, left := [], auth := [] } })) z ∧
      ∃ es, z.jrn.staging = y.jrn.staging ++ es ∧ es.map (fun e => (e.tid, e.value)) = l.map (fun e => (tidBank (e.1 / 65536) (e.1 % 65536), e.2)) ∧
        ∀ e ∈ es, e.okind = originKind o ∧ e.ts = y.time.ts := by
  induction l with
  | nil =>
    intro n y hy hn hl hlt
    obtain ⟨n, rfl⟩ : ∃ m, n = m + 1 := ⟨n - 1, by simp at hlt; omega⟩
    refine ⟨y, ?_, ?_, [], by simp, rfl, by simp⟩
    · unfold stitchPump; rw [hy]; rfl
    · rw [show sysMod y (fun q => { q with stitch := some { who := o, req := req, left := [], auth := [] } }) = y by unfold sysMod; rw [← hy]]
      exact JournalOnly.refl _
  | cons e l ih =>
    intro n y hy hn hl hlt
    obtain ⟨n, rfl⟩ : ∃ m, n = m + 1 := ⟨n - 1, by simp at hlt; omega⟩
    simp only [List.length_cons] at hl hlt
    let u := sysMod y (fun q => { q with stitch := some { who := o, req := req, left := l, auth := [] } })
    let z := jOrigin u o (tidBank (e.1 / 65536) (e.1 % 65536)) e.2
    have hj : JournalOnly u z := jOrigin_shape ..
    obtain ⟨w, w1, w2, w3, w4, w5⟩ := jOrigin_stages (s := u) (o := o) (tidBank (e.1 / 65536) (e.1 % 65536)) e.2 hn
    have hz : z.sys.stitch = some { who := o, req := req, left := l, auth := [] } := by
      obtain ⟨_, _, _, _, h⟩ := hj.open
      show z.sys.stitch = _; rw [h]; rfl
    have hzn : nvOn z = true := by obtain ⟨_, _, _, _, h⟩ := hj.open; rw [h]; exact hn
    have hzt : z.time = y.time := by obtain ⟨_, _, _, _, h⟩ := hj.open; rw [h]; rfl
    have hzl : z.jrn.staging = y.jrn.staging ++ [w] := w1
    obtain ⟨z', h1, h2, es, h3, h4, h5⟩ := ih n z hz hzn (by rw [hzl]; simp; omega) (by omega)
    refine ⟨z', ?_, ?_, w :: es, ?_, ?_, ?_⟩
    · conv_lhs => unfold stitchPump
      rw [hy]
      dsimp only
      rw [if_pos (by unfold jPlace; rw [hn]; simp; omega)]
      exact h1
    · refine JournalOnly.trans ?_ h2
      obtain ⟨_, _, _, _, h⟩ := hj.open
      rw [h]; rfl
    · rw [h3, hzl]; simp
    · rw [List.map_cons, h4, w4, w5]; rfl
    · intro e' he
      rcases List.mem_cons.mp he with rfl | he
      · exact ⟨w3, w2⟩
      · rw [← hzt]; exact h5 e' he

theorem stitchFinish_applied (z : State) (o : Origin) (req : Option (Pkt × Nat)) (l : List (Nat × Word)) (a : List (Byte × Byte)) :
    (∀ p k, req = some (p, k) → k = 0 ∧ p.data.length = 1) →
    stitchFinish z { who := o, req := req, left := l, auth := a } =
      (match req with
      | some (p, _) => respond (sysMod (basteEmpty z) (fun y => { y with stitch := none, result := 0 })) p .ok []
      | none => hostEnd (sysMod (basteEmpty z) (fun y => { y with stitch := none, result := 0 }))) := by
  intro h
  unfold stitchFinish; dsimp only
  cases req with
  | none => rfl
  | some q =>
    obtain ⟨p, k⟩ := q
    obtain ⟨rfl, hk⟩ := h p k rfl
    dsimp only
    unfold writeNext
    rw [if_neg (by rintro ⟨_, h⟩; rw [hk] at h; omega)]

theorem stitchCheck_same {s x : State} (hx : Taken s x) (o : Origin) : stitchCheck x o = stitchCheck s o := by
  obtain ⟨c, h, m, e, l, hx'⟩ : ∃ c h m e l, x = { s with cnt := c, host := h, mesh := m, sys := { s.sys with event := e, eventLate := l } } := ⟨_, _, _, _, _, hx.1⟩
  rw [hx']; rfl

theorem agentAsk_spec {s : State} {dchip : Byte} {dnode : BitVec 7} {op : Op} {addr : BitVec 30} {data : List DataUnit} {use : TagUse}
    (hop : opOf (cmdOf op) = op) (ht : inTable s dchip = true) (hq : s.sys.queued = []) (hf : s.sys.agents.free ≠ []) (hh : hazard s.sys.agents dchip dnode = false)
    (hon : sysOn s = true) : AgentSends s (agentAsk s dchip dnode op addr data use) dchip dnode op addr data use := by
  obtain ⟨tag, rest, hfr⟩ := List.exists_cons_of_ne_nil hf
  unfold agentAsk
  rw [if_pos ht]
  unfold agentSend
  dsimp only
  have e1 : (sysMod s (fun y => { y with queued := y.queued ++ [{ dchip := dchip, dnode := dnode, cmd := cmdOf op, cls := 2, addr := addr, data := data, use := use }] })).sys.queued =
      [{ dchip := dchip, dnode := dnode, cmd := cmdOf op, cls := 2, addr := addr, data := data, use := use }] := by
    show s.sys.queued ++ _ = _; rw [hq]; rfl
  rw [e1]
  show AgentSends s (agentPump 1 _) _ _ _ _ _ _
  unfold agentPump
  rw [e1]
  dsimp only
  rw [show (sysMod s (fun y => { y with queued := y.queued ++ [{ dchip := dchip, dnode := dnode, cmd := cmdOf op, cls := 2, addr := addr, data := data, use := use }] })).sys.agents = s.sys.agents from rfl, hfr]
  dsimp only
  rw [if_neg (by rw [hh]; simp; exact hon)]
  unfold agentPump
  rw [hop]
  refine ⟨tag, rest, hfr, ?_⟩
  dsimp only
  generalize hp : ({ dchip := dchip, dnode := dnode, snode := nodeSys, cmd := cmdOf op, cls := 2, tag := tag, hasAddr := true, addrBad := false,
                     schip := s.chipnum, cid := 0, addr := addr, data := data, formed := true } : Pkt) = p
  have hp' : ({ dchip := dchip, dnode := dnode, snode := nodeSys, cmd := cmdOf op, cls := 2, tag := tag, hasAddr := true, addrBad := false,
                     schip := (sysMod s (fun y => { y with queued := y.queued ++ [{ dchip := dchip, dnode := dnode, cmd := cmdOf op, cls := 2, addr := addr, data := data, use := use }] })).chipnum, cid := 0, addr := addr, data := data, formed := true } : Pkt) = p := hp
  rw [hp']
  unfold sendPkt
  refine ⟨?_, ?_, fun k m h => ?_, ?_⟩
  · rw [nodeMod_frame]; rfl
  · rw [nodeGet_nodeMod_same]; rfl
  · rw [nodeGet_nodeMod_ne _ _ _ _ _ _ h]; rfl
  · rw [nodeMod_frame]
    show _ = ({ s with sys := { s.sys with agents := _ }, mesh := _ } : State)
    have : s.sys = { s.sys with queued := [] } := by rw [← hq]
    conv_rhs => rw [this]
    rfl

theorem fence_word (raw : Word) (be : BitVec 4) (old : Word) : mergeWord [fld 0xFF7F .wo none false] old raw be = raw &&& 0xFF7F &&& laneMask be := by
  unfold mergeWord
  rw [show maskOf [fld 0xFF7F .wo none false] (fun f => decide (f.acc = .rw)) = 0 by decide, show maskOf [fld 0xFF7F .wo none false] (fun _ => true) = 0xFF7F by decide]
  simp

theorem fence_go {x : State} {o : Origin} {raw : Word} {be : BitVec 4} {req : Option (Pkt × Nat)} :
    writeWord x o (.bank 0x88 0x10) raw be req = fenceCmd x (raw &&& 0xFF7F &&& laneMask be) req := by
  have hf : fieldsOf (.bank 0x88 0x10) = [fld 0xFF7F .wo none false] := rfl
  have key : (if reservedCode x (.bank 0x88 0x10) (wordRead x o (.bank 0x88 0x10)) (mergeWord (fieldsOf (.bank 0x88 0x10)) (wordRead x o (.bank 0x88 0x10)) raw be) then WRes.refused x .decerr
    else match lacks x o (fieldsOf (.bank 0x88 0x10)) (wordRead x o (.bank 0x88 0x10)) (mergeWord (fieldsOf (.bank 0x88 0x10)) (wordRead x o (.bank 0x88 0x10)) raw be) with
      | some k => .refused (refuse x (refusedCid o) (BitVec.ofNat 4 k)) .rights
      | none => if wordAsleep x (.bank 0x88 0x10) then .refused x .asleep
        else fenceCmd x (mergeWord (fieldsOf (.bank 0x88 0x10)) (wordRead x o (.bank 0x88 0x10)) raw be) req) = fenceCmd x (raw &&& 0xFF7F &&& laneMask be) req := by
    rw [hf, fence_word, if_neg, lacks_none (fun f hf k hk => by simp [fld] at hf; subst hf; cases hk)]
    · dsimp only
      rw [if_neg (by simp [wordAsleep])]
    · show ¬ ((decide ((0x10 : Nat) = 0) && decide (fieldNat (raw &&& 0xFF7F &&& laneMask be) 0 2 = 3)) = true)
      simp
  rw [← key]
  rfl

theorem dirPut_spec (s : State) (k : BitVec 3) (c : Nat) (w : Word) (hr : hwRoom s = true) :
    (cfgGet s 0x81 c = w → dirPut s k c w = s) ∧
    (cfgGet s 0x81 c ≠ w → JournalOnly (cfgSet s 0x81 c w) (dirPut s k c w) ∧ Enters s (dirPut s k c w) k (tidBank 0x81 c) w) := by
  unfold dirPut
  refine ⟨fun h => by rw [if_pos h], fun h => ?_⟩
  rw [if_neg h]
  exact ⟨jHw_shape .., jHw_enters (s := cfgSet s 0x81 c w) k (tidBank 0x81 c) w false hr⟩

theorem conflict_ne {w : Word} (h : dirConflict w = false) : w ≠ w ||| 0x40000 := by
  intro e
  have : (w ||| 0x40000).getLsbD 18 = true := by rw [BitVec.getLsbD_or]; simp
  rw [← e] at this
  unfold dirConflict at h
  rw [h] at this; cases this

theorem conflict_eq {w : Word} (h : dirConflict w = true) : w = w ||| 0x40000 := by
  unfold dirConflict at h
  apply BitVec.eq_of_getLsbD_eq
  intro i hi
  rw [BitVec.getLsbD_or]
  by_cases h18 : i = 18
  · subst h18; rw [h]; rfl
  · have : (0x40000 : Word).getLsbD i = false := (show ∀ i, i < 32 → i ≠ 18 → (0x40000 : Word).getLsbD i = false by decide) i hi h18
    rw [this, Bool.or_false]

theorem mkDir_valid (c : Byte) (p : Nat) (pin conf : Bool) : dirValid (mkDir c p true pin conf) = true := by
  unfold dirValid mkDir
  simp only [BitVec.getLsbD_append]
  rfl

theorem raiseEvent_on {s : State} (h : sysOn s = true) (k : Nat) (hk : k < 9) : (raiseEvent s k).sys.event.getLsbD k = true := by
  unfold raiseEvent; rw [h]
  show (s.sys.event ||| ((1 : BitVec 9) <<< k)).getLsbD k = true
  rw [BitVec.getLsbD_or]
  have : ((1 : BitVec 9) <<< k).getLsbD k = true := (show ∀ k, k < 9 → ((1 : BitVec 9) <<< k).getLsbD k = true by decide) k hk
  rw [this, Bool.or_true]

theorem JournalOnly.sysOn' {s t : State} (h : JournalOnly s t) : sysOn t = sysOn s := by unfold sysOn domOn domGet; rw [h]

theorem dirPut_cfg (s : State) (k : BitVec 3) (c : Nat) (w : Word) : JournalOnly { s with cfg := (dirPut s k c w).cfg } (dirPut s k c w) ∧
    ∀ q, tget cfgReset (dirPut s k c w).cfg q = if q = cfgKey 0x81 c then w else tget cfgReset s.cfg q := by
  unfold dirPut
  split
  · rename_i h
    refine ⟨JournalOnly.refl _, fun q => ?_⟩
    split
    · rename_i h2; subst h2; exact h
    · rfl
  · have hj := jHw_shape (cfgSet s 0x81 c w) k (tidBank 0x81 c) w false
    have e := hj.cfg
    refine ⟨by rw [e]; exact hj, fun q => ?_⟩
    rw [e]
    split
    · rename_i h2; subst h2; exact tget_tset_same ..
    · rename_i h2; exact tget_tset_ne _ _ _ _ _ h2

theorem dirPuts (k : BitVec 3) (f : Nat → Word) (s : State) (n : Nat) :
    ∀ t, (List.range n).foldl (fun t c => dirPut t k c (f c)) s = t → JournalOnly { s with cfg := t.cfg } t ∧
    ∀ q, tget cfgReset t.cfg q = if ∃ c, c < n ∧ q = cfgKey 0x81 c then f (q - 0x81 * 65536) else tget cfgReset s.cfg q := by
  induction n with
  | zero =>
    rintro t rfl
    exact ⟨JournalOnly.refl _, fun q => by rw [if_neg (by rintro ⟨_, h, _⟩; omega)]; rfl⟩
  | succ n ih =>
    intro t ht
    rw [List.range_succ, List.foldl_append, List.foldl_cons, List.foldl_nil] at ht
    obtain ⟨i1, i2⟩ := ih _ rfl
    generalize (List.range n).foldl (fun t c => dirPut t k c (f c)) s = u at ht i1 i2
    subst ht
    obtain ⟨d1, d2⟩ := dirPut_cfg u k n (f n)
    refine ⟨?_, fun q => ?_⟩
    · refine JournalOnly.trans ?_ d1
      obtain ⟨_, _, _, _, h⟩ := i1.open
      rw [h]; rfl
    · rw [d2, i2]
      by_cases h : q = cfgKey 0x81 n
      · rw [if_pos h, if_pos ⟨n, by omega, h⟩, h, show cfgKey 0x81 n - 0x81 * 65536 = n by unfold cfgKey; omega]
      · rw [if_neg h]
        by_cases h2 : ∃ c, c < n ∧ q = cfgKey 0x81 c
        · obtain ⟨c, h3, h4⟩ := h2
          rw [if_pos ⟨c, h3, h4⟩, if_pos ⟨c, by omega, h4⟩]
        · rw [if_neg h2, if_neg]
          rintro ⟨c, h3, h4⟩
          by_cases hcn : c = n
          · exact h (hcn ▸ h4)
          · exact h2 ⟨c, by omega, h4⟩

theorem authPuts (och oci : Byte) (l : List (Byte × Byte)) (s : State) :
    let t := l.foldl (fun t e => jPut (cfgSet t 0x80 e.1.toNat (e.2.setWidth 32)) kREMOTE och oci (tidBank 0x80 e.1.toNat) (e.2.setWidth 32)) s
    JournalOnly { s with cfg := t.cfg } t ∧ t.cfg = l.foldl (fun m e => tset cfgReset m (cfgKey 0x80 e.1.toNat) (e.2.setWidth 32)) s.cfg ∧
    (nvOn s = true → ∃ es, t.jrn.staging = s.jrn.staging ++ es ∧ es.map (fun x => (x.tid, x.value)) = l.map (fun x => (tidBank 0x80 x.1.toNat, x.2.setWidth 32)) ∧
      ∀ x ∈ es, x.okind = kREMOTE ∧ x.ochip = och ∧ x.ocid = oci) := by
  induction l generalizing s with
  | nil => exact ⟨JournalOnly.refl _, rfl, fun _ => ⟨[], by simp, rfl, by simp⟩⟩
  | cons e l ih =>
    dsimp only at ih ⊢
    rw [List.foldl_cons, List.foldl_cons]
    let u := cfgSet s 0x80 e.1.toNat (e.2.setWidth 32)
    have hj := jPut_shape u kREMOTE och oci (tidBank 0x80 e.1.toNat) (e.2.setWidth 32)
    obtain ⟨i1, i2, i3⟩ := ih (jPut u kREMOTE och oci (tidBank 0x80 e.1.toNat) (e.2.setWidth 32))
    refine ⟨?_, by rw [i2, hj.cfg]; rfl, fun hn => ?_⟩
    · refine JournalOnly.trans ?_ i1
      obtain ⟨_, _, _, _, h⟩ := hj.open
      rw [h]; rfl
    · have hs : (jPut u kREMOTE och oci (tidBank 0x80 e.1.toNat) (e.2.setWidth 32)).jrn.staging = s.jrn.staging ++ [mkEntry u kREMOTE och oci (tidBank 0x80 e.1.toNat) (e.2.setWidth 32) false false] := by
        unfold jPut; rw [if_pos (by exact hn)]; exact (stage_spec _ _).2
      obtain ⟨es, e1, e2, e3⟩ := i3 (by obtain ⟨_, _, _, _, h⟩ := hj.open; rw [h]; exact hn)
      refine ⟨_ :: es, by rw [e1, hs, List.append_assoc]; rfl, by rw [List.map_cons, e2]; rfl, fun x hx => ?_⟩
      rcases List.mem_cons.mp hx with rfl | hx
      · exact ⟨rfl, rfl, rfl⟩
      · exact e3 x hx

theorem portMods (f : Nat → PortSt → PortSt) (s : State) (n : Nat) :
    (∀ m, portGet ((List.range n).foldl (fun t k => portMod t k (f k)) s) m = if m < n then f m (portGet s m) else portGet s m) ∧
    (List.range n).foldl (fun t k => portMod t k (f k)) s = { s with ports := ((List.range n).foldl (fun t k => portMod t k (f k)) s).ports } := by
  induction n with
  | zero => exact ⟨fun m => by simp, rfl⟩
  | succ n ih =>
    rw [List.range_succ, List.foldl_append]
    obtain ⟨i1, i2⟩ := ih
    generalize (List.range n).foldl (fun t k => portMod t k (f k)) s = u at i1 i2
    rw [List.foldl_cons, List.foldl_nil]
    refine ⟨fun m => ?_, ?_⟩
    · show portGet (portSet u n (f n (portGet u n))) m = _
      by_cases hm : m = n
      · subst hm; rw [portGet_portSet_same, i1, if_neg (by omega), if_pos (by omega)]
      · rw [portGet_portSet_ne _ _ _ _ hm, i1]
        by_cases h : m < n
        · rw [if_pos h, if_pos (by omega)]
        · rw [if_neg h, if_neg (by omega)]
    · have : ∀ q : Table PortSt, ({ u with ports := q } : State) = { s with ports := q } := fun q => by rw [i2]
      exact this _

theorem marksCheck_eq (s : State) : marksCheck s =
    (List.range 64).foldl (fun t k => portMod t k (fun p => { p with marks := p.marks.filter (fun e => dirNames (cfgGet s 0x81 e.1) s.chipnum k) })) s := by
  unfold marksCheck
  generalize List.range 64 = l
  rfl

theorem rights_tget (s : State) (c : Byte) : rights s c = (tget cfgReset s.cfg (cfgKey 0x80 c.toNat)).extractLsb' 0 8 := rfl

theorem low8 (b : Byte) : (b.setWidth 32 : Word).extractLsb' 0 8 = b := by
  apply BitVec.eq_of_getLsbD_eq
  intro i hi; simp [hi]; omega

theorem ringctl_merge (raw : Word) (be : BitVec 4) (h : be.getLsbD 0 = true) (old : Word) :
    ∀ k, k < 4 → (mergeWord [fRW 5 rMAP, fld 0xA .w1 (some rRESET) true] old raw be).getLsbD k = raw.getLsbD k := by
  intro k hk
  have hm : maskOf [fRW 5 rMAP, fld 0xA .w1 (some rRESET) true] (fun f => decide (f.acc = .rw)) = 5 := by decide
  have hm2 : maskOf [fRW 5 rMAP, fld 0xA .w1 (some rRESET) true] (fun _ => true) = 0xF := by decide
  unfold mergeWord
  rw [hm, hm2]
  have hl : ∀ b : BitVec 4, b.getLsbD 0 = true → ∀ k, k < 4 → (laneMask b).getLsbD k = true := by decide
  simp only [BitVec.getLsbD_or, BitVec.getLsbD_and, BitVec.getLsbD_not, hl be h k hk]
  have : ∀ k, k < 4 → (0xF : Word).getLsbD k = true := by decide
  rw [this k hk]; simp

/-- R204: a write of RINGCTL that sets LEAVE or REFORM, up to what those do. -/
theorem ringctl_row {s : State} {by_ : By} {raw : Word} {be : BitVec 4} {sel : Origin → Wd → Word → Bool} {P : State → Prop} {r : RingSt}
    (hn : nvOn s = true) (hr : jRoom s = true) (hw : Writes s 0x2A (.reg 0x2A) raw be by_) (hsel : sel (askOrigin s by_) (.reg 0x2A) raw = true)
    (hM : holdsRight s (askOrigin s by_) rMAP = true) (hR : holdsRight s (askOrigin s by_) rRESET = true) (hbe : be.getLsbD 0 = true)
    (hset : raw.getLsbD 1 = true ∨ raw.getLsbD 3 = true)
    (hrr : r = { s.ring with joinEn := raw.getLsbD 0, slotEn := raw.getLsbD 2, leaveBit := s.ring.leaveBit || raw.getLsbD 1,
                             reform := s.ring.reform || raw.getLsbD 3 })
    (hE : ∀ x g1 v, Taken s x → v.getLsbD 0 = raw.getLsbD 0 → v.getLsbD 1 = raw.getLsbD 1 → v.getLsbD 3 = raw.getLsbD 3 →
      JournalOnly (overlay x { s with ring := r }) g1 → g1.jrn.staging.length = s.jrn.staging.length + 1 →
      Staged s (originKind (askOrigin s by_)) (tidHost 0x2A) ((ringctlWord { s with ring := r }).setWidth 32) g1.jrn →
      (ringctlAfter g1 v).host = x.host ∧ (ringctlAfter g1 v).mesh = x.mesh ∧ P (ringctlAfter g1 v))
    (hP : ∀ g h m, P g → P { g with host := h, mesh := m }) (hc : ∀ g, P g → g.calm) (hon : ∀ g, P g → sysOn s = true → sysOn g = true) :
    ∃ t, byWrite s 0x2A sel by_ = t ∧ AccessEnds s t 0x2A by_ ∧ P t := by
  have hfs : fieldsOf (.reg 0x2A) = [fRW 5 rMAP, fld 0xA .w1 (some rRESET) true] := rfl
  have hmv := ringctl_merge raw be hbe ((ringctlWord s).setWidth 32)
  generalize hv : mergeWord [fRW 5 rMAP, fld 0xA .w1 (some rRESET) true] ((ringctlWord s).setWidth 32) raw be = v at hmv
  have v0 := hmv 0 (by decide)
  have v1 := hmv 1 (by decide)
  have v2 := hmv 2 (by decide)
  have v3 := hmv 3 (by decide)
  have hx4 : ∀ k, k < 16 → (v.extractLsb' 0 16).getLsbD k = v.getLsbD k := by
    intro k hk; rw [BitVec.getLsbD_extractLsb']; simp [hk]
  have htake : takes (fld 0xA .w1 (some rRESET) true) ((ringctlWord s).setWidth 32) v = true := by
    show decide (v &&& 0xA ≠ 0) = true
    refine decide_eq_true fun h => ?_
    rcases hset with hs | hs
    · have := congrArg (fun (w : Word) => w.getLsbD 1) h
      rw [BitVec.getLsbD_and, v1, hs] at this
      exact absurd this (by decide)
    · have := congrArg (fun (w : Word) => w.getLsbD 3) h
      rw [BitVec.getLsbD_and, v3, hs] at this
      exact absurd this (by decide)
  refine word_rowP (old := (ringctlWord s).setWidth 32) (v := v) (j := true)
    hw hsel ⟨rfl, by simp⟩ rfl rfl (by rw [hfs]; exact hv)
    (fun x hx => by show ((ringctlWord x).setWidth 32 : Word) = _; unfold ringctlWord; rw [hx.ring])
    (fun x hx => rfl)
    (by intro f hf k hk; rw [hfs] at hf
        simp only [List.mem_cons, List.not_mem_nil, or_false] at hf
        rcases hf with rfl | rfl
        · cases hk; exact hM
        · cases hk; exact hR)
    (fun x hx => rfl)
    (fun x hx => by
      rw [hfs]; unfold journals
      rw [List.any_eq_true]
      exact ⟨_, List.mem_cons_of_mem _ List.mem_cons_self, htake⟩)
    (Or.inr rfl) (fun _ => hr)
    (fun x hx => wordGo_done (by simp) (by simp) (fun _ => by rw [hx.jRoom]; exact hr))
    (fun x g hx hg => ?_) hP hc hon
  have ex := hx.eq
  have hap : wordApply x (askOrigin s by_) (.reg 0x2A) ((ringctlWord s).setWidth 32) v true =
      ringctlAfter (jOrigin (overlay x { s with ring := r }) (askOrigin s by_) (tidHost 0x2A) ((ringctlWord { s with ring := r }).setWidth 32)) v := by
    have e1 : regPut x (askOrigin s by_) 0x2A v = overlay x { s with ring := r } := by
      show ({ x with ring := _ } : State) = _
      have hb0 : (v.extractLsb' 0 16).getLsbD 0 = raw.getLsbD 0 := by rw [hx4 _ (by decide)]; exact v0
      have hb1 : (v.extractLsb' 0 16).getLsbD 1 = raw.getLsbD 1 := by rw [hx4 _ (by decide)]; exact v1
      have hb2 : (v.extractLsb' 0 16).getLsbD 2 = raw.getLsbD 2 := by rw [hx4 _ (by decide)]; exact v2
      have hb3 : (v.extractLsb' 0 16).getLsbD 3 = raw.getLsbD 3 := by rw [hx4 _ (by decide)]; exact v3
      rw [hb0, hb1, hb2, hb3, hx.ring, hrr]
      conv_lhs => rw [ex]
      rfl
    show ringctlAfter (jOrigin (regPut x (askOrigin s by_) 0x2A v) (askOrigin s by_) (tidHost 0x2A) ((ringctlWord (regPut x (askOrigin s by_) 0x2A v)).setWidth 32)) v = _
    rw [e1]; rfl
  obtain ⟨j1, j2⟩ := entry_row (x := x) (by_ := by_) (e := { s with ring := r }) hn (tidHost 0x2A) ((ringctlWord { s with ring := r }).setWidth 32) rfl rfl rfl rfl
  rw [hap] at hg
  generalize jOrigin (overlay x { s with ring := r }) (askOrigin s by_) (tidHost 0x2A) ((ringctlWord { s with ring := r }).setWidth 32) = g1 at j1 j2 hg
  rw [← hg]
  refine hE x g1 v hx v0 v1 v3 j1 ?_ j2
  obtain ⟨e, h, -⟩ := j2
  rw [h]; simp

theorem gwTx_gwTx (t : State) (g : Ring) (l m : List (BitVec 17)) : gwTx (gwTx t g l) g m = gwTx t g (l ++ m) := by
  cases g <;> (unfold gwTx gateMod; dsimp only; rw [List.append_assoc])

theorem four_aborts {t : State} (h : canDrive t = true) (g : Ring) :
    gateMod (gwRing (gwRing (gwRing (gwRing t g msgABORT 0) g msgABORT 0) g msgABORT 0) g msgABORT 0) g (fun y => { y with abortSeen := 0 }) =
    gateMod t g (fun y => { y with abortSeen := 0, tx := y.tx ++ List.replicate 4 (ctlTransfer 3 0xF 0) }) := by
  have r : ∀ l, gwRing (gwTx t g l) g msgABORT 0 = gwTx t g (l ++ [ctlTransfer 3 msgABORT 0]) := fun l => by
    rw [gwRing_drive (by rw [gwTx_canDrive]; exact h), gwTx_gwTx]
  rw [gwRing_drive h g msgABORT 0, r, r, r]
  cases g <;> rfl

theorem gateMod_canDrive (t : State) (g : Ring) (f : Gate → Gate) : canDrive (gateMod t g f) = canDrive t := by cases g <;> rfl

theorem reform_still {u : State} (hd : canDrive u = true) (h : u.ringStill) :
    (∃ a b : Gate, a.tx = u.ring.gateA.tx ++ List.replicate 4 (ctlTransfer 3 0xF 0) ∧ b.tx = u.ring.gateB.tx ++ List.replicate 4 (ctlTransfer 3 0xF 0) ∧
      reform u = { u with ring := { u.ring with op := .reform, resync := false, stopped := true, rolls := [], tables := [], granted := false, rollTurn := false,
                                                dupFound := false, gateA := a, gateB := b } }) ∧ gatesEmpty (reform u) := by
  unfold reform
  have hs : sendAborts u = { u with ring := { u.ring with op := .reform, gateA := { u.ring.gateA with abortSeen := 0, tx := u.ring.gateA.tx ++ List.replicate 4 (ctlTransfer 3 0xF 0) }, gateB := { u.ring.gateB with abortSeen := 0, tx := u.ring.gateB.tx ++ List.replicate 4 (ctlTransfer 3 0xF 0) } } } := by
    unfold sendAborts
    dsimp only
    rw [four_aborts hd .a]
    rw [four_aborts (by rw [gateMod_canDrive]; exact hd) .b]
    rfl
  rw [hs]
  generalize hs' : ({ u with ring := { u.ring with op := .reform, gateA := { u.ring.gateA with abortSeen := 0, tx := u.ring.gateA.tx ++ List.replicate 4 (ctlTransfer 3 0xF 0) }, gateB := { u.ring.gateB with abortSeen := 0, tx := u.ring.gateB.tx ++ List.replicate 4 (ctlTransfer 3 0xF 0) } } } : State) = x
  have hx : gatesEmpty x := by
    subst hs'
    exact gatesEmpty_ring (s := u) ⟨rfl, rfl, rfl, rfl⟩ h.2.2.2.2.2.2
  unfold abortClear
  obtain ⟨g1, e1⟩ := gateAbort_still hx .a
  obtain ⟨g2, e2⟩ := gateAbort_still e1 .b
  have g3 := g1.trans g2
  generalize gateAbort (gateAbort x .a) .b = y at g3 e2
  refine ⟨?_, gatesEmpty_ring (s := y) ⟨rfl, rfl, rfl, rfl⟩ e2⟩
  obtain ⟨a, b, ha, hb, hy⟩ := g3
  subst hs'
  refine ⟨a, b, ha, hb, ?_⟩
  rw [hy]
  rfl

theorem reform_st {u : State} (hd : canDrive u = true) (h : u.ringStill) : (reform u).ring.st = u.ring.st := by
  obtain ⟨⟨a, b, _, _, hy⟩, _⟩ := reform_still hd h
  rw [hy]

theorem ringStop_keepStill {g z : State} (hr : z.ring.gateA = g.ring.gateA ∧ z.ring.gateB = g.ring.gateB)
    (h : RecordsOnly { g with ring := z.ring } z) (hs : g.ringStill) : z.ringStill := by
  unfold RecordsOnly at h
  refine still_congr hs ?_ ?_ ?_ ?_ ?_ ?_ (gatesEmpty_ring (s := g) (by rw [hr.1, hr.2]; exact ⟨rfl, rfl, rfl, rfl⟩) hs.2.2.2.2.2.2)
  · intro n; unfold portGet; rw [h]
  · rw [h]
  · rw [h]
  · rw [h]
  · rw [h]
  · intro b; unfold bobGet; rw [h]

theorem locksFree_spec (s : State) (pick : Lock → Bool) :
    (∀ b, b < 64 → bobGet (locksFree s pick) b =
        let x := bobGet s b
        if x.lock.any pick then
          (if bOverwrite (bcfg s b) = false ∧ x.asm ≠ none then { x with lock := none, asm := none, coll := true } else { x with lock := none })
        else x) ∧
    (∀ b, 64 ≤ b → bobGet (locksFree s pick) b = bobGet s b) ∧ locksFree s pick = { s with bobs := (locksFree s pick).bobs } := by
  unfold locksFree
  have key : ∀ n (t : State), t = (List.range n).foldl (fun t b => match (bobGet t b).lock with | some l => if pick l then lockFree t b else t | none => t) s →
      (∀ b, b < n → bobGet t b =
        let x := bobGet s b
        if x.lock.any pick then
          (if bOverwrite (bcfg s b) = false ∧ x.asm ≠ none then { x with lock := none, asm := none, coll := true } else { x with lock := none })
        else x) ∧ (∀ b, n ≤ b → bobGet t b = bobGet s b) ∧ t = { s with bobs := t.bobs } := by
    intro n
    induction n with
    | zero => intro t h; subst h; exact ⟨fun b hb => by omega, fun _ _ => rfl, rfl⟩
    | succ n ih =>
      intro t h
      rw [List.range_succ, List.foldl_append] at h
      generalize hu : (List.range n).foldl (fun t b => match (bobGet t b).lock with | some l => if pick l then lockFree t b else t | none => t) s = u at h
      obtain ⟨i1, i2, i3⟩ := ih u hu.symm
      have hx := i2 n (Nat.le_refl n)
      have hcfg : bcfg u n = bcfg s n := by unfold bcfg cfgGet; rw [i3]
      simp only [List.foldl_cons, List.foldl_nil] at h
      rw [hx] at h
      cases hl : (bobGet s n).lock with
      | none =>
        rw [hl] at h; dsimp only at h; subst h
        refine ⟨fun b hb => ?_, fun b hb => i2 b (by omega), i3⟩
        by_cases e : b = n
        · subst e; rw [hx]; simp [hl]
        · exact i1 b (by omega)
      | some l =>
        rw [hl] at h; dsimp only at h
        by_cases hp : pick l = true
        · rw [if_pos hp] at h
          have h2 : t = bobMod u n (fun _ => if bOverwrite (bcfg s n) = false ∧ (bobGet s n).asm ≠ none then { bobGet s n with lock := none, asm := none, coll := true } else { bobGet s n with lock := none }) := by
            rw [h]; unfold lockFree bobMod; dsimp only
            rw [hcfg, hx, if_neg (by rw [hl]; simp)]
            unfold bLocked
            cases bOverwrite (bcfg s n) <;> cases (bobGet s n).asm <;> simp
          subst h2
          refine ⟨fun b hb => ?_, fun b hb => ?_, ?_⟩
          · by_cases e : b = n
            · subst e; rw [bobGet_bobMod_same]; simp [hl, hp]
            · rw [bobGet_bobMod_ne _ _ _ _ e]; exact i1 b (by omega)
          · rw [bobGet_bobMod_ne _ _ _ _ (by omega)]; exact i2 b (by omega)
          · show ({ u with bobs := _ } : State) = _
            rw [i3]; rfl
        · rw [if_neg hp] at h; subst h
          refine ⟨fun b hb => ?_, fun b hb => i2 b (by omega), i3⟩
          by_cases e : b = n
          · subst e; rw [hx]; simp [hl, hp]
          · exact i1 b (by omega)
  exact key 64 _ rfl

theorem foldl_fixed {α β : Type} {f : α → β → α} (l : List β) (a : α) (h : ∀ b ∈ l, f a b = a) : l.foldl f a = a := by
  induction l with
  | nil => rfl
  | cons b t ih => rw [List.foldl_cons, h b List.mem_cons_self]; exact ih fun c hc => h c (List.mem_cons_of_mem _ hc)

theorem votesDrop_none {s : State} {pick : Nat → Bool} (h : ∀ d, d < 64 → ∀ v ∈ (domGet s d).votes, pick v = false) : votesDrop s pick = s := by
  unfold votesDrop
  refine foldl_fixed _ _ fun d hd => ?_
  have : (domGet s d).votes.filter pick = [] := by
    rw [List.filter_eq_nil_iff]
    intro v hv
    rw [h d (List.mem_range.mp hd) v hv]; simp
  rw [this]; rfl

theorem reset_word {s x : State} {o : Origin} {raw : Word} {be : BitVec 4} (req : Option (Pkt × Nat)) (hx : Taken s x) (hr : jRoom s = true)
    (hR : holdsRight s o rRESET = true) (h0 : be.getLsbD 0 = true) (h1 : be.getLsbD 1 = true) (hk : raw.extractLsb' 0 16 = 0xC1EA) (hwt : resetWaits s o = false) :
    writeWord x o (.reg 6) raw be req = .done (resetStart (jOrigin x o (tidHost 6) 0xC1EA) o) := by
  have hfs : fieldsOf (.reg 6) = [fld 0xFFFF .wo (some rRESET) true] := rfl
  have hm : maskOf [fld 0xFFFF .wo (some rRESET) true] (fun f => decide (f.acc = .rw)) = 0 := by decide
  have hm2 : maskOf [fld 0xFFFF .wo (some rRESET) true] (fun _ => true) = 0xFFFF := by decide
  have hv : mergeWord [fld 0xFFFF .wo (some rRESET) true] (wordRead x o (.reg 6)) raw be = 0xC1EA := by
    unfold mergeWord; rw [hm, hm2]
    have hl : (0xFFFF : Word) &&& laneMask be = 0xFFFF := (show ∀ b : BitVec 4, b.getLsbD 0 = true → b.getLsbD 1 = true → (0xFFFF : Word) &&& laneMask b = 0xFFFF by decide) be h0 h1
    rw [BitVec.and_assoc raw, hl]
    have : raw &&& 0xFFFF = (raw.extractLsb' 0 16).setWidth 32 := by
      apply BitVec.eq_of_getLsbD_eq
      intro i hi
      rw [BitVec.getLsbD_and, BitVec.getLsbD_setWidth, BitVec.getLsbD_extractLsb']
      have : ∀ i, i < 32 → (0xFFFF : Word).getLsbD i = decide (i < 16) := by decide
      rw [this i hi]; simp [hi, Bool.and_comm]
    rw [this, hk]; simp
  have hwt' : resetWaits x o = false := by
    unfold resetWaits scopeOf at hwt ⊢
    rw [hx.eq]; exact hwt
  rw [writeWord_go (old := wordRead x o (.reg 6)) (v := 0xC1EA) (j := true) rfl rfl rfl hv ?_ ?_ rfl ?_ (Or.inr rfl)]
  · unfold wordGo
    rw [if_neg (by simp), if_neg (by simp [hwt']), if_neg (by rw [hx.jRoom, hr]; simp)]
    rfl
  · rfl
  · refine lacks_none fun f hf k hk => ?_
    rw [hfs] at hf; simp [fld] at hf; subst hf; simp at hk; subst hk; rw [hx.holdsRight]; exact hR
  · rw [hfs]; rfl

/-- R427, R430 to R435: SYS takes the write of the key and the reset starts. -/
theorem reset_row {s : State} {by_ : By} {raw : Word} {be : BitVec 4} {scope : Nat} (hc : s.calm) (hr : jRoom s = true) (hw : Writes s 6 (.reg 6) raw be by_)
    (hR : holdsRight s (askOrigin s by_) rRESET = true) (h0 : be.getLsbD 0 = true) (h1 : be.getLsbD 1 = true) (hk : raw.extractLsb' 0 16 = 0xC1EA)
    (hs : (scopeOf s (askOrigin s by_)).toNat % 4 = scope) (hwt : resetWaits s (askOrigin s by_) = false) :
    ∃ x y, Taken s x ∧ Taking s x 6 by_ ∧ (match by_ with
      | .host _ => y = hostEnd (resetStart (jOrigin x (askOrigin s by_) (tidHost 6) 0xC1EA) (askOrigin s by_))
      | .fabric _ => sysOn (resetStart (jOrigin x (askOrigin s by_) (tidHost 6) 0xC1EA) (askOrigin s by_)) = false →
          y = resetStart (jOrigin x (askOrigin s by_) (tidHost 6) 0xC1EA) (askOrigin s by_)) ∧ resetRow s scope by_ = settle y := by
  cases by_ with
  | host hd =>
    obtain ⟨hwt0, hgate, hn, rfl⟩ := hw
    have hraw : raw = hd.setWidth 32 := by
      have : some (Wd.reg 6, (hd.setWidth 32 : Word)) = some (.reg 6, raw) := hn
      simp only [Option.some.injEq, Prod.mk.injEq, true_and] at this
      exact this.symm
    have hc1 := bump_shape s .sys yHOSTACC
    have ht : Taken s (hostMod (bump s .sys yHOSTACC) (fun y => { y with waitLow := true })) := by
      obtain ⟨_, _, _, e⟩ := hc1.open
      have hl := And.intro (low_bump s yHOSTACC) (values_bump s .sys yHOSTACC)
      rw [e] at hl ⊢; exact ⟨rfl, rfl, rfl, hl.1, hl.2, fun _ _ _ => rfl⟩
    have hh : (hostMod (bump s .sys yHOSTACC) (fun y => { y with waitLow := true })).host = { s.host with waitLow := true } := by
      show ({ (bump s .sys yHOSTACC).host with waitLow := true } : HostIf) = _
      rw [hc1.host]
    refine ⟨_, _, ht, ⟨⟨?_, hh⟩, ?_⟩, rfl, ?_⟩
    · show (bump s .sys yHOSTACC).mesh = _; rw [hc1.mesh]
    · obtain ⟨_, _, _, e⟩ := hc1.open
      rw [e]; rfl
    · unfold resetRow
      refine regWrite_done (g := resetStart _ _) hwt0 hgate hn ?_ (fun _ _ _ => rfl) hraw (reset_word none ht hr hR h0 h1 hk hwt)
      simp only [decide_true, Bool.true_and, Bool.and_eq_true, decide_eq_true_eq]
      exact ⟨hk, hs⟩
  | fabric net =>
    obtain ⟨hnet, hon0, p, v, hrx, hdn, hck, hop, hd, rfl, rfl, hbe, hf⟩ := hw
    have ho : askOrigin s (.fabric net) = fabOrigin p := by show (match rxHead s nodeSys net with | some p => fabOrigin p | none => Origin.host) = _; rw [hrx]
    rw [ho] at hR hs hwt ⊢
    have hc1 := bump_shape (rxDrop s nodeSys net) .sys yFABACC
    have ht : Taken s (bump (rxDrop s nodeSys net) .sys yFABACC) := by
      have hl : lowSame s (bump (rxDrop s nodeSys net) .sys yFABACC) := lowSame.trans (b := rxDrop s nodeSys net) (fun g _ => ⟨rfl, rfl⟩) (low_bump _ _)
      have hl := And.intro hl (values_bump (rxDrop s nodeSys net) .sys yFABACC)
      obtain ⟨_, _, _, e⟩ := hc1.open
      refine ⟨?_, ?_, ?_, hl.1, hl.2, ?_⟩
      · rw [e]; rfl
      · rw [e]; rfl
      · rw [e]; rfl
      · intro k m hk
        rw [e]; show nodeGet (rxDrop s nodeSys net) k m = _
        exact nodeGet_nodeMod_ne s nodeSys k net m _ (fun h => hk h.1)
    generalize hx : bump (rxDrop s nodeSys net) .sys yFABACC = x at ht hc1
    have hww := reset_word (raw := v.data) (be := v.be) (some (p, 0)) ht hr hR h0 h1 hk hwt
    refine ⟨x, sysTake s net (fun p => fabNames p (fun o wd v => decide (wd = .reg 6) && decide (v.extractLsb' 0 16 = 0xC1EA) && decide ((scopeOf s o).toNat % 4 = scope))), ht, ⟨⟨?_, ?_⟩, ?_⟩, fun hoff => ?_, rfl⟩
    · exact hc1.mesh
    · show x.host = s.host; rw [hc1.host]; rfl
    · obtain ⟨_, _, _, e⟩ := hc1.open
      rw [e]; rfl
    · have hsel : (fun (o : Origin) (wd : Wd) (v : Word) => decide (wd = .reg 6) && decide (v.extractLsb' 0 16 = 0xC1EA) && decide ((scopeOf s o).toNat % 4 = scope)) (fabOrigin p) (.reg 6) v.data = true := by
        simp only [decide_true, Bool.true_and, Bool.and_eq_true, decide_eq_true_eq]
        exact ⟨hk, hs⟩
      generalize (fun (o : Origin) (wd : Wd) (v : Word) => decide (wd = .reg 6) && decide (v.extractLsb' 0 16 = 0xC1EA) && decide ((scopeOf s o).toNat % 4 = scope)) = sel at hsel
      have hn : fabNames p sel = true := by
        unfold fabNames; rw [hop]
        rw [hd]; simp [hf, hsel]
      have hb : sysWriteBad p = false := by
        unfold sysWriteBad; rw [hd]
        simp only [List.zipIdx_cons, List.zipIdx_nil, List.any_cons, List.any_nil, Bool.or_false, Nat.mul_zero, Nat.add_zero]
        rw [hf]; simp
      unfold sysTake
      rw [if_neg (by simp [hon0]), hrx]
      dsimp only
      rw [if_pos hn]
      unfold sysPerform
      rw [hck]
      dsimp only
      rw [hop]
      dsimp only
      rw [hb, hd]
      simp only [Bool.false_eq_true, if_false]
      unfold sysWriteFrom
      rw [Nat.mul_zero, Nat.add_zero, hf]
      dsimp only
      rw [if_neg hbe, hx, hww]
      dsimp only
      rw [if_neg (fun h => Bool.false_ne_true (hoff.symm.trans h))]

theorem startsUp_settled {a u t : State} {c : BitVec 4} (ha : a.sys.held = []) (hr : Returned a u true true true true) (hs : StartsUp u t c) :
    settle t = t ∧ hostEnd t = t ∧ sysOn t = false := by
  obtain ⟨v, ⟨hcd, hcv⟩, hvp, hst⟩ := hs
  have hu := hr.2
  have hh : hostHeld a = [] := by unfold hostHeld; rw [ha]; rfl
  have m1 : (∃ l, t.power.mode = .ladder l 0) ∧ t.power.moving = none := by
    rw [hst]; dsimp only
    have hm : u.power.moving = none := by rw [hu]; rfl
    by_cases hu' : u.power.hush = true
    · rw [if_pos hu']; exact ⟨⟨_, rfl⟩, hm⟩
    · rw [if_neg hu']; exact ⟨⟨_, rfl⟩, hm⟩
  have m2 : t.time.patrol = none := by rw [hst]; show u.time.patrol = none; rw [hu]; rfl
  have hsy : t.sys = u.sys := by rw [hst, hcv]
  have m3 : t.sys.portRst = none := by rw [hsy, hu]; rfl
  have m4 : t.sys.held = [] := by rw [hsy, hu]; exact hh
  have hho : t.host.waitLow = false := by rw [hst, hcv]; show u.host.waitLow = false; rw [hu]; show (!(hostHeld a).isEmpty) = false; rw [hh]; rfl
  refine ⟨settle_still m1.2 m2 m3 m4 ?_, ?_, ?_⟩
  · unfold powerEval; dsimp only
    split
    · rfl
    · obtain ⟨l, hl⟩ := m1.1
      rw [hl]
  · show ({ t with host := { t.host with waitLow := false } } : State) = t
    rw [← hho]
  · have : domGet t 66 = { domGet u 66 with st := .off } := by
      rw [show domGet t 66 = domGet v 66 by rw [hst]; rfl, hcd 66, if_pos (by decide)]
    unfold sysOn domOn; rw [this]; rfl

theorem agentsDrop_spec (s : State) : (∀ k net, nodeGet (agentsDrop s) k net = if k = nodeSys ∨ k = nodeBob ∨ k = nodeCol then
      { nodeGet s k net with out := restOnly (nodeGet s k net).out, part := [], rx := [] } else nodeGet s k net) ∧
    agentsDrop s = { s with mesh := { s.mesh with nodes := (agentsDrop s).mesh.nodes } } := by
  have shape : ∀ u, u = { s with mesh := { s.mesh with nodes := u.mesh.nodes } } → ∀ n net f, nodeMod u n net f = { s with mesh := { s.mesh with nodes := (nodeMod u n net f).mesh.nodes } } := by
    intro u hu n net f
    show ({ u with mesh := { u.mesh with nodes := _ } } : State) = _
    rw [hu]; rfl
  have shp : agentsDrop s = { s with mesh := { s.mesh with nodes := (agentsDrop s).mesh.nodes } } := by
    have key : ∀ l : List (BitVec 7), ∀ u : State, u = { s with mesh := { s.mesh with nodes := u.mesh.nodes } } →
        ∀ t, t = l.foldl (fun t node => [Net.req, .dat, .rsp, .snp].foldl (fun u net => nodeMod u node net (fun q => { q with out := restOnly q.out, part := [], rx := [] })) t) u →
          t = { s with mesh := { s.mesh with nodes := t.mesh.nodes } } := by
      intro l
      induction l with
      | nil => intro u hu t ht; subst ht; exact hu
      | cons n l ih =>
        intro u hu t ht
        refine ih _ ?_ t ht
        simp only [List.foldl_cons, List.foldl_nil]
        exact shape _ (shape _ (shape _ (shape _ hu _ _ _) _ _ _) _ _ _) _ _ _
    exact key _ s rfl _ rfl
  refine ⟨fun k net => ?_, shp⟩
  have one : ∀ (u : State) (n k : BitVec 7) (net : Net), nodeGet ([Net.req, .dat, .rsp, .snp].foldl (fun u net => nodeMod u n net (fun q => { q with out := restOnly q.out, part := [], rx := [] })) u) k net =
      if k = n then { nodeGet u k net with out := restOnly (nodeGet u k net).out, part := [], rx := [] } else nodeGet u k net := by
    intro u n k net
    simp only [List.foldl_cons, List.foldl_nil]
    by_cases h : k = n
    · subst h
      rw [if_pos rfl]
      cases net
      all_goals
        first
        | (rw [nodeGet_nodeMod_ne _ _ _ _ _ _ (by simp), nodeGet_nodeMod_ne _ _ _ _ _ _ (by simp), nodeGet_nodeMod_ne _ _ _ _ _ _ (by simp), nodeGet_nodeMod_same]; done)
        | (rw [nodeGet_nodeMod_ne _ _ _ _ _ _ (by simp), nodeGet_nodeMod_ne _ _ _ _ _ _ (by simp), nodeGet_nodeMod_same, nodeGet_nodeMod_ne _ _ _ _ _ _ (by simp)]; done)
        | (rw [nodeGet_nodeMod_ne _ _ _ _ _ _ (by simp), nodeGet_nodeMod_same, nodeGet_nodeMod_ne _ _ _ _ _ _ (by simp), nodeGet_nodeMod_ne _ _ _ _ _ _ (by simp)]; done)
        | (rw [nodeGet_nodeMod_same, nodeGet_nodeMod_ne _ _ _ _ _ _ (by simp), nodeGet_nodeMod_ne _ _ _ _ _ _ (by simp), nodeGet_nodeMod_ne _ _ _ _ _ _ (by simp)]; done)
    · rw [if_neg h]
      iterate 4 rw [nodeGet_nodeMod_ne _ _ _ _ _ _ (fun e => h e.1)]
  unfold agentsDrop
  rw [List.foldl_cons, List.foldl_cons, List.foldl_cons, List.foldl_nil, one, one, one]
  have hd : nodeSys ≠ nodeBob ∧ nodeSys ≠ nodeCol ∧ nodeBob ≠ nodeCol := by decide
  by_cases h1 : k = nodeCol
  · subst h1
    rw [if_pos rfl, if_neg (fun h => hd.2.2 h.symm), if_neg (fun h => hd.2.1 h.symm), if_pos (Or.inr (Or.inr rfl))]
  · rw [if_neg h1]
    by_cases h2 : k = nodeBob
    · subst h2
      rw [if_pos rfl, if_neg (fun h => hd.1 h.symm), if_pos (Or.inr (Or.inl rfl))]
    · rw [if_neg h2]
      by_cases h3 : k = nodeSys
      · rw [if_pos h3, if_pos (Or.inl h3)]
      · rw [if_neg h3, if_neg (by simp [h1, h2, h3])]

theorem low_stage (s : State) (e : Entry) : lowSame s (stage s e) := by
  unfold stage; dsimp only
  split
  · exact lowSame.trans (lowSame.trans (b := jrnMod s _) (fun g _ => ⟨rfl, rfl⟩) (low_bump _ _)) (low_bump _ _)
  · exact lowSame.trans (b := jrnMod s _) (fun g _ => ⟨rfl, rfl⟩) (low_bump _ _)

theorem low_jHw (s : State) (k : BitVec 3) (tid : Half) (v : Word) (a : Bool) : lowSame s (jHw s k tid v a) := by
  unfold jHw
  repeat' split
  · exact low_stage _ _
  · exact fun g _ => ⟨rfl, rfl⟩
  · exact fun g _ => ⟨rfl, rfl⟩

/-- R436: what a PORT reset returns. -/
theorem portReturn_spec (s : State) (n : Nat) :
    (∀ m, portGet (portReturn s n) m = if m = n then { PortSt.reset with quiet := (portGet s n).quiet || !(portGet s n).dead } else portGet s m) ∧
    (∀ d, domGet (portReturn s n) d = if d = n then Dom.resetOf n else domGet s d) ∧
    (∀ k, faultGet (portReturn s n) k = if k = n then FaultRec.reset else faultGet s k) ∧
    (∀ k, tget cfgReset (portReturn s n).cfg k = if k / 65536 = n then cfgReset k else tget cfgReset s.cfg k) ∧
    (∀ g, g / 8 = n → cval (portReturn s n) g = 0 ∧ covf (portReturn s n) g = false) ∧
    portReturn s n = { s with ports := (portReturn s n).ports, doms := (portReturn s n).doms, faults := (portReturn s n).faults, cfg := (portReturn s n).cfg, cnt := (portReturn s n).cnt } := by
  have e : ∃ c pr, c = cfgDrop s (fun b _ => decide (b = n)) ∧ pr = ({ PortSt.reset with quiet := (portGet s n).quiet || !(portGet s n).dead } : PortSt) ∧
      portReturn s n = zeroCounters (faultSet (domSet (portSet c n pr) n (Dom.resetOf n)) n FaultRec.reset) (.port n) := ⟨_, _, rfl, rfl, rfl⟩
  obtain ⟨c, pr, hc, hpr, e⟩ := e
  rw [e, ← hpr]
  have hcc : c = { s with cfg := c.cfg } ∧ ∀ k, tget cfgReset c.cfg k = if k / 65536 = n then cfgReset k else tget cfgReset s.cfg k := by
    subst hc
    refine ⟨rfl, fun k => ?_⟩
    show tget cfgReset (s.cfg.filter (fun e => !(decide (e.1 / 65536 = n)))) k = _
    rw [tget_filterKey (f := fun k => !(decide (k / 65536 = n)))]
    by_cases h : k / 65536 = n <;> simp [h]
  clear hc hpr e
  generalize Dom.resetOf n = dr
  generalize FaultRec.reset = fr
  obtain ⟨h1, h2⟩ := hcc
  obtain ⟨z1, z2, z3⟩ := zeroCounters_spec (faultSet (domSet (portSet c n pr) n dr) n fr) n
  generalize zeroCounters (faultSet (domSet (portSet c n pr) n dr) n fr) (.port n) = z at z1 z2 z3 ⊢
  refine ⟨fun m => ?_, fun d => ?_, fun k => ?_, fun k => ?_, fun g hg => ?_, ?_⟩
  · have e1 : portGet z m = portGet (portSet c n pr) m := by unfold portGet; rw [z3]; rfl
    rw [e1]
    by_cases h : m = n
    · subst h; rw [if_pos rfl]; exact portGet_portSet_same ..
    · rw [if_neg h, portGet_portSet_ne _ _ _ _ h]; unfold portGet; rw [h1]
  · have e1 : domGet z d = domGet (domSet c n dr) d := by unfold domGet; rw [z3]; rfl
    rw [e1]
    by_cases h : d = n
    · subst h; rw [if_pos rfl]; exact domGet_domSet_same ..
    · rw [if_neg h, domGet_domSet_ne _ _ _ _ h]; unfold domGet; rw [h1]
  · have e1 : faultGet z k = faultGet (faultSet c n fr) k := by unfold faultGet; rw [z3]; rfl
    rw [e1]
    by_cases h : k = n
    · subst h; rw [if_pos rfl]; exact faultGet_faultSet_same ..
    · rw [if_neg h, faultGet_faultSet_ne _ _ _ _ h]; unfold faultGet; rw [h1]
  · have e1 : z.cfg = c.cfg := by rw [z3]; rfl
    rw [e1]; exact h2 k
  · rw [z1, z2, if_pos (by omega), if_pos (by omega)]; exact ⟨rfl, rfl⟩
  · obtain ⟨ps, ds, fs, cn, h6⟩ : ∃ ps ds fs cn, z = { c with ports := ps, doms := ds, faults := fs, cnt := cn } := ⟨_, _, _, _, z3⟩
    generalize c.cfg = cc at h1
    rw [h6, h1]

theorem portNode_ne_sys {n : Nat} (h : n < 64) : portNode n ≠ nodeSys := (show ∀ m : Fin 64, portNode m.val ≠ nodeSys by decide) ⟨n, h⟩

/-- R430: a reset of a port that nothing else knows of. -/
theorem portRstGo_spec {j : State} {n : Nat} (hn64 : n < 64) (hrst : j.sys.portRst = some n) (hc : j.power.mode = .up ∧ j.power.code = j.power.lvl ∧ 2 ≤ j.power.code.toNat ∧ j.power.moving = none ∧ j.time.patrol = none ∧ j.sys.held = [])
    (hn : nvOn j = true) (hl : j.jrn.staging.length + 2 ≤ 72) (hw1 : (domGet j n).st ≠ .waking) (hw2 : (domGet j n).st ≠ .hemming) (hal : portAlone j n)
    (htg : (portGet j n).tgt = none) (hcl : (portGet j n).claimed = false) (hcg : (portGet j n).claiming = false) (hrx : (nodeGet j (portNode n) .rsp).rx = [])
    (hch : j.ring.chips = [j.chipnum]) (hcli : clientsOf j j.chipnum n = [])
    (hbob : ∀ b, b < 64 → (bOwner (bcfg j b) = n → bcfg j b = 0 ∧ bobGet j b = Bobbin.reset) ∧
      ∀ l, (bobGet j b).lock = some l → ¬(l.schip = j.chipnum ∧ l.snode = portNode n)) :
    ∃ g a b, portRstGo j = g ∧ a.jrn = j.jrn ∧ DomBecomes a b n (if (domGet j n).st = .off then domGet j n else { domGet j n with st := .off, rung := 0 }) ∧
      StagesOne b g kRESET (BitVec.ofNat 6 aRESET ++ j.time.rtcFr) j.time.rtcSec ∧
      (∀ m, portGet g m = if m = n then { PortSt.reset with quiet := (portGet j n).quiet || !(portGet j n).dead } else portGet j m) ∧
      (∀ d, domGet g d = if d = n then Dom.resetOf n else domGet j d) ∧
      (∀ k, faultGet g k = if k = n then FaultRec.reset else faultGet j k) ∧
      (∀ k, tget cfgReset g.cfg k = if k / 65536 = n then cfgReset k else tget cfgReset j.cfg k) ∧
      (∀ g', g' / 8 = n → cval g g' = 0 ∧ covf g g' = false) ∧ NodesSame j g ∧
      g = { j with
        ports := g.ports, doms := g.doms, faults := g.faults, cfg := g.cfg, mesh := g.mesh, jrn := g.jrn, cnt := g.cnt
        sys := { j.sys with busy := false, portRst := none, event := g.sys.event, eventLate := g.sys.eventLate } } := by
  obtain ⟨⟨f1, f2, f3, f4, f5⟩, f6⟩ := finishPort_alone (s := j) (n := n) .isolated hal
  unfold portRstGo
  rw [hrst]
  dsimp only
  rw [if_neg (by rintro (h | h); exact hw1 h; exact hw2 h)]
  have hfp : ∀ m, portGet (finishPort j n .isolated) m = portGet j m := fun m => by
    by_cases h : m = n
    · subst h; rw [f1]
      have : portGet j m = { portGet j m with tgt := (portGet j m).tgt, claimed := (portGet j m).claimed, claiming := (portGet j m).claiming } := rfl
      conv_rhs => rw [this, htg, hcl, hcg]
    · exact f2 m h
  have hfn : ∀ k net, nodeGet (finishPort j n .isolated) k net = nodeGet j k net := fun k net => by
    by_cases h : k = portNode n ∧ net = .rsp
    · obtain ⟨rfl, rfl⟩ := h
      rw [f3, htg]
    · exact f4 k net h
  generalize finishPort j n .isolated = f at f5 f6 hfp hfn ⊢
  have um := portUnpower_mesh f n
  have un := portUnpower_nodes f n
  obtain ⟨a, ha⟩ : ∃ a, a = portUnpower f n := ⟨_, rfl⟩
  have umesh : a.mesh = { f.mesh with nodes := a.mesh.nodes } := by subst ha; rfl
  rw [← ha] at um un ⊢
  clear ha
  have ap : ∀ m, portGet a m = portGet j m := fun m => by rw [← hfp]; unfold portGet; rw [um]
  have an : ∀ k net, nodeGet a k net = nodeGet j k net := fun k net => by
    rw [un, hfn]
    by_cases h : k = portNode n
    · rw [if_pos h, h]
      have hr : (nodeGet j (portNode n) net).rx = [] := by
        cases net with
        | rsp => exact hrx
        | _ => exact hal.2.2.2.2.2.2.1 _ (by simp)
      rw [← hr]
    · rw [if_neg h]
  have aj : PortsOnly j a := f5.trans um.toPorts
  have amesh : a.mesh = { j.mesh with nodes := a.mesh.nodes } := by rw [umesh, f6]
  clear um un umesh f1 f2 f3 f4 f5 f6 hfp hfn
  have ad : ∀ d, domGet a d = domGet j d := fun d => by unfold domGet; rw [aj]
  have an67 : nvOn a = true := by unfold nvOn domOn at hn ⊢; rw [ad]; exact hn
  have hroom : hwRoom a = true := by unfold hwRoom; rw [an67, if_pos rfl, show a.jrn = j.jrn by rw [aj]]; exact decide_eq_true (by omega)
  have hbb : ∃ b, (if (domGet a n).st = .off then a else domChange a n (fun x => { x with st := .off, rung := 0 })) = b ∧
      DomBecomes a b n (if (domGet j n).st = .off then domGet j n else { domGet j n with st := .off, rung := 0 }) ∧ hwRoom b = true := by
    refine ⟨_, rfl, ?_⟩
    rw [← ad]
    by_cases h : (domGet a n).st = .off
    · rw [if_pos h, if_pos h]; exact ⟨DomBecomes.rfl' n, hroom⟩
    · rw [if_neg h, if_neg h]
      have htk : tackingNow a = false := by
        unfold tackingNow
        rw [show a.power = j.power by rw [aj], show a.time = j.time by rw [aj], hc.1, hc.2.2.2.2.1]; rfl
      have hdb := domBecomes_changeT htk hroom n (by omega) (fun x => { x with st := .off, rung := 0 })
      refine ⟨hdb, ?_⟩
      have he := hdb.2.2.2.1.2 (fun e => h e.symm)
      unfold Enters at he; rw [if_pos an67] at he
      obtain ⟨e, he, -⟩ := he
      have hnb : nvOn (domChange a n (fun x => { x with st := .off, rung := 0 })) = true := by
        unfold nvOn domOn at an67 ⊢; rw [hdb.2.1 67 (by omega)]; exact an67
      unfold hwRoom; rw [hnb, if_pos rfl, he, List.length_append, show a.jrn = j.jrn by rw [aj]]
      exact decide_eq_true (by simp; omega)
  obtain ⟨b, hb, hdb, hrb⟩ := hbb
  rw [hb]
  clear hb
  have hd5 := hdb.2.2.2.2
  have bcfg' : b.cfg = j.cfg := by rw [hd5, aj]
  have bchip : b.chipnum = j.chipnum := by rw [hd5, aj]
  have bring : b.ring = j.ring := by rw [hd5, aj]
  have bbobs : b.bobs = j.bobs := by rw [hd5, aj]
  have hclis : ∀ u : State, u.cfg = j.cfg → clientsOf u j.chipnum n = [] := fun u hu => by
    rw [← hcli]; unfold clientsOf cfgGet; rw [hu]
  -- what SYS and BOB know of the port
  have e1 : portGone b j.chipnum n = b := by
    unfold portGone; dsimp only
    rw [hclis b bcfg', votesDrop_none (pick := fun v => ([] : List Nat).contains v) (fun d _ v _ => rfl)]
    unfold locksFree
    refine foldl_fixed _ _ fun k hk => ?_
    cases hlk : (bobGet b k).lock with
    | none => rfl
    | some l =>
      dsimp only
      rw [if_neg]
      intro h
      simp only [Bool.and_eq_true, decide_eq_true_eq] at h
      refine (hbob k (List.mem_range.mp hk)).2 l ?_ h
      rw [← hlk]; unfold bobGet; rw [bbobs]
  have e2 : bobsGone b n = b := by
    unfold bobsGone
    refine foldl_fixed _ _ fun k hk => ?_
    have hbk : bcfg b k = bcfg j k := by unfold bcfg cfgGet; rw [bcfg']
    have hgk : bobGet b k = bobGet j k := by unfold bobGet; rw [bbobs]
    dsimp only
    rw [hbk, hgk]
    by_cases ho : bOwner (bcfg j k) = n
    · rw [if_pos ho, if_pos ((hbob k (List.mem_range.mp hk)).1 ho)]
    · rw [if_neg ho]
  have e3 : basteGone b [] = b := by
    unfold basteGone
    split
    · rfl
    · rfl
  have e4 : dirFreePort b n = b := by
    unfold dirFreePort
    refine foldl_fixed _ _ fun k hk => ?_
    dsimp only
    rw [if_neg]
    intro h
    simp only [Bool.and_eq_true] at h
    have hk2 : k ∈ clientsOf b j.chipnum n := by
      unfold clientsOf; rw [List.mem_filter]; exact ⟨hk, by rw [← bchip]; exact h.1⟩
    rw [hclis b bcfg'] at hk2; cases hk2
  have e5 : noticesSend b n = b := by
    unfold noticesSend; dsimp only
    rw [bring, hch, bchip]; simp
  rw [hcli, e1, e2, e3, e4, e5]
  clear e1 e2 e3 e4 e5 hclis hbob hal hrx hch hcli
  obtain ⟨r1, r2, r3, r4, r5, r6⟩ := portReturn_spec b n
  generalize portReturn b n = z at r1 r2 r3 r4 r5 r6
  have hnz : nvOn z = true := by
    unfold nvOn domOn at hn ⊢
    rw [r2, if_neg (by omega), hdb.2.1 67 (by omega), ad]; exact hn
  have hrz : hwRoom z = true := by
    have hnb : nvOn b = true := by unfold nvOn domOn at hn ⊢; rw [hdb.2.1 67 (by omega), ad]; exact hn
    unfold hwRoom at hrb ⊢; rw [hnz, if_pos rfl]; rw [hnb, if_pos rfl] at hrb
    rw [show z.jrn = b.jrn by rw [r6]]; exact hrb
  have k1 := jHw_shape z kRESET (BitVec.ofNat 6 aRESET ++ z.time.rtcFr) z.time.rtcSec true
  have k2 := jHw_stages (s := z) kRESET (BitVec.ofNat 6 aRESET ++ z.time.rtcFr) z.time.rtcSec true hnz hrz
  have k3 := low_jHw z kRESET (BitVec.ofNat 6 aRESET ++ z.time.rtcFr) z.time.rtcSec true
  unfold anchor
  have hzt : z.time = j.time := by rw [r6]; show b.time = _; rw [hd5, aj]
  have hzj : z.jrn = b.jrn := by rw [r6]
  rw [hzt] at k1 k2 k3 ⊢
  generalize jHw z kRESET (BitVec.ofNat 6 aRESET ++ j.time.rtcFr) j.time.rtcSec true = y at k1 k2 k3
  have hy : y = { j with ports := y.ports, doms := y.doms, faults := y.faults, cfg := y.cfg, mesh := y.mesh, jrn := y.jrn, cnt := y.cnt, sys := { j.sys with event := y.sys.event, eventLate := y.sys.eventLate } } := by
    obtain ⟨_, _, _, _, ey⟩ := k1.open
    obtain ⟨_, _, _, _, _, ez⟩ : ∃ ps ds fs cf cn, z = { b with ports := ps, doms := ds, faults := fs, cfg := cf, cnt := cn } := ⟨_, _, _, _, _, r6⟩
    obtain ⟨_, _, _, _, _, _, eb⟩ : ∃ ds ps jr cn ev el, b = { a with doms := ds, ports := ps, jrn := jr, cnt := cn, sys := { a.sys with event := ev, eventLate := el } } := ⟨_, _, _, _, _, _, hd5⟩
    obtain ⟨_, _, _, _, _, ea⟩ := aj.open
    rw [ey, ez, eb, ea]
  have hcal : (sysMod y (fun w => { w with busy := false, portRst := none })).calm := by
    refine ⟨?_, ?_, ?_, ?_, ?_, rfl, ?_⟩
    · show y.power.mode = _; rw [hy]; exact hc.1
    · show y.power.code = y.power.lvl; rw [hy]; exact hc.2.1
    · show 2 ≤ y.power.code.toNat; rw [hy]; exact hc.2.2.1
    · show y.power.moving = _; rw [hy]; exact hc.2.2.2.1
    · show y.time.patrol = _; rw [hy]; exact hc.2.2.2.2.1
    · show y.sys.held = _; rw [hy]; exact hc.2.2.2.2.2
  rw [upkeep_calm hcal]
  refine ⟨_, a, b, rfl, by rw [aj], hdb, ?_, fun m => ?_, fun d => ?_, fun k => ?_, fun k => ?_, fun g hg => ?_, ⟨?_, fun k net => ?_⟩, ?_⟩
  · obtain ⟨e, q1, q2, q3⟩ := k2
    exact ⟨e, by rw [← hzj]; exact q1, by rw [q2, hzt, hd5, aj], q3⟩
  · have : portGet y m = portGet z m := by unfold portGet; rw [k1]
    show portGet y m = _
    rw [this, r1, hdb.2.2.1, hdb.2.2.1, ap, ap]
  · have : domGet y d = domGet z d := by unfold domGet; rw [k1]
    show domGet y d = _
    rw [this, r2]
    by_cases h : d = n
    · rw [if_pos h, if_pos h]
    · rw [if_neg h, if_neg h, hdb.2.1 d h, ad]
  · have : faultGet y k = faultGet z k := by unfold faultGet; rw [k1]
    show faultGet y k = _
    rw [this, r3]
    have : faultGet b k = faultGet j k := by unfold faultGet; rw [hd5, aj]
    rw [this]
  · have : y.cfg = z.cfg := by rw [k1]
    show tget cfgReset y.cfg k = _
    rw [this, r4, bcfg']
  · have := k3 g (by omega)
    show cval y g = 0 ∧ covf y g = false
    rw [this.1, this.2]; exact r5 g hg
  · show y.mesh = { j.mesh with nodes := y.mesh.nodes }
    have : y.mesh = a.mesh := by rw [k1, r6]; show b.mesh = _; rw [hd5]
    rw [this]; exact amesh
  · show nodeGet y k net = _
    have : nodeGet y k net = nodeGet a k net := by unfold nodeGet; rw [show y.mesh = a.mesh by rw [k1, r6]; show b.mesh = _; rw [hd5]]
    rw [this, an]
  · obtain ⟨_, _, _, _, _, _, _, _, _, ey⟩ : ∃ ps ds fs cf me jr cn ev el, y = { j with ports := ps, doms := ds, faults := fs, cfg := cf, mesh := me, jrn := jr, cnt := cn, sys := { j.sys with event := ev, eventLate := el } } :=
      ⟨_, _, _, _, _, _, _, _, _, hy⟩
    rw [ey]; rfl

theorem fabricWrite_refused {s : State} {net : Net} {p : Pkt} {v : DataUnit} {wd : Wd} {sel : Origin → Wd → Word → Bool} {ha : BitVec 6} {g : State} {st : Status}
    (hon : sysOn s = true) (hrx : rxHead s nodeSys net = some p) (hck : reqCheck p = .perform) (hop : opOf p.cmd = .write 1)
    (hd : p.data = [v]) (hbe : v.be ≠ 0) (hf : flatWord (byteAddr p.addr) = some wd) (hsel : sel (fabOrigin p) wd v.data = true)
    (hj : ∀ i j, wd ≠ .jrn i j)
    (hg : writeWord (bump (rxDrop s nodeSys net) .sys yFABACC) (fabOrigin p) wd v.data v.be (some (p, 0)) = .refused g st) :
    byWrite s ha sel (.fabric net) = settle (respond g p st []) := by
  have hn : fabNames p sel = true := by
    unfold fabNames; rw [hop]
    rw [hd]; simp [hf, hsel]
  have hb : sysWriteBad p = false := by
    unfold sysWriteBad; rw [hd]
    simp only [List.zipIdx_cons, List.zipIdx_nil, List.any_cons, List.any_nil, Bool.or_false, Nat.mul_zero, Nat.add_zero]
    rw [hf]
    cases wd <;> simp_all
  show settle (sysTake s net (fun p => fabNames p sel)) = _
  congr 1
  unfold sysTake
  rw [if_neg (by simp [hon]), hrx]
  dsimp only
  rw [if_pos hn]
  unfold sysPerform
  rw [hck]
  dsimp only
  rw [hop]
  dsimp only
  rw [hb, hd]
  simp only [Bool.false_eq_true, if_false]
  unfold sysWriteFrom
  rw [Nat.mul_zero, Nat.add_zero, hf]
  dsimp only
  rw [if_neg hbe, hg]

theorem windataWrite_refused {s : State} {hd : Half} {b i : Nat} {raw : Word} {sel : Origin → Wd → Word → Bool} {g : State} {st : Status}
    (hw : s.host.waitLow = false) (hgate : hostGate s 0x0A = .serve) (hn : hostNames s 0x0A hd = some (.bank b i, raw))
    (hsel : sel .host (.bank b i) raw = true) (hb : bankHas b i = true) (hst : st ≠ .asleep)
    (hg : writeWord (winNext (hostMod (hostMod (bump s .sys yHOSTACC) (fun y => { y with waitLow := true })) (fun y => { y with phase := false })))
      .host (.bank b i) raw 0xF none = .refused g st) :
    byWrite s 0x0A sel (.host hd) = settle (hostEnd (hostMod g (fun y => { y with refused := true }))) := by
  unfold byWrite
  dsimp only
  rw [hn]
  dsimp only
  rw [if_pos hsel]
  congr 1
  have h2 : winHigh s = true ∧ winB s = b ∧ winI s = i ∧ winWord s hd = raw := by
    have hn' : (if winHigh s then some (Wd.bank (winB s) (winI s), winWord s hd) else none) = some (.bank b i, raw) := hn
    by_cases h : winHigh s = true
    · rw [if_pos h] at hn'
      simp only [Option.some.injEq, Prod.mk.injEq, Wd.bank.injEq] at hn'
      exact ⟨h, hn'.1.1, hn'.1.2, hn'.2⟩
    · rw [if_neg h] at hn'; cases hn'
  obtain ⟨h1, h2, h3, h4⟩ := h2
  unfold hostWrite
  have hgate' : hostGate s (BitVec.toNat (0x0A : BitVec 6)) = .serve := hgate
  rw [if_neg (by simp [hw]), hgate']
  dsimp only
  generalize hs1 : hostMod (bump s .sys yHOSTACC) (fun y => { y with waitLow := true }) = s1 at hg ⊢
  have e : hostPerform s1 (BitVec.toNat (0x0A : BitVec 6)) hd = .done (hostMod g (fun y => { y with refused := true })) := by
    have hh : s1.host = { s.host with waitLow := true } := by
      subst hs1; show ({ (bump s .sys yHOSTACC).host with waitLow := true } : HostIf) = _
      rw [(bump_shape _ _ _).host]
    show (if winHigh s1 then winWrite (winNext (hostMod s1 (fun y => { y with phase := false }))) (winB s1) (winI s1) (winWord s1 hd)
      else _) = _
    have w1 : winHigh s1 = true := by unfold winHigh at h1 ⊢; rw [hh]; exact h1
    have w2 : winB s1 = b := by unfold winB at h2 ⊢; rw [hh]; exact h2
    have w3 : winI s1 = i := by unfold winI at h3 ⊢; rw [hh]; exact h3
    have w4 : winWord s1 hd = raw := by unfold winWord at h4 ⊢; rw [hh]; exact h4
    rw [if_pos w1, w2, w3, w4]
    unfold winWrite
    rw [if_neg (by simp [hb]), hg]
    unfold winMark
    cases st <;> first | rfl | exact absurd rfl hst
  rw [e]
  rfl

/-- A write of a bank word that is refused: it ends with its status, and P holds, whatever the host side and the packets at nodes. -/
theorem refused_row {s : State} {b i : Nat} {raw : Word} {be : BitVec 4} {by_ : By} {sel : Origin → Wd → Word → Bool} {st : Status} {P : State → Prop}
    (hw : Writes s 0x0A (.bank b i) raw be by_) (hsel : sel (askOrigin s by_) (.bank b i) raw = true) (hb : bankHas b i = true) (hst : st ≠ .asleep)
    (hE : ∀ x req, Taken s x → ∃ g, writeWord x (askOrigin s by_) (.bank b i) raw be req = .refused g st ∧ g.host = x.host ∧ g.mesh = x.mesh ∧ P g)
    (hP : ∀ g h m, P g → P { g with host := h, mesh := m }) (hc : ∀ g, P g → g.calm) :
    ∃ t, byWrite s 0x0A sel by_ = t ∧ AccessRefused s t st by_ ∧ P t := by
  cases by_ with
  | host hd =>
    obtain ⟨hwait, hgate, hn, rfl⟩ := hw
    have hc1 := bump_shape s .sys yHOSTACC
    have ht : Taken s (winNext (hostMod (hostMod (bump s .sys yHOSTACC) (fun y => { y with waitLow := true })) (fun y => { y with phase := false }))) := by
      rw [winNext_eq]
      obtain ⟨_, _, _, e⟩ := hc1.open
      have hl := And.intro (low_bump s yHOSTACC) (values_bump s .sys yHOSTACC)
      rw [e] at hl ⊢
      exact ⟨rfl, (winHost_fields _).1, (winHost_fields _).2, hl.1, hl.2, fun _ _ _ => rfl⟩
    obtain ⟨g, h1, h2, h3, h5⟩ := hE _ none ht
    rw [windataWrite_refused hwait hgate hn hsel hb hst h1]
    have hg : P (hostEnd (hostMod g (fun y => { y with refused := true }))) := hP g _ g.mesh h5
    rw [settle_calm (hc _ hg)]
    refine ⟨_, rfl, ⟨⟨?_, fun k m => ?_⟩, ?_⟩, hg⟩
    · show g.mesh = _
      rw [h3, winNext_eq]; show (bump s .sys yHOSTACC).mesh = { s.mesh with nodes := g.mesh.nodes }
      have : g.mesh = s.mesh := by rw [h3, winNext_eq]; exact hc1.mesh
      rw [hc1.mesh, this]
    · show nodeGet g k m = _
      have : g.mesh = s.mesh := by rw [h3, winNext_eq]; exact hc1.mesh
      unfold nodeGet; rw [this]
    · show ({ g.host with refused := true, waitLow := false } : HostIf) = _
      rw [h2]
      unfold hostLeft
      rw [if_pos rfl, winNext_eq, winNext_eq]
      show ({ winHost { (bump s .sys yHOSTACC).host with waitLow := true, phase := false } with refused := true, waitLow := false } : HostIf) =
            { winHost { s.host with phase := false } with waitLow := false, refused := true }
      rw [hc1.host]
      have := winHost_wait { s.host with phase := false } true false
      exact congrArg (fun y : HostIf => { y with refused := true }) this
  | fabric net =>
    obtain ⟨hnet, hon0, p, v, hrx, hdn, hck, hop, hd, rfl, rfl, hbe, hf⟩ := hw
    have ho : askOrigin s (.fabric net) = fabOrigin p := by show (match rxHead s nodeSys net with | some p => fabOrigin p | none => Origin.host) = _; rw [hrx]
    rw [ho] at hsel hE
    have hc1 := bump_shape (rxDrop s nodeSys net) .sys yFABACC
    have ht : Taken s (bump (rxDrop s nodeSys net) .sys yFABACC) := by
      have hl : lowSame s (bump (rxDrop s nodeSys net) .sys yFABACC) := lowSame.trans (b := rxDrop s nodeSys net) (fun g _ => ⟨rfl, rfl⟩) (low_bump _ _)
      have hl := And.intro hl (values_bump (rxDrop s nodeSys net) .sys yFABACC)
      obtain ⟨_, _, _, e⟩ := hc1.open
      refine ⟨?_, ?_, ?_, hl.1, hl.2, ?_⟩
      · rw [e]; rfl
      · rw [e]; rfl
      · rw [e]; rfl
      · intro k m hk
        rw [e]; show nodeGet (rxDrop s nodeSys net) k m = _
        exact nodeGet_nodeMod_ne s nodeSys k net m _ (fun h => hk h.1)
    obtain ⟨g, h1, h2, h3, h5⟩ := hE _ (some (p, 0)) ht
    rw [fabricWrite_refused hon0 hrx hck hop hd hbe hf hsel (by simp) h1]
    have hg : P (respond g p st []) := hP g g.host (respond g p st []).mesh h5
    rw [settle_calm (hc _ hg)]
    have hgm : g.mesh = (rxDrop s nodeSys net).mesh := by rw [h3, hc1.mesh]
    have hng : ∀ k m, nodeGet g k m = nodeGet (rxDrop s nodeSys net) k m := fun k m => by unfold nodeGet; rw [hgm]
    refine ⟨_, rfl, ⟨?_, ?_, p, hrx, ?_, ?_, ?_⟩, hg⟩
    · show g.host = s.host
      rw [h2]; show (bump (rxDrop s nodeSys net) .sys yFABACC).host = _
      rw [hc1.host]; rfl
    · unfold respond sendPkt nodeMod nodeSet; dsimp only; rw [hgm]; rfl
    · have hrsp : (nodeGet s nodeSys .rsp).out = [] := by
        unfold rxHead at hrx; by_contra h; rw [if_neg h] at hrx; cases hrx
      unfold respond sendPkt
      rw [hdn, nodeGet_nodeMod_same, hng]
      unfold rxDrop
      rw [nodeGet_nodeMod_ne _ _ _ _ _ _ (fun h => hnet h.2.symm), hrsp]; rfl
    · unfold respond sendPkt
      rw [hdn, nodeGet_nodeMod_ne _ _ _ _ _ _ (fun h => hnet h.2), hng]
      unfold rxDrop; rw [nodeGet_nodeMod_same]
    · intro k m hk
      unfold respond sendPkt
      rw [hdn, nodeGet_nodeMod_ne _ _ _ _ _ _ (fun h => hk ⟨h.1, Or.inr h.2⟩), hng]
      unfold rxDrop
      rw [nodeGet_nodeMod_ne _ _ _ _ _ _ (fun h => hk ⟨h.1, Or.inl h.2⟩)]

/-- R353: what a refusal does to a state. -/
theorem refuse_counts (s : State) (o : Origin) (why : BitVec 4) : CountsOnly (refusedBy s o why) (refuse s (refusedCid o) why) := by
  have hb := bump_shape (refusedBy s o why) .sys yREFUSE
  have e : refuse s (refusedCid o) why = if s.sys.refuseSeen then bump (refusedBy s o why) .sys yREFUSE
      else raiseEvent (bump (refusedBy s o why) .sys yREFUSE) evREFUSE := by
    have h : sysMod s (fun y => { y with refuseN := if y.refuseN = 0xFFFF then 0xFFFF else y.refuseN + 1, refuseCid := refusedCid o, refuseWhy := why, refuseSeen := true }) = refusedBy s o why := by
      cases o <;> rfl
    unfold refuse; rw [h]
  rw [e]
  split
  · exact hb
  · exact hb.trans (raiseEvent_shape _ _)

theorem calm_refused {s : State} (o : Origin) (why : BitVec 4) (h : s.calm) : (refusedBy s o why).calm := h

theorem writeWord_reserved {x : State} {o : Origin} {wd : Wd} {raw old v : Word} {be : BitVec 4} {req : Option (Pkt × Nat)} (hp : plainWd wd = true)
    (hf : (fieldsOf wd).isEmpty = false) (ho : wordRead x o wd = old) (hv : mergeWord (fieldsOf wd) old raw be = v)
    (hres : reservedCode x wd old v = true) : writeWord x o wd raw be req = .refused x .decerr := by
  unfold writeWord
  rw [ho]
  dsimp only
  rw [hv]
  cases wd with
  | bank b i =>
    simp only [plainWd, Bool.and_eq_true, Bool.not_eq_true', decide_eq_true_eq] at hp
    obtain ⟨⟨h1, h2⟩, h3⟩ := hp
    dsimp only
    split
    all_goals first | (simp_all; done) | skip
  | _ =>
    first
    | (simp [plainWd] at hp; done)
    | (dsimp only
       rw [if_neg (by simp), hf, if_neg (by simp), hres, if_pos rfl])

theorem writeWord_denied {x : State} {o : Origin} {wd : Wd} {raw old v : Word} {be : BitVec 4} {req : Option (Pkt × Nat)} {k : Nat} (hp : plainWd wd = true)
    (hf : (fieldsOf wd).isEmpty = false) (ho : wordRead x o wd = old) (hv : mergeWord (fieldsOf wd) old raw be = v)
    (hres : reservedCode x wd old v = false) (hl : lacks x o (fieldsOf wd) old v = some k) :
    writeWord x o wd raw be req = .refused (refuse x (refusedCid o) (BitVec.ofNat 4 k)) .rights := by
  unfold writeWord
  rw [ho]
  dsimp only
  rw [hv]
  cases wd with
  | bank b i =>
    simp only [plainWd, Bool.and_eq_true, Bool.not_eq_true', decide_eq_true_eq] at hp
    obtain ⟨⟨h1, h2⟩, h3⟩ := hp
    dsimp only
    split
    all_goals first | (simp_all; done) | skip
  | _ =>
    first
    | (simp [plainWd] at hp; done)
    | (dsimp only
       rw [if_neg (by simp), hf, if_neg (by simp), hres, hl]
       simp only [Bool.false_eq_true, if_false])

theorem lacks_map {x : State} {o : Origin} {m old v : Word} (hR : holdsRight x o rMAP = false) (ht : (old ^^^ v) &&& m ≠ 0) :
    lacks x o [fRW m rMAP] old v = some 0 := by
  unfold lacks
  have : (List.range 8) = 0 :: (List.range 8).tail := rfl
  rw [this, List.find?_cons_of_pos]
  simp only [List.any_cons, List.any_nil, Bool.or_false, fRW, takes]
  rw [show holdsRight x o 0 = false from hR]
  simp only [rMAP, decide_true, Bool.true_and, Bool.not_false, decide_eq_true_iff]
  exact ht

theorem oddOnes_count (n v : Nat) : oddOnes n v = decide (((List.range n).filter (fun k => v.testBit k)).length % 2 = 1) := by
  induction n generalizing v with
  | zero => rfl
  | succ n ih =>
    show xor (v % 2 == 1) (oddOnes n (v / 2)) = _
    rw [ih, List.range_succ_eq_map, List.filter_cons, List.filter_map]
    have e : ((fun k => v.testBit k) ∘ Nat.succ) = (fun k => (v / 2).testBit k) := by
      funext k; exact Nat.testBit_succ v k
    rw [e, Nat.testBit_zero]
    generalize (List.filter (fun k => (v / 2).testBit k) (List.range n)) = l
    by_cases h : v % 2 = 1
    · rw [h, if_pos (by simp)]
      show (true ^^ decide (l.length % 2 = 1)) = decide (((List.map Nat.succ l).length + 1) % 2 = 1)
      rw [List.length_map]
      rcases Nat.mod_two_eq_zero_or_one l.length with h2 | h2
      · have : (l.length + 1) % 2 = 1 := by omega
        simp [h2, this]
      · have : (l.length + 1) % 2 = 0 := by omega
        simp [h2, this]
    · have h0 : v % 2 = 0 := by omega
      rw [h0, if_neg (by simp), List.length_map]
      simp

theorem bob_bad0 {s : State} {p : Pkt} {u : DataUnit} (h1 : byteAddr p.addr < 16384) (h : opOf p.cmd = .write 1) (hd : p.data = [u]) (hbe : u.be ≠ 0)
    (hw : bobWordIx p.addr 0 = 0) (h0 : bobData u ≠ 0) : bobBad s p = true := by
  unfold bobBad; rw [h, hd]; dsimp only
  have h0' : ¬ bobData u = 0#32 := h0
  have hb' : ¬ u.be = 0#4 := hbe
  simp [hw, h0', hb']

end Sys2Proof.Machine
end

