-- ==== Sys2Proof/Laws/Good.lean ====
section
/-!
SUPPORT. The queue and the invariant of Safety.lean through the named operations of Machine/Ops.lean. The files Keep*.lean carry the
same lemma through every definition of the model that gives a state, and so to exec.
-/
namespace Sys2Proof.Machine

/-- The queue is `q`, and the invariant holds. -/
def Good (q : List Instr) (s : State) : Prop := s.pending = q ∧ s.Inv

/-- P holds of the state in a result of the register engine. -/
def WRes.All (P : State → Prop) : WRes → Prop
  | .done s => P s
  | .refused s _ => P s
  | .wait _ => True
  | .later s => P s

/-- P holds of the state in a result of a BOB word. -/
def BRes.All (P : State → Prop) : BRes → Prop
  | .st s _ => P s
  | .wait => True

/-- P holds of the next state, if there is one. -/
def OutAll (P : State → Prop) : Host.Outcome State Fault Refusal → Prop
  | .next s => P s
  | _ => True

/-- P holds of the state, if there is one. -/
def OptAll (P : State → Prop) : Option State → Prop
  | some s => P s
  | none => True

variable {q : List Instr}

theorem optAll_none {P : State → Prop} : OptAll P none := trivial
theorem optAll_some {P : State → Prop} {u : State} (h : P u) : OptAll P (some u) := h
theorem optAll_get {o : Option State} {u : State} (e : o = some u) (h : OptAll (Good q) o) : Good q u := by subst e; exact h
theorem optAll_findSome {α : Type} {f : α → Option State} (l : List α) (h : ∀ x, OptAll (Good q) (f x)) :
    OptAll (Good q) (l.findSome? f) := by
  induction l with
  | nil => trivial
  | cons x t ih =>
    rw [List.findSome?_cons]
    split
    · rename_i e; rw [← e]; exact h x
    · exact ih
theorem outAll_next {P : State → Prop} {u : State} (h : P u) : OutAll P (.next u) := h
theorem outAll_fault {P : State → Prop} {f : Fault} : OutAll P (.fault f) := trivial
theorem outAll_refused {P : State → Prop} {r : Refusal} : OutAll P (.refused r) := trivial
theorem outAll_get {o : Host.Outcome State Fault Refusal} {u : State} (e : o = .next u) (h : OutAll (Good q) o) : Good q u := by
  subst e; exact h
theorem wres_done {P : State → Prop} {u : State} (h : P u) : (WRes.done u).All P := h
theorem wres_refused {P : State → Prop} {u : State} {c : Status} (h : P u) : (WRes.refused u c).All P := h
theorem wres_later {P : State → Prop} {u : State} (h : P u) : (WRes.later u).All P := h
theorem wres_wait {P : State → Prop} {u : Wait} : (WRes.wait u).All P := trivial
theorem wres_get_done {o : WRes} {u : State} (e : o = .done u) (h : o.All (Good q)) : Good q u := by subst e; exact h
theorem wres_get_refused {o : WRes} {u : State} {c : Status} (e : o = .refused u c) (h : o.All (Good q)) : Good q u := by
  subst e; exact h
theorem wres_get_later {o : WRes} {u : State} (e : o = .later u) (h : o.All (Good q)) : Good q u := by subst e; exact h
theorem bres_st {P : State → Prop} {u : State} {c : Status} (h : P u) : (BRes.st u c).All P := h
theorem bres_wait {P : State → Prop} : BRes.wait.All P := trivial
theorem bres_get {o : BRes} {u : State} {c : Status} (e : o = .st u c) (h : o.All (Good q)) : Good q u := by subst e; exact h
theorem pair_get {α : Type} {o : State × α} {u : State} {c : α} (e : o = (u, c)) (h : Good q o.1) : Good q u := by
  subst e; exact h
theorem pair_get' {α : Type} {o : α × State} {u : State} {c : α} (e : o = (c, u)) (h : Good q o.2) : Good q u := by
  subst e; exact h

variable {s : State}

theorem Good.foldl {α : Type} {f : State → α → State} (l : List α) (h : Good q s) (hf : ∀ u x, Good q u → Good q (f u x)) :
    Good q (l.foldl f s) := by
  induction l generalizing s with
  | nil => exact h
  | cons x t ih => exact ih (hf s x h)

theorem cfgSet_good (b i : Nat) (v : Word) (h : Good q s) : Good q (cfgSet s b i v) := by
  obtain ⟨h0, ⟨h1, h2, h3, h4⟩, h5⟩ := h
  exact ⟨h0, ⟨h1, h2, twf_tset _ _ _ _ h3, h4⟩, h5⟩

theorem cfgDrop_good (p : Nat → Nat → Bool) (h : Good q s) : Good q (cfgDrop s p) := by
  obtain ⟨h0, ⟨h1, h2, h3, h4⟩, h5⟩ := h
  exact ⟨h0, ⟨h1, h2, twf_filter _ _ _ h3, h4⟩, h5⟩

theorem portSet_good (n : Nat) (p : PortSt) (h : Good q s) : Good q (portSet s n p) := by
  obtain ⟨h0, ⟨h1, h2⟩, h5⟩ := h
  exact ⟨h0, ⟨twf_tset _ _ _ _ h1, h2⟩, h5⟩

theorem portMod_good (n : Nat) (f : PortSt → PortSt) (h : Good q s) : Good q (portMod s n f) := portSet_good n _ h

theorem domSet_good (d : Nat) (x : Dom) (h : Good q s) (hx : domOk d x) : Good q (domSet s d x) := by
  obtain ⟨h0, ⟨h1, h2, h3⟩, h5, h6, h7⟩ := h
  refine ⟨h0, ⟨h1, twf_tset _ _ _ _ h2, h3⟩, h5, ?_, h7⟩
  intro e
  show domOk e (tget Dom.resetOf (tset Dom.resetOf s.doms d x) e)
  rw [tget_tset]
  split
  · rename_i he; subst he; exact hx
  · exact h6 e

theorem domMod_good (d : Nat) (f : Dom → Dom) (h : Good q s) (hf : ∀ x, domOk d x → domOk d (f x)) : Good q (domMod s d f) :=
  domSet_good d _ h (hf _ (h.2.2.2.1 d))

theorem bobSet_good (b : Nat) (x : Bobbin) (h : Good q s) : Good q (bobSet s b x) := by
  obtain ⟨h0, ⟨h1, h2, h3, h4, h5⟩, h6⟩ := h
  exact ⟨h0, ⟨h1, h2, h3, twf_tset _ _ _ _ h4, h5⟩, h6⟩

theorem bobMod_good (b : Nat) (f : Bobbin → Bobbin) (h : Good q s) : Good q (bobMod s b f) := bobSet_good b _ h

theorem faultSet_good (k : Nat) (x : FaultRec) (h : Good q s) : Good q (faultSet s k x) := by
  obtain ⟨h0, ⟨h1, h2, h3, h4, h5, h6⟩, h7⟩ := h
  exact ⟨h0, ⟨h1, h2, h3, h4, twf_tset _ _ _ _ h5, h6⟩, h7⟩

theorem nodeSet_good (node : BitVec 7) (net : Net) (x : NodeQ) (h : Good q s) : Good q (nodeSet s node net x) := by
  obtain ⟨h0, ⟨h1, h2, h3, h4, h5, h6, h7⟩, h8⟩ := h
  exact ⟨h0, ⟨h1, h2, h3, h4, h5, twf_tset _ _ _ _ h6, h7⟩, h8⟩

theorem nodeMod_good (node : BitVec 7) (net : Net) (f : NodeQ → NodeQ) (h : Good q s) : Good q (nodeMod s node net f) :=
  nodeSet_good node net _ h

theorem rinSet_good (net : Net) (r : Nat) (d : Dir) (x : RIn) (h : Good q s) : Good q (rinSet s net r d x) := by
  obtain ⟨h0, ⟨h1, h2, h3, h4, h5, h6, h7, h8⟩, h9⟩ := h
  exact ⟨h0, ⟨h1, h2, h3, h4, h5, h6, twf_tset _ _ _ _ h7, h8⟩, h9⟩

theorem arbSet_good (net : Net) (r : Nat) (a : ArbName) (x : Arb) (h : Good q s) : Good q (arbSet s net r a x) := by
  obtain ⟨h0, ⟨h1, h2, h3, h4, h5, h6, h7, h8, h9⟩, h10⟩ := h
  exact ⟨h0, ⟨h1, h2, h3, h4, h5, h6, h7, twf_tset _ _ _ _ h8, h9⟩, h10⟩

theorem delaySet_good (r : Nat) (x : Delay) (h : Good q s) : Good q (delaySet s r x) := by
  obtain ⟨h0, ⟨h1, h2, h3, h4, h5, h6, h7, h8, h9⟩, h10⟩ := h
  exact ⟨h0, ⟨h1, h2, h3, h4, h5, h6, h7, h8, twf_tset _ _ _ _ h9⟩, h10⟩

theorem meshReset_good (h : Good q s) : Good q { s with mesh := Mesh.reset } := by
  obtain ⟨h0, ⟨h1, h2, h3, h4, h5, _⟩, h10⟩ := h
  exact ⟨h0, ⟨h1, h2, h3, h4, h5, rfl, rfl, rfl, rfl⟩, h10⟩

theorem domcmdPut_ok (d : Nat) (x : Dom) (v : Word) (h : domOk d x) : domOk d (domcmdPut d x v) := by
  intro hd
  obtain ⟨_, hv, hc⟩ := h hd
  refine ⟨?_, hv, ?_⟩
  · show (decide (d < 64) && _) = false
    rw [decide_eq_false (by omega)]; rfl
  · intro h5
    show (if _ then x.cmdOn else _) = true
    rw [if_pos (Or.inr ⟨hd, h5⟩)]; exact hc h5

theorem gateMod_good (g : Ring) (f : Gate → Gate) (h : Good q s) : Good q (gateMod s g f) := by cases g <;> exact h
theorem ringMod_good (f : RingSt → RingSt) (h : Good q s) : Good q (ringMod s f) := h
theorem sysMod_good (f : Sys → Sys) (h : Good q s) : Good q (sysMod s f) := h
theorem powMod_good (f : Power → Power) (h : Good q s) : Good q (powMod s f) := h
theorem timeMod_good (f : Time → Time) (h : Good q s) : Good q (timeMod s f) := h
theorem jrnMod_good (f : Journal → Journal) (h : Good q s) : Good q (jrnMod s f) := h
theorem cntMod_good (f : Counters → Counters) (h : Good q s) : Good q (cntMod s f) := h

theorem hostMod_good (f : HostIf → HostIf) (h : Good q s) (hf : ∀ y, selectorsOk y → selectorsOk (f y)) : Good q (hostMod s f) := by
  obtain ⟨h0, h1, h2, h3⟩ := h
  exact ⟨h0, h1, hf _ h2, h3⟩

theorem tapMod_good (f : Tap → Tap) (h : Good q s) (hf : tapOk (f s.tap)) : Good q (tapMod s f) := by
  obtain ⟨h0, h1, h2, h3, _⟩ := h
  exact ⟨h0, h1, h2, h3, hf⟩

theorem domOk_resetOf (d : Nat) : domOk d (Dom.resetOf d) := by
  intro hd
  have e : Dom.resetOf d = Dom.resetCore := by unfold Dom.resetOf; rw [if_neg (by omega)]
  rw [e]
  exact ⟨rfl, rfl, fun _ => rfl⟩

end Sys2Proof.Machine
end

