-- ==== Sys2Proof/Laws/KeepOps.lean ====
section
/-!
SUPPORT. The queue and the invariant through the definitions of Machine/Ops.lean (see Laws/Good.lean).
-/
set_option linter.all false

namespace Sys2Proof.Machine

theorem raiseEvent_good {q : List Instr} {s : State} (k : Nat) (h : Good q s) :
    Good q (raiseEvent s k) := by
  unfold raiseEvent
  try dsimp only
  repeat' first
    | with_reducible assumption
    | with_reducible apply sysMod_good
    | split
    | exact fun _ hx => hx
    | intro _

theorem setCval_good {q : List Instr} {s : State} (g : Nat) (v : Word) (h : Good q s) :
    Good q (setCval s g v) := by
  unfold setCval
  try dsimp only
  repeat' first
    | with_reducible assumption
    | with_reducible apply cntMod_good
    | split
    | exact fun _ hx => hx
    | intro _

theorem setCovf_good {q : List Instr} {s : State} (g : Nat) (v : Bool) (h : Good q s) :
    Good q (setCovf s g v) := by
  unfold setCovf
  try dsimp only
  repeat' first
    | with_reducible assumption
    | with_reducible apply cntMod_good
    | split
    | exact fun _ hx => hx
    | intro _

theorem raiseOvf_good {q : List Instr} {s : State} (g : Nat) (h : Good q s) :
    Good q (raiseOvf s g) := by
  unfold raiseOvf
  try dsimp only
  repeat' first
    | with_reducible assumption
    | with_reducible apply setCovf_good
    | with_reducible apply raiseEvent_good
    | split
    | exact fun _ hx => hx
    | intro _

theorem stepCounter_good {q : List Instr} {s : State} (b : Blk) (k : Nat) (h : Good q s) :
    Good q (stepCounter s b k) := by
  unfold stepCounter
  try dsimp only
  repeat' first
    | with_reducible assumption
    | with_reducible apply raiseOvf_good
    | with_reducible apply setCval_good
    | split
    | exact fun _ hx => hx
    | intro _

theorem bump_good {q : List Instr} {s : State} (b : Blk) (code : Nat) (h : Good q s) :
    Good q (bump s b code) := by
  unfold bump
  try dsimp only
  repeat' first
    | with_reducible assumption
    | with_reducible apply stepCounter_good
    | with_reducible apply Good.foldl
    | split
    | exact fun _ hx => hx
    | intro _

theorem bumpN_good {q : List Instr} {x2 : State} (x1 : Nat) (x3 : Blk) (x4 : Nat) (h : Good q x2) :
    Good q (bumpN x1 x2 x3 x4) := by
  induction x1 generalizing x2 x3 x4 with
  | zero => exact h
  | succ n ih =>
    unfold bumpN
    try dsimp only
    repeat' first
      | with_reducible assumption
      | with_reducible apply bump_good
      | with_reducible apply ih
      | split
      | exact fun _ hx => hx
      | intro _

theorem sendPkt_good {q : List Instr} {s : State} (node : BitVec 7) (net : Net) (p : Pkt) (h : Good q s) :
    Good q (sendPkt s node net p) := by
  unfold sendPkt
  try dsimp only
  repeat' first
    | with_reducible assumption
    | with_reducible apply nodeMod_good
    | split
    | exact fun _ hx => hx
    | intro _

theorem respond_good {q : List Instr} {s : State} (x2 : Pkt) (st : Status) (ds : List DataUnit) (h : Good q s) :
    Good q (respond s x2 st ds) := by
  unfold respond
  try dsimp only
  repeat' first
    | with_reducible assumption
    | with_reducible apply sendPkt_good
    | split
    | exact fun _ hx => hx
    | intro _

theorem rxDrop_good {q : List Instr} {s : State} (node : BitVec 7) (net : Net) (h : Good q s) :
    Good q (rxDrop s node net) := by
  unfold rxDrop
  try dsimp only
  repeat' first
    | with_reducible assumption
    | with_reducible apply nodeMod_good
    | split
    | exact fun _ hx => hx
    | intro _

theorem poolSet_good {q : List Instr} {s : State} (x2 : Holder) (p : TagPool) (h : Good q s) :
    Good q (poolSet s x2 p) := by
  unfold poolSet
  try dsimp only
  repeat' first
    | with_reducible assumption
    | with_reducible apply sysMod_good
    | with_reducible apply portMod_good
    | split
    | exact fun _ hx => hx
    | intro _

theorem agentPump_good {q : List Instr} {x2 : State} (x1 : Nat) (h : Good q x2) :
    Good q (agentPump x1 x2) := by
  induction x1 generalizing x2 with
  | zero => exact h
  | succ n ih =>
    unfold agentPump
    try dsimp only
    repeat' first
      | with_reducible assumption
      | with_reducible apply sendPkt_good
      | with_reducible apply sysMod_good
      | with_reducible apply bump_good
      | with_reducible apply ih
      | split
      | exact fun _ hx => hx
      | intro _

theorem agentSend_good {q : List Instr} {s : State} (dchip : Byte) (dnode : BitVec 7) (op : Op) (addr : BitVec 30) (data : List DataUnit) (use : TagUse) (h : Good q s) :
    Good q (agentSend s dchip dnode op addr data use) := by
  unfold agentSend
  try dsimp only
  repeat' first
    | with_reducible assumption
    | with_reducible apply agentPump_good
    | with_reducible apply sysMod_good
    | split
    | exact fun _ hx => hx
    | intro _

end Sys2Proof.Machine
end

