-- ==== Sys2Proof/Laws/KeepJournal.lean ====
section
/-!
SUPPORT. The queue and the invariant through the definitions of Machine/Journal.lean (see Laws/Good.lean).
-/
set_option linter.all false

namespace Sys2Proof.Machine

theorem stage_good {q : List Instr} {s : State} (e : Entry) (h : Good q s) :
    Good q (stage s e) := by
  unfold stage
  try dsimp only
  repeat' first
    | with_reducible assumption
    | with_reducible apply jrnMod_good
    | with_reducible apply bump_good
    | split
    | exact fun _ hx => hx
    | intro _

theorem jPut_good {q : List Instr} {s : State} (kind : BitVec 3) (chip : Byte) (cid : Byte) (tid : Half) (v : Word) (h : Good q s) :
    Good q (jPut s kind chip cid tid v) := by
  unfold jPut
  try dsimp only
  repeat' first
    | with_reducible assumption
    | with_reducible apply jrnMod_good
    | with_reducible apply stage_good
    | split
    | exact fun _ hx => hx
    | intro _

theorem jOrigin_good {q : List Instr} {s : State} (o : Origin) (tid : Half) (v : Word) (h : Good q s) :
    Good q (jOrigin s o tid v) := by
  unfold jOrigin
  try dsimp only
  repeat' first
    | with_reducible assumption
    | with_reducible apply jPut_good
    | split
    | exact fun _ hx => hx
    | intro _

theorem jHw_good {q : List Instr} {s : State} (kind : BitVec 3) (tid : Half) (v : Word) (anchor : Bool) (h : Good q s) :
    Good q (jHw s kind tid v anchor) := by
  unfold jHw
  try dsimp only
  repeat' first
    | with_reducible assumption
    | with_reducible apply jrnMod_good
    | with_reducible apply stage_good
    | split
    | exact fun _ hx => hx
    | intro _

theorem anchor_good {q : List Instr} {s : State} (reason : Nat) (h : Good q s) :
    Good q (anchor s reason) := by
  unfold anchor
  try dsimp only
  repeat' first
    | with_reducible assumption
    | with_reducible apply jHw_good
    | split
    | exact fun _ hx => hx
    | intro _

theorem faultBell_good {q : List Instr} {s : State} (src : Nat) (h : Good q s) :
    Good q (faultBell s src) := by
  unfold faultBell
  try dsimp only
  repeat' first
    | with_reducible assumption
    | with_reducible apply agentSend_good
    | with_reducible apply sysMod_good
    | split
    | exact fun _ hx => hx
    | intro _

theorem faultApply_good {q : List Instr} {s : State} (f : FaultRaise) (h : Good q s) :
    Good q (faultApply s f) := by
  unfold faultApply
  try dsimp only
  repeat' first
    | with_reducible assumption
    | with_reducible apply raiseEvent_good
    | with_reducible apply faultBell_good
    | with_reducible apply bump_good
    | with_reducible apply jHw_good
    | with_reducible apply faultSet_good
    | split
    | exact fun _ hx => hx
    | intro _

theorem raiseFault_good {q : List Instr} {s : State} (src : Nat) (code : BitVec 5) (detail : Half) (h : Good q s) :
    Good q (raiseFault s src code detail) := by
  unfold raiseFault
  try dsimp only
  repeat' first
    | with_reducible assumption
    | with_reducible apply jrnMod_good
    | with_reducible apply faultApply_good
    | split
    | exact fun _ hx => hx
    | intro _

theorem admitHw_good {q : List Instr} {x2 : State} (x1 : Nat) (h : Good q x2) :
    Good q (admitHw x1 x2) := by
  induction x1 generalizing x2 with
  | zero => exact h
  | succ n ih =>
    unfold admitHw
    try dsimp only
    repeat' first
      | with_reducible assumption
      | with_reducible apply faultApply_good
      | with_reducible apply stage_good
      | with_reducible apply jrnMod_good
      | with_reducible apply ih
      | split
      | exact fun _ hx => hx
      | intro _

theorem arrPut_good {q : List Instr} {s : State} (i : Nat) (w : BitVec 128) (h : Good q s) :
    Good q (arrPut s i w) := by
  unfold arrPut
  try dsimp only
  repeat' first
    | with_reducible assumption
    | with_reducible apply jrnMod_good
    | split
    | exact fun _ hx => hx
    | intro _

theorem headAdvance_good {q : List Instr} {s : State} (h : Good q s) :
    Good q (headAdvance s) := by
  unfold headAdvance
  try dsimp only
  repeat' first
    | with_reducible assumption
    | with_reducible apply raiseEvent_good
    | with_reducible apply jrnMod_good
    | split
    | exact fun _ hx => hx
    | intro _

theorem journalScan_good {q : List Instr} {s : State} (h : Good q s) :
    Good q (journalScan s) := by
  unfold journalScan
  try dsimp only
  repeat' first
    | with_reducible assumption
    | with_reducible apply jrnMod_good
    | split
    | exact fun _ hx => hx
    | intro _

theorem freeDraw_good {q : List Instr} {s : State} (h : Good q s) :
    Good q (freeDraw s).2 := by
  exact h

end Sys2Proof.Machine
end

