-- ==== Sys2Proof/Laws/KeepGateway.lean ====
section
/-!
SUPPORT. The queue and the invariant through the definitions of Machine/Gateway.lean (see Laws/Good.lean).
-/
set_option linter.all false

namespace Sys2Proof.Machine

theorem gwTx_good {q : List Instr} {s : State} (g : Ring) (ts : List (BitVec 17)) (h : Good q s) :
    Good q (gwTx s g ts) := by
  unfold gwTx
  try dsimp only
  repeat' first
    | with_reducible assumption
    | with_reducible apply gateMod_good
    | split
    | exact fun _ hx => hx
    | intro _

theorem gwCtl_good {q : List Instr} {s : State} (g : Ring) (code : BitVec 3) (msg : BitVec 4) (arg : Byte) (h : Good q s) :
    Good q (gwCtl s g code msg arg) := by
  unfold gwCtl
  try dsimp only
  repeat' first
    | with_reducible assumption
    | with_reducible apply gwTx_good
    | split
    | exact fun _ hx => hx
    | intro _

theorem gwRing_good {q : List Instr} {s : State} (g : Ring) (msg : BitVec 4) (arg : Byte) (h : Good q s) :
    Good q (gwRing s g msg arg) := by
  unfold gwRing
  try dsimp only
  repeat' first
    | with_reducible assumption
    | with_reducible apply gwCtl_good
    | split
    | exact fun _ hx => hx
    | intro _

theorem gwCredit_good {q : List Instr} {s : State} (g : Ring) (c : Nat) (h : Good q s) :
    Good q (gwCredit s g c) := by
  unfold gwCredit
  try dsimp only
  repeat' first
    | with_reducible assumption
    | with_reducible apply gwCtl_good
    | split
    | exact fun _ hx => hx
    | intro _

theorem seamGrant_good {q : List Instr} {s : State} (g : Ring) (c : Nat) (h : Good q s) :
    Good q (seamGrant s g c) := by
  unfold seamGrant
  try dsimp only
  repeat' first
    | with_reducible assumption
    | with_reducible apply gateMod_good
    | split
    | exact fun _ hx => hx
    | intro _

theorem seamSend_good {q : List Instr} {s : State} (g : Ring) (c : Nat) (h : Good q s) :
    OptAll (Good q) (seamSend s g c) := by
  unfold seamSend
  try dsimp only
  repeat' first
    | with_reducible assumption
    | with_reducible apply gwCredit_good
    | with_reducible apply bump_good
    | with_reducible apply gwTx_good
    | with_reducible apply gateMod_good
    | with_reducible apply seamGrant_good
    | with_reducible apply optAll_some
    | with_reducible apply optAll_none
    | split
    | exact fun _ hx => hx
    | intro _

theorem seamPump_good {q : List Instr} {x2 : State} (x1 : Nat) (x3 : Ring) (h : Good q x2) :
    Good q (seamPump x1 x2 x3) := by
  induction x1 generalizing x2 x3 with
  | zero => exact h
  | succ n ih =>
    unfold seamPump
    try dsimp only
    repeat' first
      | with_reducible assumption
      | with_reducible apply seamSend_good
      | with_reducible apply optAll_findSome
      | with_reducible apply ih
      | split
      | exact fun _ hx => hx
      | intro _
      | with_reducible refine optAll_get (by with_reducible assumption) ?_

theorem seamPumps_good {q : List Instr} {s : State} (h : Good q s) :
    Good q (seamPumps s) := by
  unfold seamPumps
  try dsimp only
  repeat' first
    | with_reducible assumption
    | with_reducible apply seamPump_good
    | split
    | exact fun _ hx => hx
    | intro _

theorem meshFromSeam_good {q : List Instr} {s : State} (g : Ring) (c : Nat) (h : Good q s) :
    Good q (meshFromSeam s g c) := by
  unfold meshFromSeam
  try dsimp only
  repeat' first
    | with_reducible assumption
    | with_reducible apply nodeMod_good
    | with_reducible apply gwCredit_good
    | with_reducible apply gateMod_good
    | split
    | exact fun _ hx => hx
    | intro _

theorem meshFromSeams_good {q : List Instr} {s : State} (g : Ring) (h : Good q s) :
    Good q (meshFromSeams s g) := by
  unfold meshFromSeams
  try dsimp only
  repeat' first
    | with_reducible assumption
    | with_reducible apply meshFromSeam_good
    | with_reducible apply Good.foldl
    | split
    | exact fun _ hx => hx
    | intro _

theorem gwTake_good {q : List Instr} {s : State} (g : Ring) (net : Net) (u : LinkUnit) (h : Good q s) :
    Good q (gwTake s g net u) := by
  unfold gwTake
  try dsimp only
  repeat' first
    | with_reducible assumption
    | with_reducible apply seamPump_good
    | with_reducible apply bump_good
    | with_reducible apply gateMod_good
    | split
    | exact fun _ hx => hx
    | intro _

end Sys2Proof.Machine
end

