-- ==== Sys2Proof/Laws/KeepFabric.lean ====
section
/-!
SUPPORT. The queue and the invariant through the definitions of Machine/Fabric.lean (see Laws/Good.lean).
-/
set_option linter.all false

namespace Sys2Proof.Machine

theorem absorbUnit_good {q : List Instr} {s : State} (net : Net) (r : Nat) (d : Dir) (a : Absorb) (u : LinkUnit) (h : Good q s) :
    Good q (absorbUnit s net r d a u) := by
  unfold absorbUnit
  try dsimp only
  repeat' first
    | with_reducible assumption
    | with_reducible apply respond_good
    | with_reducible apply rinSet_good
    | split
    | exact fun _ hx => hx
    | intro _

theorem routerTake_good {q : List Instr} {s : State} (net : Net) (r : Nat) (d : Dir) (u : LinkUnit) (prevGood : Bool) (h : Good q s) :
    Good q (routerTake s net r d u prevGood) := by
  unfold routerTake
  try dsimp only
  repeat' first
    | with_reducible assumption
    | with_reducible apply rinSet_good
    | with_reducible apply absorbUnit_good
    | with_reducible apply raiseFault_good
    | with_reducible apply bump_good
    | split
    | exact fun _ hx => hx
    | intro _

theorem nodeArrive_good {q : List Instr} {s : State} (node : BitVec 7) (net : Net) (p : Pkt) (h : Good q s) :
    Good q (nodeArrive s node net p) := by
  unfold nodeArrive
  try dsimp only
  repeat' first
    | with_reducible assumption
    | with_reducible apply respond_good
    | with_reducible apply nodeMod_good
    | split
    | exact fun _ hx => hx
    | intro _

theorem nodeTake_good {q : List Instr} {s : State} (node : BitVec 7) (net : Net) (u : LinkUnit) (h : Good q s) :
    Good q (nodeTake s node net u) := by
  unfold nodeTake
  try dsimp only
  repeat' first
    | with_reducible assumption
    | with_reducible apply nodeArrive_good
    | with_reducible apply nodeSet_good
    | with_reducible apply bump_good
    | split
    | exact fun _ hx => hx
    | intro _

theorem shake_good {q : List Instr} {s : State} (net : Net) (r : Nat) (d : Dir) (h : Good q s) :
    Good q (shake s net r d) := by
  unfold shake
  try dsimp only
  repeat' first
    | with_reducible assumption
    | with_reducible apply delaySet_good
    | split
    | exact fun _ hx => hx
    | intro _

theorem rinLeave_good {q : List Instr} {s : State} (net : Net) (r : Nat) (d : Dir) (out : ArbName) (h : Good q s) :
    Good q (rinLeave s net r d out) := by
  unfold rinLeave
  try dsimp only
  repeat' first
    | with_reducible assumption
    | with_reducible apply rinSet_good
    | with_reducible apply arbSet_good
    | split
    | exact fun _ hx => hx
    | intro _

theorem watchPump_good {q : List Instr} {s : State} (n : Nat) (h : Good q s) :
    Good q (watchPump s n) := by
  unfold watchPump
  try dsimp only
  repeat' first
    | with_reducible assumption
    | with_reducible apply portMod_good
    | with_reducible apply sendPkt_good
    | split
    | exact fun _ hx => hx
    | intro _

theorem transferInject_good {q : List Instr} {s : State} (net : Net) (node : BitVec 7) (noise : BitVec 49) (h : Good q s) :
    Good q (transferInject s net node noise) := by
  unfold transferInject
  try dsimp only
  repeat' first
    | with_reducible assumption
    | with_reducible apply watchPump_good
    | with_reducible apply meshFromSeams_good
    | with_reducible apply arbSet_good
    | with_reducible apply routerTake_good
    | with_reducible apply bump_good
    | with_reducible apply nodeMod_good
    | split
    | exact fun _ hx => hx
    | (show domOk _ _; assumption)
    | intro _
    | omega

theorem transferHop_good {q : List Instr} {s : State} (net : Net) (r : Nat) (out : Dir) (noise : BitVec 49) (h : Good q s) :
    Good q (transferHop s net r out noise) := by
  unfold transferHop
  try dsimp only
  repeat' first
    | with_reducible assumption
    | with_reducible apply routerTake_good
    | with_reducible apply bump_good
    | with_reducible apply shake_good
    | with_reducible apply rinLeave_good
    | split
    | exact fun _ hx => hx
    | intro _

theorem transferDeliver_good {q : List Instr} {s : State} (net : Net) (r : Nat) (slotB : Bool) (noise : BitVec 49) (h : Good q s) :
    Good q (transferDeliver s net r slotB noise) := by
  unfold transferDeliver
  try dsimp only
  repeat' first
    | with_reducible assumption
    | with_reducible apply nodeTake_good
    | with_reducible apply gwTake_good
    | with_reducible apply bump_good
    | with_reducible apply shake_good
    | with_reducible apply rinLeave_good
    | split
    | exact fun _ hx => hx
    | intro _

theorem execUnitTransfer_good {q : List Instr} {s : State} (l : Link) (noise : BitVec 49) (h : Good q s) :
    OutAll (Good q) (execUnitTransfer l noise s) := by
  unfold execUnitTransfer
  try dsimp only
  repeat' first
    | with_reducible assumption
    | with_reducible apply transferDeliver_good
    | with_reducible apply transferHop_good
    | with_reducible apply transferInject_good
    | with_reducible apply outAll_next
    | with_reducible apply outAll_fault
    | with_reducible apply outAll_refused
    | split
    | exact fun _ hx => hx
    | intro _

theorem swallow_good {q : List Instr} {s : State} (node : BitVec 7) (net : Net) (d : BitVec 48) (h : Good q s) :
    Good q (swallow s node net d) := by
  unfold swallow
  try dsimp only
  repeat' first
    | with_reducible assumption
    | with_reducible apply portMod_good
    | split
    | exact fun _ hx => hx
    | intro _

theorem headDiscard_good {q : List Instr} {s : State} (net : Net) (r : Nat) (inp : Dir) (u : LinkUnit) (h : Good q s) :
    Good q (headDiscard s net r inp u) := by
  unfold headDiscard
  try dsimp only
  repeat' first
    | with_reducible assumption
    | with_reducible apply bump_good
    | with_reducible apply raiseFault_good
    | with_reducible apply rinSet_good
    | split
    | exact fun _ hx => hx
    | intro _

theorem headAbsorb_good {q : List Instr} {s : State} (net : Net) (r : Nat) (inp : Dir) (u : LinkUnit) (node : BitVec 7) (ans : Option Status) (h : Good q s) :
    Good q (headAbsorb s net r inp u node ans) := by
  unfold headAbsorb
  try dsimp only
  repeat' first
    | with_reducible assumption
    | with_reducible apply bump_good
    | with_reducible apply swallow_good
    | with_reducible apply rinSet_good
    | split
    | exact fun _ hx => hx
    | intro _

theorem headRoute_good {q : List Instr} {s : State} (net : Net) (r : Nat) (inp : Dir) (u : LinkUnit) (rt : Route) (h : Good q s) :
    Good q (headRoute s net r inp u rt) := by
  unfold headRoute
  try dsimp only
  repeat' first
    | with_reducible assumption
    | with_reducible apply arbSet_good
    | with_reducible apply bump_good
    | with_reducible apply rinSet_good
    | split
    | exact fun _ hx => hx
    | intro _

theorem execRouterHeadArrival_good {q : List Instr} {s : State} (net : Net) (r : Fin 64) (inp : Dir) (h : Good q s) :
    OutAll (Good q) (execRouterHeadArrival net r inp s) := by
  unfold execRouterHeadArrival
  try dsimp only
  repeat' first
    | with_reducible assumption
    | with_reducible apply headAbsorb_good
    | with_reducible apply headRoute_good
    | with_reducible apply headDiscard_good
    | with_reducible apply outAll_next
    | with_reducible apply outAll_fault
    | with_reducible apply outAll_refused
    | split
    | exact fun _ hx => hx
    | intro _

theorem grantAt_good {q : List Instr} {s : State} (net : Net) (r : Nat) (arb : ArbName) (mask : BitVec 5) (h : Good q s) :
    Good q (grantAt s net r arb mask) := by
  unfold grantAt
  try dsimp only
  repeat' first
    | with_reducible assumption
    | with_reducible apply bump_good
    | with_reducible apply arbSet_good
    | with_reducible apply Good.foldl
    | split
    | exact fun _ hx => hx
    | intro _

theorem execOutputGrant_good {q : List Instr} {s : State} (net : Net) (r : Fin 64) (arb : ArbName) (mask : BitVec 5) (h : Good q s) :
    OutAll (Good q) (execOutputGrant net r arb mask s) := by
  unfold execOutputGrant
  try dsimp only
  repeat' first
    | with_reducible assumption
    | with_reducible apply grantAt_good
    | with_reducible apply outAll_next
    | with_reducible apply outAll_fault
    | with_reducible apply outAll_refused
    | split
    | exact fun _ hx => hx
    | intro _

theorem execBulkPromotion_good {q : List Instr} {s : State} (net : Net) (r : Fin 64) (arb : ArbName) (cand : Fin 5) (h : Good q s) :
    OutAll (Good q) (execBulkPromotion net r arb cand s) := by
  unfold execBulkPromotion
  try dsimp only
  repeat' first
    | with_reducible assumption
    | with_reducible apply arbSet_good
    | with_reducible apply bump_good
    | with_reducible apply outAll_next
    | with_reducible apply outAll_fault
    | with_reducible apply outAll_refused
    | split
    | exact fun _ hx => hx
    | intro _

theorem execDelayLineSwap_good {q : List Instr} {s : State} (r : Fin 64) (tap : BitVec 6) (h : Good q s) :
    OutAll (Good q) (execDelayLineSwap r tap s) := by
  unfold execDelayLineSwap
  try dsimp only
  repeat' first
    | with_reducible assumption
    | with_reducible apply delaySet_good
    | with_reducible apply outAll_next
    | with_reducible apply outAll_fault
    | with_reducible apply outAll_refused
    | split
    | exact fun _ hx => hx
    | (show domOk _ _; assumption)
    | intro _
    | omega

theorem isoReload_good {q : List Instr} {s : State} (n : Nat) (h : Good q s) :
    Good q (isoReload s n) := by
  unfold isoReload
  try dsimp only
  repeat' first
    | with_reducible assumption
    | with_reducible apply portMod_good
    | with_reducible apply bump_good
    | split
    | exact fun _ hx => hx
    | intro _

theorem execIsoFrameBoundary_good {q : List Instr} {s : State} (h : Good q s) :
    OutAll (Good q) (execIsoFrameBoundary s) := by
  unfold execIsoFrameBoundary
  try dsimp only
  repeat' first
    | with_reducible assumption
    | with_reducible apply isoReload_good
    | with_reducible apply timeMod_good
    | with_reducible apply Good.foldl
    | with_reducible apply outAll_next
    | with_reducible apply outAll_fault
    | with_reducible apply outAll_refused
    | split
    | exact fun _ hx => hx
    | intro _

end Sys2Proof.Machine
end

