-- ==== Sys2Proof/Laws/KeepAccess.lean ====
section
/-!
SUPPORT. The queue and the invariant through the definitions of Machine/Access.lean (see Laws/Good.lean).
-/
set_option linter.all false

namespace Sys2Proof.Machine

theorem portFail_good {q : List Instr} {s : State} (n : Nat) (st : Status) (addr : BitVec 24) (h : Good q s) :
    Good q (portFail s n st addr) := by
  unfold portFail
  try dsimp only
  repeat' first
    | with_reducible assumption
    | with_reducible apply bump_good
    | with_reducible apply portMod_good
    | split
    | exact fun _ hx => hx
    | intro _

theorem devEnd_good {q : List Instr} {s : State} (n : Nat) (a : Access) (st : Status) (rdata : List Byte) (h : Good q s) :
    Good q (devEnd s n a st rdata) := by
  unfold devEnd
  try dsimp only
  repeat' first
    | with_reducible assumption
    | with_reducible apply portMod_good
    | split
    | exact fun _ hx => hx
    | intro _

theorem accessFail_good {q : List Instr} {s : State} (n : Nat) (a : Access) (st : Status) (h : Good q s) :
    Good q (accessFail s n a st) := by
  unfold accessFail
  try dsimp only
  repeat' first
    | with_reducible assumption
    | with_reducible apply portFail_good
    | with_reducible apply devEnd_good
    | split
    | exact fun _ hx => hx
    | intro _

theorem intakePut_good {q : List Instr} {s : State} (n : Nat) (a : Access) (h : Good q s) :
    Good q (intakePut s n a) := by
  unfold intakePut
  try dsimp only
  repeat' first
    | with_reducible assumption
    | with_reducible apply bump_good
    | with_reducible apply portMod_good
    | split
    | exact fun _ hx => hx
    | intro _

theorem intakeDrop_good {q : List Instr} {s : State} (n : Nat) (h : Good q s) :
    Good q (intakeDrop s n) := by
  unfold intakeDrop
  try dsimp only
  repeat' first
    | with_reducible assumption
    | with_reducible apply intakePut_good
    | with_reducible apply portMod_good
    | split
    | exact fun _ hx => hx
    | intro _

theorem accessStart_good {q : List Instr} {s : State} (n : Nat) (a : Access) (h : Good q s) :
    Good q (accessStart s n a) := by
  unfold accessStart
  try dsimp only
  repeat' first
    | with_reducible assumption
    | with_reducible apply intakePut_good
    | with_reducible apply accessFail_good
    | with_reducible apply portMod_good
    | split
    | exact fun _ hx => hx
    | (show domOk _ _; assumption)
    | intro _
    | omega

theorem portSend_good {q : List Instr} {s : State} (n : Nat) (t : Byte) (dchip : Byte) (dnode : BitVec 7) (cls : BitVec 2) (cid : Byte) (x8 : Part) (wake : Bool) (use : TagUse) (h : Good q s) :
    Good q (portSend s n t dchip dnode cls cid x8 wake use) := by
  unfold portSend
  try dsimp only
  repeat' first
    | with_reducible assumption
    | with_reducible apply portMod_good
    | with_reducible apply sendPkt_good
    | split
    | exact fun _ hx => hx
    | intro _

theorem wakeAsk_good {q : List Instr} {s : State} (n : Nat) (tag : Byte) (x : Tag) (cid : Byte) (h : Good q s) :
    Good q (wakeAsk s n tag x cid) := by
  unfold wakeAsk
  try dsimp only
  repeat' first
    | with_reducible assumption
    | with_reducible apply portSend_good
    | with_reducible apply bump_good
    | split
    | exact fun _ hx => hx
    | intro _

theorem latchWrite_good {q : List Instr} {s : State} (n : Nat) (a : Access) (h : Good q s) :
    Good q (latchWrite s n a) := by
  unfold latchWrite
  try dsimp only
  repeat' first
    | with_reducible assumption
    | with_reducible apply portMod_good
    | with_reducible apply devEnd_good
    | split
    | exact fun _ hx => hx
    | intro _

theorem sendClaim_good {q : List Instr} {s : State} (n : Nat) (cid : Byte) (h : Good q s) :
    Good q (sendClaim s n cid) := by
  unfold sendClaim
  try dsimp only
  repeat' first
    | with_reducible assumption
    | with_reducible apply sendPkt_good
    | with_reducible apply sysMod_good
    | with_reducible apply portMod_good
    | with_reducible apply bump_good
    | split
    | exact fun _ hx => hx
    | intro _

theorem isoSpend_good {q : List Instr} {s : State} (n : Nat) (cost : Nat) (h : Good q s) :
    Good q (isoSpend s n cost) := by
  unfold isoSpend
  try dsimp only
  repeat' first
    | with_reducible assumption
    | with_reducible apply portMod_good
    | with_reducible apply bump_good
    | split
    | exact fun _ hx => hx
    | intro _

theorem frontSend_good {q : List Instr} {s : State} (n : Nat) (a : Access) (f : Front) (h : Good q s) :
    Good q (frontSend s n a f) := by
  unfold frontSend
  try dsimp only
  repeat' first
    | with_reducible assumption
    | with_reducible apply portMod_good
    | with_reducible apply portSend_good
    | with_reducible apply isoSpend_good
    | with_reducible apply bump_good
    | with_reducible apply intakeDrop_good
    | split
    | exact fun _ hx => hx
    | intro _

theorem frontOpen_good {q : List Instr} {s : State} (n : Nat) (a : Access) (f : Front) (faddr : BitVec 32) (h : Good q s) :
    Good q (frontOpen s n a f faddr) := by
  unfold frontOpen
  try dsimp only
  repeat' first
    | with_reducible assumption
    | with_reducible apply bump_good
    | with_reducible apply portMod_good
    | split
    | exact fun _ hx => hx
    | intro _

theorem execIntakeDecode_good {q : List Instr} {s : State} (n : Fin 64) (h : Good q s) :
    OutAll (Good q) (execIntakeDecode n s) := by
  unfold execIntakeDecode
  try dsimp only
  repeat' first
    | with_reducible assumption
    | with_reducible apply frontOpen_good
    | with_reducible apply sendClaim_good
    | with_reducible apply latchWrite_good
    | with_reducible apply intakeDrop_good
    | with_reducible apply accessFail_good
    | with_reducible apply bump_good
    | with_reducible apply frontSend_good
    | with_reducible apply outAll_next
    | with_reducible apply outAll_fault
    | with_reducible apply outAll_refused
    | split
    | exact fun _ hx => hx
    | (show domOk _ _; assumption)
    | intro _
    | omega

theorem execAccessCapture_good {q : List Instr} {s : State} (n : Fin 64) (acc : PinAccess) (h : Good q s) :
    OutAll (Good q) (execAccessCapture n acc s) := by
  unfold execAccessCapture
  try dsimp only
  repeat' first
    | with_reducible assumption
    | with_reducible apply accessStart_good
    | with_reducible apply portFail_good
    | with_reducible apply portMod_good
    | with_reducible apply outAll_next
    | with_reducible apply outAll_fault
    | with_reducible apply outAll_refused
    | split
    | exact fun _ hx => hx
    | (show domOk _ _; assumption)
    | intro _
    | omega

theorem execStrobeRelease_good {q : List Instr} {s : State} (n : Fin 64) (h : Good q s) :
    OutAll (Good q) (execStrobeRelease n s) := by
  unfold execStrobeRelease
  try dsimp only
  repeat' first
    | with_reducible assumption
    | with_reducible apply portMod_good
    | with_reducible apply outAll_next
    | with_reducible apply outAll_fault
    | with_reducible apply outAll_refused
    | split
    | exact fun _ hx => hx
    | intro _

theorem syncStart_good {q : List Instr} {s : State} (n : Nat) (c1 : Beat) (c2 : Beat) (k : AccKind) (len : Nat) (beats : List Beat) (h : Good q s) :
    Good q (syncStart s n c1 c2 k len beats) := by
  unfold syncStart
  try dsimp only
  repeat' first
    | with_reducible assumption
    | with_reducible apply accessStart_good
    | split
    | exact fun _ hx => hx
    | intro _

theorem execSync16Read_good {q : List Instr} {s : State} (n : Fin 64) (c1 : Beat) (c2 : Beat) (h : Good q s) :
    OutAll (Good q) (execSync16Read n c1 c2 s) := by
  unfold execSync16Read
  try dsimp only
  repeat' first
    | with_reducible assumption
    | with_reducible apply syncStart_good
    | with_reducible apply outAll_next
    | with_reducible apply outAll_fault
    | with_reducible apply outAll_refused
    | split
    | exact fun _ hx => hx
    | intro _

theorem execSync16Write_good {q : List Instr} {s : State} (n : Fin 64) (c1 : Beat) (c2 : Beat) (beats : List Beat) (h : Good q s) :
    OutAll (Good q) (execSync16Write n c1 c2 beats s) := by
  unfold execSync16Write
  try dsimp only
  repeat' first
    | with_reducible assumption
    | with_reducible apply syncStart_good
    | with_reducible apply outAll_next
    | with_reducible apply outAll_fault
    | with_reducible apply outAll_refused
    | split
    | exact fun _ hx => hx
    | intro _

theorem execSync16Swap_good {q : List Instr} {s : State} (n : Fin 64) (c1 : Beat) (c2 : Beat) (o1 : Beat) (o2 : Beat) (h : Good q s) :
    OutAll (Good q) (execSync16Swap n c1 c2 o1 o2 s) := by
  unfold execSync16Swap
  try dsimp only
  repeat' first
    | with_reducible assumption
    | with_reducible apply syncStart_good
    | with_reducible apply outAll_next
    | with_reducible apply outAll_fault
    | with_reducible apply outAll_refused
    | split
    | exact fun _ hx => hx
    | intro _

theorem execSync16Fadd_good {q : List Instr} {s : State} (n : Fin 64) (c1 : Beat) (c2 : Beat) (o1 : Beat) (o2 : Beat) (h : Good q s) :
    OutAll (Good q) (execSync16Fadd n c1 c2 o1 o2 s) := by
  unfold execSync16Fadd
  try dsimp only
  repeat' first
    | with_reducible assumption
    | with_reducible apply syncStart_good
    | with_reducible apply outAll_next
    | with_reducible apply outAll_fault
    | with_reducible apply outAll_refused
    | split
    | exact fun _ hx => hx
    | intro _

theorem execSync16Tas_good {q : List Instr} {s : State} (n : Fin 64) (c1 : Beat) (c2 : Beat) (h : Good q s) :
    OutAll (Good q) (execSync16Tas n c1 c2 s) := by
  unfold execSync16Tas
  try dsimp only
  repeat' first
    | with_reducible assumption
    | with_reducible apply syncStart_good
    | with_reducible apply outAll_next
    | with_reducible apply outAll_fault
    | with_reducible apply outAll_refused
    | split
    | exact fun _ hx => hx
    | intro _

theorem execSync16Cas_good {q : List Instr} {s : State} (n : Fin 64) (c1 : Beat) (c2 : Beat) (o1 : Beat) (o2 : Beat) (o3 : Beat) (o4 : Beat) (h : Good q s) :
    OutAll (Good q) (execSync16Cas n c1 c2 o1 o2 o3 o4 s) := by
  unfold execSync16Cas
  try dsimp only
  repeat' first
    | with_reducible assumption
    | with_reducible apply syncStart_good
    | with_reducible apply outAll_next
    | with_reducible apply outAll_fault
    | with_reducible apply outAll_refused
    | split
    | exact fun _ hx => hx
    | intro _

theorem execSync16Fence_good {q : List Instr} {s : State} (n : Fin 64) (c1 : Beat) (c2 : Beat) (h : Good q s) :
    OutAll (Good q) (execSync16Fence n c1 c2 s) := by
  unfold execSync16Fence
  try dsimp only
  repeat' first
    | with_reducible assumption
    | with_reducible apply syncStart_good
    | with_reducible apply outAll_next
    | with_reducible apply outAll_fault
    | with_reducible apply outAll_refused
    | split
    | exact fun _ hx => hx
    | intro _

theorem execSync16Probe_good {q : List Instr} {s : State} (n : Fin 64) (c1 : Beat) (c2 : Beat) (h : Good q s) :
    OutAll (Good q) (execSync16Probe n c1 c2 s) := by
  unfold execSync16Probe
  try dsimp only
  repeat' first
    | with_reducible assumption
    | with_reducible apply syncStart_good
    | with_reducible apply outAll_next
    | with_reducible apply outAll_fault
    | with_reducible apply outAll_refused
    | split
    | exact fun _ hx => hx
    | intro _

theorem execSync16ReservedOp_good {q : List Instr} {s : State} (n : Fin 64) (c1 : Beat) (c2 : Beat) (h : Good q s) :
    OutAll (Good q) (execSync16ReservedOp n c1 c2 s) := by
  unfold execSync16ReservedOp
  try dsimp only
  repeat' first
    | with_reducible assumption
    | with_reducible apply portFail_good
    | with_reducible apply portMod_good
    | with_reducible apply outAll_next
    | with_reducible apply outAll_fault
    | with_reducible apply outAll_refused
    | split
    | exact fun _ hx => hx
    | (show domOk _ _; assumption)
    | intro _
    | omega

theorem accPart_good {q : List Instr} {s : State} (n : Nat) (id : Nat) (part : Nat) (st : Status) (ws : List Word) (h : Good q s) :
    Good q (accPart s n id part st ws) := by
  unfold accPart
  try dsimp only
  repeat' first
    | with_reducible assumption
    | with_reducible apply devEnd_good
    | with_reducible apply portMod_good
    | split
    | exact fun _ hx => hx
    | intro _

theorem claimDone_good {q : List Instr} {s : State} (n : Nat) (cid : Byte) (st : Status) (h : Good q s) :
    Good q (claimDone s n cid st) := by
  unfold claimDone
  try dsimp only
  repeat' first
    | with_reducible assumption
    | with_reducible apply bump_good
    | with_reducible apply intakeDrop_good
    | with_reducible apply accessFail_good
    | with_reducible apply portMod_good
    | split
    | exact fun _ hx => hx
    | intro _

theorem pirqDone_good {q : List Instr} {s : State} (n : Nat) (st : Status) (h : Good q s) :
    Good q (pirqDone s n st) := by
  unfold pirqDone
  try dsimp only
  repeat' first
    | with_reducible assumption
    | with_reducible apply portMod_good
    | split
    | exact fun _ hx => hx
    | intro _

theorem portTagDone_good {q : List Instr} {s : State} (n : Nat) (t : Byte) (st : Status) (ws : List Word) (h : Good q s) :
    Good q (portTagDone s n t st ws) := by
  unfold portTagDone
  try dsimp only
  repeat' first
    | with_reducible assumption
    | with_reducible apply pirqDone_good
    | with_reducible apply claimDone_good
    | with_reducible apply accPart_good
    | with_reducible apply bump_good
    | with_reducible apply portMod_good
    | split
    | exact fun _ hx => hx
    | intro _

theorem portTagsDone_good {q : List Instr} {s : State} (n : Nat) (pick : Tag → Bool) (st : Status) (h : Good q s) :
    Good q (portTagsDone s n pick st) := by
  unfold portTagsDone
  try dsimp only
  repeat' first
    | with_reducible assumption
    | with_reducible apply portTagDone_good
    | with_reducible apply Good.foldl
    | split
    | exact fun _ hx => hx
    | intro _

theorem execStaleTagExpiry_good {q : List Instr} {s : State} (x1 : Holder) (tag : Byte) (h : Good q s) :
    OutAll (Good q) (execStaleTagExpiry x1 tag s) := by
  unfold execStaleTagExpiry
  try dsimp only
  repeat' first
    | with_reducible assumption
    | with_reducible apply poolSet_good
    | with_reducible apply outAll_next
    | with_reducible apply outAll_fault
    | with_reducible apply outAll_refused
    | split
    | exact fun _ hx => hx
    | intro _

theorem execWakeRetry_good {q : List Instr} {s : State} (n : Fin 64) (tag : Byte) (h : Good q s) :
    OutAll (Good q) (execWakeRetry n tag s) := by
  unfold execWakeRetry
  try dsimp only
  repeat' first
    | with_reducible assumption
    | with_reducible apply nodeMod_good
    | with_reducible apply isoSpend_good
    | with_reducible apply portMod_good
    | with_reducible apply bump_good
    | with_reducible apply outAll_next
    | with_reducible apply outAll_fault
    | with_reducible apply outAll_refused
    | split
    | exact fun _ hx => hx
    | intro _

end Sys2Proof.Machine
end

