-- ==== Sys2Proof/Laws/KeepTarget.lean ====
section
/-!
SUPPORT. The queue and the invariant through the definitions of Machine/Target.lean (see Laws/Good.lean).
-/
set_option linter.all false

namespace Sys2Proof.Machine

theorem turnAway_good {q : List Instr} {s : State} (n : Nat) (net : Net) (p : Pkt) (x5 : Admit) (h : Good q s) :
    Good q (turnAway s n net p x5) := by
  unfold turnAway
  try dsimp only
  repeat' first
    | with_reducible assumption
    | with_reducible apply respond_good
    | with_reducible apply bump_good
    | with_reducible apply rxDrop_good
    | split
    | exact fun _ hx => hx
    | intro _

theorem tgtStart_good {q : List Instr} {s : State} (n : Nat) (net : Net) (p : Pkt) (cs : List BusCycle) (words : List Word) (wrote : List DataUnit) (h : Good q s) :
    Good q (tgtStart s n net p cs words wrote) := by
  unfold tgtStart
  try dsimp only
  repeat' first
    | with_reducible assumption
    | with_reducible apply portMod_good
    | with_reducible apply bump_good
    | with_reducible apply rxDrop_good
    | split
    | exact fun _ hx => hx
    | intro _

theorem tgtTake_good {q : List Instr} {s : State} (n : Nat) (net : Net) (sel : Op → Bool) (busyN : Bool) (plan : Pkt → Option (List BusCycle × List Word × List DataUnit)) (h : Good q s) :
    Good q (tgtTake s n net sel busyN plan) := by
  unfold tgtTake
  try dsimp only
  repeat' first
    | with_reducible assumption
    | with_reducible apply turnAway_good
    | with_reducible apply tgtStart_good
    | with_reducible apply respond_good
    | with_reducible apply rxDrop_good
    | split
    | exact fun _ hx => hx
    | intro _

theorem portRead_good {q : List Instr} {s : State} (n : Nat) (net : Net) (busyN : Bool) (h : Good q s) :
    Good q (portRead s n net busyN) := by
  unfold portRead
  try dsimp only
  repeat' first
    | with_reducible assumption
    | with_reducible apply tgtTake_good
    | split
    | exact fun _ hx => hx
    | intro _

theorem portWrite_good {q : List Instr} {s : State} (n : Nat) (net : Net) (busyN : Bool) (h : Good q s) :
    Good q (portWrite s n net busyN) := by
  unfold portWrite
  try dsimp only
  repeat' first
    | with_reducible assumption
    | with_reducible apply tgtTake_good
    | split
    | exact fun _ hx => hx
    | intro _

theorem portAtomic_good {q : List Instr} {s : State} (n : Nat) (net : Net) (op : Op) (busyN : Bool) (dev : List DevBeat) (h : Good q s) :
    Good q (portAtomic s n net op busyN dev) := by
  unfold portAtomic
  try dsimp only
  repeat' first
    | with_reducible assumption
    | with_reducible apply tgtTake_good
    | split
    | exact fun _ hx => hx
    | intro _

theorem portProbe_good {q : List Instr} {s : State} (n : Nat) (net : Net) (h : Good q s) :
    Good q (portProbe s n net) := by
  unfold portProbe
  try dsimp only
  repeat' first
    | with_reducible assumption
    | with_reducible apply turnAway_good
    | with_reducible apply respond_good
    | with_reducible apply rxDrop_good
    | split
    | exact fun _ hx => hx
    | intro _

theorem portFence_good {q : List Instr} {s : State} (n : Nat) (net : Net) (h : Good q s) :
    Good q (portFence s n net) := by
  unfold portFence
  try dsimp only
  repeat' first
    | with_reducible assumption
    | with_reducible apply turnAway_good
    | with_reducible apply portMod_good
    | with_reducible apply rxDrop_good
    | split
    | exact fun _ hx => hx
    | intro _

theorem portFenceDone_good {q : List Instr} {s : State} (n : Nat) (h : Good q s) :
    Good q (portFenceDone s n) := by
  unfold portFenceDone
  try dsimp only
  repeat' first
    | with_reducible assumption
    | with_reducible apply portMod_good
    | with_reducible apply respond_good
    | split
    | exact fun _ hx => hx
    | intro _

theorem watchDrop_good {q : List Instr} {s : State} (n : Nat) (k : Nat) (m : Nat) (h : Good q s) :
    Good q (watchDrop s n k m) := by
  unfold watchDrop
  try dsimp only
  repeat' first
    | with_reducible assumption
    | with_reducible apply raiseEvent_good
    | with_reducible apply portMod_good
    | split
    | exact fun _ hx => hx
    | intro _

theorem sendDrop_good {q : List Instr} {s : State} (n : Nat) (h : Good q s) :
    Good q (sendDrop s n) := by
  unfold sendDrop
  try dsimp only
  repeat' first
    | with_reducible assumption
    | with_reducible apply watchDrop_good
    | with_reducible apply bump_good
    | split
    | exact fun _ hx => hx
    | intro _

theorem recvDrop_good {q : List Instr} {s : State} (n : Nat) (k : Nat) (h : Good q s) :
    Good q (recvDrop s n k) := by
  unfold recvDrop
  try dsimp only
  repeat' first
    | with_reducible assumption
    | with_reducible apply watchDrop_good
    | with_reducible apply bump_good
    | split
    | exact fun _ hx => hx
    | intro _

theorem watchNotify_good {q : List Instr} {s : State} (n : Nat) (x3 : Pkt) (wrote : List DataUnit) (h : Good q s) :
    Good q (watchNotify s n x3 wrote) := by
  unfold watchNotify
  try dsimp only
  repeat' first
    | with_reducible assumption
    | with_reducible apply portMod_good
    | with_reducible apply watchPump_good
    | with_reducible apply sendDrop_good
    | with_reducible apply Good.foldl
    | split
    | exact fun _ hx => hx
    | intro _

theorem execWatchSendTimeout_good {q : List Instr} {s : State} (n : Fin 64) (h : Good q s) :
    OutAll (Good q) (execWatchSendTimeout n s) := by
  unfold execWatchSendTimeout
  try dsimp only
  repeat' first
    | with_reducible assumption
    | with_reducible apply nodeMod_good
    | with_reducible apply sendDrop_good
    | with_reducible apply watchPump_good
    | with_reducible apply outAll_next
    | with_reducible apply outAll_fault
    | with_reducible apply outAll_refused
    | split
    | exact fun _ hx => hx
    | intro _

theorem execTargetRequestDone_good {q : List Instr} {s : State} (n : Fin 64) (dev : List DevBeat) (h : Good q s) :
    OutAll (Good q) (execTargetRequestDone n dev s) := by
  unfold execTargetRequestDone
  try dsimp only
  repeat' first
    | with_reducible assumption
    | with_reducible apply watchNotify_good
    | with_reducible apply respond_good
    | with_reducible apply portMod_good
    | with_reducible apply outAll_next
    | with_reducible apply outAll_fault
    | with_reducible apply outAll_refused
    | split
    | exact fun _ hx => hx
    | intro _

theorem execBusClaim_good {q : List Instr} {s : State} (n : Fin 64) (valid : Bool) (h : Good q s) :
    OutAll (Good q) (execBusClaim n valid s) := by
  unfold execBusClaim
  try dsimp only
  repeat' first
    | with_reducible assumption
    | with_reducible apply portMod_good
    | with_reducible apply outAll_next
    | with_reducible apply outAll_fault
    | with_reducible apply outAll_refused
    | split
    | exact fun _ hx => hx
    | intro _

theorem recordMark_good {q : List Instr} {s : State} (n : Nat) (a : BitVec 30) (h : Good q s) :
    Good q (recordMark s n a) := by
  unfold recordMark
  try dsimp only
  repeat' first
    | with_reducible assumption
    | with_reducible apply portMod_good
    | with_reducible apply bump_good
    | split
    | exact fun _ hx => hx
    | intro _

theorem replayStart_good {q : List Instr} {s : State} (n : Nat) (p : Pkt) (busyN : Bool) (h : Good q s) :
    Good q (replayStart s n p busyN) := by
  unfold replayStart
  try dsimp only
  repeat' first
    | with_reducible assumption
    | with_reducible apply portMod_good
    | with_reducible apply recvDrop_good
    | split
    | exact fun _ hx => hx
    | intro _

theorem execWatchArrival_good {q : List Instr} {s : State} (n : Fin 64) (busyN : Bool) (h : Good q s) :
    OutAll (Good q) (execWatchArrival n busyN s) := by
  unfold execWatchArrival
  try dsimp only
  repeat' first
    | with_reducible assumption
    | with_reducible apply portMod_good
    | with_reducible apply recordMark_good
    | with_reducible apply bump_good
    | with_reducible apply recvDrop_good
    | with_reducible apply rxDrop_good
    | with_reducible apply replayStart_good
    | with_reducible apply outAll_next
    | with_reducible apply outAll_fault
    | with_reducible apply outAll_refused
    | split
    | exact fun _ hx => hx
    | intro _

theorem execWatchReplayTimeout_good {q : List Instr} {s : State} (n : Fin 64) (h : Good q s) :
    OutAll (Good q) (execWatchReplayTimeout n s) := by
  unfold execWatchReplayTimeout
  try dsimp only
  repeat' first
    | with_reducible assumption
    | with_reducible apply rxDrop_good
    | with_reducible apply recvDrop_good
    | with_reducible apply outAll_next
    | with_reducible apply outAll_fault
    | with_reducible apply outAll_refused
    | split
    | exact fun _ hx => hx
    | intro _

theorem execWatchReplayDone_good {q : List Instr} {s : State} (n : Fin 64) (h : Good q s) :
    OutAll (Good q) (execWatchReplayDone n s) := by
  unfold execWatchReplayDone
  try dsimp only
  repeat' first
    | with_reducible assumption
    | with_reducible apply portMod_good
    | with_reducible apply bump_good
    | with_reducible apply outAll_next
    | with_reducible apply outAll_fault
    | with_reducible apply outAll_refused
    | split
    | exact fun _ hx => hx
    | intro _

theorem pirqSend_good {q : List Instr} {s : State} (n : Nat) (h : Good q s) :
    Good q (pirqSend s n) := by
  unfold pirqSend
  try dsimp only
  repeat' first
    | with_reducible assumption
    | with_reducible apply portSend_good
    | with_reducible apply bump_good
    | with_reducible apply portFail_good
    | with_reducible apply portMod_good
    | split
    | exact fun _ hx => hx
    | intro _

theorem execPirqActivation_good {q : List Instr} {s : State} (n : Fin 64) (h : Good q s) :
    OutAll (Good q) (execPirqActivation n s) := by
  unfold execPirqActivation
  try dsimp only
  repeat' first
    | with_reducible assumption
    | with_reducible apply portMod_good
    | with_reducible apply pirqSend_good
    | with_reducible apply outAll_next
    | with_reducible apply outAll_fault
    | with_reducible apply outAll_refused
    | split
    | exact fun _ hx => hx
    | intro _

theorem execPirqRepeat_good {q : List Instr} {s : State} (n : Fin 64) (h : Good q s) :
    OutAll (Good q) (execPirqRepeat n s) := by
  unfold execPirqRepeat
  try dsimp only
  repeat' first
    | with_reducible assumption
    | with_reducible apply pirqSend_good
    | with_reducible apply outAll_next
    | with_reducible apply outAll_fault
    | with_reducible apply outAll_refused
    | split
    | exact fun _ hx => hx
    | intro _

theorem execPirqDeactivation_good {q : List Instr} {s : State} (n : Fin 64) (h : Good q s) :
    OutAll (Good q) (execPirqDeactivation n s) := by
  unfold execPirqDeactivation
  try dsimp only
  repeat' first
    | with_reducible assumption
    | with_reducible apply portMod_good
    | with_reducible apply outAll_next
    | with_reducible apply outAll_fault
    | with_reducible apply outAll_refused
    | split
    | exact fun _ hx => hx
    | (show domOk _ _; assumption)
    | intro _
    | omega

theorem pirqPump_good {q : List Instr} {s : State} (n : Nat) (h : Good q s) :
    Good q (pirqPump s n) := by
  unfold pirqPump
  try dsimp only
  repeat' first
    | with_reducible assumption
    | with_reducible apply pirqSend_good
    | split
    | exact fun _ hx => hx
    | intro _

end Sys2Proof.Machine
end

