-- ==== Sys2Proof/Laws/KeepAgents.lean ====
section
/-!
SUPPORT. The queue and the invariant through the definitions of Machine/Agents.lean (see Laws/Good.lean).
-/
set_option linter.all false

namespace Sys2Proof.Machine

theorem writeNext_good {q : List Instr} {s : State} (p : Pkt) (k : Nat) (st : Status) (h : Good q s) :
    Good q (writeNext s p k st) := by
  unfold writeNext
  try dsimp only
  repeat' first
    | with_reducible assumption
    | with_reducible apply respond_good
    | with_reducible apply sysMod_good
    | split
    | exact fun _ hx => hx
    | intro _

theorem hostEnd_good {q : List Instr} {s : State} (h : Good q s) :
    Good q (hostEnd s) := by
  unfold hostEnd
  try dsimp only
  repeat' first
    | with_reducible assumption
    | with_reducible apply hostMod_good
    | split
    | exact fun _ hx => hx
    | intro _

theorem fenceDone_good {q : List Instr} {s : State} (req : Option (Pkt × Nat)) (st : Status) (h : Good q s) :
    Good q (fenceDone s req st) := by
  unfold fenceDone
  try dsimp only
  repeat' first
    | with_reducible assumption
    | with_reducible apply hostEnd_good
    | with_reducible apply writeNext_good
    | with_reducible apply sysMod_good
    | split
    | exact fun _ hx => hx
    | intro _

theorem faultBellDone_good {q : List Instr} {s : State} (h : Good q s) :
    Good q (faultBellDone s) := by
  unfold faultBellDone
  try dsimp only
  repeat' first
    | with_reducible assumption
    | with_reducible apply faultBell_good
    | with_reducible apply agentSend_good
    | with_reducible apply sysMod_good
    | split
    | exact fun _ hx => hx
    | intro _

theorem noticeDone_good {q : List Instr} {s : State} (chip : Byte) (port : Nat) (st : Status) (h : Good q s) :
    Good q (noticeDone s chip port st) := by
  unfold noticeDone
  try dsimp only
  repeat' first
    | with_reducible assumption
    | with_reducible apply sysMod_good
    | split
    | exact fun _ hx => hx
    | intro _

theorem agentTagDone_good {q : List Instr} {s : State} (t : Byte) (st : Status) (ws : List Word) (h : Good q s) :
    Good q (agentTagDone s t st ws) := by
  unfold agentTagDone
  try dsimp only
  repeat' first
    | with_reducible assumption
    | with_reducible apply agentPump_good
    | with_reducible apply noticeDone_good
    | with_reducible apply faultBellDone_good
    | with_reducible apply faultBell_good
    | with_reducible apply timeMod_good
    | with_reducible apply fenceDone_good
    | with_reducible apply sysMod_good
    | split
    | exact fun _ hx => hx
    | intro _

theorem agentTagsDone_good {q : List Instr} {s : State} (pick : Tag → Bool) (st : Status) (h : Good q s) :
    Good q (agentTagsDone s pick st) := by
  unfold agentTagsDone
  try dsimp only
  repeat' first
    | with_reducible assumption
    | with_reducible apply agentTagDone_good
    | with_reducible apply Good.foldl
    | split
    | exact fun _ hx => hx
    | intro _

theorem breakTags_good {q : List Instr} {s : State} (pick : Byte → Bool) (h : Good q s) :
    Good q (breakTags s pick) := by
  unfold breakTags
  try dsimp only
  repeat' first
    | with_reducible assumption
    | with_reducible apply agentTagsDone_good
    | with_reducible apply portTagsDone_good
    | with_reducible apply Good.foldl
    | split
    | exact fun _ hx => hx
    | intro _

theorem queuedAbsent_good {q : List Instr} {s : State} (h : Good q s) :
    Good q (queuedAbsent s) := by
  unfold queuedAbsent
  try dsimp only
  repeat' first
    | with_reducible assumption
    | with_reducible apply faultBellDone_good
    | with_reducible apply faultBell_good
    | with_reducible apply timeMod_good
    | with_reducible apply fenceDone_good
    | with_reducible apply sysMod_good
    | with_reducible apply Good.foldl
    | split
    | exact fun _ hx => hx
    | intro _

theorem agentAsk_good {q : List Instr} {s : State} (dchip : Byte) (dnode : BitVec 7) (op : Op) (addr : BitVec 30) (data : List DataUnit) (use : TagUse) (h : Good q s) :
    Good q (agentAsk s dchip dnode op addr data use) := by
  unfold agentAsk
  try dsimp only
  repeat' first
    | with_reducible assumption
    | with_reducible apply sysMod_good
    | with_reducible apply queuedAbsent_good
    | with_reducible apply agentSend_good
    | split
    | exact fun _ hx => hx
    | intro _

theorem frontFail_good {q : List Instr} {s : State} (n : Nat) (f : Front) (st : Status) (h : Good q s) :
    Good q (frontFail s n f st) := by
  unfold frontFail
  try dsimp only
  repeat' first
    | with_reducible assumption
    | with_reducible apply accPart_good
    | with_reducible apply Good.foldl
    | split
    | exact fun _ hx => hx
    | intro _

theorem intakeFail_good {q : List Instr} {s : State} (n : Nat) (st : Status) (all : Bool) (h : Good q s) :
    Good q (intakeFail s n st all) := by
  unfold intakeFail
  try dsimp only
  repeat' first
    | with_reducible assumption
    | with_reducible apply frontFail_good
    | with_reducible apply portMod_good
    | with_reducible apply accessFail_good
    | with_reducible apply Good.foldl
    | split
    | exact fun _ hx => hx
    | intro _

theorem targetFail_good {q : List Instr} {s : State} (n : Nat) (st : Status) (h : Good q s) :
    Good q (targetFail s n st) := by
  unfold targetFail
  try dsimp only
  repeat' first
    | with_reducible assumption
    | with_reducible apply respond_good
    | with_reducible apply nodeMod_good
    | with_reducible apply portMod_good
    | with_reducible apply Good.foldl
    | split
    | exact fun _ hx => hx
    | intro _

theorem replayFail_good {q : List Instr} {s : State} (n : Nat) (h : Good q s) :
    Good q (replayFail s n) := by
  unfold replayFail
  try dsimp only
  repeat' first
    | with_reducible assumption
    | with_reducible apply recvDrop_good
    | with_reducible apply portMod_good
    | with_reducible apply nodeMod_good
    | with_reducible apply Good.foldl
    | split
    | exact fun _ hx => hx
    | intro _

theorem sendFail_good {q : List Instr} {s : State} (n : Nat) (h : Good q s) :
    Good q (sendFail s n) := by
  unfold sendFail
  try dsimp only
  repeat' first
    | with_reducible assumption
    | with_reducible apply portMod_good
    | with_reducible apply sendDrop_good
    | with_reducible apply Good.foldl
    | split
    | exact fun _ hx => hx
    | intro _

theorem finishPort_good {q : List Instr} {s : State} (n : Nat) (st : Status) (h : Good q s) :
    Good q (finishPort s n st) := by
  unfold finishPort
  try dsimp only
  repeat' first
    | with_reducible assumption
    | with_reducible apply intakeFail_good
    | with_reducible apply portTagsDone_good
    | with_reducible apply targetFail_good
    | with_reducible apply replayFail_good
    | split
    | exact fun _ hx => hx
    | intro _

theorem portDie_good {q : List Instr} {s : State} (n : Nat) (cause : BitVec 5) (detail : Half) (h : Good q s) :
    Good q (portDie s n cause detail) := by
  unfold portDie
  try dsimp only
  repeat' first
    | with_reducible assumption
    | with_reducible apply raiseFault_good
    | with_reducible apply finishPort_good
    | with_reducible apply portMod_good
    | split
    | exact fun _ hx => hx
    | intro _

end Sys2Proof.Machine
end

