-- ==== Sys2Proof/Laws/KeepBobOps.lean ====
section
/-!
SUPPORT. The queue and the invariant through the definitions of Machine/BobOps.lean (see Laws/Good.lean).
-/
set_option linter.all false

namespace Sys2Proof.Machine

theorem lockFree_good {q : List Instr} {s : State} (b : Nat) (h : Good q s) :
    Good q (lockFree s b) := by
  unfold lockFree
  try dsimp only
  repeat' first
    | with_reducible assumption
    | with_reducible apply bobMod_good
    | split
    | exact fun _ hx => hx
    | intro _

theorem locksFree_good {q : List Instr} {s : State} (pick : Lock → Bool) (h : Good q s) :
    Good q (locksFree s pick) := by
  unfold locksFree
  try dsimp only
  repeat' first
    | with_reducible assumption
    | with_reducible apply lockFree_good
    | with_reducible apply Good.foldl
    | split
    | exact fun _ hx => hx
    | intro _

theorem bobFlush_good {q : List Instr} {s : State} (b : Nat) (h : Good q s) :
    Good q (bobFlush s b) := by
  unfold bobFlush
  try dsimp only
  repeat' first
    | with_reducible assumption
    | with_reducible apply bobMod_good
    | split
    | exact fun _ hx => hx
    | intro _

end Sys2Proof.Machine
end

