-- ==== Sys2Proof/Laws/KeepRingOps.lean ====
section
/-!
SUPPORT. The queue and the invariant through the definitions of Machine/RingOps.lean (see Laws/Good.lean).
-/
set_option linter.all false

namespace Sys2Proof.Machine

theorem setRing_good {q : List Instr} {s : State} (f : RingSt → RingSt) (h : Good q s) :
    Good q (setRing s f) := by
  unfold setRing
  try dsimp only
  repeat' first
    | with_reducible assumption
    | with_reducible apply raiseEvent_good
    | with_reducible apply jHw_good
    | with_reducible apply ringMod_good
    | split
    | exact fun _ hx => hx
    | intro _

theorem clearCtl_good {q : List Instr} {s : State} (leave : Bool) (reform : Bool) (h : Good q s) :
    Good q (clearCtl s leave reform) := by
  unfold clearCtl
  try dsimp only
  repeat' first
    | with_reducible assumption
    | with_reducible apply jHw_good
    | with_reducible apply ringMod_good
    | split
    | exact fun _ hx => hx
    | intro _

theorem dropGone_good {q : List Instr} {s : State} (h : Good q s) :
    Good q (dropGone s) := by
  unfold dropGone
  try dsimp only
  repeat' first
    | with_reducible assumption
    | with_reducible apply sysMod_good
    | split
    | exact fun _ hx => hx
    | intro _

theorem tableSet_good {q : List Instr} {s : State} (l : List Byte) (roll : Bool) (h : Good q s) :
    Good q (tableSet s l roll) := by
  unfold tableSet
  try dsimp only
  repeat' first
    | with_reducible assumption
    | with_reducible apply locksFree_good
    | with_reducible apply queuedAbsent_good
    | with_reducible apply dropGone_good
    | with_reducible apply breakTags_good
    | with_reducible apply jHw_good
    | with_reducible apply ringMod_good
    | split
    | exact fun _ hx => hx
    | intro _

theorem flushIn_good {q : List Instr} {s : State} (g : Ring) (c : Nat) (h : Good q s) :
    Good q (flushIn s g c) := by
  unfold flushIn
  try dsimp only
  repeat' first
    | with_reducible assumption
    | with_reducible apply nodeMod_good
    | with_reducible apply gateMod_good
    | split
    | exact fun _ hx => hx
    | intro _

theorem flushOut_good {q : List Instr} {s : State} (g : Ring) (c : Nat) (h : Good q s) :
    Good q (flushOut s g c) := by
  unfold flushOut
  try dsimp only
  repeat' first
    | with_reducible assumption
    | with_reducible apply gateMod_good
    | split
    | exact fun _ hx => hx
    | intro _

theorem gateAbort_good {q : List Instr} {s : State} (g : Ring) (h : Good q s) :
    Good q (gateAbort s g) := by
  unfold gateAbort
  try dsimp only
  repeat' first
    | with_reducible assumption
    | with_reducible apply gateMod_good
    | with_reducible apply flushIn_good
    | with_reducible apply flushOut_good
    | with_reducible apply Good.foldl
    | split
    | exact fun _ hx => hx
    | intro _

theorem discardHeld_good {q : List Instr} {s : State} (g : Ring) (h : Good q s) :
    Good q (discardHeld s g) := by
  unfold discardHeld
  try dsimp only
  repeat' first
    | with_reducible assumption
    | with_reducible apply bumpN_good
    | with_reducible apply gateMod_good
    | with_reducible apply Good.foldl
    | split
    | exact fun _ hx => hx
    | intro _

theorem closeBypass_good {q : List Instr} {s : State} (h : Good q s) :
    Good q (closeBypass s) := by
  unfold closeBypass
  try dsimp only
  repeat' first
    | with_reducible assumption
    | with_reducible apply clearCtl_good
    | with_reducible apply sysMod_good
    | with_reducible apply tableSet_good
    | with_reducible apply setRing_good
    | with_reducible apply breakTags_good
    | with_reducible apply gateAbort_good
    | with_reducible apply discardHeld_good
    | split
    | exact fun _ hx => hx
    | intro _

theorem ringStop_good {q : List Instr} {s : State} (cause : BitVec 4) (orphan : Bool) (h : Good q s) :
    Good q (ringStop s cause orphan) := by
  unfold ringStop
  try dsimp only
  repeat' first
    | with_reducible assumption
    | with_reducible apply raiseFault_good
    | with_reducible apply setRing_good
    | with_reducible apply ringMod_good
    | with_reducible apply breakTags_good
    | split
    | exact fun _ hx => hx
    | intro _

theorem sendAborts_good {q : List Instr} {s : State} (h : Good q s) :
    Good q (sendAborts s) := by
  unfold sendAborts
  try dsimp only
  repeat' first
    | with_reducible assumption
    | with_reducible apply ringMod_good
    | with_reducible apply gwRing_good
    | with_reducible apply gateMod_good
    | split
    | exact fun _ hx => hx
    | intro _

theorem abortClear_good {q : List Instr} {s : State} (h : Good q s) :
    Good q (abortClear s) := by
  unfold abortClear
  try dsimp only
  repeat' first
    | with_reducible assumption
    | with_reducible apply gateAbort_good
    | with_reducible apply ringMod_good
    | split
    | exact fun _ hx => hx
    | intro _

theorem reform_good {q : List Instr} {s : State} (h : Good q s) :
    Good q (reform s) := by
  unfold reform
  try dsimp only
  repeat' first
    | with_reducible assumption
    | with_reducible apply sendAborts_good
    | with_reducible apply abortClear_good
    | split
    | exact fun _ hx => hx
    | intro _

theorem ringFault_good {q : List Instr} {s : State} (cause : BitVec 4) (h : Good q s) :
    Good q (ringFault s cause) := by
  unfold ringFault
  try dsimp only
  repeat' first
    | with_reducible assumption
    | with_reducible apply gwRing_good
    | with_reducible apply reform_good
    | with_reducible apply ringStop_good
    | split
    | exact fun _ hx => hx
    | intro _

end Sys2Proof.Machine
end

