-- ==== Sys2Proof/Laws/KeepDomain.lean ====
section
/-!
SUPPORT. The queue and the invariant through the definitions of Machine/Domain.lean (see Laws/Good.lean).
-/
set_option linter.all false

namespace Sys2Proof.Machine

theorem domChange_good {q : List Instr} {s : State} (d : Nat) (f : Dom → Dom) (h : Good q s) (hf : ∀ x, domOk d x → domOk d (f x)) :
    Good q (domChange s d f) := by
  unfold domChange
  try dsimp only
  repeat' first
    | with_reducible assumption
    | with_reducible apply hf
    | with_reducible apply jHw_good
    | with_reducible apply domMod_good
    | split
    | exact fun _ hx => hx
    | (show domOk _ _; assumption)
    | intro _
    | omega

theorem zeroCounters_good {q : List Instr} {s : State} (b : Blk) (h : Good q s) :
    Good q (zeroCounters s b) := by
  unfold zeroCounters
  try dsimp only
  repeat' first
    | with_reducible assumption
    | with_reducible apply setCval_good
    | with_reducible apply setCovf_good
    | with_reducible apply Good.foldl
    | split
    | exact fun _ hx => hx
    | intro _

theorem portUnpower_good {q : List Instr} {s : State} (n : Nat) (h : Good q s) :
    Good q (portUnpower s n) := by
  unfold portUnpower
  try dsimp only
  repeat' first
    | with_reducible assumption
    | with_reducible apply nodeMod_good
    | with_reducible apply Good.foldl
    | split
    | exact fun _ hx => hx
    | intro _

theorem startPause_good {q : List Instr} {s : State} (splice : Bool) (chip : Byte) (h : Good q s) :
    Good q (startPause s splice chip) := by
  unfold startPause
  try dsimp only
  repeat' first
    | with_reducible assumption
    | with_reducible apply gwRing_good
    | with_reducible apply bump_good
    | with_reducible apply ringMod_good
    | split
    | exact fun _ hx => hx
    | intro _

theorem serveLeave_good {q : List Instr} {s : State} (chip : Byte) (h : Good q s) :
    Good q (serveLeave s chip) := by
  unfold serveLeave
  try dsimp only
  repeat' first
    | with_reducible assumption
    | with_reducible apply ringMod_good
    | with_reducible apply startPause_good
    | split
    | exact fun _ hx => hx
    | intro _

theorem askLeave_good {q : List Instr} {s : State} (why : LeaveWhy) (h : Good q s) :
    Good q (askLeave s why) := by
  unfold askLeave
  try dsimp only
  repeat' first
    | with_reducible assumption
    | with_reducible apply gwRing_good
    | with_reducible apply serveLeave_good
    | with_reducible apply ringMod_good
    | split
    | exact fun _ hx => hx
    | intro _

theorem startHem_good {q : List Instr} {s : State} (d : Nat) (h : Good q s) :
    Good q (startHem s d) := by
  unfold startHem
  try dsimp only
  repeat' first
    | with_reducible assumption
    | with_reducible apply intakeFail_good
    | with_reducible apply domChange_good
    | with_reducible apply askLeave_good
    | split
    | exact fun _ hx => hx
    | (show domOk _ _; assumption)
    | intro _
    | omega

theorem evalDom_good {q : List Instr} {s : State} (d : Nat) (h : Good q s) :
    Good q (evalDom s d) := by
  unfold evalDom
  try dsimp only
  repeat' first
    | with_reducible assumption
    | with_reducible apply domChange_good
    | with_reducible apply startHem_good
    | split
    | exact fun _ hx => hx
    | (show domOk _ _; assumption)
    | intro _
    | omega

theorem evalDoms_good {q : List Instr} {s : State} (h : Good q s) :
    Good q (evalDoms s) := by
  unfold evalDoms
  try dsimp only
  repeat' first
    | with_reducible assumption
    | with_reducible apply evalDom_good
    | with_reducible apply Good.foldl
    | split
    | exact fun _ hx => hx
    | intro _

theorem domOff_good {q : List Instr} {s : State} (d : Nat) (forced : Bool) (h : Good q s) :
    Good q (domOff s d forced) := by
  unfold domOff
  try dsimp only
  repeat' first
    | with_reducible assumption
    | with_reducible apply evalDom_good
    | with_reducible apply domChange_good
    | with_reducible apply portMod_good
    | with_reducible apply portUnpower_good
    | with_reducible apply Good.foldl
    | split
    | exact fun _ hx => hx
    | (show domOk _ _; assumption)
    | intro _
    | omega

theorem domReachOn_good {q : List Instr} {s : State} (d : Nat) (h : Good q s) :
    Good q (domReachOn s d) := by
  unfold domReachOn
  try dsimp only
  repeat' first
    | with_reducible assumption
    | with_reducible apply evalDom_good
    | with_reducible apply portDie_good
    | with_reducible apply domChange_good
    | with_reducible apply portMod_good
    | with_reducible apply zeroCounters_good
    | split
    | exact fun _ hx => hx
    | (show domOk _ _; assumption)
    | intro _
    | omega

theorem domFail_good {q : List Instr} {s : State} (d : Nat) (r : BitVec 2) (h : Good q s) :
    Good q (domFail s d r) := by
  unfold domFail
  try dsimp only
  repeat' first
    | with_reducible assumption
    | with_reducible apply raiseFault_good
    | with_reducible apply portDie_good
    | with_reducible apply domChange_good
    | split
    | exact fun _ hx => hx
    | (show domOk _ _; assumption)
    | intro _
    | omega

theorem wakeEvent_good {q : List Instr} {s : State} (d : Nat) (j : State → Word → State) (h : Good q s) (hj : ∀ u xa, Good q u → Good q (j u xa)) :
    Good q (wakeEvent s d j) := by
  unfold wakeEvent
  try dsimp only
  repeat' first
    | with_reducible assumption
    | with_reducible apply hj
    | with_reducible apply domMod_good
    | with_reducible apply evalDom_good
    | split
    | exact fun _ hx => hx
    | exact fun _ hx hd => ⟨(hx hd).1, (hx hd).2.1, fun _ => rfl⟩
    | (show domOk _ _; assumption)
    | intro _
    | omega

theorem wakeHw_good {q : List Instr} {s : State} (kind : BitVec 3) (d : Nat) (v : Word) (h : Good q s) :
    Good q (wakeHw kind d s v) := by
  unfold wakeHw
  try dsimp only
  repeat' first
    | with_reducible assumption
    | with_reducible apply jHw_good
    | split
    | exact fun _ hx => hx
    | intro _

theorem voteSet_good {q : List Instr} {s : State} (d : Nat) (v : Nat) (cast : Bool) (h : Good q s) :
    Good q (voteSet s d v cast) := by
  unfold voteSet
  try dsimp only
  repeat' first
    | with_reducible assumption
    | with_reducible apply domMod_good
    | split
    | exact fun _ hx => hx
    | (show domOk _ _; assumption)
    | intro _
    | omega

theorem paceSet_good {q : List Instr} {s : State} (d : Nat) (v : Nat) (b : Bool) (h : Good q s) :
    Good q (paceSet s d v b) := by
  unfold paceSet
  try dsimp only
  repeat' first
    | with_reducible assumption
    | with_reducible apply sysMod_good
    | split
    | exact fun _ hx => hx
    | intro _

theorem stallSet_good {q : List Instr} {s : State} (v : Nat) (x : Option Stall) (h : Good q s) :
    Good q (stallSet s v x) := by
  unfold stallSet
  try dsimp only
  repeat' first
    | with_reducible assumption
    | with_reducible apply sysMod_good
    | split
    | exact fun _ hx => hx
    | intro _

theorem voteApply_good {q : List Instr} {s : State} (v : Nat) (x : Stall) (h : Good q s) :
    Good q (voteApply s v x) := by
  unfold voteApply
  try dsimp only
  repeat' first
    | with_reducible assumption
    | with_reducible apply hostEnd_good
    | with_reducible apply writeNext_good
    | with_reducible apply paceSet_good
    | with_reducible apply evalDom_good
    | with_reducible apply voteSet_good
    | with_reducible apply jOrigin_good
    | split
    | exact fun _ hx => hx
    | (show domOk _ _; assumption)
    | intro _
    | omega

theorem voteNext_good {q : List Instr} {s : State} (v : Nat) (h : Good q s) :
    Good q (voteNext s v) := by
  unfold voteNext
  try dsimp only
  repeat' first
    | with_reducible assumption
    | with_reducible apply sysMod_good
    | with_reducible apply stallSet_good
    | split
    | exact fun _ hx => hx
    | intro _

theorem voteSettle_good {q : List Instr} {x2 : State} (x1 : Nat) (h : Good q x2) :
    Good q (voteSettle x1 x2) := by
  induction x1 generalizing x2 with
  | zero => exact h
  | succ n ih =>
    unfold voteSettle
    try dsimp only
    repeat' first
      | with_reducible assumption
      | with_reducible apply voteApply_good
      | with_reducible apply stallSet_good
      | with_reducible apply voteNext_good
      | with_reducible apply ih
      | split
      | exact fun _ hx => hx
      | (show domOk _ _; assumption)
      | intro _
      | omega

theorem voteArrive_good {q : List Instr} {s : State} (v : Nat) (x : Stall) (h : Good q s) :
    Good q (voteArrive s v x) := by
  unfold voteArrive
  try dsimp only
  repeat' first
    | with_reducible assumption
    | with_reducible apply voteApply_good
    | with_reducible apply stallSet_good
    | with_reducible apply sysMod_good
    | with_reducible apply bump_good
    | split
    | exact fun _ hx => hx
    | (show domOk _ _; assumption)
    | intro _
    | omega

theorem votesDrop_good {q : List Instr} {s : State} (pick : Nat → Bool) (h : Good q s) :
    Good q (votesDrop s pick) := by
  unfold votesDrop
  try dsimp only
  repeat' first
    | with_reducible assumption
    | with_reducible apply evalDom_good
    | with_reducible apply voteSet_good
    | with_reducible apply jHw_good
    | with_reducible apply Good.foldl
    | split
    | exact fun _ hx => hx
    | (show domOk _ _; assumption)
    | intro _
    | omega

end Sys2Proof.Machine
end

