-- ==== Sys2Proof/Laws/KeepSupply.lean ====
section
/-!
SUPPORT. The queue and the invariant through the definitions of Machine/Supply.lean (see Laws/Good.lean).
-/
set_option linter.all false

namespace Sys2Proof.Machine

theorem setPstate_good {q : List Instr} {s : State} (f : Power → Power) (h : Good q s) :
    Good q (setPstate s f) := by
  unfold setPstate
  try dsimp only
  repeat' first
    | with_reducible assumption
    | with_reducible apply jHw_good
    | with_reducible apply powMod_good
    | split
    | exact fun _ hx => hx
    | intro _

theorem sendVolt_good {q : List Instr} {s : State} (x2 : VReq) (code : Nat) (h : Good q s) :
    Good q (sendVolt s x2 code) := by
  unfold sendVolt
  try dsimp only
  repeat' first
    | with_reducible assumption
    | with_reducible apply powMod_good
    | split
    | exact fun _ hx => hx
    | intro _

theorem startMove_good {q : List Instr} {s : State} (new : BitVec 3) (h : Good q s) :
    Good q (startMove s new) := by
  unfold startMove
  try dsimp only
  repeat' first
    | with_reducible assumption
    | with_reducible apply powMod_good
    | with_reducible apply sendVolt_good
    | split
    | exact fun _ hx => hx
    | intro _

theorem delaysDue_good {q : List Instr} {s : State} (h : Good q s) :
    Good q (delaysDue s) := by
  unfold delaysDue
  try dsimp only
  repeat' first
    | with_reducible assumption
    | with_reducible apply delaySet_good
    | with_reducible apply Good.foldl
    | split
    | exact fun _ hx => hx
    | intro _

theorem endMove_good {q : List Instr} {s : State} (new : BitVec 3) (h : Good q s) :
    Good q (endMove s new) := by
  unfold endMove
  try dsimp only
  repeat' first
    | with_reducible assumption
    | with_reducible apply setPstate_good
    | with_reducible apply delaysDue_good
    | split
    | exact fun _ hx => hx
    | intro _

theorem powerDown_good {q : List Instr} {s : State} (t : BitVec 3) (h : Good q s) :
    Good q (powerDown s t) := by
  unfold powerDown
  try dsimp only
  repeat' first
    | with_reducible assumption
    | with_reducible apply timeMod_good
    | with_reducible apply powMod_good
    | with_reducible apply domMod_good
    | with_reducible apply Good.foldl
    | split
    | exact fun _ hx => hx
    | (show domOk _ _; assumption)
    | intro _
    | omega

theorem downCheck_good {q : List Instr} {s : State} (h : Good q s) :
    Good q (downCheck s) := by
  unfold downCheck
  try dsimp only
  repeat' first
    | with_reducible assumption
    | with_reducible apply powerDown_good
    | with_reducible apply jHw_good
    | with_reducible apply powMod_good
    | split
    | exact fun _ hx => hx
    | intro _

theorem chipLadder_good {q : List Instr} {s : State} (why : LadderWhy) (h : Good q s) :
    Good q (chipLadder s why) := by
  unfold chipLadder
  try dsimp only
  repeat' first
    | with_reducible assumption
    | with_reducible apply sendVolt_good
    | with_reducible apply timeMod_good
    | with_reducible apply jrnMod_good
    | with_reducible apply powMod_good
    | split
    | exact fun _ hx => hx
    | intro _

theorem enterLimp_good {q : List Instr} {s : State} (h : Good q s) :
    Good q (enterLimp s) := by
  unfold enterLimp
  try dsimp only
  repeat' first
    | with_reducible assumption
    | with_reducible apply setPstate_good
    | with_reducible apply powMod_good
    | split
    | exact fun _ hx => hx
    | intro _

theorem startCore_good {q : List Instr} {s : State} (why : LadderWhy) (h : Good q s) :
    Good q (startCore s why) := by
  unfold startCore
  try dsimp only
  repeat' first
    | with_reducible assumption
    | with_reducible apply domMod_good
    | with_reducible apply powMod_good
    | with_reducible apply Good.foldl
    | split
    | exact fun _ hx => hx
    | (show domOk _ _; assumption)
    | intro _
    | omega

theorem chipFault_good {q : List Instr} {s : State} (d : Nat) (r : BitVec 2) (h : Good q s) :
    Good q (chipFault s d r) := by
  unfold chipFault
  try dsimp only
  repeat' first
    | with_reducible assumption
    | with_reducible apply powMod_good
    | with_reducible apply domMod_good
    | with_reducible apply raiseFault_good
    | with_reducible apply closeBypass_good
    | with_reducible apply Good.foldl
    | split
    | exact fun _ hx => hx
    | (show domOk _ _; assumption)
    | intro _
    | omega

theorem drainQueue_good {q : List Instr} {s : State} (h : Good q s) :
    Good q (drainQueue s) := by
  unfold drainQueue
  try dsimp only
  repeat' first
    | with_reducible assumption
    | with_reducible apply jrnMod_good
    | with_reducible apply stage_good
    | with_reducible apply Good.foldl
    | split
    | exact fun _ hx => hx
    | intro _

theorem resetEntries_good {q : List Instr} {s : State} (last : BitVec 4) (h : Good q s) :
    Good q (resetEntries s last) := by
  unfold resetEntries
  try dsimp only
  repeat' first
    | with_reducible assumption
    | with_reducible apply anchor_good
    | with_reducible apply jHw_good
    | with_reducible apply drainQueue_good
    | split
    | exact fun _ hx => hx
    | intro _

theorem sysReturn_good {q : List Instr} {s : State} (h : Good q s) :
    Good q (sysReturn s) := by
  obtain ⟨h0, ⟨h1, h2, h3, _, h5, h6, h7, h8, h9⟩, _, h11, h12⟩ :=
    cfgDrop_good (fun b _ => !(decide (b < 0x80) || decide (b = 0x83) || decide (b = 0x85))) h
  exact ⟨h0, ⟨h1, h2, h3, rfl, h5, h6, h7, h8, h9⟩, ⟨Nat.zero_le _, Nat.le_refl 256, Nat.zero_le _, Nat.zero_le _⟩, h11, h12⟩

theorem wideReturn_good {q : List Instr} {s : State} (ret : Bool) (rec : Bool) (link : Bool) (tack : Bool) (h : Good q s) :
    Good q (wideReturn s ret rec link tack) := by
  obtain ⟨h0, ⟨_, _, h3, h4, h5, _⟩, h10, _, h12⟩ :=
    cfgDrop_good (fun b _ => (decide (b < 0x40) && ret) || (decide (0x40 ≤ b) && decide (b < 0x80)) || (decide (b = 0x83) && tack) ||
                                   decide (b = 0x85)) (sysReturn_good h)
  refine ⟨h0, ⟨rfl, rfl, h3, h4, ?_, rfl, rfl, rfl, rfl⟩, h10, fun d => domOk_resetOf d, h12⟩
  show twf _ (if rec then [] else s.faults) = true
  split
  · rfl
  · exact h.2.1.2.2.2.2.1

theorem startUp_good {q : List Instr} {s : State} (last : BitVec 4) (h : Good q s) :
    Good q (startUp s last) := by
  unfold startUp
  try dsimp only
  repeat' first
    | with_reducible assumption
    | with_reducible apply chipLadder_good
    | with_reducible apply domMod_good
    | with_reducible apply Good.foldl
    | split
    | exact fun _ hx => hx
    | (show domOk _ _; assumption)
    | intro _
    | omega

end Sys2Proof.Machine
end

