-- ==== Sys2Proof/Laws/KeepUpkeep.lean ====
section
/-!
SUPPORT. The queue and the invariant through the definitions of Machine/Upkeep.lean (see Laws/Good.lean).
-/
set_option linter.all false

namespace Sys2Proof.Machine

theorem coreReach_good {q : List Instr} {s : State} (d : Nat) (h : Good q s) :
    Good q (coreReach s d) := by
  unfold coreReach
  try dsimp only
  repeat' first
    | with_reducible assumption
    | with_reducible apply journalScan_good
    | with_reducible apply sysMod_good
    | with_reducible apply cntMod_good
    | with_reducible apply cfgDrop_good
    | with_reducible apply domMod_good
    | with_reducible apply meshReset_good
    | split
    | exact fun _ hx => hx
    | (show domOk _ _; assumption)
    | intro _
    | omega

theorem powerEval_good {q : List Instr} {s : State} (h : Good q s) :
    Good q (powerEval s) := by
  unfold powerEval
  try dsimp only
  repeat' first
    | with_reducible assumption
    | with_reducible apply setPstate_good
    | with_reducible apply chipLadder_good
    | with_reducible apply startMove_good
    | with_reducible apply powMod_good
    | with_reducible apply evalDoms_good
    | with_reducible apply downCheck_good
    | split
    | exact fun _ hx => hx
    | intro _

theorem tackApply_good {q : List Instr} {s : State} (h : Good q s) :
    Good q (tackApply s) := by
  unfold tackApply
  try dsimp only
  repeat' first
    | with_reducible assumption
    | with_reducible apply cfgSet_good
    | with_reducible apply timeMod_good
    | with_reducible apply Good.foldl
    | split
    | exact fun _ hx => hx
    | intro _

theorem afterPatrol_good {q : List Instr} {s : State} (h : Good q s) :
    Good q (afterPatrol s) := by
  unfold afterPatrol
  try dsimp only
  repeat' first
    | with_reducible assumption
    | with_reducible apply powerEval_good
    | with_reducible apply timeMod_good
    | with_reducible apply setPstate_good
    | split
    | exact fun _ hx => hx
    | intro _

theorem patrolOver_good {q : List Instr} {s : State} (h : Good q s) :
    Good q (patrolOver s) := by
  unfold patrolOver
  try dsimp only
  repeat' first
    | with_reducible assumption
    | with_reducible apply timeMod_good
    | with_reducible apply tackApply_good
    | with_reducible apply afterPatrol_good
    | with_reducible apply powMod_good
    | with_reducible apply domMod_good
    | with_reducible apply Good.foldl
    | split
    | exact fun _ hx => hx
    | (show domOk _ _; assumption)
    | intro _
    | omega

theorem patrolEnd_good {q : List Instr} {s : State} (h : Good q s) :
    Good q (patrolEnd s) := by
  unfold patrolEnd
  try dsimp only
  repeat' first
    | with_reducible assumption
    | with_reducible apply patrolOver_good
    | with_reducible apply timeMod_good
    | with_reducible apply evalDoms_good
    | split
    | exact fun _ hx => hx
    | intro _

theorem patrolAbandon_good {q : List Instr} {s : State} (h : Good q s) :
    Good q (patrolAbandon s) := by
  unfold patrolAbandon
  try dsimp only
  repeat' first
    | with_reducible assumption
    | with_reducible apply timeMod_good
    | with_reducible apply patrolEnd_good
    | split
    | exact fun _ hx => hx
    | intro _

theorem patrolRecord_good {q : List Instr} {s : State} (h : Good q s) :
    Good q (patrolRecord s) := by
  unfold patrolRecord
  try dsimp only
  repeat' first
    | with_reducible assumption
    | with_reducible apply jHw_good
    | with_reducible apply anchor_good
    | with_reducible apply drainQueue_good
    | with_reducible apply Good.foldl
    | split
    | exact fun _ hx => hx
    | intro _

theorem tackWake_good {q : List Instr} {s : State} (d : Nat) (h : Good q s) :
    Good q (tackWake s d) := by
  unfold tackWake
  try dsimp only
  repeat' first
    | with_reducible assumption
    | with_reducible apply wakeEvent_good
    | with_reducible apply domMod_good
    | with_reducible apply wakeHw_good
    | split
    | exact fun _ hx => hx
    | exact fun _ hx hd => ⟨(hx hd).1, (hx hd).2.1, fun _ => rfl⟩
    | (show domOk _ _; assumption)
    | intro _
    | omega

theorem patrolWake_good {q : List Instr} {s : State} (w : BitVec 3) (h : Good q s) :
    Good q (patrolWake s w) := by
  unfold patrolWake
  try dsimp only
  repeat' first
    | with_reducible assumption
    | with_reducible apply afterPatrol_good
    | with_reducible apply evalDoms_good
    | with_reducible apply jHw_good
    | with_reducible apply powMod_good
    | with_reducible apply tackWake_good
    | with_reducible apply tackApply_good
    | with_reducible apply timeMod_good
    | with_reducible apply Good.foldl
    | split
    | exact fun _ hx => hx
    | intro _

theorem tackSend_good {q : List Instr} {s : State} (k : Nat) (h : Good q s) :
    Good q (tackSend s k) := by
  unfold tackSend
  try dsimp only
  repeat' first
    | with_reducible assumption
    | with_reducible apply timeMod_good
    | with_reducible apply agentAsk_good
    | split
    | exact fun _ hx => hx
    | intro _

theorem patrolPump_good {q : List Instr} {s : State} (h : Good q s) :
    Good q (patrolPump s) := by
  unfold patrolPump
  try dsimp only
  repeat' first
    | with_reducible assumption
    | with_reducible apply patrolOver_good
    | with_reducible apply patrolWake_good
    | with_reducible apply domMod_good
    | with_reducible apply patrolEnd_good
    | with_reducible apply tackSend_good
    | with_reducible apply timeMod_good
    | split
    | exact fun _ hx => hx
    | (show domOk _ _; assumption)
    | intro _
    | omega

theorem tackNext_good {q : List Instr} {s : State} (k : Nat) (h : Good q s) :
    Good q (tackNext s k) := by
  unfold tackNext
  try dsimp only
  repeat' first
    | with_reducible assumption
    | with_reducible apply patrolEnd_good
    | with_reducible apply timeMod_good
    | with_reducible apply patrolPump_good
    | split
    | exact fun _ hx => hx
    | intro _

theorem tackTest_good {q : List Instr} {s : State} (k : Nat) (d : Word) (h : Good q s) :
    Good q (tackTest s k d) := by
  unfold tackTest
  try dsimp only
  repeat' first
    | with_reducible assumption
    | with_reducible apply agentAsk_good
    | with_reducible apply patrolPump_good
    | with_reducible apply tackNext_good
    | with_reducible apply timeMod_good
    | split
    | exact fun _ hx => hx
    | intro _

theorem patrolStart_good {q : List Instr} {s : State} (h : Good q s) :
    Good q (patrolStart s) := by
  unfold patrolStart
  try dsimp only
  repeat' first
    | with_reducible assumption
    | with_reducible apply powMod_good
    | with_reducible apply chipLadder_good
    | with_reducible apply timeMod_good
    | split
    | exact fun _ hx => hx
    | intro _

theorem coreDone_good {q : List Instr} {s : State} (why : LadderWhy) (h : Good q s) :
    Good q (coreDone s why) := by
  unfold coreDone
  try dsimp only
  repeat' first
    | with_reducible assumption
    | with_reducible apply patrolPump_good
    | with_reducible apply powerEval_good
    | with_reducible apply setPstate_good
    | with_reducible apply anchor_good
    | with_reducible apply drainQueue_good
    | with_reducible apply resetEntries_good
    | with_reducible apply evalDoms_good
    | with_reducible apply hostMod_good
    | with_reducible apply sysMod_good
    | with_reducible apply powMod_good
    | split
    | exact fun _ hx => hx
    | intro _

theorem upkeep_good {q : List Instr} {s : State} (h : Good q s) :
    Good q (upkeep s) := by
  unfold upkeep
  try dsimp only
  repeat' first
    | with_reducible assumption
    | with_reducible apply downCheck_good
    | with_reducible apply powerEval_good
    | with_reducible apply patrolPump_good
    | split
    | exact fun _ hx => hx
    | intro _

theorem alarmFire_good {q : List Instr} {s : State} (h : Good q s) :
    Good q (alarmFire s) := by
  unfold alarmFire
  try dsimp only
  repeat' first
    | with_reducible assumption
    | with_reducible apply raiseEvent_good
    | with_reducible apply setPstate_good
    | with_reducible apply powerEval_good
    | with_reducible apply wideReturn_good
    | with_reducible apply startUp_good
    | with_reducible apply jHw_good
    | with_reducible apply timeMod_good
    | split
    | exact fun _ hx => hx
    | intro _

theorem alarmCompare_good {q : List Instr} {s : State} (h : Good q s) :
    Good q (alarmCompare s) := by
  unfold alarmCompare
  try dsimp only
  repeat' first
    | with_reducible assumption
    | with_reducible apply alarmFire_good
    | split
    | exact fun _ hx => hx
    | intro _

theorem alarmSet_good {q : List Instr} {s : State} (sec : Word) (h : Good q s) :
    Good q (alarmSet s sec) := by
  unfold alarmSet
  try dsimp only
  repeat' first
    | with_reducible assumption
    | with_reducible apply timeMod_good
    | with_reducible apply alarmCompare_good
    | split
    | exact fun _ hx => hx
    | intro _

theorem rtcSet_good {q : List Instr} {s : State} (sec : Word) (h : Good q s) :
    Good q (rtcSet s sec) := by
  unfold rtcSet
  try dsimp only
  repeat' first
    | with_reducible assumption
    | with_reducible apply timeMod_good
    | with_reducible apply anchor_good
    | split
    | exact fun _ hx => hx
    | intro _

theorem bellWake_good {q : List Instr} {s : State} (b : Nat) (before : Half) (h : Good q s) :
    Good q (bellWake s b before) := by
  unfold bellWake
  try dsimp only
  repeat' first
    | with_reducible assumption
    | with_reducible apply wakeHw_good
    | with_reducible apply wakeEvent_good
    | split
    | exact fun _ hx => hx
    | (show domOk _ _; assumption)
    | intro _
    | omega

theorem bellSet_good {q : List Instr} {s : State} (b : Nat) (bits : Half) (h : Good q s) :
    Good q (bellSet s b bits) := by
  unfold bellSet
  try dsimp only
  repeat' first
    | with_reducible assumption
    | with_reducible apply bobMod_good
    | with_reducible apply bellWake_good
    | split
    | exact fun _ hx => hx
    | intro _

theorem bellClear_good {q : List Instr} {s : State} (b : Nat) (bits : Half) (h : Good q s) :
    Good q (bellClear s b bits) := by
  unfold bellClear
  try dsimp only
  repeat' first
    | with_reducible assumption
    | with_reducible apply bobMod_good
    | split
    | exact fun _ hx => hx
    | intro _

theorem sysReturned_good {q : List Instr} {s : State} (h : Good q s) :
    Good q (sysReturned s) := by
  unfold sysReturned
  try dsimp only
  repeat' first
    | with_reducible assumption
    | with_reducible apply domMod_good
    | with_reducible apply votesDrop_good
    | with_reducible apply sysReturn_good
    | with_reducible apply Good.foldl
    | split
    | exact fun _ hx => hx
    | (show domOk _ _; assumption)
    | intro _
    | omega

theorem sysResetDone_good {q : List Instr} {s : State} (h : Good q s) :
    Good q (sysResetDone s) := by
  unfold sysResetDone
  try dsimp only
  repeat' first
    | with_reducible assumption
    | with_reducible apply sysReturned_good
    | with_reducible apply evalDoms_good
    | with_reducible apply resetEntries_good
    | with_reducible apply sysMod_good
    | split
    | exact fun _ hx => hx
    | intro _

theorem domUp_good {q : List Instr} {s : State} (d : Nat) (h : Good q s) :
    Good q (domUp s d) := by
  unfold domUp
  try dsimp only
  repeat' first
    | with_reducible assumption
    | with_reducible apply sysResetDone_good
    | with_reducible apply patrolRecord_good
    | with_reducible apply patrolPump_good
    | with_reducible apply coreDone_good
    | with_reducible apply coreReach_good
    | with_reducible apply ringMod_good
    | with_reducible apply domReachOn_good
    | with_reducible apply upkeep_good
    | split
    | exact fun _ hx => hx
    | (show domOk _ _; assumption)
    | intro _
    | omega

theorem domBroken_good {q : List Instr} {s : State} (d : Nat) (r : BitVec 2) (h : Good q s) :
    Good q (domBroken s d r) := by
  unfold domBroken
  try dsimp only
  repeat' first
    | with_reducible assumption
    | with_reducible apply tackApply_good
    | with_reducible apply chipFault_good
    | with_reducible apply timeMod_good
    | with_reducible apply upkeep_good
    | with_reducible apply patrolAbandon_good
    | with_reducible apply domFail_good
    | split
    | exact fun _ hx => hx
    | (show domOk _ _; assumption)
    | intro _
    | omega

end Sys2Proof.Machine
end

