-- ==== Sys2Proof/Laws/KeepClaims.lean ====
section
/-!
SUPPORT. The queue and the invariant through the definitions of Machine/Claims.lean (see Laws/Good.lean).
-/
set_option linter.all false

namespace Sys2Proof.Machine

theorem refuse_good {q : List Instr} {s : State} (cid : Byte) (why : BitVec 4) (h : Good q s) :
    Good q (refuse s cid why) := by
  unfold refuse
  try dsimp only
  repeat' first
    | with_reducible assumption
    | with_reducible apply raiseEvent_good
    | with_reducible apply sysMod_good
    | with_reducible apply bump_good
    | split
    | exact fun _ hx => hx
    | intro _

theorem dirPut_good {q : List Instr} {s : State} (kind : BitVec 3) (c : Nat) (w : Word) (h : Good q s) :
    Good q (dirPut s kind c w) := by
  unfold dirPut
  try dsimp only
  repeat' first
    | with_reducible assumption
    | with_reducible apply cfgSet_good
    | with_reducible apply jHw_good
    | split
    | exact fun _ hx => hx
    | intro _

theorem dirFreePort_good {q : List Instr} {s : State} (p : Nat) (h : Good q s) :
    Good q (dirFreePort s p) := by
  unfold dirFreePort
  try dsimp only
  repeat' first
    | with_reducible assumption
    | with_reducible apply dirPut_good
    | with_reducible apply Good.foldl
    | split
    | exact fun _ hx => hx
    | intro _

theorem dirSplice_good {q : List Instr} {s : State} (h : Good q s) :
    Good q (dirSplice s) := by
  unfold dirSplice
  try dsimp only
  repeat' first
    | with_reducible assumption
    | with_reducible apply portMod_good
    | with_reducible apply dirPut_good
    | with_reducible apply Good.foldl
    | split
    | exact fun _ hx => hx
    | intro _

theorem claimAnswer_good {q : List Instr} {s : State} (k : Claim) (st : Status) (h : Good q s) :
    Good q (claimAnswer s k st) := by
  unfold claimAnswer
  try dsimp only
  repeat' first
    | with_reducible assumption
    | with_reducible apply bump_good
    | with_reducible apply sendPkt_good
    | split
    | exact fun _ hx => hx
    | intro _

theorem dirConflictSet_good {q : List Instr} {s : State} (c : Nat) (h : Good q s) :
    Good q (dirConflictSet s c) := by
  unfold dirConflictSet
  try dsimp only
  repeat' first
    | with_reducible assumption
    | with_reducible apply dirPut_good
    | with_reducible apply raiseEvent_good
    | split
    | exact fun _ hx => hx
    | intro _

theorem claimDecide_good {q : List Instr} {s : State} (chip : Byte) (port : Nat) (c : Byte) (h : Good q s) :
    Good q (claimDecide s chip port c).1 := by
  unfold claimDecide
  try dsimp only
  repeat' first
    | with_reducible assumption
    | with_reducible apply dirConflictSet_good
    | with_reducible apply dirPut_good
    | split
    | exact fun _ hx => hx
    | intro _

theorem pinDecide_good {q : List Instr} {s : State} (chip : Byte) (port : Nat) (c : Byte) (splice : Bool) (h : Good q s) :
    Good q (pinDecide s chip port c splice) := by
  unfold pinDecide
  try dsimp only
  repeat' first
    | with_reducible assumption
    | with_reducible apply dirPut_good
    | with_reducible apply dirConflictSet_good
    | split
    | exact fun _ hx => hx
    | intro _

theorem execClientClaim_good {q : List Instr} {s : State} (from_ : ClaimFrom) (h : Good q s) :
    OutAll (Good q) (execClientClaim from_ s) := by
  unfold execClientClaim
  try dsimp only
  repeat' first
    | with_reducible assumption
    | with_reducible apply pinDecide_good
    | with_reducible apply refuse_good
    | with_reducible apply claimAnswer_good
    | with_reducible apply claimDecide_good
    | with_reducible apply sysMod_good
    | with_reducible apply outAll_next
    | with_reducible apply outAll_fault
    | with_reducible apply outAll_refused
    | split
    | exact fun _ hx => hx
    | intro _
    | with_reducible refine pair_get (by with_reducible assumption) ?_

theorem claimsSettle_good {q : List Instr} {x2 : State} (x1 : Nat) (h : Good q x2) :
    Good q (claimsSettle x1 x2) := by
  induction x1 generalizing x2 with
  | zero => exact h
  | succ n ih =>
    unfold claimsSettle
    try dsimp only
    repeat' first
      | with_reducible assumption
      | with_reducible apply dirConflictSet_good
      | with_reducible apply claimAnswer_good
      | with_reducible apply sysMod_good
      | with_reducible apply ih
      | split
      | exact fun _ hx => hx
      | intro _

theorem authApply_good {q : List Instr} {s : State} (ochip : Byte) (ocid : Byte) (l : List (Byte × Byte)) (h : Good q s) :
    Good q (authApply s ochip ocid l) := by
  unfold authApply
  try dsimp only
  repeat' first
    | with_reducible assumption
    | with_reducible apply cfgSet_good
    | with_reducible apply jPut_good
    | with_reducible apply Good.foldl
    | split
    | exact fun _ hx => hx
    | intro _

theorem marksCheck_good {q : List Instr} {s : State} (h : Good q s) :
    Good q (marksCheck s) := by
  unfold marksCheck
  try dsimp only
  repeat' first
    | with_reducible assumption
    | with_reducible apply portMod_good
    | with_reducible apply Good.foldl
    | split
    | exact fun _ hx => hx
    | intro _

theorem execDirectoryCopy_good {q : List Instr} {s : State} (dir : List (Byte × Word)) (auth : List (Byte × Byte)) (h : Good q s) :
    OutAll (Good q) (execDirectoryCopy dir auth s) := by
  unfold execDirectoryCopy
  try dsimp only
  repeat' first
    | with_reducible assumption
    | with_reducible apply marksCheck_good
    | with_reducible apply claimsSettle_good
    | with_reducible apply authApply_good
    | with_reducible apply dirPut_good
    | with_reducible apply Good.foldl
    | with_reducible apply outAll_next
    | with_reducible apply outAll_fault
    | with_reducible apply outAll_refused
    | split
    | exact fun _ hx => hx
    | intro _

end Sys2Proof.Machine
end

