-- ==== Sys2Proof/Laws/KeepBasting.lean ====
section
/-!
SUPPORT. The queue and the invariant through the definitions of Machine/Basting.lean (see Laws/Good.lean).
-/
set_option linter.all false

namespace Sys2Proof.Machine

theorem basteIn_good {q : List Instr} {s : State} (o : Origin) (b : Nat) (i : Nat) (v : Word) (h : Good q s) :
    Good q (basteIn s o b i v) := by
  unfold basteIn
  try dsimp only
  repeat' first
    | with_reducible assumption
    | with_reducible apply sysMod_good
    | split
    | exact fun _ hx => hx
    | intro _

theorem basteEmpty_good {q : List Instr} {s : State} (h : Good q s) :
    Good q (basteEmpty s) := by
  unfold basteEmpty
  try dsimp only
  repeat' first
    | with_reducible assumption
    | with_reducible apply sysMod_good
    | split
    | exact fun _ hx => hx
    | intro _

theorem stitchFinish_good {q : List Instr} {s : State} (t : Stitch) (h : Good q s) :
    Good q (stitchFinish s t) := by
  unfold stitchFinish
  try dsimp only
  repeat' first
    | with_reducible assumption
    | with_reducible apply hostEnd_good
    | with_reducible apply writeNext_good
    | with_reducible apply basteEmpty_good
    | with_reducible apply sysMod_good
    | split
    | exact fun _ hx => hx
    | intro _

theorem stitchApply_good {q : List Instr} {s : State} (t : Stitch) (h : Good q s) :
    Good q (stitchApply s t) := by
  unfold stitchApply
  try dsimp only
  repeat' first
    | with_reducible assumption
    | with_reducible apply stitchFinish_good
    | with_reducible apply sysMod_good
    | with_reducible apply cfgSet_good
    | with_reducible apply Good.foldl
    | split
    | exact fun _ hx => hx
    | intro _

theorem stitchPump_good {q : List Instr} {x2 : State} (x1 : Nat) (h : Good q x2) :
    Good q (stitchPump x1 x2) := by
  induction x1 generalizing x2 with
  | zero => exact h
  | succ n ih =>
    unfold stitchPump
    try dsimp only
    repeat' first
      | with_reducible assumption
      | with_reducible apply cfgSet_good
      | with_reducible apply stitchFinish_good
      | with_reducible apply stitchApply_good
      | with_reducible apply sysMod_good
      | with_reducible apply jOrigin_good
      | with_reducible apply Good.foldl
      | with_reducible apply ih
      | split
      | exact fun _ hx => hx
      | intro _

theorem stitchRun_good {q : List Instr} {s : State} (h : Good q s) :
    Good q (stitchRun s) := by
  unfold stitchRun
  try dsimp only
  repeat' first
    | with_reducible assumption
    | with_reducible apply stitchPump_good
    | split
    | exact fun _ hx => hx
    | intro _

theorem stitchStart_good {q : List Instr} {s : State} (o : Origin) (req : Option (Pkt × Nat)) (h : Good q s) :
    Good q (stitchStart s o req) := by
  unfold stitchStart
  try dsimp only
  repeat' first
    | with_reducible assumption
    | with_reducible apply sysMod_good
    | with_reducible apply stitchRun_good
    | split
    | exact fun _ hx => hx
    | intro _

theorem execAuthorityCopy_good {q : List Instr} {s : State} (schip : Byte) (ochip : Byte) (ocid : Byte) (words : List (Byte × Byte)) (h : Good q s) :
    OutAll (Good q) (execAuthorityCopy schip ochip ocid words s) := by
  unfold execAuthorityCopy
  try dsimp only
  repeat' first
    | with_reducible assumption
    | with_reducible apply authApply_good
    | with_reducible apply stitchFinish_good
    | with_reducible apply cfgSet_good
    | with_reducible apply refuse_good
    | with_reducible apply Good.foldl
    | with_reducible apply outAll_next
    | with_reducible apply outAll_fault
    | with_reducible apply outAll_refused
    | split
    | exact fun _ hx => hx
    | intro _

end Sys2Proof.Machine
end

