-- ==== Sys2Proof/Laws/KeepSeam.lean ====
section
/-!
SUPPORT. The queue and the invariant through the definitions of Machine/Seam.lean (see Laws/Good.lean).
-/
set_option linter.all false

namespace Sys2Proof.Machine

theorem seamOn_good {q : List Instr} {s : State} (g : Ring) (c : Nat) (h : Good q s) :
    Good q (seamOn s g c) := by
  unfold seamOn
  try dsimp only
  repeat' first
    | with_reducible assumption
    | with_reducible apply bump_good
    | with_reducible apply seamPump_good
    | with_reducible apply meshFromSeam_good
    | with_reducible apply gateMod_good
    | with_reducible apply gwCredit_good
    | split
    | exact fun _ hx => hx
    | intro _

theorem execSeamUnit_good {q : List Instr} {s : State} (ring : Ring) (t1 : BitVec 17) (t2 : BitVec 17) (t3 : BitVec 17) (h : Good q s) :
    OutAll (Good q) (execSeamUnit ring t1 t2 t3 s) := by
  unfold execSeamUnit
  try dsimp only
  repeat' first
    | with_reducible assumption
    | with_reducible apply seamOn_good
    | with_reducible apply gateMod_good
    | with_reducible apply ringFault_good
    | with_reducible apply bump_good
    | with_reducible apply outAll_next
    | with_reducible apply outAll_fault
    | with_reducible apply outAll_refused
    | split
    | exact fun _ hx => hx
    | intro _

theorem execCredit_good {q : List Instr} {s : State} (ring : Ring) (arg : Byte) (h : Good q s) :
    OutAll (Good q) (execCredit ring arg s) := by
  unfold execCredit
  try dsimp only
  repeat' first
    | with_reducible assumption
    | with_reducible apply seamPump_good
    | with_reducible apply gateMod_good
    | with_reducible apply ringFault_good
    | with_reducible apply Good.foldl
    | with_reducible apply outAll_next
    | with_reducible apply outAll_fault
    | with_reducible apply outAll_refused
    | split
    | exact fun _ hx => hx
    | intro _

theorem execCtlpar_good {q : List Instr} {s : State} (ring : Ring) (d : Half) (h : Good q s) :
    OutAll (Good q) (execCtlpar ring d s) := by
  unfold execCtlpar
  try dsimp only
  repeat' first
    | with_reducible assumption
    | with_reducible apply ringFault_good
    | with_reducible apply outAll_next
    | with_reducible apply outAll_fault
    | with_reducible apply outAll_refused
    | split
    | exact fun _ hx => hx
    | intro _

theorem leaveDone_good {q : List Instr} {s : State} (why : LeaveWhy) (h : Good q s) :
    Good q (leaveDone s why) := by
  unfold leaveDone
  try dsimp only
  repeat' first
    | with_reducible assumption
    | with_reducible apply evalDom_good
    | with_reducible apply stitchRun_good
    | with_reducible apply upkeep_good
    | with_reducible apply wideReturn_good
    | with_reducible apply startUp_good
    | with_reducible apply ringMod_good
    | split
    | exact fun _ hx => hx
    | intro _

theorem unsplice_good {q : List Instr} {s : State} (h : Good q s) :
    Good q (unsplice s) := by
  unfold unsplice
  try dsimp only
  repeat' first
    | with_reducible assumption
    | with_reducible apply closeBypass_good
    | with_reducible apply leaveDone_good
    | split
    | exact fun _ hx => hx
    | intro _

theorem ejectSelf_good {q : List Instr} {s : State} (h : Good q s) :
    Good q (ejectSelf s) := by
  unfold ejectSelf
  try dsimp only
  repeat' first
    | with_reducible assumption
    | with_reducible apply setRing_good
    | with_reducible apply unsplice_good
    | split
    | exact fun _ hx => hx
    | intro _

theorem joinPulse_good {q : List Instr} {s : State} (h : Good q s) :
    Good q (joinPulse s) := by
  unfold joinPulse
  try dsimp only
  repeat' first
    | with_reducible assumption
    | with_reducible apply ringMod_good
    | with_reducible apply setRing_good
    | split
    | exact fun _ hx => hx
    | intro _

theorem execPulse_good {q : List Instr} {s : State} (ring : Ring) (arg : Byte) (h : Good q s) :
    OutAll (Good q) (execPulse ring arg s) := by
  unfold execPulse
  try dsimp only
  repeat' first
    | with_reducible assumption
    | with_reducible apply gwCtl_good
    | with_reducible apply gateMod_good
    | with_reducible apply ringFault_good
    | with_reducible apply ringMod_good
    | with_reducible apply joinPulse_good
    | with_reducible apply setRing_good
    | with_reducible apply outAll_next
    | with_reducible apply outAll_fault
    | with_reducible apply outAll_refused
    | split
    | exact fun _ hx => hx
    | intro _

theorem execPulseTimer_good {q : List Instr} {s : State} (h : Good q s) :
    OutAll (Good q) (execPulseTimer s) := by
  unfold execPulseTimer
  try dsimp only
  repeat' first
    | with_reducible assumption
    | with_reducible apply gwCtl_good
    | with_reducible apply gateMod_good
    | with_reducible apply outAll_next
    | with_reducible apply outAll_fault
    | with_reducible apply outAll_refused
    | split
    | exact fun _ hx => hx
    | intro _

theorem masterJoin_good {q : List Instr} {s : State} (chip : Byte) (h : Good q s) :
    Good q (masterJoin s chip) := by
  unfold masterJoin
  try dsimp only
  repeat' first
    | with_reducible assumption
    | with_reducible apply startPause_good
    | split
    | exact fun _ hx => hx
    | intro _

theorem execJoinSlot_good {q : List Instr} {s : State} (sample : Half) (h : Good q s) :
    OutAll (Good q) (execJoinSlot sample s) := by
  unfold execJoinSlot
  try dsimp only
  repeat' first
    | with_reducible assumption
    | with_reducible apply gwRing_good
    | with_reducible apply masterJoin_good
    | with_reducible apply ringMod_good
    | with_reducible apply outAll_next
    | with_reducible apply outAll_fault
    | with_reducible apply outAll_refused
    | split
    | exact fun _ hx => hx
    | intro _

theorem passOn_good {q : List Instr} {s : State} (msg : BitVec 4) (arg : Byte) (h : Good q s) :
    Good q (passOn s msg arg) := by
  unfold passOn
  try dsimp only
  repeat' first
    | with_reducible assumption
    | with_reducible apply gwRing_good
    | split
    | exact fun _ hx => hx
    | intro _

theorem execPause_good {q : List Instr} {s : State} (h : Good q s) :
    OutAll (Good q) (execPause s) := by
  unfold execPause
  try dsimp only
  repeat' first
    | with_reducible assumption
    | with_reducible apply bump_good
    | with_reducible apply passOn_good
    | with_reducible apply gwRing_good
    | with_reducible apply gateMod_good
    | with_reducible apply ringMod_good
    | with_reducible apply outAll_next
    | with_reducible apply outAll_fault
    | with_reducible apply outAll_refused
    | split
    | exact fun _ hx => hx
    | intro _

theorem rollCall_good {q : List Instr} {s : State} (h : Good q s) :
    Good q (rollCall s) := by
  unfold rollCall
  try dsimp only
  repeat' first
    | with_reducible assumption
    | with_reducible apply gwRing_good
    | with_reducible apply ringMod_good
    | split
    | exact fun _ hx => hx
    | intro _

theorem masterDrained_good {q : List Instr} {s : State} (splice : Bool) (chip : Byte) (h : Good q s) :
    Good q (masterDrained s splice chip) := by
  unfold masterDrained
  try dsimp only
  repeat' first
    | with_reducible assumption
    | with_reducible apply rollCall_good
    | with_reducible apply unsplice_good
    | with_reducible apply ringMod_good
    | with_reducible apply gwRing_good
    | split
    | exact fun _ hx => hx
    | intro _

theorem execQuiet_good {q : List Instr} {s : State} (ring : Ring) (h : Good q s) :
    OutAll (Good q) (execQuiet ring s) := by
  unfold execQuiet
  try dsimp only
  repeat' first
    | with_reducible assumption
    | with_reducible apply masterDrained_good
    | with_reducible apply gwRing_good
    | with_reducible apply gateMod_good
    | with_reducible apply outAll_next
    | with_reducible apply outAll_fault
    | with_reducible apply outAll_refused
    | split
    | exact fun _ hx => hx
    | intro _

theorem openBypass_good {q : List Instr} {s : State} (h : Good q s) :
    Good q (openBypass s) := by
  unfold openBypass
  try dsimp only
  repeat' first
    | with_reducible assumption
    | with_reducible apply gateMod_good
    | with_reducible apply ringMod_good
    | with_reducible apply setRing_good
    | split
    | exact fun _ hx => hx
    | intro _

theorem execGrant_good {q : List Instr} {s : State} (chip : Byte) (h : Good q s) :
    OutAll (Good q) (execGrant chip s) := by
  unfold execGrant
  try dsimp only
  repeat' first
    | with_reducible assumption
    | with_reducible apply openBypass_good
    | with_reducible apply ringMod_good
    | with_reducible apply passOn_good
    | with_reducible apply rollCall_good
    | with_reducible apply outAll_next
    | with_reducible apply outAll_fault
    | with_reducible apply outAll_refused
    | split
    | exact fun _ hx => hx
    | intro _

theorem execJoin_good {q : List Instr} {s : State} (chip : Byte) (h : Good q s) :
    OutAll (Good q) (execJoin chip s) := by
  unfold execJoin
  try dsimp only
  repeat' first
    | with_reducible assumption
    | with_reducible apply passOn_good
    | with_reducible apply masterJoin_good
    | with_reducible apply outAll_next
    | with_reducible apply outAll_fault
    | with_reducible apply outAll_refused
    | split
    | exact fun _ hx => hx
    | intro _

theorem execLeave_good {q : List Instr} {s : State} (chip : Byte) (h : Good q s) :
    OutAll (Good q) (execLeave chip s) := by
  unfold execLeave
  try dsimp only
  repeat' first
    | with_reducible assumption
    | with_reducible apply passOn_good
    | with_reducible apply serveLeave_good
    | with_reducible apply outAll_next
    | with_reducible apply outAll_fault
    | with_reducible apply outAll_refused
    | split
    | exact fun _ hx => hx
    | intro _

theorem execRelease_good {q : List Instr} {s : State} (chip : Byte) (h : Good q s) :
    OutAll (Good q) (execRelease chip s) := by
  unfold execRelease
  try dsimp only
  repeat' first
    | with_reducible assumption
    | with_reducible apply unsplice_good
    | with_reducible apply passOn_good
    | with_reducible apply outAll_next
    | with_reducible apply outAll_fault
    | with_reducible apply outAll_refused
    | split
    | exact fun _ hx => hx
    | intro _

theorem execRingtoExpiry_good {q : List Instr} {s : State} (h : Good q s) :
    OutAll (Good q) (execRingtoExpiry s) := by
  unfold execRingtoExpiry
  try dsimp only
  repeat' first
    | with_reducible assumption
    | with_reducible apply unsplice_good
    | with_reducible apply outAll_next
    | with_reducible apply outAll_fault
    | with_reducible apply outAll_refused
    | split
    | exact fun _ hx => hx
    | intro _

theorem execMasterSelfSplice_good {q : List Instr} {s : State} (pulseSeen : Bool) (h : Good q s) :
    OutAll (Good q) (execMasterSelfSplice pulseSeen s) := by
  unfold execMasterSelfSplice
  try dsimp only
  repeat' first
    | with_reducible assumption
    | with_reducible apply openBypass_good
    | with_reducible apply rollCall_good
    | with_reducible apply setRing_good
    | with_reducible apply outAll_next
    | with_reducible apply outAll_fault
    | with_reducible apply outAll_refused
    | split
    | exact fun _ hx => hx
    | intro _

theorem resumeSelf_good {q : List Instr} {s : State} (l : List Byte) (h : Good q s) :
    Good q (resumeSelf s l) := by
  unfold resumeSelf
  try dsimp only
  repeat' first
    | with_reducible assumption
    | with_reducible apply clearCtl_good
    | with_reducible apply reform_good
    | with_reducible apply seamPumps_good
    | with_reducible apply upkeep_good
    | with_reducible apply ringMod_good
    | with_reducible apply dirSplice_good
    | with_reducible apply gateMod_good
    | with_reducible apply setRing_good
    | with_reducible apply tableSet_good
    | split
    | exact fun _ hx => hx
    | intro _

theorem leavesServe_good {q : List Instr} {s : State} (h : Good q s) :
    Good q (leavesServe s) := by
  unfold leavesServe
  try dsimp only
  repeat' first
    | with_reducible assumption
    | with_reducible apply ringMod_good
    | with_reducible apply startPause_good
    | split
    | exact fun _ hx => hx
    | intro _

theorem execRollstart_good {q : List Instr} {s : State} (h : Good q s) :
    OutAll (Good q) (execRollstart s) := by
  unfold execRollstart
  try dsimp only
  repeat' first
    | with_reducible assumption
    | with_reducible apply ringMod_good
    | with_reducible apply passOn_good
    | with_reducible apply ringFault_good
    | with_reducible apply rollCall_good
    | with_reducible apply outAll_next
    | with_reducible apply outAll_fault
    | with_reducible apply outAll_refused
    | split
    | exact fun _ hx => hx
    | intro _

theorem execRoll_good {q : List Instr} {s : State} (chip : Byte) (h : Good q s) :
    OutAll (Good q) (execRoll chip s) := by
  unfold execRoll
  try dsimp only
  repeat' first
    | with_reducible assumption
    | with_reducible apply passOn_good
    | with_reducible apply ejectSelf_good
    | with_reducible apply ringMod_good
    | with_reducible apply rollCall_good
    | with_reducible apply outAll_next
    | with_reducible apply outAll_fault
    | with_reducible apply outAll_refused
    | split
    | exact fun _ hx => hx
    | intro _

theorem rollDone_good {q : List Instr} {s : State} (h : Good q s) :
    Good q (rollDone s) := by
  unfold rollDone
  try dsimp only
  repeat' first
    | with_reducible assumption
    | with_reducible apply resumeSelf_good
    | with_reducible apply leavesServe_good
    | with_reducible apply gwRing_good
    | with_reducible apply Good.foldl
    | split
    | exact fun _ hx => hx
    | intro _

theorem execRollend_good {q : List Instr} {s : State} (h : Good q s) :
    OutAll (Good q) (execRollend s) := by
  unfold execRollend
  try dsimp only
  repeat' first
    | with_reducible assumption
    | with_reducible apply ringMod_good
    | with_reducible apply gwRing_good
    | with_reducible apply passOn_good
    | with_reducible apply rollDone_good
    | with_reducible apply rollCall_good
    | with_reducible apply outAll_next
    | with_reducible apply outAll_fault
    | with_reducible apply outAll_refused
    | split
    | exact fun _ hx => hx
    | intro _

theorem execTable_good {q : List Instr} {s : State} (chip : Byte) (h : Good q s) :
    OutAll (Good q) (execTable chip s) := by
  unfold execTable
  try dsimp only
  repeat' first
    | with_reducible assumption
    | with_reducible apply ringMod_good
    | with_reducible apply passOn_good
    | with_reducible apply outAll_next
    | with_reducible apply outAll_fault
    | with_reducible apply outAll_refused
    | split
    | exact fun _ hx => hx
    | intro _

theorem execResume_good {q : List Instr} {s : State} (h : Good q s) :
    OutAll (Good q) (execResume s) := by
  unfold execResume
  try dsimp only
  repeat' first
    | with_reducible assumption
    | with_reducible apply resumeSelf_good
    | with_reducible apply passOn_good
    | with_reducible apply outAll_next
    | with_reducible apply outAll_fault
    | with_reducible apply outAll_refused
    | split
    | exact fun _ hx => hx
    | intro _

theorem execDup_good {q : List Instr} {s : State} (chip : Byte) (h : Good q s) :
    OutAll (Good q) (execDup chip s) := by
  unfold execDup
  try dsimp only
  repeat' first
    | with_reducible assumption
    | with_reducible apply passOn_good
    | with_reducible apply gwRing_good
    | with_reducible apply ringMod_good
    | with_reducible apply rollCall_good
    | with_reducible apply outAll_next
    | with_reducible apply outAll_fault
    | with_reducible apply outAll_refused
    | split
    | exact fun _ hx => hx
    | intro _

theorem execEject_good {q : List Instr} {s : State} (chip : Byte) (h : Good q s) :
    OutAll (Good q) (execEject chip s) := by
  unfold execEject
  try dsimp only
  repeat' first
    | with_reducible assumption
    | with_reducible apply passOn_good
    | with_reducible apply ejectSelf_good
    | with_reducible apply outAll_next
    | with_reducible apply outAll_fault
    | with_reducible apply outAll_refused
    | split
    | exact fun _ hx => hx
    | intro _

theorem masterAbort_good {q : List Instr} {s : State} (h : Good q s) :
    Good q (masterAbort s) := by
  unfold masterAbort
  try dsimp only
  repeat' first
    | with_reducible assumption
    | with_reducible apply ringStop_good
    | with_reducible apply reform_good
    | split
    | exact fun _ hx => hx
    | intro _

theorem execRingFaultMsg_good {q : List Instr} {s : State} (chip : Byte) (h : Good q s) :
    OutAll (Good q) (execRingFaultMsg chip s) := by
  unfold execRingFaultMsg
  try dsimp only
  repeat' first
    | with_reducible assumption
    | with_reducible apply passOn_good
    | with_reducible apply masterAbort_good
    | with_reducible apply reform_good
    | with_reducible apply outAll_next
    | with_reducible apply outAll_fault
    | with_reducible apply outAll_refused
    | split
    | exact fun _ hx => hx
    | intro _

theorem abortReturned_good {q : List Instr} {s : State} (ring : Ring) (h : Good q s) :
    Good q (abortReturned s ring) := by
  unfold abortReturned
  try dsimp only
  repeat' first
    | with_reducible assumption
    | with_reducible apply rollCall_good
    | with_reducible apply gateMod_good
    | split
    | exact fun _ hx => hx
    | intro _

theorem execAbort_good {q : List Instr} {s : State} (ring : Ring) (h : Good q s) :
    OutAll (Good q) (execAbort ring s) := by
  unfold execAbort
  try dsimp only
  repeat' first
    | with_reducible assumption
    | with_reducible apply gateMod_good
    | with_reducible apply ringStop_good
    | with_reducible apply abortClear_good
    | with_reducible apply gwRing_good
    | with_reducible apply abortReturned_good
    | with_reducible apply reform_good
    | with_reducible apply outAll_next
    | with_reducible apply outAll_fault
    | with_reducible apply outAll_refused
    | split
    | exact fun _ hx => hx
    | intro _

theorem execAbortRepeat_good {q : List Instr} {s : State} (h : Good q s) :
    OutAll (Good q) (execAbortRepeat s) := by
  unfold execAbortRepeat
  try dsimp only
  repeat' first
    | with_reducible assumption
    | with_reducible apply sendAborts_good
    | with_reducible apply reform_good
    | with_reducible apply outAll_next
    | with_reducible apply outAll_fault
    | with_reducible apply outAll_refused
    | split
    | exact fun _ hx => hx
    | intro _

theorem execNopulse_good {q : List Instr} {s : State} (h : Good q s) :
    OutAll (Good q) (execNopulse s) := by
  unfold execNopulse
  try dsimp only
  repeat' first
    | with_reducible assumption
    | with_reducible apply setRing_good
    | with_reducible apply ringFault_good
    | with_reducible apply gateMod_good
    | with_reducible apply outAll_next
    | with_reducible apply outAll_fault
    | with_reducible apply outAll_refused
    | split
    | exact fun _ hx => hx
    | intro _

end Sys2Proof.Machine
end

