-- ==== Sys2Proof/Laws/KeepResets.lean ====
section
/-!
SUPPORT. The queue and the invariant through the definitions of Machine/Resets.lean (see Laws/Good.lean).
-/
set_option linter.all false

namespace Sys2Proof.Machine

theorem noticeSend_good {q : List Instr} {s : State} (chip : Byte) (port : Nat) (h : Good q s) :
    Good q (noticeSend s chip port) := by
  unfold noticeSend
  try dsimp only
  repeat' first
    | with_reducible assumption
    | with_reducible apply agentAsk_good
    | split
    | exact fun _ hx => hx
    | intro _

theorem noticesSend_good {q : List Instr} {s : State} (n : Nat) (h : Good q s) :
    Good q (noticesSend s n) := by
  unfold noticesSend
  try dsimp only
  repeat' first
    | with_reducible assumption
    | with_reducible apply sysMod_good
    | with_reducible apply noticeSend_good
    | with_reducible apply Good.foldl
    | split
    | exact fun _ hx => hx
    | intro _

theorem portGone_good {q : List Instr} {s : State} (chip : Byte) (n : Nat) (h : Good q s) :
    Good q (portGone s chip n) := by
  unfold portGone
  try dsimp only
  repeat' first
    | with_reducible assumption
    | with_reducible apply votesDrop_good
    | with_reducible apply locksFree_good
    | split
    | exact fun _ hx => hx
    | intro _

theorem bobsGone_good {q : List Instr} {s : State} (n : Nat) (h : Good q s) :
    Good q (bobsGone s n) := by
  unfold bobsGone
  try dsimp only
  repeat' first
    | with_reducible assumption
    | with_reducible apply jHw_good
    | with_reducible apply bobFlush_good
    | with_reducible apply bobMod_good
    | with_reducible apply Good.foldl
    | split
    | exact fun _ hx => hx
    | intro _

theorem basteGone_good {q : List Instr} {s : State} (clients : List Nat) (h : Good q s) :
    Good q (basteGone s clients) := by
  unfold basteGone
  try dsimp only
  repeat' first
    | with_reducible assumption
    | with_reducible apply basteEmpty_good
    | with_reducible apply sysMod_good
    | split
    | exact fun _ hx => hx
    | intro _

theorem portReturn_good {q : List Instr} {s : State} (n : Nat) (h : Good q s) :
    Good q (portReturn s n) := by
  unfold portReturn
  try dsimp only
  repeat' first
    | with_reducible assumption
    | with_reducible apply zeroCounters_good
    | with_reducible apply domSet_good
    | with_reducible apply faultSet_good
    | with_reducible apply portSet_good
    | with_reducible apply cfgDrop_good
    | with_reducible apply domOk_resetOf
    | exact domOk_resetOf _
    | split
    | exact fun _ hx => hx
    | (show domOk _ _; assumption)
    | intro _
    | omega

theorem portRstGo_good {q : List Instr} {s : State} (h : Good q s) :
    Good q (portRstGo s) := by
  unfold portRstGo
  try dsimp only
  repeat' first
    | with_reducible assumption
    | with_reducible apply anchor_good
    | with_reducible apply sysMod_good
    | with_reducible apply upkeep_good
    | with_reducible apply dirFreePort_good
    | with_reducible apply noticesSend_good
    | with_reducible apply portReturn_good
    | with_reducible apply portGone_good
    | with_reducible apply bobsGone_good
    | with_reducible apply basteGone_good
    | with_reducible apply domChange_good
    | with_reducible apply finishPort_good
    | with_reducible apply portUnpower_good
    | split
    | exact fun _ hx => hx
    | (show domOk _ _; assumption)
    | intro _
    | omega

theorem agentsDrop_good {q : List Instr} {s : State} (h : Good q s) :
    Good q (agentsDrop s) := by
  unfold agentsDrop
  apply Good.foldl _ h
  intro t node ht
  apply Good.foldl _ ht
  intro u net hu
  exact nodeMod_good _ _ _ hu

theorem sysReset_good {q : List Instr} {s : State} (h : Good q s) :
    Good q (sysReset s) := by
  unfold sysReset
  try dsimp only
  repeat' first
    | with_reducible assumption
    | with_reducible apply domMod_good
    | with_reducible apply hostMod_good
    | with_reducible apply agentsDrop_good
    | with_reducible apply sysMod_good
    | with_reducible apply agentTagsDone_good
    | split
    | exact fun _ hx => hx
    | (show domOk _ _; assumption)
    | intro _
    | omega

theorem chipReset_good {q : List Instr} {s : State} (h : Good q s) :
    Good q (chipReset s) := by
  unfold chipReset
  try dsimp only
  repeat' first
    | with_reducible assumption
    | with_reducible apply wideReturn_good
    | with_reducible apply startUp_good
    | with_reducible apply ringMod_good
    | with_reducible apply askLeave_good
    | split
    | exact fun _ hx => hx
    | intro _

theorem ringChipReset_good {q : List Instr} {s : State} (h : Good q s) :
    Good q (ringChipReset s) := by
  unfold ringChipReset
  try dsimp only
  repeat' first
    | with_reducible assumption
    | with_reducible apply wideReturn_good
    | with_reducible apply startUp_good
    | split
    | exact fun _ hx => hx
    | intro _

theorem ringReset_good {q : List Instr} {s : State} (h : Good q s) :
    Good q (ringReset s) := by
  unfold ringReset
  try dsimp only
  repeat' first
    | with_reducible assumption
    | with_reducible apply sysMod_good
    | with_reducible apply ringChipReset_good
    | split
    | exact fun _ hx => hx
    | intro _

theorem resetStart_good {q : List Instr} {s : State} (o : Origin) (h : Good q s) :
    Good q (resetStart s o) := by
  unfold resetStart
  try dsimp only
  repeat' first
    | with_reducible assumption
    | with_reducible apply ringReset_good
    | with_reducible apply chipReset_good
    | with_reducible apply sysReset_good
    | with_reducible apply portRstGo_good
    | with_reducible apply chipFault_good
    | with_reducible apply sysMod_good
    | split
    | exact fun _ hx => hx
    | intro _

theorem execRingResetNotice_good {q : List Instr} {s : State} (schip : Byte) (h : Good q s) :
    OutAll (Good q) (execRingResetNotice schip s) := by
  unfold execRingResetNotice
  try dsimp only
  repeat' first
    | with_reducible assumption
    | with_reducible apply refuse_good
    | with_reducible apply sysMod_good
    | with_reducible apply outAll_next
    | with_reducible apply outAll_fault
    | with_reducible apply outAll_refused
    | split
    | exact fun _ hx => hx
    | intro _

theorem execRingResetDelay_good {q : List Instr} {s : State} (h : Good q s) :
    OutAll (Good q) (execRingResetDelay s) := by
  unfold execRingResetDelay
  try dsimp only
  repeat' first
    | with_reducible assumption
    | with_reducible apply ringChipReset_good
    | with_reducible apply outAll_next
    | with_reducible apply outAll_fault
    | with_reducible apply outAll_refused
    | split
    | exact fun _ hx => hx
    | intro _

theorem execRingResetNoAnswer_good {q : List Instr} {s : State} (h : Good q s) :
    OutAll (Good q) (execRingResetNoAnswer s) := by
  unfold execRingResetNoAnswer
  try dsimp only
  repeat' first
    | with_reducible assumption
    | with_reducible apply ringChipReset_good
    | with_reducible apply outAll_next
    | with_reducible apply outAll_fault
    | with_reducible apply outAll_refused
    | split
    | exact fun _ hx => hx
    | intro _

theorem execRingManagementResend_good {q : List Instr} {s : State} (h : Good q s) :
    OutAll (Good q) (execRingManagementResend s) := by
  unfold execRingManagementResend
  try dsimp only
  repeat' first
    | with_reducible assumption
    | with_reducible apply noticeSend_good
    | with_reducible apply Good.foldl
    | with_reducible apply outAll_next
    | with_reducible apply outAll_fault
    | with_reducible apply outAll_refused
    | split
    | exact fun _ hx => hx
    | intro _

end Sys2Proof.Machine
end

