-- ==== Sys2Proof/Laws/KeepWords.lean ====
section
/-!
SUPPORT. The queue and the invariant through the definitions of Machine/Words.lean (see Laws/Good.lean).
-/
set_option linter.all false

namespace Sys2Proof.Machine

theorem readClear_good {q : List Instr} {s : State} (x2 : Wd) (h : Good q s) :
    Good q (readClear s x2) := by
  unfold readClear
  try dsimp only
  repeat' first
    | with_reducible assumption
    | with_reducible apply portMod_good
    | with_reducible apply cntMod_good
    | with_reducible apply timeMod_good
    | split
    | exact fun _ hx => hx
    | intro _

end Sys2Proof.Machine
end

