-- ==== Sys2Proof/Laws/KeepRegisters.lean ====
section
/-!
SUPPORT. The queue and the invariant through the definitions of Machine/Registers.lean (see Laws/Good.lean).
-/
set_option linter.all false

namespace Sys2Proof.Machine

theorem noPlace_good {q : List Instr} {s : State} (h : Good q s) :
    (noPlace s).All (Good q) := by
  unfold noPlace
  try dsimp only
  repeat' first
    | with_reducible assumption
    | with_reducible apply timeMod_good
    | with_reducible apply wres_done
    | with_reducible apply wres_refused
    | with_reducible apply wres_later
    | with_reducible apply wres_wait
    | split
    | exact fun _ hx => hx
    | intro _

theorem gatherStart_good {q : List Instr} {s : State} (h : Good q s) :
    Good q (gatherStart s) := by
  unfold gatherStart
  try dsimp only
  repeat' first
    | with_reducible assumption
    | with_reducible apply cntMod_good
    | split
    | exact fun _ hx => hx
    | (show domOk _ _; assumption)
    | intro _
    | omega

theorem counterCmd_good {q : List Instr} {s : State} (cmd : Nat) (h : Good q s) :
    Good q (counterCmd s cmd) := by
  unfold counterCmd
  try dsimp only
  repeat' first
    | with_reducible assumption
    | with_reducible apply cntMod_good
    | with_reducible apply gatherStart_good
    | split
    | exact fun _ hx => hx
    | intro _

theorem counterPut_good {q : List Instr} {s : State} (b : Nat) (i : Nat) (blk : Blk) (k : Nat) (val : Bool) (v : Word) (h : Good q s) :
    Good q (counterPut s b i blk k val v) := by
  unfold counterPut
  try dsimp only
  repeat' first
    | with_reducible assumption
    | with_reducible apply cfgSet_good
    | with_reducible apply setCval_good
    | with_reducible apply setCovf_good
    | split
    | exact fun _ hx => hx
    | intro _

theorem tackPut_good {q : List Instr} {s : State} (i : Nat) (v : Word) (h : Good q s) :
    Good q (tackPut s i v) := by
  unfold tackPut
  try dsimp only
  repeat' first
    | with_reducible assumption
    | with_reducible apply cfgSet_good
    | with_reducible apply timeMod_good
    | split
    | exact fun _ hx => hx
    | intro _

theorem bankPut_good {q : List Instr} {s : State} (b : Nat) (i : Nat) (v : Word) (h : Good q s) :
    Good q (bankPut s b i v) := by
  unfold bankPut
  try dsimp only
  repeat' first
    | with_reducible assumption
    | with_reducible apply tackPut_good
    | with_reducible apply sysMod_good
    | with_reducible apply cfgSet_good
    | with_reducible apply portMod_good
    | with_reducible apply counterPut_good
    | split
    | exact fun _ hx => hx
    | intro _

theorem regPut_good {q : List Instr} {s : State} (o : Origin) (i : Nat) (v : Word) (h : Good q s) :
    Good q (regPut s o i v) := by
  unfold regPut
  try dsimp only
  repeat' first
    | with_reducible assumption
    | with_reducible apply reform_good
    | with_reducible apply ringMod_good
    | with_reducible apply timeMod_good
    | with_reducible apply powMod_good
    | with_reducible apply sysMod_good
    | split
    | exact fun _ hx => hx
    | intro _

theorem wordPut_good {q : List Instr} {s : State} (o : Origin) (wd : Wd) (v : Word) (h : Good q s) :
    Good q (wordPut s o wd v) := by
  unfold wordPut
  try dsimp only
  repeat' first
    | with_reducible assumption
    | with_reducible apply faultSet_good
    | with_reducible apply domMod_good
    | with_reducible apply regPut_good
    | with_reducible apply bankPut_good
    | exact fun x hx => domcmdPut_ok _ x v hx
    | split
    | exact fun _ hx => hx
    | (show domOk _ _; assumption)
    | intro _
    | omega

theorem bcfgFlush_good {q : List Instr} {s : State} (b : Nat) (old : Word) (v : Word) (h : Good q s) :
    Good q (bcfgFlush s b old v) := by
  unfold bcfgFlush
  try dsimp only
  repeat' first
    | with_reducible assumption
    | with_reducible apply bobFlush_good
    | split
    | exact fun _ hx => hx
    | intro _

theorem ringctlAfter_good {q : List Instr} {s : State} (v : Word) (h : Good q s) :
    Good q (ringctlAfter s v) := by
  unfold ringctlAfter
  try dsimp only
  repeat' first
    | with_reducible assumption
    | with_reducible apply ringMod_good
    | with_reducible apply setRing_good
    | with_reducible apply ringStop_good
    | with_reducible apply reform_good
    | with_reducible apply clearCtl_good
    | with_reducible apply askLeave_good
    | split
    | exact fun _ hx => hx
    | intro _

theorem wordAfter_good {q : List Instr} {s0 s : State} (o : Origin) (wd : Wd) (v : Word) (h : Good q s0) (h1 : Good q s) :
    Good q (wordAfter s0 s o wd v) := by
  unfold wordAfter
  try dsimp only
  repeat' first
    | with_reducible assumption
    | with_reducible apply alarmSet_good
    | with_reducible apply rtcSet_good
    | with_reducible apply portDie_good
    | with_reducible apply evalDom_good
    | with_reducible apply ringctlAfter_good
    | with_reducible apply counterCmd_good
    | with_reducible apply upkeep_good
    | with_reducible apply resetStart_good
    | with_reducible apply bellWake_good
    | with_reducible apply portMod_good
    | split
    | exact fun _ hx => hx
    | (show domOk _ _; assumption)
    | intro _
    | omega

theorem wordApply_good {q : List Instr} {s : State} (o : Origin) (wd : Wd) (old : Word) (v : Word) (j : Bool) (h : Good q s) :
    Good q (wordApply s o wd old v j) := by
  unfold wordApply
  try dsimp only
  repeat' first
    | with_reducible assumption
    | with_reducible apply wordAfter_good
    | with_reducible apply jOrigin_good
    | with_reducible apply wordPut_good
    | with_reducible apply bcfgFlush_good
    | split
    | exact fun _ hx => hx
    | intro _

theorem wordGo_good {q : List Instr} {s : State} (o : Origin) (wd : Wd) (old : Word) (v : Word) (j : Bool) (h : Good q s) :
    (wordGo s o wd old v j).All (Good q) := by
  unfold wordGo
  try dsimp only
  repeat' first
    | with_reducible assumption
    | with_reducible apply wordApply_good
    | with_reducible apply noPlace_good
    | with_reducible apply wres_done
    | with_reducible apply wres_refused
    | with_reducible apply wres_later
    | with_reducible apply wres_wait
    | split
    | exact fun _ hx => hx
    | intro _
    | with_reducible refine wres_get_done (by with_reducible assumption) ?_
    | with_reducible refine wres_get_refused (by with_reducible assumption) ?_
    | with_reducible refine wres_get_later (by with_reducible assumption) ?_

theorem basteWrite_good {q : List Instr} {s : State} (o : Origin) (b : Nat) (i : Nat) (data : Word) (be : BitVec 4) (h : Good q s) :
    (basteWrite s o b i data be).All (Good q) := by
  unfold basteWrite
  try dsimp only
  repeat' first
    | with_reducible assumption
    | with_reducible apply basteIn_good
    | with_reducible apply refuse_good
    | with_reducible apply wres_done
    | with_reducible apply wres_refused
    | with_reducible apply wres_later
    | with_reducible apply wres_wait
    | split
    | exact fun _ hx => hx
    | intro _

theorem bastingCmd_good {q : List Instr} {s : State} (o : Origin) (cmd : Nat) (req : Option (Pkt × Nat)) (h : Good q s) :
    (bastingCmd s o cmd req).All (Good q) := by
  unfold bastingCmd
  try dsimp only
  repeat' first
    | with_reducible assumption
    | with_reducible apply basteEmpty_good
    | with_reducible apply stitchStart_good
    | with_reducible apply sysMod_good
    | with_reducible apply refuse_good
    | with_reducible apply wres_done
    | with_reducible apply wres_refused
    | with_reducible apply wres_later
    | with_reducible apply wres_wait
    | split
    | exact fun _ hx => hx
    | intro _

theorem fenceCmd_good {q : List Instr} {s : State} (v : Word) (req : Option (Pkt × Nat)) (h : Good q s) :
    (fenceCmd s v req).All (Good q) := by
  unfold fenceCmd
  try dsimp only
  repeat' first
    | with_reducible assumption
    | with_reducible apply sysMod_good
    | with_reducible apply agentAsk_good
    | with_reducible apply wres_done
    | with_reducible apply wres_refused
    | with_reducible apply wres_later
    | with_reducible apply wres_wait
    | split
    | exact fun _ hx => hx
    | intro _

theorem voteWrite_good {q : List Instr} {s : State} (o : Origin) (d : Nat) (data : Word) (be : BitVec 4) (req : Option (Pkt × Nat)) (h : Good q s) :
    (voteWrite s o d data be req).All (Good q) := by
  unfold voteWrite
  try dsimp only
  repeat' first
    | with_reducible assumption
    | with_reducible apply voteArrive_good
    | with_reducible apply voteSet_good
    | with_reducible apply jOrigin_good
    | with_reducible apply evalDom_good
    | with_reducible apply upkeep_good
    | with_reducible apply noPlace_good
    | with_reducible apply refuse_good
    | with_reducible apply wres_done
    | with_reducible apply wres_refused
    | with_reducible apply wres_later
    | with_reducible apply wres_wait
    | split
    | exact fun _ hx => hx
    | (show domOk _ _; assumption)
    | intro _
    | with_reducible refine wres_get_done (by with_reducible assumption) ?_
    | with_reducible refine wres_get_refused (by with_reducible assumption) ?_
    | with_reducible refine wres_get_later (by with_reducible assumption) ?_
    | omega

theorem wakeWrite_good {q : List Instr} {s : State} (o : Origin) (data : Word) (h : Good q s) :
    (wakeWrite s o data).All (Good q) := by
  unfold wakeWrite
  try dsimp only
  repeat' first
    | with_reducible assumption
    | with_reducible apply jOrigin_good
    | with_reducible apply bump_good
    | with_reducible apply wakeEvent_good
    | with_reducible apply upkeep_good
    | with_reducible apply noPlace_good
    | with_reducible apply wres_done
    | with_reducible apply wres_refused
    | with_reducible apply wres_later
    | with_reducible apply wres_wait
    | split
    | exact fun _ hx => hx
    | intro _
    | with_reducible refine wres_get_done (by with_reducible assumption) ?_
    | with_reducible refine wres_get_refused (by with_reducible assumption) ?_
    | with_reducible refine wres_get_later (by with_reducible assumption) ?_

theorem portrstWrite_good {q : List Instr} {s : State} (o : Origin) (data : Word) (h : Good q s) :
    (portrstWrite s o data).All (Good q) := by
  unfold portrstWrite
  try dsimp only
  repeat' first
    | with_reducible assumption
    | with_reducible apply refuse_good
    | with_reducible apply portGone_good
    | with_reducible apply upkeep_good
    | with_reducible apply wres_done
    | with_reducible apply wres_refused
    | with_reducible apply wres_later
    | with_reducible apply wres_wait
    | split
    | exact fun _ hx => hx
    | intro _

theorem directoryWrite_good {q : List Instr} {s : State} (o : Origin) (i : Nat) (data : Word) (h : Good q s) :
    (directoryWrite s o i data).All (Good q) := by
  unfold directoryWrite
  try dsimp only
  repeat' first
    | with_reducible assumption
    | with_reducible apply refuse_good
    | with_reducible apply noPlace_good
    | with_reducible apply wordApply_good
    | with_reducible apply wres_done
    | with_reducible apply wres_refused
    | with_reducible apply wres_later
    | with_reducible apply wres_wait
    | split
    | exact fun _ hx => hx
    | intro _
    | with_reducible refine wres_get_done (by with_reducible assumption) ?_
    | with_reducible refine wres_get_refused (by with_reducible assumption) ?_
    | with_reducible refine wres_get_later (by with_reducible assumption) ?_

theorem writeWord_good {q : List Instr} {s : State} (o : Origin) (wd : Wd) (data : Word) (be : BitVec 4) (req : Option (Pkt × Nat)) (h : Good q s) :
    (writeWord s o wd data be req).All (Good q) := by
  unfold writeWord
  try dsimp only
  repeat' first
    | with_reducible assumption
    | with_reducible apply wordGo_good
    | with_reducible apply fenceCmd_good
    | with_reducible apply bastingCmd_good
    | with_reducible apply refuse_good
    | with_reducible apply basteWrite_good
    | with_reducible apply directoryWrite_good
    | with_reducible apply portrstWrite_good
    | with_reducible apply wakeWrite_good
    | with_reducible apply voteWrite_good
    | with_reducible apply wres_done
    | with_reducible apply wres_refused
    | with_reducible apply wres_later
    | with_reducible apply wres_wait
    | split
    | exact fun _ hx => hx
    | intro _
    | with_reducible refine wres_get_done (by with_reducible assumption) ?_
    | with_reducible refine wres_get_refused (by with_reducible assumption) ?_
    | with_reducible refine wres_get_later (by with_reducible assumption) ?_

end Sys2Proof.Machine
end

