-- ==== Sys2Proof/Laws/KeepSysAccess.lean ====
section
/-!
SUPPORT. The queue and the invariant through the definitions of Machine/SysAccess.lean (see Laws/Good.lean).
-/
set_option linter.all false

namespace Sys2Proof.Machine

theorem bobDone_good {q : List Instr} {s : State} (b : Nat) (seq : BitVec 4) (h : Good q s) :
    Good q (bobDone s b seq) := by
  unfold bobDone
  try dsimp only
  repeat' first
    | with_reducible assumption
    | with_reducible apply bobMod_good
    | split
    | exact fun _ hx => hx
    | intro _

theorem hostBobStatWrite_good {q : List Instr} {s : State} (hd : Half) (h : Good q s) :
    (hostBobStatWrite s hd).All (Good q) := by
  unfold hostBobStatWrite
  try dsimp only
  repeat' first
    | with_reducible assumption
    | with_reducible apply bobDone_good
    | with_reducible apply jOrigin_good
    | with_reducible apply bobFlush_good
    | with_reducible apply bobMod_good
    | with_reducible apply noPlace_good
    | with_reducible apply wres_done
    | with_reducible apply wres_refused
    | with_reducible apply wres_later
    | with_reducible apply wres_wait
    | split
    | exact fun _ hx => hx
    | intro _
    | with_reducible refine wres_get_done (by with_reducible assumption) ?_
    | with_reducible refine wres_get_refused (by with_reducible assumption) ?_
    | with_reducible refine wres_get_later (by with_reducible assumption) ?_

theorem hostDoorbellWrite_good {q : List Instr} {s : State} (hd : Half) (h : Good q s) :
    Good q (hostDoorbellWrite s hd) := by
  unfold hostDoorbellWrite
  try dsimp only
  repeat' first
    | with_reducible assumption
    | with_reducible apply bellSet_good
    | with_reducible apply upkeep_good
    | with_reducible apply bellClear_good
    | split
    | exact fun _ hx => hx
    | intro _

theorem bobdataRead_good {q : List Instr} {s : State} (h : Good q s) :
    Good q (bobdataRead s) := by
  unfold bobdataRead
  dsimp only
  split
  · apply hostMod_good _ h
    intro y hy
    refine ⟨hy.1, hy.2.1, hy.2.2.1, ?_⟩
    show BitVec.toNat (if 8 ≤ s.host.bobitem.toNat then 8 else s.host.bobitem + 1) ≤ 8
    split
    · exact Nat.le_refl 8
    · simp only [BitVec.toNat_add]; simp; omega
  · apply hostMod_good _ h
    exact fun _ hy => hy

theorem winNext_good {q : List Instr} {s : State} (h : Good q s) :
    Good q (winNext s) := by
  unfold winNext
  try dsimp only
  repeat' first
    | with_reducible assumption
    | with_reducible apply hostMod_good
    | split
    | exact fun _ hx => hx
    | intro _

theorem cvalLatch_good {q : List Instr} {s : State} (b : Nat) (i : Nat) (h : Good q s) :
    Good q (cvalLatch s b i) := by
  unfold cvalLatch
  try dsimp only
  repeat' first
    | with_reducible assumption
    | with_reducible apply hostMod_good
    | split
    | exact fun _ hx => hx
    | intro _

theorem windataRead_good {q : List Instr} {s : State} (h : Good q s) :
    Good q (windataRead s) := by
  unfold windataRead
  try dsimp only
  repeat' first
    | with_reducible assumption
    | with_reducible apply cvalLatch_good
    | with_reducible apply readClear_good
    | with_reducible apply hostMod_good
    | with_reducible apply winNext_good
    | split
    | exact fun _ hx => hx
    | intro _

theorem winMark_good {q : List Instr} {s : State} (st : Status) (h : Good q s) :
    Good q (winMark s st) := by
  unfold winMark
  try dsimp only
  repeat' first
    | with_reducible assumption
    | with_reducible apply hostMod_good
    | split
    | exact fun _ hx => hx
    | intro _

theorem winWrite_good {q : List Instr} {s : State} (b : Nat) (i : Nat) (v : Word) (h : Good q s) :
    (winWrite s b i v).All (Good q) := by
  unfold winWrite
  try dsimp only
  repeat' first
    | with_reducible assumption
    | with_reducible apply winMark_good
    | with_reducible apply writeWord_good
    | with_reducible apply hostMod_good
    | with_reducible apply wres_done
    | with_reducible apply wres_refused
    | with_reducible apply wres_later
    | with_reducible apply wres_wait
    | split
    | exact fun _ hx => hx
    | intro _
    | with_reducible refine wres_get_done (by with_reducible assumption) ?_
    | with_reducible refine wres_get_refused (by with_reducible assumption) ?_
    | with_reducible refine wres_get_later (by with_reducible assumption) ?_

theorem plainWrite_good {q : List Instr} {s : State} (wd : Wd) (hd : Half) (h : Good q s) :
    (plainWrite s wd hd).All (Good q) := by
  unfold plainWrite
  try dsimp only
  repeat' first
    | with_reducible assumption
    | with_reducible apply writeWord_good
    | with_reducible apply wres_done
    | with_reducible apply wres_refused
    | with_reducible apply wres_later
    | with_reducible apply wres_wait
    | split
    | exact fun _ hx => hx
    | intro _
    | with_reducible refine wres_get_done (by with_reducible assumption) ?_
    | with_reducible refine wres_get_refused (by with_reducible assumption) ?_
    | with_reducible refine wres_get_later (by with_reducible assumption) ?_

theorem isolateWrite_good {q : List Instr} {s : State} (hd : Half) (h : Good q s) :
    (isolateWrite s hd).All (Good q) := by
  unfold isolateWrite
  try dsimp only
  repeat' first
    | with_reducible assumption
    | with_reducible apply plainWrite_good
    | with_reducible apply hostMod_good
    | with_reducible apply wres_done
    | with_reducible apply wres_refused
    | with_reducible apply wres_later
    | with_reducible apply wres_wait
    | split
    | exact fun _ hx => hx
    | intro _
    | with_reducible refine wres_get_done (by with_reducible assumption) ?_
    | with_reducible refine wres_get_refused (by with_reducible assumption) ?_
    | with_reducible refine wres_get_later (by with_reducible assumption) ?_

theorem hostPerform_good {q : List Instr} {s : State} (ha : Nat) (hd : Half) (h : Good q s) :
    (hostPerform s ha hd).All (Good q) := by
  unfold hostPerform
  try dsimp only
  repeat' first
    | with_reducible assumption
    | with_reducible apply hostDoorbellWrite_good
    | with_reducible apply hostBobStatWrite_good
    | with_reducible apply isolateWrite_good
    | with_reducible apply plainWrite_good
    | with_reducible apply writeWord_good
    | with_reducible apply winNext_good
    | with_reducible apply winWrite_good
    | with_reducible apply hostMod_good
    | with_reducible apply sysMod_good
    | with_reducible apply wres_done
    | with_reducible apply wres_refused
    | with_reducible apply wres_later
    | with_reducible apply wres_wait
    | exact fun _ hy => ⟨Nat.not_lt.mp (by assumption), hy.2⟩
    | exact fun _ hy => ⟨hy.1, Nat.not_lt.mp (by assumption), hy.2.2⟩
    | exact fun _ hy => ⟨hy.1, hy.2.1, Nat.not_lt.mp (by assumption), hy.2.2.2⟩
    | exact fun _ hy => ⟨hy.1, hy.2.1, hy.2.2.1, Nat.not_lt.mp (by assumption)⟩
    | split
    | exact fun _ hx => hx
    | (show domOk _ _; assumption)
    | intro _
    | with_reducible refine wres_get_done (by with_reducible assumption) ?_
    | with_reducible refine wres_get_refused (by with_reducible assumption) ?_
    | with_reducible refine wres_get_later (by with_reducible assumption) ?_
    | omega

theorem hostResult_good {q : List Instr} {s : State} (ha : BitVec 6) (hd : Half) (x4 : WRes) (h : Good q s) (hx4 : x4.All (Good q)) :
    Good q (hostResult s ha hd x4) := by
  unfold hostResult
  cases x4 <;> simp only [WRes.All] at hx4
  try dsimp only
  repeat' first
    | with_reducible assumption
    | with_reducible apply hostMod_good
    | with_reducible apply winNext_good
    | with_reducible apply sysMod_good
    | with_reducible apply bump_good
    | with_reducible apply hostEnd_good
    | contradiction
    | split
    | exact fun _ hx => hx
    | intro _

theorem hostWrite_good {q : List Instr} {s : State} (ha : BitVec 6) (hd : Half) (h : Good q s) :
    Good q (hostWrite s ha hd) := by
  unfold hostWrite
  try dsimp only
  repeat' first
    | with_reducible assumption
    | with_reducible apply hostPerform_good
    | with_reducible apply hostResult_good
    | with_reducible apply bump_good
    | with_reducible apply hostMod_good
    | with_reducible apply sysMod_good
    | split
    | exact fun _ hx => hx
    | intro _
    | with_reducible refine wres_get_done (by with_reducible assumption) ?_
    | with_reducible refine wres_get_refused (by with_reducible assumption) ?_
    | with_reducible refine wres_get_later (by with_reducible assumption) ?_

theorem hostReadLatch_good {q : List Instr} {s : State} (ha : Nat) (h : Good q s) :
    Good q (hostReadLatch s ha) := by
  unfold hostReadLatch
  try dsimp only
  repeat' first
    | with_reducible assumption
    | with_reducible apply readClear_good
    | with_reducible apply hostMod_good
    | split
    | exact fun _ hx => hx
    | intro _

theorem hostTake_good {q : List Instr} {s : State} (ha : Nat) (h : Good q s) :
    Good q (hostTake s ha) := by
  unfold hostTake
  try dsimp only
  repeat' first
    | with_reducible assumption
    | with_reducible apply hostReadLatch_good
    | with_reducible apply hostMod_good
    | with_reducible apply bobdataRead_good
    | with_reducible apply windataRead_good
    | split
    | exact fun _ hx => hx
    | intro _

theorem hostRead_good {q : List Instr} {s : State} (ha : BitVec 6) (h : Good q s) :
    Good q (hostRead s ha) := by
  unfold hostRead
  try dsimp only
  repeat' first
    | with_reducible assumption
    | with_reducible apply bump_good
    | with_reducible apply hostTake_good
    | with_reducible apply hostMod_good
    | split
    | exact fun _ hx => hx
    | intro _

theorem sysRead_good {q : List Instr} {s : State} (p : Pkt) (n : Nat) (h : Good q s) :
    Good q (sysRead s p n) := by
  unfold sysRead
  try dsimp only
  repeat' first
    | with_reducible assumption
    | with_reducible apply readClear_good
    | with_reducible apply refuse_good
    | with_reducible apply respond_good
    | with_reducible apply Good.foldl
    | split
    | exact fun _ hx => hx
    | intro _

theorem sysWriteFrom_good {q : List Instr} {s : State} (p : Pkt) (k : Nat) (x4 : List DataUnit) (h : Good q s) :
    Good q (sysWriteFrom s p k x4) := by
  induction x4 generalizing s p k with
  | nil =>
    unfold sysWriteFrom
    try dsimp only
    repeat' first
      | with_reducible assumption
      | with_reducible apply sysMod_good
      | with_reducible apply bump_good
      | with_reducible apply writeWord_good
      | with_reducible apply respond_good
      | split
      | exact fun _ hx => hx
      | intro _
      | with_reducible refine wres_get_done (by with_reducible assumption) ?_
      | with_reducible refine wres_get_refused (by with_reducible assumption) ?_
      | with_reducible refine wres_get_later (by with_reducible assumption) ?_
  | cons u t ih =>
    unfold sysWriteFrom
    try dsimp only
    repeat' first
      | with_reducible assumption
      | with_reducible apply sysMod_good
      | with_reducible apply bump_good
      | with_reducible apply writeWord_good
      | with_reducible apply respond_good
      | with_reducible apply ih
      | split
      | exact fun _ hx => hx
      | intro _
      | with_reducible refine wres_get_done (by with_reducible assumption) ?_
      | with_reducible refine wres_get_refused (by with_reducible assumption) ?_
      | with_reducible refine wres_get_later (by with_reducible assumption) ?_

theorem agentFence_good {q : List Instr} {s : State} (node : BitVec 7) (p : Pkt) (h : Good q s) :
    Good q (agentFence s node p) := by
  unfold agentFence
  try dsimp only
  repeat' first
    | with_reducible assumption
    | with_reducible apply sysMod_good
    | split
    | exact fun _ hx => hx
    | intro _

theorem agentFenceDone_good {q : List Instr} {s : State} (node : BitVec 7) (h : Good q s) :
    Good q (agentFenceDone s node) := by
  unfold agentFenceDone
  try dsimp only
  repeat' first
    | with_reducible assumption
    | with_reducible apply sysMod_good
    | with_reducible apply respond_good
    | split
    | exact fun _ hx => hx
    | intro _

theorem sysPerform_good {q : List Instr} {s : State} (p : Pkt) (h : Good q s) :
    Good q (sysPerform s p) := by
  unfold sysPerform
  try dsimp only
  repeat' first
    | with_reducible assumption
    | with_reducible apply agentFence_good
    | with_reducible apply sysWriteFrom_good
    | with_reducible apply sysRead_good
    | with_reducible apply bump_good
    | with_reducible apply respond_good
    | split
    | exact fun _ hx => hx
    | intro _

theorem sysTake_good {q : List Instr} {s : State} (net : Net) (sel : Pkt → Bool) (h : Good q s) :
    Good q (sysTake s net sel) := by
  unfold sysTake
  try dsimp only
  repeat' first
    | with_reducible assumption
    | with_reducible apply rxDrop_good
    | with_reducible apply sysPerform_good
    | split
    | exact fun _ hx => hx
    | intro _

theorem heldRun_good {q : List Instr} {s : State} (x2 : Held) (h : Good q s) :
    Good q (heldRun s x2) := by
  unfold heldRun
  try dsimp only
  repeat' first
    | with_reducible assumption
    | with_reducible apply sysWriteFrom_good
    | with_reducible apply sysMod_good
    | with_reducible apply winWrite_good
    | with_reducible apply hostEnd_good
    | with_reducible apply hostPerform_good
    | with_reducible apply hostResult_good
    | split
    | exact fun _ hx => hx
    | intro _
    | with_reducible refine wres_get_done (by with_reducible assumption) ?_
    | with_reducible refine wres_get_refused (by with_reducible assumption) ?_
    | with_reducible refine wres_get_later (by with_reducible assumption) ?_

theorem heldPump_good {q : List Instr} {x2 : State} (x1 : Nat) (h : Good q x2) :
    Good q (heldPump x1 x2) := by
  induction x1 generalizing x2 with
  | zero => exact h
  | succ n ih =>
    unfold heldPump
    try dsimp only
    repeat' first
      | with_reducible assumption
      | with_reducible apply sysMod_good
      | with_reducible apply heldRun_good
      | with_reducible apply ih
      | split
      | exact fun _ hx => hx
      | intro _

theorem settle_good {q : List Instr} {s : State} (h : Good q s) :
    Good q (settle s) := by
  unfold settle
  try dsimp only
  repeat' first
    | with_reducible assumption
    | with_reducible apply upkeep_good
    | with_reducible apply portRstGo_good
    | with_reducible apply heldPump_good
    | split
    | exact fun _ hx => hx
    | intro _

end Sys2Proof.Machine
end

