-- ==== Sys2Proof/Laws/KeepHostRows.lean ====
section
/-!
SUPPORT. The queue and the invariant through the definitions of Machine/HostRows.lean (see Laws/Good.lean).
-/
set_option linter.all false

namespace Sys2Proof.Machine

theorem byWrite_good {q : List Instr} {s : State} (ha : BitVec 6) (sel : Origin → Wd → Word → Bool) (x4 : By) (h : Good q s) :
    Good q (byWrite s ha sel x4) := by
  unfold byWrite
  try dsimp only
  repeat' first
    | with_reducible assumption
    | with_reducible apply sysTake_good
    | with_reducible apply hostWrite_good
    | with_reducible apply settle_good
    | split
    | exact fun _ hx => hx
    | intro _

theorem fabWrite_good {q : List Instr} {s : State} (net : Net) (sel : Wd → Bool) (h : Good q s) :
    Good q (fabWrite s net sel) := by
  unfold fabWrite
  try dsimp only
  repeat' first
    | with_reducible assumption
    | with_reducible apply sysTake_good
    | with_reducible apply settle_good
    | split
    | exact fun _ hx => hx
    | intro _

theorem execPcfgWrite_good {q : List Instr} {s : State} (n : Fin 64) (by_ : By) (h : Good q s) :
    OutAll (Good q) (execPcfgWrite n by_ s) := by
  unfold execPcfgWrite
  try dsimp only
  repeat' first
    | with_reducible assumption
    | with_reducible apply byWrite_good
    | with_reducible apply outAll_next
    | with_reducible apply outAll_fault
    | with_reducible apply outAll_refused
    | split
    | exact fun _ hx => hx
    | intro _

theorem execPclkWrite_good {q : List Instr} {s : State} (n : Fin 64) (by_ : By) (h : Good q s) :
    OutAll (Good q) (execPclkWrite n by_ s) := by
  unfold execPclkWrite
  try dsimp only
  repeat' first
    | with_reducible assumption
    | with_reducible apply byWrite_good
    | with_reducible apply outAll_next
    | with_reducible apply outAll_fault
    | with_reducible apply outAll_refused
    | split
    | exact fun _ hx => hx
    | intro _

theorem execDirectoryWrite_good {q : List Instr} {s : State} (c : Byte) (by_ : By) (h : Good q s) :
    OutAll (Good q) (execDirectoryWrite c by_ s) := by
  unfold execDirectoryWrite
  try dsimp only
  repeat' first
    | with_reducible assumption
    | with_reducible apply byWrite_good
    | with_reducible apply outAll_next
    | with_reducible apply outAll_fault
    | with_reducible apply outAll_refused
    | split
    | exact fun _ hx => hx
    | intro _

theorem execPortrstNotice_good {q : List Instr} {s : State} (net : Net) (h : Good q s) :
    OutAll (Good q) (execPortrstNotice net s) := by
  unfold execPortrstNotice
  try dsimp only
  repeat' first
    | with_reducible assumption
    | with_reducible apply fabWrite_good
    | with_reducible apply outAll_next
    | with_reducible apply outAll_fault
    | with_reducible apply outAll_refused
    | split
    | exact fun _ hx => hx
    | intro _

theorem execIsolateGo_good {q : List Instr} {s : State} (n : Fin 64) (by_ : By) (h : Good q s) :
    OutAll (Good q) (execIsolateGo n by_ s) := by
  unfold execIsolateGo
  try dsimp only
  repeat' first
    | with_reducible assumption
    | with_reducible apply byWrite_good
    | with_reducible apply outAll_next
    | with_reducible apply outAll_fault
    | with_reducible apply outAll_refused
    | split
    | exact fun _ hx => hx
    | intro _

theorem execClrpeak_good {q : List Instr} {s : State} (n : Fin 64) (by_ : By) (h : Good q s) :
    OutAll (Good q) (execClrpeak n by_ s) := by
  unfold execClrpeak
  try dsimp only
  repeat' first
    | with_reducible assumption
    | with_reducible apply byWrite_good
    | with_reducible apply outAll_next
    | with_reducible apply outAll_fault
    | with_reducible apply outAll_refused
    | split
    | exact fun _ hx => hx
    | intro _

theorem execRingctlLeave_good {q : List Instr} {s : State} (by_ : By) (h : Good q s) :
    OutAll (Good q) (execRingctlLeave by_ s) := by
  unfold execRingctlLeave
  try dsimp only
  repeat' first
    | with_reducible assumption
    | with_reducible apply byWrite_good
    | with_reducible apply outAll_next
    | with_reducible apply outAll_fault
    | with_reducible apply outAll_refused
    | split
    | exact fun _ hx => hx
    | intro _

theorem execRingctlReform_good {q : List Instr} {s : State} (by_ : By) (h : Good q s) :
    OutAll (Good q) (execRingctlReform by_ s) := by
  unfold execRingctlReform
  try dsimp only
  repeat' first
    | with_reducible assumption
    | with_reducible apply byWrite_good
    | with_reducible apply outAll_next
    | with_reducible apply outAll_fault
    | with_reducible apply outAll_refused
    | split
    | exact fun _ hx => hx
    | intro _

theorem execBcfgWrite_good {q : List Instr} {s : State} (b : Fin 64) (by_ : By) (h : Good q s) :
    OutAll (Good q) (execBcfgWrite b by_ s) := by
  unfold execBcfgWrite
  try dsimp only
  repeat' first
    | with_reducible assumption
    | with_reducible apply byWrite_good
    | with_reducible apply outAll_next
    | with_reducible apply outAll_fault
    | with_reducible apply outAll_refused
    | split
    | exact fun _ hx => hx
    | intro _

theorem execHostBobFlush_good {q : List Instr} {s : State} (hd : Half) (h : Good q s) :
    OutAll (Good q) (execHostBobFlush hd s) := by
  unfold execHostBobFlush
  try dsimp only
  repeat' first
    | with_reducible assumption
    | with_reducible apply hostWrite_good
    | with_reducible apply settle_good
    | with_reducible apply outAll_next
    | with_reducible apply outAll_fault
    | with_reducible apply outAll_refused
    | split
    | exact fun _ hx => hx
    | intro _

theorem execHostBobDone_good {q : List Instr} {s : State} (hd : Half) (h : Good q s) :
    OutAll (Good q) (execHostBobDone hd s) := by
  unfold execHostBobDone
  try dsimp only
  repeat' first
    | with_reducible assumption
    | with_reducible apply hostWrite_good
    | with_reducible apply settle_good
    | with_reducible apply outAll_next
    | with_reducible apply outAll_fault
    | with_reducible apply outAll_refused
    | split
    | exact fun _ hx => hx
    | intro _

theorem execHostDoorbell_good {q : List Instr} {s : State} (hd : Half) (h : Good q s) :
    OutAll (Good q) (execHostDoorbell hd s) := by
  unfold execHostDoorbell
  try dsimp only
  repeat' first
    | with_reducible assumption
    | with_reducible apply hostWrite_good
    | with_reducible apply settle_good
    | with_reducible apply outAll_next
    | with_reducible apply outAll_fault
    | with_reducible apply outAll_refused
    | split
    | exact fun _ hx => hx
    | intro _

theorem execBobdataRead_good {q : List Instr} {s : State} (h : Good q s) :
    OutAll (Good q) (execBobdataRead s) := by
  unfold execBobdataRead
  try dsimp only
  repeat' first
    | with_reducible assumption
    | with_reducible apply hostRead_good
    | with_reducible apply outAll_next
    | with_reducible apply outAll_fault
    | with_reducible apply outAll_refused
    | split
    | exact fun _ hx => hx
    | intro _

theorem execVoteWrite_good {q : List Instr} {s : State} (net : Net) (h : Good q s) :
    OutAll (Good q) (execVoteWrite net s) := by
  unfold execVoteWrite
  try dsimp only
  repeat' first
    | with_reducible assumption
    | with_reducible apply fabWrite_good
    | with_reducible apply outAll_next
    | with_reducible apply outAll_fault
    | with_reducible apply outAll_refused
    | split
    | exact fun _ hx => hx
    | intro _

theorem execVotePaceExpiry_good {q : List Instr} {s : State} (voter : Fin 257) (d : Fin 64) (h : Good q s) :
    OutAll (Good q) (execVotePaceExpiry voter d s) := by
  unfold execVotePaceExpiry
  try dsimp only
  repeat' first
    | with_reducible assumption
    | with_reducible apply paceSet_good
    | with_reducible apply voteSettle_good
    | with_reducible apply settle_good
    | with_reducible apply outAll_next
    | with_reducible apply outAll_fault
    | with_reducible apply outAll_refused
    | split
    | exact fun _ hx => hx
    | intro _

theorem execHostVote_good {q : List Instr} {s : State} (hd : Half) (h : Good q s) :
    OutAll (Good q) (execHostVote hd s) := by
  unfold execHostVote
  try dsimp only
  repeat' first
    | with_reducible assumption
    | with_reducible apply hostWrite_good
    | with_reducible apply settle_good
    | with_reducible apply outAll_next
    | with_reducible apply outAll_fault
    | with_reducible apply outAll_refused
    | split
    | exact fun _ hx => hx
    | intro _

theorem execWakeRequest_good {q : List Instr} {s : State} (net : Net) (h : Good q s) :
    OutAll (Good q) (execWakeRequest net s) := by
  unfold execWakeRequest
  try dsimp only
  repeat' first
    | with_reducible assumption
    | with_reducible apply fabWrite_good
    | with_reducible apply outAll_next
    | with_reducible apply outAll_fault
    | with_reducible apply outAll_refused
    | split
    | exact fun _ hx => hx
    | intro _

theorem execDomcmdWrite_good {q : List Instr} {s : State} (d : Fin 68) (by_ : By) (h : Good q s) :
    OutAll (Good q) (execDomcmdWrite d by_ s) := by
  unfold execDomcmdWrite
  try dsimp only
  repeat' first
    | with_reducible assumption
    | with_reducible apply byWrite_good
    | with_reducible apply outAll_next
    | with_reducible apply outAll_fault
    | with_reducible apply outAll_refused
    | split
    | exact fun _ hx => hx
    | (show domOk _ _; assumption)
    | intro _
    | omega

theorem execPstateWrite_good {q : List Instr} {s : State} (by_ : By) (h : Good q s) :
    OutAll (Good q) (execPstateWrite by_ s) := by
  unfold execPstateWrite
  try dsimp only
  repeat' first
    | with_reducible assumption
    | with_reducible apply byWrite_good
    | with_reducible apply outAll_next
    | with_reducible apply outAll_fault
    | with_reducible apply outAll_refused
    | split
    | exact fun _ hx => hx
    | intro _

theorem execTime0Read_good {q : List Instr} {s : State} (h : Good q s) :
    OutAll (Good q) (execTime0Read s) := by
  unfold execTime0Read
  try dsimp only
  repeat' first
    | with_reducible assumption
    | with_reducible apply hostRead_good
    | with_reducible apply outAll_next
    | with_reducible apply outAll_fault
    | with_reducible apply outAll_refused
    | split
    | exact fun _ hx => hx
    | intro _

theorem execRtcsec0Read_good {q : List Instr} {s : State} (h : Good q s) :
    OutAll (Good q) (execRtcsec0Read s) := by
  unfold execRtcsec0Read
  try dsimp only
  repeat' first
    | with_reducible assumption
    | with_reducible apply hostRead_good
    | with_reducible apply outAll_next
    | with_reducible apply outAll_fault
    | with_reducible apply outAll_refused
    | split
    | exact fun _ hx => hx
    | intro _

theorem execRtcsec0Write_good {q : List Instr} {s : State} (hd : Half) (h : Good q s) :
    OutAll (Good q) (execRtcsec0Write hd s) := by
  unfold execRtcsec0Write
  try dsimp only
  repeat' first
    | with_reducible assumption
    | with_reducible apply hostWrite_good
    | with_reducible apply outAll_next
    | with_reducible apply outAll_fault
    | with_reducible apply outAll_refused
    | split
    | exact fun _ hx => hx
    | intro _

theorem execRtcsec1Write_good {q : List Instr} {s : State} (hd : Half) (h : Good q s) :
    OutAll (Good q) (execRtcsec1Write hd s) := by
  unfold execRtcsec1Write
  try dsimp only
  repeat' first
    | with_reducible assumption
    | with_reducible apply hostWrite_good
    | with_reducible apply settle_good
    | with_reducible apply outAll_next
    | with_reducible apply outAll_fault
    | with_reducible apply outAll_refused
    | split
    | exact fun _ hx => hx
    | intro _

theorem execAlarm0Read_good {q : List Instr} {s : State} (h : Good q s) :
    OutAll (Good q) (execAlarm0Read s) := by
  unfold execAlarm0Read
  try dsimp only
  repeat' first
    | with_reducible assumption
    | with_reducible apply hostRead_good
    | with_reducible apply outAll_next
    | with_reducible apply outAll_fault
    | with_reducible apply outAll_refused
    | split
    | exact fun _ hx => hx
    | intro _

theorem execAlarm0Write_good {q : List Instr} {s : State} (hd : Half) (h : Good q s) :
    OutAll (Good q) (execAlarm0Write hd s) := by
  unfold execAlarm0Write
  try dsimp only
  repeat' first
    | with_reducible assumption
    | with_reducible apply hostWrite_good
    | with_reducible apply outAll_next
    | with_reducible apply outAll_fault
    | with_reducible apply outAll_refused
    | split
    | exact fun _ hx => hx
    | intro _

theorem execAlarm1Write_good {q : List Instr} {s : State} (hd : Half) (h : Good q s) :
    OutAll (Good q) (execAlarm1Write hd s) := by
  unfold execAlarm1Write
  try dsimp only
  repeat' first
    | with_reducible assumption
    | with_reducible apply hostWrite_good
    | with_reducible apply settle_good
    | with_reducible apply outAll_next
    | with_reducible apply outAll_fault
    | with_reducible apply outAll_refused
    | split
    | exact fun _ hx => hx
    | intro _

theorem execRtcsecsWrite_good {q : List Instr} {s : State} (net : Net) (h : Good q s) :
    OutAll (Good q) (execRtcsecsWrite net s) := by
  unfold execRtcsecsWrite
  try dsimp only
  repeat' first
    | with_reducible assumption
    | with_reducible apply fabWrite_good
    | with_reducible apply outAll_next
    | with_reducible apply outAll_fault
    | with_reducible apply outAll_refused
    | split
    | exact fun _ hx => hx
    | intro _

theorem execAlarmsecsWrite_good {q : List Instr} {s : State} (net : Net) (h : Good q s) :
    OutAll (Good q) (execAlarmsecsWrite net s) := by
  unfold execAlarmsecsWrite
  try dsimp only
  repeat' first
    | with_reducible assumption
    | with_reducible apply fabWrite_good
    | with_reducible apply outAll_next
    | with_reducible apply outAll_fault
    | with_reducible apply outAll_refused
    | split
    | exact fun _ hx => hx
    | intro _

theorem execAlarmDisarm_good {q : List Instr} {s : State} (by_ : By) (h : Good q s) :
    OutAll (Good q) (execAlarmDisarm by_ s) := by
  unfold execAlarmDisarm
  try dsimp only
  repeat' first
    | with_reducible assumption
    | with_reducible apply byWrite_good
    | with_reducible apply outAll_next
    | with_reducible apply outAll_fault
    | with_reducible apply outAll_refused
    | split
    | exact fun _ hx => hx
    | intro _

theorem execBasteWrite_good {q : List Instr} {s : State} (by_ : By) (h : Good q s) :
    OutAll (Good q) (execBasteWrite by_ s) := by
  unfold execBasteWrite
  try dsimp only
  repeat' first
    | with_reducible assumption
    | with_reducible apply byWrite_good
    | with_reducible apply outAll_next
    | with_reducible apply outAll_fault
    | with_reducible apply outAll_refused
    | split
    | exact fun _ hx => hx
    | intro _

theorem execStitch_good {q : List Instr} {s : State} (by_ : By) (h : Good q s) :
    OutAll (Good q) (execStitch by_ s) := by
  unfold execStitch
  try dsimp only
  repeat' first
    | with_reducible assumption
    | with_reducible apply byWrite_good
    | with_reducible apply outAll_next
    | with_reducible apply outAll_fault
    | with_reducible apply outAll_refused
    | split
    | exact fun _ hx => hx
    | intro _

theorem execAbandon_good {q : List Instr} {s : State} (by_ : By) (h : Good q s) :
    OutAll (Good q) (execAbandon by_ s) := by
  unfold execAbandon
  try dsimp only
  repeat' first
    | with_reducible assumption
    | with_reducible apply byWrite_good
    | with_reducible apply outAll_next
    | with_reducible apply outAll_fault
    | with_reducible apply outAll_refused
    | split
    | exact fun _ hx => hx
    | intro _

theorem admitOne_good {q : List Instr} {s : State} (pick : Nat) (h : Good q s) :
    Good q (admitOne s pick) := by
  unfold admitOne
  try dsimp only
  repeat' first
    | with_reducible assumption
    | with_reducible apply sysMod_good
    | with_reducible apply heldRun_good
    | with_reducible apply admitHw_good
    | with_reducible apply stitchRun_good
    | split
    | exact fun _ hx => hx
    | intro _

theorem execJournalArrayWrite_good {q : List Instr} {s : State} (readsBack : Bool) (pick : Nat) (h : Good q s) :
    OutAll (Good q) (execJournalArrayWrite readsBack pick s) := by
  unfold execJournalArrayWrite
  try dsimp only
  repeat' first
    | with_reducible assumption
    | with_reducible apply freeDraw_good
    | with_reducible apply jrnMod_good
    | with_reducible apply admitOne_good
    | with_reducible apply voteSettle_good
    | with_reducible apply settle_good
    | with_reducible apply arrPut_good
    | with_reducible apply headAdvance_good
    | with_reducible apply outAll_next
    | with_reducible apply outAll_fault
    | with_reducible apply outAll_refused
    | split
    | exact fun _ hx => hx
    | intro _
    | with_reducible refine pair_get' (by with_reducible assumption) ?_

theorem execJrnhead0Read_good {q : List Instr} {s : State} (h : Good q s) :
    OutAll (Good q) (execJrnhead0Read s) := by
  unfold execJrnhead0Read
  try dsimp only
  repeat' first
    | with_reducible assumption
    | with_reducible apply hostRead_good
    | with_reducible apply outAll_next
    | with_reducible apply outAll_fault
    | with_reducible apply outAll_refused
    | split
    | exact fun _ hx => hx
    | intro _

theorem cntRow_good {q : List Instr} {s : State} (code : Nat) (by_ : By) (h : Good q s) :
    Good q (cntRow s code by_) := by
  unfold cntRow
  try dsimp only
  repeat' first
    | with_reducible assumption
    | with_reducible apply byWrite_good
    | split
    | exact fun _ hx => hx
    | intro _

theorem execSnapshot_good {q : List Instr} {s : State} (by_ : By) (h : Good q s) :
    OutAll (Good q) (execSnapshot by_ s) := by
  unfold execSnapshot
  try dsimp only
  repeat' first
    | with_reducible assumption
    | with_reducible apply cntRow_good
    | with_reducible apply outAll_next
    | with_reducible apply outAll_fault
    | with_reducible apply outAll_refused
    | split
    | exact fun _ hx => hx
    | intro _

theorem execFreeze_good {q : List Instr} {s : State} (by_ : By) (h : Good q s) :
    OutAll (Good q) (execFreeze by_ s) := by
  unfold execFreeze
  try dsimp only
  repeat' first
    | with_reducible assumption
    | with_reducible apply cntRow_good
    | with_reducible apply outAll_next
    | with_reducible apply outAll_fault
    | with_reducible apply outAll_refused
    | split
    | exact fun _ hx => hx
    | intro _

theorem execThaw_good {q : List Instr} {s : State} (by_ : By) (h : Good q s) :
    OutAll (Good q) (execThaw by_ s) := by
  unfold execThaw
  try dsimp only
  repeat' first
    | with_reducible assumption
    | with_reducible apply cntRow_good
    | with_reducible apply outAll_next
    | with_reducible apply outAll_fault
    | with_reducible apply outAll_refused
    | split
    | exact fun _ hx => hx
    | intro _

theorem execClear_good {q : List Instr} {s : State} (by_ : By) (h : Good q s) :
    OutAll (Good q) (execClear by_ s) := by
  unfold execClear
  try dsimp only
  repeat' first
    | with_reducible assumption
    | with_reducible apply cntRow_good
    | with_reducible apply outAll_next
    | with_reducible apply outAll_fault
    | with_reducible apply outAll_refused
    | split
    | exact fun _ hx => hx
    | intro _

theorem execGatherDone_good {q : List Instr} {s : State} (h : Good q s) :
    OutAll (Good q) (execGatherDone s) := by
  unfold execGatherDone
  try dsimp only
  repeat' first
    | with_reducible assumption
    | with_reducible apply raiseEvent_good
    | with_reducible apply settle_good
    | with_reducible apply cntMod_good
    | with_reducible apply outAll_next
    | with_reducible apply outAll_fault
    | with_reducible apply outAll_refused
    | split
    | exact fun _ hx => hx
    | (show domOk _ _; assumption)
    | intro _
    | omega

theorem execCselWrite_good {q : List Instr} {s : State} (by_ : By) (h : Good q s) :
    OutAll (Good q) (execCselWrite by_ s) := by
  unfold execCselWrite
  try dsimp only
  repeat' first
    | with_reducible assumption
    | with_reducible apply byWrite_good
    | with_reducible apply outAll_next
    | with_reducible apply outAll_fault
    | with_reducible apply outAll_refused
    | split
    | exact fun _ hx => hx
    | intro _

theorem execCvalRead_good {q : List Instr} {s : State} (h : Good q s) :
    OutAll (Good q) (execCvalRead s) := by
  unfold execCvalRead
  try dsimp only
  repeat' first
    | with_reducible assumption
    | with_reducible apply hostRead_good
    | with_reducible apply outAll_next
    | with_reducible apply outAll_fault
    | with_reducible apply outAll_refused
    | split
    | exact fun _ hx => hx
    | intro _

theorem execBwWindowBoundary_good {q : List Instr} {s : State} (h : Good q s) :
    OutAll (Good q) (execBwWindowBoundary s) := by
  unfold execBwWindowBoundary
  try dsimp only
  repeat' first
    | with_reducible assumption
    | with_reducible apply timeMod_good
    | with_reducible apply portMod_good
    | with_reducible apply Good.foldl
    | with_reducible apply outAll_next
    | with_reducible apply outAll_fault
    | with_reducible apply outAll_refused
    | split
    | exact fun _ hx => hx
    | (show domOk _ _; assumption)
    | intro _
    | omega

theorem execWindataRead_good {q : List Instr} {s : State} (h : Good q s) :
    OutAll (Good q) (execWindataRead s) := by
  unfold execWindataRead
  try dsimp only
  repeat' first
    | with_reducible assumption
    | with_reducible apply hostRead_good
    | with_reducible apply outAll_next
    | with_reducible apply outAll_fault
    | with_reducible apply outAll_refused
    | split
    | exact fun _ hx => hx
    | intro _

theorem execWindataWrite_good {q : List Instr} {s : State} (hd : Half) (h : Good q s) :
    OutAll (Good q) (execWindataWrite hd s) := by
  unfold execWindataWrite
  try dsimp only
  repeat' first
    | with_reducible assumption
    | with_reducible apply hostWrite_good
    | with_reducible apply settle_good
    | with_reducible apply outAll_next
    | with_reducible apply outAll_fault
    | with_reducible apply outAll_refused
    | split
    | exact fun _ hx => hx
    | intro _

theorem execHostFence_good {q : List Instr} {s : State} (by_ : By) (h : Good q s) :
    OutAll (Good q) (execHostFence by_ s) := by
  unfold execHostFence
  try dsimp only
  repeat' first
    | with_reducible assumption
    | with_reducible apply byWrite_good
    | with_reducible apply outAll_next
    | with_reducible apply outAll_fault
    | with_reducible apply outAll_refused
    | split
    | exact fun _ hx => hx
    | intro _

theorem execRegisterWrite_good {q : List Instr} {s : State} (w : RegWrite) (h : Good q s) :
    OutAll (Good q) (execRegisterWrite w s) := by
  unfold execRegisterWrite
  try dsimp only
  repeat' first
    | with_reducible assumption
    | with_reducible apply sysTake_good
    | with_reducible apply hostWrite_good
    | with_reducible apply settle_good
    | with_reducible apply outAll_next
    | with_reducible apply outAll_fault
    | with_reducible apply outAll_refused
    | split
    | exact fun _ hx => hx
    | intro _

theorem execRegisterReadClear_good {q : List Instr} {s : State} (r : RegRead) (h : Good q s) :
    OutAll (Good q) (execRegisterReadClear r s) := by
  unfold execRegisterReadClear
  try dsimp only
  repeat' first
    | with_reducible assumption
    | with_reducible apply sysTake_good
    | with_reducible apply hostRead_good
    | with_reducible apply outAll_next
    | with_reducible apply outAll_fault
    | with_reducible apply outAll_refused
    | split
    | exact fun _ hx => hx
    | intro _

theorem resetRow_good {q : List Instr} {s : State} (scope : Nat) (by_ : By) (h : Good q s) :
    Good q (resetRow s scope by_) := by
  unfold resetRow
  try dsimp only
  repeat' first
    | with_reducible assumption
    | with_reducible apply byWrite_good
    | split
    | exact fun _ hx => hx
    | intro _

theorem execResetPort_good {q : List Instr} {s : State} (by_ : By) (h : Good q s) :
    OutAll (Good q) (execResetPort by_ s) := by
  unfold execResetPort
  try dsimp only
  repeat' first
    | with_reducible assumption
    | with_reducible apply resetRow_good
    | with_reducible apply outAll_next
    | with_reducible apply outAll_fault
    | with_reducible apply outAll_refused
    | split
    | exact fun _ hx => hx
    | intro _

theorem execResetSys_good {q : List Instr} {s : State} (by_ : By) (h : Good q s) :
    OutAll (Good q) (execResetSys by_ s) := by
  unfold execResetSys
  try dsimp only
  repeat' first
    | with_reducible assumption
    | with_reducible apply resetRow_good
    | with_reducible apply outAll_next
    | with_reducible apply outAll_fault
    | with_reducible apply outAll_refused
    | split
    | exact fun _ hx => hx
    | intro _

theorem execResetChip_good {q : List Instr} {s : State} (by_ : By) (h : Good q s) :
    OutAll (Good q) (execResetChip by_ s) := by
  unfold execResetChip
  try dsimp only
  repeat' first
    | with_reducible assumption
    | with_reducible apply resetRow_good
    | with_reducible apply outAll_next
    | with_reducible apply outAll_fault
    | with_reducible apply outAll_refused
    | split
    | exact fun _ hx => hx
    | intro _

theorem execResetRing_good {q : List Instr} {s : State} (by_ : By) (h : Good q s) :
    OutAll (Good q) (execResetRing by_ s) := by
  unfold execResetRing
  try dsimp only
  repeat' first
    | with_reducible assumption
    | with_reducible apply resetRow_good
    | with_reducible apply outAll_next
    | with_reducible apply outAll_fault
    | with_reducible apply outAll_refused
    | split
    | exact fun _ hx => hx
    | intro _

end Sys2Proof.Machine
end

