-- ==== Sys2Proof/Laws/KeepPowerRows.lean ====
section
/-!
SUPPORT. The queue and the invariant through the definitions of Machine/PowerRows.lean (see Laws/Good.lean).
-/
set_option linter.all false

namespace Sys2Proof.Machine

theorem execWakeHoldExpiry_good {q : List Instr} {s : State} (d : Fin 64) (h : Good q s) :
    OutAll (Good q) (execWakeHoldExpiry d s) := by
  unfold execWakeHoldExpiry
  try dsimp only
  repeat' first
    | with_reducible assumption
    | with_reducible apply domMod_good
    | with_reducible apply evalDom_good
    | with_reducible apply settle_good
    | with_reducible apply outAll_next
    | with_reducible apply outAll_fault
    | with_reducible apply outAll_refused
    | split
    | exact fun _ hx => hx
    | (show domOk _ _; assumption)
    | intro _
    | omega

theorem execHemDrainDone_good {q : List Instr} {s : State} (d : Fin 68) (h : Good q s) :
    OutAll (Good q) (execHemDrainDone d s) := by
  unfold execHemDrainDone
  try dsimp only
  repeat' first
    | with_reducible assumption
    | with_reducible apply domOff_good
    | with_reducible apply settle_good
    | with_reducible apply outAll_next
    | with_reducible apply outAll_fault
    | with_reducible apply outAll_refused
    | split
    | exact fun _ hx => hx
    | (show domOk _ _; assumption)
    | intro _
    | omega

theorem drainEnd_good {q : List Instr} {s : State} (d : Nat) (h : Good q s) :
    Good q (drainEnd s d) := by
  unfold drainEnd
  try dsimp only
  repeat' first
    | with_reducible assumption
    | with_reducible apply domOff_good
    | with_reducible apply raiseFault_good
    | with_reducible apply discardHeld_good
    | with_reducible apply finishPort_good
    | with_reducible apply sendFail_good
    | split
    | exact fun _ hx => hx
    | (show domOk _ _; assumption)
    | intro _
    | omega

theorem execDraintoExpiry_good {q : List Instr} {s : State} (d : Fin 68) (h : Good q s) :
    OutAll (Good q) (execDraintoExpiry d s) := by
  unfold execDraintoExpiry
  try dsimp only
  repeat' first
    | with_reducible assumption
    | with_reducible apply drainEnd_good
    | with_reducible apply settle_good
    | with_reducible apply outAll_next
    | with_reducible apply outAll_fault
    | with_reducible apply outAll_refused
    | split
    | exact fun _ hx => hx
    | (show domOk _ _; assumption)
    | intro _
    | omega

theorem execWakeHoldoffExpiry_good {q : List Instr} {s : State} (d : Fin 64) (h : Good q s) :
    OutAll (Good q) (execWakeHoldoffExpiry d s) := by
  unfold execWakeHoldoffExpiry
  try dsimp only
  repeat' first
    | with_reducible assumption
    | with_reducible apply domMod_good
    | with_reducible apply evalDom_good
    | with_reducible apply settle_good
    | with_reducible apply outAll_next
    | with_reducible apply outAll_fault
    | with_reducible apply outAll_refused
    | split
    | exact fun _ hx => hx
    | (show domOk _ _; assumption)
    | intro _
    | omega

theorem execPortQuietExpiry_good {q : List Instr} {s : State} (n : Fin 64) (h : Good q s) :
    OutAll (Good q) (execPortQuietExpiry n s) := by
  unfold execPortQuietExpiry
  try dsimp only
  repeat' first
    | with_reducible assumption
    | with_reducible apply portMod_good
    | with_reducible apply evalDom_good
    | with_reducible apply settle_good
    | with_reducible apply outAll_next
    | with_reducible apply outAll_fault
    | with_reducible apply outAll_refused
    | split
    | exact fun _ hx => hx
    | intro _

theorem execTargetTimeout_good {q : List Instr} {s : State} (n : Fin 64) (h : Good q s) :
    OutAll (Good q) (execTargetTimeout n s) := by
  unfold execTargetTimeout
  try dsimp only
  repeat' first
    | with_reducible assumption
    | with_reducible apply portDie_good
    | with_reducible apply settle_good
    | with_reducible apply outAll_next
    | with_reducible apply outAll_fault
    | with_reducible apply outAll_refused
    | split
    | exact fun _ hx => hx
    | intro _

theorem execClockStopped_good {q : List Instr} {s : State} (n : Fin 64) (h : Good q s) :
    OutAll (Good q) (execClockStopped n s) := by
  unfold execClockStopped
  try dsimp only
  repeat' first
    | with_reducible assumption
    | with_reducible apply portDie_good
    | with_reducible apply settle_good
    | with_reducible apply outAll_next
    | with_reducible apply outAll_fault
    | with_reducible apply outAll_refused
    | split
    | exact fun _ hx => hx
    | (show domOk _ _; assumption)
    | intro _
    | omega

theorem regRungDone_good {q : List Instr} {s : State} (h : Good q s) :
    Good q (regRungDone s) := by
  unfold regRungDone
  try dsimp only
  repeat' first
    | with_reducible assumption
    | with_reducible apply powMod_good
    | split
    | exact fun _ hx => hx
    | intro _

theorem execRegulatorPoll_good {q : List Instr} {s : State} (ack : Bool) (status : Half) (h : Good q s) :
    OutAll (Good q) (execRegulatorPoll ack status s) := by
  unfold execRegulatorPoll
  try dsimp only
  repeat' first
    | with_reducible assumption
    | with_reducible apply regRungDone_good
    | with_reducible apply endMove_good
    | with_reducible apply settle_good
    | with_reducible apply powMod_good
    | with_reducible apply outAll_next
    | with_reducible apply outAll_fault
    | with_reducible apply outAll_refused
    | split
    | exact fun _ hx => hx
    | intro _

theorem moveFail_good {q : List Instr} {s : State} (h : Good q s) :
    Good q (moveFail s) := by
  unfold moveFail
  try dsimp only
  repeat' first
    | with_reducible assumption
    | with_reducible apply raiseFault_good
    | with_reducible apply setPstate_good
    | split
    | exact fun _ hx => hx
    | intro _

theorem ladderFail_good {q : List Instr} {s : State} (why : LadderWhy) (h : Good q s) :
    Good q (ladderFail s why) := by
  unfold ladderFail
  try dsimp only
  repeat' first
    | with_reducible assumption
    | with_reducible apply timeMod_good
    | with_reducible apply patrolOver_good
    | with_reducible apply powMod_good
    | with_reducible apply raiseFault_good
    | split
    | exact fun _ hx => hx
    | intro _

theorem execRegtoExpiry_good {q : List Instr} {s : State} (h : Good q s) :
    OutAll (Good q) (execRegtoExpiry s) := by
  unfold execRegtoExpiry
  try dsimp only
  repeat' first
    | with_reducible assumption
    | with_reducible apply ladderFail_good
    | with_reducible apply moveFail_good
    | with_reducible apply settle_good
    | with_reducible apply powMod_good
    | with_reducible apply outAll_next
    | with_reducible apply outAll_fault
    | with_reducible apply outAll_refused
    | split
    | exact fun _ hx => hx
    | intro _

theorem execRalert_good {q : List Instr} {s : State} (status : Half) (h : Good q s) :
    OutAll (Good q) (execRalert status s) := by
  unfold execRalert
  try dsimp only
  repeat' first
    | with_reducible assumption
    | with_reducible apply raiseFault_good
    | with_reducible apply powMod_good
    | with_reducible apply outAll_next
    | with_reducible apply outAll_fault
    | with_reducible apply outAll_refused
    | split
    | exact fun _ hx => hx
    | intro _

theorem execRalertRelease_good {q : List Instr} {s : State} (h : Good q s) :
    OutAll (Good q) (execRalertRelease s) := by
  unfold execRalertRelease
  try dsimp only
  repeat' first
    | with_reducible assumption
    | with_reducible apply powMod_good
    | with_reducible apply outAll_next
    | with_reducible apply outAll_fault
    | with_reducible apply outAll_refused
    | split
    | exact fun _ hx => hx
    | intro _

theorem execRpgoodChange_good {q : List Instr} {s : State} (level : Bool) (h : Good q s) :
    OutAll (Good q) (execRpgoodChange level s) := by
  unfold execRpgoodChange
  try dsimp only
  repeat' first
    | with_reducible assumption
    | with_reducible apply powMod_good
    | with_reducible apply outAll_next
    | with_reducible apply outAll_fault
    | with_reducible apply outAll_refused
    | split
    | exact fun _ hx => hx
    | intro _

theorem chipLadderDone_good {q : List Instr} {s : State} (why : LadderWhy) (h : Good q s) :
    Good q (chipLadderDone s why) := by
  unfold chipLadderDone
  try dsimp only
  repeat' first
    | with_reducible assumption
    | with_reducible apply timeMod_good
    | with_reducible apply startCore_good
    | split
    | exact fun _ hx => hx
    | intro _

theorem execRungReady_good {q : List Instr} {s : State} (sub : Subject) (h : Good q s) :
    OutAll (Good q) (execRungReady sub s) := by
  unfold execRungReady
  try dsimp only
  repeat' first
    | with_reducible assumption
    | with_reducible apply domUp_good
    | with_reducible apply settle_good
    | with_reducible apply domMod_good
    | with_reducible apply chipLadderDone_good
    | with_reducible apply outAll_next
    | with_reducible apply outAll_fault
    | with_reducible apply outAll_refused
    | split
    | exact fun _ hx => hx
    | (show domOk _ _; assumption)
    | intro _
    | omega

theorem execRungTimeout_good {q : List Instr} {s : State} (sub : Subject) (h : Good q s) :
    OutAll (Good q) (execRungTimeout sub s) := by
  unfold execRungTimeout
  try dsimp only
  repeat' first
    | with_reducible assumption
    | with_reducible apply domBroken_good
    | with_reducible apply settle_good
    | with_reducible apply domMod_good
    | with_reducible apply enterLimp_good
    | with_reducible apply raiseFault_good
    | with_reducible apply startCore_good
    | with_reducible apply outAll_next
    | with_reducible apply outAll_fault
    | with_reducible apply outAll_refused
    | split
    | exact fun _ hx => hx
    | (show domOk _ _; assumption)
    | intro _
    | omega

theorem execRungRetry_good {q : List Instr} {s : State} (sub : Subject) (h : Good q s) :
    OutAll (Good q) (execRungRetry sub s) := by
  unfold execRungRetry
  try dsimp only
  repeat' first
    | with_reducible assumption
    | with_reducible apply domMod_good
    | with_reducible apply outAll_next
    | with_reducible apply outAll_fault
    | with_reducible apply outAll_refused
    | split
    | exact fun _ hx => hx
    | (show domOk _ _; assumption)
    | intro _
    | omega

theorem execPllLoss_good {q : List Instr} {s : State} (h : Good q s) :
    OutAll (Good q) (execPllLoss s) := by
  unfold execPllLoss
  try dsimp only
  repeat' first
    | with_reducible assumption
    | with_reducible apply portDie_good
    | with_reducible apply settle_good
    | with_reducible apply enterLimp_good
    | with_reducible apply raiseFault_good
    | with_reducible apply chipFault_good
    | with_reducible apply Good.foldl
    | with_reducible apply outAll_next
    | with_reducible apply outAll_fault
    | with_reducible apply outAll_refused
    | split
    | exact fun _ hx => hx
    | (show domOk _ _; assumption)
    | intro _
    | omega

theorem execSupplyWarning_good {q : List Instr} {s : State} (vcore : Bool) (vaon : Bool) (h : Good q s) :
    OutAll (Good q) (execSupplyWarning vcore vaon s) := by
  unfold execSupplyWarning
  try dsimp only
  repeat' first
    | with_reducible assumption
    | with_reducible apply powMod_good
    | with_reducible apply outAll_next
    | with_reducible apply outAll_fault
    | with_reducible apply outAll_refused
    | split
    | exact fun _ hx => hx
    | intro _

theorem hushResume_good {q : List Instr} {s : State} (h : Good q s) :
    Good q (hushResume s) := by
  unfold hushResume
  try dsimp only
  repeat' first
    | with_reducible assumption
    | with_reducible apply evalDoms_good
    | with_reducible apply seamPumps_good
    | with_reducible apply domMod_good
    | with_reducible apply sendVolt_good
    | with_reducible apply powMod_good
    | split
    | exact fun _ hx => hx
    | (show domOk _ _; assumption)
    | intro _
    | omega

theorem execHushEnd_good {q : List Instr} {s : State} (minv : BitVec 11) (duration : BitVec 20) (h : Good q s) :
    OutAll (Good q) (execHushEnd minv duration s) := by
  unfold execHushEnd
  try dsimp only
  repeat' first
    | with_reducible assumption
    | with_reducible apply hushResume_good
    | with_reducible apply settle_good
    | with_reducible apply jHw_good
    | with_reducible apply raiseEvent_good
    | with_reducible apply powMod_good
    | with_reducible apply outAll_next
    | with_reducible apply outAll_fault
    | with_reducible apply outAll_refused
    | split
    | exact fun _ hx => hx
    | intro _

theorem execVcoreReset_good {q : List Instr} {s : State} (h : Good q s) :
    OutAll (Good q) (execVcoreReset s) := by
  unfold execVcoreReset
  try dsimp only
  repeat' first
    | with_reducible assumption
    | with_reducible apply wideReturn_good
    | with_reducible apply powMod_good
    | with_reducible apply startUp_good
    | with_reducible apply outAll_next
    | with_reducible apply outAll_fault
    | with_reducible apply outAll_refused
    | split
    | exact fun _ hx => hx
    | intro _

theorem execVnvWarning_good {q : List Instr} {s : State} (h : Good q s) :
    OutAll (Good q) (execVnvWarning s) := by
  unfold execVnvWarning
  try dsimp only
  repeat' first
    | with_reducible assumption
    | with_reducible apply powMod_good
    | with_reducible apply outAll_next
    | with_reducible apply outAll_fault
    | with_reducible apply outAll_refused
    | split
    | exact fun _ hx => hx
    | intro _

theorem execVnvRecover_good {q : List Instr} {s : State} (h : Good q s) :
    OutAll (Good q) (execVnvRecover s) := by
  unfold execVnvRecover
  try dsimp only
  repeat' first
    | with_reducible assumption
    | with_reducible apply powMod_good
    | with_reducible apply settle_good
    | with_reducible apply outAll_next
    | with_reducible apply outAll_fault
    | with_reducible apply outAll_refused
    | split
    | exact fun _ hx => hx
    | intro _

theorem vioSet_good {q : List Instr} {s : State} (k : Nat) (low : Bool) (h : Good q s) :
    Good q (vioSet s k low) := by
  unfold vioSet
  try dsimp only
  repeat' first
    | with_reducible assumption
    | with_reducible apply powMod_good
    | split
    | exact fun _ hx => hx
    | intro _

theorem execVioLow_good {q : List Instr} {s : State} (k : Fin 8) (h : Good q s) :
    OutAll (Good q) (execVioLow k s) := by
  unfold execVioLow
  try dsimp only
  repeat' first
    | with_reducible assumption
    | with_reducible apply vioSet_good
    | with_reducible apply portDie_good
    | with_reducible apply settle_good
    | with_reducible apply Good.foldl
    | with_reducible apply outAll_next
    | with_reducible apply outAll_fault
    | with_reducible apply outAll_refused
    | split
    | exact fun _ hx => hx
    | (show domOk _ _; assumption)
    | intro _
    | omega

theorem execVioRecover_good {q : List Instr} {s : State} (k : Fin 8) (h : Good q s) :
    OutAll (Good q) (execVioRecover k s) := by
  unfold execVioRecover
  try dsimp only
  repeat' first
    | with_reducible assumption
    | with_reducible apply vioSet_good
    | with_reducible apply outAll_next
    | with_reducible apply outAll_fault
    | with_reducible apply outAll_refused
    | split
    | exact fun _ hx => hx
    | intro _

theorem powerFall_good {q : List Instr} {s : State} (h : Good q s) :
    Good q (powerFall s) := by
  unfold powerFall
  try dsimp only
  repeat' first
    | with_reducible assumption
    | with_reducible apply jrnMod_good
    | with_reducible apply powMod_good
    | with_reducible apply arrPut_good
    | with_reducible apply freeDraw_good
    | split
    | exact fun _ hx => hx
    | intro _
    | with_reducible refine pair_get' (by with_reducible assumption) ?_

theorem powerRise_good {q : List Instr} {s : State} (h : Good q s) :
    Good q (powerRise s) := by
  unfold powerRise
  apply startUp_good
  exact ⟨h.1, ⟨rfl, rfl, rfl, rfl, rfl, rfl, rfl, rfl, rfl⟩, ⟨Nat.zero_le _, Nat.le_refl 256, Nat.zero_le _, Nat.zero_le _⟩,
    fun d => domOk_resetOf d, show tapOk Tap.reset by unfold tapOk; decide⟩

theorem execPowerOn_good {q : List Instr} {s : State} (rise : Bool) (h : Good q s) :
    OutAll (Good q) (execPowerOn rise s) := by
  unfold execPowerOn
  try dsimp only
  repeat' first
    | with_reducible assumption
    | with_reducible apply powerFall_good
    | with_reducible apply powerRise_good
    | with_reducible apply outAll_next
    | with_reducible apply outAll_fault
    | with_reducible apply outAll_refused
    | split
    | exact fun _ hx => hx
    | intro _

theorem heldReset_good {q : List Instr} {s : State} (h : Good q s) :
    Good q (heldReset s) := by
  unfold heldReset
  try dsimp only
  repeat' first
    | with_reducible assumption
    | with_reducible apply domMod_good
    | with_reducible apply powMod_good
    | with_reducible apply wideReturn_good
    | with_reducible apply Good.foldl
    | split
    | exact fun _ hx => hx
    | (show domOk _ _; assumption)
    | intro _
    | omega

theorem execResetPin_good {q : List Instr} {s : State} (h : Good q s) :
    OutAll (Good q) (execResetPin s) := by
  unfold execResetPin
  try dsimp only
  repeat' first
    | with_reducible assumption
    | with_reducible apply heldReset_good
    | with_reducible apply powMod_good
    | with_reducible apply outAll_next
    | with_reducible apply outAll_fault
    | with_reducible apply outAll_refused
    | split
    | exact fun _ hx => hx
    | intro _

theorem execResetRelease_good {q : List Instr} {s : State} (h : Good q s) :
    OutAll (Good q) (execResetRelease s) := by
  unfold execResetRelease
  try dsimp only
  repeat' first
    | with_reducible assumption
    | with_reducible apply startUp_good
    | with_reducible apply powMod_good
    | with_reducible apply outAll_next
    | with_reducible apply outAll_fault
    | with_reducible apply outAll_refused
    | split
    | exact fun _ hx => hx
    | intro _

theorem patrolCount_good {q : List Instr} {s : State} (fired : Bool) (h : Good q s) :
    Good q (patrolCount s fired) := by
  unfold patrolCount
  try dsimp only
  repeat' first
    | with_reducible assumption
    | with_reducible apply timeMod_good
    | split
    | exact fun _ hx => hx
    | intro _

theorem execRtcStep_good {q : List Instr} {s : State} (h : Good q s) :
    OutAll (Good q) (execRtcStep s) := by
  unfold execRtcStep
  try dsimp only
  repeat' first
    | with_reducible assumption
    | with_reducible apply patrolCount_good
    | with_reducible apply alarmCompare_good
    | with_reducible apply settle_good
    | with_reducible apply anchor_good
    | with_reducible apply timeMod_good
    | with_reducible apply outAll_next
    | with_reducible apply outAll_fault
    | with_reducible apply outAll_refused
    | split
    | exact fun _ hx => hx
    | intro _

theorem execPatrolDue_good {q : List Instr} {s : State} (h : Good q s) :
    OutAll (Good q) (execPatrolDue s) := by
  unfold execPatrolDue
  try dsimp only
  repeat' first
    | with_reducible assumption
    | with_reducible apply patrolStart_good
    | with_reducible apply outAll_next
    | with_reducible apply outAll_fault
    | with_reducible apply outAll_refused
    | split
    | exact fun _ hx => hx
    | intro _

theorem execTackReadDone_good {q : List Instr} {s : State} (h : Good q s) :
    OutAll (Good q) (execTackReadDone s) := by
  unfold execTackReadDone
  try dsimp only
  repeat' first
    | with_reducible assumption
    | with_reducible apply tackNext_good
    | with_reducible apply tackTest_good
    | with_reducible apply settle_good
    | with_reducible apply timeMod_good
    | with_reducible apply outAll_next
    | with_reducible apply outAll_fault
    | with_reducible apply outAll_refused
    | split
    | exact fun _ hx => hx
    | intro _

theorem execRtcStopDetect_good {q : List Instr} {s : State} (h : Good q s) :
    OutAll (Good q) (execRtcStopDetect s) := by
  unfold execRtcStopDetect
  try dsimp only
  repeat' first
    | with_reducible assumption
    | with_reducible apply timeMod_good
    | with_reducible apply raiseFault_good
    | with_reducible apply outAll_next
    | with_reducible apply outAll_fault
    | with_reducible apply outAll_refused
    | split
    | exact fun _ hx => hx
    | intro _

end Sys2Proof.Machine
end

