-- ==== Sys2Proof/Laws/KeepBobRows.lean ====
section
/-!
SUPPORT. The queue and the invariant through the definitions of Machine/BobRows.lean (see Laws/Good.lean).
-/
set_option linter.all false

namespace Sys2Proof.Machine

theorem lockTake_good {q : List Instr} {s : State} (b : Nat) (p : Pkt) (h : Good q s) :
    Good q (lockTake s b p) := by
  unfold lockTake
  try dsimp only
  repeat' first
    | with_reducible assumption
    | with_reducible apply bobMod_good
    | split
    | exact fun _ hx => hx
    | intro _

theorem bobRead_good {q : List Instr} {s : State} (p : Pkt) (n : Nat) (h : Good q s) :
    Good q (bobRead s p n) := by
  unfold bobRead
  try dsimp only
  repeat' first
    | with_reducible assumption
    | with_reducible apply lockTake_good
    | with_reducible apply respond_good
    | split
    | exact fun _ hx => hx
    | intro _

theorem txStart_good {q : List Instr} {s : State} (b : Nat) (schip : Byte) (cid : Byte) (d : Word) (h : Good q s) :
    Good q (txStart s b schip cid d).1 := by
  unfold txStart
  try dsimp only
  repeat' first
    | with_reducible assumption
    | with_reducible apply bobSet_good
    | split
    | exact fun _ hx => hx
    | intro _

theorem txWord_good {q : List Instr} {s : State} (b : Nat) (schip : Byte) (cid : Byte) (d : Word) (h : Good q s) :
    Good q (txWord s b schip cid d).1 := by
  unfold txWord
  try dsimp only
  repeat' first
    | with_reducible assumption
    | with_reducible apply bellSet_good
    | with_reducible apply bump_good
    | with_reducible apply bobSet_good
    | split
    | exact fun _ hx => hx
    | intro _

theorem bobRefuse_good {q : List Instr} {s : State} (p : Pkt) (h : Good q s) :
    (bobRefuse s p).All (Good q) := by
  unfold bobRefuse
  try dsimp only
  repeat' first
    | with_reducible assumption
    | with_reducible apply refuse_good
    | with_reducible apply bres_st
    | with_reducible apply bres_wait
    | split
    | exact fun _ hx => hx
    | intro _

theorem bobFlushWrite_good {q : List Instr} {s : State} (b : Nat) (p : Pkt) (d : Word) (h : Good q s) :
    (bobFlushWrite s b p d).All (Good q) := by
  unfold bobFlushWrite
  try dsimp only
  repeat' first
    | with_reducible assumption
    | with_reducible apply jOrigin_good
    | with_reducible apply bobFlush_good
    | with_reducible apply timeMod_good
    | with_reducible apply bres_st
    | with_reducible apply bres_wait
    | split
    | exact fun _ hx => hx
    | intro _

theorem bobWriteWord_good {q : List Instr} {s : State} (b : Nat) (p : Pkt) (w : Nat) (d : Word) (h : Good q s) :
    (bobWriteWord s b p w d).All (Good q) := by
  unfold bobWriteWord
  try dsimp only
  repeat' first
    | with_reducible assumption
    | with_reducible apply txWord_good
    | with_reducible apply txStart_good
    | with_reducible apply bobFlushWrite_good
    | with_reducible apply bobDone_good
    | with_reducible apply bellClear_good
    | with_reducible apply bellSet_good
    | with_reducible apply bobMod_good
    | with_reducible apply bobRefuse_good
    | with_reducible apply lockFree_good
    | with_reducible apply bres_st
    | with_reducible apply bres_wait
    | split
    | exact fun _ hx => hx
    | intro _
    | with_reducible refine bres_get (by with_reducible assumption) ?_
    | with_reducible refine pair_get (by with_reducible assumption) ?_

theorem bobWriteFrom_good {q : List Instr} {s : State} (p : Pkt) (k : Nat) (lost : Bool) (x5 : List DataUnit) (h : Good q s) :
    OptAll (Good q) (bobWriteFrom s p k lost x5) := by
  induction x5 generalizing s p k lost with
  | nil =>
    unfold bobWriteFrom
    try dsimp only
    repeat' first
      | with_reducible assumption
      | with_reducible apply bobWriteWord_good
      | with_reducible apply bump_good
      | with_reducible apply respond_good
      | with_reducible apply optAll_some
      | with_reducible apply optAll_none
      | split
      | exact fun _ hx => hx
      | intro _
      | with_reducible refine bres_get (by with_reducible assumption) ?_
  | cons u t ih =>
    unfold bobWriteFrom
    try dsimp only
    repeat' first
      | with_reducible assumption
      | with_reducible apply bobWriteWord_good
      | with_reducible apply bump_good
      | with_reducible apply respond_good
      | with_reducible apply optAll_some
      | with_reducible apply optAll_none
      | with_reducible apply ih
      | split
      | exact fun _ hx => hx
      | intro _
      | with_reducible refine bres_get (by with_reducible assumption) ?_

theorem bobPerform_good {q : List Instr} {s : State} (p : Pkt) (h : Good q s) :
    OptAll (Good q) (bobPerform s p) := by
  unfold bobPerform
  try dsimp only
  repeat' first
    | with_reducible assumption
    | with_reducible apply bobWriteFrom_good
    | with_reducible apply bobRead_good
    | with_reducible apply agentFence_good
    | with_reducible apply refuse_good
    | with_reducible apply respond_good
    | with_reducible apply optAll_some
    | with_reducible apply optAll_none
    | split
    | exact fun _ hx => hx
    | intro _
    | with_reducible refine optAll_get (by with_reducible assumption) ?_

theorem bobTake_good {q : List Instr} {s : State} (net : Net) (sel : Pkt → Bool) (h : Good q s) :
    Good q (bobTake s net sel) := by
  unfold bobTake
  try dsimp only
  repeat' first
    | with_reducible assumption
    | with_reducible apply settle_good
    | with_reducible apply rxDrop_good
    | with_reducible apply bobPerform_good
    | split
    | exact fun _ hx => hx
    | intro _
    | with_reducible refine optAll_get (by with_reducible assumption) ?_

theorem colPerform_good {q : List Instr} {s : State} (p : Pkt) (h : Good q s) :
    Good q (colPerform s p) := by
  unfold colPerform
  try dsimp only
  repeat' first
    | with_reducible assumption
    | with_reducible apply agentFence_good
    | with_reducible apply respond_good
    | split
    | exact fun _ hx => hx
    | intro _

theorem colTake_good {q : List Instr} {s : State} (net : Net) (sel : Pkt → Bool) (h : Good q s) :
    Good q (colTake s net sel) := by
  unfold colTake
  try dsimp only
  repeat' first
    | with_reducible assumption
    | with_reducible apply rxDrop_good
    | with_reducible apply colPerform_good
    | split
    | exact fun _ hx => hx
    | intro _

theorem execLockRead_good {q : List Instr} {s : State} (h : Good q s) :
    OutAll (Good q) (execLockRead s) := by
  unfold execLockRead
  try dsimp only
  repeat' first
    | with_reducible assumption
    | with_reducible apply bobTake_good
    | with_reducible apply outAll_next
    | with_reducible apply outAll_fault
    | with_reducible apply outAll_refused
    | split
    | exact fun _ hx => hx
    | intro _

theorem execLockRelease_good {q : List Instr} {s : State} (net : Net) (h : Good q s) :
    OutAll (Good q) (execLockRelease net s) := by
  unfold execLockRelease
  try dsimp only
  repeat' first
    | with_reducible assumption
    | with_reducible apply bobTake_good
    | with_reducible apply outAll_next
    | with_reducible apply outAll_fault
    | with_reducible apply outAll_refused
    | split
    | exact fun _ hx => hx
    | intro _

theorem execTxstart_good {q : List Instr} {s : State} (net : Net) (h : Good q s) :
    OutAll (Good q) (execTxstart net s) := by
  unfold execTxstart
  try dsimp only
  repeat' first
    | with_reducible assumption
    | with_reducible apply bobTake_good
    | with_reducible apply outAll_next
    | with_reducible apply outAll_fault
    | with_reducible apply outAll_refused
    | split
    | exact fun _ hx => hx
    | intro _

theorem execTxdata_good {q : List Instr} {s : State} (net : Net) (h : Good q s) :
    OutAll (Good q) (execTxdata net s) := by
  unfold execTxdata
  try dsimp only
  repeat' first
    | with_reducible assumption
    | with_reducible apply bobTake_good
    | with_reducible apply outAll_next
    | with_reducible apply outAll_fault
    | with_reducible apply outAll_refused
    | split
    | exact fun _ hx => hx
    | intro _

theorem execRxdone_good {q : List Instr} {s : State} (net : Net) (h : Good q s) :
    OutAll (Good q) (execRxdone net s) := by
  unfold execRxdone
  try dsimp only
  repeat' first
    | with_reducible assumption
    | with_reducible apply bobTake_good
    | with_reducible apply outAll_next
    | with_reducible apply outAll_fault
    | with_reducible apply outAll_refused
    | split
    | exact fun _ hx => hx
    | intro _

theorem execFlush_good {q : List Instr} {s : State} (net : Net) (h : Good q s) :
    OutAll (Good q) (execFlush net s) := by
  unfold execFlush
  try dsimp only
  repeat' first
    | with_reducible assumption
    | with_reducible apply bobTake_good
    | with_reducible apply outAll_next
    | with_reducible apply outAll_fault
    | with_reducible apply outAll_refused
    | split
    | exact fun _ hx => hx
    | intro _

theorem execBobStatWrite_good {q : List Instr} {s : State} (net : Net) (h : Good q s) :
    OutAll (Good q) (execBobStatWrite net s) := by
  unfold execBobStatWrite
  try dsimp only
  repeat' first
    | with_reducible assumption
    | with_reducible apply bobTake_good
    | with_reducible apply outAll_next
    | with_reducible apply outAll_fault
    | with_reducible apply outAll_refused
    | split
    | exact fun _ hx => hx
    | intro _

theorem execDoorbellWrite_good {q : List Instr} {s : State} (net : Net) (h : Good q s) :
    OutAll (Good q) (execDoorbellWrite net s) := by
  unfold execDoorbellWrite
  try dsimp only
  repeat' first
    | with_reducible assumption
    | with_reducible apply bobTake_good
    | with_reducible apply outAll_next
    | with_reducible apply outAll_fault
    | with_reducible apply outAll_refused
    | split
    | exact fun _ hx => hx
    | intro _

theorem execDbclr_good {q : List Instr} {s : State} (net : Net) (h : Good q s) :
    OutAll (Good q) (execDbclr net s) := by
  unfold execDbclr
  try dsimp only
  repeat' first
    | with_reducible assumption
    | with_reducible apply bobTake_good
    | with_reducible apply outAll_next
    | with_reducible apply outAll_fault
    | with_reducible apply outAll_refused
    | split
    | exact fun _ hx => hx
    | intro _

end Sys2Proof.Machine
end

