-- ==== Sys2Proof/Laws/KeepCmdRows.lean ====
section
/-!
SUPPORT. The queue and the invariant through the definitions of Machine/CmdRows.lean (see Laws/Good.lean).
-/
set_option linter.all false

namespace Sys2Proof.Machine

theorem agentTake_good {q : List Instr} {s : State} (node : BitVec 7) (net : Net) (sel : Op → Bool) (h : Good q s) :
    Good q (agentTake s node net sel) := by
  unfold agentTake
  try dsimp only
  repeat' first
    | with_reducible assumption
    | with_reducible apply colTake_good
    | with_reducible apply bobTake_good
    | with_reducible apply sysTake_good
    | with_reducible apply settle_good
    | split
    | exact fun _ hx => hx
    | intro _

theorem execCmdRead_good {q : List Instr} {s : State} (node : BitVec 7) (busyN : Bool) (h : Good q s) :
    OutAll (Good q) (execCmdRead node busyN s) := by
  unfold execCmdRead
  try dsimp only
  repeat' first
    | with_reducible assumption
    | with_reducible apply agentTake_good
    | with_reducible apply portRead_good
    | with_reducible apply outAll_next
    | with_reducible apply outAll_fault
    | with_reducible apply outAll_refused
    | split
    | exact fun _ hx => hx
    | intro _

theorem execCmdWrite_good {q : List Instr} {s : State} (node : BitVec 7) (net : Net) (busyN : Bool) (h : Good q s) :
    OutAll (Good q) (execCmdWrite node net busyN s) := by
  unfold execCmdWrite
  try dsimp only
  repeat' first
    | with_reducible assumption
    | with_reducible apply agentTake_good
    | with_reducible apply portWrite_good
    | with_reducible apply outAll_next
    | with_reducible apply outAll_fault
    | with_reducible apply outAll_refused
    | split
    | exact fun _ hx => hx
    | intro _

theorem atomicTake_good {q : List Instr} {s : State} (op : Op) (node : BitVec 7) (busyN : Bool) (dev : List DevBeat) (h : Good q s) :
    Good q (atomicTake op node busyN dev s) := by
  unfold atomicTake
  try dsimp only
  repeat' first
    | with_reducible assumption
    | with_reducible apply agentTake_good
    | with_reducible apply portAtomic_good
    | split
    | exact fun _ hx => hx
    | intro _

theorem execCmdSwap_good {q : List Instr} {s : State} (node : BitVec 7) (busyN : Bool) (dev : List DevBeat) (h : Good q s) :
    OutAll (Good q) (execCmdSwap node busyN dev s) := by
  unfold execCmdSwap
  try dsimp only
  repeat' first
    | with_reducible assumption
    | with_reducible apply atomicTake_good
    | with_reducible apply outAll_next
    | with_reducible apply outAll_fault
    | with_reducible apply outAll_refused
    | split
    | exact fun _ hx => hx
    | intro _

theorem execCmdFadd_good {q : List Instr} {s : State} (node : BitVec 7) (busyN : Bool) (dev : List DevBeat) (h : Good q s) :
    OutAll (Good q) (execCmdFadd node busyN dev s) := by
  unfold execCmdFadd
  try dsimp only
  repeat' first
    | with_reducible assumption
    | with_reducible apply atomicTake_good
    | with_reducible apply outAll_next
    | with_reducible apply outAll_fault
    | with_reducible apply outAll_refused
    | split
    | exact fun _ hx => hx
    | intro _

theorem execCmdTas_good {q : List Instr} {s : State} (node : BitVec 7) (busyN : Bool) (dev : List DevBeat) (h : Good q s) :
    OutAll (Good q) (execCmdTas node busyN dev s) := by
  unfold execCmdTas
  try dsimp only
  repeat' first
    | with_reducible assumption
    | with_reducible apply atomicTake_good
    | with_reducible apply outAll_next
    | with_reducible apply outAll_fault
    | with_reducible apply outAll_refused
    | split
    | exact fun _ hx => hx
    | intro _

theorem execCmdCas_good {q : List Instr} {s : State} (node : BitVec 7) (busyN : Bool) (dev : List DevBeat) (h : Good q s) :
    OutAll (Good q) (execCmdCas node busyN dev s) := by
  unfold execCmdCas
  try dsimp only
  repeat' first
    | with_reducible assumption
    | with_reducible apply atomicTake_good
    | with_reducible apply outAll_next
    | with_reducible apply outAll_fault
    | with_reducible apply outAll_refused
    | split
    | exact fun _ hx => hx
    | intro _

theorem execCmdProbe_good {q : List Instr} {s : State} (node : BitVec 7) (h : Good q s) :
    OutAll (Good q) (execCmdProbe node s) := by
  unfold execCmdProbe
  try dsimp only
  repeat' first
    | with_reducible assumption
    | with_reducible apply agentTake_good
    | with_reducible apply portProbe_good
    | with_reducible apply outAll_next
    | with_reducible apply outAll_fault
    | with_reducible apply outAll_refused
    | split
    | exact fun _ hx => hx
    | intro _

theorem execCmdFence_good {q : List Instr} {s : State} (node : BitVec 7) (h : Good q s) :
    OutAll (Good q) (execCmdFence node s) := by
  unfold execCmdFence
  try dsimp only
  repeat' first
    | with_reducible assumption
    | with_reducible apply agentTake_good
    | with_reducible apply portFence_good
    | with_reducible apply outAll_next
    | with_reducible apply outAll_fault
    | with_reducible apply outAll_refused
    | split
    | exact fun _ hx => hx
    | intro _

theorem execFenceComplete_good {q : List Instr} {s : State} (node : BitVec 7) (h : Good q s) :
    OutAll (Good q) (execFenceComplete node s) := by
  unfold execFenceComplete
  try dsimp only
  repeat' first
    | with_reducible assumption
    | with_reducible apply agentFenceDone_good
    | with_reducible apply portFenceDone_good
    | with_reducible apply outAll_next
    | with_reducible apply outAll_fault
    | with_reducible apply outAll_refused
    | split
    | exact fun _ hx => hx
    | intro _

theorem wakeStep_good {q : List Instr} {s : State} (n : Nat) (t : Byte) (x : Tag) (st : Status) (h : Good q s) :
    Good q (wakeStep s n t x st) := by
  unfold wakeStep
  try dsimp only
  repeat' first
    | with_reducible assumption
    | with_reducible apply wakeAsk_good
    | with_reducible apply portMod_good
    | split
    | exact fun _ hx => hx
    | intro _

theorem portMatch_good {q : List Instr} {s : State} (n : Nat) (p : Pkt) (h : Good q s) :
    Good q (portMatch s n p) := by
  unfold portMatch
  try dsimp only
  repeat' first
    | with_reducible assumption
    | with_reducible apply wakeStep_good
    | with_reducible apply portTagDone_good
    | with_reducible apply portMod_good
    | with_reducible apply bump_good
    | split
    | exact fun _ hx => hx
    | intro _

theorem agentMatch_good {q : List Instr} {s : State} (p : Pkt) (h : Good q s) :
    Good q (agentMatch s p) := by
  unfold agentMatch
  try dsimp only
  repeat' first
    | with_reducible assumption
    | with_reducible apply agentTagDone_good
    | with_reducible apply sysMod_good
    | split
    | exact fun _ hx => hx
    | intro _

theorem execResponseMatch_good {q : List Instr} {s : State} (node : BitVec 7) (h : Good q s) :
    OutAll (Good q) (execResponseMatch node s) := by
  unfold execResponseMatch
  try dsimp only
  repeat' first
    | with_reducible assumption
    | with_reducible apply agentMatch_good
    | with_reducible apply portMatch_good
    | with_reducible apply pirqPump_good
    | with_reducible apply settle_good
    | with_reducible apply rxDrop_good
    | with_reducible apply outAll_next
    | with_reducible apply outAll_fault
    | with_reducible apply outAll_refused
    | split
    | exact fun _ hx => hx
    | intro _

theorem execTagTimeout_good {q : List Instr} {s : State} (x1 : Holder) (tag : Byte) (h : Good q s) :
    OutAll (Good q) (execTagTimeout x1 tag s) := by
  unfold execTagTimeout
  try dsimp only
  repeat' first
    | with_reducible assumption
    | with_reducible apply agentTagDone_good
    | with_reducible apply portTagDone_good
    | with_reducible apply pirqPump_good
    | with_reducible apply settle_good
    | with_reducible apply outAll_next
    | with_reducible apply outAll_fault
    | with_reducible apply outAll_refused
    | split
    | exact fun _ hx => hx
    | intro _

end Sys2Proof.Machine
end

