-- ==== Sys2Proof/Laws/KeepTapRows.lean ====
section
/-!
SUPPORT. The queue and the invariant through the definitions of Machine/TapRows.lean (see Laws/Good.lean).
-/
set_option linter.all false

namespace Sys2Proof.Machine

theorem tapHold_good {q : List Instr} {s : State} (ir : BitVec 4) (h : Good q s) (hi : ir = 0 ∨ ir = 3 ∨ ir = 4) :
    Good q (tapHold s ir) := by
  unfold tapHold
  apply tapMod_good
  · split
    · exact h
    · exact heldReset_good h
  · obtain rfl | rfl | rfl := hi <;> simp [tapOk]

theorem execExtest_good {q : List Instr} {s : State} (pins : List Bool) (h : Good q s) :
    OutAll (Good q) (execExtest pins s) := by
  unfold execExtest
  split
  · apply outAll_next
    have g := tapHold_good irEXTEST h (by decide)
    exact tapMod_good _ g g.2.2.2.2
  · exact h

theorem execHighz_good {q : List Instr} {s : State} (h : Good q s) :
    OutAll (Good q) (execHighz s) := by
  unfold execHighz
  split
  · exact outAll_next (tapHold_good irHIGHZ h (by decide))
  · exact h

theorem execClamp_good {q : List Instr} {s : State} (h : Good q s) :
    OutAll (Good q) (execClamp s) := by
  unfold execClamp
  split
  · exact outAll_next (tapHold_good irCLAMP h (by decide))
  · exact h

theorem tapPlain_good {q : List Instr} {s : State} (ir : BitVec 4) (h : Good q s) (hi : ir ≠ 0 ∧ ir ≠ 3 ∧ ir ≠ 4) :
    Good q (tapPlain s ir) := by
  unfold tapPlain
  split
  · apply tapMod_good _ h
    rename_i e
    simp at e
    simpa [tapOk, e.2, and_assoc] using hi
  · exact h

theorem execIdcode_good {q : List Instr} {s : State} (h : Good q s) :
    OutAll (Good q) (execIdcode s) := by
  exact outAll_next (tapPlain_good irIDCODE h (by decide))

theorem execSamplePreload_good {q : List Instr} {s : State} (pins : List Bool) (h : Good q s) :
    OutAll (Good q) (execSamplePreload pins s) := by
  unfold execSamplePreload
  apply outAll_next
  split
  · apply tapMod_good _ h
    rename_i e
    simp at e
    simp [tapOk, e.2, irSAMPLE]
  · exact h

theorem execBypass_good {q : List Instr} {s : State} (h : Good q s) :
    OutAll (Good q) (execBypass s) := by
  exact outAll_next (tapPlain_good irBYPASS h (by decide))

theorem execTapTestExit_good {q : List Instr} {s : State} (h : Good q s) :
    OutAll (Good q) (execTapTestExit s) := by
  unfold execTapTestExit
  dsimp only
  have g := tapMod_good (fun t => { t with ir := irIDCODE, test := false }) h (by simp [tapOk, irIDCODE])
  split
  · apply outAll_next
    split
    · exact g
    · exact startUp_good _ g
  · exact h

end Sys2Proof.Machine
end

