-- ==== Sys2Proof/Laws/KeepTick.lean ====
section
/-!
SUPPORT. The queue and the invariant through the definitions of Machine/Tick.lean (see Laws/Good.lean).
-/
set_option linter.all false

namespace Sys2Proof.Machine

theorem tick_good {q : List Instr} {s : State} (h : Good q s) :
    Good q (tick s) := by
  unfold tick
  try dsimp only
  repeat' first
    | with_reducible assumption
    | with_reducible apply timeMod_good
    | split
    | exact fun _ hx => hx
    | intro _

end Sys2Proof.Machine
end

