-- ==== Sys2Proof/Laws/KeepExec.lean ====
section
/-!
SUPPORT. Every command leaves the queue it runs under and keeps the invariant.
-/
namespace Sys2Proof.Machine

/-- Whatever the command: the queue stays, and the invariant. -/
theorem exec_good {q : List Instr} {s : State} (i : Instr) (h : Good q s) : OutAll (Good q) (exec i s) := by
  cases i with
  | unitTransfer l noise => exact execUnitTransfer_good _ _ h
  | routerHeadArrival net r inp => exact execRouterHeadArrival_good _ _ _ h
  | outputGrant net r arb mask => exact execOutputGrant_good _ _ _ _ h
  | bulkPromotion net r arb cand => exact execBulkPromotion_good _ _ _ _ h
  | delayLineSwap r tap => exact execDelayLineSwap_good _ _ h
  | isoFrameBoundary  => exact execIsoFrameBoundary_good  h
  | accessCapture n acc => exact execAccessCapture_good _ _ h
  | strobeRelease n => exact execStrobeRelease_good _ h
  | sync16Read n c1 c2 => exact execSync16Read_good _ _ _ h
  | sync16Write n c1 c2 beats => exact execSync16Write_good _ _ _ _ h
  | sync16Swap n c1 c2 o1 o2 => exact execSync16Swap_good _ _ _ _ _ h
  | sync16Fadd n c1 c2 o1 o2 => exact execSync16Fadd_good _ _ _ _ _ h
  | sync16Tas n c1 c2 => exact execSync16Tas_good _ _ _ h
  | sync16Cas n c1 c2 o1 o2 o3 o4 => exact execSync16Cas_good _ _ _ _ _ _ _ h
  | sync16Fence n c1 c2 => exact execSync16Fence_good _ _ _ h
  | sync16Probe n c1 c2 => exact execSync16Probe_good _ _ _ h
  | intakeDecode n => exact execIntakeDecode_good _ h
  | responseMatch node => exact execResponseMatch_good _ h
  | tagTimeout who tag => exact execTagTimeout_good who tag h
  | staleTagExpiry who tag => exact execStaleTagExpiry_good who tag h
  | wakeRetry n tag => exact execWakeRetry_good _ _ h
  | cmdRead node busyN => exact execCmdRead_good _ _ h
  | cmdWrite node net busyN => exact execCmdWrite_good _ _ _ h
  | cmdSwap node busyN dev => exact execCmdSwap_good _ _ _ h
  | cmdFadd node busyN dev => exact execCmdFadd_good _ _ _ h
  | cmdTas node busyN dev => exact execCmdTas_good _ _ _ h
  | cmdCas node busyN dev => exact execCmdCas_good _ _ _ h
  | cmdProbe node => exact execCmdProbe_good _ h
  | cmdFence node => exact execCmdFence_good _ h
  | fenceComplete node => exact execFenceComplete_good _ h
  | busClaim n valid => exact execBusClaim_good _ _ h
  | targetRequestDone n dev => exact execTargetRequestDone_good _ _ h
  | watchSendTimeout n => exact execWatchSendTimeout_good _ h
  | watchArrival n busyN => exact execWatchArrival_good _ _ h
  | watchReplayTimeout n => exact execWatchReplayTimeout_good _ h
  | watchReplayDone n => exact execWatchReplayDone_good _ h
  | pirqActivation n => exact execPirqActivation_good _ h
  | pirqRepeat n => exact execPirqRepeat_good _ h
  | pcfgWrite n by_ => exact execPcfgWrite_good _ _ h
  | pclkWrite n by_ => exact execPclkWrite_good _ _ h
  | clockStopped n => exact execClockStopped_good _ h
  | seamUnit ring t1 t2 t3 => exact execSeamUnit_good _ _ _ _ h
  | credit ring arg => exact execCredit_good _ _ h
  | pulse ring arg => exact execPulse_good _ _ h
  | pulseTimer  => exact execPulseTimer_good  h
  | joinSlot sample => exact execJoinSlot_good _ h
  | pause  => exact execPause_good  h
  | quiet ring => exact execQuiet_good _ h
  | resume  => exact execResume_good  h
  | join chip => exact execJoin_good _ h
  | grant chip => exact execGrant_good _ h
  | leave chip => exact execLeave_good _ h
  | release chip => exact execRelease_good _ h
  | rollstart  => exact execRollstart_good  h
  | roll chip => exact execRoll_good _ h
  | rollend  => exact execRollend_good  h
  | table chip => exact execTable_good _ h
  | dup chip => exact execDup_good _ h
  | eject chip => exact execEject_good _ h
  | ringFaultMsg chip => exact execRingFaultMsg_good _ h
  | abort ring => exact execAbort_good _ h
  | abortRepeat  => exact execAbortRepeat_good  h
  | masterSelfSplice pulseSeen => exact execMasterSelfSplice_good _ h
  | nopulse  => exact execNopulse_good  h
  | ringtoExpiry  => exact execRingtoExpiry_good  h
  | ringctlLeave by_ => exact execRingctlLeave_good _ h
  | ringctlReform by_ => exact execRingctlReform_good _ h
  | clientClaim from_ => exact execClientClaim_good _ h
  | directoryWrite c by_ => exact execDirectoryWrite_good _ _ h
  | directoryCopy dir auth => exact execDirectoryCopy_good _ _ h
  | authorityCopy schip ochip ocid words => exact execAuthorityCopy_good _ _ _ _ h
  | portrstNotice net => exact execPortrstNotice_good _ h
  | lockRead  => exact execLockRead_good  h
  | lockRelease net => exact execLockRelease_good _ h
  | txstart net => exact execTxstart_good _ h
  | txdata net => exact execTxdata_good _ h
  | rxdone net => exact execRxdone_good _ h
  | flush net => exact execFlush_good _ h
  | bobStatWrite net => exact execBobStatWrite_good _ h
  | doorbellWrite net => exact execDoorbellWrite_good _ h
  | dbclr net => exact execDbclr_good _ h
  | bcfgWrite b by_ => exact execBcfgWrite_good _ _ h
  | hostBobFlush hd => exact execHostBobFlush_good _ h
  | hostBobDone hd => exact execHostBobDone_good _ h
  | hostDoorbell hd => exact execHostDoorbell_good _ h
  | bobdataRead  => exact execBobdataRead_good  h
  | voteWrite net => exact execVoteWrite_good _ h
  | votePaceExpiry voter d => exact execVotePaceExpiry_good _ _ h
  | hostVote hd => exact execHostVote_good _ h
  | wakeRequest net => exact execWakeRequest_good _ h
  | wakeHoldExpiry d => exact execWakeHoldExpiry_good _ h
  | domcmdWrite d by_ => exact execDomcmdWrite_good _ _ h
  | hemDrainDone d => exact execHemDrainDone_good _ h
  | draintoExpiry d => exact execDraintoExpiry_good _ h
  | wakeHoldoffExpiry d => exact execWakeHoldoffExpiry_good _ h
  | pstateWrite by_ => exact execPstateWrite_good _ h
  | regulatorPoll ack status => exact execRegulatorPoll_good _ _ h
  | regtoExpiry  => exact execRegtoExpiry_good  h
  | ralert status => exact execRalert_good _ h
  | rungReady sub => exact execRungReady_good _ h
  | rungTimeout sub => exact execRungTimeout_good _ h
  | rungRetry sub => exact execRungRetry_good _ h
  | pllLoss  => exact execPllLoss_good  h
  | supplyWarning vcore vaon => exact execSupplyWarning_good _ _ h
  | hushEnd minv duration => exact execHushEnd_good _ _ h
  | vcoreReset  => exact execVcoreReset_good  h
  | vnvWarning  => exact execVnvWarning_good  h
  | vnvRecover  => exact execVnvRecover_good  h
  | vioLow k => exact execVioLow_good _ h
  | powerOn rise => exact execPowerOn_good _ h
  | resetPin  => exact execResetPin_good  h
  | time0Read  => exact execTime0Read_good  h
  | rtcsec0Read  => exact execRtcsec0Read_good  h
  | rtcsec0Write hd => exact execRtcsec0Write_good _ h
  | rtcsec1Write hd => exact execRtcsec1Write_good _ h
  | alarm0Read  => exact execAlarm0Read_good  h
  | alarm0Write hd => exact execAlarm0Write_good _ h
  | alarm1Write hd => exact execAlarm1Write_good _ h
  | rtcsecsWrite net => exact execRtcsecsWrite_good _ h
  | alarmsecsWrite net => exact execAlarmsecsWrite_good _ h
  | alarmDisarm by_ => exact execAlarmDisarm_good _ h
  | rtcStep  => exact execRtcStep_good  h
  | patrolDue  => exact execPatrolDue_good  h
  | tackReadDone  => exact execTackReadDone_good  h
  | rtcStopDetect  => exact execRtcStopDetect_good  h
  | targetTimeout n => exact execTargetTimeout_good _ h
  | isolateGo n by_ => exact execIsolateGo_good _ _ h
  | portQuietExpiry n => exact execPortQuietExpiry_good _ h
  | basteWrite by_ => exact execBasteWrite_good _ h
  | stitch by_ => exact execStitch_good _ h
  | abandon by_ => exact execAbandon_good _ h
  | journalArrayWrite readsBack pick => exact execJournalArrayWrite_good _ _ h
  | jrnhead0Read  => exact execJrnhead0Read_good  h
  | snapshot by_ => exact execSnapshot_good _ h
  | freeze by_ => exact execFreeze_good _ h
  | thaw by_ => exact execThaw_good _ h
  | clear by_ => exact execClear_good _ h
  | gatherDone  => exact execGatherDone_good  h
  | cselWrite by_ => exact execCselWrite_good _ h
  | cvalRead  => exact execCvalRead_good  h
  | bwWindowBoundary  => exact execBwWindowBoundary_good  h
  | clrpeak n by_ => exact execClrpeak_good _ _ h
  | windataRead  => exact execWindataRead_good  h
  | windataWrite hd => exact execWindataWrite_good _ h
  | hostFence by_ => exact execHostFence_good _ h
  | registerWrite w => exact execRegisterWrite_good _ h
  | registerReadClear r => exact execRegisterReadClear_good _ h
  | resetPort by_ => exact execResetPort_good _ h
  | resetSys by_ => exact execResetSys_good _ h
  | resetChip by_ => exact execResetChip_good _ h
  | resetRing by_ => exact execResetRing_good _ h
  | ringResetNotice schip => exact execRingResetNotice_good _ h
  | ringResetDelay  => exact execRingResetDelay_good  h
  | extest pins => exact execExtest_good _ h
  | idcode  => exact execIdcode_good  h
  | samplePreload pins => exact execSamplePreload_good _ h
  | highz  => exact execHighz_good  h
  | clamp  => exact execClamp_good  h
  | bypass  => exact execBypass_good  h
  | tapTestExit  => exact execTapTestExit_good  h
  | ctlpar ring d => exact execCtlpar_good _ _ h
  | ringManagementResend  => exact execRingManagementResend_good  h
  | ringResetNoAnswer  => exact execRingResetNoAnswer_good  h
  | resetRelease  => exact execResetRelease_good  h
  | vioRecover k => exact execVioRecover_good _ h
  | pirqDeactivation n => exact execPirqDeactivation_good _ h
  | ralertRelease  => exact execRalertRelease_good  h
  | rpgoodChange level => exact execRpgoodChange_good _ h
  | sync16ReservedOp n c1 c2 => exact execSync16ReservedOp_good _ _ _ h

end Sys2Proof.Machine
end

