-- ==== Sys2Proof/Tests/Slice0.lean ====
section
/-!
SUPPORT. Witnesses: for every statement with hypotheses, states and operands that meet them, clause by clause. Then tests: commands that
are not well-formed, the manual's worked examples, and a few single steps.
-/
open Sys2Proof Sys2Proof.Machine
namespace Sys2Proof.Tests
set_option Elab.async false

/-! ## States to try the rules on -/

/-- Chip c after reset, whatever the strap of this board. -/
def chip (c : Byte) : State := { State.reset with chipnum := c, ring := RingSt.reset c }

/-- Port n on, with PCFG w and this interface. -/
def withPort (s : State) (n : Nat) (w : Word) (p : PortSt) : State :=
  portSet (domSet (cfgSet s n 0 w) n { Dom.resetPort with st := .on, cmdOn := true }) n p

/-- A packet waiting, untaken, at a node. -/
def waiting (s : State) (node : BitVec 7) (net : Net) (p : Pkt) : State := nodeSet s node net { NodeQ.reset with rx := [p] }

/-- A request from the port at `snode` of chip 5. -/
def request (dnode snode : BitVec 7) (op : Op) (cid : Byte) (addr : BitVec 30) (ds : List DataUnit) : Pkt :=
  requestPkt 5 dnode snode op 1 9 5 cid addr ds

/-- The host about to write the high half of a bank word. -/
def hostWrites (s : State) (b i : Nat) (lo : Half) : State :=
  { s with host := { s.host with winsel := BitVec.ofNat 8 b, winaddr := BitVec.ofNat 16 i, phase := true, phaseRd := false, wlatch := lo } }

/-- Chip 5 at position 1 of a ring of three. -/
def onRing : State :=
  { chip 5 with ring := { RingSt.reset 5 with st := .spliced, bypass := false, chips := [0, 5, 9], pos := 1 } }

/-- The master of that ring. -/
def master : State :=
  { chip 0 with ring := { RingSt.reset 0 with st := .spliced, bypass := false, chips := [0, 5, 9] } }

theorem calm_chip (c : Byte) : (chip c).calm := ⟨rfl, rfl, (by decide : 2 ≤ (4 : BitVec 3).toNat), rfl, rfl, rfl, rfl⟩

theorem gates_reset (c : Byte) : gatesEmpty (chip c) := by
  intro g k; cases g <;> exact ⟨rfl, rfl, rfl⟩

theorem still_reset (c : Byte) : (chip c).ringStill := by
  unfold State.ringStill
  exact ⟨fun _ _ h => (List.not_mem_nil h).elim, fun _ h => (List.not_mem_nil h).elim, rfl, rfl, rfl, fun _ => rfl, gates_reset c⟩

theorem host_writes {s : State} {ha : BitVec 6} {wd : Wd} {raw : Word} {hd : Half}
    (h : s.host.waitLow = false ∧ hostGate s ha.toNat = .serve ∧ hostNames s ha hd = some (wd, raw)) : Writes s ha wd raw 0xF (.host hd) :=
  ⟨h.1, h.2.1, h.2.2, rfl⟩

theorem fab_writes {s : State} {ha : BitVec 6} {wd : Wd} {raw : Word} {be : BitVec 4} {net : Net} (p : Pkt) (u : DataUnit)
    (h : net ≠ .rsp ∧ sysOn s = true ∧ rxHead s nodeSys net = some p ∧ p.dnode = nodeSys ∧ reqCheck p = .perform ∧ opOf p.cmd = .write 1 ∧
      p.data = [u] ∧ u.data = raw ∧ u.be = be ∧ be ≠ 0 ∧ flatWord (byteAddr p.addr) = some wd) : Writes s ha wd raw be (.fabric net) :=
  ⟨h.1, h.2.1, p, u, h.2.2⟩

/-! ## Witnesses: the hypotheses of each statement can be met -/

/-- A READ of one word for node 6 of chip 5. -/
def readHead : LinkUnit := unitOf (headBits 5 0x06 0x02 0x10 1 1 7)

/-- Router 0 holding a head at its local input, which holds the east output. -/
def hopState : State :=
  arbSet (rinSet (chip 5) .req 0 .loc { RIn.reset with latch := some readHead, route := some { out := .east, slot := false }, left := 1 })
    .req 0 (.out .east) { Arb.reset with holder := some 4, left := 2 }

theorem wit_UnitCrossesHop : ∃ (s : State) (net : Net) (r r2 : Fin 64) (out inp d2 : Dir) (u : LinkUnit),
    neighbour r.val out = some (r2.val, d2) ∧ heldUnit s net r.val out = some (inp, u) ∧
    rinFree s net r2.val d2 = true ∧ (rinGet s net r2.val d2).absorb = none ∧
    ((rinGet s net r2.val d2).left ≠ 0 ∨ (rinGet s net r2.val d2).discard = false ∨ utOf u.d = 1) ∧ unitGood u = true :=
  ⟨hopState, .req, 0, 1, .east, .loc, .west, readHead, by decide +kernel⟩

/-- The NI of port 0 with a packet to drive, holding the local input. -/
def driveState : State :=
  arbSet (nodeSet (chip 5) 0x00 .req { NodeQ.reset with out := [readHead, readHead] }) .req 0 .localIn { Arb.reset2 with holder := some 0, left := 2 }

theorem wit_NodeDrivesUnit : ∃ (s : State) (net : Net) (node : BitVec 7) (r : Fin 64) (u : LinkUnit) (rest : List LinkUnit),
    r.val = nodeRouter node ∧ (nodeGet s node net).out = u :: rest ∧
    (arbGet s net r.val .localIn).holder = some (if nodeSlotB node then 1 else 0) ∧
    rinFree s net r.val .loc = true ∧ domOn s 64 = true ∧ (rinGet s net r.val .loc).absorb = none ∧
    ((rinGet s net r.val .loc).left ≠ 0 ∨ (rinGet s net r.val .loc).discard = false ∨ utOf u.d = 1) ∧ unitGood u = true ∧
    node ≠ nodeGateA ∧ node ≠ nodeGateB ∧ (nodeSlotB node = true ∨ net ≠ .snp) :=
  ⟨driveState, .req, 0x00, 0, readHead, [readHead], by decide +kernel⟩

/-- A head, and then an address unit, in front of slot A of router 3, port 3 on. -/
def takeState (part : List LinkUnit) (u : LinkUnit) : State :=
  nodeSet (arbSet (rinSet (withPort (chip 5) 3 0x30004 PortSt.reset) .req 3 .west
      { RIn.reset with latch := some u, route := some { out := .loc, slot := false }, left := 1 })
    .req 3 (.out .loc) { Arb.reset with holder := some 3, left := 2 }) 0x06 .req { NodeQ.reset with part := part }

def addrUnit : LinkUnit := unitOf (addrBits 5 1 0x40)

theorem wit_NodeTakesUnit :
    (∃ (s : State) (net : Net) (r : Fin 64) (b : Bool) (inp : Dir) (u : LinkUnit),
      heldUnit s net r.val .loc = some (inp, u) ∧ (rinGet s net r.val inp).route = some { out := .loc, slot := b } ∧
      slotNode r.val b ≠ nodeGateA ∧ slotNode r.val b ≠ nodeGateB ∧ nodeRoom s (slotNode r.val b) net = true ∧
      (utOf u.d = 1 ∧ unitGood u = true ∧ lenGood u.d = true) ∧ (nodeGet s (slotNode r.val b) net).part = [] ∧
      [u].length ≤ (hLen u.d).toNat) ∧
    (∃ (s : State) (net : Net) (r : Fin 64) (b : Bool) (inp : Dir) (u h : LinkUnit) (p : Pkt),
      heldUnit s net r.val .loc = some (inp, u) ∧ (rinGet s net r.val inp).route = some { out := .loc, slot := b } ∧
      slotNode r.val b ≠ nodeGateA ∧ slotNode r.val b ≠ nodeGateB ∧ nodeRoom s (slotNode r.val b) net = true ∧
      (nodeGet s (slotNode r.val b) net).part = [h] ∧ (hLen h.d).toNat < [h, u].length ∧ parsePkt [h, u] = some p ∧
      nodeTakes s (slotNode r.val b) = true ∧ ¬(nodeSlotB (slotNode r.val b) = true ∧ net = .snp)) :=
  ⟨⟨takeState [] readHead, .req, 3, false, .west, readHead, by decide +kernel⟩,
   ⟨takeState [readHead] addrUnit, .req, 3, false, .west, addrUnit, readHead, request 0x06 0x02 (.read 1) 1 0x40 [] |> fun p => { p with tag := 7 },
    by decide +kernel⟩⟩

/-- A head that has just arrived from the west at router r. -/
def arrived (s : State) (r : Nat) (u : LinkUnit) : State := rinSet s .req r .west { RIn.reset with latch := some u }

theorem wit_HeadIsRouted : ∃ (s : State) (net : Net) (r : Fin 64) (inp : Dir) (u : LinkUnit),
    (rinGet s net r.val inp).latch = some u ∧ (rinGet s net r.val inp).route = none ∧ (rinGet s net r.val inp).absorb = none ∧
    unitGood u = true ∧ utOf u.d = 1 ∧ lenGood u.d = true ∧
    routeTo r.val (routeTarget s u.d) = .loc ∧ slotDo s (routeTarget s u.d) net (hDchip u.d) = .deliver :=
  ⟨arrived (withPort (chip 5) 3 0x30004 PortSt.reset) 3 readHead, .req, 3, .west, readHead, by decide +kernel⟩

theorem wit_HeadIsAbsorbed : ∃ (s : State) (net : Net) (r : Fin 64) (inp : Dir) (u : LinkUnit) (ans : Option Status),
    (rinGet s net r.val inp).latch = some u ∧ (rinGet s net r.val inp).route = none ∧ (rinGet s net r.val inp).absorb = none ∧
    unitGood u = true ∧ utOf u.d = 1 ∧ lenGood u.d = true ∧ routeTo r.val (routeTarget s u.d) = .loc ∧
    slotDo s (routeTarget s u.d) net (hDchip u.d) = .absorb ans ∧ ans = some .asleep :=
  ⟨arrived (chip 5) 3 readHead, .req, 3, .west, readHead, some .asleep, by decide +kernel⟩

theorem wit_BadHeadIsDiscarded : ∃ (s : State) (net : Net) (r : Fin 64) (inp : Dir) (u : LinkUnit),
    (rinGet s net r.val inp).latch = some u ∧ (rinGet s net r.val inp).route = none ∧ (rinGet s net r.val inp).absorb = none ∧
    (unitGood u = false ∨ utOf u.d ≠ 1) :=
  ⟨arrived (chip 5) 3 { readHead with p := !readHead.p }, .req, 3, .west, { readHead with p := !readHead.p }, by decide +kernel⟩

/-- Two heads waiting for the east output of router 0. -/
def contest : State :=
  let put := fun s d => rinSet s .req 0 d { RIn.reset with latch := some readHead, route := some { out := .east, slot := false }, left := 1 }
  put (put (chip 5) .north) .loc

theorem wit_GrantTakesHighestClass : ∃ (s : State) (net : Net) (r : Fin 64) (arb : ArbName) (mask : BitVec 5),
    (arbGet s net r.val arb).holder = none ∧
    (contenders s net r.val arb).filter (fun c => (arbGet s net r.val arb).waited.contains c.1 || mask.getLsbD c.1) ≠ [] :=
  ⟨contest, .req, 0, .out .east, 0x10, by decide +kernel⟩

theorem wit_HeldOutputIsNotGranted : ∃ (s : State) (net : Net) (r : Fin 64) (arb : ArbName), (arbGet s net r.val arb).holder ≠ none :=
  ⟨hopState, .req, 0, .out .east, by decide +kernel⟩

/-- A BULK head that eight grants have passed. -/
def passedBulk : State :=
  arbSet (rinSet (chip 5) .req 0 .loc { RIn.reset with latch := some (unitOf (headBits 5 0x06 0x02 0x10 0 1 7)), route := some { out := .east, slot := false } })
    .req 0 (.out .east) { Arb.reset with passes := [(4, 8)], waited := [4] }

theorem wit_PromotionIsCountedOnce : ∃ (s : State) (net : Net) (r : Fin 64) (arb : ArbName) (cand : Fin 5),
    (cand.val, 0) ∈ contenders s net r.val arb ∧ tget (fun _ => 0) (arbGet s net r.val arb).passes cand.val = 8 :=
  ⟨passedBulk, .req, 0, .out .east, 4, by decide +kernel⟩

theorem wit_DelayLinesSwap : ∃ (s : State) (r : Fin 64),
    ((delayGet s r.val).due = true ∨ ∃ e ∈ (delayGet s r.val).shakes, 4096 ≤ e.2) ∧ betweenPackets s r.val = true ∧ domOn s 64 = true :=
  ⟨chip 5, 7, by decide +kernel⟩

theorem wit_IsoBudgetsReload : ∃ s : State, s.power.limp = false := ⟨chip 5, rfl⟩

/-! ### Initiators -/

def readPins : PinAccess := { rdN := false, wrN := true, csN := false, bheN := true, addr := 0x10, data := 0 }
def readAcc : Access := { kind := .read, p := 0x10, len := 1, bytes := [], cid := 3, posted := false }
def writeAcc : Access := { kind := .write, p := 0x10, len := 1, bytes := [(7, true)], cid := 3, posted := false }

/-- Port 3, FLAT8 INIT, with a window of 64 KB on node 0x0A of chip 5. -/
def initPort (p : PortSt) : State := withPort (cfgSet (cfgSet (chip 5) 3 0x10 0x10) 3 0x12 0x80010A05) 3 0x30000 p

theorem wit_AccessEntersIntake :
    (∃ (s : State) (n : Fin 64) (acc : PinAccess), pinPort s n.val = true ∧ (portGet s n.val).bus.phase = .idle ∧ acc.rdN ≠ acc.wrN ∧
      (isFlat s n.val = true → acc.csN = false) ∧ (isFlat s n.val = false → ¬(acc.addr.getLsbD 0 = true ∧ acc.bheN = true)) ∧
      (portGet s n.val).dead = false ∧ domOn s n.val = true ∧ (portGet s n.val).intake.length < 2) ∧
    (∃ (s : State) (n : Fin 64) (acc : PinAccess), pinPort s n.val = true ∧ (portGet s n.val).bus.phase = .idle ∧ acc.rdN ≠ acc.wrN ∧
      (isFlat s n.val = true → acc.csN = false) ∧ (isFlat s n.val = false → ¬(acc.addr.getLsbD 0 = true ∧ acc.bheN = true)) ∧
      (portGet s n.val).dead = false ∧ domOn s n.val = true ∧ 2 ≤ (portGet s n.val).intake.length) :=
  ⟨⟨initPort PortSt.reset, 3, readPins, by decide +kernel⟩,
   ⟨initPort { PortSt.reset with intake := [writeAcc, writeAcc] }, 3, readPins, by decide +kernel⟩⟩

theorem wit_ReservedStrobesEndDecerr :
    (∃ (s : State) (n : Fin 64) (acc : PinAccess), pinPort s n.val = true ∧ (portGet s n.val).bus.phase = .idle ∧
      (isFlat s n.val = true → acc.csN = false) ∧ (acc.rdN = false ∧ acc.wrN = false) ∧ (portGet s n.val).dead = false ∧ domOn s n.val = true) ∧
    (∃ (s : State) (n : Fin 64) (acc : PinAccess), pinPort s n.val = true ∧ (portGet s n.val).bus.phase = .idle ∧
      (acc.rdN ≠ acc.wrN ∧ isFlat s n.val = false ∧ acc.addr.getLsbD 0 = true ∧ acc.bheN = true) ∧ (portGet s n.val).dead = false ∧ domOn s n.val = true) :=
  ⟨⟨initPort PortSt.reset, 3, { readPins with wrN := false }, by decide +kernel⟩,
   ⟨withPort (chip 5) 3 0x30001 PortSt.reset, 3, { readPins with addr := 0x11 }, by decide +kernel⟩⟩

theorem wit_StrobeReleaseReadiesBus : ∃ (s : State) (n : Fin 64), pinPort s n.val = true ∧ (portGet s n.val).bus.phase = .ended :=
  ⟨initPort { PortSt.reset with bus := { phase := .ended, rdata := [1], stat := .ok } }, 3, by decide +kernel⟩

/-- Port 3, SYNC16 INIT with XCMD. -/
def syncPort : State := withPort (chip 5) 3 0x30042 PortSt.reset

theorem wit_SyncCommandsEnterIntake : ∀ k ∈ [(AccKind.read, 0x0002), (.write, 0x1000), (.swap, 0x2000), (.fadd, 0x3000), (.tas, 0x4000), (.cas, 0x5000),
      (.fence, 0x8000), (.probe, 0x9000)], ∃ (s : State) (n : Fin 64) (c1 c2 : Beat) (bs : List Beat),
    0 < bs.length ∧ bs.length ≤ 32 ∧ (xcmd s n.val = true → bs.length = c2Count c2 + 1 ∨ k.1 = .read) ∧
    syncReady s n.val = true ∧ syncIs s n.val c1 c2 k.1 = true ∧ domOn s n.val = true := by
  intro k hk
  refine ⟨syncPort, 3, ⟨0, 0⟩, ⟨3, k.2⟩, [⟨0, 0⟩], ?_⟩
  simp only [List.mem_cons, List.not_mem_nil, or_false] at hk
  rcases hk with rfl | rfl | rfl | rfl | rfl | rfl | rfl | rfl <;> decide +kernel

theorem wit_ReservedSyncOpEndsDecerr : ∃ (s : State) (n : Fin 64) (c2 : Beat),
    syncReady s n.val = true ∧ xcmd s n.val = true ∧ opCode16 (c2Op c2) = none ∧ domOn s n.val = true :=
  ⟨syncPort, 3, ⟨3, 0x6000⟩, by decide +kernel⟩

def readFront : Front :=
  { id := 0, dchip := 5, dnode := 0x0A, cls := 1, wake := false, sent := 0, parts := [{ cmd := 0x10, addr := 4, data := [] }] }

theorem wit_DecodeSendsFirstPacket : ∃ (s : State) (n : Fin 64) (a : Access) (rest : List Access) (f : Front) (q : Part) (ps : List Part) (tag : Byte) (ts : List Byte),
    mayRequest s n.val = true ∧ domOn s n.val = true ∧ (portGet s n.val).intake = a :: rest ∧ (portGet s n.val).front = none ∧
    (portGet s n.val).captured = none ∧ claimHeld (portGet s n.val) = false ∧ decodeAccess s n.val a = .go f ∧ f.parts = q :: ps ∧
    markOf (portGet s n.val) a.cid = .claimed ∧ (portGet s n.val).pool.free = tag :: ts ∧ hazard (portGet s n.val).pool f.dchip f.dnode = false ∧
    isoCost s f.cls (opOf q.cmd) ≤ (portGet s n.val).isoLeft.toNat :=
  ⟨initPort { PortSt.reset with intake := [readAcc], marks := [(3, .claimed)], pool := { TagPool.reset with free := [8, 9] } }, 3, readAcc, [], readFront,
   { cmd := 0x10, addr := 4, data := [] }, [], 8, [9], by decide +kernel⟩

theorem wit_UndecodableAccessEndsDecerr : ∃ (s : State) (n : Fin 64) (a : Access) (rest : List Access) (miss : Bool),
    niFree s n.val = true ∧ domOn s n.val = true ∧ (portGet s n.val).intake = a :: rest ∧ (portGet s n.val).front = none ∧
    (portGet s n.val).captured = none ∧ claimHeld (portGet s n.val) = false ∧ decodeAccess s n.val a = .fail miss :=
  ⟨withPort (chip 5) 3 0x30000 { PortSt.reset with intake := [readAcc] }, 3, readAcc, [], true, by decide +kernel⟩

theorem wit_FirstUseSendsClaim : ∃ (s : State) (n : Fin 64) (a : Access) (rest : List Access) (f : Front) (tag : Byte) (ts : List Byte),
    mayRequest s n.val = true ∧ domOn s n.val = true ∧ sysOn s = true ∧ (portGet s n.val).intake = a :: rest ∧ (portGet s n.val).front = none ∧
    claimHeld (portGet s n.val) = false ∧ decodeAccess s n.val a = .go f ∧ markOf (portGet s n.val) a.cid = .unclaimed ∧
    (portGet s n.val).pool.free = tag :: ts ∧ hazard (portGet s n.val).pool s.chipnum nodeSys = false :=
  ⟨initPort { PortSt.reset with intake := [readAcc], pool := { TagPool.reset with free := [8, 9] } }, 3, readAcc, [], readFront, 8, [9], by decide +kernel⟩

/-- A HELD tag of port 3 for the READ above, and its access. -/
def heldTag (use : TagUse) : Tag :=
  { st := .held, dchip := 5, dnode := 0x0A, cmd := 0x10, wr := false, wake := false, retry := false, net := .req,
    pkt := pktUnits (request 0x0A 0x06 (.read 1) 3 4 []), use := use }
def oneAccess : Outst := { acc := readAcc, faddr := 0x10, left := 1, failed := none, rd := [] }
def heldPort (x : Tag) : PortSt := { PortSt.reset with pool := { tags := [(9, x)], free := [] }, accs := [(0, oneAccess)] }

theorem wit_StaleTagBecomesFree :
    (∃ (s : State) (tag : Byte) (n : Fin 64), (tagAt (portGet s n.val).pool tag).st = .stale) ∧
    (∃ (s : State) (tag : Byte), (tagAt s.sys.agents tag).st = .stale) :=
  ⟨⟨initPort (heldPort { heldTag (.access 0 0) with st := .stale }), 9, 3, by decide +kernel⟩,
   ⟨sysMod (chip 5) (fun y => { y with agents := { tags := [(9, { heldTag .faultBell with st := .stale })], free := [] } }), 9, by decide +kernel⟩⟩

theorem wit_RetryDrivesPacketAgain : ∃ (s : State) (n : Fin 64) (tag : Byte) (q : Pkt),
    (tagAt (portGet s n.val).pool tag).st = .held ∧ (tagAt (portGet s n.val).pool tag).retry = true ∧ mayRequest s n.val = true ∧
    parsePkt (tagAt (portGet s n.val).pool tag).pkt = some q ∧ isoCost s q.cls (opOf (tagAt (portGet s n.val).pool tag).cmd) ≤ (portGet s n.val).isoLeft.toNat :=
  ⟨initPort (heldPort { heldTag (.access 0 0) with retry := true }), 3, 9, request 0x0A 0x06 (.read 1) 3 4 [], by decide +kernel⟩

/-- The answer to that READ, and ASLEEP-WAKING in its place. -/
def answer (st : Status) : Pkt := responsePkt (request 0x0A 0x06 (.read 1) 3 4 []) st [goodUnit 0xAB 0xF]

theorem wit_ResponseEndsAccess : ∃ (s : State) (n : Fin 64) (pk : Pkt) (more : List Pkt) (id part : Nat) (o : Outst) (st : Status) (ws : List Word), s.calm ∧
    (nodeGet s (portNode n.val) .rsp).rx = pk :: more ∧ niAlive s n.val = true ∧ (portGet s n.val).fwdDue = false ∧
    (tagAt (portGet s n.val).pool pk.tag).st = .held ∧ (tagAt (portGet s n.val).pool pk.tag).use = .access id part ∧
    rspVerdict (tagAt (portGet s n.val).pool pk.tag).cmd pk = .done st ws ∧ waitsOn (tagAt (portGet s n.val).pool pk.tag) st = false ∧
    (portGet s n.val).accs.find? (fun e => e.1 = id) = some (id, o) ∧ o.left ≤ 1 ∧ o.failed = none :=
  ⟨waiting (initPort (heldPort (heldTag (.access 0 0)))) 0x06 .rsp (answer .ok), 3, answer .ok, [], 0, 0, oneAccess, .ok, [0xAB], calm_chip 5, by decide +kernel⟩

theorem wit_AsleepWakingKeepsTag : ∃ (s : State) (n : Fin 64) (pk : Pkt) (more : List Pkt) (ws : List Word), s.calm ∧
    (nodeGet s (portNode n.val) .rsp).rx = pk :: more ∧ niAlive s n.val = true ∧ (portGet s n.val).fwdDue = false ∧
    (tagAt (portGet s n.val).pool pk.tag).st = .held ∧ rspVerdict (tagAt (portGet s n.val).pool pk.tag).cmd pk = .done .aslWaking ws ∧
    opOf (tagAt (portGet s n.val).pool pk.tag).cmd ≠ .probe ∧ (tagAt (portGet s n.val).pool pk.tag).pkt ≠ [] :=
  ⟨waiting (initPort (heldPort (heldTag (.access 0 0)))) 0x06 .rsp (answer .aslWaking), 3, answer .aslWaking, [], [], calm_chip 5, by decide +kernel⟩

theorem wit_TimeoutLeavesTagStale : ∃ (s : State) (n : Fin 64) (tag : Byte) (id part : Nat) (o : Outst), s.calm ∧
    (portGet s n.val).fwdDue = false ∧ (tagAt (portGet s n.val).pool tag).st = .held ∧ (tagAt (portGet s n.val).pool tag).use = .access id part ∧
    headDriven s (portNode n.val) (tagAt (portGet s n.val).pool tag) = true ∧
    (portGet s n.val).accs.find? (fun e => e.1 = id) = some (id, o) ∧ o.left ≤ 1 ∧ o.failed = none :=
  ⟨initPort (heldPort (heldTag (.access 0 0))), 3, 9, 0, 0, oneAccess, calm_chip 5, by decide +kernel⟩

/-- SYS waiting for the FENCE of index 0x10. -/
def fencing : State :=
  sysMod (chip 5) (fun y => { y with fenceBusy := true, agents := { tags := [(9, { heldTag (.fence none) with cmd := 0x08 })], free := [] } })

theorem wit_HostFenceEndsWithItsTag : ∃ (s : State) (tag : Byte) (pk : Pkt) (more : List Pkt), s.calm ∧
    s.sys.queued = [] ∧ (tagAt s.sys.agents tag).st = .held ∧ (tagAt s.sys.agents tag).use = .fence none ∧
    headDriven s nodeSys (tagAt s.sys.agents tag) = true ∧ sysOn s = true ∧ (nodeGet s nodeSys .rsp).rx = pk :: more ∧ pk.tag = tag ∧
    rspVerdict (tagAt s.sys.agents tag).cmd pk = .done .ok [] :=
  ⟨waiting fencing 0x01 .rsp (responsePkt (request 0x0A 0x01 .fence 0 0 []) .ok []), 9, responsePkt (request 0x0A 0x01 .fence 0 0 []) .ok [], [], calm_chip 5,
   by decide +kernel⟩

/-! ### Targets and watches -/

def oneWord (w : Word) (be : BitVec 4) : DataUnit := goodUnit w be
def readReq : Pkt := request 0x0A 0x06 (.read 1) 3 4 []
def writeReq : Pkt := request 0x0A 0x06 (.write 1) 3 4 [oneWord 0xAB 1]
def fetchAdd : Pkt := request 0x0A 0x06 .fadd 3 4 [oneWord 5 1]
def casReq : Pkt := request 0x0A 0x06 .cas 3 4 [oneWord 5 1, oneWord 6 1]

/-- Port 5, FLAT8 TARG, with a packet waiting; and SYNC16 TARG. -/
def flatTarg (q : Pkt) : State := waiting (withPort (chip 5) 5 0x50004 PortSt.reset) 0x0A .req q
def syncTarg (q : Pkt) : State := waiting (withPort (chip 5) 5 0x50046 PortSt.reset) 0x0A .req q

theorem wit_TargetStartsBusCycles :
    (∃ (s : State) (n : Fin 64) (net : Net) (busyN : Bool) (q : Pkt) (more : List Pkt) (k : Nat),
      net = netWith s (portNode n.val) isReadOp ∧ opOf q.cmd = .read k ∧ niServes s n.val = true ∧ (nodeGet s (portNode n.val) .rsp).out = [] ∧
      (nodeGet s (portNode n.val) net).rx = q :: more ∧ judge s n.val q = .device ∧ busFree s n.val = true ∧
      refusedBusy s n.val busyN (readRun s n.val (byteAddr q.addr) k) = false) ∧
    (∃ (s : State) (n : Fin 64) (net : Net) (busyN : Bool) (q : Pkt) (more : List Pkt) (k : Nat),
      opOf q.cmd = .write k ∧ niServes s n.val = true ∧ (nodeGet s (portNode n.val) .rsp).out = [] ∧
      (nodeGet s (portNode n.val) net).rx = q :: more ∧ judge s n.val q = .device ∧ busFree s n.val = true ∧
      refusedBusy s n.val busyN (writeRun s n.val (byteAddr q.addr) q.data) = false) ∧
    (∃ (s : State) (n : Fin 64) (net : Net) (busyN : Bool) (q : Pkt) (more : List Pkt) (dev : List DevBeat) (u : DataUnit) (us : List DataUnit) (w : Word),
      opOf q.cmd = .fadd ∧ net = netWith s (portNode n.val) (fun o => decide (o = .fadd)) ∧ q.data = u :: us ∧ isSync s n.val = false ∧
      dev.length = (readCycles s n.val (byteAddr q.addr) u.be).length ∧
      atomicWrite .fadd u.be (gatherWord s n.val u.be dev).1 u.data ((us.headD u).data) = some w ∧ w = 0x0C ∧
      niServes s n.val = true ∧ (nodeGet s (portNode n.val) .rsp).out = [] ∧ (nodeGet s (portNode n.val) net).rx = q :: more ∧
      judge s n.val q = .device ∧ busFree s n.val = true ∧
      refusedBusy s n.val busyN (readCycles s n.val (byteAddr q.addr) u.be ++ writeCycles s n.val (byteAddr q.addr) { u with data := w }) = false) ∧
    (∃ (s : State) (n : Fin 64) (net : Net) (busyN : Bool) (q : Pkt) (more : List Pkt) (dev : List DevBeat) (u : DataUnit) (us : List DataUnit),
      opOf q.cmd = .cas ∧ net = netWith s (portNode n.val) (fun o => decide (o = .cas)) ∧ q.data = u :: us ∧ isSync s n.val = false ∧
      dev.length = (readCycles s n.val (byteAddr q.addr) u.be).length ∧
      atomicWrite .cas u.be (gatherWord s n.val u.be dev).1 u.data ((us.headD u).data) = none ∧
      niServes s n.val = true ∧ (nodeGet s (portNode n.val) .rsp).out = [] ∧ (nodeGet s (portNode n.val) net).rx = q :: more ∧
      judge s n.val q = .device ∧ busFree s n.val = true ∧ refusedBusy s n.val busyN (readCycles s n.val (byteAddr q.addr) u.be) = false) :=
  ⟨⟨flatTarg readReq, 5, .req, true, readReq, [], 1, by decide +kernel⟩,
   ⟨flatTarg writeReq, 5, .req, true, writeReq, [], 1, by decide +kernel⟩,
   ⟨flatTarg fetchAdd, 5, .req, true, fetchAdd, [], [{ pd := 7, bad := false, last := false }], oneWord 5 1, [], 0x0C, by decide +kernel⟩,
   ⟨flatTarg casReq, 5, .req, true, casReq, [], [{ pd := 7, bad := false, last := false }], oneWord 5 1, [oneWord 6 1], by decide +kernel⟩⟩

theorem wit_SyncAtomicGoesToDevice : ∃ (s : State) (n : Fin 64) (q : Pkt) (more : List Pkt) (u : DataUnit) (us : List DataUnit),
    opOf q.cmd = .fadd ∧ q.data = u :: us ∧ isSync s n.val = true ∧ niServes s n.val = true ∧ (nodeGet s (portNode n.val) .rsp).out = [] ∧
    (nodeGet s (portNode n.val) (netWith s (portNode n.val) (fun o => decide (o = .fadd)))).rx = q :: more ∧ judge s n.val q = .device ∧ busFree s n.val = true :=
  ⟨syncTarg fetchAdd, 5, fetchAdd, [], oneWord 5 1, [], by decide +kernel⟩

/-- Requests of each kind at a port in role INIT. -/
theorem wit_TargetTurnsRequestAway : ∀ e ∈ [(Op.read 1, ([] : List DataUnit)), (.write 1, [oneWord 1 1]), (.swap, [oneWord 1 1]), (.fadd, [oneWord 1 1]),
      (.tas, [oneWord 0 1]), (.cas, [oneWord 1 1, oneWord 2 1]), (.probe, []), (.fence, [])],
    ∃ (s : State) (n : Fin 64) (q : Pkt) (more : List Pkt) (st : Status), opOf q.cmd = e.1 ∧ niServes s n.val = true ∧
      (nodeGet s (portNode n.val) .rsp).out = [] ∧ (nodeGet s (portNode n.val) .req).rx = q :: more ∧ judge s n.val q = .answer st ∧
      q.dnode = portNode n.val ∧ netWith s (portNode n.val) (fun o => decide (o = e.1)) = .req := by
  intro e he
  refine ⟨waiting (withPort (chip 5) 5 0x50000 PortSt.reset) 0x0A .req (request 0x0A 0x06 e.1 3 4 e.2), 5, request 0x0A 0x06 e.1 3 4 e.2, [], .decerr, ?_⟩
  simp only [List.mem_cons, List.not_mem_nil, or_false] at he
  rcases he with rfl | rfl | rfl | rfl | rfl | rfl | rfl | rfl <;> decide +kernel

theorem wit_ProbeIsAnswered : ∃ (s : State) (n : Fin 64) (q : Pkt) (more : List Pkt), niServes s n.val = true ∧ (nodeGet s (portNode n.val) .rsp).out = [] ∧
    (nodeGet s (portNode n.val) (netWith s (portNode n.val) (fun o => decide (o = .probe)))).rx = q :: more ∧ opOf q.cmd = .probe ∧
    judge s n.val q = .device ∧ q.dnode = portNode n.val :=
  ⟨flatTarg (request 0x0A 0x06 .probe 3 0 []), 5, request 0x0A 0x06 .probe 3 0 [], [], by decide +kernel⟩

theorem wit_FenceWaitsThenIsAnswered :
    (∃ (s : State) (n : Fin 64) (q : Pkt) (more : List Pkt), niServes s n.val = true ∧ (nodeGet s (portNode n.val) .rsp).out = [] ∧
      (nodeGet s (portNode n.val) (netWith s (portNode n.val) (fun o => decide (o = .fence)))).rx = q :: more ∧ opOf q.cmd = .fence ∧
      judge s n.val q = .device ∧ (nodeGet s (portNode n.val) .dat).rx = []) ∧
    (∃ (s : State) (n : Fin 64) (f : Pkt) (fs : List Pkt), niServes s n.val = true ∧ (nodeGet s (portNode n.val) .rsp).out = [] ∧
      (portGet s n.val).fences = f :: fs ∧ f.dnode = portNode n.val ∧ (portGet s n.val).tgt = none ∧ (portGet s n.val).wsend = [] ∧
      (portGet s n.val).wheld = [] ∧ (nodeGet s (portNode n.val) .snp).out = []) :=
  ⟨⟨flatTarg (request 0x0A 0x06 .fence 3 0 []), 5, request 0x0A 0x06 .fence 3 0 [], [], by decide +kernel⟩,
   ⟨withPort (chip 5) 5 0x50004 { PortSt.reset with fences := [request 0x0A 0x06 .fence 3 0 []] }, 5, request 0x0A 0x06 .fence 3 0 [], [], by decide +kernel⟩⟩

/-- Port 5 performing the write above; its watch entry 0 covers the word when `watch` holds, for node 6 of chip 5. -/
def writing (watch : Bool) : State :=
  let s := withPort (chip 5) 5 0x50004 { PortSt.reset with tgt := some { pkt := writeReq, net := .req, stat := .ok, words := [], wrote := [oneWord 0xAB 1] } }
  if watch then cfgSet (cfgSet (cfgSet s 5 0x50 0x10) 5 0x51 0x10D) 5 0x52 0x06050605 else s

theorem wit_TargetAnswersWhenDone :
    (∃ (s : State) (n : Fin 64) (r : TgtReq) (ds wrote : List DataUnit), (portGet s n.val).tgt = some r ∧ r.pkt.dnode = portNode n.val ∧
      (nodeGet s (portNode n.val) .rsp).out = [] ∧ tgtResult s n.val r [] = some (ds, wrote) ∧ wrote ≠ [] ∧ watchList s n.val r.pkt wrote = []) ∧
    (∃ (s : State) (n : Fin 64) (r : TgtReq) (ds wrote : List DataUnit) (w : Pkt) (ws : List Pkt), (portGet s n.val).tgt = some r ∧
      r.pkt.dnode = portNode n.val ∧ (nodeGet s (portNode n.val) .rsp).out = [] ∧ tgtResult s n.val r [] = some (ds, wrote) ∧ wrote ≠ [] ∧
      watchList s n.val r.pkt wrote = w :: ws ∧ (∀ v ∈ w :: ws, inTable s v.dchip = true) ∧ (portGet s n.val).wsend = [] ∧
      (nodeGet s (portNode n.val) .snp).out = []) :=
  ⟨⟨writing false, 5, { pkt := writeReq, net := .req, stat := .ok, words := [], wrote := [oneWord 0xAB 1] }, [], [oneWord 0xAB 1], by decide +kernel⟩,
   ⟨writing true, 5, { pkt := writeReq, net := .req, stat := .ok, words := [], wrote := [oneWord 0xAB 1] }, [], [oneWord 0xAB 1],
    (watchList (writing true) 5 writeReq [oneWord 0xAB 1]).headD writeReq, (watchList (writing true) 5 writeReq [oneWord 0xAB 1]).tail, by decide +kernel⟩⟩

/-- Port 5, SYNC16 DUAL, with a request waiting. -/
def dualWanted : State := waiting (withPort (chip 5) 5 0x5004A PortSt.reset) 0x0A .req readReq

theorem wit_BusIsClaimed : ∃ (s : State) (n : Fin 64), isDual s n.val = true ∧ niServes s n.val = true ∧ (portGet s n.val).claimed = false ∧
    (portGet s n.val).bus.phase ≠ .waiting ∧ busWanted s n.val = true :=
  ⟨dualWanted, 5, by decide +kernel⟩

/-- A WATCH of the word at 0x10 from node 6, and with one data unit. -/
def watchPacket (ds : List DataUnit) : Pkt :=
  { dchip := 5, dnode := 0x0A, snode := 0x06, cmd := 0x38, cls := 1, tag := 0, hasAddr := true, addrBad := false, schip := 5, cid := 3, addr := 4,
    data := ds, formed := true }

/-- Port 5, FLAT8 TARG, with a WATCHABLE window on node 6 when `win` holds, and that packet at it. -/
def watched (win : Bool) (ds : List DataUnit) (p : PortSt) : State :=
  let s := withPort (chip 5) 5 0x50004 p
  waiting (if win then cfgSet (cfgSet s 5 0x10 0x10) 5 0x12 0x80090605 else s) 0x0A .snp (watchPacket ds)

theorem wit_WatchArrives :
    (∃ (s : State) (n : Fin 64) (q : Pkt) (more : List Pkt), niServes s n.val = true ∧ (portGet s n.val).replay = none ∧
      (nodeGet s (portNode n.val) .snp).rx = q :: more ∧ watchBad q = false ∧ q.data = []) ∧
    (∃ (s : State) (n : Fin 64) (q : Pkt) (more : List Pkt) (a : Nat), niServes s n.val = true ∧ (portGet s n.val).replay = none ∧
      (nodeGet s (portNode n.val) .snp).rx = q :: more ∧ watchBad q = false ∧ q.data ≠ [] ∧ isInit s n.val = false ∧ replayAddr s n.val q = some a ∧
      busFree s n.val = true ∧ refusedBusy s n.val true (writeRun s n.val a q.data) = false) ∧
    (∃ (s : State) (n : Fin 64) (q : Pkt) (more : List Pkt), niServes s n.val = true ∧ (portGet s n.val).replay = none ∧
      (nodeGet s (portNode n.val) .snp).rx = q :: more ∧ watchBad q = false ∧ q.data ≠ [] ∧ replayAddr s n.val q = none) :=
  ⟨⟨watched false [] PortSt.reset, 5, watchPacket [], [], by decide +kernel⟩,
   ⟨watched true [oneWord 1 1] PortSt.reset, 5, watchPacket [oneWord 1 1], [], 0x10, by decide +kernel⟩,
   ⟨watched false [oneWord 1 1] PortSt.reset, 5, watchPacket [oneWord 1 1], [], by decide +kernel⟩⟩

theorem wit_WatchDropsAreCounted :
    (∃ (s : State) (n : Fin 64) (q : Pkt) (qs : List Pkt), (portGet s n.val).replay ≠ none ∧ (nodeGet s (portNode n.val) .snp).rx = q :: qs ∧
      niServes s n.val = true) ∧
    (∃ (s : State) (n : Fin 64) (u : LinkUnit) (us : List LinkUnit), (nodeGet s (portNode n.val) .snp).out = u :: us ∧ utOf u.d = 1 ∧
      us.length = (hLen u.d).toNat ∧ (arbGet s .snp n.val .localIn).holder ≠ some 0 ∧ (portGet s n.val).wsend = [] ∧ (portGet s n.val).wheld = []) :=
  ⟨⟨watched true [] { PortSt.reset with replay := some { pkt := watchPacket [], running := true } }, 5, watchPacket [], [], by decide +kernel⟩,
   ⟨nodeSet (chip 5) 0x0A .snp { NodeQ.reset with out := [readHead, addrUnit] }, 5, readHead, [addrUnit], by decide +kernel⟩⟩

theorem wit_ReplayEnds : ∃ (s : State) (n : Fin 64) (q : Pkt), (portGet s n.val).replay = some { pkt := q, running := true } :=
  ⟨watched true [] { PortSt.reset with replay := some { pkt := watchPacket [], running := true } }, 5, watchPacket [], by decide +kernel⟩

/-- Port 5, FLAT8 TARG, forwarding PIRQ to bit 2 of bobbin 1 of chip 5, repeated. -/
def forwards (p : PortSt) : State := cfgSet (withPort (chip 5) 5 0x50004 p) 5 2 0x00481481

theorem wit_PirqIsForwarded : ∀ b ∈ [true, false], ∃ (s : State) (n : Fin 64) (tag : Byte) (ts : List Byte), (portGet s n.val).pirqIn = b ∧
    fieldNat (pirqcfg s n.val) 19 3 ≠ 0 ∧ pirqOn s n.val = true ∧ (portGet s n.val).fwdOut = false ∧ mayRequest s n.val = true ∧
    inTable s ((pirqcfg s n.val).extractLsb' 10 8) = true ∧ (portGet s n.val).pool.free = tag :: ts ∧
    hazard (portGet s n.val).pool ((pirqcfg s n.val).extractLsb' 10 8) nodeBob = false := by
  intro b hb
  refine ⟨forwards { PortSt.reset with pirqIn := b, pool := { TagPool.reset with free := [8, 9] } }, 5, 8, [9], ?_⟩
  simp only [List.mem_cons, List.not_mem_nil, or_false] at hb
  rcases hb with rfl | rfl <;> decide +kernel

theorem wit_PirqReadsInactive : ∃ (s : State) (n : Fin 64), domOn s n.val = true := ⟨forwards PortSt.reset, 5, by decide +kernel⟩

/-! ### The seam and the ring -/

theorem still_ring (s : State) (r : RingSt) (h : s.ringStill) (ha : r.gateA = Gate.reset) (hb : r.gateB = Gate.reset) :
    ({ s with ring := r } : State).ringStill := by
  obtain ⟨h1, h2, h3, h4, h5, h6, _⟩ := h
  refine ⟨h1, h2, h3, h4, h5, h6, ?_⟩
  intro g k
  cases g
  · show _ ∧ _ ∧ _
    simp only [gateGet, ha]; exact gates_reset 5 .a k
  · show _ ∧ _ ∧ _
    simp only [gateGet, hb]; exact gates_reset 5 .b k

theorem still_onRing : onRing.ringStill := still_ring _ _ (still_reset 5) rfl rfl
theorem still_master : master.ringStill := still_ring _ _ (still_reset 0) rfl rfl
theorem gates_onRing : gatesEmpty onRing := still_onRing.2.2.2.2.2.2

theorem wit_RingMessagesGoOn : ∀ e ∈ [(Instr.join 9, (0x4 : BitVec 4)), (.grant 9, 0x5), (.leave 9, 0x6), (.release 9, 0x7), (.roll 9, 0x9), (.dup 9, 0xC),
      (.eject 9, 0xD), (.ringFaultMsg 9, 0xE)],
    ∃ (s : State) (c : Byte) (i : Instr) (msg : BitVec 4), i = e.1 ∧ msg = e.2 ∧ canDrive s = true ∧ isMaster s = false ∧ s.ring.resync = false ∧
      c ≠ s.chipnum := by
  intro e _
  exact ⟨onRing, 9, e.1, e.2, rfl, rfl, by decide +kernel⟩

theorem wit_RollCallPassesOn : ∀ d ∈ [true, false], ∃ s : State, canDrive s = true ∧ isMaster s = false ∧ s.ring.resync = false ∧ s.ring.dupFound = d := by
  intro d _
  exact ⟨ringMod onRing (fun r => { r with dupFound := d }), by cases d <;> decide +kernel⟩

theorem wit_PauseStopsPackets : ∃ s : State, canDrive s = true ∧ isMaster s = false ∧ s.ring.resync = false ∧ seamQuiet s = true :=
  ⟨onRing, by decide +kernel⟩

theorem wit_PulsesGoRound :
    (∃ (s : State) (g : Ring) (arg : Byte), canDrive s = true ∧ isMaster s = false ∧ s.ring.st ≠ .orphan ∧ s.ring.paused = false ∧ arg.toNat = pulseArg s g) ∧
    (∃ (s : State) (g : Ring) (arg : Byte), canDrive s = true ∧ isMaster s = true ∧ (gateGet s g).pulseOut = true ∧ s.ring.paused = false ∧
      arg.toNat = pulseArg s g) :=
  ⟨⟨onRing, .a, 0, by decide +kernel⟩, ⟨ringMod master (fun r => { r with gateA := { r.gateA with pulseOut := true } }), .a, 2, by decide +kernel⟩⟩

theorem wit_JoinSlotsCarryRequests :
    (∃ (s : State) (sample : Half), canDrive s = true ∧ isMaster s = false ∧ s.ring.slotOpen = true ∧ joinWordGood (~~~ sample) = true) ∧
    (∃ (s : State) (sample : Half), canDrive s = true ∧ s.ring.slotOpen = true ∧ joinWordGood (~~~ sample) = false) ∧
    (∃ s : State, canDrive s = false) :=
  ⟨⟨ringMod onRing (fun r => { r with slotOpen := true }), ~~~ joinWord 7, by decide +kernel⟩,
   ⟨ringMod onRing (fun r => { r with slotOpen := true }), ~~~ 0xA506, by decide +kernel⟩, ⟨chip 5, by decide +kernel⟩⟩

theorem wit_AbortsGoOn :
    (∃ (s : State), canDrive s = true ∧ isMaster s = false ∧ (s.ring.gateA.abortSeen ≠ 0 ∨ s.ring.gateB.abortSeen ≠ 0)) ∧
    (∃ (s : State), canDrive s = true ∧ isMaster s = true ∧ s.ring.op = .reform) :=
  ⟨⟨ringMod onRing (fun r => { r with gateA := { r.gateA with abortSeen := 1 } }), by decide +kernel⟩,
   ⟨ringMod master (fun r => { r with op := .reform }), by decide +kernel⟩⟩

theorem wit_LostPulseMakesOrphan : ∃ s : State, canDrive s = true ∧ isMaster s = false ∧ s.ring.resync = true :=
  ⟨ringMod onRing (fun r => { r with resync := true }), by decide +kernel⟩

/-- Head units for chip 5, node 6, in transfers of channel 0. -/
def t1 : BitVec 17 := (seamTransfers 0 readHead.d false).headD 0
def t2 : BitVec 17 := ((seamTransfers 0 readHead.d false).drop 1).headD 0
def t3 : BitVec 17 := ((seamTransfers 0 readHead.d false).drop 2).headD 0

theorem wit_SeamUnitEntersMesh : ∃ (s : State) (g : Ring) (t1 t2 t3 : BitVec 17),
    let c := seamCh t1
    let x := sinGet (gateGet s g) c
    let y := sinGet (gateGet s g) (if c % 2 = 0 then c + 1 else c - 1)
    let d : BitVec 48 := 1#2 ++ seamU t1 t2 t3
    canDrive s = true ∧ s.ring.resync = false ∧ t1.msb = true ∧ seamSpGood t1 t2 t3 = true ∧ x.latch = none ∧ x.left = 0 ∧
    hDchip d = s.chipnum ∧ inTable s s.chipnum = true ∧ (y.toMesh && y.busy) = false ∧ (nodeGet s (gateNode g) (netOfChannel c)).out = [] :=
  ⟨onRing, .b, t1, t2, t3, by decide +kernel⟩

theorem wit_CreditsReturn : ∃ (s : State) (g : Ring) (arg : Byte), canDrive s = true ∧ s.ring.resync = false ∧ gatesEmpty s ∧ arg ≠ 0 ∧
    (∀ c, c < 8 → arg.getLsbD c = true → (soutGet (gateGet s (otherRing g)) c).credit = false) := by
  refine ⟨gateMod onRing .b (fun y => soutSet y 3 { SeamOut.reset with credit := false }), .a, 8, rfl, rfl, ?_, by decide, by decide +kernel⟩
  intro g k
  obtain ⟨hi, hb, ho⟩ := gates_onRing g k
  cases g
  · exact ⟨hi, hb, ho⟩
  · refine ⟨hi, hb, ?_⟩
    show (soutGet (soutSet onRing.ring.gateB 3 { SeamOut.reset with credit := false }) k).fromMsh = none
    rw [soutGet_soutSet]
    split
    · rfl
    · exact ho

theorem wit_RingFaultIsDeclared :
    (∃ (d : Half), ctlGood d = false) ∧
    (∃ s : State, canDrive s = true ∧ isMaster s = false ∧ (s.ring.st = .spliced ∨ s.ring.st = .orphan) ∧ s.ring.resync = false ∧ s.ringStill ∧
      nvOn s = true ∧ s.jrn.staging.length + 2 ≤ 72 ∧ (faultdb s).getLsbD 18 = false) :=
  ⟨⟨0, by decide⟩, ⟨onRing, rfl, rfl, .inl rfl, rfl, still_onRing, rfl, by decide, by decide +kernel⟩⟩

theorem wit_GrantOpensBypass :
    (∃ s : State, canDrive s = false ∧ mayJoin s = true ∧ s.ring.st = .waiting) ∧
    (∃ s : State, canDrive s = false ∧ mayJoin s = true ∧ isMaster s = true) :=
  ⟨⟨ringMod (chip 5) (fun r => { r with joinEn := true, st := .waiting }), by decide +kernel⟩,
   ⟨ringMod (chip 0) (fun r => { r with joinEn := true }), by decide +kernel⟩⟩

theorem wit_UnspliceClosesBypass : ∃ (s : State), isMaster s = false ∧ s.ring.resync = false ∧ canDrive s = true ∧ s.ring.leaveWhy = .leave ∧
    s.ringStill ∧ s.calm ∧ s.sys.stitch = none ∧ (domGet s 65).st = .on ∧ (domGet s 65).cmdOn = true :=
  ⟨ringMod onRing (fun r => { r with leaveWhy := .leave, leaveBit := true, paused := true }), rfl, rfl, rfl, rfl,
   still_ring _ _ still_onRing rfl rfl, calm_chip 5, by decide +kernel⟩

theorem wit_ResumeTakesTable : ∃ s : State, canDrive s = true ∧ isMaster s = false ∧ s.ring.resync = false ∧ s.ringStill ∧ s.calm ∧
    s.ring.granted = false ∧ s.ring.reform = false ∧ s.ring.tables = [0, 5] :=
  ⟨ringMod onRing (fun r => { r with paused := true, stopped := true, tables := [0, 5] }), rfl, rfl, rfl,
   still_ring _ _ still_onRing rfl rfl, calm_chip 5, rfl, rfl, rfl⟩

theorem wit_RingctlAsksToLeave : ∃ (s : State) (by_ : By) (raw : Word) (be : BitVec 4), s.calm ∧ nvOn s = true ∧ jRoom s = true ∧
    Writes s 0x2A (.reg 0x2A) raw be by_ ∧ holdsRight s (askOrigin s by_) rMAP = true ∧ holdsRight s (askOrigin s by_) rRESET = true ∧
    be.getLsbD 0 = true ∧ raw.getLsbD 1 = true ∧ raw.getLsbD 3 = false ∧
    canDrive s = true ∧ isMaster s = false ∧ s.ring.st = .spliced ∧ s.ring.leaveWhy = .none :=
  ⟨onRing, .host 3, 3, 0xF, calm_chip 5, rfl, by decide +kernel, host_writes (by decide +kernel), by decide +kernel⟩

theorem wit_RingctlReforms : ∃ (s : State) (by_ : By) (raw : Word) (be : BitVec 4), s.calm ∧ nvOn s = true ∧ s.jrn.staging.length + 3 ≤ 72 ∧
    jRoom s = true ∧ Writes s 0x2A (.reg 0x2A) raw be by_ ∧ holdsRight s (askOrigin s by_) rMAP = true ∧
    holdsRight s (askOrigin s by_) rRESET = true ∧ be.getLsbD 0 = true ∧ raw.getLsbD 1 = false ∧ raw.getLsbD 3 = true ∧
    canDrive s = true ∧ isMaster s = true ∧ s.ring.st = .spliced ∧ s.ring.op ≠ .reform ∧ s.ringStill ∧ (faultdb s).getLsbD 18 = false :=
  ⟨master, .host 9, 9, 0xF, calm_chip 0, rfl, by decide, by decide +kernel, host_writes (by decide +kernel), by decide +kernel, by decide +kernel,
   by decide, by decide, by decide, rfl, rfl, rfl, by decide, still_master, by decide +kernel⟩

/-! ### Words, counters and the host -/

/-- Chip 5 with a one-word write of raw at flat word address `addr`, by client 3 of port 3, waiting at SYS. -/
def fabWrites (s : State) (addr : BitVec 30) (raw : Word) (be : BitVec 4) : State :=
  waiting s nodeSys .req (request nodeSys 0x06 (.write 1) 3 addr [oneWord raw be])

theorem wit_PortWordsAreWritten :
    (∃ (s : State) (n : Fin 64) (by_ : By) (raw v : Word) (be : BitVec 4), s.calm ∧ nvOn s = true ∧ jRoom s = true ∧
      v = mergeWord (portFields 0) (pcfg s n) raw be ∧ Writes s 0x0A (.bank n 0) raw be by_ ∧ holdsRight s (askOrigin s by_) rMAP = true ∧
      pcfgBad s n (pcfg s n) v = false) ∧
    (∃ (s : State) (n : Fin 64) (net : Net) (raw v : Word) (be : BitVec 4), s.calm ∧ nvOn s = true ∧ jRoom s = true ∧
      v = mergeWord (portFields 0) (pcfg s n) raw be ∧ Writes s 0x0A (.bank n 0) raw be (.fabric net) ∧
      holdsRight s (askOrigin s (.fabric net)) rMAP = true ∧ pcfgBad s n (pcfg s n) v = false) ∧
    (∃ (s : State) (n : Fin 64) (by_ : By) (raw v : Word) (be : BitVec 4), s.calm ∧ nvOn s = true ∧ jRoom s = true ∧
      v = mergeWord (portFields 1) (cfgGet s n 1) raw be ∧ Writes s 0x0A (.bank n 1) raw be by_ ∧ holdsRight s (askOrigin s by_) rMAP = true ∧
      pclkBad v = false) ∧
    (∃ (s : State) (n : Fin 64) (by_ : By) (raw : Word) (be : BitVec 4), s.calm ∧ nvOn s = true ∧ jRoom s = true ∧
      Writes s 0x0A (.bank n 0xE4) raw be by_ ∧ holdsRight s (askOrigin s by_) rCOUNT = true ∧ domOn s n = true ∧ raw.getLsbD 2 = true ∧
      be.getLsbD 0 = true) :=
  ⟨⟨hostWrites (chip 5) 3 0 0x0004, 3, .host 3, 0x00030004, _, 0xF, calm_chip 5, rfl, by decide +kernel, rfl, host_writes (by decide +kernel),
    by decide +kernel⟩,
   ⟨fabWrites (cfgSet (chip 5) 0x80 3 0xFF) 0x43000 0x00030004 0xF, 3, .req, 0x00030004, _, 0xF, calm_chip 5, rfl, by decide +kernel, rfl,
    fab_writes (request nodeSys 0x06 (.write 1) 3 0x43000 [oneWord 0x00030004 0xF]) (oneWord 0x00030004 0xF) (by decide +kernel), by decide +kernel⟩,
   ⟨hostWrites (chip 5) 3 1 0, 3, .host 0x20, 0x00200000, _, 0xF, calm_chip 5, rfl, by decide +kernel, rfl, host_writes (by decide +kernel),
    by decide +kernel⟩,
   ⟨hostWrites (withPort (chip 5) 3 0x30004 PortSt.reset) 3 0xE4 4, 3, .host 0, 4, 0xF, calm_chip 5, rfl, by decide +kernel,
    host_writes (by decide +kernel), by decide +kernel⟩⟩

theorem wit_RefusedPortWritesChangeNothing :
    (∃ (s : State) (n : Fin 64) (by_ : By) (raw v : Word) (be : BitVec 4), s.calm ∧ v = mergeWord (portFields 0) (pcfg s n) raw be ∧
      Writes s 0x0A (.bank n 0) raw be by_ ∧ pcfgBad s n (pcfg s n) v = true) ∧
    (∃ (s : State) (n : Fin 64) (by_ : By) (raw v : Word) (be : BitVec 4), s.calm ∧ v = mergeWord (portFields 0) (pcfg s n) raw be ∧
      Writes s 0x0A (.bank n 0) raw be by_ ∧ pcfgBad s n (pcfg s n) v = false ∧ holdsRight s (askOrigin s by_) rMAP = false ∧
      (pcfg s n ^^^ v) &&& 0x1FFFFFFF ≠ 0) ∧
    (∃ (s : State) (n : Fin 64) (by_ : By) (raw v : Word) (be : BitVec 4), s.calm ∧ v = mergeWord (portFields 1) (cfgGet s n 1) raw be ∧
      Writes s 0x0A (.bank n 1) raw be by_ ∧ pclkBad v = true) ∧
    (∃ (s : State) (n : Fin 64) (by_ : By) (raw v : Word) (be : BitVec 4), s.calm ∧ v = mergeWord (portFields 1) (cfgGet s n 1) raw be ∧
      Writes s 0x0A (.bank n 1) raw be by_ ∧ pclkBad v = false ∧ holdsRight s (askOrigin s by_) rMAP = false ∧
      (cfgGet s n 1 ^^^ v) &&& 0x07FFFFFF ≠ 0) :=
  ⟨⟨hostWrites (chip 5) 3 0 0x0003, 3, .host 3, 0x00030003, _, 0xF, calm_chip 5, rfl, host_writes (by decide +kernel), by decide +kernel⟩,
   ⟨fabWrites (cfgSet (chip 5) 0x80 3 0) 0x43000 0x00030004 0xF, 3, .fabric .req, 0x00030004, _, 0xF, calm_chip 5, rfl,
    fab_writes (request nodeSys 0x06 (.write 1) 3 0x43000 [oneWord 0x00030004 0xF]) (oneWord 0x00030004 0xF) (by decide +kernel), by decide +kernel⟩,
   ⟨hostWrites (chip 5) 3 1 0, 3, .host 1, 0x00010000, _, 0xF, calm_chip 5, rfl, host_writes (by decide +kernel), by decide +kernel⟩,
   ⟨fabWrites (cfgSet (chip 5) 0x80 3 0) 0x43001 0x00200000 0xF, 3, .fabric .req, 0x00200000, _, 0xF, calm_chip 5, rfl,
    fab_writes (request nodeSys 0x06 (.write 1) 3 0x43001 [oneWord 0x00200000 0xF]) (oneWord 0x00200000 0xF) (by decide +kernel), by decide +kernel⟩⟩

theorem wit_BcfgIsWritten :
    (∃ (s : State) (b : Fin 64) (by_ : By) (raw v : Word) (be : BitVec 4), s.calm ∧ nvOn s = true ∧ jRoom s = true ∧
      v = mergeWord (bankFields 0x87 b) (bcfg s b) raw be ∧ Writes s 0x0A (.bank 0x87 b) raw be by_ ∧
      holdsRight s (askOrigin s by_) rMAP = true ∧ bWake v = false ∧ bOwner v ≠ bOwner (bcfg s b)) ∧
    (∃ (s : State) (b : Fin 64) (by_ : By) (raw v : Word) (be : BitVec 4), s.calm ∧ nvOn s = true ∧ jRoom s = true ∧
      v = mergeWord (bankFields 0x87 b) (bcfg s b) raw be ∧ Writes s 0x0A (.bank 0x87 b) raw be by_ ∧
      holdsRight s (askOrigin s by_) rMAP = true ∧ bWake v = true ∧ domOn s (bOwner v) = true ∧ bOwner v = bOwner (bcfg s b)) :=
  ⟨⟨hostWrites (chip 5) 0x87 2 0x0105, 2, .host 0, 0x0105, _, 0xF, calm_chip 5, rfl, by decide +kernel, rfl, host_writes (by decide +kernel),
    by decide +kernel⟩,
   ⟨hostWrites (withPort (chip 5) 0 0x30004 PortSt.reset) 0x87 2 0x0180, 2, .host 0, 0x0180, _, 0xF, calm_chip 5, rfl, by decide +kernel, rfl,
    host_writes (by decide +kernel), by decide +kernel⟩⟩

theorem wit_AlarmIsDisarmed : ∃ (s : State) (by_ : By) (raw v : Word) (be : BitVec 4), s.calm ∧ nvOn s = true ∧ jRoom s = true ∧
    s.time.tackHeld = [] ∧ v = mergeWord (bankFields 0x83 3) (alctlWord s) raw be ∧ Writes s 0x0A (.bank 0x83 3) raw be by_ ∧
    holdsRight s (askOrigin s by_) rPOWER = true ∧ v.msb = true :=
  ⟨hostWrites (timeMod (chip 5) (fun m => { m with armed := true })) 0x83 3 0, .host 0x8000, 0x80000000, _, 0xF, calm_chip 5, rfl, by decide +kernel,
   rfl, rfl, host_writes (by decide +kernel), by decide +kernel⟩

theorem wit_CounterSelectIsWritten :
    (∃ (s : State) (b i k : Nat) (blk : Blk) (by_ : By) (raw v : Word) (be : BitVec 4), s.calm ∧ nvOn s = true ∧ jRoom s = true ∧
      counterAt b i = some (blk, k, false) ∧ blk = .router 3 ∧ domOn s 64 = true ∧ v = mergeWord (counterFields false) (cselGet s blk k) raw be ∧
      Writes s 0x0A (.bank b i) raw be by_ ∧ holdsRight s (askOrigin s by_) rCOUNT = true ∧ be.getLsbD 0 = true ∧
      eventListed blk (fieldNat v 0 8) = true ∧ (k % 2 = 1 → v.getLsbD 8 = false)) ∧
    (∃ (s : State) (b i k : Nat) (blk : Blk) (by_ : By) (raw v : Word) (be : BitVec 4), s.calm ∧ nvOn s = true ∧ jRoom s = true ∧
      counterAt b i = some (blk, k, false) ∧ (∀ r, blk ≠ .router r) ∧ v = mergeWord (counterFields false) (cselGet s blk k) raw be ∧
      Writes s 0x0A (.bank b i) raw be by_ ∧ holdsRight s (askOrigin s by_) rCOUNT = true ∧ be.getLsbD 0 = true ∧
      eventListed blk (fieldNat v 0 8) = true ∧ v.getLsbD 8 = true ∧ k % 2 = 0) :=
  ⟨⟨hostWrites (chip 5) 0x43 1 2, 0x43, 1, 1, .router 3, .host 0, 2, _, 0xF, calm_chip 5, rfl, by decide +kernel, by decide +kernel, rfl,
    by decide +kernel, rfl, host_writes (by decide +kernel), by decide +kernel⟩,
   ⟨hostWrites (chip 5) 3 0xD2 0x103, 3, 0xD2, 2, .port 3, .host 0, 0x103, _, 0xF, calm_chip 5, rfl, by decide +kernel, by decide +kernel,
    (fun r h => by cases h), rfl, host_writes (by decide +kernel), by decide +kernel⟩⟩

theorem wit_CounterCommands : ∀ k ∈ [(1 : Half), 2, 3, 4], ∃ (s : State) (by_ : By) (raw v : Word) (be : BitVec 4), s.calm ∧ nvOn s = true ∧
    jRoom s = true ∧ s.cnt.busy = false ∧ v = mergeWord (regFields 0x26) 0 raw be ∧ Writes s 0x26 (.reg 0x26) raw be by_ ∧
    holdsRight s (askOrigin s by_) rCOUNT = true ∧ v = k.setWidth 32 := by
  intro k hk
  refine ⟨chip 5, .host k, k.setWidth 32, _, 0xF, calm_chip 5, rfl, by decide +kernel, rfl, rfl, host_writes ?_, ?_⟩
  · exact ⟨rfl, by decide +kernel, rfl⟩
  · simp only [List.mem_cons, List.not_mem_nil, or_false] at hk
    rcases hk with rfl | rfl | rfl | rfl <;> decide +kernel

theorem wit_GatherEnds : ∃ s : State, s.calm ∧ s.cnt.busy = true :=
  ⟨{ chip 5 with cnt := { (chip 5).cnt with busy := true } }, calm_chip 5, rfl⟩

theorem wit_BandwidthWindowEnds : ∃ s : State, tsRuns s = true := ⟨chip 5, by decide +kernel⟩

theorem wit_ChainedCounterReadLatches : ∃ (s : State) (blk : Blk) (k : Nat), s.host.waitLow = false ∧ hostGate s 0x0A = .serve ∧
    s.host.phase = false ∧ counterAt (winB s) (winI s) = some (blk, k, true) ∧ k % 2 = 0 ∧ (cselGet s blk k).getLsbD 8 = true ∧
    wordAsleep s (.bank (winB s) (winI s)) = false ∧ s.host.cvLatch = none :=
  ⟨hostMod (cfgSet (chip 5) 0x86 0x504 0x102) (fun y => { y with winsel := 0x86, winaddr := 0x514 }), .sys, 4, by decide +kernel⟩

theorem wit_HostReadsLatch : ∃ s : State, s.host.waitLow = false ∧ ∀ i ∈ [0x0C, 0x0F, 0x11, 0x20, 0x1D, 0x27, 0x2D], hostGate s i = .serve :=
  ⟨chip 5, by decide +kernel⟩

theorem wit_WindowIsRead :
    (∃ s : State, s.host.waitLow = false ∧ hostGate s 0x0A = .serve ∧ s.host.phase = true ∧ s.host.phaseRd = true) ∧
    (∃ s : State, s.host.waitLow = false ∧ hostGate s 0x0A = .serve ∧ (s.host.phase && s.host.phaseRd) = false ∧ bankHas (winB s) (winI s) = false) ∧
    (∃ s : State, s.host.waitLow = false ∧ hostGate s 0x0A = .serve ∧ (s.host.phase && s.host.phaseRd) = false ∧ bankHas (winB s) (winI s) = true ∧
      wordAsleep s (.bank (winB s) (winI s)) = true) ∧
    (∃ s : State, s.host.waitLow = false ∧ hostGate s 0x0A = .serve ∧ (s.host.phase && s.host.phaseRd) = false ∧ bankHas (winB s) (winI s) = true ∧
      wordAsleep s (.bank (winB s) (winI s)) = false ∧ counterAt (winB s) (winI s) = none) :=
  ⟨⟨hostMod (chip 5) (fun y => { y with phase := true, phaseRd := true }), by decide +kernel⟩,
   ⟨hostMod (chip 5) (fun y => { y with winaddr := 9 }), by decide +kernel⟩,
   ⟨hostMod (chip 5) (fun y => { y with winaddr := 6 }), by decide +kernel⟩,
   ⟨hostMod (withPort (chip 5) 0 0x30004 PortSt.reset) (fun y => { y with winaddr := 6 }), by decide +kernel⟩⟩

theorem wit_HostHalvesAreStaged : ∃ s : State, s.host.waitLow = false ∧ s.calm ∧ winHigh s = false ∧
    ∀ i ∈ [0x0F, 0x11, 0x0A, 0x08, 0x09, 0x1E], hostGate s i = .serve :=
  ⟨chip 5, rfl, calm_chip 5, by decide +kernel⟩

theorem wit_RowsOfOneAccessAgree : ∃ (s : State) (n : Fin 64) (net : Net) (p : Pkt), winB s = n.val ∧ winI s = 0 ∧ winHigh s = true ∧
    rxHead s nodeSys net = some p ∧ opOf p.cmd = .write 1 ∧ p.data.length = 1 ∧ flatWord (byteAddr p.addr) = some (.bank n.val 0) :=
  ⟨hostWrites (fabWrites (chip 5) 0x43000 0x00030004 0xF) 3 0 4, 3, .req, request nodeSys 0x06 (.write 1) 3 0x43000 [oneWord 0x00030004 0xF],
   by decide +kernel⟩

/-! ### Power, domains and test access -/

theorem alone_port (c : Byte) (n m : Nat) (w : Word) (p : PortSt) (h : p.intake = [] ∧ p.front = none ∧ p.captured = none ∧ p.pool.tags = [] ∧
    p.replay = none ∧ p.fences = [] ∧ (∀ r, p.tgt = some r → r.pkt.dnode = portNode n ∧ r.pkt.hasAddr = true ∧ r.pkt.addrBad = false))
    (hp : portGet (withPort (chip c) m w p) n = p) : portAlone (withPort (chip c) m w p) n := by
  unfold portAlone
  rw [hp]
  exact ⟨h.1, h.2.1, h.2.2.1, by rw [h.2.2.2.1]; intro e he; exact (List.not_mem_nil he).elim, h.2.2.2.2.1, h.2.2.2.2.2.1, fun net _ => rfl, h.2.2.2.2.2.2⟩

theorem alone_reset (c : Byte) (n : Nat) : portAlone (chip c) n :=
  ⟨rfl, rfl, rfl, fun e he => (List.not_mem_nil he).elim, rfl, rfl, fun _ _ => rfl, fun r hr => by cases hr⟩

theorem doms_reset : (chip 5).domsStill := by
  unfold State.domsStill
  decide +kernel

theorem calm_portSet {s : State} (h : s.calm) (n : Nat) (p : PortSt) : (portSet s n p).calm := h

def powered (s : State) (f : Power → Power) : State := { s with power := f s.power }

theorem wit_ResetPinHolds : ∃ s : State, s.power.mode ≠ .unpowered := ⟨chip 5, by decide⟩

theorem wit_StartUpFollows :
    (∃ s : State, s.power.rstLow = true ∧ s.tap.test = false) ∧ (∃ s : State, s.tap.test = true ∧ s.power.rstLow = false) ∧
    (∃ s : State, vcoreOn s = true) ∧ (∃ s : State, s.power.mode = .unpowered) ∧ (∃ s : State, s.sys.ringWait = true) ∧
    (∃ s : State, s.sys.ringAsk = true) :=
  ⟨⟨powered (chip 5) (fun p => { p with mode := .held, rstLow := true }), by decide⟩, ⟨{ chip 5 with tap := { Tap.reset with test := true } }, by decide⟩,
   ⟨chip 5, by decide⟩, ⟨powered (chip 5) (fun p => { p with mode := .unpowered }), by decide⟩,
   ⟨sysMod (chip 5) (fun y => { y with ringWait := true }), by decide⟩, ⟨sysMod (chip 5) (fun y => { y with ringAsk := true }), by decide⟩⟩

theorem wit_VaonLossTearsTheEntry :
    (∃ s : State, s.power.mode ≠ .unpowered ∧ s.jrn.staging = []) ∧
    (∃ s : State, s.power.mode ≠ .unpowered ∧ s.jrn.staging ≠ [] ∧ nvOn s = true ∧ s.power.hush = false ∧ s.power.nvWarn = false) :=
  ⟨⟨chip 5, by decide⟩, ⟨jHw (chip 5) kHARDWARE 0 0 false, by decide +kernel⟩⟩

theorem wit_TestInstructionsHold : ∀ b ∈ [true, false], ∃ s : State, s.power.mode ≠ .unpowered ∧ s.tap.test = b :=
  fun b _ => ⟨{ chip 5 with tap := { Tap.reset with test := b } }, by cases b <;> decide⟩

theorem wit_OtherTapInstructionsDoNot : ∃ s : State, s.power.mode ≠ .unpowered ∧ s.tap.test = false := ⟨chip 5, by decide⟩

theorem wit_SupplyPinsAreLatched :
    (∃ (s : State) (status : Half), s.power.mode ≠ .unpowered ∧ s.power.alertLow = false ∧ status &&& 0xE8FE = 0) ∧
    (∃ (s : State) (status : Half), s.power.mode ≠ .unpowered ∧ s.power.alertLow = false ∧ status &&& 0xE8FE ≠ 0 ∧ FaultPlain s srcCHIP fREGLINK) ∧
    (∃ s : State, s.power.mode ≠ .unpowered ∧ s.calm) ∧
    (∃ (s : State) (vcore vaon : Bool), s.power.mode ≠ .unpowered ∧ vcore = true ∧ vaon = false ∧ vcoreOn s = true) ∧
    (∃ (s : State) (vaon : Bool), s.power.mode ≠ .unpowered ∧ vaon = true ∧ vcoreOn s = false) :=
  ⟨⟨chip 5, 0x1000, by decide⟩, ⟨chip 5, 0x8000, by decide, rfl, by decide, by decide +kernel, by decide +kernel, .inl (by decide)⟩,
   ⟨chip 5, by decide, calm_chip 5⟩, ⟨chip 5, true, false, by decide⟩, ⟨powered (chip 5) (fun p => { p with mode := .deep }), true, by decide⟩⟩

theorem wit_HushEndIsJournaled : ∃ s : State, s.calm ∧ s.domsStill ∧ gatesEmpty s ∧ sysOn s = true ∧ nvOn s = true ∧ hwRoom s = true ∧
    s.power.hush = true ∧ s.power.seen = false :=
  ⟨powered (chip 5) (fun p => { p with hush := true }), calm_chip 5, doms_reset, gates_reset 5, rfl, rfl, by decide +kernel, rfl, rfl⟩

/-- Port 5 on and performing the write above. -/
def performing : PortSt := { PortSt.reset with tgt := some { pkt := writeReq, net := .req, stat := .ok, words := [], wrote := [] } }

theorem wit_DyingPorts :
    (∃ (s : State) (n : Fin 64), s.calm ∧ (portGet s n.val).dead = false ∧ portAlone s n.val ∧ (domGet s n.val).st = .on ∧
      FaultPlain s n.val fCLKSTOP) ∧
    (∃ (s : State) (n : Fin 64), s.calm ∧ (portGet s n.val).dead = false ∧ portAlone s n.val ∧ (portGet s n.val).tgt ≠ none ∧
      FaultPlain s n.val fRESPTO) ∧
    (∃ (s : State) (n : Fin 64) (k : Fin 8), s.calm ∧ (portGet s n.val).dead = false ∧ portAlone s n.val ∧ vioBank n.val = k.val ∧
      vioIsLow s k.val = false ∧ (domGet s n.val).st ≠ .off ∧
      (∀ m, m < 64 → m ≠ n.val → vioBank m = k.val → (domGet s m).st = .off ∨ (portGet s m).dead = true) ∧ FaultPlain s n.val fVIOLOW) :=
  ⟨⟨withPort (chip 5) 5 0x50004 PortSt.reset, 5, calm_chip 5, by decide +kernel,
    alone_port 5 5 5 _ _ ⟨rfl, rfl, rfl, rfl, rfl, rfl, fun r hr => by cases hr⟩ (by decide +kernel), by decide +kernel,
    by decide +kernel, by decide +kernel, .inl (by decide)⟩,
   ⟨withPort (chip 5) 5 0x50004 performing, 5, calm_chip 5, by decide +kernel,
    alone_port 5 5 5 _ _ ⟨rfl, rfl, rfl, rfl, rfl, rfl, fun r hr => by cases hr; decide⟩ (by decide +kernel), by decide +kernel,
    by decide +kernel, by decide +kernel, .inl (by decide)⟩,
   ⟨withPort (chip 5) 5 0x50004 PortSt.reset, 5, 0, calm_chip 5, by decide +kernel,
    alone_port 5 5 5 _ _ ⟨rfl, rfl, rfl, rfl, rfl, rfl, fun r hr => by cases hr⟩ (by decide +kernel), by decide +kernel, by decide +kernel,
    by decide +kernel, by decide +kernel, by decide +kernel, by decide +kernel, .inl (by decide)⟩⟩

theorem wit_IsolateKillsThePort : ∃ (s : State) (n : Fin 64) (by_ : By) (raw : Word) (be : BitVec 4), s.calm ∧ nvOn s = true ∧ jRoom s = true ∧
    s.jrn.staging.length < 71 ∧ (portGet s n.val).dead = false ∧ portAlone s n.val ∧ (portGet s n.val).tgt = none ∧
    (faultdb s).getLsbD 18 = false ∧ raw.getLsbD 0 = true ∧ be.getLsbD 0 = true ∧ Writes s 0x25 (.iso n.val) raw be by_ ∧
    holdsRight s (askOrigin s by_) rISOLATE = true :=
  ⟨chip 5, 3, .host 0x43, 1, 0xF, calm_chip 5, rfl, by decide +kernel, by decide +kernel, rfl, alone_reset 5 3, rfl, by decide +kernel, by decide, by decide,
   host_writes (by decide +kernel), by decide +kernel⟩

/-- Domain 5 in state x. -/
def domAt (x : Dom) : State := domSet (chip 5) 5 x

theorem fence_domAt (x : Dom) (n : Nat) (h : n < 64) : fenceEmpty (domAt x) n := by
  unfold fenceEmpty
  rw [if_pos h]
  exact ⟨rfl, rfl, rfl⟩

theorem wit_DomainTimersExpire :
    (∃ (s : State) (d : Fin 64), s.calm ∧ hwRoom s = true ∧ (domGet s d.val).hold = true ∧ (domGet s d.val).st = .on ∧
      wantedOn (domSet s d.val { domGet s d.val with hold := false }) d.val = false ∧ fenceEmpty s d.val) ∧
    (∃ (s : State) (d : Fin 64), s.calm ∧ hwRoom s = true ∧ (domGet s d.val).holdOff = true ∧ (domGet s d.val).st = .hemming) ∧
    (∃ (s : State) (d : Fin 64), s.calm ∧ hwRoom s = true ∧ (portGet s d.val).quiet = true ∧ (domGet s d.val).st = .off) :=
  ⟨⟨domAt { Dom.resetPort with st := .on, hold := true, voted := true }, 5, calm_chip 5, by decide +kernel, by decide +kernel, by decide +kernel,
    by decide +kernel, fence_domAt { Dom.resetPort with st := .on, hold := true, voted := true } _ (by decide)⟩,
   ⟨domAt { Dom.resetPort with st := .hemming, holdOff := true }, 5, calm_chip 5, by decide +kernel⟩,
   ⟨portSet (chip 5) 5 { PortSt.reset with quiet := true }, 5, calm_portSet (calm_chip 5) _ _, by decide +kernel⟩⟩

theorem wit_DomcmdIsWritten :
    (∃ (s : State) (d : Fin 68) (by_ : By) (raw v : Word) (be : BitVec 4), s.calm ∧ nvOn s = true ∧ jRoom s = true ∧ s.jrn.staging.length < 71 ∧
      v = mergeWord [fRW 7 rPOWER] ((domcmdWord s d.val).setWidth 32) raw be ∧ Writes s 0x15 (.domcmd d.val) raw be by_ ∧
      holdsRight s (askOrigin s by_) rPOWER = true ∧ be.getLsbD 0 = true ∧
      reservedCode s (.domcmd d.val) ((domcmdWord s d.val).setWidth 32) v = false ∧ fieldNat v 0 2 = 1 ∧ (domGet s d.val).st = .off) ∧
    (∃ (s : State) (d : Fin 68) (by_ : By) (raw v : Word) (be : BitVec 4), s.calm ∧ nvOn s = true ∧ jRoom s = true ∧ s.jrn.staging.length < 71 ∧
      v = mergeWord [fRW 7 rPOWER] ((domcmdWord s d.val).setWidth 32) raw be ∧ Writes s 0x15 (.domcmd d.val) raw be by_ ∧
      holdsRight s (askOrigin s by_) rPOWER = true ∧ be.getLsbD 0 = true ∧
      reservedCode s (.domcmd d.val) ((domcmdWord s d.val).setWidth 32) v = false ∧ fieldNat v 0 2 = 2 ∧ (domGet s d.val).st = .on ∧
      fenceEmpty s d.val) :=
  ⟨⟨hostMod (chip 5) (fun y => { y with domsel := 5 }), 5, .host 5, 5, _, 0xF, calm_chip 5, rfl, by decide +kernel, by decide +kernel, rfl,
    host_writes (by decide +kernel), by decide +kernel⟩,
   ⟨hostMod (domAt { Dom.resetPort with st := .on, cmdOn := true }) (fun y => { y with domsel := 5 }), 5, .host 6, 6, _, 0xF, calm_chip 5, rfl,
    by decide +kernel, by decide +kernel, rfl, host_writes (by decide +kernel), by decide +kernel, by decide +kernel, by decide +kernel,
    by decide +kernel, by decide +kernel, fence_domAt { Dom.resetPort with st := .on, cmdOn := true } _ (by decide)⟩⟩

/-- A write of 1 to vote word of domain 5 by client 3, who holds VOTE. -/
def votePkt : Pkt := request nodeSys 0x06 (.write 1) 3 0x185 [oneWord 1 0xF]
def voting : State := waiting (cfgSet (chip 5) 0x80 3 0xFF) nodeSys .req votePkt

theorem wit_VotesAreCast :
    (∃ (s : State) (d : Fin 64) (net : Net) (raw : Word) (be : BitVec 4) (chip cid : Byte) (node : BitVec 7), s.calm ∧ nvOn s = true ∧ jRoom s = true ∧
      s.jrn.staging.length < 71 ∧ Writes s 0 (.vote d.val) raw be (.fabric net) ∧ be.getLsbD 0 = true ∧
      askOrigin s (.fabric net) = .fab chip node cid ∧ node.getLsbD 0 = false ∧ holdsRight s (.fab chip node cid) rVOTE = true ∧
      pacing s d.val cid.toNat = false ∧ stallGet s cid.toNat = none ∧ (domGet s d.val).st = .off) ∧
    (∃ (s : State) (d : Fin 64), s.calm ∧ nvOn s = true ∧ jRoom s = true ∧ s.jrn.staging.length < 71 ∧ s.host.waitLow = false ∧
      hostGate s 0x18 = .serve ∧ s.host.domsel.toNat = d.val ∧ s.host.votesel.toNat = 256 ∧ pacing s d.val 256 = false ∧ stallGet s 256 = none ∧
      (domGet s d.val).st = .off) ∧
    (∃ (s : State) (d : Fin 64), s.calm ∧ nvOn s = true ∧ jRoom s = true ∧ s.jrn.staging.length < 71 ∧ s.host.waitLow = false ∧
      hostGate s 0x18 = .serve ∧ s.host.domsel.toNat = d.val ∧ s.host.votesel.toNat = 3 ∧ (domGet s d.val).st = .off) :=
  ⟨⟨voting, 5, .req, 1, 0xF, 5, 3, 0x06, calm_chip 5, rfl, by decide +kernel, by decide +kernel, fab_writes votePkt (oneWord 1 0xF) (by decide +kernel),
    by decide +kernel⟩,
   ⟨hostMod (chip 5) (fun y => { y with domsel := 5, votesel := 256 }), 5, calm_chip 5, rfl, by decide +kernel⟩,
   ⟨hostMod (chip 5) (fun y => { y with domsel := 5, votesel := 3 }), 5, calm_chip 5, rfl, by decide +kernel⟩⟩

theorem wit_VotePaceEnds : ∃ (s : State) (d : Fin 64) (v : Fin 257), s.calm ∧ pacing s d.val v.val = true ∧ s.sys.stalls = [] :=
  ⟨paceSet (chip 5) 5 3 true, 5, 3, calm_chip 5, by decide +kernel⟩

/-- A wake request of port 5's node at the SYS of s. -/
def wakePkt : Pkt := request nodeSys 0x06 (.write 1) 3 0x45 [oneWord 0x0A 0xF]

/-- What domain 5 looks like in each clause: dead port, voted, commanded, already on. -/
theorem wit_WakeRequestWakes : ∀ x ∈ [{ Dom.resetPort with st := .fault }, { Dom.resetPort with voted := true }, { Dom.resetPort with voted := false, cmdOn := false },
      { Dom.resetPort with st := .on }],
    ∃ (s : State) (d : Fin 64) (net : Net) (raw : Word) (be : BitVec 4), s.calm ∧ nvOn s = true ∧ jRoom s = true ∧ s.jrn.staging.length < 71 ∧
      Writes s 0 .wakeReq raw be (.fabric net) ∧ raw.extractLsb' 0 7 = portNode d.val ∧ domGet s d.val = x ∧ (portGet s d.val).dead = false ∧
      x.hold = false := by
  intro x hx
  refine ⟨waiting (domAt x) nodeSys .req wakePkt, 5, .req, 0x0A, 0xF, calm_chip 5, ?_, ?_, ?_,
    fab_writes wakePkt (oneWord 0x0A 0xF) ?_, ?_, ?_⟩ <;>
  · simp only [List.mem_cons, List.not_mem_nil, or_false] at hx
    rcases hx with rfl | rfl | rfl | rfl <;> decide +kernel

theorem wit_HemmingEnds :
    (∃ (s : State) (d : Fin 68), s.calm ∧ nvOn s = true ∧ s.jrn.staging.length < 69 ∧ d.val < 64 ∧ (domGet s d.val).st = .hemming ∧
      (domGet s d.val).hem = .drain ∧ portDrained s d.val = true) ∧
    (∃ (s : State) (d : Fin 68), s.calm ∧ nvOn s = true ∧ s.jrn.staging.length < 69 ∧ d.val = 65 ∧ (domGet s d.val).st = .hemming ∧
      (domGet s d.val).hem = .drain ∧ seamHeld s = 0) ∧
    (∃ (s : State) (d : Fin 68), s.calm ∧ nvOn s = true ∧ s.jrn.staging.length < 69 ∧ d.val < 64 ∧ (domGet s d.val).st = .hemming ∧
      (domGet s d.val).hem = .drain ∧ portAlone s d.val ∧ (portGet s d.val).wsend = [] ∧ (portGet s d.val).wheld = [] ∧
      (faultdb s).getLsbD 18 = false) :=
  ⟨⟨domAt { Dom.resetPort with st := .hemming, hem := .drain }, 5, calm_chip 5, by decide +kernel⟩,
   ⟨domSet (chip 5) 65 { domGet (chip 5) 65 with st := .hemming, hem := .drain }, 65, calm_chip 5, by decide +kernel⟩,
   ⟨domAt { Dom.resetPort with st := .hemming, hem := .drain }, 5, calm_chip 5, rfl, by decide +kernel, by decide, by decide +kernel, by decide +kernel,
    alone_reset 5 5, rfl, rfl, by decide +kernel⟩⟩

theorem awake_chip (c : Byte) : (chip c).awake := ⟨rfl, rfl, rfl, rfl, rfl⟩

theorem wit_PstateIsWritten :
    (∃ (s : State) (by_ : By) (raw : Word) (be : BitVec 4), s.awake ∧ nvOn s = true ∧ jRoom s = true ∧ Writes s 0x13 (.reg 0x13) raw be by_ ∧
      holdsRight s (askOrigin s by_) rPOWER = true ∧ be.getLsbD 0 = true ∧ 2 ≤ (raw.extractLsb' 0 3).toNat ∧ (raw.extractLsb' 0 3).toNat < 6 ∧
      s.power.hush = false ∧ s.power.req = none ∧ raw.extractLsb' 0 3 ≠ s.power.lvl) ∧
    (∃ (s : State) (by_ : By) (raw : Word) (be : BitVec 4), s.awake ∧ nvOn s = true ∧ jRoom s = true ∧ Writes s 0x13 (.reg 0x13) raw be by_ ∧
      holdsRight s (askOrigin s by_) rPOWER = true ∧ be.getLsbD 0 = true ∧ (raw.extractLsb' 0 3).toNat < 2 ∧ s.power.hush = false ∧
      s.power.req = none ∧ s.power.movedJ = false ∧ (∀ d, d < 66 → d ≠ 64 → (domGet s d).st = .off ∨ (domGet s d).st = .fault) ∧
      s.jrn.staging.length < 68) :=
  ⟨⟨chip 5, .host 2, 2, 0xF, awake_chip 5, rfl, by decide +kernel, host_writes (by decide +kernel), by decide +kernel⟩,
   ⟨domSet (chip 5) 65 { domGet (chip 5) 65 with st := .off }, .host 1, 1, 0xF, awake_chip 5, rfl, by decide +kernel, host_writes (by decide +kernel),
    by decide +kernel⟩⟩

theorem wit_VoltageRequestIsPolled :
    (∃ (s : State) (q : VReq) (ack : Bool), s.power.req = some q ∧ ack = false) ∧
    (∃ (s : State) (q : VReq) (c : BitVec 3) (why : LadderWhy) (r : BitVec 2) (status : Half), s.power.req = some q ∧ s.power.pgoodRun = true ∧
      status &&& 0xE8FE = 0 ∧ q = .ladder c ∧ s.power.mode = .ladder why r) ∧
    (∃ (s : State) (q : VReq) (old new : BitVec 3) (status : Half), s.power.req = some q ∧ s.power.pgoodRun = true ∧ status &&& 0xE8FE = 0 ∧
      q = .move old new ∧ s.awake ∧ s.power.code = new ∧ 2 ≤ new.toNat ∧ hwRoom s = true) :=
  ⟨⟨powered (chip 5) (fun p => { p with req := some (.move 4 2) }), .move 4 2, false, rfl, rfl⟩,
   ⟨powered (chip 5) (fun p => { p with req := some (.ladder 4), mode := .ladder .leaveTack 0, pgoodRun := true }), .ladder 4, 4, .leaveTack, 0, 0,
    by decide +kernel⟩,
   ⟨powered (chip 5) (fun p => { p with req := some (.move 4 2), code := 2, pgoodRun := true }), .move 4 2, 4, 2, 0, rfl, rfl, by decide, rfl,
    awake_chip 5, rfl, by decide, by decide +kernel⟩⟩

theorem wit_VoltageRequestTimesOut :
    (∃ (s : State) (q : VReq), s.power.req = some q ∧ s.power.second = false) ∧
    (∃ (s : State) (q : VReq) (old new : BitVec 3), s.power.req = some q ∧ q = .move old new ∧ s.power.second = true ∧ s.awake ∧
      2 ≤ s.power.lvl.toNat ∧ nvOn s = true ∧ s.jrn.staging.length < 68 ∧ FaultPlain s srcCHIP fREGLINK) ∧
    (∃ (s : State) (q : VReq) (c : BitVec 3) (why : LadderWhy) (r : BitVec 2), s.power.req = some q ∧ q = .ladder c ∧ s.power.mode = .ladder why r ∧
      why ≠ .patrol ∧ s.power.second = true ∧ s.power.moving = none ∧ s.time.patrol = none ∧ s.sys.portRst = none ∧ s.sys.held = [] ∧
      FaultPlain s srcCHIP fREGRUNG) :=
  ⟨⟨powered (chip 5) (fun p => { p with req := some (.move 4 2) }), .move 4 2, by decide⟩,
   ⟨powered (chip 5) (fun p => { p with req := some (.move 4 2), second := true }), .move 4 2, 4, 2, rfl, rfl, rfl, awake_chip 5, by decide, rfl,
    by decide +kernel, by decide +kernel, by decide +kernel, .inl (by decide)⟩,
   ⟨powered (chip 5) (fun p => { p with req := some (.ladder 4), second := true, mode := .ladder .leaveTack 0 }), .ladder 4, 4, .leaveTack, 0, rfl, rfl, rfl,
    by decide, rfl, rfl, rfl, rfl, rfl, by decide +kernel, by decide +kernel, .inl (by decide)⟩⟩

theorem wit_RungsAreClimbed :
    (∃ (s : State) (why : LadderWhy), s.power.hush = false ∧ s.power.mode = .ladder why 1) ∧
    (∃ (s : State) (d : Fin 68) (r : BitVec 2), s.power.hush = false ∧ (domGet s d.val).st = .waking ∧ (domGet s d.val).rest = false ∧
      nextRung d.val (domGet s d.val).rung = some r) ∧
    (∃ (s : State) (d : Fin 68), s.power.hush = false ∧ (domGet s d.val).st = .waking ∧ (domGet s d.val).rest = true) :=
  ⟨⟨powered (chip 5) (fun p => { p with mode := .ladder .leaveTack 1 }), .leaveTack, by decide⟩,
   ⟨domAt { Dom.resetPort with st := .waking }, 5, 1, by decide +kernel⟩,
   ⟨domAt { Dom.resetPort with st := .waking, rest := true }, 5, by decide +kernel⟩⟩

theorem wit_PortReachesOn : ∃ (s : State) (d : Fin 68), d.val < 64 ∧ s.calm ∧ nvOn s = true ∧ s.jrn.staging.length < 68 ∧
    vioIsLow s (vioBank d.val) = false ∧ (domGet s d.val).st = .waking ∧ (domGet s d.val).rest = false ∧ (domGet s d.val).rung = 3 :=
  ⟨domAt { Dom.resetPort with st := .waking, rung := 3 }, 5, by decide, calm_chip 5, by decide +kernel⟩

theorem wit_MeshComesUpFresh : ∃ (s : State) (why : LadderWhy), s.power.mode = .core why ∧ sysOn s = false ∧ s.power.moving = none ∧
    s.time.patrol = none ∧ s.sys.portRst = none ∧ s.sys.held = [] ∧ (domGet s 64).st = .waking ∧ (domGet s 64).rest = false ∧
    (domGet s 64).rung = 3 :=
  ⟨domSet (domSet (powered (chip 5) (fun p => { p with mode := .core .leaveTack })) 66 { domGet (chip 5) 66 with st := .waking })
    64 { domGet (chip 5) 64 with st := .waking, rung := 3 }, .leaveTack, by decide +kernel⟩

theorem wit_RungFailures :
    (∃ (s : State) (why : LadderWhy), s.power.mode = .ladder why 1 ∧ s.power.hush = false ∧ s.time.patrol = none ∧ nvOn s = true ∧
      s.jrn.staging.length < 68 ∧ FaultPlain s srcCHIP fOSCRUNG) ∧
    (∃ (s : State) (d : Fin 68), (domGet s d.val).st = .waking ∧ (domGet s d.val).rest = false ∧ (domGet s d.val).retried = false ∧
      (domGet s d.val).rung = 0) ∧
    (∃ (s : State) (d : Fin 68), (domGet s d.val).st = .waking ∧ (domGet s d.val).rest = false ∧ (domGet s d.val).retried = false ∧
      (domGet s d.val).rung ≠ 0 ∧ d.val = 64) ∧
    (∃ (s : State) (d : Fin 68), d.val < 64 ∧ s.calm ∧ (domGet s d.val).st = .waking ∧ (domGet s d.val).rest = false ∧
      (domGet s d.val).rung ≠ 0 ∧ (portGet s d.val).dead = false ∧ portAlone s d.val ∧ nvOn s = true ∧ s.jrn.staging.length < 68 ∧
      FaultPlain s d.val (rungFault (domGet s d.val).rung)) :=
  ⟨⟨powered (chip 5) (fun p => { p with mode := .ladder .leaveTack 1 }), .leaveTack, rfl, rfl, rfl, rfl, by decide +kernel, by decide +kernel, by decide +kernel,
    .inl (by decide)⟩,
   ⟨domAt { Dom.resetPort with st := .waking }, 5, by decide +kernel⟩,
   ⟨domSet (chip 5) 64 { domGet (chip 5) 64 with st := .waking, rung := 2 }, 64, by decide +kernel⟩,
   ⟨domAt { Dom.resetPort with st := .waking, rung := 1 }, 5, by decide, calm_chip 5, by decide +kernel, by decide +kernel, by decide +kernel, rfl,
    alone_reset 5 5, rfl, by decide +kernel, by decide +kernel, by decide +kernel, .inl (by decide +kernel)⟩⟩

theorem wit_LostLockIsLimp : ∃ s : State, s.calm ∧ s.power.limp = false ∧ nvOn s = true ∧ s.jrn.staging.length < 68 ∧
    FaultPlain s srcCHIP fPLLLOSS ∧ (∀ n, n < 64 → domOn s n = true → clkSynth s n = false) :=
  ⟨chip 5, calm_chip 5, rfl, rfl, by decide +kernel, ⟨by decide +kernel, by decide +kernel, .inl (by decide)⟩, by decide +kernel⟩

/-! ### Time, tacking and the journal -/

theorem wit_RtcIsSet :
    (∃ s : State, s.calm ∧ nvOn s = true ∧ jRoom s = true ∧ s.jrn.staging.length < 68 ∧ s.host.waitLow = false ∧ hostGate s 0x10 = .serve) ∧
    (∃ (s : State) (net : Net) (raw : Word) (be : BitVec 4), s.calm ∧ nvOn s = true ∧ jRoom s = true ∧ s.jrn.staging.length < 68 ∧
      Writes s 0 .rtcSecs raw be (.fabric net) ∧ holdsRight s (askOrigin s (.fabric net)) rAUTHORITY = true) :=
  ⟨⟨chip 5, calm_chip 5, by decide +kernel⟩,
   ⟨fabWrites (cfgSet (chip 5) 0x80 3 0xFF) 0x42 77 0xF, .req, 77, 0xF, calm_chip 5, rfl, by decide +kernel, by decide +kernel,
    fab_writes (request nodeSys 0x06 (.write 1) 3 0x42 [oneWord 77 0xF]) (oneWord 77 0xF) (by decide +kernel), by decide +kernel⟩⟩

theorem wit_AlarmIsSet :
    (∃ s : State, s.calm ∧ nvOn s = true ∧ jRoom s = true ∧ s.jrn.staging.length < 68 ∧ s.power.cur ≠ 1 ∧ s.host.waitLow = false ∧
      hostGate s 0x12 = .serve ∧ sysOn s = true) ∧
    (∃ (s : State) (net : Net) (raw : Word) (be : BitVec 4), s.calm ∧ nvOn s = true ∧ jRoom s = true ∧ s.jrn.staging.length < 68 ∧ s.power.cur ≠ 1 ∧
      Writes s 0 .alarmSecs raw be (.fabric net) ∧ holdsRight s (askOrigin s (.fabric net)) rPOWER = true) :=
  ⟨⟨chip 5, calm_chip 5, by decide +kernel⟩,
   ⟨fabWrites (cfgSet (chip 5) 0x80 3 0xFF) 0x44 77 0xF, .req, 77, 0xF, calm_chip 5, rfl, by decide +kernel, by decide +kernel, by decide,
    fab_writes (request nodeSys 0x06 (.write 1) 3 0x44 [oneWord 77 0xF]) (oneWord 77 0xF) (by decide +kernel), by decide +kernel⟩⟩

theorem wit_RtcSteps :
    (∃ s : State, s.calm ∧ s.time.armed = false ∧ s.time.rtcFr ≠ 1023) ∧
    (∃ s : State, s.calm ∧ ¬ (s.time.alSec ++ s.time.alFr ≤ (rtcAdvance s.time).rtcSec ++ (rtcAdvance s.time).rtcFr) ∧ s.time.rtcFr = 1023 ∧
      s.time.rtcSec + 1 ≠ 0 ∧ (s.time.rtcSec + 1).toNat % 3600 = 0 ∧ nvOn s = true ∧ hwRoom s = true) :=
  ⟨⟨chip 5, calm_chip 5, by decide +kernel⟩,
   ⟨timeMod (chip 5) (fun m => { m with rtcSec := 3599, rtcFr := 1023, alSec := 5000, armed := true }), calm_chip 5, by decide +kernel⟩⟩

theorem wit_StoppedRtcIsAFault : ∃ s : State, tsRuns s = true ∧ s.time.rtcHalt = false ∧ FaultPlain s srcCHIP fRTCSTOP :=
  ⟨chip 5, by decide +kernel, rfl, by decide +kernel, by decide +kernel, .inl (by decide)⟩

theorem wit_PatrolStarts : ∃ s : State, s.power.mode = .tacking ∧ s.time.due = true ∧ s.power.hush = false :=
  ⟨timeMod (powered (chip 5) (fun p => { p with mode := .tacking })) (fun m => { m with due := true }), by decide⟩

/-- A hush in a patrol whose step k has read d with status st; the ACTION of step 1 is to go on, that of its test TEST. -/
def patrolled (st : Status) (d : Word) (test : Word) : State :=
  timeMod (powered (cfgSet (cfgSet (chip 5) 0x83 0x19 test) 0x83 0x1A 0xFF) (fun p => { p with hush := true })) (fun m =>
    { m with patrol := some (.reading 1), tackRes := some (st, d), lastStep := 3 })

theorem wit_PatrolReadIsTested :
    (∃ (s : State) (k : Nat) (st : Status) (d : Word), s.time.patrol = some (.reading k) ∧ s.time.tackRes = some (st, d) ∧
      k < s.time.lastStep.toNat ∧ s.power.hush = true ∧ s.power.moving = none ∧ s.sys.portRst = none ∧ s.sys.held = [] ∧ st ≠ .ok) ∧
    (∀ b ∈ [true, false], ∃ (s : State) (k : Nat) (d : Word), s.time.patrol = some (.reading k) ∧ s.time.tackRes = some (.ok, d) ∧
      k < s.time.lastStep.toNat ∧ s.power.hush = true ∧ s.power.moving = none ∧ s.sys.portRst = none ∧ s.sys.held = [] ∧
      tackMatch (fieldNat (tdest s k) 16 3) d (cfgGet s 0x83 (0x12 + 8 * k)) (cfgGet s 0x83 (0x13 + 8 * k)) (tget (fun _ => 0) s.time.lastv k)
        (s.time.lvalid.getLsbD k) = b ∧ fieldNat (tact s k) 0 2 = 0) := by
  refine ⟨⟨patrolled .timeout 0 0, 1, .timeout, 0, by decide +kernel⟩, fun b _ => ?_⟩
  cases b
  · exact ⟨patrolled .ok 7 0, 1, 7, by decide +kernel⟩
  · exact ⟨patrolled .ok 7 0x10000, 1, 7, by decide +kernel⟩

theorem wit_StagedEntryIsWritten : ∃ (s : State) (e : Entry) (rest : List Entry), nvOn s = true ∧ s.power.hush = false ∧ s.power.nvWarn = false ∧
    s.jrn.staging = e :: rest ∧ s.calm ∧ s.sys.stalls = [] ∧ s.sys.stitch = none ∧ s.jrn.waiting = [] :=
  ⟨stage (chip 5) (mkEntry (chip 5) kHARDWARE 5 0 0 0 false false), mkEntry (chip 5) kHARDWARE 5 0 0 0 false false, [], rfl, rfl, rfl,
   by decide +kernel, calm_chip 5, rfl, rfl, rfl⟩

/-! ### Bobbins, basting, the directory and resets -/

/-- Bobbin 2 of chip 5 with BCFG w and contents x, and a request of port 3 for its word i waiting at BOB; client 3 holds every right. -/
def bobbin (w : Word) (x : Bobbin) (net : Net) (p : Pkt) : State :=
  waiting (cfgSet (cfgSet (bobSet (chip 5) 2 x) 0x87 2 w) 0x80 3 0xFF) nodeBob net p

def bobWrite (i : BitVec 30) (d : Word) : Pkt := request nodeBob 0x06 (.write 1) 3 (128 + i) [oneWord d 0xF]
def lockReadPkt (snode : BitVec 7) : Pkt := request nodeBob snode (.read 1) 3 128 []
def locked : Bobbin := { Bobbin.reset with lock := some { schip := 5, snode := 0x06, cid := 3 } }
def started (n : Nat) : Bobbin :=
  { locked with asm := some { schip := 5, cid := 3, lenM1 := 1, dbbit := 0, stag := 9, words := List.replicate n 0 } }
def heavy : Bobbin := { locked with msgs := List.replicate 4 { lenM1 := 7, seq := 0, stag := 0, scid := 3, schip := 5, words := List.replicate 8 0 } }

theorem bob_asks {s : State} {net : Net} {p : Pkt} (h : sysOn s = true ∧ net ≠ .rsp ∧ rxHead s nodeBob net = some p ∧ p.dnode = nodeBob ∧
    reqCheck p = .perform ∧ byteAddr p.addr < 16384 ∧ bEnable (bcfg s (bobOf p.addr)) = true ∧ holdsRight s (fabOrigin p) rBOBBIN = true) :
    BobAsks s net p := h

theorem bob_writes {s : State} {net : Net} {p : Pkt} {w : Nat} {d : Word} (u : DataUnit)
    (h : (sysOn s = true ∧ net ≠ .rsp ∧ rxHead s nodeBob net = some p ∧ p.dnode = nodeBob ∧
      reqCheck p = .perform ∧ byteAddr p.addr < 16384 ∧ bEnable (bcfg s (bobOf p.addr)) = true ∧ holdsRight s (fabOrigin p) rBOBBIN = true) ∧
      opOf p.cmd = .write 1 ∧ bobWordIx p.addr 0 = w ∧ p.data = [u] ∧ u.be ≠ 0 ∧ d = u.data &&& laneMask u.be) : BobWrites s net p w d :=
  ⟨h.1, h.2.1, h.2.2.1, u, h.2.2.2⟩

theorem wit_LockIsReadAndReleased :
    (∃ (s : State) (p : Pkt), s.calm ∧ BobAsks s .req p ∧ opOf p.cmd = .read 1 ∧ bobWordIx p.addr 0 = 0 ∧ p.data = [] ∧
      p.snode.getLsbD 0 = false ∧ (bobGet s (bobOf p.addr)).lock = none) ∧
    (∃ (s : State) (p : Pkt), s.calm ∧ BobAsks s .req p ∧ opOf p.cmd = .read 1 ∧ bobWordIx p.addr 0 = 0 ∧ p.data = [] ∧
      p.snode.getLsbD 0 = true ∧ (bobGet s (bobOf p.addr)).lock = none) ∧
    (∃ (s : State) (p : Pkt) (l : Lock), s.calm ∧ BobAsks s .req p ∧ opOf p.cmd = .read 1 ∧ bobWordIx p.addr 0 = 0 ∧ p.data = [] ∧
      (bobGet s (bobOf p.addr)).lock = some l) ∧
    (∃ (s : State) (p : Pkt) (net : Net), s.calm ∧ BobWrites s net p 0 0 ∧ bobHolds s (bobOf p.addr) p = true) :=
  ⟨⟨bobbin 0x0105 Bobbin.reset .req (lockReadPkt 6), lockReadPkt 6, calm_chip 5, bob_asks (by decide +kernel), by decide +kernel⟩,
   ⟨bobbin 0x0105 Bobbin.reset .req (lockReadPkt 1), lockReadPkt 1, calm_chip 5, bob_asks (by decide +kernel), by decide +kernel⟩,
   ⟨bobbin 0x0105 locked .req (lockReadPkt 6), lockReadPkt 6, { schip := 5, snode := 0x06, cid := 3 }, calm_chip 5, bob_asks (by decide +kernel),
    by decide +kernel⟩,
   ⟨bobbin 0x0105 locked .req (bobWrite 0 0), bobWrite 0 0, .req, calm_chip 5, bob_writes (oneWord 0 0xF) (by decide +kernel), by decide +kernel⟩⟩

/-- The sender's clauses: TXSTART that fits, that does not fit a locked bobbin, that overwrites the oldest message; TXDATA with no assembly,
in the middle of a message, and at its last word. -/
theorem wit_MessagesAreSent :
    (∃ (s : State) (p : Pkt) (net : Net) (d : Word), s.calm ∧ BobWrites s net p 0x0F d ∧ bOverwrite (bcfg s (bobOf p.addr)) = false ∧
      bobHolds s (bobOf p.addr) p = true ∧ (d.extractLsb' 0 3).toNat + 1 ≤ bobFreeW (bobGet s (bobOf p.addr)) ∧
      (bobGet s (bobOf p.addr)).msgs.length < 32) ∧
    (∃ (s : State) (p : Pkt) (net : Net) (d : Word), s.calm ∧ BobWrites s net p 0x0F d ∧ bOverwrite (bcfg s (bobOf p.addr)) = false ∧
      bobHolds s (bobOf p.addr) p = true ∧ (bobGet s (bobOf p.addr)).asm = none ∧
      ¬ (d.extractLsb' 0 3).toNat + 1 ≤ bobFreeW (bobGet s (bobOf p.addr))) ∧
    (∃ (s : State) (p : Pkt) (net : Net) (d : Word) (x : Bobbin), s.calm ∧ BobWrites s net p 0x0F d ∧ bOverwrite (bcfg s (bobOf p.addr)) = true ∧
      x = bobGet s (bobOf p.addr) ∧ x.asm = none ∧ (d.extractLsb' 0 3).toNat + 1 ≤ bobFreeW { x with msgs := x.msgs.drop 1 } ∧
      (x.msgs.drop 1).length < 32 ∧ (∀ j, j < 1 → ¬ (d.extractLsb' 0 3).toNat + 1 ≤ bobFreeW { x with msgs := x.msgs.drop j })) ∧
    (∃ (s : State) (p : Pkt) (net : Net) (d : Word) (w : Nat), s.calm ∧ 0x10 ≤ w ∧ w ≤ 0x17 ∧ BobWrites s net p w d ∧
      bobHolds s (bobOf p.addr) p = true ∧ (bobGet s (bobOf p.addr)).asm = none) ∧
    (∃ (s : State) (p : Pkt) (net : Net) (d : Word) (w : Nat) (a : Asm), s.calm ∧ 0x10 ≤ w ∧ w ≤ 0x17 ∧ BobWrites s net p w d ∧
      bobHolds s (bobOf p.addr) p = true ∧ (bobGet s (bobOf p.addr)).asm = some a ∧ a.schip = p.schip ∧ a.cid = p.cid ∧
      a.words.length < a.lenM1.toNat) ∧
    (∃ (s : State) (p : Pkt) (net : Net) (d : Word) (w : Nat) (a : Asm), s.calm ∧ 0x10 ≤ w ∧ w ≤ 0x17 ∧ BobWrites s net p w d ∧
      bobHolds s (bobOf p.addr) p = true ∧ (bobGet s (bobOf p.addr)).asm = some a ∧ a.schip = p.schip ∧ a.cid = p.cid ∧
      ¬ a.words.length < a.lenM1.toNat ∧ bWake (bcfg s (bobOf p.addr)) = false) :=
  ⟨⟨bobbin 0x0105 locked .req (bobWrite 0x0F 1), bobWrite 0x0F 1, .req, 1, calm_chip 5, bob_writes (oneWord 1 0xF) (by decide +kernel), by decide +kernel⟩,
   ⟨bobbin 0x0105 heavy .req (bobWrite 0x0F 1), bobWrite 0x0F 1, .req, 1, calm_chip 5, bob_writes (oneWord 1 0xF) (by decide +kernel), by decide +kernel⟩,
   ⟨bobbin 0x0145 heavy .req (bobWrite 0x0F 1), bobWrite 0x0F 1, .req, 1, heavy, calm_chip 5, bob_writes (oneWord 1 0xF) (by decide +kernel),
    by decide +kernel⟩,
   ⟨bobbin 0x0105 locked .req (bobWrite 0x10 1), bobWrite 0x10 1, .req, 1, 0x10, calm_chip 5, by decide, by decide,
    bob_writes (oneWord 1 0xF) (by decide +kernel), by decide +kernel⟩,
   ⟨bobbin 0x0105 (started 0) .dat (bobWrite 0x17 1), bobWrite 0x17 1, .dat, 1, 0x17, { schip := 5, cid := 3, lenM1 := 1, dbbit := 0, stag := 9, words := [] },
    calm_chip 5, by decide, by decide, bob_writes (oneWord 1 0xF) (by decide +kernel), by decide +kernel⟩,
   ⟨bobbin 0x0105 (started 1) .req (bobWrite 0x10 1), bobWrite 0x10 1, .req, 1, 0x10, { schip := 5, cid := 3, lenM1 := 1, dbbit := 0, stag := 9, words := [0] },
    calm_chip 5, by decide, by decide, bob_writes (oneWord 1 0xF) (by decide +kernel), by decide +kernel⟩⟩

theorem wit_OwnerServesItsBobbin :
    (∃ (s : State) (p : Pkt) (net : Net) (d : Word), s.calm ∧ BobWrites s net p 2 d ∧ bWake (bcfg s (bobOf p.addr)) = false) ∧
    (∀ w ∈ [1, 3, 5], ∃ (s : State) (p : Pkt) (net : Net) (d : Word), s.calm ∧ p.schip = s.chipnum ∧
      p.snode = portNode (bOwner (bcfg s (bobOf p.addr))) ∧ BobWrites s net p w d) ∧
    (∃ (s : State) (p : Pkt) (net : Net) (d : Word), s.calm ∧ p.schip = s.chipnum ∧ p.snode = portNode (bOwner (bcfg s (bobOf p.addr))) ∧
      BobWrites s net p 6 d ∧ d.getLsbD 0 = true ∧ nvOn s = true ∧ jRoom s = true) := by
  refine ⟨⟨bobbin 0x0105 locked .req (bobWrite 2 1), bobWrite 2 1, .req, 1, calm_chip 5, bob_writes (oneWord 1 0xF) (by decide +kernel), by decide +kernel⟩,
    fun w hw => ?_,
    ⟨bobbin 0x0103 locked .req (bobWrite 6 1), bobWrite 6 1, .req, 1, calm_chip 5, by decide +kernel, by decide +kernel,
      bob_writes (oneWord 1 0xF) (by decide +kernel), by decide +kernel⟩⟩
  refine ⟨bobbin 0x0103 locked .req (bobWrite (BitVec.ofNat 30 w) 1), bobWrite (BitVec.ofNat 30 w) 1, .req, 1, calm_chip 5, ?_⟩
  simp only [List.mem_cons, List.not_mem_nil, or_false] at hw
  rcases hw with rfl | rfl | rfl <;> exact ⟨by decide +kernel, by decide +kernel, bob_writes (oneWord 1 0xF) (by decide +kernel)⟩

theorem wit_OthersAreRefused :
    (∃ (s : State) (p : Pkt) (net : Net) (d : Word), s.calm ∧ BobWrites s net p 0 d ∧ d ≠ 0) ∧
    (∃ (s : State) (p : Pkt) (net : Net), s.calm ∧ BobWrites s net p 0 0 ∧ bobHolds s (bobOf p.addr) p = false) ∧
    (∀ w ∈ [1, 3, 5, 6], ∃ (s : State) (p : Pkt) (net : Net) (d : Word), s.calm ∧ BobWrites s net p w d ∧
      ¬(p.schip = s.chipnum ∧ p.snode = portNode (bOwner (bcfg s (bobOf p.addr))))) ∧
    (∀ w ∈ [0x0F, 0x10], ∃ (s : State) (p : Pkt) (net : Net) (d : Word), s.calm ∧ BobWrites s net p w d ∧
      bOverwrite (bcfg s (bobOf p.addr)) = false ∧ bobHolds s (bobOf p.addr) p = false) ∧
    (∃ (s : State) (p : Pkt) (net : Net) (d : Word) (a : Asm), s.calm ∧ BobWrites s net p 0x10 d ∧ bOverwrite (bcfg s (bobOf p.addr)) = true ∧
      (bobGet s (bobOf p.addr)).asm = some a ∧ ¬(a.schip = p.schip ∧ a.cid = p.cid)) := by
  refine ⟨⟨bobbin 0x0105 locked .req (bobWrite 0 1), bobWrite 0 1, .req, 1, calm_chip 5, bob_writes (oneWord 1 0xF) (by decide +kernel), by decide⟩,
    ⟨bobbin 0x0105 Bobbin.reset .req (bobWrite 0 0), bobWrite 0 0, .req, calm_chip 5, bob_writes (oneWord 0 0xF) (by decide +kernel), by decide +kernel⟩,
    fun w hw => ?_, fun w hw => ?_,
    ⟨bobbin 0x0145 { Bobbin.reset with asm := some { schip := 5, cid := 4, lenM1 := 1, dbbit := 0, stag := 9, words := [] } } .req (bobWrite 0x10 1),
      bobWrite 0x10 1, .req, 1, { schip := 5, cid := 4, lenM1 := 1, dbbit := 0, stag := 9, words := [] }, calm_chip 5,
      bob_writes (oneWord 1 0xF) (by decide +kernel), by decide +kernel⟩⟩
  · refine ⟨bobbin 0x0105 locked .req (bobWrite (BitVec.ofNat 30 w) 1), bobWrite (BitVec.ofNat 30 w) 1, .req, 1, calm_chip 5, ?_⟩
    simp only [List.mem_cons, List.not_mem_nil, or_false] at hw
    rcases hw with rfl | rfl | rfl | rfl <;> exact ⟨bob_writes (oneWord 1 0xF) (by decide +kernel), by decide +kernel⟩
  · refine ⟨bobbin 0x0105 Bobbin.reset .req (bobWrite (BitVec.ofNat 30 w) 1), bobWrite (BitVec.ofNat 30 w) 1, .req, 1, calm_chip 5, ?_⟩
    simp only [List.mem_cons, List.not_mem_nil, or_false] at hw
    rcases hw with rfl | rfl <;> exact ⟨bob_writes (oneWord 1 0xF) (by decide +kernel), by decide +kernel⟩

theorem wit_HostServesBobbins : ∀ hd ∈ [(0x0200 : Half), 0x0400], ∃ s : State, s.calm ∧ s.host.waitLow = false ∧
    bEnable (bcfg s s.host.bobsel.toNat) = true ∧ hostGate s 0x2E = .serve ∧ hostGate s 0x2F = .serve ∧ nvOn s = true ∧ jRoom s = true ∧
    hd.getLsbD 9 = decide (hd = 0x0200) ∧ (hd.getLsbD 9 = false → hd.getLsbD 10 = true) ∧ bWake (bcfg s s.host.bobsel.toNat) = false := by
  intro hd hh
  refine ⟨cfgSet (hostMod (chip 5) (fun y => { y with bobsel := 2 })) 0x87 2 0x0105, calm_chip 5, ?_⟩
  simp only [List.mem_cons, List.not_mem_nil, or_false] at hh
  rcases hh with rfl | rfl <;> decide +kernel

theorem wit_WordsAreBasted : ∃ (s : State) (b i : Nat) (by_ : By) (raw v : Word) (be : BitVec 4), s.calm ∧ Writes s 0x0A (.bank b i) raw be by_ ∧
    isBasted b i = true ∧ v = mergeWord (bankFields b i) (bastedOr s b i) raw be ∧
    (∀ k ∈ (bankFields b i).map (·.right), ∀ r, k = some r → holdsRight s (askOrigin s by_) r = true) ∧
    bankReserved s b i (bastedOr s b i) v = false ∧ ownsSet s (askOrigin s by_) = true ∧ s.sys.stitch = none ∧ setFull s b i = false :=
  ⟨hostWrites (chip 5) 3 0x12 5, 3, 0x12, .host 0x8009, 0x80090005, _, 0xF, calm_chip 5, host_writes (by decide +kernel), by decide, rfl,
   fun _ _ _ _ => rfl, by decide +kernel⟩

theorem wit_AbandonEmptiesTheSet : ∃ (s : State) (by_ : By) (raw : Word) (be : BitVec 4), s.calm ∧ Writes s 0x0A (.bank 0x88 0) raw be by_ ∧
    s.sys.stitch = none ∧ be.getLsbD 0 = true ∧ raw.extractLsb' 0 2 = 2 ∧ ownsSet s (askOrigin s by_) = true ∧ s.sys.basted ≠ [] :=
  ⟨hostWrites (basteIn (chip 5) .host 0x80 7 0xFF) 0x88 0 2, .host 0, 2, 0xF, calm_chip 5, host_writes (by decide +kernel), by decide +kernel⟩

theorem wit_StitchAppliesTheSet : ∃ (s : State) (by_ : By) (raw : Word) (be : BitVec 4), s.calm ∧ nvOn s = true ∧
    Writes s 0x0A (.bank 0x88 0) raw be by_ ∧ s.sys.stitch = none ∧ be.getLsbD 0 = true ∧ raw.extractLsb' 0 2 = 1 ∧
    ownsSet s (askOrigin s by_) = true ∧ s.sys.basted ≠ [] ∧ stitchCheck s (askOrigin s by_) = 0 ∧ underMaster s = false ∧
    s.jrn.staging.length + (s.sys.basted.filter (fun e => decide (e.2 ≠ cfgGet s (e.1 / 65536) (e.1 % 65536)))).length ≤ 64 :=
  ⟨hostWrites (basteIn (basteIn (chip 5) .host 0x80 7 0xFF) .host 3 0x10 0x10) 0x88 0 1, .host 0, 1, 0xF, calm_chip 5, rfl,
   host_writes (by decide +kernel), by decide +kernel⟩

theorem wit_FenceIsSent : ∃ (s : State) (by_ : By) (raw v : Word) (be : BitVec 4), s.calm ∧ Writes s 0x0A (.bank 0x88 0x10) raw be by_ ∧
    sysOn s = true ∧ s.sys.fenceBusy = false ∧ v = raw &&& 0xFF7F &&& laneMask be ∧ inTable s (v.extractLsb' 8 8) = true ∧ s.sys.queued = [] ∧
    s.sys.agents.free ≠ [] ∧ hazard s.sys.agents (v.extractLsb' 8 8) (v.extractLsb' 0 7) = false :=
  ⟨hostWrites (chip 5) 0x88 0x10 0x0506, .host 0, 0x0506, _, 0xF, calm_chip 5, host_writes (by decide +kernel), by decide +kernel, by decide +kernel, rfl,
   by decide +kernel⟩

theorem wit_NoticesAreSentAgain : ∃ (s : State) (c : Byte) (n : Nat), sysOn s = true ∧ s.sys.notices = [(c, n)] ∧ s.sys.queued = [] ∧
    inTable s c = true ∧ (∀ e ∈ s.sys.agents.tags, e.2.st = .held → e.2.use ≠ .notice c n) ∧ s.sys.agents.free ≠ [] ∧
    hazard s.sys.agents c nodeSys = false :=
  ⟨sysMod onRing (fun y => { y with notices := [(9, 4)] }), 9, 4, by decide +kernel, rfl, rfl, by decide +kernel,
   fun e he => (List.not_mem_nil he).elim, by decide +kernel⟩

/-- A notice of SYS of chip 9 that its port 4 was reset. -/
def noticePkt : Pkt := { request nodeSys nodeSys (.write 1) 0 0x46 [oneWord 4 0xF] with schip := 9 }

theorem wit_PortResetNoticeIsTaken : ∃ (s : State) (net : Net) (raw : Word) (be : BitVec 4) (chip cid : Byte), s.calm ∧
    Writes s 0 .portRst raw be (.fabric net) ∧ askOrigin s (.fabric net) = .fab chip nodeSys cid ∧ ringSource s chip = true ∧
    (∀ d, d < 64 → ∀ v ∈ (domGet s d).votes, v ∉ clientsOf s chip (fieldNat raw 0 6)) :=
  ⟨waiting onRing nodeSys .req noticePkt, .req, 4, 0xF, 9, 0, calm_chip 5, fab_writes noticePkt (oneWord 4 0xF) (by decide +kernel), by decide +kernel⟩

theorem wit_RingResetNoticeStarts : ∃ (s : State) (chip : Byte), sysOn s = true ∧ ringSource s chip = true ∧ (isMaster s = true ∨ chip = 0) :=
  ⟨onRing, 0, by decide +kernel⟩

/-- A claim of client 3 by port 3 of chip 5 waits; the directory has w for it. -/
def claiming (w : Word) (ring : RingSt) : State :=
  sysMod (cfgSet { chip 5 with ring := ring } 0x81 3 w) (fun y => { y with claims := [{ chip := 5, port := 3, cid := 3, tag := 7 }] })

theorem wit_ClaimsAreDecided :
    (∃ (s : State) (k : Claim) (rest : List Claim), sysOn s = true ∧ s.sys.claims = k :: rest ∧ (nodeGet s nodeSys .rsp).out = [] ∧ hwRoom s = true ∧
      dirValid (dirWord s k.cid) = false ∧ spliced s = false) ∧
    (∃ (s : State) (k : Claim) (rest : List Claim), sysOn s = true ∧ s.sys.claims = k :: rest ∧ (nodeGet s nodeSys .rsp).out = [] ∧ hwRoom s = true ∧
      dirNames (dirWord s k.cid) k.chip k.port = true) ∧
    (∀ c ∈ [true, false], ∃ (s : State) (k : Claim) (rest : List Claim), sysOn s = true ∧ s.sys.claims = k :: rest ∧
      (nodeGet s nodeSys .rsp).out = [] ∧ hwRoom s = true ∧ dirValid (dirWord s k.cid) = true ∧ dirNames (dirWord s k.cid) k.chip k.port = false ∧
      dirConflict (dirWord s k.cid) = c) ∧
    (∃ (s : State) (k : Claim) (rest : List Claim), sysOn s = true ∧ s.sys.claims = k :: rest ∧ (nodeGet s nodeSys .rsp).out = [] ∧ hwRoom s = true ∧
      dirValid (dirWord s k.cid) = false ∧ spliced s = true ∧ isMaster s = false) := by
  refine ⟨⟨claiming 0 (chip 5).ring, { chip := 5, port := 3, cid := 3, tag := 7 }, [], by decide +kernel⟩,
    ⟨claiming 0x10305 (chip 5).ring, { chip := 5, port := 3, cid := 3, tag := 7 }, [], by decide +kernel⟩, fun c _ => ?_,
    ⟨claiming 0 onRing.ring, { chip := 5, port := 3, cid := 3, tag := 7 }, [], by decide +kernel⟩⟩
  cases c
  · exact ⟨claiming 0x10405 (chip 5).ring, { chip := 5, port := 3, cid := 3, tag := 7 }, [], by decide +kernel⟩
  · exact ⟨claiming 0x50405 (chip 5).ring, { chip := 5, port := 3, cid := 3, tag := 7 }, [], by decide +kernel⟩

theorem wit_MasterDecidesClaims : ∃ (s : State) (c : Byte), sysOn s = true ∧ isMaster s = true ∧ ringSource s c = true ∧ hwRoom s = true :=
  ⟨master, 5, by decide +kernel⟩

theorem wit_HostPinsClients :
    (∃ (s : State) (c : Byte) (hd : Half) (raw : Word) (be : BitVec 4), s.calm ∧ nvOn s = true ∧ jRoom s = true ∧
      Writes s 0x0A (.bank 0x81 c.toNat) raw be (.host hd) ∧ raw.getLsbD 17 = true) ∧
    (∃ (s : State) (c : Byte) (hd : Half) (raw : Word) (be : BitVec 4), s.calm ∧ nvOn s = true ∧ jRoom s = true ∧
      Writes s 0x0A (.bank 0x81 c.toNat) raw be (.host hd) ∧ raw.getLsbD 17 = false ∧ dirPinned (dirWord s c) = true) :=
  ⟨⟨hostWrites (chip 5) 0x81 3 0x0305, 3, 2, 0x20305, 0xF, calm_chip 5, rfl, by decide +kernel, host_writes (by decide +kernel), by decide⟩,
   ⟨hostWrites (cfgSet (chip 5) 0x81 3 0x30305) 0x81 3 0, 3, 0, 0, 0xF, calm_chip 5, rfl, by decide +kernel, host_writes (by decide +kernel),
    by decide +kernel⟩⟩

theorem wit_CopiesOfTheMasterAreTaken :
    (∃ (s : State) (auth : List (Byte × Byte)), sysOn s = true ∧ spliced s = true ∧ isMaster s = false ∧ s.sys.forwarded = [] ∧ auth ≠ [] ∧
      jRoomFor s ((List.range 256).filter (fun c => rights s (BitVec.ofNat 8 c) ≠
        ((auth.find? (fun x => x.1 = BitVec.ofNat 8 c)).map (·.2)).getD 0x0C)).length = true) ∧
    (∃ (s : State) (schip : Byte) (words : List (Byte × Byte)), sysOn s = true ∧ spliced s = true ∧ isMaster s = false ∧ ringSource s schip = true ∧
      s.sys.stitch = none ∧ (words.map (·.1)).Nodup ∧ words ≠ [] ∧ jRoomFor s (authChanged s words).length = true) :=
  ⟨⟨onRing, [(3, 0xFF)], by decide +kernel⟩, ⟨onRing, 0, [(3, 0xFF), (4, 1)], by decide +kernel⟩⟩

def withScope (s : State) (c : Byte) : State := sysMod s (fun y => { y with scopes := [(256, c)] })

theorem wit_ChipAndRingResets :
    (∃ (s : State) (by_ : By) (raw : Word) (be : BitVec 4), s.calm ∧ nvOn s = true ∧ jRoom s = true ∧ Writes s 6 (.reg 6) raw be by_ ∧
      holdsRight s (askOrigin s by_) rRESET = true ∧ be.getLsbD 0 = true ∧ be.getLsbD 1 = true ∧ raw.extractLsb' 0 16 = 0xC1EA ∧
      (scopeOf s (askOrigin s by_)).toNat % 4 = 2 ∧ canDrive s = false) ∧
    (∃ (s : State) (by_ : By) (raw : Word) (be : BitVec 4), s.calm ∧ nvOn s = true ∧ jRoom s = true ∧ Writes s 6 (.reg 6) raw be by_ ∧
      holdsRight s (askOrigin s by_) rRESET = true ∧ be.getLsbD 0 = true ∧ be.getLsbD 1 = true ∧ raw.extractLsb' 0 16 = 0xC1EA ∧
      (scopeOf s (askOrigin s by_)).toNat % 4 = 2 ∧ canDrive s = true ∧ isMaster s = false ∧ s.ring.leaveWhy = .none) ∧
    (∃ (s : State) (by_ : By) (raw : Word) (be : BitVec 4), s.calm ∧ nvOn s = true ∧ jRoom s = true ∧ Writes s 6 (.reg 6) raw be by_ ∧
      holdsRight s (askOrigin s by_) rRESET = true ∧ be.getLsbD 0 = true ∧ be.getLsbD 1 = true ∧ raw.extractLsb' 0 16 = 0xC1EA ∧
      (scopeOf s (askOrigin s by_)).toNat % 4 = 3 ∧ spliced s = false) ∧
    (∃ (s : State) (by_ : By) (raw : Word) (be : BitVec 4), s.calm ∧ nvOn s = true ∧ jRoom s = true ∧ Writes s 6 (.reg 6) raw be by_ ∧
      holdsRight s (askOrigin s by_) rRESET = true ∧ be.getLsbD 0 = true ∧ be.getLsbD 1 = true ∧ raw.extractLsb' 0 16 = 0xC1EA ∧
      (scopeOf s (askOrigin s by_)).toNat % 4 = 3 ∧ spliced s = true) :=
  ⟨⟨withScope (chip 5) 2, .host 0xC1EA, 0xC1EA, 0xF, calm_chip 5, rfl, by decide +kernel, host_writes (by decide +kernel), by decide +kernel⟩,
   ⟨withScope onRing 2, .host 0xC1EA, 0xC1EA, 0xF, calm_chip 5, rfl, by decide +kernel, host_writes (by decide +kernel), by decide +kernel⟩,
   ⟨withScope (chip 5) 3, .host 0xC1EA, 0xC1EA, 0xF, calm_chip 5, rfl, by decide +kernel, host_writes (by decide +kernel), by decide +kernel⟩,
   ⟨withScope onRing 3, .host 0xC1EA, 0xC1EA, 0xF, calm_chip 5, rfl, by decide +kernel, host_writes (by decide +kernel), by decide +kernel⟩⟩

theorem wit_SysReset : ∃ (s : State) (by_ : By) (raw : Word) (be : BitVec 4), s.calm ∧ nvOn s = true ∧ jRoom s = true ∧
    Writes s 6 (.reg 6) raw be by_ ∧ holdsRight s (askOrigin s by_) rRESET = true ∧ be.getLsbD 0 = true ∧ be.getLsbD 1 = true ∧
    raw.extractLsb' 0 16 = 0xC1EA ∧ (scopeOf s (askOrigin s by_)).toNat % 4 = 1 ∧ s.sys.busy = false ∧ (∀ e ∈ s.sys.agents.tags, e.2.st ≠ .held) :=
  ⟨withScope (chip 5) 1, .host 0xC1EA, 0xC1EA, 0xF, calm_chip 5, rfl, by decide +kernel, host_writes (by decide +kernel), by decide +kernel⟩

theorem wit_PortReset : ∃ (s : State) (by_ : By) (raw : Word) (be : BitVec 4) (n : Nat), s.calm ∧ nvOn s = true ∧ jRoom s = true ∧
    s.jrn.staging.length + 3 ≤ 72 ∧ Writes s 6 (.reg 6) raw be by_ ∧ holdsRight s (askOrigin s by_) rRESET = true ∧ be.getLsbD 0 = true ∧
    be.getLsbD 1 = true ∧ raw.extractLsb' 0 16 = 0xC1EA ∧ n = (scopeOf s (askOrigin s by_)).toNat / 4 ∧
    (scopeOf s (askOrigin s by_)).toNat % 4 = 0 ∧ s.sys.busy = false ∧ (domGet s n).st ≠ .waking ∧ (domGet s n).st ≠ .hemming ∧ portAlone s n ∧
    (portGet s n).tgt = none ∧ (portGet s n).claimed = false ∧ (portGet s n).claiming = false ∧ (nodeGet s (portNode n) .rsp).rx = [] ∧
    s.ring.chips = [s.chipnum] ∧ clientsOf s s.chipnum n = [] ∧
    (∀ b, b < 64 → (bOwner (bcfg s b) = n → bcfg s b = 0 ∧ bobGet s b = Bobbin.reset) ∧
      ∀ l, (bobGet s b).lock = some l → ¬(l.schip = s.chipnum ∧ l.snode = portNode n)) :=
  ⟨withScope (chip 5) 12, .host 0xC1EA, 0xC1EA, 0xF, 3, calm_chip 5, rfl, by decide +kernel, by decide +kernel, host_writes (by decide +kernel),
   by decide +kernel, by decide, by decide, by decide, by decide +kernel, by decide +kernel, rfl, by decide +kernel, by decide +kernel, alone_reset 5 3,
   rfl, rfl, rfl, rfl, rfl, by decide +kernel, fun b hb => ⟨fun h => ⟨(by decide +kernel :
     ∀ b, b < 64 → bOwner (bcfg (withScope (chip 5) 12) b) = 3 → bcfg (withScope (chip 5) 12) b = 0) b hb h, rfl⟩, fun l hl => by cases hl⟩⟩

/-! ### The machine as a whole -/

theorem wit_EmptyQueueTicks :
    (∃ s : State, s.pending = [] ∧ tsRuns s = true ∧ s.time.isoCount.toNat + 1 < s.time.isoLive.toNat ∧
      s.time.bwCount.toNat + 1 < s.time.bwLive.toNat) ∧
    (∃ s : State, s.pending = [] ∧ tsRuns s = false) :=
  ⟨⟨chip 5, by decide +kernel⟩, ⟨powered (chip 5) (fun p => { p with mode := .unpowered }), by decide +kernel⟩⟩

theorem chip_inv (c : Byte) : (chip c).Inv := by
  refine ⟨⟨rfl, rfl, rfl, rfl, rfl, rfl, rfl, rfl, rfl⟩, ⟨(by decide : (0 : BitVec 7).toNat ≤ 67), (by decide : (256 : BitVec 9).toNat ≤ 256),
    (by decide : (0 : BitVec 7).toNat ≤ 68), (by decide : (0 : BitVec 4).toNat ≤ 8)⟩, ?_, rfl⟩
  intro d hd
  have : domGet (chip c) d = Dom.resetOf d := rfl
  rw [this]
  unfold Dom.resetOf
  rw [if_neg (by omega)]
  exact ⟨rfl, rfl, fun _ => rfl⟩

theorem wit_StepKeepsInvariant : ∃ s t : State, s.Inv ∧ s.pending ≠ [] ∧ step s = .next t :=
  ⟨{ chip 5 with pending := [.idcode] }, _, chip_inv 5, by decide, rfl⟩

theorem wit_ExecLeavesQueue : ∃ (i : Instr) (s t : State), s.Inv ∧ exec i s = .next t := ⟨.idcode, chip 5, _, chip_inv 5, rfl⟩

theorem wit_WellFormedCommandsAnswer : (∃ i : Instr, i.wf = true) ∧ (∃ i : Instr, i.wf = false) :=
  ⟨⟨.idcode, rfl⟩, ⟨.unitTransfer (.hop .req 0 .west) 0, by decide⟩⟩

/-! ## Commands that are not well-formed -/

/-- R10: router 0 has no neighbour to the west nor to the south, router 63 none to the east nor to the north. -/
theorem test_hop_off_the_grid : (Instr.unitTransfer (.hop .req 0 .west) 0).wf = false ∧ (Instr.unitTransfer (.hop .req 0 .south) 0).wf = false ∧
    (Instr.unitTransfer (.hop .req 63 .east) 0).wf = false ∧ (Instr.unitTransfer (.hop .req 63 .north) 0).wf = false ∧
    (Instr.unitTransfer (.hop .req 9 .loc) 0).wf = false ∧ (Instr.unitTransfer (.hop .req 0 .east) 0).wf = true := by decide

/-- R107, R108: a SYNC16 write has 1 to 32 data beats. -/
theorem test_beats_of_a_write : (Instr.sync16Write 0 ⟨0, 1⟩ ⟨0, 0⟩ []).wf = false ∧
    (Instr.sync16Write 0 ⟨0, 1⟩ ⟨0, 0⟩ (List.replicate 33 ⟨0, 0⟩)).wf = false ∧
    (Instr.sync16Write 0 ⟨0, 1⟩ ⟨0, 0⟩ [⟨0, 0⟩]).wf = true := by decide

theorem test_ill_formed_is_refused : exec (.unitTransfer (.hop .req 0 .west) 0) (chip 5) = .fault (.illFormed "UNIT_TRANSFER") ∧
    exec (.sync16Write 0 ⟨0, 1⟩ ⟨0, 0⟩ []) (chip 5) = .fault (.illFormed "SYNC16_WRITE") := ⟨rfl, rfl⟩

/-- The table gives no row any bits. -/
theorem test_no_word_spells_a_command : decodeTableWord 16 0x1234 = none ∧ (State.reset.withFetchWord 16 0x1234) = State.reset := ⟨rfl, rfl⟩

/-! ## The manual's worked examples -/

/-- Chapter 3: the units of the read, of its answer, and of the split write, each with LNK_P. -/
theorem test_units : headBits 1 0x02 0x00 0x10 1 1 7 = 0x404100410838 ∧ parityOf 0x404100410838 = false ∧
    addrBits 0 1 0x48 = 0x800040000048 ∧ parityOf 0x800040000048 = true ∧
    headBits 0 0x00 0x02 0x10 1 1 7 = 0x400002410838 ∧ parityOf 0x400002410838 = true ∧
    dataBits true 0x5C00A93E 0xF false = 0xD7002A4FBC00 ∧ parityOf 0xD7002A4FBC00 = false ∧
    headBits 1 0x02 0x00 0x20 1 2 3 = 0x404100811018 ∧ addrBits 1 2 0x4001 = 0x804080004001 ∧
    dataBits true 0x00A70000 4 false = 0xC029C0001000 ∧ headBits 1 0x00 0x02 0x00 1 0 3 = 0x404002010018 := by decide +kernel

/-- Chapter 3: the units of a packet as it is formed, and read back. -/
theorem test_packet_and_back : (pktUnits (requestPkt 1 0x02 0x00 (.write 1) 1 3 1 2 0x4001 [goodUnit 0x00A70000 4])).map (·.d) =
      [0x404100811018, 0x804080004001, 0xC029C0001000] ∧
    (parsePkt (pktUnits (requestPkt 1 0x02 0x00 (.write 1) 1 3 1 2 0x4001 [goodUnit 0x00A70000 4]))).map (fun p => (p.tag, p.cid, p.addr)) =
      some (3, 2, 0x4001) := by decide +kernel

/-- Chapter 8: the transfers of that head unit on REQ lane 0, and the words of JOIN(0x01), CREDIT 0x01 and the request of chip 1. -/
theorem test_seam : seamTransfers 0 0x404100410838 false = [0x11010, 0x08020, 0x10838] ∧ ctlTransfer 3 0x4 1 = 0x07401 ∧
    ctlTransfer 1 0 1 = 0x03001 ∧ joinWord 1 = 0xFE01 ∧ joinWordGood (~~~ 0x01FE) = true := by decide +kernel

/-- Chapter 15: the check byte of the example's bytes in an even and in an odd pass; the fields of R361, worked out by hand (the example places
TID one digit too high, R5); the identifiers of the example's targets. -/
theorem test_journal_entry :
    entryCrc 0x000001234567000120241000204020 false = 0x59 ∧ entryCrc 0x000001234567000120241000204020 true = 0xA6 ∧
    entryBody { ts := 0x01234567, ochip := 0, ocid := 1, okind := 1, tid := tidBank 0 0x12, value := 0x80010201, same := false, tinv := false,
                staged := false, anchor := false } = 0x000001234567000120025000204020 ∧
    tidBank 0x80 1 = 0x8001 ∧ tidBank 0x85 0x100 = 0xA900 := by decide +kernel

/-- Chapter 12: the mantissa of DROWSE, and the value that the end of the hush journals. -/
theorem test_supply : mantissa 0 2 = 0x09EC ∧
    (match exec (.hushEnd 553 240) (powered (chip 5) (fun p => { p with hush := true })) with
     | .next t => t.jrn.staging.map (·.value) | _ => []) = [0x229000F0] := by decide +kernel

/-- Chapter 14: the value of an isolation by RESPTO of port 2, and FAULTDB. -/
theorem test_fault_value : faultValue 2 fRESPTO false 0 = 0x00000201 := by decide +kernel

/-- Chapter 9: the head of the notification. -/
theorem test_watch_head : headBits 0 0x04 0x02 0x38 1 2 0 = 0x400202E11000 ∧ dataBits true 0x41000000 8 false = 0xD04000002000 := by decide +kernel

/-- Chapter 6: CPU A's windows 0 to 3. -/
def calicoWindows : State :=
  let put := fun s (e : Nat × Word × Word) => cfgSet (cfgSet s 0 (0x10 + 4 * e.1) e.2.1) 0 (0x12 + 4 * e.1) e.2.2
  [(0, 0x0000_C00C, 0x8002_0605), (1, 0x0000_000E, 0x8001_1205), (2, 0x0000_800F, 0x8001_0209), (3, 0x0000_0010, 0x8005_0205)].foldl
    put { onRing with ring := onRing.ring }

/-- Chapter 6: which window and which fabric address each port address has. -/
theorem test_windows : [0x0100, 0x4A00, 0xC008, 0xE000].map (fun a => (windowFor calicoWindows 0 a).map (fun w => (w.dchip, w.dnode, w.cls, fabricAddr w a))) =
    [some (5, 0x12, 1, 0x100), some (5, 0x02, 1, 0x4A00), some (5, 0x06, 2, 0x8), some (9, 0x02, 1, 0x6000)] := by decide +kernel

/-- Chapter 10: CPU A's last write of the message sets doorbell bit 3 and makes RXHEAD valid with LENM1 1. -/
theorem test_message :
    let x : Bobbin := { locked with asm := some { schip := 5, cid := 3, lenM1 := 1, dbbit := 3, stag := 0, words := [0x48] } }
    (match exec (.txdata .req) (bobbin 0x00080105 x .req (bobWrite 0x11 0x49)) with
     | .next t => ((bobGet t 2).bell, rxHeadWord (bobGet t 2), ((bobGet t 2).msgs.map (·.words)).flatten)
     | _ => (0, 0, [])) = (8, 0x05030009, [0x48, 0x49]) := by decide +kernel

/-- Chapter 19: the identification register. -/
theorem test_idcode : tapRead { Tap.reset with ir := 1 } = (List.range 32).map (fun k => (0x2D6405EB : Word).getLsbD k) := by decide +kernel

/-! ## One step each -/

/-- R411, R412: the low half of WINDATA is kept, the high half writes the word and moves WINADDR. -/
theorem test_window_write : (match exec (.windataWrite 0x8001) { hostWrites (chip 5) 3 0x12 0x0201 with host := { (hostWrites (chip 5) 3 0x12 0x0201).host with inc := true } } with
    | .next t => (bastedAt t 3 0x12, t.host.winaddr, t.host.phase) | _ => (none, 0, true)) = (some 0x80010201, 0x13, false) := by decide +kernel

def votedOn : State := domMod State.reset 9 (fun x => { x with st := .on, voted := true, votes := [256] })

/-- R261, R432 step 3: a SYS reset withdraws the votes, and the wake hold keeps the domain ON. -/
theorem test_sys_reset_votes : (match domGet (sysReturned votedOn) 9 with | x => (x.st, x.hold, x.votes)) = (.on, true, []) := by decide +kernel

/-- R310: an idle step counts the timestamp. -/
theorem test_tick : (match step (chip 5) with | .next t => t.time.ts | _ => 0) = 1 := by decide +kernel

/-- A command in front of the queue runs, and leaves the rest. -/
theorem test_queue : (match step { chip 5 with pending := [.idcode, .bypass] } with | .next t => (t.tap.ir, t.pending) | _ => (0, [])) =
    (1, [.bypass]) := by decide +kernel

end Sys2Proof.Tests
end

section
/-!
The scope family: one step of the block keeps the invariant of Safety.lean; writes of PCFG, PCLK and CLRPEAK in a port bank,
applied and refused, for the host and for a fabric client alike.
-/
namespace Sys2Proof.Machine

variable {s x g : State} {o : Origin} {by_ : By} {raw old v m : Word} {be : BitVec 4} {i : Nat}

/-! ## Steps -/

/-- A step runs under the queue's rest, whichever of the two it is: a tick on the empty queue, or the oldest command. -/
theorem step_good (h : s.Inv) : OutAll (Good s.pending.tail) (step s) := by
  unfold step
  cases hq : s.pending with
  | nil => exact outAll_next (tick_good ⟨hq, h⟩)
  | cons c rest => exact exec_good c ⟨rfl, h⟩

/-- Settles O57: the invariant is kept by the tick and by every command (exec_good). -/
theorem everyStepKeepsTheInvariant : Obligations.EveryStepKeepsTheInvariant :=
  fun _ _ hinv hstep => (outAll_get hstep (step_good hinv)).2

/-! ## The words PCFG and PCLK of a port bank -/

/-- R93: what a write of word i of port n's bank does besides the word: PCLK takes effect in the divider. -/
def portLive (n i : Nat) (v : Word) (u : State) : State := if i = 1 then portMod u n (fun p => { p with pclkLive := v }) else u

theorem wordAfter_port (x u : State) (o : Origin) (n : Fin 64) (i : Nat) (v : Word) :
    wordAfter x u o (.bank n i) v = portLive n i v u := by
  have h40 : n.val < 0x40 := n.isLt
  have h87 : n.val ≠ 0x87 := by omega
  simp [wordAfter, portLive, h40, h87]

theorem portLive_overlay (n i : Nat) (v : Word) (x e : State) : portLive n i v (overlay x e) = overlay x (portLive n i v e) := by
  unfold portLive; split <;> rfl

theorem portLive_jrn (n i : Nat) (v : Word) (u : State) : (portLive n i v u).jrn = u.jrn := by
  unfold portLive; split <;> rfl

theorem portLive_calm (n i : Nat) (v : Word) {u : State} (h : u.calm) : (portLive n i v u).calm := by
  unfold portLive; split <;> exact h

theorem portLive_sysOn (n i : Nat) (v : Word) (u : State) : sysOn (portLive n i v u) = sysOn u := by
  unfold portLive; split <;> rfl

theorem JournalOnly.portLive {a b : State} (h : JournalOnly a b) (n i : Nat) (v : Word) :
    JournalOnly (portLive n i v a) (portLive n i v b) := by
  obtain ⟨_, _, _, _, rfl⟩ := h.open
  unfold Machine.portLive; split <;> rfl

/-- PCFG and PCLK: their one RW field, its mask m with bits in every lane (R42, R89, R91). -/
def PortConfig (i : Nat) (m : Word) : Prop := (i = 0 ∧ m = 0x1FFFFFFF) ∨ (i = 1 ∧ m = 0x07FFFFFF)

theorem pcfg_config : PortConfig 0 0x1FFFFFFF := .inl ⟨rfl, rfl⟩
theorem pclk_config : PortConfig 1 0x07FFFFFF := .inr ⟨rfl, rfl⟩

/-- R414, R420: such a word is in the map, kept in the retention store, and written by its field alone. -/
theorem PortConfig.facts (h : PortConfig i m) (n : Fin 64) :
    bankHas n i = true ∧ plainWd (.bank n i) = true ∧ fieldsOf (.bank n i) = [fRW m rMAP] ∧
    (∀ x o, wordRead x o (.bank n i) = cfgGet x n i) ∧ (∀ x, wordAsleep x (.bank n i) = false) ∧
    (∀ x v, wordPut x o (.bank n i) v = cfgSet x n i v) := by
  have h40 : n.val < 0x40 := n.isLt
  have hi : i = 0 ∨ i = 1 := h.imp And.left And.left
  obtain ⟨hct, hfs, hplain, hread⟩ := port_facts n.val i h40 (by omega) (by omega)
  rcases h with ⟨rfl, rfl⟩ | ⟨rfl, rfl⟩ <;>
  exact ⟨by simp [bankHas, h40], hplain, hfs, fun x o => hread x o, fun x => by simp [wordAsleep, h40],
    fun x v => by simp [wordPut, bankPut, hct, h40]⟩

/-- R90, R92: the checks of the two words. -/
theorem reservedCode_pcfg (x : State) (n : Fin 64) (old v : Word) : reservedCode x (.bank n 0) old v = pcfgBad x n old v := by
  simp [reservedCode, bankReserved, counterAt, n.isLt]

theorem reservedCode_pclk (x : State) (n : Fin 64) (old v : Word) : reservedCode x (.bank n 1) old v = pclkBad v := by
  simp [reservedCode, bankReserved, counterAt, n.isLt]

theorem Taken.pcfgBad (hx : Taken s x) (n : Nat) (old v : Word) : Machine.pcfgBad x n old v = Machine.pcfgBad s n old v := by
  unfold Machine.pcfgBad; rw [hx.domGet]

/-- R9: a write of any lane of such a word is journaled, changed or not, once its right is held. -/
theorem PortConfig.journals (h : PortConfig i m) (hbe : be ≠ 0) (hM : holdsRight x o rMAP = true) :
    journals x o [fRW m rMAP] old v be = true := by
  have hlane : ∀ b : BitVec 4, b ≠ 0 → (0x1FFFFFFF : Word) &&& laneMask b ≠ 0 ∧ (0x07FFFFFF : Word) &&& laneMask b ≠ 0 := by decide
  have hm : m &&& laneMask be ≠ 0 := by
    rcases h with ⟨-, rfl⟩ | ⟨-, rfl⟩
    · exact (hlane be hbe).1
    · exact (hlane be hbe).2
  have hr : hasRight x o (fRW m rMAP) = true := hM
  have hl : decide ((fRW m rMAP).mask &&& laneMask be ≠ 0) = true := decide_eq_true hm
  simp only [Machine.journals, List.any_cons, List.any_nil, Bool.or_false, hr, Bool.or_true, Bool.and_true]
  exact hl

/-- The change, then its entry with the whole new word, then what follows (R9, R363). -/
theorem PortConfig.apply (h : PortConfig i m) {n : Fin 64} (hx : Taken s x) (hn : nvOn s = true)
    (ht : wordApply x (askOrigin s by_) (.bank n i) old v true = g) :
    JournalOnly (overlay x (portLive n i v (cfgSet s n i v))) g ∧ Staged s (originKind (askOrigin s by_)) (tidBank n i) v g.jrn := by
  obtain ⟨-, -, -, hread, -, hput⟩ := h.facts n (o := askOrigin s by_)
  have h87 : n.val ≠ 0x87 := by omega
  have h83 : ¬(n.val = 0x83 ∧ i = 3) := by omega
  have hset : bankPut x n i v = overlay x (cfgSet s n i v) := by
    rw [show bankPut x n i v = cfgSet x n i v from hput x v, hx.eq]; rfl
  have hval : bankWord (overlay x (cfgSet s n i v)) (askOrigin s by_) n i = v :=
    (hread (overlay x (cfgSet s n i v)) (askOrigin s by_)).trans (cfgGet_cfgSet_same s _ _ _)
  obtain ⟨hj, hst⟩ := entry_row (x := x) (by_ := by_) (e := cfgSet s n i v) hn (tidBank n i) v rfl rfl rfl rfl
  rw [wordApply_bank h87 h83, if_pos rfl, wordAfter_port, hset, hval] at ht
  rw [← ht, ← portLive_overlay, portLive_jrn]
  exact ⟨hj.portLive n i v, hst⟩

/-- A write of such a word that passes its checks (R8, R42, R366). -/
theorem PortConfig.written (h : PortConfig i m) {n : Fin 64} {sel : Origin → Wd → Word → Bool} (hc : s.calm) (hn : nvOn s = true)
    (hr : jRoom s = true) (hv : mergeWord [fRW m rMAP] (cfgGet s n i) raw be = v) (hw : Writes s 0x0A (.bank n i) raw be by_)
    (hsel : sel (askOrigin s by_) (.bank n i) raw = true) (hM : holdsRight s (askOrigin s by_) rMAP = true)
    (hres : ∀ x, Taken s x → reservedCode x (.bank n i) (cfgGet s n i) v = false) :
    ∃ t, byWrite s 0x0A sel by_ = t ∧ AccessOnly (portLive n i v (cfgSet s n i v)) t ∧ AccessEnds s t 0x0A by_ ∧
      Staged s (originKind (askOrigin s by_)) (tidBank n i) v t.jrn := by
  obtain ⟨hhas, hplain, hfs, hread, hup, -⟩ := h.facts n (o := askOrigin s by_)
  refine word_row (old := cfgGet s n i) (v := v) (j := true) (Q := Staged s (originKind (askOrigin s by_)) (tidBank n i) v)
    hw hsel ⟨hhas, rfl⟩ hplain (by rw [hfs]; rfl) (by rw [hfs]; exact hv)
    (fun x hx => (hread x _).trans (hx.cfgGet n i)) hres ?_ (fun x _ => hup x) (fun x hx => ?_) (.inr rfl) (fun _ => hr)
    (fun x hx => wordGo_done nofun nofun fun _ => by rw [hx.jRoom]; exact hr)
    (fun x hx => h.apply hx hn rfl) (portLive_calm _ _ _ hc) (fun hon => by rw [portLive_sysOn]; exact hon)
  · intro f hf k hk
    rw [hfs, List.mem_singleton] at hf
    subst hf; cases hk; exact hM
  · rw [hfs]
    exact h.journals hw.be_ne (by rw [hx.holdsRight]; exact hM)

/-! ## CLRPEAK -/

/-- R394: what CLRPEAK clears of a port. -/
def clearPeaks (p : PortSt) : PortSt := { p with peakRd := 0, peakWr := 0, pvalid := false }

/-- R394: CLRPEAK's field, in the word that reads LVALID and PVALID. -/
theorem clrpeak_merge (h2 : raw.getLsbD 2 = true) (hbe : be.getLsbD 0 = true) (old : Word) :
    (mergeWord (portFields 0xE4) old raw be).getLsbD 2 = true := by
  have hrw : maskOf (portFields 0xE4) (fun f => decide (f.acc = .rw)) = 0 := by decide
  have hall : maskOf (portFields 0xE4) (fun _ => true) = 4 := by decide
  have hlane : ∀ b : BitVec 4, b.getLsbD 0 = true → (laneMask b).getLsbD 2 = true := by decide
  unfold mergeWord
  rw [hrw, hall]
  simp [h2, hlane be hbe]

theorem clrpeak_takes (h2 : v.getLsbD 2 = true) : takes (fld 4 .wo (some rCOUNT) false) old v = true := by
  refine decide_eq_true fun h => ?_
  have hb := congrArg (fun w : Word => w.getLsbD 2) h
  rw [show (fld 4 .wo (some rCOUNT) false).mask = 4 from rfl, BitVec.getLsbD_and, h2] at hb
  exact absurd hb (by decide)

/-- R394: a write of CLRPEAK 1 to a port that is ON. It makes no entry. -/
theorem clrpeak_written {n : Fin 64} {sel : Origin → Wd → Word → Bool} (hc : s.calm) (hw : Writes s 0x0A (.bank n 0xE4) raw be by_)
    (hsel : sel (askOrigin s by_) (.bank n 0xE4) raw = true) (hC : holdsRight s (askOrigin s by_) rCOUNT = true)
    (hon : domOn s n = true) (h2 : raw.getLsbD 2 = true) (hbe : be.getLsbD 0 = true) :
    ∃ t, byWrite s 0x0A sel by_ = t ∧ AccessOnly (portMod s n clearPeaks) t ∧
      AccessEnds s t 0x0A by_ ∧ t.jrn = s.jrn := by
  have h40 : n.val < 0x40 := n.isLt
  obtain ⟨hct, hfs, hplain, hread⟩ := port_facts n.val 0xE4 h40 (by decide) (by decide)
  have hfl : fieldsOf (.bank n 0xE4) = [fld 4 .wo (some rCOUNT) false] := hfs
  have hv2 := clrpeak_merge h2 hbe (portWord s n 0xE4)
  generalize hv : mergeWord (portFields 0xE4) (portWord s n 0xE4) raw be = v at hv2
  refine word_row (old := portWord s n 0xE4) (v := v) (j := false) (Q := fun j => j = s.jrn)
    hw hsel ⟨by simp [bankHas, h40], rfl⟩ hplain (by rw [hfl]; rfl) (by rw [hfl]; exact hv)
    (fun x hx => ?_) (fun x _ => ?_) ?_ (fun x hx => ?_) (fun x _ => ?_) ?_ nofun
    (fun x _ => wordGo_done nofun nofun nofun) (fun x hx => ?_) hc id
  · show bankWord x (askOrigin s by_) n 0xE4 = _
    rw [hread]; unfold portWord; rw [hx.portGet]; rfl
  · show bankReserved x n 0xE4 (portWord s n 0xE4) v = false
    simp [bankReserved, hct, h40]
  · intro f hf k hk
    rw [hfl, List.mem_singleton] at hf
    subst hf; cases hk; exact hC
  · have hx' : domOn x n = true := by unfold domOn at hon ⊢; rw [hx.domGet]; exact hon
    simp [wordAsleep, h40, hx']
  · rw [hfl]; rfl
  · rw [hfl]; exact .inl (by rw [List.any_cons, clrpeak_takes hv2]; rfl)
  · have happ : wordApply x (askOrigin s by_) (.bank n 0xE4) (portWord s n 0xE4) v false =
        overlay x (portMod s n clearPeaks) := by
      have hput : bankPut x n 0xE4 v = portMod x n clearPeaks := by
        simp [bankPut, hct, h40, hv2]; rfl
      rw [wordApply_bank (by omega) (by omega), wordAfter_port, hput, hx.eq]; rfl
    rw [happ]; exact ⟨JournalOnly.refl _, rfl⟩

/-- A row whose command is such a write answers with the state that the write leaves. -/
theorem byWrite_next {ha : BitVec 6} {sel : Origin → Wd → Word → Bool} {P : State → Prop} (h : ∃ t, byWrite s ha sel by_ = t ∧ P t) :
    ∃ t, (.next (byWrite s ha sel by_) : Res) = .next t ∧ P t := by
  obtain ⟨_, rfl, h⟩ := h
  exact ⟨_, rfl, h⟩

/-- Settles O26: PCFG, PCLK and CLRPEAK by the rules of their words. -/
theorem portWordsAndPeaks : Obligations.PortWordsAndPeaks := by
  intro s n by_ raw v be hc hn hr
  refine ⟨fun hv hw hM hgood => byWrite_next ?_, fun hv hw hM hgood => byWrite_next ?_, fun hw hC hon h2 hbe => byWrite_next ?_⟩
  · exact pcfg_config.written hc hn hr hv.symm hw (by simp) hM fun x hx => by rw [reservedCode_pcfg, hx.pcfgBad]; exact hgood
  · exact pclk_config.written hc hn hr hv.symm hw (by simp) hM fun x _ => by rw [reservedCode_pclk]; exact hgood
  · exact clrpeak_written hc hw (by simp [h2]) hC hon h2 hbe

/-! ## PCFG and PCLK refused -/

theorem Taken.accessOnly (hx : Taken s x) : AccessOnly s x := by
  unfold AccessOnly; rw [hx.jrn]; exact hx.eq

theorem Taken.refusedBy (hx : Taken s x) (o : Origin) (why : BitVec 4) : refusedBy x o why = overlay x (refusedBy s o why) := by
  conv_lhs => rw [hx.eq]
  rfl

/-- R3, R473: a value that the word may not hold is refused before any right is looked at. -/
theorem PortConfig.reserved (h : PortConfig i m) {n : Fin 64} {sel : Origin → Wd → Word → Bool} (hc : s.calm)
    (hv : mergeWord [fRW m rMAP] (cfgGet s n i) raw be = v) (hw : Writes s 0x0A (.bank n i) raw be by_)
    (hsel : sel (askOrigin s by_) (.bank n i) raw = true)
    (hres : ∀ x, Taken s x → reservedCode x (.bank n i) (cfgGet s n i) v = true) :
    ∃ t, byWrite s 0x0A sel by_ = t ∧ AccessRefused s t .decerr by_ ∧ AccessOnly s t ∧ t.jrn = s.jrn := by
  obtain ⟨hhas, hplain, hfs, hread, -, -⟩ := h.facts n (o := askOrigin s by_)
  refine refused_row (P := fun g => AccessOnly s g ∧ g.jrn = s.jrn) hw hsel hhas (by decide) (fun x req hx => ?_)
    (fun g y k hg => ⟨hg.1.jrn_free y k, hg.2⟩) (fun g hg => hg.1.calm hc)
  refine ⟨x, ?_, rfl, rfl, hx.accessOnly, hx.jrn⟩
  exact writeWord_reserved hplain (by rw [hfs]; rfl) ((hread x _).trans (hx.cfgGet n i)) (by rw [hfs]; exact hv) (hres x hx)

/-- R8, R353: a change by an origin without MAP is refused and recorded. -/
theorem PortConfig.denied (h : PortConfig i m) {n : Fin 64} {sel : Origin → Wd → Word → Bool} (hc : s.calm)
    (hv : mergeWord [fRW m rMAP] (cfgGet s n i) raw be = v) (hw : Writes s 0x0A (.bank n i) raw be by_)
    (hsel : sel (askOrigin s by_) (.bank n i) raw = true) (hM : holdsRight s (askOrigin s by_) rMAP = false)
    (hres : ∀ x, Taken s x → reservedCode x (.bank n i) (cfgGet s n i) v = false) (hch : (cfgGet s n i ^^^ v) &&& m ≠ 0) :
    ∃ t, byWrite s 0x0A sel by_ = t ∧ AccessRefused s t .rights by_ ∧ AccessOnly (refusedBy s (askOrigin s by_) 0) t ∧
      t.jrn = s.jrn := by
  obtain ⟨hhas, hplain, hfs, hread, -, -⟩ := h.facts n (o := askOrigin s by_)
  refine refused_row (P := fun g => AccessOnly (refusedBy s (askOrigin s by_) 0) g ∧ g.jrn = s.jrn) hw hsel hhas (by decide)
    (fun x req hx => ?_) (fun g y k hg => ⟨hg.1.jrn_free y k, hg.2⟩) (fun g hg => hg.1.calm (calm_refused _ _ hc))
  have hl : lacks x (askOrigin s by_) (fieldsOf (.bank n i)) (cfgGet s n i) v = some 0 := by
    rw [hfs]; exact lacks_map (by rw [hx.holdsRight]; exact hM) hch
  have hcnt := refuse_counts x (askOrigin s by_) 0
  refine ⟨_, writeWord_denied hplain (by rw [hfs]; rfl) ((hread x _).trans (hx.cfgGet n i)) (by rw [hfs]; exact hv) (hres x hx) hl,
    hcnt.host, hcnt.mesh, ?_, hcnt.jrn.trans hx.jrn⟩
  rw [hx.refusedBy] at hcnt
  exact hcnt.toJournal.access

/-- Settles O27: a reserved value ends as DECERR, a change without MAP as RIGHTS, and neither leaves an entry. -/
theorem refusedWritesChangeNothing : Obligations.RefusedWritesChangeNothing := by
  intro s n by_ raw v be hc o
  refine ⟨fun hv hw => ⟨fun hbad => byWrite_next ?_, fun hgood hM hch => byWrite_next ?_⟩,
    fun hv hw => ⟨fun hbad => byWrite_next ?_, fun hgood hM hch => byWrite_next ?_⟩⟩
  · exact pcfg_config.reserved hc hv.symm hw (by simp) fun x hx => by rw [reservedCode_pcfg, hx.pcfgBad]; exact hbad
  · exact pcfg_config.denied hc hv.symm hw (by simp) hM (fun x hx => by rw [reservedCode_pcfg, hx.pcfgBad]; exact hgood) hch
  · exact pclk_config.reserved hc hv.symm hw (by simp) fun x _ => by rw [reservedCode_pclk]; exact hbad
  · exact pclk_config.denied hc hv.symm hw (by simp) hM (fun x _ => by rw [reservedCode_pclk]; exact hgood) hch

end Sys2Proof.Machine
end

section
/-!
The fabric family: a head waiting in a router's input latch is routed, absorbed by the slot of its node, or discarded.
-/
namespace Sys2Proof.Machine

variable {s t : State} {net : Net} {r : Fin 64} {inp : Dir} {u : LinkUnit} {x : RIn}

/-! ## One input changes -/

/-- From s to t one router input became x; every other input is as it was. -/
def InputBecomes (s t : State) (net : Net) (r : Fin 64) (inp : Dir) (x : RIn) : Prop :=
  rinGet t net r.val inp = x ∧
  ∀ (m : Net) (q : Fin 64) (e : Dir), ¬(m = net ∧ q = r ∧ e = inp) → rinGet t m q.val e = rinGet s m q.val e

theorem inputBecomes_rinSet (s : State) (net : Net) (r : Fin 64) (inp : Dir) (x : RIn) :
    InputBecomes s (rinSet s net r.val inp x) net r inp x :=
  ⟨rinGet_rinSet_same .., fun _ _ _ h => rinGet_rinSet_ne _ _ _ _ _ _ _ _ h⟩

theorem InputBecomes.of_ins (h : t.mesh.ins = (rinSet s net r.val inp x).mesh.ins) : InputBecomes s t net r inp x :=
  ⟨(rinGet_ins h ..).trans (inputBecomes_rinSet s net r inp x).1,
   fun m q e hne => (rinGet_ins h ..).trans ((inputBecomes_rinSet s net r inp x).2 m q e hne)⟩

/-! ## What becomes of a head -/

/-- The input latch holds a unit where a head is due: no packet of this input is on its way to an output or being absorbed. -/
def HeadDue (s : State) (net : Net) (r : Fin 64) (inp : Dir) (u : LinkUnit) : Prop :=
  (rinGet s net r.val inp).latch = some u ∧ (rinGet s net r.val inp).route = none ∧ (rinGet s net r.val inp).absorb = none

/-- R20, R34: an error-free head unit whose LEN is no reserved code. -/
def SoundHead (u : LinkUnit) : Prop := unitGood u = true ∧ utOf u.d = 1 ∧ lenGood u.d = true

/-- R58, R59: the output and the slot that a head's routing target gives it at router r. -/
def headRouteOf (s : State) (r : Fin 64) (u : LinkUnit) : Route :=
  let tgt := routeTarget s u.d
  { out := routeTo r.val tgt, slot := decide (routeTo r.val tgt = .loc) && nodeSlotB tgt }

theorem headArrival_discards (h : HeadDue s net r inp u) (hbad : unitGood u = false ∨ utOf u.d ≠ 1) :
    exec (.routerHeadArrival net r inp) s = .next (headDiscard s net r.val inp u) := by
  obtain ⟨hl, hr, ha⟩ := h
  have hb : unitGood u = false ∨ utOf u.d ≠ 1 ∨ lenGood u.d = false := hbad.imp_right .inl
  change execRouterHeadArrival net r inp s = _
  simp only [execRouterHeadArrival, hl, hr, ha, if_pos hb]

theorem headArrival_routes (h : HeadDue s net r inp u) (hs : SoundHead u)
    (hd : routeTo r.val (routeTarget s u.d) = .loc → slotDo s (routeTarget s u.d) net (hDchip u.d) = .deliver) :
    exec (.routerHeadArrival net r inp) s = .next (headRoute s net r.val inp u (headRouteOf s r u)) := by
  obtain ⟨hl, hr, ha⟩ := h
  obtain ⟨hg, hu, hlen⟩ := hs
  change execRouterHeadArrival net r inp s = _
  simp only [execRouterHeadArrival, headRouteOf, hl, hr, ha]
  by_cases hloc : routeTo r.val (routeTarget s u.d) = .loc
  · simp [hg, hu, hlen, hloc, hd hloc]
  · simp [hg, hu, hlen, hloc]

theorem headArrival_absorbs {ans : Option Status} (h : HeadDue s net r inp u) (hs : SoundHead u)
    (hloc : routeTo r.val (routeTarget s u.d) = .loc) (hd : slotDo s (routeTarget s u.d) net (hDchip u.d) = .absorb ans) :
    exec (.routerHeadArrival net r inp) s = .next (headAbsorb s net r.val inp u (routeTarget s u.d) ans) := by
  obtain ⟨hl, hr, ha⟩ := h
  obtain ⟨hg, hu, hlen⟩ := hs
  change execRouterHeadArrival net r inp s = _
  simp [execRouterHeadArrival, hl, hr, ha, hg, hu, hlen, hloc, hd]

/-! ## Routed -/

/-- R59, R62: the input keeps the head, with its route and the count of units to follow. -/
def routedIn (x : RIn) (u : LinkUnit) (rt : Route) : RIn := { x with route := some rt, left := (hLen u.d).toNat, discard := false }

theorem headRoute_free {rt : Route} (hfree : (arbGet s net r.val (.out rt.out)).holder = none) :
    headRoute s net r.val inp u rt = rinSet s net r.val inp (routedIn (rinGet s net r.val inp) u rt) :=
  if_pos hfree

/-- R65: but for the count of it, a head that finds its output held only joins those that wait there. -/
theorem headRoute_held {rt : Route} (hheld : (arbGet s net r.val (.out rt.out)).holder ≠ none) :
    CountsOnly
      (arbSet (rinSet s net r.val inp (routedIn (rinGet s net r.val inp) u rt)) net r.val (.out rt.out)
        { arbGet s net r.val (.out rt.out) with waited := (arbGet s net r.val (.out rt.out)).waited ++ [dirIx inp] })
      (headRoute s net r.val inp u rt) := by
  have heq : headRoute s net r.val inp u rt = bump _ _ _ := if_neg hheld
  rw [heq]
  exact bump_shape ..

theorem headRoute_mesh (s : State) (net : Net) (r : Fin 64) (inp : Dir) (u : LinkUnit) (rt : Route) :
    let t := headRoute s net r.val inp u rt
    t.mesh.ins = (rinSet s net r.val inp (routedIn (rinGet s net r.val inp) u rt)).mesh.ins ∧ t.mesh.nodes = s.mesh.nodes ∧
      MeshOnly s t := by
  by_cases hfree : (arbGet s net r.val (.out rt.out)).holder = none
  · rw [headRoute_free hfree]
    exact ⟨rfl, rfl, rinSet_frame ..⟩
  · have hheld := headRoute_held (inp := inp) (u := u) hfree
    have hmesh := hheld.mesh
    exact ⟨by rw [hmesh]; rfl, by rw [hmesh]; rfl, ((rinSet_frame ..).trans (arbSet_frame ..)).trans hheld.toMesh⟩

/-! ## Absorbed -/

/-- R14: the input after its head was absorbed: the slot owes the answer to a packet of which units are still to come. -/
def absorbedIn (x : RIn) (u : LinkUnit) (ans : Option Status) : RIn :=
  { x with
    latch := none, discard := false
    absorb := if hLen u.d = 0 then none else some { head := headPkt u.d, answer := ans, done := false, left := (hLen u.d).toNat } }

@[simp] theorem swallow_mesh (s : State) (node : BitVec 7) (net : Net) (d : BitVec 48) : (swallow s node net d).mesh = s.mesh := by
  unfold swallow
  split
  · split
    · exact portMod_mesh ..
    · rfl
  · rfl

/-- R342: a swallowed WRITE is counted at its port alone. -/
theorem swallow_frame (s : State) (node : BitVec 7) (net : Net) (d : BitVec 48) : PortsOnly s (swallow s node net d) := by
  unfold swallow
  split
  · split
    · exact portMod_frame ..
    · exact .refl s
  · exact .refl s

theorem headAbsorb_eq (s : State) (net : Net) (r : Fin 64) (inp : Dir) (u : LinkUnit) (node : BitVec 7) (ans : Option Status) :
    headAbsorb s net r.val inp u node ans =
      swallow (bump (rinSet s net r.val inp (absorbedIn (rinGet s net r.val inp) u ans)) (.router r.val)
        (routerEv net (if nodeSlotB node then 5 else 4) kABSORB)) node net u.d := by
  have hlen : (hLen u.d).toNat = 0 ↔ hLen u.d = 0 := BitVec.toNat_inj (y := 0#5)
  simp only [headAbsorb, absorbedIn, hlen]

theorem headAbsorb_mesh (s : State) (net : Net) (r : Fin 64) (inp : Dir) (u : LinkUnit) (node : BitVec 7) (ans : Option Status) :
    let t := headAbsorb s net r.val inp u node ans
    t.mesh = (rinSet s net r.val inp (absorbedIn (rinGet s net r.val inp) u ans)).mesh ∧ PortsOnly s t := by
  dsimp only
  rw [headAbsorb_eq]
  exact ⟨(swallow_mesh ..).trans (bump_mesh ..),
    ((rinSet_frame ..).toPorts.trans (bump_shape ..).toPorts).trans (swallow_frame ..)⟩

/-! ## The rules -/

theorem headIsRouted : Rules.HeadIsRouted := by
  intro s net r inp u x tgt out rt a hl hr ha hg hu hlen hd
  obtain ⟨hins, hnodes, hframe⟩ := headRoute_mesh s net r inp u rt
  obtain ⟨hin, hother⟩ := InputBecomes.of_ins hins
  refine ⟨_, headArrival_routes ⟨hl, hr, ha⟩ ⟨hg, hu, hlen⟩ hd, hin, hother, fun hfree => ?_, fun hheld => ?_, hnodes, hframe⟩
  · rw [headRoute_free hfree]; rfl
  · exact ((headRoute_held hheld).arbGet ..).trans (arbGet_arbSet_same ..)

theorem headIsAbsorbed : Rules.HeadIsAbsorbed := by
  intro s net r inp u ans x tgt hl hr ha hg hu hlen hloc hd
  obtain ⟨hmesh, hports⟩ := headAbsorb_mesh s net r inp u tgt ans
  obtain ⟨hin, hother⟩ := InputBecomes.of_ins (congrArg (·.ins) hmesh)
  exact ⟨_, headArrival_absorbs ⟨hl, hr, ha⟩ ⟨hg, hu, hlen⟩ hloc hd, hin, hother, congrArg (·.nodes) hmesh, hports⟩

/-- R22: no LINKPAR fault is raised, for only an error-free head with a reserved LEN raises one (R56). -/
theorem badHeadIsDiscarded : Rules.BadHeadIsDiscarded := by
  intro s net r inp u x hl hr ha hbad
  have hquiet : ¬(unitGood u = true ∧ utOf u.d = 1) := by
    rintro ⟨hg, hu⟩
    rcases hbad with hb | hb
    · simp [hg] at hb
    · exact hb hu
  rw [headArrival_discards ⟨hl, hr, ha⟩ hbad]
  exact congrArg _ (if_neg hquiet)

/-- Settles O3: what becomes of a head at its router. -/
theorem headsAreRouted : Obligations.HeadsAreRouted := ⟨headIsRouted, headIsAbsorbed, badHeadIsDiscarded⟩

end Sys2Proof.Machine
end

section
/-!
The handshake family: the parity of every unit; one unit over a hop, from a node into the mesh, and from the mesh to its node; the two delay
lines of a router change places.
-/
namespace Sys2Proof.Machine

variable {s t u : State} {net : Net} {r r2 : Fin 64} {inp out d2 : Dir} {w : LinkUnit} {node : BitVec 7} {q : NodeQ}

/-! ## Parity -/

/-- R20: LNK_P is set exactly when the 48 bits hold an even number of ones. -/
theorem parityOf_eq (d : BitVec 48) :
    parityOf d = !decide (((List.range 48).filter (fun k => d.getLsbD k)).length % 2 = 1) :=
  congrArg _ (oddOnes_count 48 d.toNat)

theorem count_add_evenBit (n : Nat) : (n + (!decide (n % 2 = 1)).toNat) % 2 = 1 := by
  by_cases h : n % 2 = 1
  · simp [h]
  · simp [h]; omega

/-- Settles O1: LNK_P counts the ones of the unit. -/
theorem linkParityOfEveryUnit : Obligations.LinkParityOfEveryUnit := by
  refine fun d => ⟨?_, ?_⟩
  · rw [parityOf_eq]
    exact count_add_evenBit _
  · simp [parityOf_eq]

/-! ## What a unit on the move leaves alone -/

/-- The packets at every node are as they were, and so is all but the mesh, the event counters and the pending host events. -/
def NodesKept (s t : State) : Prop := t.mesh.nodes = s.mesh.nodes ∧ MeshOnly s t

theorem NodesKept.trans (h : NodesKept s t) (g : NodesKept t u) : NodesKept s u := ⟨g.1.trans h.1, h.2.trans g.2⟩

theorem NodesKept.nodeGet (h : NodesKept s t) (k : BitVec 7) (m : Net) : Machine.nodeGet t k m = Machine.nodeGet s k m := by
  unfold Machine.nodeGet; rw [h.1]

theorem CountsOnly.nodesKept (h : CountsOnly s t) : NodesKept s t := ⟨congrArg (·.nodes) h.mesh, h.toMesh⟩

/-- From s to t one node's queues on one network became q; those of every other node and network are as they were. -/
def NodeBecomes (s t : State) (node : BitVec 7) (net : Net) (q : NodeQ) : Prop :=
  nodeGet t node net = q ∧
  (∀ (k : BitVec 7) (m : Net), ¬(k = node ∧ m = net) → nodeGet t k m = nodeGet s k m) ∧ MeshOnly s t

theorem nodeBecomes_nodeSet (s : State) (node : BitVec 7) (net : Net) (q : NodeQ) : NodeBecomes s (nodeSet s node net q) node net q :=
  ⟨nodeGet_nodeSet_same .., fun _ _ h => nodeGet_nodeSet_ne _ _ _ _ _ _ h, nodeSet_frame ..⟩

theorem NodeBecomes.after (hk : NodesKept s t) (h : NodeBecomes t u node net q) : NodeBecomes s u node net q := by
  obtain ⟨hq, hother, hframe⟩ := h
  exact ⟨hq, fun k m hne => (hother k m hne).trans (hk.nodeGet k m), hk.2.trans hframe⟩

theorem NodeBecomes.kept (h : NodeBecomes s t node net q) (hk : NodesKept t u) : NodeBecomes s u node net q := by
  obtain ⟨hq, hother, hframe⟩ := h
  exact ⟨(hk.nodeGet ..).trans hq, fun k m hne => (hk.nodeGet k m).trans (hother k m hne), hframe.trans hk.2⟩

/-! ## A unit leaves its input latch -/

/-- R17, R25: the unit has left input `inp` through output `out`: counted, and a handshake of the delay line. -/
def unitOut (s : State) (net : Net) (r : Fin 64) (inp out : Dir) (side : Nat) : State :=
  shake (bump (rinLeave s net r inp (.out out)) (.router r) (routerEv net side kUNITOUT)) net r out

theorem unitOut_spec (s : State) (net : Net) (r : Fin 64) (inp out : Dir) (side : Nat) :
    (rinGet (unitOut s net r inp out side) net r inp).latch = none ∧
    (∀ (m : Net) (q : Fin 64) (e : Dir), ¬(m = net ∧ q = r ∧ e = inp) →
      rinGet (unitOut s net r inp out side) m q e = rinGet s m q e) ∧
    NodesKept s (unitOut s net r inp out side) := by
  obtain ⟨hlatch, hother, hkept⟩ := rinLeave_spec s net r inp (.out out)
  have hcount := bump_shape (rinLeave s net r inp (.out out)) (.router r) (routerEv net side kUNITOUT)
  refine ⟨?_, fun m q e hne => ?_, (NodesKept.trans hkept hcount.nodesKept).trans ⟨rfl, delaySet_frame ..⟩⟩
  · exact (congrArg RIn.latch (hcount.rinGet net r inp)).trans hlatch
  · exact (hcount.rinGet m q e).trans (hother m q e hne)

/-! ## Over a hop -/

theorem transferHop_moves (hn : neighbour r.val out = some (r2.val, d2)) (hh : heldUnit s net r.val out = some (inp, w))
    (hf : rinFree s net r2.val d2 = true) :
    transferHop s net r.val out 0 = routerTake (unitOut s net r inp out (dirIx out)) net r2.val d2 w (unitGood w) := by
  simp only [transferHop, hn, hh, hf, noise_zero, unitOut, Bool.true_eq_false, if_false]

theorem unitTransfer_hop (hn : neighbour r.val out = some (r2.val, d2)) :
    exec (.unitTransfer (.hop net r out) 0) s = .next (transferHop s net r.val out 0) := by
  change execUnitTransfer (.hop net r out) 0 s = _
  simp only [execUnitTransfer, hn]

theorem unitCrossesHop : Rules.UnitCrossesHop := by
  intro s net r r2 out inp d2 w hn hh hf ha hl hg
  have hrr : r2 ≠ r := neighbour_ne hn
  obtain ⟨hlatch, hother, hkept⟩ := unitOut_spec s net r inp out (dirIx out)
  have hin : rinGet (unitOut s net r inp out (dirIx out)) net r2.val d2 = rinGet s net r2.val d2 :=
    hother net r2 d2 fun h => hrr h.2.1
  obtain ⟨htaken, hrest, hnodes⟩ := routerTake_spec (unitOut s net r inp out (dirIx out)) net r2 d2 w (unitGood w)
    (by rw [hin]; exact ha) (by rw [hin]; exact hl) hg
  obtain ⟨hn', hm'⟩ := hkept.trans hnodes
  rw [unitTransfer_hop hn, transferHop_moves hn hh hf]
  refine ⟨_, rfl, ?_, htaken, fun m q e h1 h2 => (hrest m q e h2).trans (hother m q e h1), hn', hm'⟩
  rw [hrest net r inp fun h => hrr h.2.1.symm]
  exact hlatch

/-! ## From a node into the mesh -/

/-- R180, R214: the link into the router is free again: a gateway, or the send buffer of a port, takes its next unit to it. -/
def linkFreed (s : State) (net : Net) (node : BitVec 7) : State :=
  if node = nodeGateA then meshFromSeams s .a
  else if node = nodeGateB then meshFromSeams s .b
  else if nodeSlotB node = false ∧ net = .snp then watchPump s (nodeRouter node)
  else s

theorem linkFreed_ins (s : State) (net : Net) (node : BitVec 7) : (linkFreed s net node).mesh.ins = s.mesh.ins := by
  unfold linkFreed
  split
  · exact meshFromSeams_ins ..
  · split
    · exact meshFromSeams_ins ..
    · split
      · exact watchPump_ins ..
      · rfl

theorem linkFreed_other (hA : node ≠ nodeGateA) (hB : node ≠ nodeGateB) (hs : nodeSlotB node = true ∨ net ≠ .snp) :
    linkFreed s net node = s := by
  have hw : ¬(nodeSlotB node = false ∧ net = .snp) := by
    rintro ⟨hb, hn⟩
    rcases hs with h | h
    · simp [h] at hb
    · exact h hn
  simp only [linkFreed, if_neg hA, if_neg hB, if_neg hw]

/-- R17: the node has given up its unit w, and us are left to send; a port counts it. -/
def unitSent (s : State) (net : Net) (node : BitVec 7) (w : LinkUnit) (us : List LinkUnit) : State :=
  let s1 := nodeMod s node net (fun q => { q with out := us })
  if nodeSlotB node then s1
  else
    let t := bump s1 (.port (nodeRouter node)) (pUNITSENT net)
    let t1 := if utOf w.d = 1 ∧ net ≠ .rsp then bump t (.port (nodeRouter node)) (pREQSENT net) else t
    if utOf w.d = 1 ∧ net = .snp then bump t1 (.port (nodeRouter node)) pWSENT else t1

theorem CountsOnly.iteBump (h : CountsOnly s t) (c : Prop) [Decidable c] (b : Blk) (k : Nat) :
    CountsOnly s (if c then bump t b k else t) := by
  split
  · exact h.trans (bump_shape ..)
  · exact h

theorem unitSent_counts (s : State) (net : Net) (node : BitVec 7) (w : LinkUnit) (us : List LinkUnit) :
    CountsOnly (nodeMod s node net (fun q => { q with out := us })) (unitSent s net node w us) := by
  unfold unitSent
  split
  · exact .refl _
  · exact ((bump_shape ..).iteBump ..).iteBump ..

/-- R17, R61: what driving a unit does: the node gives it up, its router captures it, the arbiter of the local input goes on. -/
theorem transferInject_drives {us : List LinkUnit} (ho : (nodeGet s node net).out = w :: us)
    (ha : (arbGet s net (nodeRouter node) .localIn).holder = some (if nodeSlotB node then 1 else 0))
    (hf : rinFree s net (nodeRouter node) .loc = true) (hm : domOn s 64 = true) :
    ∃ a, transferInject s net node 0 =
      linkFreed (arbSet (routerTake (unitSent s net node w us) net (nodeRouter node) .loc w true) net (nodeRouter node) .localIn a)
        net node := by
  apply Exists.intro
  simp only [transferInject, ho, ha, hf, hm, noise_zero, ne_eq, not_true, Bool.true_eq_false, or_false, if_false]
  rfl

theorem nodeDrivesUnit : Rules.NodeDrivesUnit := by
  intro s net node r w us hr ho ha hf hm hab hl hg
  obtain ⟨a, hdrive⟩ := transferInject_drives ho (hr ▸ ha) (hr ▸ hf) hm
  rw [← hr] at hdrive
  have hsent := unitSent_counts s net node w us
  have hin : ∀ (m : Net) (q : Nat) (e : Dir), rinGet (unitSent s net node w us) m q e = rinGet s m q e := hsent.rinGet
  obtain ⟨htaken, hrest, hkept⟩ := routerTake_spec (unitSent s net node w us) net r .loc w true
    (by rw [hin]; exact hab) (by rw [hin]; exact hl) hg
  generalize routerTake (unitSent s net node w us) net r.val .loc w true = v at hdrive htaken hrest hkept
  have hins : ∀ (m : Net) (q : Nat) (e : Dir), rinGet (linkFreed (arbSet v net r.val .localIn a) net node) m q e = rinGet v m q e :=
    rinGet_ins (linkFreed_ins ..)
  refine ⟨_, congrArg Host.Outcome.next hdrive, ?_, fun m q e h => ?_, fun hA hB hs => ?_⟩
  · rw [hins]; exact htaken
  · rw [hins, hrest m q e h, hin]
  · rw [linkFreed_other hA hB hs]
    exact ((nodeBecomes_nodeSet s node net _).kept (hsent.nodesKept.trans hkept)).kept ⟨rfl, arbSet_frame ..⟩

/-! ## From the mesh into a node -/

theorem transferDeliver_moves {b : Bool} (hh : heldUnit s net r.val .loc = some (inp, w))
    (hr : (rinGet s net r.val inp).route = some { out := .loc, slot := b })
    (hA : slotNode r.val b ≠ nodeGateA) (hB : slotNode r.val b ≠ nodeGateB) (hroom : nodeRoom s (slotNode r.val b) net = true) :
    transferDeliver s net r.val b 0 =
      nodeTake (unitOut s net r inp .loc (outSide { out := .loc, slot := b })) (slotNode r.val b) net w := by
  simp [transferDeliver, hh, hr, hA, hB, hroom, unitOut]

/-- R22: the node can use the unit: it continues a packet, or is an error-free head whose LEN is no reserved code. -/
def Continues (q : NodeQ) (w : LinkUnit) : Prop := q.part ≠ [] ∨ SoundHead w

/-- R21: the unit counted, where its port counts it. -/
def unitSeen (s : State) (node : BitVec 7) (w : LinkUnit) : State :=
  if nodeSlotB node = false ∧ unitPoisoned w = true then bump s (.port (nodeRouter node)) pPARITY else s

theorem unitSeen_counts (s : State) (node : BitVec 7) (w : LinkUnit) : CountsOnly s (unitSeen s node w) :=
  (CountsOnly.refl s).iteBump ..

theorem Continues.kept (h : Continues q w) : ¬(q.part.isEmpty = true ∧ (utOf w.d ≠ 1 ∨ unitGood w = false ∨ lenGood w.d = false)) := by
  rintro ⟨he, hbad⟩
  rcases h with hp | ⟨hg, hu, hlen⟩
  · exact hp (List.isEmpty_iff.mp he)
  · simp [hg, hu, hlen] at hbad

/-- R32: what becomes of a unit that its node can use. -/
theorem nodeTake_uses {h : LinkUnit} {tl : List LinkUnit} (hc : Continues (nodeGet s node net) w)
    (hpart : (nodeGet s node net).part ++ [w] = h :: tl) :
    ((h :: tl).length ≤ (hLen h.d).toNat →
      nodeTake s node net w = nodeSet (unitSeen s node w) node net { nodeGet s node net with part := h :: tl }) ∧
    (∀ p, (hLen h.d).toNat < (h :: tl).length → parsePkt (h :: tl) = some p →
      nodeTake s node net w = nodeArrive (unitSeen s node w) node net p) := by
  have hq : nodeGet (unitSeen s node w) node net = nodeGet s node net := (unitSeen_counts s node w).nodeGet ..
  refine ⟨fun hshort => ?_, fun p hlong hp => ?_⟩
  · simp only [nodeTake, ← unitSeen.eq_def, hq, if_neg hc.kept, hpart, if_pos hshort]
  · simp only [nodeTake, ← unitSeen.eq_def, hq, if_neg hc.kept, hpart, if_neg (Nat.not_le.mpr hlong), hp]

theorem MeshOnly.nodeTakes (h : MeshOnly s t) (node : BitVec 7) : Machine.nodeTakes t node = Machine.nodeTakes s node := by
  unfold Machine.nodeTakes sysOn domOn domGet portGet; rw [h]

/-- R271: a packet that its node still takes waits there, whole. -/
theorem nodeArrive_takes {p : Pkt} (ht : nodeTakes s node = true) (hs : ¬(nodeSlotB node = true ∧ net = .snp)) :
    nodeArrive s node net p = nodeMod s node net (fun q => { q with part := [], rx := q.rx ++ [p] }) := by
  simp only [nodeArrive, if_neg hs, if_pos ht]

/-- The unit's way from the input that holds the local output, when the node's new queues are known. -/
theorem deliver_becomes {b : Bool} (hh : heldUnit s net r.val .loc = some (inp, w))
    (hr : (rinGet s net r.val inp).route = some { out := .loc, slot := b })
    (hA : slotNode r.val b ≠ nodeGateA) (hB : slotNode r.val b ≠ nodeGateB) (hroom : nodeRoom s (slotNode r.val b) net = true)
    (htake : ∀ v, NodesKept s v →
      nodeTake v (slotNode r.val b) net w = nodeSet (unitSeen v (slotNode r.val b) w) (slotNode r.val b) net q) :
    ∃ t, exec (.unitTransfer (.deliver net r b) 0) s = .next t ∧ (rinGet t net r.val inp).latch = none ∧
      NodeBecomes s t (slotNode r.val b) net q := by
  obtain ⟨hlatch, -, hkept⟩ := unitOut_spec s net r inp .loc (outSide { out := .loc, slot := b })
  have hmove := transferDeliver_moves hh hr hA hB hroom
  rw [htake _ hkept] at hmove
  have hseen := unitSeen_counts (unitOut s net r inp .loc (outSide { out := .loc, slot := b })) (slotNode r.val b) w
  refine ⟨_, congrArg Host.Outcome.next hmove, ?_, (nodeBecomes_nodeSet ..).after (hkept.trans hseen.nodesKept)⟩
  rw [rinGet_nodeSet, hseen.rinGet]
  exact hlatch

theorem nodeTakesUnit : Rules.NodeTakesUnit := by
  intro s net r b inp w hh hr node q hA hB hroom hcont
  obtain ⟨h, tl, hpart⟩ := List.exists_cons_of_ne_nil (List.append_ne_nil_of_right_ne_nil q.part (List.cons_ne_nil w []))
  have hcont' : Continues q w := hcont.imp_right fun ⟨hu, hg, hlen⟩ => ⟨hg, hu, hlen⟩
  have huse : ∀ v, NodesKept s v → _ := fun v hv =>
    nodeTake_uses (s := v) (node := node) (net := net) (by rw [hv.nodeGet]; exact hcont') (by rw [hv.nodeGet]; exact hpart)
  refine ⟨fun hshort => deliver_becomes hh hr hA hB hroom fun v hv => ?_,
    fun p hlong hp ht hs => deliver_becomes hh hr hA hB hroom fun v hv => ?_⟩
  · rw [hpart] at hshort ⊢
    rw [(huse v hv).1 (hshort h rfl), hv.nodeGet]
  · rw [hpart] at hlong hp
    have htakes : nodeTakes (unitSeen v node w) node = true := by
      rw [(hv.2.trans (unitSeen_counts v node w).toMesh).nodeTakes]; exact ht
    rw [(huse v hv).2 p (hlong h rfl) hp, nodeArrive_takes htakes hs]
    unfold nodeMod
    rw [(hv.trans (unitSeen_counts v node w).nodesKept).nodeGet]

/-- Settles O2: a unit over a hop, into the mesh, and to its node. -/
theorem unitsMoveOverLinks : Obligations.UnitsMoveOverLinks := ⟨unitCrossesHop, nodeDrivesUnit, nodeTakesUnit⟩

/-! ## Delay lines -/

/-- Settles O5: one of the two reasons of R25 is what the row looks for in the counts. -/
theorem delayLinesChangePlaces : Obligations.DelayLinesChangePlaces := by
  intro s r tap x hdue hbetween hon
  have hready : (x.due || x.shakes.any (fun e => decide (4096 ≤ e.2))) = true := by
    rcases hdue with hd | ⟨e, he, hmany⟩
    · simp [hd]
    · have hany : x.shakes.any (fun e => decide (4096 ≤ e.2)) = true := List.any_eq_true.mpr ⟨e, he, decide_eq_true hmany⟩
      rw [hany, Bool.or_true]
  exact if_pos (by rw [hready, hbetween, hon]; rfl)

end Sys2Proof.Machine
end

section
/-!
The handshake family: every command whose operands name an event that can occur answers with a next state; a hop off the grid and a SYNC16
write without 1 to 32 beats stop under the name of their row.
-/
namespace Sys2Proof.Machine

variable {s : State}

/-! ## Answers, by the conditions that a row tries in turn -/

/-- The row answers with a next state. -/
def Answers (o : Res) : Prop := ∃ t, o = .next t

theorem answers_next {t : State} : Answers (.next t) := ⟨t, rfl⟩

theorem answers_ite {c : Prop} [Decidable c] {a b : Res} (ha : Answers a) (hb : Answers b) : Answers (if c then a else b) := by
  split
  · exact ha
  · exact hb

theorem answers_one {c : Prop} [Decidable c] {a b : State} : Answers (if c then .next a else .next b) :=
  answers_ite answers_next answers_next

theorem answers_two {c d : Prop} [Decidable c] [Decidable d] {x y z : State} :
    Answers (if c then .next x else if d then .next y else .next z) :=
  answers_ite answers_next answers_one

theorem answers_three {c d e : Prop} [Decidable c] [Decidable d] [Decidable e] {w x y z : State} :
    Answers (if c then .next w else if d then .next x else if e then .next y else .next z) :=
  answers_ite answers_next answers_two

/-! ## Rows that look at what waits, or at whose turn it is -/

theorem execRouterHeadArrival_answers (net : Net) (r : Fin 64) (inp : Dir) : Answers (execRouterHeadArrival net r inp s) := by
  unfold execRouterHeadArrival
  dsimp only
  split
  · refine answers_ite answers_next (answers_ite ?_ answers_next)
    split <;> exact answers_next
  · exact answers_next

theorem execIntakeDecode_answers (n : Fin 64) : Answers (execIntakeDecode n s) := by
  unfold execIntakeDecode
  refine answers_ite answers_next ?_
  split
  · exact answers_next
  · exact answers_one
  · refine answers_ite answers_next ?_
    split
    · exact answers_next
    · exact answers_next
    · split
      · exact answers_next
      · exact answers_one
      · exact answers_one

theorem execResponseMatch_answers (node : BitVec 7) : Answers (execResponseMatch node s) := by
  unfold execResponseMatch
  split
  · exact answers_next
  · dsimp only
    split
    · exact answers_one
    · exact answers_one
    · exact answers_next

theorem execTagTimeout_answers (who : Holder) (tag : Byte) : Answers (execTagTimeout who tag s) := by
  refine answers_ite answers_next ?_
  cases who <;> exact answers_one

theorem execWakeRetry_answers (n : Fin 64) (tag : Byte) : Answers (execWakeRetry n tag s) := by
  unfold execWakeRetry
  refine answers_ite answers_next ?_
  split
  · exact answers_next
  · exact answers_one

theorem execCmdRead_answers (node : BitVec 7) (busyN : Bool) : Answers (execCmdRead node busyN s) := by
  unfold execCmdRead; dsimp only
  split <;> exact answers_next

theorem execCmdWrite_answers (node : BitVec 7) (net : Net) (busyN : Bool) : Answers (execCmdWrite node net busyN s) := by
  unfold execCmdWrite
  split <;> exact answers_next

theorem execCmdProbe_answers (node : BitVec 7) : Answers (execCmdProbe node s) := by
  unfold execCmdProbe; dsimp only
  split <;> exact answers_next

theorem execCmdFence_answers (node : BitVec 7) : Answers (execCmdFence node s) := by
  unfold execCmdFence; dsimp only
  split
  · exact answers_next
  · exact answers_one

theorem execFenceComplete_answers (node : BitVec 7) : Answers (execFenceComplete node s) := by
  unfold execFenceComplete
  split
  · exact answers_one
  · exact answers_next

theorem execTargetRequestDone_answers (n : Fin 64) (dev : List DevBeat) : Answers (execTargetRequestDone n dev s) := by
  unfold execTargetRequestDone; dsimp only
  split
  · exact answers_next
  · refine answers_ite answers_next ?_
    split <;> exact answers_next

theorem execWatchSendTimeout_answers (n : Fin 64) : Answers (execWatchSendTimeout n s) := by
  unfold execWatchSendTimeout
  split
  · exact answers_next
  · exact answers_one

theorem execWatchArrival_answers (n : Fin 64) (busyN : Bool) : Answers (execWatchArrival n busyN s) := by
  unfold execWatchArrival
  refine answers_ite answers_next ?_
  split
  · exact answers_one
  · split
    · exact answers_next
    · exact answers_ite answers_next answers_three

theorem execWatchReplayDone_answers (n : Fin 64) : Answers (execWatchReplayDone n s) := by
  unfold execWatchReplayDone
  split
  · exact answers_one
  · exact answers_next

theorem execPause_answers : Answers (execPause s) := by
  refine answers_ite ?_ answers_one
  split
  · exact answers_one
  · exact answers_next

theorem execQuiet_answers (ring : Ring) : Answers (execQuiet ring s) := by
  refine answers_ite answers_next (answers_ite ?_ answers_one)
  split
  · exact answers_three
  · exact answers_next

theorem execGrant_answers (chip : Byte) : Answers (execGrant chip s) := by
  refine answers_ite (answers_ite ?_ answers_next) answers_one
  split <;> exact answers_next

theorem execClientClaim_answers (who : ClaimFrom) : Answers (execClientClaim who s) := by
  unfold execClientClaim
  refine answers_ite answers_next ?_
  split
  · split
    · exact answers_next
    · exact answers_two
  · refine answers_ite answers_next (answers_ite answers_next ?_)
    split <;> exact answers_next

theorem execAuthorityCopy_answers (schip ochip ocid : Byte) (words : List (Byte × Byte)) :
    Answers (execAuthorityCopy schip ochip ocid words s) := by
  refine answers_ite answers_next (answers_ite answers_next (answers_ite ?_ answers_one))
  dsimp only
  split <;> exact answers_next

theorem execRegulatorPoll_answers (ack : Bool) (status : Half) : Answers (execRegulatorPoll ack status s) := by
  unfold execRegulatorPoll; dsimp only
  split
  · exact answers_next
  · refine answers_ite ?_ answers_next
    split <;> exact answers_next

theorem execRegtoExpiry_answers : Answers (execRegtoExpiry s) := by
  unfold execRegtoExpiry
  split
  · exact answers_next
  · refine answers_ite answers_next ?_
    split <;> exact answers_next

theorem execRungReady_answers (sub : Subject) : Answers (execRungReady sub s) := by
  unfold execRungReady
  split
  · split <;> exact answers_next
  · refine answers_ite answers_next ?_
    split <;> exact answers_next

theorem execRungTimeout_answers (sub : Subject) : Answers (execRungTimeout sub s) := by
  unfold execRungTimeout
  split
  · split <;> exact answers_next
  · exact answers_three

theorem execRungRetry_answers (sub : Subject) : Answers (execRungRetry sub s) := by
  cases sub with
  | chip => exact answers_next
  | dom d => exact answers_one

theorem execTackReadDone_answers : Answers (execTackReadDone s) := by
  unfold execTackReadDone
  split
  · exact answers_one
  · exact answers_next

theorem execJournalArrayWrite_answers (readsBack : Bool) (pick : Nat) : Answers (execJournalArrayWrite readsBack pick s) := by
  unfold execJournalArrayWrite
  refine answers_ite answers_next ?_
  split
  · exact answers_next
  · exact answers_one

theorem execCvalRead_answers : Answers (execCvalRead s) := by
  unfold execCvalRead
  split <;> exact answers_next

/-! ## The two rows with operands that name no event -/

/-- R10, R16: the grid of the well-formedness check is the one that units cross. -/
theorem neighbour_isSome (r : Nat) (d : Dir) : (neighbour r d).isSome = hasNeighbour r d := by
  have hguard : ∀ (c : Prop) [Decidable c] (x : Nat × Dir), (if c then some x else none).isSome = decide c := fun c _ x => by
    by_cases h : c <;> simp [h]
  cases d with
  | loc => rfl
  | _ => exact hguard _ _

theorem execUnitTransfer_hop {net : Net} {r : Fin 64} {out : Dir} (noise : BitVec 49) :
    (hasNeighbour r.val out = true → Answers (execUnitTransfer (.hop net r out) noise s)) ∧
    (hasNeighbour r.val out = false → execUnitTransfer (.hop net r out) noise s = .fault (.illFormed "UNIT_TRANSFER")) := by
  rw [← neighbour_isSome]
  unfold execUnitTransfer
  dsimp only
  cases neighbour r.val out with
  | none => exact ⟨nofun, fun _ => rfl⟩
  | some x => exact ⟨fun _ => answers_next, nofun⟩

/-- R107, R108. -/
theorem execSync16Write_beats (n : Fin 64) (c1 c2 : Beat) (beats : List Beat) :
    ((0 < beats.length ∧ beats.length ≤ 32) → Answers (execSync16Write n c1 c2 beats s)) ∧
    (¬(0 < beats.length ∧ beats.length ≤ 32) → execSync16Write n c1 c2 beats s = .fault (.illFormed "SYNC16_WRITE")) := by
  unfold execSync16Write
  refine ⟨fun h => ?_, fun h => if_pos (by omega)⟩
  rw [if_neg (by omega)]
  exact answers_one

/-! ## Every row -/

theorem exec_answers (i : Instr) (h : i.wf = true) : Answers (exec i s) := by
  cases i with
  | unitTransfer l noise =>
    cases l with
    | inject net node => exact answers_next
    | hop net r out => exact (execUnitTransfer_hop noise).1 h
    | deliver net r b => exact answers_next
  | sync16Write n c1 c2 beats => exact (execSync16Write_beats n c1 c2 beats).1 (by simpa [Instr.wf] using h)
  | routerHeadArrival net r inp => exact execRouterHeadArrival_answers net r inp
  | intakeDecode n => exact execIntakeDecode_answers n
  | responseMatch node => exact execResponseMatch_answers node
  | tagTimeout who tag => exact execTagTimeout_answers who tag
  | wakeRetry n tag => exact execWakeRetry_answers n tag
  | cmdRead node busyN => exact execCmdRead_answers node busyN
  | cmdWrite node net busyN => exact execCmdWrite_answers node net busyN
  | cmdProbe node => exact execCmdProbe_answers node
  | cmdFence node => exact execCmdFence_answers node
  | fenceComplete node => exact execFenceComplete_answers node
  | targetRequestDone n dev => exact execTargetRequestDone_answers n dev
  | watchSendTimeout n => exact execWatchSendTimeout_answers n
  | watchArrival n busyN => exact execWatchArrival_answers n busyN
  | watchReplayDone n => exact execWatchReplayDone_answers n
  | pause => exact execPause_answers
  | quiet ring => exact execQuiet_answers ring
  | grant chip => exact execGrant_answers chip
  | clientClaim who => exact execClientClaim_answers who
  | authorityCopy schip ochip ocid words => exact execAuthorityCopy_answers schip ochip ocid words
  | regulatorPoll ack status => exact execRegulatorPoll_answers ack status
  | regtoExpiry => exact execRegtoExpiry_answers
  | rungReady sub => exact execRungReady_answers sub
  | rungTimeout sub => exact execRungTimeout_answers sub
  | rungRetry sub => exact execRungRetry_answers sub
  | tackReadDone => exact execTackReadDone_answers
  | journalArrayWrite readsBack pick => exact execJournalArrayWrite_answers readsBack pick
  | cvalRead => exact execCvalRead_answers
  | ctlpar ring => exact answers_ite answers_next (by cases ring <;> exact answers_next)
  | registerWrite w => cases w <;> exact answers_next
  | registerReadClear r => cases r <;> exact answers_next
  | busClaim | masterSelfSplice => exact answers_ite answers_one answers_next
  | accessCapture => exact answers_ite answers_next (answers_ite answers_one answers_next)
  | roll => exact answers_ite answers_next (answers_ite answers_next (answers_ite answers_one answers_next))
  | pulse => exact answers_ite answers_one (answers_ite answers_one answers_next)
  | joinSlot => exact answers_ite answers_three answers_next
  | nopulse => exact answers_ite answers_next (answers_ite answers_one answers_one)
  | seamUnit => exact answers_ite answers_next (answers_ite answers_next (answers_ite answers_one answers_next))
  | release | ringFaultMsg | rollend | rollstart => exact answers_three
  | abort | credit | directoryCopy | dup | eject | join | leave | ringResetNotice => exact answers_two
  | bulkPromotion | delayLineSwap | isoFrameBoundary | strobeRelease | staleTagExpiry | watchReplayTimeout | pirqActivation
  | pirqRepeat | clockStopped | pulseTimer | resume | table | abortRepeat | ringtoExpiry | votePaceExpiry | wakeHoldExpiry
  | hemDrainDone | draintoExpiry | wakeHoldoffExpiry | ralert | pllLoss | supplyWarning | hushEnd | vcoreReset | vnvWarning
  | vioLow | powerOn | resetPin | rtcStep | patrolDue | rtcStopDetect | targetTimeout | portQuietExpiry | gatherDone
  | bwWindowBoundary | ringResetDelay | extest | highz | clamp | tapTestExit | ringManagementResend | ringResetNoAnswer
  | resetRelease | pirqDeactivation | sync16ReservedOp => exact answers_one
  | _ => exact answers_next

/-- No operand of any other row is ill-formed. -/
theorem exec_illFormed (i : Instr) (h : i.wf = false) : ∃ row, exec i s = .fault (.illFormed row) := by
  cases i with
  | unitTransfer l noise =>
    cases l with
    | hop net r out => exact ⟨_, (execUnitTransfer_hop noise).2 h⟩
    | _ => exact nomatch h
  | sync16Write n c1 c2 beats => exact ⟨_, (execSync16Write_beats n c1 c2 beats).2 (by simpa [Instr.wf] using h)⟩
  | _ => exact nomatch h

/-- Settles O59: the rows' answers, and the stops of the two that have ill-formed operands. -/
theorem everyWellFormedCommandAnswers : Obligations.EveryWellFormedCommandAnswers :=
  fun i _ => ⟨exec_answers i, exec_illFormed i⟩

end Sys2Proof.Machine
end

section
/-!
The units and packets family: a request that a port answers itself (R57, R115), and PROBE, FENCE and the end of a FENCE at a port
(R47, R48).
-/
namespace Sys2Proof.Machine

variable {s : State} {n : Fin 64} {net : Net} {q : Pkt} {more : List Pkt} {st : Status} {busyN : Bool} {dev : List DevBeat}

/-! ## Rows at a port -/

theorem serverOf_portNode (n : Fin 64) : serverOf (portNode n.val) = .port n.val := by
  obtain ⟨hslot, hrouter⟩ := portNode_facts n
  rw [serverOf, if_pos hslot, hrouter]

theorem exec_cmdRead_port : exec (.cmdRead (portNode n.val) busyN) s =
    .next (portRead s n.val (netWith s (portNode n.val) isReadOp) busyN) := by
  change execCmdRead _ _ s = _
  simp only [execCmdRead, serverOf_portNode]

theorem exec_cmdWrite_port : exec (.cmdWrite (portNode n.val) net busyN) s = .next (portWrite s n.val net busyN) := by
  change execCmdWrite _ _ _ s = _
  simp only [execCmdWrite, serverOf_portNode]

theorem atomicTake_port (op : Op) : atomicTake op (portNode n.val) busyN dev s =
    portAtomic s n.val (netWith s (portNode n.val) (fun o => decide (o = op))) op busyN dev := by
  simp only [atomicTake, serverOf_portNode]

theorem exec_cmdProbe_port : exec (.cmdProbe (portNode n.val)) s =
    .next (portProbe s n.val (netWith s (portNode n.val) (fun o => decide (o = .probe)))) := by
  change execCmdProbe _ s = _
  simp only [execCmdProbe, serverOf_portNode]

theorem exec_cmdFence_port : exec (.cmdFence (portNode n.val)) s =
    .next (portFence s n.val (netWith s (portNode n.val) (fun o => decide (o = .fence)))) := by
  change execCmdFence _ s = _
  simp only [execCmdFence, serverOf_portNode]

theorem exec_fenceComplete_port (h : niServes s n.val = true) :
    exec (.fenceComplete (portNode n.val)) s = .next (portFenceDone s n.val) := by
  change execFenceComplete _ s = _
  simp only [execFenceComplete, serverOf_portNode, if_pos h]

/-! ## The oldest request of a network -/

/-- R80: port n serves requests, has room on RSP for an answer, and q is the oldest request that waits on the network. -/
structure Waits (s : State) (n : Fin 64) (net : Net) (q : Pkt) (more : List Pkt) : Prop where
  serves : niServes s n.val = true
  room : (nodeGet s (portNode n.val) .rsp).out = []
  oldest : (nodeGet s (portNode n.val) net).rx = q :: more

theorem Waits.head (h : Waits s n net q more) : rxHead s (portNode n.val) net = some q := rxHead_some h.room h.oldest

/-! ## Turned away -/

theorem tgtTake_turnsAway {sel : Op → Bool} {plan : Pkt → Option (List BusCycle × List Word × List DataUnit)} (h : Waits s n net q more)
    (hsel : sel (opOf q.cmd) = true) (hj : judge s n.val q = .answer st) :
    tgtTake s n.val net sel busyN plan = turnAway s n.val net q (.answer st) := by
  simp only [tgtTake, h.serves, h.head, hsel, hj, Bool.true_eq_false, if_false]

theorem atomicTake_turnsAway {op : Op} (h : Waits s n net q more)
    (hnet : net = netWith s (portNode n.val) (fun o => decide (o = op))) (hop : opOf q.cmd = op) (hj : judge s n.val q = .answer st) :
    atomicTake op (portNode n.val) busyN dev s = turnAway s n.val net q (.answer st) := by
  rw [atomicTake_port, ← hnet]
  exact tgtTake_turnsAway h (decide_eq_true hop) hj

theorem portProbe_turnsAway (h : Waits s n net q more) (hop : opOf q.cmd = .probe) (hj : judge s n.val q = .answer st) :
    portProbe s n.val net = turnAway s n.val net q (.answer st) := by
  simp only [portProbe, h.serves, h.head, hop, hj, Bool.true_eq_false, ne_eq, not_true, if_false]

theorem portFence_turnsAway (h : Waits s n net q more) (hop : opOf q.cmd = .fence) (hj : judge s n.val q = .answer st) :
    portFence s n.val net = turnAway s n.val net q (.answer st) := by
  simp only [portFence, h.serves, h.head, hop, hj, Bool.true_eq_false, ne_eq, not_true, if_false]

/-- R57: a malformed request is counted at its port, and nothing else comes before the answer. -/
theorem malformedSeen_counts (s : State) (n : Nat) (q : Pkt) :
    CountsOnly s (if malformedReq q then bump s (.port n) pMALFORMED else s) :=
  (CountsOnly.refl s).iteBump ..

/-- Settles O14: each row comes down to `turnAway`, which answers, drops the request and touches nothing of the device. -/
theorem targetsTurnRequestsAway : Obligations.TargetsTurnRequestsAway := by
  intro s n net busyN q more i dev st node hrow hserves hroom hold hj hd hrsp
  have hw : Waits s n net q more := ⟨hserves, hroom, hold⟩
  have hexec : exec i s = .next (turnAway s n.val net q (.answer st)) := by
    rcases hrow with ⟨rfl, rfl, hop⟩ | ⟨rfl, hop⟩ | ⟨rfl, hnet, hop⟩ | ⟨rfl, hnet, hop⟩ | ⟨rfl, hnet, hop⟩ | ⟨rfl, hnet, hop⟩ |
      ⟨rfl, rfl, hop⟩ | ⟨rfl, rfl, hop⟩
    · exact exec_cmdRead_port.trans (congrArg _ (tgtTake_turnsAway hw hop hj))
    · exact exec_cmdWrite_port.trans (congrArg _ (tgtTake_turnsAway hw hop hj))
    · exact congrArg Host.Outcome.next (atomicTake_turnsAway hw hnet hop hj)
    · exact congrArg Host.Outcome.next (atomicTake_turnsAway hw hnet hop hj)
    · exact congrArg Host.Outcome.next (atomicTake_turnsAway hw hnet hop hj)
    · exact congrArg Host.Outcome.next (atomicTake_turnsAway hw hnet hop hj)
    · exact exec_cmdProbe_port.trans (congrArg _ (portProbe_turnsAway hw hop hj))
    · exact exec_cmdFence_port.trans (congrArg _ (portFence_turnsAway hw hop hj))
  exact ⟨_, hexec, respond_drop st (malformedSeen_counts s n.val q) hroom hold hd hrsp⟩

/-! ## PROBE -/

theorem portProbe_answers (h : Waits s n net q more) (hop : opOf q.cmd = .probe) (hj : judge s n.val q = .device) :
    portProbe s n.val net = rxDrop (respond s q .ok []) (portNode n.val) net := by
  simp only [portProbe, h.serves, h.head, hop, hj, Bool.true_eq_false, ne_eq, not_true, if_false]

theorem probeIsAnswered : Rules.ProbeIsAnswered := by
  intro s n q more node net hserves hroom hold hop hj hd
  refine ⟨_, exec_cmdProbe_port.trans (congrArg _ (portProbe_answers ⟨hserves, hroom, hold⟩ hop hj)), ?_⟩
  exact respond_drop .ok (.refl s) hroom hold hd (netWith_ne _ _ _)

/-! ## FENCE -/

/-- R47: a FENCE found on REQ is not taken while DAT still holds an earlier write. -/
theorem portFence_holds (h : Waits s n net q more) (hop : opOf q.cmd = .fence) (hj : judge s n.val q = .device)
    (hdat : net = .dat ∨ (nodeGet s (portNode n.val) .dat).rx = []) :
    portFence s n.val net = rxDrop (portMod s n.val (fun p => { p with fences := p.fences ++ [q] })) (portNode n.val) net := by
  simp only [portFence, h.serves, h.head, hop, hj, List.isEmpty_iff, if_pos hdat, Bool.true_eq_false, ne_eq, not_true, if_false]

theorem portFenceDone_answers {f : Pkt} {fs : List Pkt} (hf : (portGet s n.val).fences = f :: fs) (htgt : (portGet s n.val).tgt = none)
    (hsend : (portGet s n.val).wsend = []) (hheld : (portGet s n.val).wheld = [])
    (hsnp : (nodeGet s (portNode n.val) .snp).out = []) (hroom : (nodeGet s (portNode n.val) .rsp).out = []) :
    portFenceDone s n.val = respond (portMod s n.val (fun p => { p with fences := fs })) f .ok [] := by
  simp only [portFenceDone, hf]
  exact if_pos ⟨htgt, hsend, hheld, hsnp, hroom⟩

/-- R55: an answer from a node with nothing to send on RSP is all that its output there then holds. -/
theorem respond_becomes {node : BitVec 7} (hd : q.dnode = node) (hroom : (nodeGet s node .rsp).out = []) :
    NodeBecomes s (respond s q st []) node .rsp { nodeGet s node .rsp with out := pktUnits (responsePkt q st []) } := by
  subst hd
  have hout : respond s q st [] = nodeSet s q.dnode .rsp
      { nodeGet s q.dnode .rsp with out := (nodeGet s q.dnode .rsp).out ++ pktUnits (responsePkt q st []) } := rfl
  rw [hout, hroom]
  exact nodeBecomes_nodeSet ..

theorem fenceWaitsThenIsAnswered : Rules.FenceWaitsThenIsAnswered := by
  intro s n q more node net p hserves hroom
  refine ⟨fun hold hop hj hdat => ?_, fun f fs hf hd htgt hsend hheld hsnp => ?_⟩
  · have hport := (PortBecomes.refl s n.val).mod (fun p => { p with fences := p.fences ++ [q] })
    obtain ⟨hq, hother, hports, hframe⟩ :=
      rxDrop_facts (portMod s n.val (fun p => { p with fences := p.fences ++ [q] })) node net hold
    exact ⟨_, exec_cmdFence_port.trans (congrArg _ (portFence_holds ⟨hserves, hroom, hold⟩ hop hj hdat)),
      PortAndNode.chain hport hq hother hports hframe⟩
  · have hport := (PortBecomes.refl s n.val).mod (fun p => { p with fences := fs })
    obtain ⟨hq, hother, hframe⟩ :=
      respond_becomes (s := portMod s n.val (fun p => { p with fences := fs })) (st := .ok) hd hroom
    exact ⟨_, (exec_fenceComplete_port hserves).trans (congrArg _ (portFenceDone_answers hf htgt hsend hheld hsnp hroom)),
      PortAndNode.chain hport hq hother rfl hframe.toPorts⟩

/-- Settles O15: a PROBE, a FENCE that arrives, and a FENCE whose turn has come. -/
theorem probesAndFencesAreAnswered : Obligations.ProbesAndFencesAreAnswered := ⟨probeIsAnswered, fenceWaitsThenIsAnswered⟩

end Sys2Proof.Machine
end

section
/-!
The mesh routing family: grants and promotions at an arbiter, the ISO frame boundary, and what becomes of the oldest access of an intake.
-/
namespace Sys2Proof.Machine

variable {s t u : State} {net : Net} {r n : Fin 64} {arb : ArbName} {mask : BitVec 5}

/-! ## Grants -/

/-- R65: the waiting heads that the arbiter sees as it resolves. -/
def seenHeads (s : State) (net : Net) (r : Nat) (arb : ArbName) (mask : BitVec 5) : List (Nat × Nat) :=
  (contenders s net r arb).filter (fun c => (arbGet s net r arb).waited.contains c.1 || mask.getLsbD c.1)

/-- R62, R63: the arbiter after its grant to contender w in class top. -/
def grantedArb (s : State) (net : Net) (r : Nat) (arb : ArbName) (w top : Nat) : Arb :=
  { arbGrant (arbGet s net r arb) w top (packetLen s net r arb w) (contenders s net r arb) with slot := decide (w = 1) }

theorem grantAt_held {i : Nat} (h : (arbGet s net r.val arb).holder = some i) : grantAt s net r.val arb mask = s := by
  simp only [grantAt, h]

/-- R62: but for the counts of it, a grant at an output changes the arbiter alone. -/
theorem grantAt_out {d : Dir} {w top : Nat} (hfree : (arbGet s net r.val (.out d)).holder = none)
    (hpick : arbPick (arbGet s net r.val (.out d)) 5 (seenHeads s net r.val (.out d) mask) = some (w, top)) :
    CountsOnly (arbSet s net r.val (.out d) (grantedArb s net r.val (.out d) w top)) (grantAt s net r.val (.out d) mask) := by
  rw [seenHeads] at hpick
  simp only [grantAt, hfree, hpick]
  exact CountsOnly.foldl _ (bump_shape ..) fun _ _ => bump_shape ..

theorem grantAt_localIn {w top : Nat} (hfree : (arbGet s net r.val .localIn).holder = none)
    (hpick : arbPick (arbGet s net r.val .localIn) 2 (seenHeads s net r.val .localIn mask) = some (w, top)) :
    grantAt s net r.val .localIn mask = arbSet s net r.val .localIn (grantedArb s net r.val .localIn w top) := by
  rw [seenHeads] at hpick
  simp only [grantAt, hfree, hpick]
  rfl

theorem mem_contenders_of_seen {c : Nat × Nat} (h : c ∈ seenHeads s net r.val arb mask) : c ∈ contenders s net r.val arb :=
  (List.mem_filter.mp h).1

/-- R62, R63: an arbiter that is free and sees a head grants one of the highest effective class. -/
theorem grantAt_grants (hfree : (arbGet s net r.val arb).holder = none) (hseen : seenHeads s net r.val arb mask ≠ []) :
    ∃ w c, (w, c) ∈ seenHeads s net r.val arb mask ∧
      (∀ x ∈ seenHeads s net r.val arb mask, effClass (arbGet s net r.val arb) x.1 x.2 ≤ effClass (arbGet s net r.val arb) w c) ∧
      CountsOnly (arbSet s net r.val arb (grantedArb s net r.val arb w (effClass (arbGet s net r.val arb) w c)))
        (grantAt s net r.val arb mask) := by
  cases arb with
  | out d =>
    obtain ⟨w, c, hpick, hmem, htop⟩ := arbPick_some (arbGet s net r.val (.out d)) 5 _ hseen
      fun c hc => contenders_out_lt (mem_contenders_of_seen hc)
    exact ⟨w, c, hmem, htop, grantAt_out hfree hpick⟩
  | localIn =>
    obtain ⟨w, c, hpick, hmem, htop⟩ := arbPick_some (arbGet s net r.val .localIn) 2 _ hseen
      fun c hc => contenders_loc_lt (mem_contenders_of_seen hc)
    exact ⟨w, c, hmem, htop, grantAt_localIn hfree hpick ▸ .refl _⟩

theorem grantTakesHighestClass : Rules.GrantTakesHighestClass := by
  intro s net r arb mask a seen hfree hseen
  obtain ⟨w, c, hmem, htop, hgrant⟩ := grantAt_grants (mask := mask) hfree hseen
  have harb : arbGet (grantAt s net r.val arb mask) net r.val arb = grantedArb s net r.val arb w (effClass a w c) :=
    (hgrant.arbGet ..).trans (arbGet_arbSet_same ..)
  refine ⟨_, w, c, rfl, hmem, htop, congrArg Arb.holder harb, congrArg Arb.left harb, congrArg Arb.ptr harb, fun m q b hne => ?_,
    (congrArg (·.ins) hgrant.mesh).trans rfl, (congrArg (·.nodes) hgrant.mesh).trans rfl, (arbSet_frame ..).trans hgrant.toMesh⟩
  exact (hgrant.arbGet ..).trans (arbGet_arbSet_ne _ _ _ _ _ _ _ _ hne)

theorem heldOutputIsNotGranted : Rules.HeldOutputIsNotGranted := by
  intro s net r arb mask hheld
  obtain ⟨i, hi⟩ := Option.ne_none_iff_exists'.mp hheld
  exact congrArg Host.Outcome.next (grantAt_held hi)

/-! ## Promotions -/

/-- R66: from the eighth pass on, a BULK head competes as STD. -/
theorem effClass_bulk_passed {a : Arb} {i : Nat} (h : 8 ≤ tget (fun _ => 0) a.passes i) : effClass a i 0 = 1 := if_pos ⟨rfl, h⟩

theorem promotionIsCountedOnce : Rules.PromotionIsCountedOnce := by
  intro s net r arb cand a hwaits hpassed
  have hcount := bump_shape (arbSet s net r.val arb { a with passes := tset (fun _ => 0) a.passes cand.val 9 }) (.router r.val)
    (routerEv net (arbSide s net r.val arb cand.val) kPROMOTE)
  have harb := (hcount.arbGet net r.val arb).trans (arbGet_arbSet_same ..)
  refine ⟨_, if_pos ⟨List.contains_iff_mem.mpr hwaits, hpassed⟩, harb, effClass_bulk_passed ?_, hcount⟩
  rw [harb, tget_tset_same]
  decide

/-- Settles O4: a grant goes to the top class among the heads seen, a held arbiter stays as it is, and a promoted head competes as STD. -/
theorem outputsAreGranted : Obligations.OutputsAreGranted := ⟨grantTakesHighestClass, heldOutputIsNotGranted, promotionIsCountedOnce⟩

/-! ## The ISO frame -/

/-- R70: the frame count starts again, under the ISOFRAME now in force. -/
def frameStarted (s : State) : State :=
  timeMod s (fun y => { y with isoLive := (cfgGet s 0x84 0x405).extractLsb' 0 16, isoCount := 0 })

/-- Settles O6: every one of the 64 ports is reloaded once (isoFold). -/
theorem budgetsReloadAtTheFrame : Obligations.BudgetsReloadAtTheFrame := by
  intro s hlimp
  obtain ⟨hreload, -, -, htime, hports⟩ := isoFold (List.range 64) List.nodup_range (frameStarted s)
  have hexec : exec .isoFrameBoundary s = .next ((List.range 64).foldl isoReload (frameStarted s)) := if_neg (by simp [hlimp])
  refine ⟨_, hexec, fun n => hreload n.val (List.mem_range.mpr n.isLt), htime, ?_⟩
  rw [htime]
  exact hports

/-! ## What a port's own operations leave -/

variable {p p' : PortSt} {a : Access} {rest : List Access} {f : Front} {q : Part} {ps : List Part} {tag : Byte} {ts : List Byte}

theorem PortBecomes.chipnum {k : Nat} (h : PortBecomes s t k p) : t.chipnum = s.chipnum := by
  obtain ⟨-, -, -, hframe⟩ := h
  rw [hframe]

theorem PortBecomes.power {k : Nat} (h : PortBecomes s t k p) : t.power = s.power := by
  obtain ⟨-, -, -, hframe⟩ := h
  rw [hframe]

theorem PortBecomes.nodeGet {k : Nat} (h : PortBecomes s t k p) (i : BitVec 7) (m : Net) : Machine.nodeGet t i m = Machine.nodeGet s i m := by
  obtain ⟨-, -, hmesh, -⟩ := h
  unfold Machine.nodeGet
  rw [hmesh]

/-- What happens to the port after a packet has left for its node. -/
theorem PortAndNode.port {k : Nat} {node : BitVec 7} {x : NodeQ} (h : PortAndNode s t k p node net x) (g : PortBecomes t u k p') :
    PortAndNode s u k p' node net x := by
  obtain ⟨-, hother, hq, hnodes, hframe⟩ := h
  have ⟨hport, hother', _, hframe'⟩ := g
  exact ⟨hport, fun m hm => (hother' m hm).trans (hother m hm), (g.nodeGet ..).trans hq,
    fun i m hne => (g.nodeGet i m).trans (hnodes i m hne), hframe.trans hframe'⟩

theorem PortAndNode.self {k : Nat} {node : BitVec 7} {x : NodeQ} (h : PortAndNode s t k p node net x) : PortBecomes t t k p :=
  ⟨h.1, fun _ _ => rfl, rfl, .refl t⟩

/-- R100, R113, R114: an access that fails without a packet is recorded in PERR and ends at the device. -/
theorem PortBecomes.accessFail {k : Nat} (h : PortBecomes s t k p) (a : Access) (st : Status) :
    PortBecomes s (Machine.accessFail t k a st) k (portEnded { p with perr := perrRec p.perr st a.p } a st []) :=
  devEnd_spec ((h.counts (bump_shape ..)).mod _) a st []

theorem PortBecomes.frontOpen (h : PortBecomes s t n.val p) (a : Access) (f : Front) (fa : BitVec 32) :
    PortBecomes s (Machine.frontOpen t n.val a f fa) n.val { p with
      front := some f, nextAcc := p.nextAcc + 1
      accs := tput p.accs f.id { acc := a, faddr := fa, left := f.parts.length, failed := none, rd := [] } } :=
  (h.counts (bump_shape ..)).mod _

/-- R139: the tag longest FREE is taken for a request. -/
def tagTaken (tag : Byte) (x : Tag) (p : PortSt) : PortSt := { p with pool := { tagPut p.pool tag x with free := p.pool.free.drop 1 } }

theorem tagTaken_eq {x : Tag} (h : p.pool.free = tag :: ts) : tagTaken tag x p = { p with pool := { tagPut p.pool tag x with free := ts } } := by
  simp only [tagTaken, h, List.drop_one, List.tail_cons]

/-- R33, R38: the request packet of port n for part q of an access. -/
def portPkt (s : State) (n : Nat) (tag dchip : Byte) (dnode : BitVec 7) (cls : BitVec 2) (cid : Byte) (q : Part) : Pkt :=
  { dchip := dchip, dnode := dnode, snode := portNode n, cmd := q.cmd, cls := cls, tag := tag, hasAddr := true, addrBad := false,
    schip := s.chipnum, cid := cid, addr := q.addr, data := q.data, formed := true }

/-- R54: the network that a request packet of port n travels on. -/
def reqNet (s : State) (n : Nat) (pkt : Pkt) : Net := netOf (splitMode s n) (opOf pkt.cmd)

/-- R139, R144: what a HELD tag keeps of its request. -/
def reqTag (s : State) (n : Nat) (pkt : Pkt) (wake : Bool) (use : TagUse) : Tag :=
  { st := .held, dchip := pkt.dchip, dnode := pkt.dnode, cmd := pkt.cmd, wr := opWrites (opOf pkt.cmd), wake := wake, retry := false,
    net := reqNet s n pkt, pkt := pktUnits pkt, use := use }

/-- R32: a packet's units stand behind what the node has still to send. -/
def NodeQ.sends (x : NodeQ) (pkt : Pkt) : NodeQ := { x with out := x.out ++ pktUnits pkt }

/-- R139: a request is driven under the tag longest FREE. -/
theorem PortBecomes.portSend (h : PortBecomes s t n.val p) (tag dchip : Byte) (dnode : BitVec 7) (cls : BitVec 2) (cid : Byte) (q : Part)
    (wake : Bool) (use : TagUse) :
    let pkt := portPkt s n.val tag dchip dnode cls cid q
    let net := reqNet s n.val pkt
    PortAndNode s (Machine.portSend t n.val tag dchip dnode cls cid q wake use) n.val (tagTaken tag (reqTag s n.val pkt wake use) p)
      (portNode n.val) net ((Machine.nodeGet s (portNode n.val) net).sends pkt) := by
  intro pkt net
  have hsplit : splitMode t n.val = splitMode s n.val := by unfold splitMode pcfg cfgGet; rw [h.cfg]
  have hport := h.mod (tagTaken tag (reqTag s n.val pkt wake use))
  have hsend : Machine.portSend t n.val tag dchip dnode cls cid q wake use =
      sendPkt (portMod t n.val (tagTaken tag (reqTag s n.val pkt wake use))) (portNode n.val) net pkt := by
    simp only [Machine.portSend, hsplit, h.chipnum]
    rfl
  rw [hsend]
  refine PortAndNode.chain hport ?_ (fun i m hne => nodeGet_nodeMod_ne _ _ _ _ _ _ hne) rfl (sendPkt_frame ..).toPorts
  exact (nodeGet_nodeMod_same ..).trans (congrArg (NodeQ.sends · pkt) (PortBecomes.nodeGet hport ..))

/-! ## The oldest access of an intake -/

/-- R83, R129: port n's NI has no unit to drive and no claim outstanding, and a is the oldest access of its intake, not decoded yet. -/
structure Undecoded (s : State) (n : Fin 64) (a : Access) (rest : List Access) : Prop where
  free : niFree s n.val = true
  on : domOn s n.val = true
  oldest : (portGet s n.val).intake = a :: rest
  front : (portGet s n.val).front = none
  noClaim : claimHeld (portGet s n.val) = false

theorem niFree_of_mayRequest {k : Nat} (h : mayRequest s k = true) : niFree s k = true := by
  simp only [mayRequest, Bool.and_eq_true] at h
  exact h.1.1

/-- R380: the access is counted, and its miss of every window, if it was one. -/
def missCounted (s : State) (n : Nat) (miss : Bool) : State :=
  let s1 := bump s (.port n) pACCESS
  if miss then bump s1 (.port n) pWINMISS else s1

theorem intakeDecode_fails {miss : Bool} (h : Undecoded s n a rest) (hd : decodeAccess s n.val a = .fail miss) :
    exec (.intakeDecode n) s = .next (accessFail (intakeDrop (missCounted s n.val miss) n.val) n.val a .decerr) := by
  change execIntakeDecode n s = _
  simp [execIntakeDecode, h.free, h.on, h.oldest, h.front, h.noClaim, hd, missCounted]

theorem intakeDecode_claims (h : Undecoded s n a rest) (hreq : mayRequest s n.val = true) (hd : decodeAccess s n.val a = .go f)
    (hmark : markOf (portGet s n.val) a.cid = .unclaimed) :
    exec (.intakeDecode n) s = .next (sendClaim s n.val a.cid) := by
  change execIntakeDecode n s = _
  simp [execIntakeDecode, h.free, h.on, h.oldest, h.front, h.noClaim, hd, hmark, hreq]

theorem intakeDecode_sends (h : Undecoded s n a rest) (hreq : mayRequest s n.val = true) (hd : decodeAccess s n.val a = .go f)
    (hmark : markOf (portGet s n.val) a.cid = .claimed) :
    ∃ fa, exec (.intakeDecode n) s = .next (frontSend (frontOpen s n.val a f fa) n.val a f) := by
  apply Exists.intro
  change execIntakeDecode n s = _
  simp only [execIntakeDecode, h.free, h.on, h.oldest, h.front, h.noClaim, hd, hmark, hreq]
  rfl

/-! ## Failed -/

theorem undecodableAccessEndsDecerr : Rules.UndecodableAccessEndsDecerr := by
  intro s n a rest miss p hfree hon hold hfront hcap hclaim hd
  have hcounted : PortBecomes s (missCounted s n.val miss) n.val p :=
    ((PortBecomes.refl s n.val).counts (bump_shape ..)).iteBump ..
  have hended := (intakeDrop_spec hcounted hcap).accessFail a .decerr
  rw [hold] at hended
  exact ⟨_, intakeDecode_fails ⟨hfree, hon, hold, hfront, hclaim⟩ hd, hended⟩

/-! ## Claimed first -/

/-- R147: what the HELD tag of a claim keeps. -/
def claimTag (s : State) (cid : Byte) : Tag :=
  { Tag.reset with st := .held, dchip := s.chipnum, dnode := nodeSys, cmd := cmdOf (.write 1), wr := true, use := .claim cid }

/-- R147: what sending a claim does: the tag is HELD, the event counted, and the claim stands at SYS. -/
theorem sendClaim_claims {k : Nat} {cid : Byte} (hsys : sysOn s = true) (hfree : (portGet s k).pool.free = tag :: ts)
    (hhaz : hazard (portGet s k).pool s.chipnum nodeSys = false) :
    sendClaim s k cid =
      sysMod (bump (portMod s k (tagTaken tag (claimTag s cid))) (.port k) pCLAIM)
        (fun y => { y with claims := y.claims ++ [{ chip := s.chipnum, port := k, cid := cid, tag := tag }] }) := by
  simp [sendClaim, portMod, tagTaken, claimTag, hfree, hhaz, hsys]

theorem PortsOnly.claims (h : PortsOnly s t) : t.sys.claims = s.sys.claims := by rw [h]

/-- The claims at SYS are one field more that a frame may leave open. -/
theorem PortsOnly.addClaims (h : PortsOnly s t) (cs : List Claim) :
    PortsOnly { s with sys := { s.sys with claims := cs } } (sysMod t (fun y => { y with claims := cs })) := by
  obtain ⟨_, _, _, _, _, rfl⟩ := h.open
  rfl

theorem firstUseSendsClaim : Rules.FirstUseSendsClaim := by
  intro s n a rest f tag ts p hreq hon hsys hold hfront hclaim hd hmark hfree hhaz
  refine ⟨_, intakeDecode_claims ⟨niFree_of_mayRequest hreq, hon, hold, hfront, hclaim⟩ hreq hd hmark, ?_⟩
  rw [sendClaim_claims hsys hfree hhaz]
  obtain ⟨hport, hother, hmesh, hframe⟩ :=
    ((PortBecomes.refl s n.val).mod (tagTaken tag (claimTag s a.cid))).counts (bump_shape _ (.port n.val) pCLAIM)
  exact ⟨congrArg (· ++ _) hframe.claims, hport.trans (tagTaken_eq hfree), hother, hmesh, hframe.addClaims _⟩

/-! ## Sent -/

/-- R75, R139, R142, R143: with a tag FREE, no hazard and the charge within the budget, the next packet of an access is charged and driven;
then the access waits with its next packet, or leaves the intake. -/
theorem frontSend_sends {k : Nat} (hparts : f.parts = q :: ps) (hfree : (portGet s k).pool.free = tag :: ts)
    (hhaz : hazard (portGet s k).pool f.dchip f.dnode = false) (hfits : isoCost s f.cls (opOf q.cmd) ≤ (portGet s k).isoLeft.toNat) :
    frontSend s k a f =
      let s2 := portSend (isoSpend s k (isoCost s f.cls (opOf q.cmd))) k tag f.dchip f.dnode (isoClass s f.cls) a.cid q f.wake
        (.access f.id f.sent)
      if ps = [] then intakeDrop s2 k else portMod s2 k (fun y => { y with front := some { f with sent := f.sent + 1, parts := ps } }) := by
  simp [frontSend, hparts, hfree, hhaz, Nat.not_lt.mpr hfits]

/-- R112, R129: the port after a packet of access f has left: with no part more to send, the access leaves the intake. -/
def sentPort (p : PortSt) (f : Front) (ps : List Part) : PortSt :=
  if ps = [] then { p with intake := p.intake.drop 1, front := none }
  else { p with front := some { f with sent := f.sent + 1, parts := ps } }

@[simp] theorem sentPort_pool (p : PortSt) (f : Front) (ps : List Part) : (sentPort p f ps).pool = p.pool := by unfold sentPort; split <;> rfl
@[simp] theorem sentPort_isoLeft (p : PortSt) (f : Front) (ps : List Part) : (sentPort p f ps).isoLeft = p.isoLeft := by
  unfold sentPort; split <;> rfl

theorem PortBecomes.frontSend (h : PortBecomes s t n.val p) (a : Access) (hparts : f.parts = q :: ps) (hfree : p.pool.free = tag :: ts)
    (hhaz : hazard p.pool f.dchip f.dnode = false) (hfits : isoCost s f.cls (opOf q.cmd) ≤ p.isoLeft.toNat) (hcap : p.captured = none) :
    let pkt := portPkt s n.val tag f.dchip f.dnode (isoClass s f.cls) a.cid q
    let net := reqNet s n.val pkt
    PortAndNode s (Machine.frontSend t n.val a f) n.val
      (sentPort (tagTaken tag (reqTag s n.val pkt f.wake (.access f.id f.sent))
        { p with isoLeft := p.isoLeft - BitVec.ofNat 16 (isoCost s f.cls (opOf q.cmd)) }) f ps)
      (portNode n.val) net ((Machine.nodeGet s (portNode n.val) net).sends pkt) := by
  intro pkt net
  have hcost : isoCost t f.cls (opOf q.cmd) = isoCost s f.cls (opOf q.cmd) := by unfold isoCost; rw [h.power]
  have hcls : isoClass t f.cls = isoClass s f.cls := by unfold isoClass; rw [h.power]
  have hport : Machine.portGet t n.val = p := h.1
  have hsent := (isoSpend_spec h (isoCost s f.cls (opOf q.cmd))).portSend tag f.dchip f.dnode (isoClass s f.cls) a.cid q f.wake
    (.access f.id f.sent)
  rw [frontSend_sends hparts (hport ▸ hfree) (hport ▸ hhaz) (by rw [hcost, hport]; exact hfits), hcost, hcls]
  unfold sentPort
  by_cases hlast : ps = []
  · rw [if_pos hlast, if_pos hlast]
    exact hsent.port (intakeDrop_spec hsent.self hcap)
  · rw [if_neg hlast, if_neg hlast]
    exact hsent.port (hsent.self.mod _)

theorem decodeSendsFirstPacket : Rules.DecodeSendsFirstPacket := by
  intro s n a rest f q ps tag ts p net cost pkt hreq hon hold hfront hcap hclaim hd hparts hmark hfree hhaz hfits
  obtain ⟨fa, hexec⟩ := intakeDecode_sends ⟨niFree_of_mayRequest hreq, hon, hold, hfront, hclaim⟩ hreq hd hmark
  obtain ⟨hport, hother, hnode, hnodes, hframe⟩ :=
    ((PortBecomes.refl s n.val).frontOpen a f fa).frontSend a hparts hfree hhaz hfits hcap
  refine ⟨_, hexec, hnode, hnodes, ?_, ?_, fun hlast => ?_, fun hmore => ?_, hother, hframe⟩
  · rw [hport, sentPort_pool]; exact congrArg PortSt.pool (tagTaken_eq hfree)
  · rw [hport, sentPort_isoLeft]; rfl
  · rw [hport, sentPort, if_pos hlast]
    exact ⟨congrArg (List.drop 1) hold, rfl⟩
  · rw [hport, sentPort, if_neg hmore]
    exact ⟨hold, rfl⟩

/-- Settles O10: the oldest access is sent, failed or held up by a claim, by what decode and its client mark say. -/
theorem intakeIsDecoded : Obligations.IntakeIsDecoded := ⟨decodeSendsFirstPacket, undecodableAccessEndsDecerr, firstUseSendsClaim⟩

end Sys2Proof.Machine
end

section
/-!
The bus ports family: accesses at the pins of FLAT8, MUX16 and SYNC16 ports (R98 to R100, R106 to R108, R112), and the tags that end them
(R113, R139 to R141, R418).
-/
namespace Sys2Proof.Machine

variable {s t : State} {n : Fin 64} {p : PortSt}

/-! ## The pins of a FLAT8 or MUX16 port -/

/-- R98: the port is a FLAT8 or MUX16 port in role INIT with its bus at rest, a strobe is low, and a FLAT8 device is selected. -/
structure Strobed (s : State) (n : Fin 64) (acc : PinAccess) : Prop where
  pins : pinPort s n.val = true
  idle : (portGet s n.val).bus.phase = .idle
  strobe : ¬(acc.rdN = true ∧ acc.wrN = true)
  select : isFlat s n.val = true → acc.csN = false

/-- R100: the pins form no request. -/
def reservedStrobes (s : State) (n : Nat) (acc : PinAccess) : Bool :=
  (!acc.rdN && !acc.wrN) || (!isFlat s n && acc.addr.getLsbD 0 && acc.bheN)

theorem reservedStrobes_iff {k : Nat} {acc : PinAccess} : reservedStrobes s k acc = true ↔
    (acc.rdN = false ∧ acc.wrN = false) ∨ (isFlat s k = false ∧ acc.addr.getLsbD 0 = true ∧ acc.bheN = true) := by
  simp [reservedStrobes, and_assoc]

/-- R52, R100: port n records DECERR for an access that forms no request, and ends its bus cycle. -/
def endsDecerr (s : State) (n : Nat) (addr : BitVec 24) : State :=
  portMod (portFail s n .decerr addr) n (fun q => { q with bus := { phase := .ended, rdata := [], stat := .decerr } })

theorem endsDecerr_becomes (s : State) (n : Nat) (addr : BitVec 24) :
    PortBecomes s (endsDecerr s n addr) n { portGet s n with
      perr := perrRec (portGet s n).perr .decerr addr, bus := { phase := .ended, rdata := [], stat := .decerr } } :=
  (((PortBecomes.refl s n).counts (bump_shape ..)).mod _).mod _

theorem Strobed.taken {acc : PinAccess} (h : Strobed s n acc) :
    ¬(pinPort s n.val = false ∨ (portGet s n.val).bus.phase ≠ .idle ∨ (acc.rdN = true ∧ acc.wrN = true) ∨
      (isFlat s n.val = true ∧ acc.csN = true)) := by
  rintro (hpins | hbusy | hstrobe | ⟨hflat, hcs⟩)
  · exact absurd hpins (by simp [h.pins])
  · exact hbusy h.idle
  · exact h.strobe hstrobe
  · exact absurd hcs (by simp [h.select hflat])

theorem accessCapture_starts {acc : PinAccess} (h : Strobed s n acc) (hform : reservedStrobes s n.val acc = false) :
    exec (.accessCapture n acc) s = .next (accessStart s n.val (pinAccess s n.val acc)) := by
  change execAccessCapture n acc s = _
  unfold reservedStrobes at hform
  simp only [execAccessCapture, if_neg h.taken, hform, Bool.false_eq_true, if_false]

theorem accessCapture_reserved {acc : PinAccess} (h : Strobed s n acc) (hform : reservedStrobes s n.val acc = true)
    (hlive : (portGet s n.val).dead = false) (hon : domOn s n.val = true) :
    exec (.accessCapture n acc) s = .next (endsDecerr s n.val (pinAccess s n.val acc).p) := by
  change execAccessCapture n acc s = _
  unfold reservedStrobes at hform
  simp only [execAccessCapture, if_neg h.taken, hform, if_true, hlive, hon, Bool.false_eq_true, Bool.true_eq_false, or_self, if_false]
  rfl

theorem accessEntersIntake : Rules.AccessEntersIntake := by
  intro s n acc hpins hidle hstrobe hcs hlane hlive hon
  have hform : reservedStrobes s n.val acc = false := by
    rw [← Bool.not_eq_true, reservedStrobes_iff]
    rintro (⟨hrd, hwr⟩ | ⟨hwide, hodd⟩)
    · exact hstrobe (hrd.trans hwr.symm)
    · exact hlane hwide hodd
  have hexec := accessCapture_starts ⟨hpins, hidle, fun hboth => hstrobe (hboth.1.trans hboth.2.symm), hcs⟩ hform
  obtain ⟨hroom, hfull⟩ := accessStart_enters (a := pinAccess s n.val acc) hlive hon rfl
  exact ⟨fun hlen => ⟨_, hexec, hroom hlen⟩, fun hlen => ⟨_, hexec, hfull hlen⟩⟩

theorem strobeReleaseReadiesBus : Rules.StrobeReleaseReadiesBus :=
  fun _ _ hpins hended => if_pos ⟨hpins, hended⟩

/-- Settles O7: with room or without, what the pins spell starts an access (accessStart_enters); the released strobe readies the bus. -/
theorem accessesEnterTheIntake : Obligations.AccessesEnterTheIntake := ⟨accessEntersIntake, strobeReleaseReadiesBus⟩

/-- Settles O8: both forms of R100 are recorded as DECERR and end at once. -/
theorem reservedStrobesFormNoRequest : Obligations.ReservedStrobesFormNoRequest := by
  intro s n acc hpins hidle hcs hform hlive hon
  have hstrobe : ¬(acc.rdN = true ∧ acc.wrN = true) := by
    rintro ⟨hrd, hwr⟩
    rcases hform with ⟨hlow, -⟩ | ⟨hne, -⟩
    · exact absurd hlow (by simp [hrd])
    · exact hne (hrd.trans hwr.symm)
  have hreserved : reservedStrobes s n.val acc = true := reservedStrobes_iff.mpr (hform.imp_right And.right)
  exact ⟨_, accessCapture_reserved ⟨hpins, hidle, hstrobe, hcs⟩ hreserved hlive hon, endsDecerr_becomes ..⟩

/-! ## SYNC16 commands -/

theorem syncReady_takes (h : syncReady s n.val = true) : (portGet s n.val).dead = false ∧ (portGet s n.val).intake.length < 2 := by
  simp only [syncReady, Bool.and_eq_true, Bool.not_eq_true', decide_eq_true_eq] at h
  obtain ⟨⟨⟨⟨-, hlive⟩, -⟩, -⟩, hroom⟩ := h
  exact ⟨hlive, hroom⟩

/-- R107, R112: a ready port takes the command that runs, and its access enters the intake. -/
theorem syncStart_enters {c1 c2 : Beat} {k : AccKind} (len : Nat) (beats : List Beat) (hready : syncReady s n.val = true)
    (his : syncIs s n.val c1 c2 k = true) (hon : domOn s n.val = true) :
    PortBecomes s (syncStart s n.val c1 c2 k len beats) n.val (portEntered s n.val
      { kind := k, p := c1Addr c1, len := len, bytes := beats.flatMap beatBytes, cid := syncCid s n.val c2, posted := false }) := by
  obtain ⟨hlive, hroom⟩ := syncReady_takes hready
  rw [syncStart, if_pos (by rw [hready, his]; rfl)]
  exact (accessStart_enters hlive hon rfl).1 hroom

/-- R107: a SYNC16 write of 1 to 32 beats, as many as COUNT says when there is one. -/
theorem exec_sync16Write {c1 c2 : Beat} {bs : List Beat} (hpos : 0 < bs.length) (hmax : bs.length ≤ 32)
    (hcount : xcmd s n.val = true → bs.length = c2Count c2 + 1) :
    exec (.sync16Write n c1 c2 bs) s = .next (syncStart s n.val c1 c2 .write (2 * bs.length) bs) := by
  change execSync16Write n c1 c2 bs s = _
  rw [execSync16Write, if_neg (by omega), if_neg (fun h => h.2 (hcount h.1))]

theorem syncCommandsEnterIntake : Rules.SyncCommandsEnterIntake := by
  intro s n c1 c2 o1 o2 o3 o4 bs i k len beats hrow hready his hon
  have hexec : exec i s = .next (syncStart s n.val c1 c2 k len beats) := by
    rcases hrow with ⟨rfl, rfl, rfl, rfl⟩ | ⟨rfl, rfl, rfl, rfl, hpos, hmax, hcount⟩ | ⟨rfl, rfl, rfl, rfl⟩ | ⟨rfl, rfl, rfl, rfl⟩ |
      ⟨rfl, rfl, rfl, rfl⟩ | ⟨rfl, rfl, rfl, rfl⟩ | ⟨rfl, rfl, rfl, rfl⟩ | ⟨rfl, rfl, rfl, rfl⟩
    case inr.inl => exact exec_sync16Write hpos hmax hcount
    all_goals rfl
  exact ⟨_, hexec, syncStart_enters len beats hready his hon⟩

theorem reservedSyncOpEndsDecerr : Rules.ReservedSyncOpEndsDecerr :=
  fun s n c1 _ hready hx hop hon => ⟨endsDecerr s n.val (c1Addr c1), if_pos (by simp [hready, hx, hop, hon]), endsDecerr_becomes ..⟩

/-- Settles O9: the eight commands come down to `syncStart`, and a reserved OP ends as a reserved strobe does. -/
theorem syncCommandsAreTaken : Obligations.SyncCommandsAreTaken := ⟨syncCommandsEnterIntake, reservedSyncOpEndsDecerr⟩

/-! ## Tags of a port -/

/-- In a calm state, with no forwarded write due, nothing more follows a change of port n. -/
theorem PortBecomes.settled (h : PortBecomes s t n.val p) (hcalm : s.calm) (hdue : p.fwdDue = false) : settle (pirqPump t n.val) = t := by
  have ⟨_, _, _, hframe⟩ := h
  rw [pirqPump_idle h hdue, settle_calm (hframe.calm hcalm)]

theorem exec_responseMatch_port {pk : Pkt} {more : List Pkt} (hrx : (nodeGet s (portNode n.val) .rsp).rx = pk :: more)
    (halive : niAlive s n.val = true) :
    exec (.responseMatch (portNode n.val)) s =
      .next (settle (pirqPump (portMatch (rxDrop s (portNode n.val) .rsp) n.val pk) n.val)) := by
  change execResponseMatch _ s = _
  simp only [execResponseMatch, hrx, serverOf_portNode, if_pos halive]

theorem portMatch_completes {pk : Pkt} {st : Status} {ws : List Word} (hheld : (tagAt (portGet s n.val).pool pk.tag).st = .held)
    (hv : rspVerdict (tagAt (portGet s n.val).pool pk.tag).cmd pk = .done st ws)
    (hw : waitsOn (tagAt (portGet s n.val).pool pk.tag) st = false) :
    portMatch s n.val pk = portTagDone s n.val pk.tag st ws := by
  simp only [portMatch, hheld, hv, hw, Bool.false_eq_true, if_false]

theorem exec_tagTimeout_port {tag : Byte} (hheld : (tagAt (portGet s n.val).pool tag).st = .held)
    (hhead : headDriven s (portNode n.val) (tagAt (portGet s n.val).pool tag) = true) :
    exec (.tagTimeout (.port n) tag) s = .next (settle (pirqPump (portTagDone s n.val tag .timeout []) n.val)) := by
  change execTagTimeout _ tag s = _
  simp only [execTagTimeout, poolGet, hheld, hhead, ne_eq, not_true, if_false, if_true]

theorem tagAt_tagPut_same (pool : TagPool) (tag : Byte) (x : Tag) : tagAt (tagPut pool tag x) tag = x := tget_tset_same ..

/-- R113: read data reaches the device only with OK. -/
theorem portEnded_failed (a : Access) {st : Status} (h : st ≠ .ok) (rd : List Byte) : portEnded p a st rd = portEnded p a st [] := by
  simp only [portEnded, if_neg h]

theorem portEnded_pool (p : PortSt) (a : Access) (st : Status) (rd : List Byte) : (portEnded p a st rd).pool = p.pool := by
  unfold portEnded; split <;> rfl

theorem responseEndsAccess : Rules.ResponseEndsAccess := by
  intro s n pk more id part o st ws p x hcalm hrx halive hdue hheld huse hv hwait hacc hlast hfail
  obtain ⟨hq, hother, hports, hframe⟩ := rxDrop_facts s (portNode n.val) .rsp hrx
  have hport : portGet (rxDrop s (portNode n.val) .rsp) n.val = p := congrArg (tget _ · _) hports
  have hdone := portTagDone_access (PortBecomes.refl (rxDrop s (portNode n.val) .rsp) n.val) pk.tag id part o st ws
    (by rw [hport]; exact huse) (by rw [hport]; exact hacc) hlast hfail
  rw [hport] at hdone
  have hexec := exec_responseMatch_port hrx halive
  rw [portMatch_completes (by rw [hport]; exact hheld) (by rw [hport]; exact hv) (by rw [hport]; exact hwait),
    hdone.settled (hframe.calm hcalm) ((portEnded_fwdDue ..).trans hdue)] at hexec
  exact ⟨_, hexec, .of hdone hports hq hother hframe⟩

theorem timeoutLeavesTagStale : Rules.TimeoutLeavesTagStale := by
  intro s n tag id part o p x hcalm hdue hheld huse hhead hacc hlast hfail
  have hdone := portTagDone_access (PortBecomes.refl s n.val) tag id part o .timeout [] huse hacc hlast hfail
  rw [portEnded_failed _ (by decide)] at hdone
  have hexec := exec_tagTimeout_port hheld hhead
  rw [hdone.settled hcalm ((portEnded_fwdDue ..).trans hdue)] at hexec
  refine ⟨_, hexec, ?_, hdone⟩
  rw [hdone.1, portEnded_pool]
  exact congrArg Tag.st (tagAt_tagPut_same p.pool tag { x with st := .stale })

theorem staleTagBecomesFree : Rules.StaleTagBecomesFree :=
  fun _ _ => ⟨fun _ hstale => if_pos hstale, fun hstale => if_pos hstale⟩

/-! ## The FENCE of the host -/

/-- R418: the FENCE that the host asked for has completed with a status, and the host's write ends. -/
def hostFenceEnded (s : State) (pool : TagPool) (st : Status) : State :=
  { s with
    host := { s.host with waitLow := false }
    sys := { s.sys with agents := pool, fenceStat := statusCode st, fenceVal := true, fenceBusy := false } }

theorem agentTagDone_hostFence {tag : Byte} {st : Status} {ws : List Word} (huse : (tagAt s.sys.agents tag).use = .fence none)
    (hidle : s.sys.queued = []) : agentTagDone s tag st ws = hostFenceEnded s (tagAfter st s.sys.agents tag) st := by
  simp only [agentTagDone, huse, fenceDone, hostEnd, hostMod, sysMod, hidle, List.length_nil, agentPump, hostFenceEnded]

theorem hostFenceEnded_settled (pool : TagPool) (st : Status) (h : s.calm) : settle (hostFenceEnded s pool st) = hostFenceEnded s pool st :=
  settle_calm (calm_congr rfl rfl rfl rfl h)

theorem exec_tagTimeout_agents {tag : Byte} (hheld : (tagAt s.sys.agents tag).st = .held)
    (hhead : headDriven s nodeSys (tagAt s.sys.agents tag) = true) :
    exec (.tagTimeout .agents tag) s = .next (settle (agentTagDone s tag .timeout [])) := by
  change execTagTimeout _ tag s = _
  simp only [execTagTimeout, poolGet, hheld, hhead, ne_eq, not_true, if_false, if_true]

theorem exec_responseMatch_sys {pk : Pkt} {more : List Pkt} (hrx : (nodeGet s nodeSys .rsp).rx = pk :: more) (hsys : sysOn s = true) :
    exec (.responseMatch nodeSys) s = .next (settle (agentMatch (rxDrop s nodeSys .rsp) pk)) := by
  have hserver : serverOf nodeSys = .sys := by decide
  change execResponseMatch _ s = _
  simp only [execResponseMatch, hrx, hserver, if_pos hsys]

theorem agentMatch_completes {pk : Pkt} {st : Status} {ws : List Word} (hheld : (tagAt s.sys.agents pk.tag).st = .held)
    (hv : rspVerdict (tagAt s.sys.agents pk.tag).cmd pk = .done st ws) : agentMatch s pk = agentTagDone s pk.tag st ws := by
  simp only [agentMatch, hheld, hv]

theorem hostFenceEndsWithItsTag : Rules.HostFenceEndsWithItsTag := by
  intro s tag x hcalm hidle hheld huse
  refine ⟨fun hhead => ?_, fun pk more hsys hrx htag hv => ?_⟩
  · have hexec := exec_tagTimeout_agents hheld hhead
    rw [agentTagDone_hostFence huse hidle, hostFenceEnded_settled _ _ hcalm] at hexec
    exact hexec
  · subst htag
    obtain ⟨hq, -, -, hframe⟩ := rxDrop_facts s nodeSys .rsp hrx
    have hexec := exec_responseMatch_sys hrx hsys
    rw [agentMatch_completes (s := rxDrop s nodeSys .rsp) hheld hv, agentTagDone_hostFence (s := rxDrop s nodeSys .rsp) huse hidle,
      hostFenceEnded_settled _ _ (hframe.calm hcalm)] at hexec
    exact ⟨_, hexec, hq, rfl⟩

/-- Settles O11: a HELD tag ends its access or its FENCE by a response or by its timer, and a STALE one becomes FREE. -/
theorem tagsPassTheirStates : Obligations.TagsPassTheirStates :=
  ⟨responseEndsAccess, timeoutLeavesTagStale, staleTagBecomesFree, hostFenceEndsWithItsTag⟩

end Sys2Proof.Machine
end

section
/-!
The bus ports family: requests that a port's device performs (R97, R110, R111, R135, R136, R213, R214, R393), and the forwarding of
PIRQ (R117 to R120, R247).
-/
namespace Sys2Proof.Machine

variable {s t : State} {n : Fin 64} {p : PortSt} {net : Net} {q : Pkt} {more : List Pkt} {busyN : Bool} {dev : List DevBeat}

/-! ## Requests that go to the device -/

/-- R57, R80, R111, R115: the oldest request of the network is one for the device of port n, and its bus is free. -/
structure Starts (s : State) (n : Fin 64) (net : Net) (q : Pkt) (more : List Pkt) : Prop where
  waits : Waits s n net q more
  judged : judge s n.val q = .device
  free : busFree s n.val = true

/-- R115: the request is in progress at port n with these bus cycles, and has left its queue. -/
def Started (s t : State) (n : Fin 64) (net : Net) (q : Pkt) (more : List Pkt) (cs : List BusCycle) (words : List Word)
    (wrote : List DataUnit) : Prop :=
  PortAndNode s t n.val { portGet s n.val with tgt := some { pkt := q, net := net, stat := .ok, words := words, wrote := wrote }, cycles := cs }
    (portNode n.val) net { nodeGet s (portNode n.val) net with rx := more }

theorem Starts.take (h : Starts s n net q more) {sel : Op → Bool} {plan : Pkt → Option (List BusCycle × List Word × List DataUnit)}
    {cs : List BusCycle} {words : List Word} {wrote : List DataUnit} (hsel : sel (opOf q.cmd) = true)
    (hplan : plan q = some (cs, words, wrote)) (hbusy : refusedBusy s n.val busyN cs = false) :
    Started s (tgtTake s n.val net sel busyN plan) n net q more cs words wrote :=
  tgtTake_start h.waits.serves h.waits.room h.waits.oldest h.judged h.free hsel hplan hbusy

theorem portRead_starts {k : Nat} (h : Starts s n net q more) (hop : opOf q.cmd = .read k)
    (hbusy : refusedBusy s n.val busyN (readRun s n.val (byteAddr q.addr) k) = false) :
    Started s (portRead s n.val net busyN) n net q more (readRun s n.val (byteAddr q.addr) k) [] [] :=
  h.take (by rw [hop]; rfl) (by rw [hop]) hbusy

theorem portWrite_starts {k : Nat} (h : Starts s n net q more) (hop : opOf q.cmd = .write k)
    (hbusy : refusedBusy s n.val busyN (writeRun s n.val (byteAddr q.addr) q.data) = false) :
    Started s (portWrite s n.val net busyN) n net q more (writeRun s n.val (byteAddr q.addr) q.data) [] q.data :=
  h.take (by rw [hop]; rfl) rfl hbusy

/-- R135, R136: what a FLAT8 or MUX16 port drives for an atomic, returns and writes, by what its device read. -/
def AtomicPlan (s : State) (n : Nat) (q : Pkt) (u : DataUnit) (us : List DataUnit) (op : Op) (dev : List DevBeat) (cs : List BusCycle)
    (wrote : List DataUnit) : Prop :=
  let rc := readCycles s n (byteAddr q.addr) u.be
  let res := atomicWrite op u.be (gatherWord s n u.be dev).1 u.data ((us.headD u).data)
  (∃ w, res = some w ∧ cs = rc ++ writeCycles s n (byteAddr q.addr) { u with data := w } ∧ wrote = [{ u with data := w }]) ∨
  (res = none ∧ cs = rc ∧ wrote = [])

theorem portAtomic_starts {u : DataUnit} {us : List DataUnit} {op : Op} {cs : List BusCycle} {wrote : List DataUnit}
    (h : Starts s n net q more) (hop : opOf q.cmd = op) (hdata : q.data = u :: us) (hsync : isSync s n.val = false)
    (hlen : dev.length = (readCycles s n.val (byteAddr q.addr) u.be).length) (hplan : AtomicPlan s n.val q u us op dev cs wrote)
    (hbusy : refusedBusy s n.val busyN cs = false) :
    Started s (portAtomic s n.val net op busyN dev) n net q more cs [(gatherWord s n.val u.be dev).1 &&& laneMask u.be] wrote := by
  refine h.take (decide_eq_true hop) ?_ hbusy
  simp only [hdata, hsync, hlen, Bool.false_eq_true, ne_eq, not_true, if_false]
  rcases hplan with ⟨w, hres, rfl, rfl⟩ | ⟨hres, rfl, rfl⟩
  · rw [hres]
  · rw [hres]

/-- R54: the row of an atomic operation. -/
def AtomicRow (n : Fin 64) (busyN : Bool) (dev : List DevBeat) (i : Instr) (op : Op) : Prop :=
  i = .cmdSwap (portNode n.val) busyN dev ∧ op = .swap ∨ i = .cmdFadd (portNode n.val) busyN dev ∧ op = .fadd ∨
  i = .cmdTas (portNode n.val) busyN dev ∧ op = .tas ∨ i = .cmdCas (portNode n.val) busyN dev ∧ op = .cas

theorem AtomicRow.exec {i : Instr} {op : Op} (h : AtomicRow n busyN dev i op) :
    exec i s = .next (portAtomic s n.val (netWith s (portNode n.val) (fun o => decide (o = op))) op busyN dev) := by
  rw [← atomicTake_port]
  rcases h with ⟨rfl, rfl⟩ | ⟨rfl, rfl⟩ | ⟨rfl, rfl⟩ | ⟨rfl, rfl⟩ <;> rfl

theorem targetStartsBusCycles : Rules.TargetStartsBusCycles := by
  intro s n net busyN q more i cs words wrote dev u us op node f old res hrow hserves hroom hold hj hbus hbusy
  have h : Starts s n net q more := ⟨⟨hserves, hroom, hold⟩, hj, hbus⟩
  rcases hrow with ⟨k, rfl, rfl, hop, rfl, rfl, rfl⟩ | ⟨k, rfl, hop, rfl, rfl, rfl⟩ | ⟨hrow, hop, rfl, hdata, hsync, hlen, rfl, hplan⟩
  · exact ⟨_, exec_cmdRead_port, portRead_starts h hop hbusy⟩
  · exact ⟨_, exec_cmdWrite_port, portWrite_starts h hop hbusy⟩
  · exact ⟨_, AtomicRow.exec hrow, portAtomic_starts h hop hdata hsync hlen hplan hbusy⟩

/-! ## Atomics that a SYNC16 device performs -/

/-- R110, R136: the two write beats of an operand, in the lanes of the first operand u. -/
def operandBeats (s : State) (n f : Nat) (u w : DataUnit) : List BusCycle :=
  (List.range 2).map (fun h =>
    { write := true, addr := busAddr s n (f + 2 * h), data := laneOf w.data (2 * h + 1) ++ laneOf w.data (2 * h)
      en := BitVec.ofBool (laneBe u.be (2 * h + 1)) ++ BitVec.ofBool (laneBe u.be (2 * h)) })

/-- R136, R468: the operands that a SYNC16 device gets; a TAS of a whole word has none. -/
def syncOperands (op : Op) (u : DataUnit) (us : List DataUnit) : List DataUnit :=
  match op with
  | .tas => if u.be = 0xF then [] else [{ u with data := laneMask u.be }]
  | _ => u :: us

theorem length_syncBeats (s : State) (n f : Nat) (u : DataUnit) (l : List DataUnit) :
    (l.flatMap (operandBeats s n f u)).length = 2 * l.length := by
  induction l with
  | nil => rfl
  | cons w l ih =>
    simp only [List.flatMap_cons, List.length_append, ih, List.length_cons, operandBeats, List.length_map, List.length_range]
    omega

theorem isFlat_of_isSync {k : Nat} (h : isSync s k = true) : isFlat s k = false := by
  simp only [isSync, decide_eq_true_eq] at h
  simp [isFlat, h]

/-- R97: every beat is a write to a halfword of the word at f. -/
theorem operandBeats_addr {k f : Nat} {u w : DataUnit} {c : BusCycle} (hsync : isSync s k = true) (hc : c ∈ operandBeats s k f u w) :
    c.write = true ∧ (c.addr = BitVec.ofNat 24 f ∨ c.addr = BitVec.ofNat 24 (f + 2)) := by
  have haddr : ∀ a, busAddr s k a = BitVec.ofNat 24 a := fun a => if_neg (by simp [isFlat_of_isSync hsync])
  obtain ⟨h, hh, rfl⟩ := List.mem_map.mp hc
  have hlt : h < 2 := List.mem_range.mp hh
  obtain rfl | rfl : h = 0 ∨ h = 1 := by omega
  · exact ⟨rfl, .inl (haddr _)⟩
  · exact ⟨rfl, .inr (haddr _)⟩

/-- R103: BUSY_N is a pin of FLAT8 devices. -/
theorem refusedBusy_sync (hsync : isSync s n.val = true) (cs : List BusCycle) : refusedBusy s n.val busyN cs = false := by
  simp only [refusedBusy, isFlat_of_isSync hsync, Bool.false_and]

theorem portAtomic_hands {u : DataUnit} {us : List DataUnit} {op : Op} (h : Starts s n net q more) (hop : opOf q.cmd = op)
    (hdata : q.data = u :: us) (hsync : isSync s n.val = true) :
    Started s (portAtomic s n.val net op busyN dev) n net q more
      ((syncOperands op u us).flatMap (operandBeats s n.val (byteAddr q.addr) u)) [] [] := by
  refine h.take (decide_eq_true hop) ?_ (refusedBusy_sync hsync _)
  simp only [hdata, hsync, if_true]
  rfl

theorem syncAtomicGoesToDevice : Rules.SyncAtomicGoesToDevice := by
  intro s n busyN q more i dev u us op node net hrow hop hdata hsync hserves hroom hold hj hbus
  have hstart := portAtomic_hands (busyN := busyN) (dev := dev) ⟨⟨hserves, hroom, hold⟩, hj, hbus⟩ hop hdata hsync
  refine ⟨_, _, AtomicRow.exec hrow, (length_syncBeats ..).trans (congrArg (2 * ·) ?_), fun c hc => ?_, hstart⟩
  · rcases hrow with ⟨-, rfl⟩ | ⟨-, rfl⟩ | ⟨-, rfl⟩ | ⟨-, rfl⟩
    case inr.inr.inl => dsimp only [syncOperands]; split <;> rfl
    all_goals rfl
  · obtain ⟨w, -, hw⟩ := List.mem_flatMap.mp hc
    exact operandBeats_addr hsync hw

/-- Settles O13: a port runs the cycles of its request, or hands a SYNC16 device the operands of an atomic. -/
theorem targetsPerformRequests : Obligations.TargetsPerformRequests := ⟨targetStartsBusCycles, syncAtomicGoesToDevice⟩

/-! ## The end of a request -/

/-- R393: the port after the last bus cycle of its request, the bytes of it counted. -/
def requestEnded (s : State) (n : Nat) (dev : List DevBeat) (p : PortSt) : PortSt :=
  { p with tgt := none, claimed := false, bytesRd := p.bytesRd + BitVec.ofNat 32 (readCount s n p.cycles dev)
           bytesWr := p.bytesWr + BitVec.ofNat 32 (cycleBytes true p.cycles) }

theorem targetRequestDone_answers {r : TgtReq} {ds wrote : List DataUnit} (htgt : (portGet s n.val).tgt = some r)
    (hroom : (nodeGet s (portNode n.val) .rsp).out = []) (hres : tgtResult s n.val r dev = some (ds, wrote)) :
    exec (.targetRequestDone n dev) s = .next (
      let s2 := respond (portMod s n.val (requestEnded s n.val dev)) r.pkt .ok ds
      if wrote.isEmpty then s2 else watchNotify s2 n.val r.pkt wrote) := by
  change execTargetRequestDone n dev s = _
  simp only [execTargetRequestDone, htgt, hroom, hres, List.isEmpty_nil, Bool.true_eq_false, if_false]
  rfl

/-- R55: the answer is all that the output on RSP then holds. -/
theorem respond_after {r : Pkt} {ds : List DataUnit} {st : Status} (f : PortSt → PortSt) (hd : r.dnode = portNode n.val)
    (hroom : (nodeGet s (portNode n.val) .rsp).out = []) :
    PortAndNode s (respond (portMod s n.val f) r st ds) n.val (f (portGet s n.val)) (portNode n.val) .rsp
      { nodeGet s (portNode n.val) .rsp with out := pktUnits (responsePkt r st ds) } := by
  unfold respond sendPkt
  rw [hd]
  refine PortAndNode.chain ((PortBecomes.refl s n.val).mod f) ?_ (fun k m hne => nodeGet_nodeMod_ne _ _ _ _ _ _ hne) rfl rfl
  rw [nodeGet_nodeMod_same, PortBecomes.nodeGet ((PortBecomes.refl s n.val).mod f), hroom]
  rfl

/-- R213: the notifications depend on the configuration alone. -/
theorem PortsOnly.watchList (h : PortsOnly s t) (k : Nat) (q : Pkt) (wrote : List DataUnit) :
    Machine.watchList t k q wrote = Machine.watchList s k q wrote := by
  obtain ⟨_, _, _, _, _, rfl⟩ := h.open
  rfl

theorem PortsOnly.inTable (h : PortsOnly s t) (c : Byte) : Machine.inTable t c = Machine.inTable s c := by
  obtain ⟨_, _, _, _, _, rfl⟩ := h.open
  rfl

theorem watchNotify_none {k : Nat} {wrote : List DataUnit} (h : watchList s k q wrote = []) : watchNotify s k q wrote = s := by
  simp only [watchNotify, h, List.filter_nil, List.foldl_nil, List.isEmpty_nil, if_true]

/-- R214: with no notification before it, the first to leave is driven at once, and the rest wait in the send buffer. -/
theorem watchNotify_sends {wrote : List DataUnit} {w : Pkt} {ws : List Pkt} (hlist : watchList s n.val q wrote = w :: ws)
    (hin : ∀ v ∈ w :: ws, inTable s v.dchip = true) (hbuf : (portGet s n.val).wsend = [])
    (hsnp : (nodeGet s (portNode n.val) .snp).out = []) :
    PortAndNode s (watchNotify s n.val q wrote) n.val { portGet s n.val with wsend := ws } (portNode n.val) .snp
      { nodeGet s (portNode n.val) .snp with out := pktUnits w } := by
  have hlive : (w :: ws).filter (fun v => inTable s v.dchip) = w :: ws := List.filter_eq_self.mpr hin
  have hgone : (w :: ws).filter (fun v => !inTable s v.dchip) = [] := List.filter_eq_nil_iff.mpr fun v hv => by simp [hin v hv]
  have hkept : nodeGet (portMod s n.val (fun p => { p with wsend := w :: ws })) (portNode n.val) .snp =
      nodeGet s (portNode n.val) .snp := rfl
  have hsent : watchNotify s n.val q wrote =
      sendPkt (portMod (portMod s n.val (fun p => { p with wsend := w :: ws })) n.val (fun p => { p with wsend := ws }))
        (portNode n.val) .snp w := by
    simp only [watchNotify, hlist, hlive, hgone, List.foldl_nil, List.isEmpty_cons, Bool.false_eq_true, if_false, hbuf, hsnp,
      List.isEmpty_nil, Bool.and_self, if_true, watchPump, hkept, portGet_portMod_same]
  have hport := ((PortBecomes.refl s n.val).mod (fun p => { p with wsend := w :: ws })).mod (fun p => { p with wsend := ws })
  rw [hsent]
  refine PortAndNode.chain hport ?_ (fun k m hne => nodeGet_nodeMod_ne _ _ _ _ _ _ hne) rfl rfl
  rw [sendPkt, nodeGet_nodeMod_same, hport.nodeGet, hsnp, List.nil_append]

theorem targetAnswersWhenDone : Rules.TargetAnswersWhenDone := by
  intro s n dev r ds wrote node p p1 q1 htgt hd hroom hres
  have hexec := targetRequestDone_answers htgt hroom hres
  have hsent := respond_after (ds := ds) (st := .ok) (requestEnded s n.val dev) hd hroom
  have ⟨hport, hother, hrsp, hnodes, hframe⟩ := hsent
  refine ⟨fun hquiet => ?_, fun w ws hwrote hlist hin hbuf hsnp => ?_⟩
  · refine ⟨_, hexec, ?_⟩
    dsimp only
    by_cases hempty : wrote = []
    · rw [if_pos (by simp [hempty])]
      exact hsent
    · rw [if_neg (by simp [hempty]), watchNotify_none ((hframe.watchList ..).trans (hquiet.resolve_left hempty))]
      exact hsent
  · obtain ⟨hport', -, hsnp', hnodes', hframe'⟩ := watchNotify_sends ((hframe.watchList ..).trans hlist)
      (fun v hv => (hframe.inTable _).trans (hin v hv)) ((congrArg PortSt.wsend hport).trans hbuf)
      ((congrArg NodeQ.out (hnodes node .snp (by simp))).trans hsnp)
    dsimp only at hexec
    rw [if_neg (by simp [hwrote])] at hexec
    refine ⟨_, hexec, hport'.trans (congrArg (fun x : PortSt => { x with wsend := ws }) hport), ?_, congrArg NodeQ.out hsnp',
      hframe.trans hframe'⟩
    exact (hnodes' node .rsp (by simp)).trans hrsp

theorem busIsClaimed : Rules.BusIsClaimed := by
  intro s n valid p hdual hserves hfree hidle hwanted
  change execBusClaim n valid s = _
  have hmay : (isDual s n.val && niServes s n.val && !p.claimed && decide (p.bus.phase ≠ .waiting) && busWanted s n.val) = true := by
    simp [hdual, hserves, hfree, hidle, hwanted]
  unfold execBusClaim
  rw [if_pos hmay]
  by_cases hfirst : valid = true ∧ p.claiming = false
  · rw [if_pos (by simpa using hfirst), if_pos hfirst]
    rfl
  · rw [if_neg (by simpa using hfirst), if_neg hfirst]
    rfl

/-- Settles O16: the answer leaves first and the notifications after it (watchNotify_sends); a DUAL port's bus is claimed. -/
theorem targetsAnswerWhenDone : Obligations.TargetsAnswerWhenDone := ⟨targetAnswersWhenDone, busIsClaimed⟩

/-! ## PIRQ -/

/-- R247: the doorbell write that port n forwards for PIRQCFG word w, as one part. -/
def bellPart (w : Word) : Part :=
  { cmd := cmdOf (.write 1), addr := bellAddr (fieldNat w 0 6), data := [bellData (fieldNat w 6 4)] }

/-- R119, R139, R142, R143: with none outstanding, its chip in the ring, a tag FREE and no hazard, the write is driven and counted. -/
theorem pirqSend_sends {k : Nat} {tag : Byte} {ts : List Byte} (hout : (portGet s k).fwdOut = false) (hreq : mayRequest s k = true)
    (hin : inTable s ((pirqcfg s k).extractLsb' 10 8) = true) (hfree : (portGet s k).pool.free = tag :: ts)
    (hhaz : hazard (portGet s k).pool ((pirqcfg s k).extractLsb' 10 8) nodeBob = false) :
    pirqSend s k = bump (portSend (portMod s k (fun q => { q with fwdOut := true, fwdDue := false })) k tag
      ((pirqcfg s k).extractLsb' 10 8) nodeBob 2 (dcid s k) (bellPart (pirqcfg s k)) false .pirq) (.port k) pPIRQFWD := by
  simp only [pirqSend, hout, hreq, hin, hfree, hhaz, Bool.not_true, Bool.or_self, Bool.false_eq_true, Bool.true_eq_false, if_false]
  rfl

/-- R119: the port with the forwarded write outstanding under a tag. -/
def forwarding (tag : Byte) (x : Tag) (p : PortSt) : PortSt := tagTaken tag x { p with fwdOut := true, fwdDue := false }

theorem PortAndNode.counts {u : State} {k : Nat} {node : BitVec 7} {x : NodeQ} (h : PortAndNode s t k p node net x) (c : CountsOnly t u) :
    PortAndNode s u k p node net x :=
  h.port (h.self.counts c)

/-- R33, R38, R247: the doorbell write of port n as a packet. -/
def bellPkt (s : State) (n : Nat) (tag : Byte) : Pkt :=
  portPkt s n tag ((pirqcfg s n).extractLsb' 10 8) nodeBob 2 (dcid s n) (bellPart (pirqcfg s n))

theorem pirqSend_becomes {tag : Byte} {ts : List Byte} (h : PortBecomes s t n.val p) (hout : p.fwdOut = false)
    (hreq : mayRequest t n.val = true) (hin : inTable s ((pirqcfg s n.val).extractLsb' 10 8) = true) (hfree : p.pool.free = tag :: ts)
    (hhaz : hazard p.pool ((pirqcfg s n.val).extractLsb' 10 8) nodeBob = false) :
    let pkt := bellPkt s n.val tag
    PortAndNode s (pirqSend t n.val) n.val (forwarding tag (reqTag s n.val pkt false .pirq) p)
      (portNode n.val) (reqNet s n.val pkt) ((nodeGet s (portNode n.val) (reqNet s n.val pkt)).sends pkt) := by
  intro pkt
  have ⟨hport, _, _, hframe⟩ := h
  have hcfg : pirqcfg t n.val = pirqcfg s n.val := by unfold pirqcfg cfgGet; rw [h.cfg]
  have hdcid : dcid t n.val = dcid s n.val := by unfold dcid pcfg cfgGet; rw [h.cfg]
  rw [pirqSend_sends (by rw [hport]; exact hout) hreq (by rw [hcfg, hframe.inTable]; exact hin) (by rw [hport]; exact hfree)
    (by rw [hport, hcfg]; exact hhaz), hcfg, hdcid]
  exact ((h.mod _).portSend ..).counts (bump_shape ..)

/-- R119: what an activation or a repeat adds to port n before the write goes. -/
theorem exec_pirqActivation (hon : pirqOn s n.val = true) (hin : (portGet s n.val).pirqIn = false) :
    exec (.pirqActivation n) s = .next (pirqSend (portMod s n.val (fun p => { p with pirqIn := true })) n.val) :=
  if_pos (by simp [hon, hin])

theorem exec_pirqRepeat (hon : pirqOn s n.val = true) (hin : (portGet s n.val).pirqIn = true)
    (hrepeats : fieldNat (pirqcfg s n.val) 19 3 ≠ 0) : exec (.pirqRepeat n) s = .next (pirqSend s n.val) :=
  if_pos (by simp [hon, hin, hrepeats])

theorem mayRequest_pirqIn : mayRequest (portMod s n.val (fun p => { p with pirqIn := true })) n.val = mayRequest s n.val := by
  simp only [mayRequest, niFree, portGet_portMod_same]
  rfl

/-- R119: either row leads to one forwarded write, from a state in which PIRQ is seen active. -/
theorem pirqRow_sends {i : Instr} (hon : pirqOn s n.val = true)
    (hrow : (i = .pirqActivation n ∧ (portGet s n.val).pirqIn = false) ∨
      (i = .pirqRepeat n ∧ (portGet s n.val).pirqIn = true ∧ fieldNat (pirqcfg s n.val) 19 3 ≠ 0)) :
    ∃ u, exec i s = .next (pirqSend u n.val) ∧ PortBecomes s u n.val { portGet s n.val with pirqIn := true } ∧
      mayRequest u n.val = mayRequest s n.val := by
  rcases hrow with ⟨rfl, hin⟩ | ⟨rfl, hin, hrepeats⟩
  · exact ⟨_, exec_pirqActivation hon hin, (PortBecomes.refl s n.val).mod _, mayRequest_pirqIn⟩
  · refine ⟨s, exec_pirqRepeat hon hin hrepeats, ?_, rfl⟩
    rw [← hin]
    exact .refl s n.val

/-- R247: byte address BOBBIN × 256 + 8 as a word address. -/
theorem bellAddr_eq (b : Nat) : bellAddr b = BitVec.ofNat 30 (b * 64 + 2) := by
  unfold bellAddr
  congr 1
  omega

/-- R54: a one-word write travels on DAT in SPLIT mode alone. -/
theorem reqNet_write (s : State) (k : Nat) {pkt : Pkt} (h : pkt.cmd = 0x20) : reqNet s k pkt = if splitMode s k then Net.dat else .req := by
  have hop : opOf 0x20 = .write 1 := by decide
  simp only [reqNet, h, hop, netOf]
  cases splitMode s k <;> rfl

theorem pirqIsForwarded : Rules.PirqIsForwarded := by
  intro s n i tag ts p w chip pkt hrow hon hout hreq hin hfree hhaz
  obtain ⟨u, hexec, hactive, hmay⟩ := pirqRow_sends hon hrow
  obtain ⟨hport, hother, hnode, hnodes, hframe⟩ := pirqSend_becomes hactive hout (hmay.trans hreq) hin hfree hhaz
  have hpkt : bellPkt s n.val tag = pkt := by
    simp only [bellPkt, portPkt, bellPart, bellAddr_eq]
    rfl
  rw [hpkt] at hport hnode hnodes
  refine ⟨_, _, hexec, ?_, by rw [hport]; rfl, by rw [hport]; rfl, by rw [hport]; rfl, ?_, ?_, hother, congrArg NodeQ.out hnode,
    hnodes, hframe⟩
  · exact reqNet_write s n.val rfl
  · rw [hport]
    exact congrArg Tag.st (tagAt_tagPut_same p.pool tag (reqTag s n.val pkt false .pirq))
  · rw [hport]
    exact congrArg (List.drop 1) hfree

theorem pirqReadsInactive : Rules.PirqReadsInactive := fun _ _ hon => if_pos hon

/-- Settles O19: both rows come down to one `pirqSend`, and the level read inactive is only noted. -/
theorem pirqIsForwardedOnce : Obligations.PirqIsForwardedOnce := ⟨pirqIsForwarded, pirqReadsInactive⟩

end Sys2Proof.Machine
end

section
/-!
The windows and transactions family: a request that waits for its target to wake and is driven again (R144, R145).
-/
namespace Sys2Proof.Machine

variable {s t : State} {n : Fin 64} {p : PortSt}

/-! ## ASLEEP-WAKING -/

/-- R113, R144: ASLEEP-WAKING is no completion but for a PROBE. -/
theorem waitsOn_aslWaking {x : Tag} (hop : opOf x.cmd ≠ .probe) (hpkt : x.pkt ≠ []) : waitsOn x .aslWaking = true := by
  simp [waitsOn, hop, hpkt]

/-- R144 step 3: only ASLEEP asks for the wake; ASLEEP-WAKING marks the tag for a retry, and that is all. -/
theorem wakeStep_aslWaking (s : State) (k : Nat) (tag : Byte) (x : Tag) :
    wakeStep s k tag x .aslWaking = portMod s k (fun p => { p with pool := tagPut p.pool tag { x with retry := true } }) := by
  simp [wakeStep]

theorem portMatch_waits {pk : Pkt} {ws : List Word} {st : Status} (hheld : (tagAt (portGet s n.val).pool pk.tag).st = .held)
    (hv : rspVerdict (tagAt (portGet s n.val).pool pk.tag).cmd pk = .done st ws)
    (hw : waitsOn (tagAt (portGet s n.val).pool pk.tag) st = true) :
    portMatch s n.val pk = wakeStep s n.val pk.tag (tagAt (portGet s n.val).pool pk.tag) st := by
  simp only [portMatch, hheld, hv, hw, if_true]

theorem asleepWakingKeepsTag : Rules.AsleepWakingKeepsTag := by
  intro s n pk more ws p x hcalm hrx halive hdue hheld hv hop hpkt
  obtain ⟨hq, hother, hports, hframe⟩ := rxDrop_facts s (portNode n.val) .rsp hrx
  have hport : portGet (rxDrop s (portNode n.val) .rsp) n.val = p := congrArg (tget _ · _) hports
  have hmarked := (PortBecomes.refl (rxDrop s (portNode n.val) .rsp) n.val).mod
    (fun y => { y with pool := tagPut y.pool pk.tag { x with retry := true } })
  rw [hport] at hmarked
  have hexec := exec_responseMatch_port hrx halive
  rw [portMatch_waits (by rw [hport]; exact hheld) (by rw [hport]; exact hv) (by rw [hport]; exact waitsOn_aslWaking hop hpkt),
    hport, wakeStep_aslWaking, hmarked.settled (hframe.calm hcalm) hdue] at hexec
  exact ⟨_, hexec, .of hmarked hports hq hother hframe⟩

/-! ## WAKE_RETRY -/

/-- R75, R144 step 5: a request that is due again and fits the budget is charged, and its units are driven as they were. -/
theorem exec_wakeRetry {tag : Byte} {x : Tag} {q : Pkt} (htag : tagAt (portGet s n.val).pool tag = x) (hheld : x.st = .held)
    (hretry : x.retry = true) (hreq : mayRequest s n.val = true) (hparse : parsePkt x.pkt = some q)
    (hfits : isoCost s q.cls (opOf x.cmd) ≤ (portGet s n.val).isoLeft.toNat) :
    exec (.wakeRetry n tag) s = .next (bump (nodeMod
      (portMod (isoSpend s n.val (isoCost s q.cls (opOf x.cmd))) n.val (fun y => { y with pool := tagPut y.pool tag { x with retry := false } }))
      (portNode n.val) x.net (fun z => { z with out := z.out ++ x.pkt })) (.port n.val) pRETRY) := by
  change execWakeRetry n tag s = _
  simp [execWakeRetry, htag, hheld, hretry, hreq, hparse, Nat.not_lt.mpr hfits]

theorem retryDrivesPacketAgain : Rules.RetryDrivesPacketAgain := by
  intro s n tag q p x cost hheld hretry hreq hparse hfits
  have hport := (isoSpend_spec (PortBecomes.refl s n.val) cost).mod
    (fun y => { y with pool := tagPut y.pool tag { x with retry := false } })
  have hdriven := PortAndNode.chain hport (nodeGet_nodeMod_same _ (portNode n.val) x.net (fun z => { z with out := z.out ++ x.pkt }))
    (fun k m hne => nodeGet_nodeMod_ne _ _ _ _ _ _ hne) rfl (nodeMod_frame ..).toPorts
  rw [hport.nodeGet] at hdriven
  exact ⟨_, exec_wakeRetry rfl hheld hretry hreq hparse hfits, hdriven.counts (bump_shape ..)⟩

/-- Settles O12: the answer only marks the tag, and the retry charges the budget and drives the packet that the tag keeps. -/
theorem asleepAccessesAreDrivenAgain : Obligations.AsleepAccessesAreDrivenAgain := ⟨asleepWakingKeepsTag, retryDrivesPacketAgain⟩

end Sys2Proof.Machine
end

section
/-!
The windows and transactions family: the basted set, which a write fills, ABANDON empties, and STITCH makes live (R125, R127, R356 to R358).
-/
namespace Sys2Proof.Machine

variable {s x : State} {o : Origin} {by_ : By} {raw v : Word} {be : BitVec 4} {b i : Nat}

/-! ## A basting write -/

/-- R356: a write of a basted word goes to the set. -/
theorem writeWord_basted {req : Option (Pkt × Nat)} (h : isBasted b i = true) :
    writeWord x o (.bank b i) raw be req = basteWrite x o b i raw be := by
  obtain ⟨-, h81, -, -⟩ := baste_facts h
  unfold writeWord
  simp only [h, if_true]
  split
  case h_5 heq => simp only [Wd.bank.injEq] at heq; exact absurd heq.1 h81
  case h_6 => rfl
  all_goals contradiction

/-- R90, R92: whether a code is reserved does not hang on what the taking of an access changes. -/
theorem Taken.bankReserved (hx : Taken s x) (b i : Nat) (old v : Word) :
    Machine.bankReserved x b i old v = Machine.bankReserved s b i old v := by
  unfold Machine.bankReserved
  simp only [hx.pcfgBad]

theorem basteWrite_enters (hres : bankReserved x b i (bastedOr x b i) v = false) (hv : mergeWord (bankFields b i) (bastedOr x b i) raw be = v)
    (hown : ownsSet x o = true) (hright : ∀ f ∈ bankFields b i, ∀ k, f.right = some k → holdsRight x o k = true)
    (hst : x.sys.stitch = none) (hfull : setFull x b i = false) : basteWrite x o b i raw be = .done (basteIn x o b i v) := by
  have hall : (bankFields b i).all (hasRight x o) = true := List.all_eq_true.mpr fun f hf => by
    unfold hasRight
    cases hk : f.right with
    | none => rfl
    | some k => exact hright f hf k hk
  simp only [basteWrite, hv, reservedCode, hres, hown, lacks_none hright, hall, hst, hfull, Option.isSome_none, Bool.not_true,
    Bool.false_eq_true, if_false]

/-- R356: what enters the set enters it over whatever the taking of the access left. -/
theorem Taken.basteIn (hx : Taken s x) : Machine.basteIn x o b i v = overlay x (Machine.basteIn s o b i v) := by
  rw [hx.eq]; rfl

theorem wordsAreBasted : Rules.WordsAreBasted := by
  intro s b i by_ raw v be hcalm hw hbast hv hright hres hown hst hfull
  have hrights : ∀ f ∈ bankFields b i, ∀ k, f.right = some k → holdsRight s (askOrigin s by_) k = true :=
    fun f hf k hk => hright f.right (List.mem_map_of_mem hf) k hk
  obtain ⟨hhas, -, -, -⟩ := baste_facts hbast
  obtain ⟨t, hexec, honly, hends, hjrn⟩ := write_row (e := basteIn s (askOrigin s by_) b i v) (Q := fun j => j = s.jrn)
    (sel := fun _ wd _ => match wd with | .bank b i => isBasted b i | _ => false) hw hbast ⟨hhas, rfl⟩
    (fun x req hx => by
      obtain ⟨-, hor, hset, howns, hstitch, -, -⟩ := basted_same hx b i
      refine ⟨_, (writeWord_basted hbast).trans (basteWrite_enters (v := v) ?_ ?_ ?_ ?_ ?_ ?_), ?_, ?_⟩
      · rw [hx.bankReserved, hor]; exact hres
      · rw [hor]; exact hv.symm
      · rw [howns]; exact hown
      · exact fun f hf k hk => (hx.holdsRight ..).trans (hrights f hf k hk)
      · exact hstitch.trans hst
      · exact hset.trans hfull
      · rw [hx.basteIn]; exact .refl _
      · exact hx.jrn)
    hcalm (fun hon => hon)
  refine ⟨t, congrArg Host.Outcome.next hexec, hends, hjrn, ?_, honly⟩
  have hset : t.sys.basted = tput s.sys.basted (cfgKey b i) v := by rw [honly]; rfl
  simp only [bastedAt, hset, find_tput, Option.map_some]

/-! ## ABANDON -/

theorem bastingCmd_abandon {req : Option (Pkt × Nat)} (hst : x.sys.stitch = none) (hown : ownsSet x o = true ∨ o = .host) :
    bastingCmd x o 2 req = .done (basteEmpty x) := by
  have hmay : (ownsSet x o || decide (o = .host)) = true := by simpa using hown
  simp [bastingCmd, hst, hmay]

theorem abandonEmptiesTheSet : Rules.AbandonEmptiesTheSet := by
  intro s by_ raw be hcalm hw hst hbe hcmd hown
  have hsel : (decide (Wd.bank 0x88 0 = .bank 0x88 0) && decide (fieldNat raw 0 2 = 2)) = true := by simp [fieldNat_low raw 2 hcmd]
  obtain ⟨t, hexec, honly, hends, hjrn⟩ := write_row (e := basteEmpty s) (Q := fun j => j = s.jrn)
    (sel := fun _ wd v => decide (wd = .bank 0x88 0) && decide (fieldNat v 0 2 = 2)) hw hsel ⟨rfl, rfl⟩
    (fun x req hx => by
      obtain ⟨-, -, -, howns, hstitch, -, -⟩ := basted_same hx 0x88 0
      refine ⟨basteEmpty x, (bastCmd_go hbe hcmd (.inr rfl)).trans
        (bastingCmd_abandon (hstitch.trans hst) (hown.imp_left (howns _).trans)), ?_, hx.jrn⟩
      rw [hx.eq]; exact .refl _)
    hcalm (fun hon => hon)
  exact ⟨t, congrArg Host.Outcome.next hexec, hends, hjrn, honly⟩

/-! ## STITCH: the words that go live -/

/-- The words of the set that their ports apply (R358 step 3). -/
def setWords (s : State) : List (Nat × Word) := s.sys.basted.filter (fun e => decide (e.1 / 65536 < 64))

/-- R127, R358: the words of the chip once every word of the set is live. -/
def stitchedCfg (s : State) : Table Word :=
  (setAuth s).foldl (fun m e => tset cfgReset m (cfgKey 0x80 e.1.toNat) (e.2.setWidth 32))
    ((setWords s).foldl (fun m e => tset cfgReset m (cfgKey (e.1 / 65536) (e.1 % 65536)) e.2) s.cfg)

/-- R358 steps 3 to 5: the set is live and empty. -/
def stitched (s : State) : State :=
  { s with cfg := stitchedCfg s, sys := { s.sys with basted := [], baster := none, stitch := none, result := 0 } }

theorem stitched_idle (h : s.sys.stitch = none) :
    stitched s = { s with cfg := stitchedCfg s, sys := { s.sys with basted := [], baster := none, result := 0 } } := by
  unfold stitched
  rw [← h]

/-- An authority word of the set, as setAuth keeps it, goes to the key of its client's rights. -/
theorem mem_setAuth {a : Byte × Byte} : a ∈ setAuth s ↔
    ∃ e ∈ s.sys.basted, e.1 / 65536 = 0x80 ∧ (BitVec.ofNat 8 (e.1 % 65536), e.2.extractLsb' 0 8) = a := by
  simp only [setAuth, List.mem_map, List.mem_filter, decide_eq_true_eq, and_assoc]

theorem mem_setWords {e : Nat × Word} : e ∈ setWords s ↔ e ∈ s.sys.basted ∧ e.1 / 65536 < 64 := by
  simp only [setWords, List.mem_filter, decide_eq_true_eq]

theorem cfgKey_rights (k : Nat) : cfgKey 0x80 (BitVec.ofNat 8 (k % 65536)).toNat = 0x80 * 65536 + k % 256 := by
  simp only [cfgKey, BitVec.toNat_ofNat]
  omega

/-- A key that no authority word of the set goes to holds what the ports applied. -/
theorem stitchedCfg_noAuth {k : Nat} (h : ∀ d ∈ s.sys.basted, d.1 / 65536 = 0x80 → 0x80 * 65536 + d.1 % 256 ≠ k) :
    tget cfgReset (stitchedCfg s) k =
      tget cfgReset ((setWords s).foldl (fun m e => tset cfgReset m (cfgKey (e.1 / 65536) (e.1 % 65536)) e.2) s.cfg) k := by
  refine (fold_tset cfgReset _ _ (setAuth s) _ k).1 fun a ha => ?_
  obtain ⟨d, hd, hbank, rfl⟩ := mem_setAuth.mp ha
  exact (cfgKey_rights d.1).trans_ne (h d hd hbank)

/-- R358 step 3: a port's word is live, when the set holds no other word for it. -/
theorem stitchedCfg_port {e : Nat × Word} (he : e ∈ s.sys.basted) (hport : e.1 / 65536 < 64)
    (hone : ∀ d ∈ s.sys.basted, d.1 = e.1 → d = e) : tget cfgReset (stitchedCfg s) e.1 = e.2 := by
  rw [stitchedCfg_noAuth fun d _ _ => by omega]
  refine (fold_tset cfgReset _ _ (setWords s) _ e.1).2 e.2 ⟨e, mem_setWords.mpr ⟨he, hport⟩, cfgKey_divmod e.1⟩ fun d hd hk => ?_
  rw [hone d (mem_setWords.mp hd).1 ((cfgKey_divmod d.1).symm.trans hk)]

/-- R354, R358: a client's rights are live, when the set holds no other word for it. -/
theorem stitchedCfg_rights {e : Nat × Word} (he : e ∈ s.sys.basted) (hbank : e.1 / 65536 = 0x80) (hcid : e.1 % 65536 < 256)
    (hone : ∀ d ∈ s.sys.basted, d.1 / 65536 = 0x80 → d.1 % 256 = e.1 % 256 → d = e) :
    tget cfgReset (stitchedCfg s) e.1 = (e.2.extractLsb' 0 8).setWidth 32 := by
  have hkey : 0x80 * 65536 + e.1 % 256 = e.1 := by omega
  refine (fold_tset cfgReset _ _ (setAuth s) _ e.1).2 _ ⟨_, mem_setAuth.mpr ⟨e, he, hbank, rfl⟩, (cfgKey_rights e.1).trans hkey⟩ fun a ha hk => ?_
  obtain ⟨d, hd, hdbank, rfl⟩ := mem_setAuth.mp ha
  have hsame : d.1 % 256 = e.1 % 256 := by
    have := (cfgKey_rights d.1).symm.trans hk
    omega
  rw [hone d hd hdbank hsame]

/-- A word that the set does not name stays as it was. -/
theorem stitchedCfg_other {k : Nat}
    (h : ∀ e ∈ s.sys.basted, e.1 ≠ k ∧ (e.1 / 65536 = 0x80 → k / 65536 = 0x80 → e.1 % 256 ≠ k % 256)) :
    tget cfgReset (stitchedCfg s) k = tget cfgReset s.cfg k := by
  rw [stitchedCfg_noAuth fun d hd hbank hk => (h d hd).2 hbank (by omega) (by omega)]
  refine (fold_tset cfgReset _ _ (setWords s) _ k).1 fun d hd => ?_
  exact (cfgKey_divmod d.1).trans_ne (h d (mem_setWords.mp hd).1).1

/-! ## STITCH: the row -/

/-- R358: the words of the set that differ from the live ones. -/
def setChanged (s : State) : List (Nat × Word) := s.sys.basted.filter (fun e => decide (e.2 ≠ cfgGet s (e.1 / 65536) (e.1 % 65536)))

/-- From s on, a journal staged one entry for each of these words, in order, with this origin's kind and the time of s (R358 step 2). -/
def StagesWords (s : State) (o : Origin) (l : List (Nat × Word)) (j : Journal) : Prop :=
  ∃ es, j.staging = s.jrn.staging ++ es ∧ es.map (fun e => (e.tid, e.value)) = l.map (fun e => (tidBank (e.1 / 65536) (e.1 % 65536), e.2)) ∧
    ∀ e ∈ es, e.okind = originKind o ∧ e.ts = s.time.ts

/-- R354, R358 step 3: with no authority word for a master, every word goes live and the STITCH ends. -/
theorem stitchApply_here {t : Stitch} (h : underMaster s = false ∨ setAuth s = []) :
    stitchApply s t = stitchFinish { s with cfg := stitchedCfg s } t := by
  have hhere : (underMaster s && !(setAuth s).isEmpty) = false := by
    rcases h with h | h <;> simp [h]
  simp only [stitchApply, hhere, Bool.false_eq_true, if_false, fold_cfgSet]
  rfl

theorem bastingCmd_stitch {req : Option (Pkt × Nat)} (hst : x.sys.stitch = none) (hown : ownsSet x o = true) (hset : x.sys.basted ≠ [])
    (hcheck : stitchCheck x o = 0) : bastingCmd x o 1 req = .later (stitchStart x o req) := by
  simp [bastingCmd, hst, hown, hset, hcheck]

/-- R358: a STITCH with room for its entries places them, applies the set and ends its access at once. -/
theorem stitchStart_spec {req : Option (Pkt × Nat)} (hnv : nvOn x = true) (hroom : x.jrn.staging.length + (setChanged x).length ≤ 64)
    (hauth : underMaster x = false ∨ setAuth x = []) (hreq : ∀ p k, req = some (p, k) → k = 0 ∧ p.data.length = 1) :
    ∃ z u, stitchStart x o req = (match req with | some (p, _) => respond (stitched z) p .ok [] | none => hostEnd (stitched z)) ∧
      JournalOnly (sysMod x (fun y => { y with stitch := u })) z ∧ StagesWords x o (setChanged x) z.jrn := by
  obtain ⟨z, hrun, honly, hstaged⟩ := stitchPump_spec o req (setChanged x) 514
    (sysMod x (fun y => { y with stitch := some { who := o, req := req, left := setChanged x, auth := [] } })) rfl hnv hroom (by omega)
  have hauthz : underMaster z = false ∨ setAuth z = [] := by
    obtain ⟨_, _, _, _, rfl⟩ := honly.open
    exact hauth
  refine ⟨z, _, ?_, honly, hstaged⟩
  refine (hrun.trans (stitchApply_here hauthz)).trans ((stitchFinish_applied _ o req [] [] hreq).trans ?_)
  rfl

theorem stitchAppliesTheSet : Rules.StitchAppliesTheSet := by
  intro s by_ raw be hcalm hnv hw hst hbe hcmd hown hset hcheck hauth changed hroom
  have hsel : (decide (Wd.bank 0x88 0 = .bank 0x88 0) && decide (fieldNat raw 0 2 = 1)) = true := by simp [fieldNat_low raw 1 hcmd]
  obtain ⟨t, hexec, hends, honly, hstaged⟩ := bank_row
    (P := fun g => AccessOnly (stitched s) g ∧ StagesWords s (askOrigin s by_) changed g.jrn)
    (sel := fun _ wd v => decide (wd = .bank 0x88 0) && decide (fieldNat v 0 2 = 1)) hw hsel rfl
    (fun x req hx hreq => by
      obtain ⟨-, -, -, howns, hstitch, hbasted, -⟩ := basted_same hx 0x88 0
      have hwrite := (bastCmd_go (x := x) (req := req) hbe hcmd (.inl rfl)).trans (bastingCmd_stitch (hstitch.trans hst) ((howns _).trans hown)
        (hbasted ▸ hset) ((stitchCheck_same hx _).trans hcheck))
      have hchanged : setChanged x = changed := by rw [hx.eq]; rfl
      have hauthx : underMaster x = false ∨ setAuth x = [] := by rw [hx.eq]; exact hauth
      obtain ⟨z, u, hstart, honly, hstaged⟩ := stitchStart_spec (o := askOrigin s by_) (hx.nvOn.trans hnv)
        (by rw [hchanged, hx.jrn]; exact hroom) hauthx hreq
      refine ⟨stitched z, .inr (hwrite.trans (congrArg WRes.later hstart)), by rw [honly]; rfl, ?_, ?_, ?_⟩
      · rw [honly]; exact ⟨rfl, fun _ _ => rfl⟩
      · obtain ⟨_, _, _, _, rfl⟩ := honly.open
        rw [hx.eq]; rfl
      · rw [hchanged] at hstaged
        unfold StagesWords at hstaged ⊢
        rw [hx.jrn, hx.time] at hstaged
        exact hstaged)
    (fun _ h m ⟨honly, hstaged⟩ => ⟨honly.jrn_free h m, hstaged⟩) (fun _ ⟨honly, _⟩ => settle_calm (honly.calm hcalm))
    (fun _ ⟨honly, _⟩ hon => honly.sysOn.trans hon)
  have hcfg : t.cfg = stitchedCfg s := by rw [honly]; rfl
  refine ⟨t, congrArg Host.Outcome.next hexec, hends, hstaged, fun e he hone => ⟨fun hport => ?_, fun hbank hcid => ?_⟩, fun k hk => ?_, ?_⟩
  · rw [hcfg]
    exact stitchedCfg_port he hport fun d hd hk => hone d hd (.inl hk)
  · rw [hcfg]
    exact stitchedCfg_rights he hbank hcid fun d hd hdbank hk => hone d hd (.inr ⟨hdbank, hbank, hk⟩)
  · rw [hcfg]
    exact stitchedCfg_other hk
  · rw [hcfg, ← stitched_idle hst]
    exact honly

/-- Settles O50: a basted word and ABANDON change the set alone; a STITCH places its entries (stitchStart_spec), and each word it leaves live is read
off the fold that applies the set. -/
theorem setsAreBastedAndStitched : Obligations.SetsAreBastedAndStitched := ⟨wordsAreBasted, abandonEmptiesTheSet, stitchAppliesTheSet⟩

end Sys2Proof.Machine
end

section
/-!
The windows and transactions family: the client directory, decided here, by the master and by the host (R147 to R149, R202, R203).
-/
namespace Sys2Proof.Machine

variable {s t u : State} {c : Byte} {v w : Word} {k : Claim} {rest : List Claim} {st : Status}

/-! ## One directory entry -/

/-- R9, R146, R202: from s to t the directory entry of a client became v: with v there already nothing changed, and otherwise one hardware entry
says so; besides, only counters and events. -/
structure DirBecomes (s t : State) (c : Byte) (v : Word) : Prop where
  same : dirWord s c = v → t.jrn = s.jrn ∧ CountsOnly s t
  change : dirWord s c ≠ v → Enters s t kHARDWARE (tidBank 0x81 c.toNat) v ∧ JournalOnly (cfgSet s 0x81 c.toNat v) t

theorem DirBecomes.refl (h : dirWord s c = v) : DirBecomes s s c v :=
  ⟨fun _ => ⟨rfl, .refl s⟩, fun hne => absurd h hne⟩

theorem DirBecomes.counts (h : DirBecomes s t c v) (g : CountsOnly t u) : DirBecomes s u c v :=
  ⟨fun heq => ⟨g.jrn.trans (h.same heq).1, (h.same heq).2.trans g⟩,
   fun hne => ⟨(h.change hne).1.congr g.jrn, (h.change hne).2.trans g.toJournal⟩⟩

theorem dirPut_becomes (hroom : hwRoom s = true) (c : Byte) (v : Word) : DirBecomes s (dirPut s kHARDWARE c.toNat v) c v := by
  obtain ⟨hsame, hchange⟩ := dirPut_spec s kHARDWARE c.toNat v hroom
  refine ⟨fun heq => ?_, fun hne => (hchange hne).symm⟩
  rw [hsame heq]
  exact ⟨rfl, .refl s⟩

/-- R148: the refused claim sets CONFLICT. -/
theorem dirConflictSet_becomes (hroom : hwRoom s = true) (c : Byte) :
    DirBecomes s (dirConflictSet s c.toNat) c (dirWord s c ||| 0x40000) :=
  (dirPut_becomes hroom c _).counts (raiseEvent_shape ..)

/-- R148, R407: and it raises the client event. -/
theorem dirConflictSet_event (hsys : sysOn s = true) (i : Nat) : (dirConflictSet s i).sys.event.getLsbD evCLIENT = true := by
  refine raiseEvent_on ?_ evCLIENT (by decide)
  exact (dirPut_cfg s kHARDWARE i _).1.sysOn'.trans hsys

/-! ## Deciding a claim -/

theorem claimDecide_free {chip : Byte} {port : Nat} (h : dirValid (dirWord s c) = false) :
    claimDecide s chip port c = (dirPut s kHARDWARE c.toNat (mkDir chip port true false (dirConflict (dirWord s c))), .ok) := by
  simp [claimDecide, h]

theorem dirValid_of_dirNames {chip : Byte} {port : Nat} (h : dirNames w chip port = true) : dirValid w = true := by
  simp only [dirNames, Bool.and_eq_true] at h
  exact h.1.1

theorem claimDecide_same {chip : Byte} {port : Nat} (h : dirNames (dirWord s c) chip port = true) : claimDecide s chip port c = (s, .ok) := by
  simp [claimDecide, dirValid_of_dirNames h, h]

theorem claimDecide_other {chip : Byte} {port : Nat} (hv : dirValid (dirWord s c) = true) (h : dirNames (dirWord s c) chip port = false) :
    claimDecide s chip port c = (dirConflictSet s c.toNat, .dupcid) := by
  simp [claimDecide, hv, h]

/-! ## A claim of this chip -/

/-- R147: the oldest claim leaves SYS. -/
def claimTaken (s : State) (rest : List Claim) : State := sysMod s (fun y => { y with claims := rest })

/-- R147: the claim of port k as the request that its answer answers. -/
def claimPkt (s : State) (k : Claim) : Pkt :=
  requestPkt s.chipnum nodeSys (portNode k.port) (.write 1) 2 k.tag s.chipnum k.cid 0 []

/-- R147: from s to t the claim was taken and answered, with the configuration words cfg; besides, only the journal, counters and events. -/
def ClaimAnswered (s t : State) (cfg : Table Word) (k : Claim) (rest : List Claim) (st : Status) : Prop :=
  nodeGet t nodeSys .rsp = { nodeGet s nodeSys .rsp with out := pktUnits (responsePkt (claimPkt s k) st []) } ∧
  (∀ (n : BitVec 7) (m : Net), ¬(n = nodeSys ∧ m = .rsp) → nodeGet t n m = nodeGet s n m) ∧
  t = { s with
    cfg := cfg, mesh := { s.mesh with nodes := t.mesh.nodes }, jrn := t.jrn, cnt := t.cnt
    sys := { s.sys with claims := rest, event := t.sys.event, eventLate := t.sys.eventLate } }

/-- R147, R380: the answer is one packet, and one event is counted before it. -/
theorem claimAnswer_sends (t : State) (k : Claim) (st : Status) : ∃ u, CountsOnly t u ∧
    (∀ j, t.sys.event.getLsbD j = true → u.sys.event.getLsbD j = true) ∧
    claimAnswer t k st = sendPkt u nodeSys .rsp (responsePkt (claimPkt t k) st []) := by
  refine ⟨_, ?_, fun j hj => ?_, rfl⟩ <;> split
  · exact bump_shape ..
  · split
    · exact bump_shape ..
    · exact .refl t
  · exact bump_keeps _ _ _ _ hj
  · split
    · exact bump_keeps _ _ _ _ hj
    · exact hj

theorem claimAnswer_answered {cfg : Table Word} (hout : (nodeGet s nodeSys .rsp).out = [])
    (h : JournalOnly (claimTaken { s with cfg := cfg } rest) t) :
    ClaimAnswered s (claimAnswer t k st) cfg k rest st ∧ (claimAnswer t k st).jrn = t.jrn := by
  obtain ⟨u, hcounts, -, hsent⟩ := claimAnswer_sends t k st
  have hu := h.trans hcounts.toJournal
  have hnode : ∀ n m, nodeGet u n m = nodeGet s n m := fun n m => by unfold nodeGet; rw [hu]; rfl
  have hpkt : claimPkt t k = claimPkt s k := by unfold claimPkt; rw [h]; rfl
  rw [hsent, hpkt]
  refine ⟨⟨?_, fun n m hne => (nodeGet_nodeMod_ne _ _ _ _ _ _ hne).trans (hnode n m), ?_⟩, hcounts.jrn⟩
  · rw [sendPkt, nodeGet_nodeMod_same, hnode, hout, List.nil_append]
  · obtain ⟨_, _, _, _, rfl⟩ := hu.open
    rfl

theorem claimAnswer_event {j : Nat} (h : t.sys.event.getLsbD j = true) : (claimAnswer t k st).sys.event.getLsbD j = true := by
  obtain ⟨u, -, hevent, hsent⟩ := claimAnswer_sends t k st
  rw [hsent]
  exact hevent j h

theorem exec_clientClaim_here (hsys : sysOn s = true) (hclaims : s.sys.claims = k :: rest) (hout : (nodeGet s nodeSys .rsp).out = [])
    (hhere : spliced s = false ∨ isMaster s = true ∨ dirValid (dirWord s k.cid) = true) :
    exec (.clientClaim .here) s = .next (claimAnswer (claimDecide (claimTaken s rest) k.chip k.port k.cid).1 k
      (claimDecide (claimTaken s rest) k.chip k.port k.cid).2) := by
  have hlocal : (spliced s && !isMaster s && !dirValid (dirWord s k.cid)) = false := by
    rcases hhere with h | h | h <;> simp [h]
  change execClientClaim .here s = _
  simp only [execClientClaim, hsys, hclaims, hout, hlocal, List.isEmpty_nil, Bool.true_eq_false, Bool.false_eq_true, if_false]
  rfl

theorem exec_clientClaim_forwards (hsys : sysOn s = true) (hclaims : s.sys.claims = k :: rest) (hout : (nodeGet s nodeSys .rsp).out = [])
    (hv : dirValid (dirWord s k.cid) = false) (hring : spliced s = true) (hmaster : isMaster s = false) :
    exec (.clientClaim .here) s = .next { s with sys := { s.sys with claims := rest, forwarded := s.sys.forwarded ++ [k] } } := by
  change execClientClaim .here s = _
  simp only [execClientClaim, hsys, hclaims, hout, hv, hring, hmaster, List.isEmpty_nil, Bool.true_eq_false, if_false, Bool.not_false,
    Bool.and_self, if_true]
  rfl

/-- R147, R148: what deciding the claim makes of its entry, the answer makes of the chip. -/
theorem DirBecomes.answered (h : DirBecomes (claimTaken s rest) t k.cid v) (hout : (nodeGet s nodeSys .rsp).out = []) :
    (dirWord s k.cid = v → ClaimAnswered s (claimAnswer t k st) s.cfg k rest st ∧ (claimAnswer t k st).jrn = s.jrn) ∧
    (dirWord s k.cid ≠ v → ClaimAnswered s (claimAnswer t k st) (cfgSet s 0x81 k.cid.toNat v).cfg k rest st ∧
      Enters s (claimAnswer t k st) kHARDWARE (tidBank 0x81 k.cid.toNat) v) := by
  refine ⟨fun heq => ?_, fun hne => ?_⟩
  · obtain ⟨hjrn, hcounts⟩ := h.same heq
    obtain ⟨hanswered, hkept⟩ := claimAnswer_answered (cfg := s.cfg) (k := k) (st := st) hout hcounts.toJournal
    exact ⟨hanswered, hkept.trans hjrn⟩
  · obtain ⟨henters, honly⟩ := h.change hne
    obtain ⟨hanswered, hkept⟩ := claimAnswer_answered (cfg := (cfgSet s 0x81 k.cid.toNat v).cfg) (k := k) (st := st) hout honly
    exact ⟨hanswered, Enters.congr (s := s) hkept henters⟩

theorem mkDir_ne {chip : Byte} {port : Nat} {pin conf : Bool} (h : dirValid w = false) : w ≠ mkDir chip port true pin conf := by
  intro heq
  rw [heq, mkDir_valid] at h
  exact Bool.noConfusion h

theorem claimsAreDecided : Rules.ClaimsAreDecided := by
  intro s k rest hsys hclaims hout hroom w Answers
  have hroom' : hwRoom (claimTaken s rest) = true := hroom
  refine ⟨fun hv hring => ?_, fun hnames => ?_, fun hv hnames => ?_,
    fun hv hring hmaster => exec_clientClaim_forwards hsys hclaims hout hv hring hmaster⟩
  · have hexec := exec_clientClaim_here hsys hclaims hout (by tauto)
    rw [claimDecide_free (s := claimTaken s rest) hv] at hexec
    exact ⟨_, hexec, ((dirPut_becomes hroom' k.cid _).answered hout).2 (mkDir_ne hv)⟩
  · have hexec := exec_clientClaim_here hsys hclaims hout (.inr (.inr (dirValid_of_dirNames hnames)))
    rw [claimDecide_same (s := claimTaken s rest) hnames] at hexec
    exact ⟨_, hexec, ((DirBecomes.refl rfl).answered hout).1 rfl⟩
  · have hexec := exec_clientClaim_here hsys hclaims hout (.inr (.inr hv))
    rw [claimDecide_other (s := claimTaken s rest) hv hnames] at hexec
    obtain ⟨hsame, hchange⟩ := (dirConflictSet_becomes hroom' k.cid).answered (st := .dupcid) hout
    exact ⟨_, hexec, claimAnswer_event (dirConflictSet_event (s := claimTaken s rest) hsys _),
      fun hconf => hchange (conflict_ne hconf), fun hconf => hsame (conflict_eq hconf)⟩

/-! ## A claim of another chip, at the master -/

theorem exec_clientClaim_chip {port : Fin 64} {cid : Byte} {kind : ClaimKind} (hsys : sysOn s = true) (hmaster : isMaster s = true)
    (hsrc : ringSource s c = true) : exec (.clientClaim (.chip c port cid kind)) s =
      .next (match kind with
        | .learned => (claimDecide s c port.val cid).1
        | .pinNow => pinDecide s c port.val cid false
        | .pinSplice => pinDecide s c port.val cid true) := by
  change execClientClaim (.chip c port cid kind) s = _
  simp only [execClientClaim, hsys, hmaster, hsrc, Bool.true_eq_false, if_false]
  cases kind <;> rfl

/-- R148, R202: what a claim makes of its entry. -/
theorem claimDecide_becomes (hroom : hwRoom s = true) (chip : Byte) (port : Nat) (c : Byte) :
    DirBecomes s (claimDecide s chip port c).1 c (if dirValid (dirWord s c) = false then mkDir chip port true false (dirConflict (dirWord s c))
      else if dirNames (dirWord s c) chip port then dirWord s c else dirWord s c ||| 0x40000) := by
  by_cases hv : dirValid (dirWord s c) = false
  · rw [if_pos hv, claimDecide_free hv]
    exact dirPut_becomes hroom c _
  · rw [if_neg hv]
    by_cases hnames : dirNames (dirWord s c) chip port = true
    · rw [if_pos hnames, claimDecide_same hnames]
      exact .refl rfl
    · rw [if_neg hnames, claimDecide_other (by simpa using hv) (by simpa using hnames)]
      exact dirConflictSet_becomes hroom c

/-- R202, R203: what a pin makes of its entry: at a splice a pinned entry of another port stays, with CONFLICT set. -/
theorem pinDecide_becomes (hroom : hwRoom s = true) (chip : Byte) (port : Nat) (c : Byte) (splice : Bool) :
    DirBecomes s (pinDecide s chip port c splice) c (if splice = true ∧ dirPinned (dirWord s c) = true ∧ dirNames (dirWord s c) chip port = false
      then dirWord s c ||| 0x40000 else mkDir chip port true true false) := by
  unfold pinDecide
  dsimp only
  split
  · exact dirConflictSet_becomes hroom c
  · exact dirPut_becomes hroom c _

theorem masterDecidesClaims : Rules.MasterDecidesClaims := by
  intro s c cid port hsys hmaster hsrc hroom w Sets
  have sets : ∀ {t : State} {v : Word}, DirBecomes s t cid v → Sets t v := fun h => ⟨h.same, h.change⟩
  refine ⟨⟨_, exec_clientClaim_chip hsys hmaster hsrc, sets (claimDecide_becomes hroom c port.val cid)⟩,
    ⟨_, exec_clientClaim_chip hsys hmaster hsrc, sets ?_⟩, ⟨_, exec_clientClaim_chip hsys hmaster hsrc, sets ?_⟩⟩
  · simpa using pinDecide_becomes hroom c port.val cid false
  · simpa using pinDecide_becomes hroom c port.val cid true

/-! ## The host's own entry -/

theorem bankPut_dir {raw : Word} (i : Nat) (h : dirWrite (cfgGet s 0x81 i) raw = some v) : bankPut s 0x81 i raw = cfgSet s 0x81 i v := by
  have hput : bankPut s 0x81 i raw = cfgSet s 0x81 i ((dirWrite (cfgGet s 0x81 i) raw).getD (cfgGet s 0x81 i)) := rfl
  rw [hput, h]
  rfl

theorem bankWord_dir (s : State) (o : Origin) (i : Nat) : bankWord s o 0x81 i = cfgGet s 0x81 i := rfl

/-- R9, R149: a host write of a directory entry that means something is applied and journaled with the new entry. -/
theorem directoryWrite_host {raw : Word} {be : BitVec 4} {req : Option (Pkt × Nat)} {i : Nat} (h : dirWrite (cfgGet s 0x81 i) raw = some v)
    (hroom : jRoom s = true) : writeWord s .host (.bank 0x81 i) raw be req =
      .done (jOrigin (cfgSet s 0x81 i v) .host (tidBank 0x81 i) v) := by
  change directoryWrite s .host i raw = _
  have happly : wordApply s .host (.bank 0x81 i) (cfgGet s 0x81 i) raw true = jOrigin (cfgSet s 0x81 i v) .host (tidBank 0x81 i) v := by
    rw [wordApply_bank (by decide) (by simp), if_pos rfl, bankPut_dir i h, bankWord_dir, cfgGet_cfgSet_same]
    rfl
  simp only [directoryWrite, h, hroom, happly, Option.isNone_some, Bool.false_eq_true, if_false, if_true]

/-- R149: such a write as the host makes it. -/
theorem directoryWrite_row {raw : Word} {be : BitVec 4} {hd : Half} (hcalm : s.calm) (hnv : nvOn s = true) (hroom : jRoom s = true)
    (hw : Writes s 0x0A (.bank 0x81 c.toNat) raw be (.host hd)) (h : dirWrite (dirWord s c) raw = some v) :
    ∃ t, exec (.directoryWrite c (.host hd)) s = .next t ∧ AccessEnds s t 0x0A (.host hd) ∧ AccessOnly (cfgSet s 0x81 c.toNat v) t ∧
      StagesOne s t kHOST (tidBank 0x81 c.toNat) v := by
  have hhas : bankHas 0x81 c.toNat = true := decide_eq_true c.isLt
  obtain ⟨t, hexec, honly, hends, hstaged⟩ := write_row (e := cfgSet s 0x81 c.toNat v)
    (Q := Staged s kHOST (tidBank 0x81 c.toNat) v) (sel := fun _ wd _ => decide (wd = .bank 0x81 c.toNat)) hw (decide_eq_true rfl) ⟨hhas, rfl⟩
    (fun x req hx => ⟨_, directoryWrite_host ((congrArg (dirWrite · raw) (hx.cfgGet ..)).trans h) (hx.jRoom.trans hroom),
      entry_row (by_ := .host hd) hnv _ _ (by rw [hx.eq]; rfl) rfl rfl rfl⟩)
    hcalm (fun hon => hon)
  exact ⟨t, congrArg Host.Outcome.next hexec, hends, honly, hstaged⟩

theorem hostPinsClients : Rules.HostPinsClients := by
  intro s c hd raw be hcalm hnv hroom hw Does
  refine ⟨fun hpin => directoryWrite_row hcalm hnv hroom hw ?_, fun hpin hpinned => directoryWrite_row hcalm hnv hroom hw ?_⟩
  · simp only [dirWrite, hpin, if_true]
  · simp only [dirWrite, hpin, hpinned, Bool.false_eq_true, if_false, if_true]

end Sys2Proof.Machine
end

section
/-!
The windows and transactions family: a chip takes the directory and the authority table of its master (R203, R354, R433).
-/
namespace Sys2Proof.Machine

variable {s t : State} {och oci : Byte} {l : List (Byte × Byte)} {dir : List (Byte × Word)} {auth : List (Byte × Byte)}

/-! ## Authority words -/

/-- R354: applying authority words changes the words themselves, and besides only the journal, counters and events. -/
theorem authApply_only (s : State) (och oci : Byte) (l : List (Byte × Byte)) :
    JournalOnly { s with cfg := (authApply s och oci l).cfg } (authApply s och oci l) := by
  obtain ⟨honly, -, -⟩ := authPuts och oci (authChanged s l) s
  exact honly

theorem authApply_cfg (s : State) (och oci : Byte) (l : List (Byte × Byte)) : (authApply s och oci l).cfg =
    (authChanged s l).foldl (fun m e => tset cfgReset m (cfgKey 0x80 e.1.toNat) (e.2.setWidth 32)) s.cfg := by
  obtain ⟨-, hcfg, -⟩ := authPuts och oci (authChanged s l) s
  exact hcfg

theorem mem_authChanged {x : Byte × Byte} : x ∈ authChanged s l ↔ x ∈ l ∧ rights s x.1 ≠ x.2 := by
  simp only [authChanged, List.mem_filter, decide_eq_true_eq]

/-- A word that no authority word goes to stays as it was. -/
theorem authApply_other {k : Nat} (h : ∀ x ∈ l, k ≠ cfgKey 0x80 x.1.toNat) :
    tget cfgReset (authApply s och oci l).cfg k = tget cfgReset s.cfg k := by
  rw [authApply_cfg]
  exact (fold_tset cfgReset _ _ (authChanged s l) s.cfg k).1 fun x hx => (h x (mem_authChanged.mp hx).1).symm

theorem cfgKey_rights_inj {a b : Byte} (h : cfgKey 0x80 a.toNat = cfgKey 0x80 b.toNat) : a = b := by
  unfold cfgKey at h
  exact BitVec.eq_of_toNat_eq (by omega)

/-- R354: a client has the rights that the words give it, when they give it no others. -/
theorem rights_authApply {x : Byte × Byte} (hx : x ∈ l) (hone : ∀ y ∈ l, y.1 = x.1 → y.2 = x.2) :
    rights (authApply s och oci l) x.1 = x.2 := by
  obtain ⟨hother, hset⟩ := fold_tset cfgReset (fun e : Byte × Byte => cfgKey 0x80 e.1.toNat) (fun e => (e.2.setWidth 32 : Word))
    (authChanged s l) s.cfg (cfgKey 0x80 x.1.toNat)
  rw [rights_tget, authApply_cfg]
  by_cases hchanged : rights s x.1 = x.2
  · rw [hother fun y hy hk => ?_]
    · exact hchanged
    · obtain ⟨hy, hne⟩ := mem_authChanged.mp hy
      have hcid := cfgKey_rights_inj hk
      exact hne (by rw [hcid, hone y hy hcid]; exact hchanged)
  · rw [hset (x.2.setWidth 32) ⟨x, mem_authChanged.mpr ⟨hx, hchanged⟩, rfl⟩ fun y hy hk => ?_]
    · exact low8 x.2
    · rw [hone y (mem_authChanged.mp hy).1 (cfgKey_rights_inj hk)]

theorem JournalOnly.toAccess {e : State} (h : JournalOnly e t) : AccessOnly e t := by
  obtain ⟨_, _, _, _, rfl⟩ := h.open
  rfl

theorem exec_authorityCopy {schip : Byte} (hsys : sysOn s = true) (hring : spliced s = true) (hsrc : ringSource s schip = true)
    (hst : s.sys.stitch = none) (hroom : jRoomFor s (authChanged s l).length = true) :
    exec (.authorityCopy schip och oci l) s = .next (authApply s och oci l) := by
  change execAuthorityCopy schip och oci l s = _
  simp [execAuthorityCopy, hsys, hring, hsrc, hst, hroom]

/-! ## The directory -/

/-- R203, R433: the entry that a received directory has for a client; one that it does not list is free. -/
def copyEntry (dir : List (Byte × Word)) (c : Nat) : Word := ((dir.find? (fun e => e.1.toNat = c)).map (·.2 &&& 0x73FFF)).getD 0

/-- R354, R433: the rights that a received authority table has for a client; those that it does not list are as after a reset. -/
def copyRights (auth : List (Byte × Byte)) (c : Nat) : Byte := ((auth.find? (fun e => e.1.toNat = c)).map (·.2)).getD 0x0C

/-- The received authority table, word by word. -/
def copyWords (auth : List (Byte × Byte)) : List (Byte × Byte) := (List.range 256).map (fun c => (BitVec.ofNat 8 c, copyRights auth c))

theorem mem_copyWords {x : Byte × Byte} : x ∈ copyWords auth ↔ x.2 = copyRights auth x.1.toNat := by
  simp only [copyWords, List.mem_map, List.mem_range]
  constructor
  · rintro ⟨c, hc, rfl⟩
    rw [BitVec.toNat_ofNat, Nat.mod_eq_of_lt hc]
  · intro h
    exact ⟨x.1.toNat, x.1.isLt, Prod.ext (BitVec.ofNat_toNat ..) h.symm⟩

theorem length_authChanged_copyWords : (authChanged s (copyWords auth)).length =
    ((List.range 256).filter (fun c => rights s (BitVec.ofNat 8 c) ≠ copyRights auth (BitVec.ofNat 8 c).toNat)).length := by
  rw [authChanged, copyWords, List.filter_map, List.length_map]
  refine congrArg List.length (List.filter_congr fun c hc => ?_)
  rw [BitVec.toNat_ofNat, Nat.mod_eq_of_lt (List.mem_range.mp hc)]
  rfl

/-- R203, R433: every entry of the directory is set. -/
def dirCopied (s : State) (dir : List (Byte × Word)) : State := (List.range 256).foldl (fun t c => dirPut t kHARDWARE c (copyEntry dir c)) s

theorem dirCopied_only (s : State) (dir : List (Byte × Word)) : JournalOnly { s with cfg := (dirCopied s dir).cfg } (dirCopied s dir) :=
  (dirPuts kHARDWARE (copyEntry dir) s 256 _ rfl).1

theorem dirCopied_entry {i : Nat} (h : i < 256) : tget cfgReset (dirCopied s dir).cfg (cfgKey 0x81 i) = copyEntry dir i := by
  rw [dirCopied, (dirPuts kHARDWARE (copyEntry dir) s 256 _ rfl).2, if_pos ⟨i, h, rfl⟩, cfgKey, Nat.add_sub_cancel_left]

theorem dirCopied_other {k : Nat} (h : ¬(0x81 * 65536 ≤ k ∧ k < 0x81 * 65536 + 256)) :
    tget cfgReset (dirCopied s dir).cfg k = tget cfgReset s.cfg k := by
  rw [dirCopied, (dirPuts kHARDWARE (copyEntry dir) s 256 _ rfl).2, if_neg]
  rintro ⟨c, hc, rfl⟩
  unfold cfgKey at h
  omega

/-! ## Both together -/

/-- R203, R354, R433: the chip with the directory and the rights of its master. -/
def copied (s : State) (dir : List (Byte × Word)) (auth : List (Byte × Byte)) : State := authApply (dirCopied s dir) 0 0 (copyWords auth)

/-- Two changes of configuration words, one after the other, are one. -/
theorem JournalOnly.cfg_trans {u : State} (h : JournalOnly { s with cfg := t.cfg } t) (g : JournalOnly { t with cfg := u.cfg } u) :
    JournalOnly { s with cfg := u.cfg } u := by
  refine JournalOnly.trans ?_ g
  obtain ⟨_, _, _, _, ht⟩ := h.open
  rw [ht]
  rfl

theorem copied_only (s : State) (dir : List (Byte × Word)) (auth : List (Byte × Byte)) :
    JournalOnly { s with cfg := (copied s dir auth).cfg } (copied s dir auth) :=
  (dirCopied_only s dir).cfg_trans (authApply_only ..)

theorem rights_copied (s : State) (c : Byte) : rights (copied s dir auth) c = copyRights auth c.toNat :=
  rights_authApply (x := (c, copyRights auth c.toNat)) (mem_copyWords.mpr rfl)
    fun y hy hcid => (mem_copyWords.mp hy).trans (by rw [hcid])

theorem copied_notRights {k : Nat} (h : ¬(0x80 * 65536 ≤ k ∧ k < 0x80 * 65536 + 256)) :
    tget cfgReset (copied s dir auth).cfg k = tget cfgReset (dirCopied s dir).cfg k := by
  refine authApply_other fun x _ hk => h ?_
  have := x.1.isLt
  unfold cfgKey at hk
  omega

theorem dirWord_copied (s : State) (c : Byte) : dirWord (copied s dir auth) c = copyEntry dir c.toNat := by
  have hkey : ¬(0x80 * 65536 ≤ cfgKey 0x81 c.toNat ∧ cfgKey 0x81 c.toNat < 0x80 * 65536 + 256) := by
    unfold cfgKey
    omega
  rw [dirWord, cfgGet, copied_notRights hkey, dirCopied_entry c.isLt]

/-- R433: after the marks are checked, each port keeps those that the directory gives it, and nothing else has changed. -/
theorem marksCheck_spec (s : State) :
    (∀ n, n < 64 → portGet (marksCheck s) n =
      { portGet s n with marks := (portGet s n).marks.filter (fun m => dirNames (cfgGet s 0x81 m.1) s.chipnum n) }) ∧
    marksCheck s = { s with ports := (marksCheck s).ports } := by
  rw [marksCheck_eq]
  obtain ⟨hports, honly⟩ := portMods
    (fun k p => { p with marks := p.marks.filter (fun m => dirNames (cfgGet s 0x81 m.1) s.chipnum k) }) s 64
  exact ⟨fun n hn => (hports n).trans (if_pos hn), honly⟩

theorem JournalOnly.ports_after {u : State} (h : JournalOnly { s with cfg := t.cfg } t) (g : u = { t with ports := u.ports }) :
    u = { s with cfg := u.cfg, ports := u.ports, jrn := u.jrn, cnt := u.cnt
                 sys := { s.sys with event := u.sys.event, eventLate := u.sys.eventLate } } := by
  obtain ⟨_, _, _, _, ht⟩ := h.open
  generalize t.cfg = cfg at ht
  subst ht
  rw [g]

theorem claimsSettle_none (n : Nat) (h : s.sys.forwarded = []) : claimsSettle n s = s := by
  cases n with
  | zero => rfl
  | succ n => rw [claimsSettle, h]; rfl

/-- R354, R366: the copy is taken by a spliced chip that is no master, when its entries have room. -/
theorem exec_directoryCopy_eq (s : State) (dir : List (Byte × Word)) (auth : List (Byte × Byte)) : exec (.directoryCopy dir auth) s =
    if sysOn s = false ∨ isMaster s = true ∨ spliced s = false then .next s
    else if authChanged s (copyWords auth) ≠ [] ∧ jRoomFor s (authChanged s (copyWords auth)).length = false then .next s
    else .next (claimsSettle (copied s dir auth).sys.forwarded.length (marksCheck (copied s dir auth))) := by
  change execDirectoryCopy dir auth s = _
  unfold execDirectoryCopy copied dirCopied copyWords copyEntry copyRights
  generalize List.range 256 = ids
  rfl

theorem exec_directoryCopy (hsys : sysOn s = true) (hring : spliced s = true) (hmaster : isMaster s = false)
    (hfwd : s.sys.forwarded = []) (hroom : jRoomFor s (authChanged s (copyWords auth)).length = true) :
    exec (.directoryCopy dir auth) s = .next (marksCheck (copied s dir auth)) := by
  have hgo : ¬(sysOn s = false ∨ isMaster s = true ∨ spliced s = false) := by simp [hsys, hring, hmaster]
  have hplace : ¬(authChanged s (copyWords auth) ≠ [] ∧ jRoomFor s (authChanged s (copyWords auth)).length = false) := by simp [hroom]
  have hnone : (marksCheck (copied s dir auth)).sys.forwarded = [] := by
    rw [(marksCheck_spec _).2, copied_only s dir auth]
    exact hfwd
  rw [exec_directoryCopy_eq, if_neg hgo, if_neg hplace, claimsSettle_none _ hnone]

theorem copiesOfTheMasterAreTaken : Rules.CopiesOfTheMasterAreTaken := by
  intro s hsys hring hmaster
  constructor
  · intro dir auth e a hfwd hroom
    have he : ∀ c, e c = copyEntry dir c.toNat := fun c => by simp only [e, copyEntry, BitVec.toNat_inj]
    have ha : ∀ c, a c = copyRights auth c.toNat := fun c => by simp only [a, copyRights, BitVec.toNat_inj]
    simp only [ha, ← length_authChanged_copyWords] at hroom
    obtain ⟨hports, honly⟩ := marksCheck_spec (copied s dir auth)
    have hcopied := copied_only s dir auth
    have hcfg : (marksCheck (copied s dir auth)).cfg = (copied s dir auth).cfg := by rw [honly]
    refine ⟨_, exec_directoryCopy hsys hring hmaster hfwd hroom, fun c => ?_, fun c => ?_, fun k hdir hrights => ?_, fun n hn => ?_, ?_⟩
    · rw [he, ← dirWord_copied s c (auth := auth), dirWord, cfgGet, hcfg]
      rfl
    · rw [ha, ← rights_copied s c (dir := dir), rights_tget, hcfg]
      rfl
    · rw [hcfg, copied_notRights hrights, dirCopied_other hdir]
    · have hport : portGet (copied s dir auth) n = portGet s n := by unfold portGet; rw [hcopied]
      have hchip : (copied s dir auth).chipnum = s.chipnum := by rw [hcopied]
      rw [hports n hn, hport, hchip]
      simp only [cfgGet, hcfg]
    · exact hcopied.ports_after honly
  · intro schip ochip ocid words hsrc hst hnodup hroom
    have hone : ∀ x ∈ words, ∀ y ∈ words, y.1 = x.1 → y.2 = x.2 := fun x hx y hy hcid =>
      congrArg Prod.snd (List.inj_on_of_nodup_map hnodup hy hx hcid)
    obtain ⟨honly, -, hstaged⟩ := authPuts ochip ocid (authChanged s words) s
    exact ⟨_, exec_authorityCopy hsys hring hsrc hst hroom, fun x hx => rights_authApply hx (hone x hx), fun k hk => authApply_other hk,
      honly.toAccess, hstaged⟩

/-- Settles O52: the chip's own claims, the master's decisions and the copies come down to one directory entry at a time (DirBecomes, dirPut);
the host's write is a row of its own. -/
theorem clientsAreDecided : Obligations.ClientsAreDecided :=
  ⟨claimsAreDecided, masterDecidesClaims, hostPinsClients, copiesOfTheMasterAreTaken⟩

end Sys2Proof.Machine
end

section
/-!
The seams and ring family: messages, pauses and pulses on the ring at a chip whose bypass is open.
-/
namespace Sys2Proof.Machine

variable {s : State} {g : Ring} {chip : Byte}

/-! ## Messages that go on -/

theorem inRing_of_drive (hd : canDrive s = true) (hr : s.ring.resync = false) : inRing s = true := by
  rw [inRing, hd, hr]; rfl

theorem passOn_drive (hd : canDrive s = true) (msg : BitVec 4) (arg : Byte) : passOn s msg arg = gwTx s .a [ctlTransfer 3 msg arg] :=
  gwRing_drive hd .a msg arg

theorem exec_join_forwards (hd : canDrive s = true) (hm : isMaster s = false) : exec (.join chip) s = .next (passOn s msgJOIN chip) := by
  change execJoin chip s = _
  simp [execJoin, hd, hm]

theorem exec_grant_forwards (hd : canDrive s = true) (hm : isMaster s = false) : exec (.grant chip) s = .next (passOn s msgGRANT chip) := by
  change execGrant chip s = _
  simp [execGrant, hd, hm]

theorem exec_leave_forwards (hd : canDrive s = true) (hm : isMaster s = false) : exec (.leave chip) s = .next (passOn s msgLEAVE chip) := by
  change execLeave chip s = _
  simp [execLeave, hd, hm]

theorem exec_release_forwards (hd : canDrive s = true) (hm : isMaster s = false) (hne : chip ≠ s.chipnum) :
    exec (.release chip) s = .next (passOn s msgRELEASE chip) := by
  change execRelease chip s = _
  simp [execRelease, hd, hm, hne]

theorem exec_roll_forwards (hd : canDrive s = true) (hm : isMaster s = false) (hne : chip ≠ s.chipnum) :
    exec (.roll chip) s = .next (passOn s msgROLL chip) := by
  change execRoll chip s = _
  simp [execRoll, hd, hm, hne]

theorem exec_dup_forwards (hd : canDrive s = true) (hm : isMaster s = false) : exec (.dup chip) s = .next (passOn s msgDUP chip) := by
  change execDup chip s = _
  simp [execDup, hd, hm]

/-- R188, log 28: EJECT concerns the chip it names, and that one only in the pause that granted it. -/
theorem exec_eject_forwards (hd : canDrive s = true) (hm : isMaster s = false) (h : chip ≠ s.chipnum ∨ s.ring.granted = false) :
    exec (.eject chip) s = .next (passOn s msgEJECT chip) := by
  have hmine : ¬(inRing s && decide (chip = s.chipnum) && s.ring.granted) = true := by
    rcases h with h | h <;> simp [h]
  change execEject chip s = _
  rw [execEject, if_neg (by simp [hd, hm]), if_neg hmine]

theorem exec_ringFaultMsg_forwards (hd : canDrive s = true) (hm : isMaster s = false) (hne : chip ≠ s.chipnum) :
    exec (.ringFaultMsg chip) s = .next (passOn s msgFAULT chip) := by
  change execRingFaultMsg chip s = _
  simp [execRingFaultMsg, hd, hm, hne]

theorem ringMessagesGoOn : Rules.RingMessagesGoOn := by
  intro s c i msg hd hm _ hi
  suffices h : exec i s = .next (passOn s msg c) by rw [h, passOn_drive hd]
  rcases hi with ⟨rfl, rfl⟩ | ⟨rfl, rfl⟩ | ⟨rfl, rfl⟩ | ⟨rfl, rfl, hne⟩ | ⟨rfl, rfl, hne⟩ | ⟨rfl, rfl⟩ | ⟨rfl, rfl, h⟩ | ⟨rfl, rfl, hne⟩
  · exact exec_join_forwards hd hm
  · exact exec_grant_forwards hd hm
  · exact exec_leave_forwards hd hm
  · exact exec_release_forwards hd hm hne
  · exact exec_roll_forwards hd hm hne
  · exact exec_dup_forwards hd hm
  · exact exec_eject_forwards hd hm h
  · exact exec_ringFaultMsg_forwards hd hm hne

/-! ## The roll call -/

theorem gwRing_gwTx (hd : canDrive s = true) (ts : List (BitVec 17)) (msg : BitVec 4) (arg : Byte) :
    gwRing (gwTx s g ts) g msg arg = gwTx s g (ts ++ [ctlTransfer 3 msg arg]) := by
  rw [gwRing_drive (by rw [gwTx_canDrive]; exact hd), gwTx_gwTx]

theorem exec_rollstart_forwards (hd : canDrive s = true) (hm : isMaster s = false) (hr : s.ring.resync = false) :
    exec .rollstart s =
      .next (ringMod (passOn s msgROLLSTART 0) (fun r => { r with rollTurn := false, dupFound := false, tables := [] })) := by
  change execRollstart s = _
  simp [execRollstart, hd, hm, inRing_of_drive hd hr]

theorem exec_table_forwards (hd : canDrive s = true) (hm : isMaster s = false) (hr : s.ring.resync = false) :
    exec (.table chip) s = .next (ringMod (passOn s msgTABLE chip) (fun r => { r with tables := r.tables ++ [chip] })) := by
  change execTable chip s = _
  simp [execTable, hd, hm, inRing_of_drive hd hr]

/-- R187 step 2, R188: ROLLEND goes on behind this chip's own number, and behind DUP when the number was taken. -/
theorem exec_rollend_forwards (hd : canDrive s = true) (hm : isMaster s = false) (hr : s.ring.resync = false) :
    exec .rollend s = .next (ringMod
      (gwRing (gwRing (if s.ring.dupFound then gwRing s .a msgDUP s.chipnum else s) .a msgROLL s.chipnum) .a msgROLLEND 0)
      (fun r => { r with rollTurn := true, tables := [] })) := by
  change execRollend s = _
  simp [execRollend, hd, hm, inRing_of_drive hd hr]

theorem rollCallPassesOn : Rules.RollCallPassesOn := by
  intro s c hd hm hr
  refine ⟨?_, ?_, fun hfound => ?_, fun hfound => ?_⟩
  · rw [exec_rollstart_forwards hd hm hr, passOn_drive hd]; rfl
  · rw [exec_table_forwards hd hm hr, passOn_drive hd]; rfl
  · rw [exec_rollend_forwards hd hm hr, hfound, if_neg Bool.false_ne_true, gwRing_drive hd, gwRing_gwTx hd]; rfl
  · rw [exec_rollend_forwards hd hm hr, hfound, if_pos rfl, gwRing_drive hd, gwRing_gwTx hd, gwRing_gwTx hd]; rfl

/-! ## ABORT -/

theorem exec_abort_later (hd : canDrive s = true) (hm : isMaster s = false) (h : s.ring.gateA.abortSeen ≠ 0 ∨ s.ring.gateB.abortSeen ≠ 0) :
    exec (.abort g) s = .next (gateMod (gwRing s g msgABORT 0) g (fun y => { y with abortSeen := y.abortSeen + 1 })) := by
  have hfirst : ¬(decide (s.ring.gateA.abortSeen = 0) && decide (s.ring.gateB.abortSeen = 0)) = true := by
    rcases h with h | h <;> simp [h]
  change execAbort g s = _
  simp only [execAbort, hd, hm, hfirst, Bool.true_eq_false, Bool.false_eq_true, if_false]

/-- R201: what the four ABORTs of the master leave of a gateway. -/
def abortsSent (y : Gate) : Gate := { y with abortSeen := 0, tx := y.tx ++ List.replicate 4 (ctlTransfer 3 0xF 0) }

theorem sendAborts_drive (hd : canDrive s = true) : sendAborts s =
    { s with ring := { s.ring with op := .reform, gateA := abortsSent s.ring.gateA, gateB := abortsSent s.ring.gateB } } := by
  unfold sendAborts
  dsimp only
  rw [four_aborts hd .a, four_aborts (by rw [gateMod_canDrive]; exact hd) .b]
  rfl

theorem exec_abortRepeat (hd : canDrive s = true) (hm : isMaster s = true) (hop : s.ring.op = .reform) :
    exec .abortRepeat s = .next (sendAborts s) := if_pos ⟨hm, hop, hd⟩

theorem abortsGoOn : Rules.AbortsGoOn := by
  intro s g hd
  refine ⟨fun hm h => ?_, fun hm hop => ⟨_, exec_abortRepeat hd hm hop, ?_⟩⟩
  · rw [exec_abort_later hd hm h, gwRing_drive hd]; rfl
  · rw [sendAborts_drive hd]
    exact ⟨rfl, rfl, rfl, rfl, rfl, rfl, rfl, rfl⟩

/-- Settles O20: each message of R174 goes on through passOn, the roll call grows before ROLLEND, and ABORT goes on. -/
theorem ringMessagesPass : Obligations.RingMessagesPass := ⟨ringMessagesGoOn, rollCallPassesOn, abortsGoOn⟩

/-! ## Pause and quiet -/

theorem exec_pause_stops (hd : canDrive s = true) (hm : isMaster s = false) (hr : s.ring.resync = false) :
    exec .pause s = .next (bump (ringMod (passOn s msgPAUSE 0) (fun r => { r with paused := true, stopped := true, granted := false }))
      .sys yPAUSE) := by
  change execPause s = _
  simp [execPause, hm, inRing_of_drive hd hr]

theorem exec_quiet_forwards (hd : canDrive s = true) (hm : isMaster s = false) (hq : seamQuiet s = true) :
    exec (.quiet g) s = .next (gwRing s g msgQUIET 0) := by
  change execQuiet g s = _
  simp [execQuiet, hd, hm, hq]

/-- R193 step 2: no packet starts onto a seam while the chip is told to stop. -/
theorem mayStart_stopped (h : s.ring.stopped = true) : mayStart s = false := by
  rw [mayStart, h]; rfl

theorem pauseStopsPackets : Rules.PauseStopsPackets := by
  intro s hd hm
  refine ⟨fun hr => ⟨_, exec_pause_stops hd hm hr, ?_, mayStart_stopped ?_⟩, fun hq g => ?_⟩
  · rw [passOn_drive hd]
    exact bump_shape ..
  · rw [(bump_shape ..).ring]; rfl
  · rw [exec_quiet_forwards hd hm hq, gwRing_drive hd]; rfl

/-! ## Pulse and join slot -/

/-- R184, R190: the join slot that a PULSE opens on ring A; the master opens it as RINGCTL.SLOTEN says. -/
def slotOpened (s : State) (g : Ring) : State :=
  if g = .a then ringMod s (fun r => { r with slotOpen := r.slotEn || !isMaster s }) else s

theorem slotOpened_ring (s : State) (g : Ring) : (slotOpened s g).ring.st = s.ring.st ∧ canDrive (slotOpened s g) = canDrive s := by
  unfold slotOpened; split <;> exact ⟨rfl, rfl⟩

/-- R184, log 28: a PULSE whose ARG is right, or that comes in a pause, where ARG is not looked at. -/
def PulseGood (s : State) (g : Ring) (arg : Byte) : Prop := s.ring.paused = true ∨ arg.toNat = pulseArg s g

theorem PulseGood.not_bad {arg : Byte} (h : PulseGood s g arg) : (!s.ring.paused && decide (arg.toNat ≠ pulseArg s g)) = false := by
  rcases h with h | h <;> simp [h]

theorem exec_pulse_forwards {arg : Byte} (hd : canDrive s = true) (hm : isMaster s = false) (hst : s.ring.st ≠ .orphan)
    (hgood : PulseGood s g arg) : exec (.pulse g arg) s = .next (gwTx (slotOpened s g) g [ctlTransfer 2 0 (arg + 1)]) := by
  obtain ⟨hslot, hdrive⟩ := slotOpened_ring s g
  have hkeep : (gwTx (slotOpened s g) g [ctlTransfer 2 0 (arg + 1)]).ring.st ≠ .orphan := by
    have hsame : (gwTx (slotOpened s g) g [ctlTransfer 2 0 (arg + 1)]).ring.st = s.ring.st := by
      rw [← hslot]; cases g <;> rfl
    rw [hsame]; exact hst
  change execPulse g arg s = _
  unfold execPulse
  rw [hgood.not_bad, if_neg (by simp [hd])]
  dsimp only
  rw [if_neg (by simp [hm])]
  change Host.Outcome.next (if (gwCtl (slotOpened s g) g 2 0 (arg + 1)).ring.st = .orphan then _ else gwCtl (slotOpened s g) g 2 0 (arg + 1)) = _
  rw [gwCtl_drive (hdrive.trans hd), if_neg hkeep]

theorem exec_pulse_returned {arg : Byte} (hd : canDrive s = true) (hm : isMaster s = true) (hout : (gateGet s g).pulseOut = true)
    (hgood : PulseGood s g arg) :
    exec (.pulse g arg) s = .next (slotOpened (gateMod s g (fun y => { y with pulseOut := false })) g) := by
  change execPulse g arg s = _
  unfold execPulse
  rw [hgood.not_bad, if_neg (by simp [hd])]
  dsimp only
  rw [if_pos hm, if_neg (by simp [hout])]
  cases g <;> rfl

theorem exec_pulseTimer_sends (hd : canDrive s = true) (hm : isMaster s = true) :
    exec .pulseTimer s = .next (gateMod (gwTx (gateMod (gwTx s .a [ctlTransfer 2 0 0]) .a (fun y => { y with pulseOut := true }))
      .b [ctlTransfer 2 0 0]) .b (fun y => { y with pulseOut := true })) := by
  change execPulseTimer s = _
  unfold execPulseTimer
  rw [if_pos ⟨hm, hd⟩]
  dsimp only
  rw [gwCtl_drive hd, gwCtl_drive (by rw [gateMod_canDrive, gwTx_canDrive]; exact hd)]

theorem pulsesGoRound : Rules.PulsesGoRound := by
  intro s g hd
  refine ⟨fun hm hst arg hgood => ?_, fun hm hout arg hgood => ?_, fun hm => exec_pulseTimer_sends hd hm⟩
  · rw [exec_pulse_forwards hd hm hst hgood, slotOpened]
    simp only [hm, Bool.not_false, Bool.or_true]
  · have hm' : isMaster (gateMod s g (fun y => { y with pulseOut := false })) = true := by rw [isMaster, gateMod_chipnum]; exact hm
    rw [exec_pulse_returned hd hm hout hgood, slotOpened]
    simp only [hm', Bool.not_true, Bool.or_false]

theorem exec_joinSlot_open {sample : Half} (hd : canDrive s = true) (hopen : s.ring.slotOpen = true) :
    exec (.joinSlot sample) s = .next (
      let s1 := ringMod s (fun r => { r with slotOpen := false })
      if joinWordGood (~~~ sample) = false then s1
      else if isMaster s then masterJoin s1 ((~~~ sample).extractLsb' 0 8)
      else gwRing s1 .a msgJOIN ((~~~ sample).extractLsb' 0 8)) := by
  change execJoinSlot sample s = _
  simp only [execJoinSlot, hd, hopen, if_true, Bool.true_eq_false, if_false]
  split
  · rfl
  · split <;> rfl

theorem joinSlotsCarryRequests : Rules.JoinSlotsCarryRequests := by
  intro s sample
  refine ⟨fun hd hm hopen hgood => ?_, fun hd hopen hbad => ?_, fun hd => ?_⟩
  · rw [exec_joinSlot_open hd hopen]
    simp only [hgood, hm, Bool.true_eq_false, Bool.false_eq_true, if_false]
    rw [gwRing_drive (by exact hd)]; rfl
  · rw [exec_joinSlot_open hd hopen]
    simp only [hbad, if_true]
  · exact if_neg (by simp [hd])

/-- Settles O21: PAUSE and QUIET, the PULSE and the slot it opens (slotOpened), and the request that the slot carries. -/
theorem pausesAndPulsesGoRound : Obligations.PausesAndPulsesGoRound := ⟨pauseStopsPackets, pulsesGoRound, joinSlotsCarryRequests⟩

end Sys2Proof.Machine
end

section
/-!
The seams and ring family: a unit that arrives over a seam for this chip, and the credits that come back.
-/
namespace Sys2Proof.Machine

variable {s t : State} {g : Ring} {c : Nat} {d : BitVec 48} {t1 t2 t3 : BitVec 17} {arg : Byte}

/-! ## The head of a packet for this chip -/

/-- R171, R180: an input channel that has just taken the head d of a packet for this chip. -/
def ownHead (d : BitVec 48) : SeamIn :=
  { latch := some (unitOf d), left := (hLen d).toNat, first := true, toMesh := true, drop := false, busy := false }

/-- The chip with such a head in channel c of ring g, counted. -/
def headTaken (s : State) (g : Ring) (c : Nat) (d : BitVec 48) : State :=
  gateMod (bump s .sys (ySEAMIN g)) g (fun q => sinSet q c (ownHead d))

theorem CountsOnly.gateGet (h : CountsOnly s t) (g : Ring) : Machine.gateGet t g = Machine.gateGet s g := by
  unfold Machine.gateGet; rw [h.ring]

theorem sinGet_headTaken (s : State) (g : Ring) (c : Nat) (d : BitVec 48) (k : Nat) :
    sinGet (gateGet (headTaken s g c d) g) k = if k = c then ownHead d else sinGet (gateGet s g) k := by
  rw [headTaken, gateGet_gateMod_same, sinGet_sinSet, (bump_shape ..).gateGet]

theorem nodeGet_headTaken (s : State) (g : Ring) (c : Nat) (d : BitVec 48) (k : BitVec 7) (m : Net) :
    nodeGet (headTaken s g c d) k m = nodeGet s k m := by
  unfold nodeGet; rw [headTaken, gateMod_mesh, (bump_shape ..).mesh]

theorem canDrive_headTaken (s : State) (g : Ring) (c : Nat) (d : BitVec 48) : canDrive (headTaken s g c d) = canDrive s := by
  rw [headTaken, gateMod_canDrive]
  unfold canDrive
  rw [(bump_shape ..).ring]

theorem tx_headTaken (s : State) (g : Ring) (c : Nat) (d : BitVec 48) :
    (gateGet (headTaken s g c d) (otherRing g)).tx = (gateGet s (otherRing g)).tx := by
  rw [headTaken, gateGet_gateMod_other', (bump_shape ..).gateGet]

theorem seamOn_own (h : sinGet (gateGet s g) c = ownHead d) : seamOn s g c = meshFromSeam s g c := by
  unfold seamOn; rw [h]; rfl

/-- R170, R180: the head takes its channel and asks to leave it for the mesh. -/
theorem exec_seamUnit_ownHead (hdrive : canDrive s = true) (hr : s.ring.resync = false) (hfr : t1.msb = true)
    (hsp : seamSpGood t1 t2 t3 = true) (hlatch : (sinGet (gateGet s g) (seamCh t1)).latch = none)
    (hleft : (sinGet (gateGet s g) (seamCh t1)).left = 0) (hown : hDchip (1#2 ++ seamU t1 t2 t3) = s.chipnum)
    (htab : inTable s s.chipnum = true) :
    exec (.seamUnit g t1 t2 t3) s =
      .next (meshFromSeam (headTaken s g (seamCh t1) (1#2 ++ seamU t1 t2 t3)) g (seamCh t1)) := by
  change execSeamUnit g t1 t2 t3 s = _
  unfold execSeamUnit
  rw [if_neg (by simp [hdrive, hr, hfr])]
  dsimp only
  rw [hlatch, if_neg (by simp), if_pos hleft, hsp, if_neg (by simp), hown, htab, decide_eq_true rfl]
  change Host.Outcome.next (seamOn (headTaken s g (seamCh t1) (1#2 ++ seamU t1 t2 t3)) g (seamCh t1)) = _
  rw [seamOn_own (d := 1#2 ++ seamU t1 t2 t3) (by rw [sinGet_headTaken, if_pos rfl])]

/-! ## Into the mesh -/

/-- The chip after that head has left channel c for the mesh: the channel waits for the rest of its packet, the unit stands at the
gateway, and the credit goes back (R176, R180). -/
def headEntered (s : State) (g : Ring) (c : Nat) (d : BitVec 48) : State :=
  gwTx (nodeMod (gateMod (headTaken s g c d) g (fun q => sinSet q c { ownHead d with latch := none, busy := decide ((hLen d).toNat ≠ 0) }))
    (gateNode g) (netOfChannel c) (fun q => { q with out := [unitOf d] })) (otherRing g) [ctlTransfer 1 0 (BitVec.ofNat 8 (2 ^ c))]

theorem meshFromSeam_headTaken (hdrive : canDrive s = true)
    (hlane : ((sinGet (gateGet s g) (if c % 2 = 0 then c + 1 else c - 1)).toMesh &&
      (sinGet (gateGet s g) (if c % 2 = 0 then c + 1 else c - 1)).busy) = false)
    (hout : (nodeGet s (gateNode g) (netOfChannel c)).out = []) : meshFromSeam (headTaken s g c d) g c = headEntered s g c d := by
  have hne : (if c % 2 = 0 then c + 1 else c - 1) ≠ c := by split <;> omega
  refine meshFromSeam_own (x := ownHead d) (u := unitOf d) (by rw [sinGet_headTaken, if_pos rfl]) rfl rfl rfl ?_ ?_ ?_
  · rw [sinGet_headTaken, if_neg hne]; exact hlane
  · rw [nodeGet_headTaken]; exact hout
  · rw [canDrive_headTaken]; exact hdrive

theorem nodeGet_headEntered (s : State) (g : Ring) (c : Nat) (d : BitVec 48) (k : BitVec 7) (m : Net) :
    nodeGet (headEntered s g c d) k m =
      if k = gateNode g ∧ m = netOfChannel c then { nodeGet s (gateNode g) (netOfChannel c) with out := [unitOf d] } else nodeGet s k m := by
  have hgate : ∀ (x : State) (f : Gate → Gate) (h : Ring) (k : BitVec 7) (m : Net), nodeGet (gateMod x h f) k m = nodeGet x k m := by
    intro x f h k m; unfold nodeGet; rw [gateMod_mesh]
  rw [headEntered, gwTx, hgate]
  split
  · rename_i h
    obtain ⟨rfl, rfl⟩ := h
    rw [nodeGet_nodeMod_same, hgate, nodeGet_headTaken]
  · rename_i h
    rw [nodeGet_nodeMod_ne _ _ _ _ _ _ h, hgate, nodeGet_headTaken]

theorem headEntered_frame (s : State) (g : Ring) (c : Nat) (d : BitVec 48) :
    MeshOnly { s with ring := (headEntered s g c d).ring } (headEntered s g c d) := by
  obtain ⟨_, _, _, hcount⟩ := (bump_shape s .sys (ySEAMIN g)).open
  unfold headEntered headTaken
  rw [hcount]
  cases g <;> rfl

theorem seamUnitEntersMesh : Rules.SeamUnitEntersMesh := by
  intro s g t1 t2 t3 c x y d node net hdrive hr hfr hsp hlatch hleft hown htab hlane hout
  refine ⟨headEntered s g c d, ?_, ?_, fun k m h => ?_, ?_, ?_, headEntered_frame ..⟩
  · rw [exec_seamUnit_ownHead hdrive hr hfr hsp hlatch hleft hown htab, meshFromSeam_headTaken hdrive hlane hout]
  · rw [nodeGet_headEntered, if_pos ⟨rfl, rfl⟩]; rfl
  · rw [nodeGet_headEntered, if_neg h]
  · rw [headEntered, gwTx, gateGet_gateMod_other]
    change sinGet (gateGet (gateMod (headTaken s g c d) g _) g) c = _
    rw [gateGet_gateMod_same, sinGet_sinSet_same]; rfl
  · rw [headEntered, gwTx, gateGet_gateMod_same]
    change (gateGet (gateMod (headTaken s g c d) g _) (otherRing g)).tx ++ _ = _
    rw [gateGet_gateMod_other', tx_headTaken]

/-! ## Credits -/

/-- R176: the credit of channel c is back. -/
def creditBack (c : Nat) (y : Gate) : Gate := soutSet y c { soutGet y c with credit := true }

/-- The credits of these channels of ring g's output are back. -/
def creditsBack (s : State) (g : Ring) (l : List Nat) : State := l.foldl (fun t c => gateMod t g (creditBack c)) s

theorem creditsBack_out (s : State) (g : Ring) (l : List Nat) (k : Nat) : soutGet (gateGet (creditsBack s g l) g) k =
    { soutGet (gateGet s g) k with credit := (soutGet (gateGet s g) k).credit || decide (k ∈ l) } := by
  induction l generalizing s with
  | nil => simp [creditsBack]
  | cons c l ih =>
    change soutGet (gateGet (creditsBack (gateMod s g (creditBack c)) g l) g) k = _
    rw [ih, gateGet_gateMod_same, creditBack, soutGet_soutSet]
    by_cases h : k = c
    · subst h; simp
    · simp [h]

theorem creditsBack_other (s : State) (g : Ring) (l : List Nat) :
    gateGet (creditsBack s (otherRing g) l) g = gateGet s g :=
  foldl_keep (fun t => gateGet t g = gateGet s g) _ l s rfl fun t c h => by rw [gateGet_gateMod_other, h]

theorem creditsBack_ringOnly (s : State) (g : Ring) (l : List Nat) : creditsBack s g l = { s with ring := (creditsBack s g l).ring } := by
  refine foldl_keep (fun t : State => t = { s with ring := t.ring }) (fun t c => gateMod t g (creditBack c)) l s rfl fun t c h => ?_
  rw [gateMod_ringOnly]
  generalize (gateMod t g (creditBack c)).ring = r
  rw [h]

theorem creditsBack_empty (h : gatesEmpty s) (g : Ring) (l : List Nat) : gatesEmpty (creditsBack s g l) :=
  foldl_keep gatesEmpty _ l s h fun t c ht => gateMod_empty ht g _ fun y hy k => by
    rw [creditBack, sinGet_soutSet, soutGet_soutSet]
    split
    · rename_i hk; subst hk; exact hy k
    · exact hy k

theorem mem_creditChannels : c ∈ creditChannels arg ↔ c < 8 ∧ arg.getLsbD c = true := by
  simp [creditChannels]

theorem exec_credit_returns (hdrive : canDrive s = true) (hr : s.ring.resync = false)
    (hfree : ∀ c ∈ creditChannels arg, (soutGet (gateGet s (otherRing g)) c).credit = false) :
    exec (.credit g arg) s = .next (seamPump 32 (creditsBack s (otherRing g) (creditChannels arg)) (otherRing g)) := by
  have hnone : (creditChannels arg).any (fun c => (soutGet (gateGet s (otherRing g)) c).credit) = false :=
    List.any_eq_false.mpr fun c hc => by rw [hfree c hc]; exact Bool.false_ne_true
  change execCredit g arg s = _
  unfold execCredit
  rw [if_neg (by simp [hdrive, hr])]
  dsimp only
  rw [hnone]
  rfl

theorem creditsReturn : Rules.CreditsReturn := by
  intro s g arg hdrive hr hempty hfree
  refine ⟨creditsBack s (otherRing g) (creditChannels arg), ?_, fun c hc => ?_, creditsBack_other .., creditsBack_ringOnly ..⟩
  · rw [exec_credit_returns hdrive hr fun c hc => hfree c (mem_creditChannels.mp hc).1 (mem_creditChannels.mp hc).2,
      seamPump_idle (creditsBack_empty hempty _ _)]
  · rw [creditsBack_out]
    simp [mem_creditChannels, hc]

/-- Settles O22: the head goes straight through its channel (headTaken, headEntered); the channels that CREDIT names have theirs back (creditsBack). -/
theorem seamUnitsAndCredits : Obligations.SeamUnitsAndCredits := ⟨seamUnitEntersMesh, creditsReturn⟩

end Sys2Proof.Machine
end

section
/-!
The seams and ring family: ring faults, splices and unsplices, and the table that RESUME brings into force.
-/
namespace Sys2Proof.Machine

variable {s t u : State} {g : Ring}

/-! ## Frames of the ring's state -/

/-- Two changes of the ring's state, each journaled, are one. -/
theorem JournalOnly.ring_trans (h : JournalOnly { s with ring := t.ring } t) (k : JournalOnly { t with ring := u.ring } u) :
    JournalOnly { s with ring := u.ring } u := by
  refine JournalOnly.trans ?_ k
  obtain ⟨_, _, _, _, ht⟩ := h.open
  rw [ht]
  rfl

/-- A change of the ring's state alone makes no entry. -/
theorem JournalOnly.of_ring (h : u = { t with ring := u.ring }) : JournalOnly { t with ring := u.ring } u := by
  rw [← h]; exact .refl u

theorem setRing_frame (s : State) (f : RingSt → RingSt) : JournalOnly { s with ring := (setRing s f).ring } (setRing s f) := by
  obtain ⟨hring, hframe⟩ := setRing_spec s f
  rw [hring]; exact hframe

theorem tableSet_frame (h : s.ringStill) (l : List Byte) (roll : Bool) :
    JournalOnly { s with ring := (tableSet s l roll).ring } (tableSet s l roll) := by
  obtain ⟨hring, hframe⟩ := tableSet_still h l roll
  rw [hring]; exact hframe

theorem State.ringStill.gates (h : s.ringStill) : gatesEmpty s := by
  obtain ⟨-, -, -, -, -, -, hgates⟩ := h
  exact hgates

theorem JournalOnly.ring_still (h : JournalOnly { s with ring := t.ring } t) (hs : s.ringStill)
    (hg : t.ring.gateA.ins = s.ring.gateA.ins ∧ t.ring.gateA.outs = s.ring.gateA.outs ∧ t.ring.gateB.ins = s.ring.gateB.ins ∧
      t.ring.gateB.outs = s.ring.gateB.outs) : t.ringStill :=
  h.still (Machine.ring_still hs (fun _ => t.ring) (gatesEmpty_ring hg hs.gates))

theorem JournalOnly.ring_calm (h : JournalOnly { s with ring := t.ring } t) (hc : s.calm) : t.calm :=
  h.calm (calm_congr rfl rfl rfl rfl hc)

/-! ## Ring faults -/

theorem exec_ctlpar_fault {d : Half} (hd : canDrive s = true) (hr : s.ring.resync = false) (hbad : ctlGood d = false) :
    exec (.ctlpar g d) s = .next (ringFault s cCTLPAR) := by
  change execCtlpar g d s = _
  unfold execCtlpar
  rw [if_neg (by simp [hd, hr, hbad])]
  cases g <;> rfl

theorem exec_nopulse_fault (hd : canDrive s = true) (hm : isMaster s = false) (hr : s.ring.resync = false) :
    exec .nopulse s = .next (ringFault s cNOPULSE) := by
  change execNopulse s = _
  simp [execNopulse, hd, hm, hr]

theorem exec_nopulse_resync (hd : canDrive s = true) (hm : isMaster s = false) (hr : s.ring.resync = true) :
    exec .nopulse s = .next (setRing s (fun r => { r with st := .orphan })) := by
  change execNopulse s = _
  simp [execNopulse, hd, hm, hr]

theorem ringFaultIsDeclared : Rules.RingFaultIsDeclared := by
  intro s i cause g d hi hd hm hst hr hs hn hl hb
  refine ⟨ringFault s cause, ?_, ringFault_spec hd hm hst hr hs hn hl hb⟩
  rcases hi with ⟨rfl, hbad, rfl⟩ | ⟨rfl, rfl⟩
  · exact exec_ctlpar_fault hd hr hbad
  · exact exec_nopulse_fault hd hm hr

theorem lostPulseMakesOrphan : Rules.LostPulseMakesOrphan := fun s hd hm hr =>
  ⟨_, exec_nopulse_resync hd hm hr, (setRing_spec s _).1, setRing_frame s _⟩

/-- Settles O23: both rows come down to one ringFault; in resynchronisation a lost PULSE changes RINGSTAT.STATE alone. -/
theorem ringFaultsAreDeclared : Obligations.RingFaultsAreDeclared := ⟨ringFaultIsDeclared, lostPulseMakesOrphan⟩

/-! ## Splices -/

theorem exec_grant_splices (hd : canDrive s = false) (hjoin : mayJoin s = true) (hst : s.ring.st = .waiting) :
    exec (.grant s.chipnum) s = .next (ringMod (openBypass s) (fun r => { r with granted := true })) := by
  change execGrant s.chipnum s = _
  simp [execGrant, hd, hjoin, hst]

theorem exec_masterSelfSplice (hm : isMaster s = true) (hjoin : mayJoin s = true) (seen : Bool) :
    exec (.masterSelfSplice seen) s =
      .next (if seen then setRing s (fun r => { r with dupFlag := true }) else rollCall (openBypass s)) := by
  change execMasterSelfSplice seen s = _
  cases seen <;> simp [execMasterSelfSplice, hm, hjoin]

theorem canDrive_openBypass (s : State) : canDrive (openBypass s) = true := by
  obtain ⟨hring, -⟩ := openBypass_spec s
  rw [canDrive, hring]; rfl

theorem grantOpensBypass : Rules.GrantOpensBypass := by
  intro s hd hjoin
  obtain ⟨hring, hframe⟩ := openBypass_spec s
  refine ⟨fun hst => ⟨_, exec_grant_splices hd hjoin hst, ?_, ?_⟩, fun hm => ⟨⟨_, exec_masterSelfSplice hm hjoin false, ?_⟩,
    _, exec_masterSelfSplice hm hjoin true, (setRing_spec s _).1, setRing_frame s _⟩⟩
  · rw [ringMod_ring, hring]
  · exact hframe.ring_trans (.of_ring rfl)
  · rw [if_neg Bool.false_ne_true]
    have hroll := rollCall_spec (canDrive_openBypass s)
    have hall : JournalOnly { s with ring := (rollCall (openBypass s)).ring } (rollCall (openBypass s)) :=
      hframe.ring_trans (.of_ring (by rw [hroll]))
    have hring' : (rollCall (openBypass s)).ring = { (openBypass s).ring with
        op := .rollCall, rolls := [], dupFound := false, paused := true, stopped := true
        gateA := { (openBypass s).ring.gateA with
          tx := (openBypass s).ring.gateA.tx ++ [ctlTransfer 3 0x8 0, ctlTransfer 3 0x9 0, ctlTransfer 3 0xA 0] } } := by rw [hroll]
    rw [hring', hring] at hall ⊢
    exact ⟨rfl, rfl, rfl, rfl, rfl, hall⟩

/-! ## Unsplices -/

theorem wantedOn_seam (hc : s.calm) (hcmd : (domGet s 65).cmdOn = true) : wantedOn s 65 = true := by
  obtain ⟨hmode, -, -, hmove, hpatrol, -, -⟩ := hc
  simp [wantedOn, domAsks, hpatrol, hmove, hmode, hcmd]

theorem evalDom_stays (d : Nat) (hon : (domGet s d).st = .on) (hwant : wantedOn s d = true) : evalDom s d = s := by
  unfold evalDom
  dsimp only
  rw [hon, hwant]
  split <;> rfl

theorem stitchRun_none (h : s.sys.stitch = none) : stitchRun s = s := by
  unfold stitchRun stitchPump
  rw [h]

/-- What follows an unsplice changes nothing of a calm chip with no STITCH in progress whose SEAM is wanted ON. -/
theorem seamLooked_idle (hc : s.calm) (hst : s.sys.stitch = none) (hon : (domGet s 65).st = .on) (hcmd : (domGet s 65).cmdOn = true) :
    upkeep (stitchRun (evalDom s 65)) = s := by
  rw [evalDom_stays 65 hon (wantedOn_seam hc hcmd), stitchRun_none hst, upkeep_calm hc]

theorem leaveDone_leave (hc : s.calm) (hst : s.sys.stitch = none) (hon : (domGet s 65).st = .on) (hcmd : (domGet s 65).cmdOn = true) :
    leaveDone s .leave = ringMod s (fun r => { r with leaveWhy := .none }) :=
  seamLooked_idle (s := ringMod s (fun r => { r with leaveWhy := .none })) (calm_congr rfl rfl rfl rfl hc) hst hon hcmd

theorem exec_ringtoExpiry_unsplices (hd : canDrive s = true) (hwhy : s.ring.leaveWhy ≠ .none) :
    exec .ringtoExpiry s = .next (unsplice s) := if_pos ⟨hd, hwhy⟩

theorem exec_release_unsplices (hd : canDrive s = true) (hm : isMaster s = false) (hr : s.ring.resync = false)
    (hwhy : s.ring.leaveWhy ≠ .none) : exec (.release s.chipnum) s = .next (unsplice s) := by
  change execRelease s.chipnum s = _
  simp [execRelease, hd, hm, hr, hwhy]

theorem unspliceClosesBypass : Rules.UnspliceClosesBypass := by
  intro s i hi hd hwhy hs hc hst hon hcmd
  have hne : s.ring.leaveWhy ≠ .none := by rw [hwhy]; decide
  have hexec : exec i s = .next (unsplice s) := by
    rcases hi with rfl | ⟨rfl, hm, hr⟩
    · exact exec_ringtoExpiry_unsplices hd hne
    · exact exec_release_unsplices hd hm hr hne
  obtain ⟨hbypass, halone, hchips, hpos, hpaused, hstopped, -, hleave, hreform, hjoin, hdup, hfault, hframe⟩ := closeBypass_still hs
  have hsys : (closeBypass s).sys.stitch = none := by rw [hframe]; exact hst
  have hdom : domGet (closeBypass s) 65 = domGet s 65 := by unfold domGet; rw [hframe]
  have hdone : unsplice s = ringMod (closeBypass s) (fun r => { r with leaveWhy := .none }) := by
    rw [unsplice, hwhy, leaveDone_leave (hframe.ring_calm hc) hsys (by rw [hdom]; exact hon) (by rw [hdom]; exact hcmd)]
  refine ⟨_, hexec, ?_⟩
  rw [hdone]
  exact ⟨hbypass, halone, hchips, hpos, hpaused, hstopped, rfl, hleave, hreform, hjoin, hdup, hfault,
    hframe.ring_trans (.of_ring rfl)⟩

/-! ## RESUME -/

/-- R193 step 7: the pause is over, and with it the roll call and an orphan's state. -/
def pauseEnded (r : RingSt) : RingSt :=
  { r with paused := false, stopped := false, resync := false, rolls := [], tables := [], rollTurn := false, dupFound := false,
           op := .idle, st := if r.st = .orphan then .spliced else r.st }

/-- R201: the next ABORT is a first one again. -/
def abortsForgotten (s : State) : State :=
  gateMod (gateMod s .a (fun y => { y with abortSeen := 0 })) .b (fun y => { y with abortSeen := 0 })

theorem abortsForgotten_eq (s : State) : abortsForgotten s =
    { s with ring := { s.ring with gateA := { s.ring.gateA with abortSeen := 0 }, gateB := { s.ring.gateB with abortSeen := 0 } } } := rfl

theorem resumeSelf_eq (hg : s.ring.granted = false) (hf : s.ring.reform = false) (l : List Byte) :
    resumeSelf s l = upkeep (seamPumps (abortsForgotten (setRing (tableSet s l true) pauseEnded))) := by
  unfold resumeSelf
  dsimp only
  rw [hg, hf]
  rfl

/-- What RESUME leaves of the ring's state, with the table l in force. -/
def resumedRing (me : Byte) (l : List Byte) (r : RingSt) : RingSt :=
  { pauseEnded { r with chips := l, pos := posIn me l } with
    gateA := { r.gateA with abortSeen := 0 }, gateB := { r.gateB with abortSeen := 0 } }

/-- R187 step 4, R193 step 7: RESUME at a chip that depends on nothing of the ring and was not granted in this pause. -/
theorem resumeSelf_still (hs : s.ringStill) (hc : s.calm) (hg : s.ring.granted = false) (hf : s.ring.reform = false) (l : List Byte) :
    (resumeSelf s l).ring = resumedRing s.chipnum l s.ring ∧ JournalOnly { s with ring := (resumeSelf s l).ring } (resumeSelf s l) := by
  obtain ⟨htable, -⟩ := tableSet_still hs l true
  obtain ⟨hended, -⟩ := setRing_spec (tableSet s l true) pauseEnded
  have hframe : JournalOnly { s with ring := (abortsForgotten (setRing (tableSet s l true) pauseEnded)).ring }
      (abortsForgotten (setRing (tableSet s l true) pauseEnded)) :=
    ((tableSet_frame hs l true).ring_trans (setRing_frame _ _)).ring_trans (.of_ring (by rw [abortsForgotten_eq]))
  have hring : (abortsForgotten (setRing (tableSet s l true) pauseEnded)).ring = resumedRing s.chipnum l s.ring := by
    rw [abortsForgotten_eq, hended, htable]; rfl
  have hstill := hframe.ring_still hs (by rw [hring]; exact ⟨rfl, rfl, rfl, rfl⟩)
  rw [resumeSelf_eq hg hf, seamPumps_idle hstill.gates, upkeep_calm (hframe.ring_calm hc)]
  exact ⟨hring, hframe⟩

theorem exec_resume_takes (hd : canDrive s = true) (hm : isMaster s = false) (hr : s.ring.resync = false) :
    exec .resume s = .next (resumeSelf (passOn s msgRESUME 0) s.ring.tables) := by
  change execResume s = _
  simp [execResume, hd, hm, inRing_of_drive hd hr]

theorem resumeTakesTable : Rules.ResumeTakesTable := by
  intro s hd hm hr hs hc hg hf
  have hstill : (gwTx s .a [ctlTransfer 3 msgRESUME 0]).ringStill :=
    (JournalOnly.of_ring (t := s) (u := gwTx s .a [ctlTransfer 3 msgRESUME 0]) rfl).ring_still hs ⟨rfl, rfl, rfl, rfl⟩
  obtain ⟨hring, hframe⟩ := resumeSelf_still (s := gwTx s .a [ctlTransfer 3 msgRESUME 0]) hstill
    (calm_congr (s := s) rfl rfl rfl rfl hc) hg hf s.ring.tables
  refine ⟨_, exec_resume_takes hd hm hr, ?_⟩
  have hall : JournalOnly { s with ring := (resumeSelf (gwTx s .a [ctlTransfer 3 msgRESUME 0]) s.ring.tables).ring }
      (resumeSelf (gwTx s .a [ctlTransfer 3 msgRESUME 0]) s.ring.tables) := (JournalOnly.of_ring (t := s) rfl).ring_trans hframe
  rw [passOn_drive hd]
  rw [hring] at hall ⊢
  exact ⟨rfl, rfl, rfl, rfl, rfl, rfl, rfl, rfl, hall⟩

/-- Settles O24: openBypass opens it, closeBypass closes it, and RESUME ends the pause with the new table (resumeSelf_still). -/
theorem bypassOpensAndCloses : Obligations.BypassOpensAndCloses := ⟨grantOpensBypass, unspliceClosesBypass, resumeTakesTable⟩

end Sys2Proof.Machine
end

section
/-!
The seams and ring family: a write of RINGCTL that asks to leave the ring or, at its master, re-forms it.
-/
namespace Sys2Proof.Machine

variable {s t u x e : State} {v : Word}

/-! ## The write -/

theorem AccessOnly.ring (h : AccessOnly e u) : u.ring = e.ring := by rw [h]
theorem AccessOnly.chipnum (h : AccessOnly e u) : u.chipnum = e.chipnum := by rw [h]
theorem AccessOnly.faultGet (h : AccessOnly e u) (k : Nat) : Machine.faultGet u k = Machine.faultGet e k := by
  unfold Machine.faultGet; rw [h]
theorem AccessOnly.faultdb (h : AccessOnly e u) : Machine.faultdb u = Machine.faultdb e := by unfold Machine.faultdb cfgGet; rw [h]

theorem AccessOnly.setRing (h : AccessOnly e u) (w : RingSt) : AccessOnly { e with ring := w } { u with ring := w } := by
  unfold AccessOnly at h ⊢
  generalize hk : ({ u with ring := w } : State) = y
  have hy : y = { u with ring := w, host := y.host, mesh := y.mesh, jrn := y.jrn, cnt := y.cnt, sys := y.sys } := by subst hk; rfl
  have hsys : y.sys = u.sys := by subst hk; rfl
  rw [hy, hsys, h]

theorem AccessOnly.still (h : AccessOnly e u) (hs : e.ringStill) : u.ringStill := by
  refine still_congr hs (fun n => ?_) ?_ ?_ ?_ ?_ (fun b => ?_) (gatesEmpty_ring ?_ hs.gates)
  · unfold portGet; rw [h]
  · rw [h]
  · rw [h]
  · rw [h]
  · rw [h]
  · unfold bobGet; rw [h]
  · rw [h.ring]; exact ⟨rfl, rfl, rfl, rfl⟩

/-- The entry of a write leaves the host side and the mesh as the taking of the access left them. -/
theorem JournalOnly.overlay_side (h : JournalOnly (overlay x e) u) : u.host = x.host ∧ u.mesh = x.mesh := by
  rw [h]; exact ⟨rfl, rfl⟩

/-! ## LEAVE -/

/-- R196: the chip asks to leave; LEAVE goes out behind what ring A still has to send. -/
def leaveAsked (me : Byte) (r : RingSt) : RingSt :=
  { r with leaveWhy := .leave, gateA := { r.gateA with tx := r.gateA.tx ++ [ctlTransfer 3 0x6 me] } }

theorem askLeave_sends (hd : canDrive s = true) (hm : isMaster s = false) :
    askLeave s .leave = { s with ring := leaveAsked s.chipnum s.ring } := by
  unfold askLeave
  dsimp only
  rw [hm, if_neg Bool.false_ne_true, gwRing_drive (by exact hd)]
  rfl

theorem ringctlAfter_leave (h1 : v.getLsbD 1 = true) (h3 : v.getLsbD 3 = false) (hd : canDrive s = true) (hm : isMaster s = false)
    (hst : s.ring.st = .spliced) (hwhy : s.ring.leaveWhy = .none) :
    ringctlAfter s v = { s with ring := leaveAsked s.chipnum s.ring } := by
  have hnot : ¬(!(leaveAsked s.chipnum s.ring).joinEn && decide ((leaveAsked s.chipnum s.ring).st = .waiting)) = true := by
    simp [leaveAsked, hst]
  unfold ringctlAfter
  simp only [h1, h3, hd, hwhy, if_true, Bool.false_eq_true, if_false]
  rw [askLeave_sends hd hm, if_neg hnot]

theorem ringctlAsksToLeave : Rules.RingctlAsksToLeave := by
  intro s by_ raw be hc hn hr hw hM hR hbe h1 h3 hd hm hst hwhy r
  have hcalm : ({ s with ring := leaveAsked s.chipnum r } : State).calm := calm_congr rfl rfl rfl rfl hc
  refine byWrite_next (ringctl_row (r := r) hn hr hw (by simp [h1]) hM hR hbe (.inl h1) (by rw [h1, h3, Bool.or_true, Bool.or_false])
    (fun x u v hx _ hv1 hv3 hu _ hstaged => ?_) (fun u y m ⟨hstaged, honly⟩ => ⟨hstaged, honly.jrn_free y m⟩)
    (fun u ⟨_, honly⟩ => honly.calm hcalm) (fun u ⟨_, honly⟩ hon => by rw [honly.sysOn]; exact hon))
  have honly : AccessOnly { s with ring := r } u := hu.access
  have hring : u.ring = r := honly.ring
  have hchip : u.chipnum = s.chipnum := honly.chipnum
  obtain ⟨hhost, hmesh⟩ := hu.overlay_side
  have hafter : ringctlAfter u v = { u with ring := leaveAsked s.chipnum r } := by
    rw [ringctlAfter_leave (hv1.trans h1) (hv3.trans h3) (by rw [canDrive, hring]; exact hd) (by rw [isMaster, hchip]; exact hm)
      (by rw [hring]; exact hst) (by rw [hring]; exact hwhy), hring, hchip]
  rw [hafter]
  exact ⟨hhost, hmesh, hstaged, honly.setRing (leaveAsked s.chipnum r)⟩

/-! ## REFORM -/

/-- R199, R201: from u to t the master declared a ring fault of cause 7 and sent the four ABORTs; the host side and the mesh may differ. -/
def Reformed (u t : State) : Prop :=
  t.ring = { u.ring with stopped := true, fault := true, cause := 7, resync := false, op := .reform, rolls := [], tables := [], granted := false,
                         rollTurn := false, dupFound := false, count := if u.ring.count = 0xFFFF then 0xFFFF else u.ring.count + 1,
                         gateA := t.ring.gateA, gateB := t.ring.gateB } ∧
  t.ring.gateA.tx = u.ring.gateA.tx ++ List.replicate 4 (ctlTransfer 3 0xF 0) ∧
  t.ring.gateB.tx = u.ring.gateB.tx ++ List.replicate 4 (ctlTransfer 3 0xF 0) ∧ gatesEmpty t ∧
  (faultGet t 65).code = 0x0E ∧ (faultGet t 65).isNew = true ∧ (∀ k, k ≠ 65 → faultGet t k = faultGet u k) ∧
  t.sys.event.getLsbD 0 = true ∧ RecordsOnly { u with ring := t.ring, host := t.host, mesh := t.mesh } t

theorem Reformed.frame (h : Reformed u t) : RecordsOnly { u with ring := t.ring, host := t.host, mesh := t.mesh } t := by
  obtain ⟨-, -, -, -, -, -, -, -, hframe⟩ := h
  exact hframe

theorem Reformed.st (h : Reformed u t) : t.ring.st = u.ring.st := by
  obtain ⟨hring, -⟩ := h
  rw [hring]

theorem Reformed.host_mesh (h : Reformed u t) (y : HostIf) (m : Mesh) : Reformed u { t with host := y, mesh := m } := by
  obtain ⟨hring, htxA, htxB, hempty, hcode, hnew, hothers, hevent, hframe⟩ := h
  refine ⟨hring, htxA, htxB, hempty, hcode, hnew, hothers, hevent, ?_⟩
  unfold RecordsOnly at hframe ⊢
  exact congrArg (fun z : State => { z with host := y, mesh := m }) hframe

theorem Reformed.calm (h : Reformed u t) (hc : u.calm) : t.calm := h.frame.calm (calm_congr rfl rfl rfl rfl hc)

theorem Reformed.sysOn (h : Reformed u t) : Machine.sysOn t = Machine.sysOn u := by
  unfold Machine.sysOn domOn domGet
  rw [h.frame]

/-- R201: the master stops (ringStop_spec), then clears its gateways and aborts (reform_still). -/
theorem reform_reforms (hd : canDrive u = true) (hs : u.ringStill) (hn : nvOn u = true) (hl : u.jrn.staging.length + 2 ≤ 72)
    (hb : (faultdb u).getLsbD 18 = false) : Reformed u (reform (ringStop u cABORTED false)) ∧
    (reform (ringStop u cABORTED false)).host = u.host ∧ (reform (ringStop u cABORTED false)).mesh = u.mesh := by
  obtain ⟨hring, hcode, hnew, hothers, hevent, hframe⟩ := ringStop_spec cABORTED false hs hn hl hb
  generalize ringStop u cABORTED false = z at hring hcode hnew hothers hevent hframe ⊢
  have hdz : canDrive z = true := by rw [canDrive, hring]; exact hd
  have hsz : z.ringStill := ringStop_keepStill (by rw [hring]; exact ⟨rfl, rfl⟩) hframe hs
  obtain ⟨⟨a, b, ha, hbt, hreform⟩, hempty⟩ := reform_still hdz hsz
  rw [hreform] at hempty ⊢
  rw [hring] at ha hbt
  refine ⟨⟨by rw [hring]; rfl, ha, hbt, hempty, hcode, hnew, hothers, hevent, ?_⟩, by rw [hframe], by rw [hframe]⟩
  generalize ({ z.ring with op := .reform, resync := false, stopped := true, rolls := [], tables := [], granted := false, rollTurn := false
                            dupFound := false, gateA := a, gateB := b } : RingSt) = w
  obtain ⟨_, _, _, _, _, hz⟩ := hframe.open
  rw [hz]
  rfl

theorem ringctlAfter_reform (h1 : v.getLsbD 1 = false) (h3 : v.getLsbD 3 = true) (hd : canDrive u = true) (hm : isMaster u = true)
    (hop : u.ring.op ≠ .reform) (hst : (reform (ringStop u cABORTED false)).ring.st ≠ .waiting) :
    ringctlAfter u v = reform (ringStop u cABORTED false) := by
  have hnot : ¬(!(reform (ringStop u cABORTED false)).ring.joinEn && decide ((reform (ringStop u cABORTED false)).ring.st = .waiting)) = true := by
    simp [hst]
  unfold ringctlAfter
  simp only [h1, h3, hd, hm, Bool.and_true, if_true, Bool.false_eq_true, if_false]
  rw [if_neg hop, if_neg hnot]

theorem ringctlReforms : Rules.RingctlReforms := by
  intro s by_ raw be hc hn hl hr hw hM hR hbe h1 h3 hd hm hst hop hs hb r
  have hstill : ({ s with ring := r } : State).ringStill := ring_still hs (fun _ => r) (gatesEmpty_ring ⟨rfl, rfl, rfl, rfl⟩ hs.gates)
  have hcalm : ({ s with ring := r } : State).calm := calm_congr rfl rfl rfl rfl hc
  suffices hrow : ∃ t, byWrite s 0x2A (fun _ wd v => decide (wd = .reg 0x2A) && v.getLsbD 3) by_ = t ∧ AccessEnds s t 0x2A by_ ∧
      ∃ u, StagesOne s u (originKind (askOrigin s by_)) (tidHost 0x2A) ((ringctlWord { s with ring := r }).setWidth 32) ∧
        AccessOnly { s with ring := r } u ∧ Reformed u t by
    obtain ⟨t, ht, hends, u, hstaged, honly, hring, htxA, htxB, hempty, hcode, hnew, hothers, hevent, hframe⟩ := hrow
    rw [honly.ring] at hring htxA htxB
    exact ⟨t, u, congrArg Host.Outcome.next ht, hends, hstaged, honly, hring, htxA, htxB, hempty, hcode, hnew,
      fun k hk => (hothers k hk).trans (honly.faultGet k), hevent, hframe⟩
  refine ringctl_row (r := r) hn hr hw (by simp [h3]) hM hR hbe (.inr h3) (by rw [h1, h3, Bool.or_true, Bool.or_false])
    (fun x u v hx _ hv1 hv3 hu hlen hstaged => ?_) (fun t y m ⟨u, hstaged, honly, ht⟩ => ⟨u, hstaged, honly, ht.host_mesh y m⟩)
    (fun t ⟨u, _, honly, ht⟩ => ht.calm (honly.calm hcalm)) (fun t ⟨u, _, honly, ht⟩ hon => by rw [ht.sysOn, honly.sysOn]; exact hon)
  have honly : AccessOnly { s with ring := r } u := hu.access
  have hring : u.ring = r := honly.ring
  have hdrive : canDrive u = true := by rw [canDrive, hring]; exact hd
  obtain ⟨hhost, hmesh⟩ := hu.overlay_side
  obtain ⟨hreforms, hhost', hmesh'⟩ := reform_reforms hdrive (honly.still hstill) (by rw [honly.nvOn]; exact hn) (by omega) (by rw [honly.faultdb]; exact hb)
  have hspliced : (reform (ringStop u cABORTED false)).ring.st = .spliced := by rw [hreforms.st, hring]; exact hst
  rw [ringctlAfter_reform (hv1.trans h1) (hv3.trans h3) hdrive (by rw [isMaster, honly.chipnum]; exact hm) (by rw [hring]; exact hop)
    (by rw [hspliced]; decide)]
  exact ⟨hhost'.trans hhost, hmesh'.trans hmesh, u, hstaged, honly, hreforms⟩

/-- Settles O25: the write makes its entry and then does what its bit asks: ringctlAfter sends LEAVE, or re-forms the ring. -/
theorem ringctlStartsOperations : Obligations.RingctlStartsOperations := ⟨ringctlAsksToLeave, ringctlReforms⟩

end Sys2Proof.Machine
end

section
/-!
The watch family: what becomes of a WATCH at its watcher (R217 to R220), and the ends of WATCHTO and of a replay (R216, R217).
-/
namespace Sys2Proof.Machine

variable {s t : State} {n : Fin 64} {p : PortSt} {q : Pkt} {more : List Pkt} {busyN : Bool}

/-! ## Drops and marks -/

/-- R216, R217, R219: DROPS after one more drop, holding at 65,535. -/
def oneMoreDrop (d : Half) : Half := if d = 0xFFFF then 0xFFFF else d + 1

theorem PortBecomes.sendDrop {k : Nat} (h : PortBecomes s t k p) :
    PortBecomes s (Machine.sendDrop t k) k { p with sdrop := true, drops := oneMoreDrop p.drops } := by
  simpa [Machine.sendDrop, oneMoreDrop] using (watchDrop_spec h 0).counts (bump_shape _ (.port k) pWSDROP)

theorem PortBecomes.recvDrop_late {k : Nat} (h : PortBecomes s t k p) :
    PortBecomes s (recvDrop t k 1) k { p with rdrop := true, drops := oneMoreDrop p.drops } := by
  simpa [recvDrop, oneMoreDrop] using (watchDrop_spec h 1).counts (bump_shape _ (.port k) pWRDROP)

theorem PortBecomes.recvDrop_nomap {k : Nat} (h : PortBecomes s t k p) :
    PortBecomes s (recvDrop t k 2) k { p with nomap := true, drops := oneMoreDrop p.drops } := by
  simpa [recvDrop, oneMoreDrop] using (watchDrop_spec h 2).counts (bump_shape _ (.port k) pWRDROP)

theorem PortBecomes.recordMark {k : Nat} (h : PortBecomes s t k p) (a : BitVec 30) :
    PortBecomes s (Machine.recordMark t k a) k
      { p with wmark := 1#1 ++ BitVec.ofBool (p.wmark.getLsbD 31 || p.wmark.getLsbD 30) ++ a } :=
  (h.mod _).counts (bump_shape ..)

/-! ## The packet taken -/

theorem rxDrop_keepsPort (s : State) (k : Nat) (node : BitVec 7) (net : Net) :
    PortBecomes (rxDrop s node net) (rxDrop s node net) k (portGet s k) := .refl ..

/-- A port that takes the oldest packet of a node's network and then changes alone. -/
theorem PortBecomes.afterRxDrop {k : Nat} {node : BitVec 7} {net : Net} (h : PortBecomes (rxDrop s node net) t k p)
    (hrx : (Machine.nodeGet s node net).rx = q :: more) :
    PortAndNode s t k p node net { Machine.nodeGet s node net with rx := more } := by
  obtain ⟨hq, hother, hports, hframe⟩ := rxDrop_facts s node net hrx
  exact .of h hports hq hother hframe

/-! ## The replay's plan depends on the configuration alone -/

theorem PortsOnly.replayAddr (h : PortsOnly s t) (k : Nat) (q : Pkt) : Machine.replayAddr t k q = Machine.replayAddr s k q := by
  obtain ⟨_, _, _, _, _, rfl⟩ := h.open
  rfl

theorem PortsOnly.refusedBusy (h : PortsOnly s t) (k : Nat) (b : Bool) (cs : List BusCycle) :
    Machine.refusedBusy t k b cs = Machine.refusedBusy s k b cs := by
  obtain ⟨_, _, _, _, _, rfl⟩ := h.open
  rfl

theorem PortsOnly.writeCycles (h : PortsOnly s t) (k f : Nat) (u : DataUnit) :
    Machine.writeCycles t k f u = Machine.writeCycles s k f u := by
  obtain ⟨_, _, _, _, _, rfl⟩ := h.open
  rfl

theorem PortsOnly.writeRun (h : PortsOnly s t) (k f : Nat) (us : List DataUnit) :
    Machine.writeRun t k f us = Machine.writeRun s k f us := by
  induction us generalizing f with
  | nil => rfl
  | cons u us ih => simp only [Machine.writeRun, h.writeCycles, ih]

/-- R217, R218: a replay with a window, which BUSY_N does not turn away, runs its write on the device. -/
theorem PortBecomes.replayStart {k a : Nat} (h : PortBecomes s t k p) (haddr : replayAddr s k q = some a)
    (hbusy : refusedBusy s k busyN (writeRun s k a q.data) = false) :
    PortBecomes s (Machine.replayStart t k q busyN) k
      { p with replay := some { pkt := q, running := true }, cycles := writeRun s k a q.data } := by
  have ⟨_, _, _, hframe⟩ := h
  simp only [Machine.replayStart, hframe.replayAddr, haddr, hframe.writeRun, hframe.refusedBusy, hbusy, Bool.false_eq_true, if_false]
  exact h.mod _

/-! ## WATCH_ARRIVAL -/

section
variable (hserves : niServes s n.val = true) (hfree : (portGet s n.val).replay = none)
  (hrx : (nodeGet s (portNode n.val) .snp).rx = q :: more) (hgood : watchBad q = false)
include hserves hfree hrx hgood

/-- R218 to R220: a good WATCH that finds the replay buffer free is marked, discarded, or buffered, and a replay starts at once on a
free device. -/
theorem exec_watchArrival : exec (.watchArrival n busyN) s = .next (
    let s1 := rxDrop s (portNode n.val) .snp
    if q.data.isEmpty then recordMark s1 n.val q.addr
    else if isInit s n.val = true ∨ replayAddr s n.val q = none then recvDrop s1 n.val 2
    else
      let s2 := portMod s1 n.val (fun y => { y with replay := some { pkt := q, running := false } })
      if busFree s n.val then replayStart s2 n.val q busyN else s2) := by
  change execWatchArrival n busyN s = _
  simp only [execWatchArrival, hserves, hfree, hrx, hgood, Bool.true_eq_false, Bool.false_eq_true, if_false]
  split_ifs <;> rfl

theorem exec_watchArrival_mark (hdata : q.data = []) : exec (.watchArrival n busyN) s =
    .next (recordMark (rxDrop s (portNode n.val) .snp) n.val q.addr) := by
  rw [exec_watchArrival hserves hfree hrx hgood]
  simp only [hdata, List.isEmpty_nil, if_true]

theorem exec_watchArrival_replay {a : Nat} (hdata : q.data ≠ []) (hrole : isInit s n.val = false) (haddr : replayAddr s n.val q = some a)
    (hbus : busFree s n.val = true) : exec (.watchArrival n busyN) s = .next (replayStart
      (portMod (rxDrop s (portNode n.val) .snp) n.val (fun y => { y with replay := some { pkt := q, running := false } })) n.val q busyN) := by
  rw [exec_watchArrival hserves hfree hrx hgood]
  simp [hdata, hrole, haddr, hbus]

theorem exec_watchArrival_discard (hdata : q.data ≠ []) (hnone : isInit s n.val = true ∨ replayAddr s n.val q = none) :
    exec (.watchArrival n busyN) s = .next (recvDrop (rxDrop s (portNode n.val) .snp) n.val 2) := by
  rw [exec_watchArrival hserves hfree hrx hgood]
  simp [hdata, hnone]

end

/-- Settles O17: the packet leaves the node, and what the port then does is one of recordMark, replayStart and recvDrop. -/
theorem watchesAreMarkedOrReplayed : Obligations.WatchesAreMarkedOrReplayed := by
  intro s n busyN q more node p q1 hserves hfree hrx hgood
  have htaken := rxDrop_keepsPort s n.val node .snp
  refine ⟨fun hdata => ?mark, fun a hdata hrole haddr hbus hbusy => ?replay, fun hdata hnone => ?discard⟩
  case mark =>
    exact ⟨_, exec_watchArrival_mark hserves hfree hrx hgood hdata, (htaken.recordMark q.addr).afterRxDrop hrx⟩
  case replay =>
    obtain ⟨-, -, -, hframe⟩ := rxDrop_facts s node .snp hrx
    have hstart := (htaken.mod (fun y => { y with replay := some { pkt := q, running := false } })).replayStart
      ((hframe.replayAddr ..).trans haddr) (by rw [hframe.refusedBusy, hframe.writeRun]; exact hbusy)
    rw [hframe.writeRun] at hstart
    exact ⟨_, exec_watchArrival_replay hserves hfree hrx hgood hdata hrole haddr hbus, hstart.afterRxDrop hrx⟩
  case discard =>
    exact ⟨_, exec_watchArrival_discard hserves hfree hrx hgood hdata hnone, htaken.recvDrop_nomap.afterRxDrop hrx⟩

/-! ## The ends of WATCHTO -/

theorem exec_watchReplayTimeout (hbuf : (portGet s n.val).replay ≠ none) (hrx : (nodeGet s (portNode n.val) .snp).rx = q :: more)
    (hserves : niServes s n.val = true) :
    exec (.watchReplayTimeout n) s = .next (recvDrop (rxDrop s (portNode n.val) .snp) n.val 1) :=
  if_pos (by simp [hrx, hserves, Option.isSome_iff_ne_none.mpr hbuf])

/-- R216: a head that its router has not taken is dropped with the units that follow it. -/
theorem exec_watchSendTimeout {u : LinkUnit} {us : List LinkUnit} (hout : (nodeGet s (portNode n.val) .snp).out = u :: us)
    (hhead : utOf u.d = 1) (hwaits : (arbGet s .snp n.val .localIn).holder ≠ some 0) :
    exec (.watchSendTimeout n) s = .next (watchPump (sendDrop (nodeMod s (portNode n.val) .snp
      (fun x => { x with out := us.drop (hLen u.d).toNat })) n.val) n.val) := by
  change execWatchSendTimeout n s = _
  simp only [execWatchSendTimeout, hout]
  exact if_pos ⟨hhead, hwaits⟩

/-- R214: the send buffer moves nothing when it is empty and no request waits for it. -/
theorem watchPump_empty {k : Nat} (hsend : (portGet s k).wsend = []) (hheld : (portGet s k).wheld = []) : watchPump s k = s := by
  simp only [watchPump, hsend, hheld, ite_self]

theorem watchDropsAreCounted : Rules.WatchDropsAreCounted := by
  intro s n node p more
  refine ⟨fun q qs hbuf hrx hserves => ?late, fun u us hout hhead hwhole hwaits hsend hheld => ?unsent⟩
  case late =>
    exact ⟨_, exec_watchReplayTimeout hbuf hrx hserves, (rxDrop_keepsPort s n.val node .snp).recvDrop_late.afterRxDrop hrx⟩
  case unsent =>
    have hdrop := (PortBecomes.refl (nodeMod s node .snp (fun x => { x with out := us.drop (hLen u.d).toNat })) n.val).sendDrop
    have ⟨hport, _, _, _⟩ := hdrop
    have hexec := exec_watchSendTimeout hout hhead hwaits
    rw [watchPump_empty (by rw [hport]; exact hsend) (by rw [hport]; exact hheld)] at hexec
    refine ⟨_, hexec, .of hdrop rfl ?_ (fun k m hne => nodeGet_nodeMod_ne _ _ _ _ _ _ hne) rfl⟩
    rw [nodeGet_nodeMod_same, List.drop_of_length_le hwhole.le]

/-! ## The end of a replay -/

theorem exec_watchReplayDone (hrun : (portGet s n.val).replay = some { pkt := q, running := true }) :
    exec (.watchReplayDone n) s = .next (bump (portMod s n.val
      (fun y => { countCycles y y.cycles with replay := none, claimed := false })) (.port n.val) pREPLAY) := by
  change execWatchReplayDone n s = _
  simp only [execWatchReplayDone, hrun, if_true]

theorem replayEnds : Rules.ReplayEnds := by
  intro s n q p hrun
  exact ⟨_, exec_watchReplayDone hrun, ((PortBecomes.refl s n.val).mod _).counts (bump_shape ..)⟩

/-- Settles O18: either timeout ends in one drop, counted at its port, and a replay's end changes its port alone. -/
theorem watchDropsAndEnds : Obligations.WatchDropsAndEnds := ⟨watchDropsAreCounted, replayEnds⟩

end Sys2Proof.Machine
end

section
/-!
The bobbins family: what BOB does with a one-word request, and the lock of a bobbin (R225 to R227, R238, R239, R242, R353).
-/
namespace Sys2Proof.Machine

variable {s t u g : State} {net : Net} {p : Pkt} {w b : Nat} {d : Word} {x : Bobbin} {st : Status} {sel : Nat → Bool}

/-! ## One bobbin changes -/

/-- From s to t bobbin b became x; besides, only the journal, the event counters and the pending host events changed. -/
def BobBecomes (s t : State) (b : Nat) (x : Bobbin) : Prop :=
  bobGet t b = x ∧ (∀ c, c ≠ b → bobGet t c = bobGet s c) ∧ BobsOnly s t

theorem BobBecomes.refl (s : State) (b : Nat) : BobBecomes s s b (bobGet s b) := ⟨rfl, fun _ _ => rfl, .refl s⟩

theorem BobBecomes.set (h : BobBecomes s t b x) (y : Bobbin) : BobBecomes s (bobSet t b y) b y := by
  obtain ⟨-, hother, honly⟩ := h
  exact ⟨bobGet_bobSet_same .., fun c hc => (bobGet_bobSet_ne _ _ _ _ hc).trans (hother c hc), honly.set b y⟩

theorem BobBecomes.mod (h : BobBecomes s t b x) (f : Bobbin → Bobbin) : BobBecomes s (bobMod t b f) b (f x) := by
  obtain ⟨rfl, -, -⟩ := id h
  exact h.set _

theorem BobBecomes.journal (h : BobBecomes s t b x) (k : JournalOnly t u) : BobBecomes s u b x := by
  obtain ⟨hbob, hother, honly⟩ := h
  exact ⟨(bobGet_counts k b).trans hbob, fun c hc => (bobGet_counts k c).trans (hother c hc), honly.jrn' k⟩

theorem BobBecomes.counts (h : BobBecomes s t b x) (k : CountsOnly t u) : BobBecomes s u b x := h.journal k.toJournal

theorem BobBecomes.bcfg (h : BobBecomes s t b x) (c : Nat) : Machine.bcfg t c = Machine.bcfg s c := by
  obtain ⟨-, -, honly⟩ := h
  unfold Machine.bcfg cfgGet
  rw [honly]

theorem BobBecomes.domOn (h : BobBecomes s t b x) (k : Nat) : Machine.domOn t k = Machine.domOn s k := by
  obtain ⟨-, -, honly⟩ := h
  unfold Machine.domOn domGet
  rw [honly]

/-- R242: the bobbin after its lock is released. -/
theorem BobBecomes.lockFree (h : BobBecomes s t b x) : BobBecomes s (Machine.lockFree t b) b
    (if x.lock = none then x
     else if bOverwrite (Machine.bcfg s b) = false ∧ x.asm ≠ none then { x with lock := none, asm := none, coll := true }
     else { x with lock := none }) := by
  have hfree : BobBecomes s (Machine.lockFree t b) b _ := h.mod _
  simpa [bLocked, h.bcfg, Option.isSome_iff_ne_none] using hfree

/-! ## Requests that BOB performs -/

/-- BOB answers the request it took, and its bobbin stays as the operation left it. -/
theorem BobBecomes.answered (h : BobBecomes (rxDrop s nodeBob net) g (bobOf p.addr) x) (hc : s.calm) (ha : BobAsks s net p)
    (st : Status) (ds : List DataUnit) :
    settle (respond g p st ds) = respond g p st ds ∧ BobDoes s (respond g p st ds) net p x st ds := by
  obtain ⟨hbob, hother, honly⟩ := h
  exact bob_fin hc ha honly hbob hother

theorem BobWrites.asks (h : BobWrites s net p w d) : BobAsks s net p := h.1

/-- R225, R226: a one-word write to a word that takes it is what the write of that word does, and its answer. A word that is discarded counts. -/
theorem BobWrites.taken (hw : BobWrites s net p w d) (hc : s.calm) (hsel : sel w = true) (hwr : bobWritable w = true) (h0 : w = 0 → d = 0)
    (hword : bobWriteWord (rxDrop s nodeBob net) (bobOf p.addr) p w d = .st g st)
    (hg : BobBecomes (rxDrop s nodeBob net) g (bobOf p.addr) x) :
    ∃ u, CountsOnly g u ∧ bobTake s net (fun p => bobNames p sel) = respond u p st [] ∧ BobDoes s (respond u p st []) net p x st [] := by
  have hcounts : CountsOnly g (if st = .flushed then bump g .sys yBOBFLUSHED else g) := by
    split
    · exact bump_shape ..
    · rfl
  obtain ⟨hsettled, hdoes⟩ := (hg.counts hcounts).answered hc hw.asks st []
  exact ⟨_, hcounts, (bob_write hw hsel hwr h0 hword).trans hsettled, hdoes⟩

theorem BobWrites.does (hw : BobWrites s net p w d) (hc : s.calm) (hsel : sel w = true) (hwr : bobWritable w = true) (h0 : w = 0 → d = 0)
    (hword : bobWriteWord (rxDrop s nodeBob net) (bobOf p.addr) p w d = .st g st)
    (hg : BobBecomes (rxDrop s nodeBob net) g (bobOf p.addr) x) :
    ∃ t, (.next (bobTake s net (fun p => bobNames p sel)) : Res) = .next t ∧ BobDoes s t net p x st [] := by
  obtain ⟨u, -, htake, hdoes⟩ := hw.taken hc hsel hwr h0 hword hg
  exact ⟨_, congrArg _ htake, hdoes⟩

/-- R353: a word that its sender may not write is refused with RIGHTS, recorded, and the bobbin stays. -/
theorem BobWrites.refused (hw : BobWrites s net p w d) (hc : s.calm) (hsel : sel w = true) (hwr : bobWritable w = true) (h0 : w = 0 → d = 0)
    (hword : bobWriteWord (rxDrop s nodeBob net) (bobOf p.addr) p w d = bobRefuse (rxDrop s nodeBob net) p) :
    ∃ t, (.next (bobTake s net (fun p => bobNames p sel)) : Res) = .next t ∧
      BobDoes (refusedBy s (fabOrigin p) 9) t net p (bobGet s (bobOf p.addr)) .rights [] := by
  have hcounts := refuse_counts (rxDrop s nodeBob net) (fabOrigin p) whyOWNER
  have hkept : BobBecomes (rxDrop (refusedBy s (fabOrigin p) 9) nodeBob net) _ (bobOf p.addr) (bobGet s (bobOf p.addr)) :=
    (BobBecomes.refl _ _).counts hcounts
  obtain ⟨hsettled, hdoes⟩ := hkept.answered (calm_refused _ _ hc) hw.asks .rights []
  exact ⟨_, congrArg _ ((bob_write hw hsel hwr h0 hword).trans hsettled), hdoes⟩

/-! ## LOCK -/

/-- R238: a free lock reads 0. -/
theorem lockWord_free (hfree : (bobGet s b).lock = none) : lockWord s b p = 0 := by
  simp only [lockWord, hfree]

/-- R238: the value of a held lock for the sender of p. -/
theorem lockWord_held {l : Lock} (hl : (bobGet s b).lock = some l) : lockWord s b p =
    if l.schip = p.schip ∧ l.cid = p.cid ∧ p.snode.getLsbD 0 = false then 0 else 0xFF#8 ++ 0#15 ++ (l.cid.setWidth 9 + 1 : BitVec 9) := by
  simp [lockWord, bobHolds, hl, holderCode, and_assoc]

/-- R225, R238: a one-word READ of LOCK returns its value, and takes the lock as lockTake says. -/
theorem exec_lockRead (hc : s.calm) (ha : BobAsks s .req p) (hop : opOf p.cmd = .read 1) (hix : bobWordIx p.addr 0 = 0)
    (hx : BobBecomes (rxDrop s nodeBob .req) (lockTake (rxDrop s nodeBob .req) (bobOf p.addr) p) (bobOf p.addr) x) :
    ∃ t, exec .lockRead s = .next t ∧ BobDoes s t .req p x .ok [goodUnit (lockWord s (bobOf p.addr) p) 0xF] := by
  have ⟨_, _, _, _, hcheck, haddr, henabled, hright⟩ := ha
  have hperform : bobPerform (rxDrop s nodeBob .req) p = some (bobRead (rxDrop s nodeBob .req) p 1) := by
    have hgood : bobBad (rxDrop s nodeBob .req) p = false := bobBad_read haddr henabled hop
    have hmay : holdsRight (rxDrop s nodeBob .req) (fabOrigin p) rBOBBIN = true := hright
    simp [bobPerform, hcheck, hop, hgood, hmay]
  have hread : bobRead (rxDrop s nodeBob .req) p 1 = respond (lockTake (rxDrop s nodeBob .req) (bobOf p.addr) p) p .ok
      [goodUnit (lockWord s (bobOf p.addr) p) 0xF] := by
    simp [bobRead, hix, bobReadWord]
    rfl
  obtain ⟨hsettled, hdoes⟩ := hx.answered hc ha .ok [goodUnit (lockWord s (bobOf p.addr) p) 0xF]
  have htake := bob_take (sel := fun p => decide (opOf p.cmd = .read 1) && decide (bobWordIx p.addr 0 = 0)) ha (by simp [hop, hix]) hperform
  rw [hread, hsettled] at htake
  exact ⟨_, congrArg Host.Outcome.next htake, hdoes⟩

/-- R238: a client takes a free lock by reading it. -/
theorem lockTake_client (hclient : p.snode.getLsbD 0 = false) (hfree : (bobGet s b).lock = none) :
    BobBecomes s (lockTake s b p) b { bobGet s b with lock := some { schip := p.schip, snode := p.snode, cid := p.cid } } := by
  have htaken : lockTake s b p = bobSet s b { bobGet s b with lock := some { schip := p.schip, snode := p.snode, cid := p.cid } } := by
    simp only [lockTake, hclient, bobMod, hfree, Bool.false_eq_true, if_false]
  rw [htaken]
  exact (BobBecomes.refl s b).set _

theorem lockTake_agent (hagent : p.snode.getLsbD 0 = true) : BobBecomes s (lockTake s b p) b (bobGet s b) := by
  rw [lockTake, if_pos hagent]
  exact .refl s b

/-- R238: a lock that is held stays with its holder. -/
theorem lockTake_held {l : Lock} (hl : (bobGet s b).lock = some l) : BobBecomes s (lockTake s b p) b (bobGet s b) := by
  unfold lockTake
  split
  · exact .refl s b
  · simp only [bobMod, hl]
    exact (BobBecomes.refl s b).set _

theorem lockIsReadAndReleased : Rules.LockIsReadAndReleased := by
  intro s p hc b x free
  refine ⟨fun ha hop hix _ => ⟨fun hclient hfree => ?client, fun hagent hfree => ?agent, fun l hl => ?held⟩, fun net hw hholds => ?release⟩
  case client =>
    rw [← lockWord_free hfree]
    exact exec_lockRead hc ha hop hix (lockTake_client hclient hfree)
  case agent =>
    rw [← lockWord_free hfree]
    exact exec_lockRead hc ha hop hix (lockTake_agent hagent)
  case held =>
    rw [← lockWord_held hl]
    exact exec_lockRead hc ha hop hix (lockTake_held hl)
  case release =>
    exact hw.does hc rfl rfl (fun _ => rfl) (if_pos hholds) (BobBecomes.refl (rxDrop s nodeBob net) b).lockFree

/-! ## What others are refused -/

/-- R231, R232, R234: TXSTART and TXDATA, which LOCKED mode keeps for the holder. -/
theorem bobWriteWord_tx (hw : w = 0x0F ∨ (0x10 ≤ w ∧ w ≤ 0x17)) : bobWriteWord s b p w d =
    if bLocked (bcfg s b) && !bobHolds s b p then bobRefuse s p
    else
      let r := if w = 0x0F then txStart s b p.schip p.cid d else txWord s b p.schip p.cid d
      .st r.1 r.2 := by
  unfold bobWriteWord
  dsimp only
  split
  case h_7 => rfl
  all_goals omega

/-- R231, R234: a START that LOCKED mode does not keep from its sender. -/
theorem bobWriteWord_txStart (hmay : (!bOverwrite (bcfg s b)) = true → bobHolds s b p = true) (h : txStart s b p.schip p.cid d = (g, st)) :
    bobWriteWord s b p 0x0F d = .st g st := by
  rw [bobWriteWord_tx (.inl rfl), if_neg (by simpa [bLocked] using hmay), if_pos rfl, h]

/-- R232, R234: a TXDATA word that LOCKED mode does not keep from its sender. -/
theorem bobWriteWord_txWord (hmay : (!bOverwrite (bcfg s b)) = true → bobHolds s b p = true) (hw : 0x10 ≤ w ∧ w ≤ 0x17)
    (h : txWord s b p.schip p.cid d = (g, st)) : bobWriteWord s b p w d = .st g st := by
  rw [bobWriteWord_tx (.inr hw), if_neg (by simpa [bLocked] using hmay), if_neg (by omega), h]

/-- R227: a word of the owner, for anyone else. -/
theorem bobOwns_other (h : ¬(p.schip = s.chipnum ∧ p.snode = portNode (bOwner (bcfg s b)))) : ¬ bobOwns s b p = true := by
  simpa [bobOwns] using h

/-- R239: LOCK takes no value but 0. -/
theorem lockRelease_bad (hw : BobWrites s net p 0 d) (hc : s.calm) (hd : d ≠ 0) : ∃ t, exec (.lockRelease net) s = .next t ∧
    BobDoes s t net p (bobGet s (bobOf p.addr)) .decerr [] := by
  obtain ⟨ha, hop, hix, v, hdata, hbe, rfl⟩ := hw
  have ⟨_, _, _, _, hcheck, haddr, henabled, hright⟩ := ha
  have hbad : bobBad (rxDrop s nodeBob net) p = true := bob_bad0 haddr hop hdata hbe hix hd
  have hperform : bobPerform (rxDrop s nodeBob net) p = some (respond (rxDrop s nodeBob net) p .decerr []) := by
    simp [bobPerform, hcheck, hop, hbad]
  obtain ⟨hsettled, hdoes⟩ := (BobBecomes.refl (rxDrop s nodeBob net) (bobOf p.addr)).answered hc ha .decerr []
  have hnames : bobNames p (fun w => decide (w = 0)) = true := by
    simpa [bobNames, hop, hdata, hix] using hbe
  exact ⟨_, congrArg Host.Outcome.next ((bob_take (sel := fun p => bobNames p (fun w => decide (w = 0))) ha hnames hperform).trans hsettled), hdoes⟩

/-- R232: a word of another sender than the open assembly's, or without an assembly, is discarded. -/
theorem txWord_discards {schip cid : Byte} (h : ∀ a, (bobGet s b).asm = some a → ¬(a.schip = schip ∧ a.cid = cid)) :
    txWord s b schip cid d = (s, .flushed) := by
  unfold txWord
  dsimp only
  split
  · rfl
  · next a ha => exact if_pos (by simpa only [ne_eq, ← not_and_or] using h a ha)

/-- R232: a TXDATA word that its sender may write. -/
theorem BobWrites.txData (hw : BobWrites s net p w d) (hc : s.calm) (hix : 0x10 ≤ w ∧ w ≤ 0x17)
    (hmay : (!bOverwrite (bcfg s (bobOf p.addr))) = true → bobHolds s (bobOf p.addr) p = true)
    (hword : txWord (rxDrop s nodeBob net) (bobOf p.addr) p.schip p.cid d = (g, st)) (hg : BobBecomes (rxDrop s nodeBob net) g (bobOf p.addr) x) :
    ∃ t, exec (.txdata net) s = .next t ∧ BobDoes s t net p x st [] :=
  hw.does (sel := fun w => decide (0x10 ≤ w) && decide (w ≤ 0x17)) hc (by simp [hix]) (by simp [bobWritable]; omega) (by omega)
    (bobWriteWord_txWord (s := rxDrop s nodeBob net) hmay hix hword) hg

theorem othersAreRefused : Rules.OthersAreRefused := by
  intro s p net d w i hc hw b x
  refine ⟨fun hw0 hd => ?value, fun hother => ?rights, fun a hlo hhi hmay hasm hsender => ?flushed⟩
  case value =>
    subst hw0
    exact lockRelease_bad hw hc hd
  case rights =>
    have htx (htx : w = 0x0F ∨ (0x10 ≤ w ∧ w ≤ 0x17)) (hmode : bOverwrite (bcfg s b) = false) (hnot : bobHolds s b p = false) :
        bobWriteWord (rxDrop s nodeBob net) b p w d = bobRefuse (rxDrop s nodeBob net) p := by
      have hgate : (bLocked (bcfg s b) && !bobHolds s b p) = true := by simp [bLocked, hmode, hnot]
      exact (bobWriteWord_tx htx).trans (if_pos hgate)
    rcases hother with ⟨rfl, rfl, rfl, hnot⟩ | ⟨⟨rfl, rfl⟩ | ⟨rfl, rfl⟩ | ⟨rfl, rfl⟩ | ⟨rfl, rfl⟩, hnot⟩ | ⟨⟨rfl, rfl⟩ | ⟨rfl, hlo, hhi⟩, hmode, hnot⟩
    · exact hw.refused hc rfl rfl (fun _ => rfl) (if_neg (Bool.eq_false_iff.mp hnot))
    · exact hw.refused hc rfl rfl nofun (if_neg (bobOwns_other (s := rxDrop s nodeBob net) hnot))
    · exact hw.refused hc rfl rfl nofun (if_neg (bobOwns_other (s := rxDrop s nodeBob net) hnot))
    · exact hw.refused hc rfl rfl nofun (if_neg (bobOwns_other (s := rxDrop s nodeBob net) hnot))
    · exact hw.refused hc rfl rfl nofun (if_neg (bobOwns_other (s := rxDrop s nodeBob net) hnot))
    · exact hw.refused hc rfl rfl nofun (htx (.inl rfl) hmode hnot)
    · exact hw.refused (sel := fun w => decide (0x10 ≤ w) && decide (w ≤ 0x17)) hc (by simp [hlo, hhi]) (by simp [bobWritable]; omega) (by omega)
        (htx (.inr ⟨hlo, hhi⟩) hmode hnot)
  case flushed =>
    refine hw.txData hc ⟨hlo, hhi⟩ (fun hlocked => hmay.resolve_left (by simpa using hlocked)) (txWord_discards fun a' ha' => ?_) (.refl _ _)
    rw [show a' = a from Option.some.inj (ha'.symm.trans hasm)]
    exact hsender

/-- Settles O47: a READ of LOCK and a release by the holder are what lockTake and lockFree do to the bobbin; any other write of those words goes to
BobWrites.refused, lockRelease_bad or txWord_discards. -/
theorem locksAreTakenAndReleased : Obligations.LocksAreTakenAndReleased := ⟨lockIsReadAndReleased, othersAreRefused⟩

end Sys2Proof.Machine
end

section
/-!
The bobbins family: messages from their senders, and what the owner does with its bobbin (R230 to R237, R243, R245).
-/
namespace Sys2Proof.Machine

variable {s t g : State} {st : Status} {net : Net} {p : Pkt} {w b : Nat} {d : Word} {x : Bobbin} {schip cid : Byte}

/-! ## TXSTART -/

/-- R231: the bobbin after START dropped the assembly that was open; another sender's sets COLL. -/
def asmDropped (x : Bobbin) (schip cid : Byte) : Bobbin :=
  { x with
    asm := none
    coll := x.coll || (match x.asm with | some a => !(decide (a.schip = schip) && decide (a.cid = cid)) | none => false) }

/-- R231: the assembly that START opens with its descriptor d. -/
def asmOpened (schip cid : Byte) (d : Word) : Asm :=
  { schip := schip, cid := cid, lenM1 := d.extractLsb' 0 3, dbbit := d.extractLsb' 3 4, stag := d.extractLsb' 8 8, words := [] }

/-- R231: the bobbin has room for the message that d describes. -/
def Fits (d : Word) (z : Bobbin) : Prop := (d.extractLsb' 0 3).toNat + 1 ≤ bobFreeW z ∧ z.msgs.length < 32

@[simp] theorem asmDropped_msgs (x : Bobbin) (schip cid : Byte) : (asmDropped x schip cid).msgs = x.msgs := rfl

theorem fits_decide (z : Bobbin) : (decide (fieldNat d 0 3 + 1 ≤ bobFreeW z) && decide (z.msgs.length < 32)) = true ↔ Fits d z := by
  simp [Fits, fieldNat]

/-- R231: with k the least number of oldest messages whose loss makes room, OVERWRITE mode drops k and sets COLL when it drops any. -/
theorem txStart_overwrites {k : Nat} (hmode : bOverwrite (bcfg s b) = true) (hk : k < 33)
    (hfit : Fits d { asmDropped (bobGet s b) schip cid with msgs := (bobGet s b).msgs.drop k })
    (hleast : ∀ j, j < k → ¬ Fits d { asmDropped (bobGet s b) schip cid with msgs := (bobGet s b).msgs.drop j }) :
    txStart s b schip cid d = (bobSet s b { asmDropped (bobGet s b) schip cid with
      msgs := (bobGet s b).msgs.drop k, coll := (asmDropped (bobGet s b) schip cid).coll || decide (0 < k), asm := some (asmOpened schip cid d) }, .ok) := by
  have hfind : (List.range 33).find? (fun i => decide (fieldNat d 0 3 + 1 ≤
      bobFreeW { asmDropped (bobGet s b) schip cid with msgs := (bobGet s b).msgs.drop i }) && decide (((bobGet s b).msgs.drop i).length < 32)) = some k :=
    List.find?_range_eq_some.mpr ⟨(fits_decide _).mpr hfit, List.mem_range.mpr hk,
      fun j hj => by simpa only [Bool.not_eq_true', Bool.eq_false_iff, ne_eq] using fun h => hleast j hj ((fits_decide _).mp h)⟩
  have hlocked : bLocked (bcfg s b) = false := by simp [bLocked, hmode]
  unfold txStart
  simp only [hlocked, Bool.false_eq_true, if_false]
  exact congrArg (fun o : Option Nat => (bobSet s b { asmDropped (bobGet s b) schip cid with
      msgs := (bobGet s b).msgs.drop (o.getD 32), coll := (asmDropped (bobGet s b) schip cid).coll || decide (0 < o.getD 32),
      asm := some (asmOpened schip cid d) }, Status.ok)) hfind

theorem txStart_opens (hfit : Fits d (asmDropped (bobGet s b) schip cid)) : txStart s b schip cid d =
    (bobSet s b { asmDropped (bobGet s b) schip cid with asm := some (asmOpened schip cid d) }, .ok) := by
  cases hmode : bOverwrite (bcfg s b) with
  | true =>
    have := txStart_overwrites (k := 0) hmode (by omega) hfit nofun
    simpa using this
  | false =>
    have hlocked : bLocked (bcfg s b) = true := by simp [bLocked, hmode]
    unfold txStart
    simp only [hlocked, if_true]
    exact if_pos ((fits_decide _).mpr hfit)

theorem txStart_noRoom (hmode : bOverwrite (bcfg s b) = false) (hno : ¬ Fits d (asmDropped (bobGet s b) schip cid)) :
    txStart s b schip cid d = (bobSet s b (asmDropped (bobGet s b) schip cid), .decerr) := by
  have hlocked : bLocked (bcfg s b) = true := by simp [bLocked, hmode]
  unfold txStart
  simp only [hlocked, if_true]
  exact if_neg fun h => hno ((fits_decide _).mp h)

/-! ## TXDATA -/

/-- R232: a word that is not the last one joins the assembly. -/
theorem txWord_appends {a : Asm} (hasm : (bobGet s b).asm = some a) (hsender : a.schip = schip ∧ a.cid = cid)
    (hmore : a.words.length < a.lenM1.toNat) :
    txWord s b schip cid d = (bobSet s b { bobGet s b with asm := some { a with words := a.words ++ [d] } }, .ok) := by
  obtain ⟨rfl, rfl⟩ := hsender
  simp [txWord, hasm, hmore]

/-- R233: the message that an assembly becomes with its last word d. -/
def msgOf (a : Asm) (seq : BitVec 4) (d : Word) : Msg :=
  { lenM1 := a.lenM1, seq := seq, stag := a.stag, scid := a.cid, schip := a.schip, words := a.words ++ [d] }

/-- R233: the last word commits the message and sets its doorbell bit. -/
theorem txWord_commits {a : Asm} (hasm : (bobGet s b).asm = some a) (hsender : a.schip = schip ∧ a.cid = cid)
    (hlast : ¬ a.words.length < a.lenM1.toNat) : txWord s b schip cid d =
      (bellSet (bump (bobSet s b { bobGet s b with
        asm := none, msgs := (bobGet s b).msgs ++ [msgOf a (bobGet s b).seq d], seq := (bobGet s b).seq + 1 }) .sys yBOBCOMMIT) b
          (1 <<< a.dbbit.toNat), .ok) := by
  obtain ⟨rfl, rfl⟩ := hsender
  simp [txWord, hasm, hlast, msgOf]

/-- R246: a doorbell bit of bobbin b wakes nobody: its owner is ON, or does not ask for it. -/
def RingsQuietly (s : State) (b : Nat) : Prop := bWake (bcfg s b) = false ∨ domOn s (bOwner (bcfg s b)) = true

theorem RingsQuietly.rxDrop (h : RingsQuietly s b) : RingsQuietly (Machine.rxDrop s nodeBob net) b := by
  obtain ⟨-, hcfg, -, hdoms, -⟩ := rd_facts s net
  unfold RingsQuietly domOn domGet at *
  rw [hcfg, hdoms]
  exact h

theorem RingsQuietly.after (hquiet : RingsQuietly s b) (h : BobBecomes s t b x) : RingsQuietly t b := by
  unfold RingsQuietly
  rw [h.bcfg, h.domOn]
  exact hquiet

/-- R245: doorbell bits are set. -/
theorem bellSet_quiet (hquiet : RingsQuietly s b) (bits : Half) :
    bellSet s b bits = bobMod s b (fun x => { x with bell := x.bell ||| bits }) :=
  bellWake_idle _ (hquiet.after ((BobBecomes.refl s b).mod _))

theorem BobBecomes.bellSet (h : BobBecomes s t b x) (hquiet : RingsQuietly s b) (bits : Half) :
    BobBecomes s (Machine.bellSet t b bits) b { x with bell := x.bell ||| bits } := by
  rw [bellSet_quiet (hquiet.after h)]
  exact h.mod _

theorem messagesAreSent : Rules.MessagesAreSent := by
  intro s p net d hc b x lk hmay
  refine ⟨?start, fun w hlo hhi hw => ?data⟩
  case start =>
    intro hw need other y asm fits
    have hdoes {g : State} {st : Status} {z : Bobbin} (hstart : txStart (rxDrop s nodeBob net) b p.schip p.cid d = (g, st))
        (hg : BobBecomes (rxDrop s nodeBob net) g b z) : ∃ t, exec (.txstart net) s = .next t ∧ BobDoes s t net p z st [] :=
      hw.does hc rfl rfl nofun (bobWriteWord_txStart (s := rxDrop s nodeBob net) hmay hstart) hg
    refine ⟨fun hfit => ?_, fun hlocked hno => ?_, fun hover k hpos hk hfit hleast => ?_⟩
    · exact hdoes (txStart_opens hfit) ((BobBecomes.refl _ b).set _)
    · have hmode : bOverwrite (bcfg s b) = false := by simpa [lk] using hlocked
      exact hdoes (txStart_noRoom hmode hno) ((BobBecomes.refl _ b).set _)
    · have hmode : bOverwrite (bcfg s b) = true := by simpa [lk] using hover
      have hdrops := txStart_overwrites (s := rxDrop s nodeBob net) (schip := p.schip) (cid := p.cid) hmode hk hfit hleast
      rw [decide_eq_true hpos, Bool.or_true] at hdrops
      exact hdoes hdrops ((BobBecomes.refl _ b).set _)
  case data =>
    refine ⟨fun hnone => ?_, fun a hasm hschip hcid => ⟨fun hmore => ?_, fun hlast hquiet => ?_⟩⟩
    · refine hw.txData hc ⟨hlo, hhi⟩ hmay (txWord_discards fun a ha => ?_) (.refl _ b)
      exact nomatch ha.symm.trans hnone
    · exact hw.txData hc ⟨hlo, hhi⟩ hmay (txWord_appends hasm ⟨hschip, hcid⟩ hmore) ((BobBecomes.refl _ b).set _)
    · have hquiet : RingsQuietly s b := hquiet
      exact hw.txData hc ⟨hlo, hhi⟩ hmay (txWord_commits hasm ⟨hschip, hcid⟩ hlast)
        ((((BobBecomes.refl _ b).set _).counts (bump_shape ..)).bellSet hquiet.rxDrop _)

/-! ## The owner's words -/

theorem bobOwns_owner (hchip : p.schip = s.chipnum) (hport : p.snode = portNode (bOwner (bcfg s b))) : bobOwns s b p = true := by
  simp [bobOwns, hchip, hport]

/-- R236: RXDONE frees the oldest message when it names its SEQ. -/
def msgFreed (x : Bobbin) (seq : BitVec 4) : Bobbin :=
  { x with msgs := match x.msgs with | m :: rest => if m.seq = seq then rest else m :: rest | [] => [] }

theorem BobBecomes.bobDone (h : BobBecomes s t b x) (seq : BitVec 4) : BobBecomes s (Machine.bobDone t b seq) b (msgFreed x seq) := by
  have hdone : BobBecomes s (Machine.bobDone t b seq) b _ := h.mod _
  have hfreed : (match x.msgs with | m :: rest => if m.seq = seq then { x with msgs := rest } else x | [] => x) = msgFreed x seq := by
    obtain ⟨msgs, _, _, _, _, _, _⟩ := x
    cases msgs with
    | nil => rfl
    | cons m rest => simp only [msgFreed]; split <;> rfl
  rwa [← hfreed]

/-- R243: what a flush leaves of a bobbin. -/
def flushed (x : Bobbin) : Bobbin := { x with msgs := [], asm := none, epoch := x.epoch + 1 }

theorem BobBecomes.bobFlush (h : BobBecomes s t b x) : BobBecomes s (Machine.bobFlush t b) b (flushed x) := h.mod _

/-- R243: a flush with its entry. -/
def flushEntered (s : State) (b : Nat) (o : Origin) : State :=
  jOrigin (bobFlush s b) o (tidBobbin 0 b) ((bobGet (bobFlush s b) b).epoch.setWidth 32)

theorem BobBecomes.flushEntered (h : BobBecomes s t b x) (o : Origin) : BobBecomes s (Machine.flushEntered t b o) b (flushed x) :=
  h.bobFlush.journal (jOrigin_shape ..)

theorem flushEntered_stages (o : Origin) (hnv : nvOn s = true) :
    StagesOne s (flushEntered s b o) (originKind o) (tidBobbin 0 b) (((bobGet s b).epoch + 1).setWidth 32) := by
  have hepoch : (bobGet (bobFlush s b) b).epoch = (bobGet s b).epoch + 1 := by rw [bobFlush, bobGet_bobMod_same]
  unfold flushEntered
  rw [hepoch]
  exact jOrigin_stages (s := bobFlush s b) _ _ hnv

theorem bobFlushWrite_flushes (hbit : d.getLsbD 0 = true) (hroom : jRoom s = true) :
    bobFlushWrite s b p d = .st (flushEntered s b (fabOrigin p)) .ok := by
  simp [bobFlushWrite, flushEntered, hbit, hroom]

/-- R237: a STAT write that names COLL clears it. -/
theorem collCleared (s : State) (b : Nat) (c : Bool) :
    BobBecomes s (if c then bobMod s b (fun x => { x with coll := false }) else s) b { bobGet s b with coll := (bobGet s b).coll && !c } := by
  cases c with
  | true => simpa using (BobBecomes.refl s b).mod (fun x => { x with coll := false })
  | false => simpa using BobBecomes.refl s b

theorem bobWriteWord_bell (s : State) (b : Nat) (p : Pkt) (d : Word) :
    bobWriteWord s b p 2 d = .st (bellSet s b (d.extractLsb' 0 16)) .ok := rfl

theorem ownerServesItsBobbin : Rules.OwnerServesItsBobbin := by
  intro s p net d hc b x
  refine ⟨fun hw hquiet => ?bell, fun hchip hport => ?owner⟩
  case bell =>
    have hquiet : RingsQuietly s b := hquiet
    exact hw.does hc rfl rfl nofun (bobWriteWord_bell ..) ((BobBecomes.refl _ b).bellSet hquiet.rxDrop _)
  case owner =>
    have hown : bobOwns (rxDrop s nodeBob net) b p = true := bobOwns_owner hchip hport
    refine ⟨fun hw => ?stat, fun hw => ?dbclr, fun hw => ?rxdone, fun hw hbit hnv hroom => ?flush⟩
    case stat => exact hw.does hc rfl rfl nofun (if_pos hown) (collCleared _ b _)
    case dbclr => exact hw.does hc rfl rfl nofun (if_pos hown) ((BobBecomes.refl _ b).mod _)
    case rxdone => exact hw.does hc rfl rfl nofun (if_pos hown) ((BobBecomes.refl _ b).bobDone _)
    case flush =>
      have hword : bobWriteWord (rxDrop s nodeBob net) b p 6 d = _ := (if_pos hown).trans (bobFlushWrite_flushes hbit hroom)
      obtain ⟨u, hcounts, htake, hdoes⟩ := hw.taken (sel := fun w => decide (w = 6)) hc rfl rfl nofun hword
        ((BobBecomes.refl _ b).flushEntered (fabOrigin p))
      have hstaged := (flushEntered_stages (s := rxDrop s nodeBob net) (fabOrigin p) hnv).counts hcounts
      exact ⟨_, congrArg Host.Outcome.next htake, hdoes, hstaged.from rfl rfl⟩

/-- Settles O48: each word's write is one change of the bobbin that BobBecomes follows to BOB's answer. -/
theorem messagesPassThroughBobbins : Obligations.MessagesPassThroughBobbins := ⟨messagesAreSent, ownerServesItsBobbin⟩

end Sys2Proof.Machine
end

section
/-!
The bobbins family: the host's side of a bobbin, and a bobbin's configuration (R228, R229, R243, R245, R249, R419).
-/
namespace Sys2Proof.Machine

variable {s t x g : State} {b : Nat} {y : Bobbin} {hd : Half} {o : Origin} {by_ : By} {raw old v : Word} {be : BitVec 4}

/-! ## The host's write -/

/-- R399: the host's write cycle is taken, and holds the bus. -/
def hostTaken (s : State) : State := hostMod (bump s .sys yHOSTACC) (fun y => { y with waitLow := true })

theorem hostTaken_open (s : State) : ∃ c e l, hostTaken s =
    { s with cnt := c, host := { s.host with waitLow := true }, sys := { s.sys with event := e, eventLate := l } } := by
  obtain ⟨c, e, l, hbump⟩ := (bump_shape s .sys yHOSTACC).open
  exact ⟨c, e, l, by rw [hostTaken, hbump]; rfl⟩

theorem hostWrite_done {ha : BitVec 6} (hwait : s.host.waitLow = false) (hgate : hostGate s ha.toNat = .serve)
    (h : hostPerform (hostTaken s) ha.toNat hd = .done g) : hostWrite s ha hd = hostEnd g := by
  unfold hostWrite
  rw [hwait, hgate]
  exact congrArg (hostResult (hostTaken s) ha hd) h

theorem BobBecomes.calm (h : BobBecomes s t b y) (hc : s.calm) : t.calm := by
  obtain ⟨-, -, honly⟩ := h
  exact calm_congr (by rw [honly]) (by rw [honly]) (by rw [honly]) (by rw [honly]) hc

/-- R399: a write cycle of the host that changes one bobbin ends at once. -/
theorem BobBecomes.hostEnds (h : BobBecomes (hostTaken s) g b y) (hwait : s.host.waitLow = false) : BobBecomes s (hostEnd g) b y := by
  obtain ⟨c, e, l, htaken⟩ := hostTaken_open s
  obtain ⟨hbob, hother, honly⟩ := h
  rw [htaken] at hother honly
  refine ⟨hbob, hother, ?_⟩
  have hhost : s.host = { s.host with waitLow := false } := by rw [← hwait]
  unfold BobsOnly at honly ⊢
  rw [hhost]
  conv_lhs => rw [honly]
  rfl

theorem hostRow_does {ha : BitVec 6} (hc : s.calm) (hwait : s.host.waitLow = false) (hgate : hostGate s ha.toNat = .serve)
    (h : hostPerform (hostTaken s) ha.toNat hd = .done g) (hg : BobBecomes (hostTaken s) g b y) :
    settle (hostWrite s ha hd) = hostEnd g ∧ BobBecomes s (hostEnd g) b y := by
  have hends := hg.hostEnds hwait
  exact ⟨(congrArg settle (hostWrite_done hwait hgate h)).trans (settle_calm (hends.calm hc)), hends⟩

theorem StagesOne.journalKept {k : BitVec 3} {tid : Half} {v : Word} (h : StagesOne s t k tid v) (hj : x.jrn = t.jrn) : StagesOne s x k tid v := by
  unfold StagesOne at h ⊢
  rwa [hj]

/-! ## BOBSTAT -/

/-- R419: the message that a BOBSTAT write frees, when it sets DONE. -/
def hostFreed (hd : Half) (y : Bobbin) : Bobbin := if hd.getLsbD 10 then msgFreed y (hd.extractLsb' 12 4) else y

theorem BobBecomes.hostFreed (h : BobBecomes s t b y) (hd : Half) :
    BobBecomes s (if hd.getLsbD 10 then Machine.bobDone t b (hd.extractLsb' 12 4) else t) b (Machine.hostFreed hd y) := by
  unfold Machine.hostFreed
  split
  · exact h.bobDone _
  · exact h

/-- R419: COLL as a BOBSTAT write leaves it. -/
def hostCleared (s : State) (b : Nat) (hd : Half) : State := if hd.getLsbD 6 then bobMod s b (fun x => { x with coll := false }) else s

theorem hostCleared_jrn (s : State) (b : Nat) (hd : Half) : (hostCleared s b hd).jrn = s.jrn ∧ (hostCleared s b hd).time = s.time := by
  unfold hostCleared
  split <;> exact ⟨rfl, rfl⟩

/-- R249, R419: a BOBSTAT write with FLUSH clears COLL, flushes with an entry, and frees what is then the oldest message. -/
theorem hostBobStatWrite_flushes (hb : bobSelN s = b) (hon : bobOn s b = true) (hroom : jRoom s = true) (h9 : hd.getLsbD 9 = true) :
    hostBobStatWrite s hd = .done (
      let u := flushEntered (hostCleared s b hd) b .host
      if hd.getLsbD 10 then bobDone u b (hd.extractLsb' 12 4) else u) := by
  subst hb
  simp only [hostBobStatWrite, hon, hroom, h9, Bool.true_eq_false, Bool.not_true, Bool.and_false, Bool.false_eq_true, if_false, if_true]
  rfl

/-- R249, R419: a BOBSTAT write without FLUSH. -/
theorem hostBobStatWrite_keeps (hb : bobSelN s = b) (hon : bobOn s b = true) (h9 : hd.getLsbD 9 = false) :
    hostBobStatWrite s hd = .done (
      let u := hostCleared s b hd
      if hd.getLsbD 10 then bobDone u b (hd.extractLsb' 12 4) else u) := by
  subst hb
  simp only [hostBobStatWrite, hon, h9, Bool.true_eq_false, Bool.false_and, Bool.false_eq_true, if_false]
  rfl

/-! ## DOORBELL -/

theorem bellSet_jrn (hquiet : RingsQuietly s b) (bits : Half) : (bellSet s b bits).jrn = s.jrn := by
  rw [bellSet_quiet hquiet]
  rfl

/-- What the taking of the write leaves of the state that a row at a bobbin reads. -/
theorem hostTaken_facts (s : State) : (∀ c, bobGet (hostTaken s) c = bobGet s c) ∧ (∀ c, bcfg (hostTaken s) c = bcfg s c) ∧
    (∀ k, domOn (hostTaken s) k = domOn s k) ∧ jRoom (hostTaken s) = jRoom s ∧ bobSelN (hostTaken s) = bobSelN s ∧
    (hostTaken s).host.bobclr = s.host.bobclr ∧ (hostTaken s).jrn = s.jrn ∧ (hostTaken s).time = s.time := by
  obtain ⟨c, e, l, htaken⟩ := hostTaken_open s
  rw [htaken]
  exact ⟨fun _ => rfl, fun _ => rfl, fun _ => rfl, rfl, rfl, rfl, rfl, rfl⟩

theorem hostTaken_calm (hc : s.calm) : (hostTaken s).calm := by
  obtain ⟨c, e, l, htaken⟩ := hostTaken_open s
  rw [htaken]
  exact hc

/-- R245: the DOORBELL write at an enabled bobbin. -/
theorem hostDoorbellWrite_rings (hc : s.calm) (hb : bobSelN s = b) (hon : bobOn s b = true) (hquiet : s.host.bobclr = true ∨ RingsQuietly s b) :
    let z : Bobbin := { bobGet s b with bell := if s.host.bobclr then (bobGet s b).bell &&& ~~~ hd else (bobGet s b).bell ||| hd }
    BobBecomes s (hostDoorbellWrite s hd) b z ∧ (hostDoorbellWrite s hd).jrn = s.jrn := by
  subst hb
  cases hclr : s.host.bobclr with
  | true =>
    have hwrite : hostDoorbellWrite s hd = bellClear s (bobSelN s) hd := by simp [hostDoorbellWrite, hon, hclr]
    rw [hwrite]
    exact ⟨(BobBecomes.refl s _).mod _, rfl⟩
  | false =>
    have hring : RingsQuietly s (bobSelN s) := hquiet.resolve_left (by simp [hclr])
    have hbell : BobBecomes s (bellSet s (bobSelN s) hd) _ _ := (BobBecomes.refl s _).bellSet hring hd
    have hwrite : hostDoorbellWrite s hd = bellSet s (bobSelN s) hd := by
      simp [hostDoorbellWrite, hon, hclr, upkeep_calm (hbell.calm hc)]
    rw [hwrite]
    exact ⟨hbell, bellSet_jrn hring hd⟩

theorem hostEnd_freed_jrn (s : State) (hd : Half) (b : Nat) :
    (hostEnd (if hd.getLsbD 10 then bobDone s b (hd.extractLsb' 12 4) else s)).jrn = s.jrn := by
  split <;> rfl

theorem hostServesBobbins : Rules.HostServesBobbins := by
  intro s hd hc hwait b x y done Does henabled
  obtain ⟨hbob, hcfg, hdom, hjroom, hsel, hclr, hjrn, htime⟩ := hostTaken_facts s
  have hselb : bobSelN (hostTaken s) = b := hsel
  have hon : bobOn (hostTaken s) b = true := by unfold bobOn; rw [hcfg]; exact henabled
  have hcleared : BobBecomes (hostTaken s) (hostCleared (hostTaken s) b hd) b y := by
    have := collCleared (hostTaken s) b (hd.getLsbD 6)
    rwa [hbob] at this
  refine ⟨fun hgate => ⟨fun h9 hnv hroom => ?flush, fun h9 h10 => ?done⟩, fun hgate hquiet => ?bell⟩
  case flush =>
    have hwrite := hostBobStatWrite_flushes (hd := hd) hselb hon (hjroom.trans hroom) h9
    obtain ⟨hrow, hdoes⟩ := hostRow_does (ha := 0x2E) hc hwait hgate hwrite ((hcleared.flushEntered .host).hostFreed hd)
    have hstaged : StagesOne (hostCleared (hostTaken s) b hd) _ kHOST (tidBobbin 0 b) (((bobGet (hostCleared (hostTaken s) b hd) b).epoch + 1).setWidth 32) :=
      flushEntered_stages .host ((hcleared.domOn 67).trans ((hdom 67).trans hnv))
    obtain ⟨hy, -, -⟩ := hcleared
    obtain ⟨hcjrn, hctime⟩ := hostCleared_jrn (hostTaken s) b hd
    rw [hy] at hstaged
    refine ⟨_, congrArg Host.Outcome.next ((if_pos h9).trans hrow), hdoes, ?_⟩
    exact (hstaged.from (by rw [hcjrn, hjrn]) (by rw [hctime, htime])).journalKept (hostEnd_freed_jrn ..)
  case done =>
    have hwrite := hostBobStatWrite_keeps (hd := hd) hselb hon h9
    obtain ⟨hrow, hdoes⟩ := hostRow_does (ha := 0x2E) hc hwait hgate hwrite (hcleared.hostFreed hd)
    exact ⟨_, congrArg Host.Outcome.next ((if_pos h10).trans hrow), hdoes, (hostEnd_freed_jrn ..).trans ((hostCleared_jrn ..).1.trans hjrn)⟩
  case bell =>
    have hring : (hostTaken s).host.bobclr = true ∨ RingsQuietly (hostTaken s) b := by
      unfold RingsQuietly
      rw [hclr, hcfg, hdom]
      exact hquiet
    have hrings := hostDoorbellWrite_rings (hd := hd) (hostTaken_calm hc) hselb hon hring
    rw [hclr, hbob] at hrings
    obtain ⟨hbell, hkept⟩ := hrings
    obtain ⟨hrow, hdoes⟩ := hostRow_does (ha := 0x2F) hc hwait hgate rfl hbell
    exact ⟨_, congrArg Host.Outcome.next hrow, hdoes, hkept.trans hjrn⟩

/-! ## BCFG -/

/-- R414, R420: BCFG of a bobbin is in the map, kept in the retention store, and written by its one field. -/
theorem bcfg_facts (b : Fin 64) : bankHas 0x87 b = true ∧ plainWd (.bank 0x87 b) = true ∧ bankFields 0x87 b = [fRW 0xFFFF01FF rMAP] ∧
    (∀ x o, bankWord x o 0x87 b = bcfg x b) ∧ (∀ x v, bankPut x 0x87 b v = cfgSet x 0x87 b v) ∧
    (∀ x old v, reservedCode x (.bank 0x87 b) old v = false) ∧ (∀ x, wordAsleep x (.bank 0x87 b) = false) := by
  have hb : b.val < 64 := b.isLt
  have hct : counterAt 0x87 b = none := by simp [counterAt]
  refine ⟨by simp [bankHas, hb], by simp [plainWd, isBasted], ?_, fun x o => ?_, fun x v => ?_, fun x old v => ?_, fun x => ?_⟩
  · simp [bankFields, hct]
  · simp [bankWord, hct, bcfg]
  · simp [bankPut, hct]
  · simp [reservedCode, bankReserved, hct]
  · simp [wordAsleep]

/-- R9: a write of any lane of BCFG is journaled, changed or not, once its right is held. -/
theorem bcfg_journals (hbe : be ≠ 0) (hM : holdsRight x o rMAP = true) : journals x o [fRW 0xFFFF01FF rMAP] old v be = true := by
  have hlane : ∀ b : BitVec 4, b ≠ 0 → (0xFFFF01FF : Word) &&& laneMask b ≠ 0 := by decide
  have hright : hasRight x o (fRW 0xFFFF01FF rMAP) = true := hM
  have hfield : decide ((fRW 0xFFFF01FF rMAP).mask &&& laneMask be ≠ 0) = true := decide_eq_true (hlane be hbe)
  simp only [journals, List.any_cons, List.any_nil, Bool.or_false, hright, Bool.or_true, Bool.and_true]
  exact hfield

/-- R228, R229: BCFG set to v, after the flush that the change asks for. -/
def bcfgChanged (s : State) (b : Nat) (v : Word) : State := cfgSet (bcfgFlush s b (bcfg s b) v) 0x87 b v

theorem bcfgChanged_cases (s : State) (b : Nat) (v : Word) :
    bcfgChanged s b v = if bOwner v ≠ bOwner (bcfg s b) ∨ bOverwrite v ≠ bOverwrite (bcfg s b) ∨ (bEnable (bcfg s b) = true ∧ bEnable v = false)
      then cfgSet (bobFlush s b) 0x87 b v else cfgSet s 0x87 b v := by
  unfold bcfgChanged bcfgFlush
  simp only [bcfg_same]
  split <;> rfl

theorem bcfgChanged_bcfg (s : State) (b : Nat) (v : Word) : bcfg (bcfgChanged s b v) b = v := cfgGet_cfgSet_same _ _ _ _

theorem bcfgChanged_calm (hc : s.calm) : (bcfgChanged s b v).calm := by
  rw [bcfgChanged_cases]
  split <;> exact hc

theorem bcfgChanged_keeps (s : State) (b : Nat) (v : Word) : (bcfgChanged s b v).jrn = s.jrn ∧ (bcfgChanged s b v).time.ts = s.time.ts ∧
    ∀ k, domGet (bcfgChanged s b v) k = domGet s k := by
  rw [bcfgChanged_cases]
  split <;> exact ⟨rfl, rfl, fun _ => rfl⟩

theorem bcfgChanged_domOn (s : State) (b : Nat) (v : Word) (k : Nat) : domOn (bcfgChanged s b v) k = domOn s k := by
  obtain ⟨-, -, hdom⟩ := bcfgChanged_keeps s b v
  unfold domOn
  rw [hdom]

theorem AccessOnly.bcfg {e : State} (h : AccessOnly e t) (c : Nat) : Machine.bcfg t c = Machine.bcfg e c := by unfold Machine.bcfg cfgGet; rw [h]

theorem AccessOnly.domOn {e : State} (h : AccessOnly e t) (k : Nat) : Machine.domOn t k = Machine.domOn e k := by unfold Machine.domOn domGet; rw [h]

theorem AccessOnly.bobGet {e : State} (h : AccessOnly e t) (c : Nat) : Machine.bobGet t c = Machine.bobGet e c := by unfold Machine.bobGet; rw [h]

/-- R228, R229: the bobbins after the change. -/
theorem bcfgChanged_bobGet (s : State) (b : Nat) (v : Word) :
    bobGet (bcfgChanged s b v) b = (if bOwner v ≠ bOwner (bcfg s b) ∨ bOverwrite v ≠ bOverwrite (bcfg s b) ∨
      (bEnable (bcfg s b) = true ∧ bEnable v = false) then flushed (bobGet s b) else bobGet s b) ∧
    (∀ c, c ≠ b → bobGet (bcfgChanged s b v) c = bobGet s c) ∧
    bcfgChanged s b v = { cfgSet s 0x87 b v with bobs := (bcfgChanged s b v).bobs } := by
  rw [bcfgChanged_cases]
  split
  · obtain ⟨hflushed, hother, -⟩ := (BobBecomes.refl s b).bobFlush
    exact ⟨hflushed, hother, rfl⟩
  · exact ⟨rfl, fun _ _ => rfl, rfl⟩

/-- R228, R229: the change, its entry with the whole new word, then the owner's doorbell. -/
theorem wordApply_bcfg {b : Fin 64} (hx : Taken s x) : wordApply x o (.bank 0x87 b) (bcfg s b) v true =
    bellWake (jOrigin (overlay x (bcfgChanged s b v)) o (tidBank 0x87 b) v) b (bellPending x b) := by
  obtain ⟨-, -, -, hread, hput, -, -⟩ := bcfg_facts b
  have hset : bankPut (bcfgFlush x b (bcfg s b) v) 0x87 b v = overlay x (bcfgChanged s b v) := by
    rw [hput, hx.eq, bcfgChanged, bcfgFlush, bcfgFlush]
    split <;> rfl
  have hval : bankWord (overlay x (bcfgChanged s b v)) o 0x87 b = v := (hread _ _).trans (bcfgChanged_bcfg s b v)
  have hshape : wordApply x o (.bank 0x87 b) (bcfg s b) v true =
      (let u := bankPut (bcfgFlush x b (bcfg s b) v) 0x87 b v
       bellWake (jOrigin u o (tidBank 0x87 b) (bankWord u o 0x87 b)) b (bellPending x b)) := rfl
  rw [hshape, hset]
  exact congrArg (fun w => bellWake (jOrigin (overlay x (bcfgChanged s b v)) o (tidBank 0x87 b) w) b (bellPending x b)) hval

/-- R246: a doorbell wakes nobody under v. -/
theorem bcfg_apply {b : Fin 64} (hx : Taken s x) (hn : nvOn s = true) (hquiet : bWake v = false ∨ domOn s (bOwner v) = true) :
    JournalOnly (overlay x (bcfgChanged s b v)) (wordApply x (askOrigin s by_) (.bank 0x87 b) (bcfg s b) v true) ∧
      Staged s (originKind (askOrigin s by_)) (tidBank 0x87 b) v (wordApply x (askOrigin s by_) (.bank 0x87 b) (bcfg s b) v true).jrn := by
  obtain ⟨hjrn, htime, hdom⟩ := bcfgChanged_keeps s b v
  obtain ⟨hj, hst⟩ := entry_row (x := x) (by_ := by_) (e := bcfgChanged s b v) hn (tidBank 0x87 b) v rfl hjrn (congrArg _ (hdom 67)) htime
  have hring : RingsQuietly (jOrigin (overlay x (bcfgChanged s b v)) (askOrigin s by_) (tidBank 0x87 b) v) b := by
    unfold RingsQuietly
    rw [hj.access.bcfg, hj.access.domOn, bcfgChanged_bcfg, bcfgChanged_domOn]
    exact hquiet
  rw [wordApply_bcfg hx, bellWake_idle _ hring]
  exact ⟨hj, hst⟩

theorem bcfgIsWritten : Rules.BcfgIsWritten := by
  intro s b by_ raw v be hc hn hroom hv hw hM hquiet
  refine byWrite_next ?_
  obtain ⟨hhas, hplain, hfields, hread, -, hres, hup⟩ := bcfg_facts b
  have hfs : fieldsOf (.bank 0x87 b) = [fRW 0xFFFF01FF rMAP] := hfields
  have hright : ∀ f ∈ fieldsOf (.bank 0x87 b), ∀ k, f.right = some k → holdsRight s (askOrigin s by_) k = true := by
    intro f hf k hk
    rw [hfs, List.mem_singleton] at hf
    subst hf; cases hk; exact hM
  have hjournals : ∀ x, Taken s x → journals x (askOrigin s by_) (fieldsOf (.bank 0x87 b)) (bcfg s b) v be = true := by
    intro x hx
    rw [hfs]
    exact bcfg_journals hw.be_ne (by rw [hx.holdsRight]; exact hM)
  obtain ⟨t, hrow, hacc, hends, hst⟩ := word_row (sel := fun _ wd _ => decide (wd = .bank 0x87 b)) (old := bcfg s b) (v := v) (j := true)
    (e := bcfgChanged s b v) (Q := Staged s (originKind (askOrigin s by_)) (tidBank 0x87 b) v)
    hw (by simp) ⟨hhas, rfl⟩ hplain (by rw [hfs]; rfl) hv.symm
    (fun x hx => (hread x (askOrigin s by_)).trans (hx.cfgGet 0x87 b)) (fun x _ => hres x _ _) hright (fun x _ => hup x) hjournals (.inr rfl) (fun _ => hroom)
    (fun x hx => wordGo_done nofun nofun fun _ => by rw [hx.jRoom]; exact hroom)
    (fun x hx => bcfg_apply hx hn hquiet) (bcfgChanged_calm hc) (bcfgChanged_domOn s b v 66).trans
  obtain ⟨hbob, hother, honly⟩ := bcfgChanged_bobGet s b v
  have hbobs : t.bobs = (bcfgChanged s b v).bobs := by rw [hacc]
  refine ⟨t, hrow, ?_, hends, (hacc.bobGet b).trans hbob, fun c hc => (hacc.bobGet c).trans (hother c hc), hst⟩
  rwa [hbobs, ← honly]

/-- Settles O49: a BOBSTAT or DOORBELL write is one change of the bobbin that BobBecomes follows to the end of the write; BCFG goes by the rules of
its word. -/
theorem bobbinsAreConfiguredAndServed : Obligations.BobbinsAreConfiguredAndServed := ⟨hostServesBobbins, bcfgIsWritten⟩

end Sys2Proof.Machine
end

section
/-!
The bobbins family: the fence of SYS, and the notices of resets (R240, R261, R418, R435).
-/
namespace Sys2Proof.Machine

variable {s t x g : State} {b i : Nat} {by_ : By} {raw : Word} {be : BitVec 4} {net : Net} {c : Byte} {n : Nat}

/-! ## FENCE -/

/-- R420, R421: the taking of a fabric request at SYS. -/
theorem fabric_taking {ha : BitVec 6} (s : State) (net : Net) : Taking s (bump (rxDrop s nodeSys net) .sys yFABACC) ha (.fabric net) := by
  obtain ⟨_, _, _, hbump⟩ := (bump_shape (rxDrop s nodeSys net) .sys yFABACC).open
  rw [hbump]
  exact ⟨⟨rfl, rfl⟩, rfl⟩

/-- R411: the high half of a WINDATA write, as the host side takes it. -/
def windowTaken (s : State) : State :=
  winNext (hostMod (hostMod (bump s .sys yHOSTACC) (fun y => { y with waitLow := true })) (fun y => { y with phase := false }))

theorem window_taking (s : State) (hd : Half) : Taking s (windowTaken s) 0x0A (.host hd) := by
  obtain ⟨⟨hframe, -⟩, hmesh, hhost⟩ := window_taken s
  exact ⟨⟨hmesh, (hhost hd true).2⟩, hframe⟩

/-- A write of a bank word that waits for an operation f of SYS: it is taken, and what f leaves stands. -/
theorem byWrite_later {f : State → State} {sel : Origin → Wd → Word → Bool} (hw : Writes s 0x0A (.bank b i) raw be by_)
    (hsel : sel (askOrigin s by_) (.bank b i) raw = true) (hb : bankHas b i = true)
    (hlater : ∀ x, Taking s x 0x0A by_ → writeWord x (askOrigin s by_) (.bank b i) raw be (askReq s by_) = .later (f x)) :
    ∃ u, Taking s u 0x0A by_ ∧ byWrite s 0x0A sel by_ = settle (f u) := by
  cases by_ with
  | host hd =>
    obtain ⟨hwait, hgate, hnames, rfl⟩ := hw
    have htaking := window_taking s hd
    exact ⟨_, htaking, windataWrite_later hwait hgate hnames hsel hb (hlater _ htaking)⟩
  | fabric net =>
    obtain ⟨-, hon, p, u, hrx, -, hcheck, hop, hdata, rfl, rfl, hbe, hflat⟩ := hw
    have horigin : askOrigin s (.fabric net) = fabOrigin p := by simp only [askOrigin, hrx]
    have hreq : askReq s (.fabric net) = some (p, 0) := by simp only [askReq, hrx, Option.map_some]
    rw [horigin] at hsel
    rw [horigin, hreq] at hlater
    have htaking := fabric_taking (ha := 0x0A) s net
    exact ⟨_, htaking, fabricWrite_later hon hrx hcheck hop hdata hbe hflat hsel nofun (hlater _ htaking)⟩

theorem AgentSends.calm {dchip : Byte} {dnode : BitVec 7} {op : Op} {addr : BitVec 30} {data : List DataUnit} {use : TagUse}
    (h : AgentSends s t dchip dnode op addr data use) (hc : s.calm) : t.calm := by
  obtain ⟨_, _, -, -, -, -, hframe⟩ := h
  exact calm_congr (by rw [hframe]) (by rw [hframe]) (by rw [hframe]) (by rw [hframe]) hc

/-- R418: a write of index 0x10 marks the fence busy. -/
def fenceMarked (s : State) : State := sysMod s (fun y => { y with fenceBusy := true })

/-- R418: the fence that a write of index 0x10 sends. -/
def fenceSent (s : State) (v : Word) (req : Option (Pkt × Nat)) : State :=
  agentAsk (fenceMarked s) (v.extractLsb' 8 8) (v.extractLsb' 0 7) .fence 0 [] (.fence req)

theorem fenceCmd_idle {v : Word} {req : Option (Pkt × Nat)} (hidle : s.sys.fenceBusy = false) : fenceCmd s v req = .later (fenceSent s v req) :=
  if_neg (by simp [hidle])

theorem fenceIsSent : Rules.FenceIsSent := by
  intro s by_ raw v be hc hw hon hidle hv chip node htable hqueued hfree hhazard
  obtain ⟨u, htaking, hrow⟩ := byWrite_later (sel := fun _ wd _ => decide (wd = .bank 0x88 0x10)) (f := fun x => fenceSent x v (askReq s by_))
    hw (by simp) rfl fun x hx => by
      obtain ⟨-, hframe⟩ := hx
      have hbusy : x.sys.fenceBusy = false := by rw [hframe]; exact hidle
      rw [fence_go, ← hv]
      exact fenceCmd_idle hbusy
  obtain ⟨-, hframe⟩ := id htaking
  have hsends : AgentSends (fenceMarked u) (fenceSent u v (askReq s by_)) chip node .fence 0 [] (.fence (askReq s by_)) := by
    rw [hframe]
    exact agentAsk_spec rfl htable hqueued hfree hhazard hon
  have hcalm : (fenceMarked u).calm := by
    rw [hframe]
    exact hc
  exact ⟨u, _, congrArg Host.Outcome.next (hrow.trans (settle_calm (hsends.calm hcalm))), htaking, hsends⟩

/-! ## Notices -/

theorem noticesAreSentAgain : Rules.NoticesAreSentAgain := by
  intro s c n hon hnotices hqueued htable hnone hfree hhazard
  have hexec : exec .ringManagementResend s = .next (noticeSend s c n) := by
    have hout : (s.sys.agents.tags.any (fun e => decide (e.2.st = .held) && decide (e.2.use = .notice c n))) = false := by
      simpa using hnone
    show execRingManagementResend s = _
    simp [execRingManagementResend, hon, hnotices, hqueued, hout]
  exact ⟨_, hexec, agentAsk_spec rfl htable hqueued hfree hhazard hon⟩

theorem Taken.ringSource (hx : Taken s x) (c : Byte) : Machine.ringSource x c = Machine.ringSource s c := by
  unfold Machine.ringSource inTable spliced
  rw [hx.ring, hx.chipnum]

theorem Taken.clientsOf (hx : Taken s x) (c : Byte) (n : Nat) : Machine.clientsOf x c n = Machine.clientsOf s c n := by
  unfold Machine.clientsOf
  simp only [hx.cfgGet]

/-- R240, R261: a port of chip c whose clients hold no vote here: only its locks are released. -/
theorem portGone_locks (hvotes : ∀ d, d < 64 → ∀ v ∈ (domGet s d).votes, v ∉ clientsOf s c n) :
    portGone s c n = locksFree s (fun k => decide (k.schip = c) && decide (k.snode = portNode n)) := by
  have hdrop : votesDrop s (fun v => (clientsOf s c n).contains v) = s := votesDrop_none fun d hd v hv => by simpa using hvotes d hd v hv
  unfold portGone
  simp only [hdrop]

/-- R242: the bobbins of s after the locks of port n of chip c are released. -/
def LocksGone (s t : State) (c : Byte) (n : Nat) : Prop :=
  (∀ b, b < 64 → bobGet t b =
    let x := bobGet s b
    if x.lock.any (fun l => decide (l.schip = c) && decide (l.snode = portNode n)) then
      (if bOverwrite (bcfg s b) = false ∧ x.asm ≠ none then { x with lock := none, asm := none, coll := true } else { x with lock := none })
    else x) ∧
  (∀ b, 64 ≤ b → bobGet t b = bobGet s b) ∧ AccessOnly { s with bobs := t.bobs } t

theorem AccessOnly.setBobs (h : AccessOnly s x) (ht : t = { x with bobs := t.bobs }) : AccessOnly { s with bobs := t.bobs } t := by
  generalize t.bobs = bs at ht
  subst ht
  exact congrArg (fun y : State => { y with bobs := bs }) h

theorem Taken.locksGone (hx : Taken s x) : LocksGone s (locksFree x (fun k => decide (k.schip = c) && decide (k.snode = portNode n))) c n := by
  obtain ⟨hlow, hhigh, honly⟩ := locksFree_spec x (fun k => decide (k.schip = c) && decide (k.snode = portNode n))
  refine ⟨fun b hb => ?_, fun b hb => (hhigh b hb).trans (hx.bobGet b), hx.accessOnly.setBobs honly⟩
  have hcfg : bcfg x b = bcfg s b := hx.cfgGet 0x87 b
  rw [hlow b hb, hx.bobGet, hcfg]

theorem locksFree_side (s : State) (pick : Lock → Bool) : (locksFree s pick).host = s.host ∧ NodesSame s (locksFree s pick) := by
  obtain ⟨-, -, honly⟩ := locksFree_spec s pick
  generalize locksFree s pick = t at honly ⊢
  have hmesh : t.mesh = s.mesh := by rw [honly]
  exact ⟨by rw [honly], by rw [hmesh], fun k m => by unfold nodeGet; rw [hmesh]⟩

/-- R240, R261: SYS has taken the notice of a port whose clients hold no vote here. -/
theorem Taken.portGone (hx : Taken s x) (hvotes : ∀ d, d < 64 → ∀ v ∈ (Machine.domGet s d).votes, v ∉ Machine.clientsOf s c n) :
    LocksGone s (Machine.portGone x c n) c n ∧ (Machine.portGone x c n).host = x.host ∧ NodesSame x (Machine.portGone x c n) := by
  have hgone := portGone_locks (s := x) (c := c) (n := n) fun d hd v hv => by
    rw [hx.domGet] at hv
    rw [hx.clientsOf]
    exact hvotes d hd v hv
  rw [hgone]
  exact ⟨hx.locksGone, locksFree_side ..⟩

theorem LocksGone.side (h : LocksGone s t c n) (k : HostIf) (m : Mesh) : LocksGone s { t with host := k, mesh := m } c n := by
  obtain ⟨hlow, hhigh, honly⟩ := h
  exact ⟨hlow, hhigh, honly.jrn_free k m⟩

theorem LocksGone.calm (h : LocksGone s t c n) (hc : s.calm) : t.calm := by
  obtain ⟨-, -, honly⟩ := h
  exact honly.calm (e := { s with bobs := t.bobs }) hc

theorem LocksGone.sysOn (h : LocksGone s t c n) : Machine.sysOn t = Machine.sysOn s := by
  obtain ⟨-, -, honly⟩ := h
  exact honly.sysOn

/-- R240: a notice from SYS of another chip of the table. -/
theorem portrst_word {req : Option (Pkt × Nat)} {cid : Byte} (hsource : ringSource s c = true) :
    writeWord s (.fab c nodeSys cid) .portRst raw be req = .done (upkeep (portGone s c (fieldNat raw 0 6))) :=
  if_pos ⟨rfl, hsource⟩

theorem portResetNoticeIsTaken : Rules.PortResetNoticeIsTaken := by
  intro s net raw be chip cid hc hw horigin hsource n hvotes
  obtain ⟨t, hrow, hends, hlow, hhigh, honly⟩ := fab_row (ha := 0) (P := fun g => LocksGone s g chip n) (sel := fun _ wd _ => decide (wd = .portRst))
    hw (by simp) nofun
    (fun x p hx _ _ => by
      obtain ⟨hlocks, hhost, hnodes⟩ := hx.portGone hvotes
      have hword := portrst_word (s := x) (raw := raw) (be := be) (req := some (p, 0)) (cid := cid) ((hx.ringSource chip).trans hsource)
      rw [upkeep_calm (hlocks.calm hc)] at hword
      rw [horigin]
      exact ⟨portGone x chip n, .inl hword, hhost, hnodes, hlocks⟩)
    (fun g h m hg => hg.side h m) (fun g hg => settle_calm (hg.calm hc)) (fun g hg hon => hg.sysOn.trans hon)
  exact ⟨t, congrArg Host.Outcome.next hrow, hends, hlow, hhigh, honly⟩

theorem ringResetNoticeStarts : Rules.RingResetNoticeStarts := by
  intro s chip hon hsource hfrom
  have hmay : (ringSource s chip && (isMaster s || decide (chip = 0))) = true := by simpa [hsource] using hfrom
  show execRingResetNotice chip s = _
  rw [execRingResetNotice, hon, if_neg (by simp), if_pos hmay]
  rfl

/-- Settles O51: a FENCE and a notice are requests that agentAsk drives; a port-reset notice releases locks, a ring-reset notice marks BUSY. -/
theorem sysSendsFencesAndNotices : Obligations.SysSendsFencesAndNotices :=
  ⟨fenceIsSent, noticesAreSentAgain, portResetNoticeIsTaken, ringResetNoticeStarts⟩

end Sys2Proof.Machine
end

section
/-!
The power domains family: R253 is evaluated again when a timer of a domain ends, and when DOMCMD is written (R263, R265, R274, R431).
-/
namespace Sys2Proof.Machine

variable {s t u x e z : State} {d : Nat} {o : Origin} {by_ : By} {raw old v w : Word} {be : BitVec 4} {kind : BitVec 3} {tid : Half}

/-! ## Looking at a domain again -/

/-- R253, R254: in a calm chip nothing follows the evaluation of a domain but the domain's own change. -/
theorem evalDom_settles (hc : s.calm) (hr : hwRoom s = true) (hf : (domGet s d).st = .on → wantedOn s d = false → fenceEmpty s d) :
    ∃ t, (.next (settle (evalDom s d)) : Res) = .next t ∧ DomBecomes s t d (domNext s d) := by
  have hnext := evalDom_any hc hr d hf
  exact ⟨evalDom s d, congrArg Host.Outcome.next (settle_calm (hnext.calm hc)), hnext⟩

theorem domainTimersExpire : Rules.DomainTimersExpire := by
  intro s d hc hr x
  have hroom : ∀ y, hwRoom (domSet s d.val y) = true := fun y => (hwRoom_domSet d.val y (by omega)).trans hr
  refine ⟨fun hhold hon => ?hold, fun hoff => ?off, fun hquiet => ?quiet⟩
  case hold =>
    intro u hf
    obtain ⟨t, ht, hnext⟩ := evalDom_settles (s := u) hc (hroom _) fun _ => hf
    refine ⟨t, ?_, hnext⟩
    show (if x.hold && decide (x.st = .on) then _ else _ : Res) = _
    rw [hhold, hon]
    exact ht
  case off =>
    intro u hf
    obtain ⟨t, ht, hnext⟩ := evalDom_settles (s := u) hc (hroom _) fun h => hf (by rwa [domGet_domSet_same] at h)
    exact ⟨t, (if_pos hoff).trans ht, hnext⟩
  case quiet =>
    intro u hf
    have hfence : fenceEmpty s d.val → fenceEmpty u d.val := by
      unfold fenceEmpty
      rw [portGet_portSet_same]
      exact id
    obtain ⟨t, ht, hnext⟩ := evalDom_settles (s := u) hc hr fun hon hw => hfence (hf hon hw)
    exact ⟨t, (if_pos hquiet).trans ht, hnext⟩

/-! ## A domain whose words changed -/

/-- R252: MESH, SYS and NV follow the chip power state alone. -/
theorem evalDom_core (h : d = 64 ∨ 66 ≤ d) : evalDom s d = s ∧ domNext s d = domGet s d := by
  unfold evalDom domNext
  exact ⟨if_pos h, if_pos h⟩

theorem DomChanged.calm (h : DomChanged s e t d kind tid w) (hc : e.calm) : t.calm := by
  obtain ⟨u, -, honly, hnext⟩ := h
  exact hnext.calm (honly.calm hc)

theorem DomChanged.sysOn (h : DomChanged s e t d kind tid w) : Machine.sysOn t = Machine.sysOn e := by
  obtain ⟨u, -, honly, hnext, hother, -⟩ := h
  have hsame : domGet t 66 = domGet u 66 := by
    by_cases h66 : d = 66
    · subst h66; exact hnext.trans (evalDom_core (.inr (by decide))).2
    · exact hother 66 (Ne.symm h66)
  rw [← honly.sysOn]
  unfold Machine.sysOn domOn
  rw [hsame]

theorem Staged.stages (h : Staged s kind tid w t.jrn) : StagesOne s t kind tid w := h

/-- R253, R254: after the entry z of a change e of a domain's words, the domain is looked at again. -/
theorem domChanged_evalDom (hj : JournalOnly (overlay x e) z) (hst : Staged s kind tid w z.jrn) (h67 : (domGet e 67).st = (domGet s 67).st)
    (hn : nvOn s = true) (hl : s.jrn.staging.length < 71) (hc : e.calm)
    (hf : d < 66 → (domGet e d).st = .on → wantedOn e d = false → fenceEmpty e d) :
    (evalDom z d).host = x.host ∧ (evalDom z d).mesh = x.mesh ∧ DomChanged s e (evalDom z d) d kind tid w := by
  by_cases hd : d < 66
  · have hlen : z.jrn.staging.length < 72 := by
      obtain ⟨y, hy, -⟩ := hst
      rw [hy, List.length_append, List.length_singleton]
      omega
    obtain ⟨honly, hhost, hmesh, -, -, hnext⟩ := dom_entry hj h67 hn hlen hc hd (hf hd)
    exact ⟨hhost, hmesh, z, hst.stages, honly, hnext⟩
  · obtain ⟨hsame, hkept⟩ := evalDom_core (s := z) (d := d) (.inr (by omega))
    obtain ⟨hhost, hmesh⟩ := hj.overlay_side
    rw [hsame]
    exact ⟨hhost, hmesh, z, hst.stages, hj.access, by rw [hkept]; exact .rfl' d⟩

/-! ## DOMCMD -/

/-- R9: a write of the low lane of a word of one POWER field is journaled, changed or not, once its right is held. -/
theorem power_journals (hbe : be.getLsbD 0 = true) (hR : holdsRight x o rPOWER = true) : journals x o [fRW 7 rPOWER] old v be = true := by
  have hlane : ∀ b : BitVec 4, b.getLsbD 0 = true → (7 : Word) &&& laneMask b ≠ 0 := by decide
  have hright : hasRight x o (fRW 7 rPOWER) = true := hR
  have hfield : decide ((fRW 7 rPOWER).mask &&& laneMask be ≠ 0) = true := decide_eq_true (hlane be hbe)
  simp only [journals, List.any_cons, List.any_nil, Bool.or_false, hright, Bool.or_true, Bool.and_true]
  exact hfield

theorem power_rights (hR : holdsRight s o rPOWER = true) : ∀ f ∈ [fRW 7 rPOWER], ∀ k, f.right = some k → holdsRight s o k = true := by
  intro f hf k hk
  rw [List.mem_singleton] at hf
  subst hf; cases hk; exact hR

/-- R265: the change of DOMCMD, its entry with the whole new word, and R253 again. -/
theorem wordApply_domcmd (hx : Taken s x) (he : domSet s d (domcmdPut d (domGet s d) v) = e) : wordApply x o (.domcmd d) old v true =
    upkeep (evalDom (jOrigin (overlay x e) o (tidDom 0 d) ((domcmdWord e d).setWidth 32)) d) := by
  have hput : domMod x d (fun y => domcmdPut d y v) = overlay x e := by
    rw [← he, hx.eq]; rfl
  show upkeep (evalDom (jOrigin (domMod x d (fun y => domcmdPut d y v)) o (tidDom 0 d) ((domcmdWord (domMod x d (fun y => domcmdPut d y v)) d).setWidth 32)) d) = _
  rw [hput]
  rfl

theorem domcmdIsWritten : Rules.DomcmdIsWritten := by
  intro s d by_ raw v be hc hn hroom hl hv hw hR hbe hres x y hf
  have hst : ∀ k, (domGet (domSet s d.val y) k).st = (domGet s k).st := by
    intro k
    by_cases hk : k = d.val
    · subst hk; rw [domGet_domSet_same]
    · rw [domGet_domSet_ne _ _ _ _ hk]
  have hread : ∀ g, Taken s g → domcmdWord g d.val = domcmdWord s d.val := fun g hg => by unfold domcmdWord; rw [hg.domGet]
  suffices hrow : ∃ t, byWrite s 0x15 (fun _ wd _ => decide (wd = .domcmd d.val)) by_ = t ∧ AccessEnds s t 0x15 by_ ∧
      DomChanged s (domSet s d.val y) t d.val (originKind (askOrigin s by_)) (tidDom 0 d.val) ((domcmdWord (domSet s d.val y) d.val).setWidth 32) by
    obtain ⟨t, ht, hends, u, hstaged, honly, hnext⟩ := hrow
    exact ⟨t, u, congrArg Host.Outcome.next ht, hends, hstaged, honly, hnext⟩
  refine word_rowP (old := (domcmdWord s d.val).setWidth 32) (v := v) (j := true) hw (by simp) rfl rfl rfl hv.symm
    (fun g hg => congrArg (BitVec.setWidth 32) (hread g hg)) (fun g hg => hres) (power_rights hR) (fun _ _ => rfl)
    (fun g hg => power_journals hbe (by rw [hg.holdsRight]; exact hR)) (.inr rfl) (fun _ => hroom)
    (fun g hg => wordGo_done nofun nofun fun _ => by rw [hg.jRoom]; exact hroom) (fun g t hg ht => ?_)
    (fun t h m ht => ht.host h m) (fun t ht => ht.calm hc) (fun t ht hon => ht.sysOn.trans ?_)
  · obtain ⟨hj, hstaged⟩ := entry_row (x := g) (by_ := by_) (e := domSet s d.val y) hn (tidDom 0 d.val)
      ((domcmdWord (domSet s d.val y) d.val).setWidth 32) rfl rfl (hst 67) rfl
    obtain ⟨hhost, hmesh, hchanged⟩ := domChanged_evalDom (d := d.val) hj hstaged (hst 67) hn hl hc
      fun hd hon hwant => hf hd ((hst d.val).symm.trans hon) hwant
    subst ht
    rw [wordApply_domcmd hg (e := domSet s d.val y) rfl, upkeep_calm (hchanged.calm hc)]
    exact ⟨hhost, hmesh, hchanged⟩
  · unfold sysOn domOn at hon ⊢
    rw [hst]; exact hon

/-- Settles O36: each timer and the write of DOMCMD end in one evaluation of the domain (evalDom_any). -/
theorem domainsAreCommanded : Obligations.DomainsAreCommanded := ⟨domainTimersExpire, domcmdIsWritten⟩

end Sys2Proof.Machine
end

section
/-!
The power domains family: votes of clients and of the host, their pacing, and wake requests (R255 to R263, R268, R339).
-/
namespace Sys2Proof.Machine

variable {s t x e : State} {d v k : Nat} {c : Bool} {o : Origin} {by_ : By} {raw data : Word} {be : BitVec 4} {net : Net} {req : Option (Pkt × Nat)}

/-! ## Votes -/

theorem Taken.pacing (hx : Taken s x) (d v : Nat) : Machine.pacing x d v = Machine.pacing s d v := by
  unfold Machine.pacing; rw [hx.sysf]

theorem Taken.stallGet (hx : Taken s x) (v : Nat) : Machine.stallGet x v = Machine.stallGet s v := by
  unfold Machine.stallGet; rw [hx.sysf]

theorem nodesSame_of_mesh (h : t.mesh = s.mesh) : NodesSame s t :=
  ⟨by rw [h], fun k m => by unfold nodeGet; rw [h]⟩

theorem sysOn_domSet {y : Dom} (hd : d < 64) : sysOn (domSet s d y) = sysOn s := by
  unfold sysOn domOn; rw [domGet_domSet_ne _ _ _ _ (by omega)]

/-- R256: the vote of v on domain d, as it stands after its write. -/
def withVote (s : State) (d v : Nat) (c : Bool) : State := domSet s d { domGet s d with votes := votePut (domGet s d).votes v c }

/-- R256: a vote of v on domain d, with its entry. -/
def voteCast (s : State) (o : Origin) (d v : Nat) (c : Bool) : State := jOrigin (voteSet s d v c) o (tidDom 2 d) (voteWordValue v c)

/-- R257: a vote that starts its interval, and R253 again. -/
def votePaced (s : State) (o : Origin) (d v : Nat) (c : Bool) : State := evalDom (paceSet (voteCast s o d v c) d v true) d

theorem votePaced_changes (hd : d < 64) (hc : s.calm) (hn : nvOn s = true) (hl : s.jrn.staging.length < 71) (hx : Taken s x)
    (hf : (domGet s d).st = .on → wantedOn (paceSet (withVote s d v c) d v true) d = false → fenceEmpty s d) :
    (votePaced x (askOrigin s by_) d v c).host = x.host ∧ NodesSame x (votePaced x (askOrigin s by_) d v c) ∧
      DomChanged s (paceSet (withVote s d v c) d v true) (votePaced x (askOrigin s by_) d v c) d (originKind (askOrigin s by_)) (tidDom 2 d)
        (voteWordValue v c) := by
  obtain ⟨hhost, hmesh, -, -, hchanged⟩ := vote_core (by_ := by_) true hd hc hn hl hx hf
  exact ⟨hhost, nodesSame_of_mesh hmesh, hchanged⟩

theorem voteUnpaced_changes (hd : d < 64) (hc : s.calm) (hn : nvOn s = true) (hl : s.jrn.staging.length < 71) (hx : Taken s x)
    (hf : (domGet s d).st = .on → wantedOn (withVote s d v c) d = false → fenceEmpty s d) :
    (evalDom (voteCast x (askOrigin s by_) d v c) d).host = x.host ∧ NodesSame x (evalDom (voteCast x (askOrigin s by_) d v c) d) ∧
      DomChanged s (withVote s d v c) (evalDom (voteCast x (askOrigin s by_) d v c) d) d (originKind (askOrigin s by_)) (tidDom 2 d)
        (voteWordValue v c) := by
  obtain ⟨hhost, hmesh, -, -, hchanged⟩ := vote_core (by_ := by_) false hd hc hn hl hx hf
  exact ⟨hhost, nodesSame_of_mesh hmesh, hchanged⟩

/-- Who asks for a vote write: a request of the fabric, or the host. -/
def voteOrigin : Option (Pkt × Nat) → Origin
  | some (p, _) => fabOrigin p
  | none => .host

/-- R257: a vote write that finds its slot free, its interval over and room in the journal is applied at once, and its access ends. -/
theorem voteArrive_applies (hslot : stallGet s v = none) (hpace : pacing s d v = false) (hroom : jRoom s = true) :
    voteArrive s v { dom := d, cast := c, req := req } =
      match req with
      | some (p, k) => writeNext (votePaced s (voteOrigin req) d v c) p k .ok
      | none => hostEnd (votePaced s (voteOrigin req) d v c) := by
  unfold voteArrive
  rw [hslot]
  dsimp only [Option.isSome]
  rw [hpace, hroom, if_neg Bool.false_ne_true, if_neg Bool.false_ne_true, if_pos rfl]
  cases req <;> rfl

/-- R256, R260: a client's vote, with the right, in the lane written. -/
theorem voteWrite_client {chip cid : Byte} {node : BitVec 7} (hd : d < 64) (hagent : node.getLsbD 0 = false) (hbe : be.getLsbD 0 = true)
    (hn : nvOn s = true) (hR : holdsRight s (.fab chip node cid) rVOTE = true) :
    voteWrite s (.fab chip node cid) d data be req =
      .later (upkeep (voteArrive s cid.toNat { dom := d, cast := data.getLsbD 0, req := req })) := by
  have hlow : ¬ 64 ≤ d := by omega
  simp only [voteWrite, Origin.isAgent, hagent, hlow, hbe, hR, hn, decide_false, Bool.or_false, Bool.not_true, Bool.false_and, Bool.false_eq_true,
    reduceCtorEq, if_false]

/-- R256, R260: the host's vote, for itself paced, for a client not. -/
theorem voteWrite_host (hd : d < 64) (hn : nvOn s = true) (hroom : jRoom s = true) :
    voteWrite s .host d data 0xF req =
      if s.host.votesel.toNat = 256 then .later (upkeep (voteArrive s 256 { dom := d, cast := data.getLsbD 0, req := req }))
      else .done (upkeep (evalDom (voteCast s .host d s.host.votesel.toNat (data.getLsbD 0)) d)) := by
  have hlow : ¬ 64 ≤ d := by omega
  have hR : holdsRight s .host rVOTE = true := rfl
  by_cases h : s.host.votesel.toNat = 256 <;> simp [voteWrite, voteCast, Origin.isAgent, hlow, hR, hn, h, hroom]

theorem clientVotes {chip cid : Byte} {node : BitVec 7} (hd : d < 64) (hc : s.calm) (hn : nvOn s = true) (hroom : jRoom s = true)
    (hl : s.jrn.staging.length < 71) (hw : Writes s 0 (.vote d) raw be (.fabric net)) (hbe : be.getLsbD 0 = true)
    (horigin : askOrigin s (.fabric net) = .fab chip node cid) (hagent : node.getLsbD 0 = false)
    (hR : holdsRight s (.fab chip node cid) rVOTE = true) (hpace : pacing s d cid.toNat = false) (hslot : stallGet s cid.toNat = none)
    (hf : (domGet s d).st = .on → wantedOn (paceSet (withVote s d cid.toNat (raw.getLsbD 0)) d cid.toNat true) d = false → fenceEmpty s d) :
    ∃ t, exec (.voteWrite net) s = .next t ∧ AccessEnds s t 0 (.fabric net) ∧
      DomChanged s (paceSet (withVote s d cid.toNat (raw.getLsbD 0)) d cid.toNat true) t d (originKind (.fab chip node cid)) (tidDom 2 d)
        (voteWordValue cid.toNat (raw.getLsbD 0)) := by
  have hec : (paceSet (withVote s d cid.toNat (raw.getLsbD 0)) d cid.toNat true).calm := hc
  refine byWrite_next (fab_row (sel := fun _ wd _ => match wd with | .vote _ => true | _ => false) hw rfl nofun
    (fun x p hx hlen hp => ?_) (fun g h m hg => hg.host h m) (fun g hg => settle_calm (hg.calm hec))
    (fun g hg hon => hg.sysOn.trans ((sysOn_domSet hd).trans hon)))
  obtain ⟨hhost, hnodes, hchanged⟩ := votePaced_changes (by_ := .fabric net) hd hc hn hl hx hf
  rw [horigin] at hp hhost hnodes hchanged ⊢
  have hword : writeWord x (.fab chip node cid) (.vote d) raw be (some (p, 0)) =
      .later (respond (votePaced x (.fab chip node cid) d cid.toNat (raw.getLsbD 0)) p .ok []) := by
    have hnext : writeNext (votePaced x (.fab chip node cid) d cid.toNat (raw.getLsbD 0)) p 0 .ok =
        respond (votePaced x (.fab chip node cid) d cid.toNat (raw.getLsbD 0)) p .ok [] := if_neg (by omega)
    refine (voteWrite_client hd hagent hbe (hx.nvOn.trans hn) ((hx.holdsRight _ _).trans hR)).trans (congrArg WRes.later ?_)
    rw [voteArrive_applies ((hx.stallGet _).trans hslot) ((hx.pacing _ _).trans hpace) (hx.jRoom.trans hroom)]
    dsimp only [voteOrigin]
    rw [hp, hnext]
    exact upkeep_calm ((respond_frame _ _ _ _).calm (hchanged.calm hec))
  exact ⟨_, .inr hword, hhost, hnodes, hchanged⟩

/-- R268: VOTE is written by its word, at the domain that DOMSEL names. -/
theorem hostPerform_vote {hd : Half} {g : State} (hsel : x.host.domsel.toNat = d) :
    (writeWord x .host (.vote d) (hd.setWidth 32) 0xF none = .done g → hostPerform x (BitVec.toNat (0x18 : BitVec 6)) hd = .done g) ∧
    (writeWord x .host (.vote d) (hd.setWidth 32) 0xF none = .later g → hostPerform x (BitVec.toNat (0x18 : BitVec 6)) hd = .later g) := by
  have hperform : hostPerform x (BitVec.toNat (0x18 : BitVec 6)) hd = plainWrite x (.vote d) hd := by rw [← hsel]; rfl
  rw [hperform]
  unfold plainWrite
  exact ⟨fun h => by rw [h], fun h => by rw [h]⟩

/-- R257, R260: the change that a vote of the host makes: its own starts an interval, one for a client does not. -/
theorem hostVote_applied {hd : Half} (hlow : d < 64) (hc : s.calm) (hn : nvOn s = true) (hroom : jRoom s = true) (hl : s.jrn.staging.length < 71)
    (hsel : x.host.votesel.toNat = v)
    (he : e = if v = 256 then paceSet (withVote s d v (hd.getLsbD 0)) d v true else withVote s d v (hd.getLsbD 0)) (hx : Taken s x)
    (hfree : v = 256 → pacing s d 256 = false ∧ stallGet s 256 = none) (hf : (domGet s d).st = .on → wantedOn e d = false → fenceEmpty s d) :
    ∃ g, Applied x .host (.vote d) (hd.setWidth 32) 0xF none g ∧ g.host = x.host ∧ NodesSame x g ∧
      DomChanged s e g d kHOST (tidDom 2 d) (voteWordValue v (hd.getLsbD 0)) := by
  have hec : e.calm := by subst he; split <;> exact hc
  have hbit : (hd.setWidth 32 : Word).getLsbD 0 = hd.getLsbD 0 := by simp
  have hword := voteWrite_host (s := x) (data := hd.setWidth 32) (req := none) hlow (hx.nvOn.trans hn) (hx.jRoom.trans hroom)
  rw [hsel, hbit] at hword
  by_cases h256 : v = 256
  · subst h256
    rw [if_pos rfl] at he hword
    subst he
    obtain ⟨hpace, hslot⟩ := hfree rfl
    obtain ⟨hhost, hnodes, hchanged⟩ := votePaced_changes (by_ := .host hd) hlow hc hn hl hx hf
    refine ⟨_, .inr (hword.trans (congrArg WRes.later ?_)), hhost, hnodes, hchanged⟩
    rw [voteArrive_applies ((hx.stallGet _).trans hslot) ((hx.pacing _ _).trans hpace) (hx.jRoom.trans hroom)]
    exact upkeep_calm (hchanged.calm hec)
  · rw [if_neg h256] at he hword
    subst he
    obtain ⟨hhost, hnodes, hchanged⟩ := voteUnpaced_changes (by_ := .host hd) hlow hc hn hl hx hf
    exact ⟨_, .inl (hword.trans (congrArg WRes.done (upkeep_calm (hchanged.calm hec)))), hhost, hnodes, hchanged⟩

theorem hostVotes {hd : Half} (hlow : d < 64) (hc : s.calm) (hn : nvOn s = true) (hroom : jRoom s = true) (hl : s.jrn.staging.length < 71)
    (hv : s.host.votesel.toNat = v)
    (he : e = if v = 256 then paceSet (withVote s d v (hd.getLsbD 0)) d v true else withVote s d v (hd.getLsbD 0))
    (hwait : s.host.waitLow = false) (hgate : hostGate s 0x18 = .serve) (hdom : s.host.domsel.toNat = d)
    (hfree : v = 256 → pacing s d 256 = false ∧ stallGet s 256 = none) (hf : (domGet s d).st = .on → wantedOn e d = false → fenceEmpty s d) :
    ∃ t, exec (.hostVote hd) s = .next t ∧ AccessEnds s t 0x18 (.host hd) ∧
      DomChanged s e t d kHOST (tidDom 2 d) (voteWordValue v (hd.getLsbD 0)) := by
  have hec : e.calm := by subst he; split <;> exact hc
  obtain ⟨t, hrow, -, hnodes, hhost, hchanged⟩ := host_row (ha := 0x18) (hd := hd) (wd := .vote d) (raw := hd.setWidth 32)
    (P := fun g => DomChanged s e g d kHOST (tidDom 2 d) (voteWordValue v (hd.getLsbD 0)))
    hwait hgate (by decide) (fun x g _ hh => hostPerform_vote (by rw [hh]; exact hdom))
    (fun x hx hh => hostVote_applied hlow hc hn hroom hl (by rw [hh]; exact hv) he hx hfree hf)
    (fun g h m hg => hg.host h m) (fun g hg => settle_calm (hg.calm hec))
  exact ⟨t, congrArg Host.Outcome.next hrow, ⟨hnodes, hhost⟩, hchanged⟩

theorem votesAreCast : Rules.VotesAreCast := by
  intro s d hc hn hroom hl y cast
  refine ⟨fun net raw be chip cid node => ?_, fun hd => ?_⟩
  · intro e hw hbe horigin hagent hR hpace hslot hf
    exact clientVotes d.isLt hc hn hroom hl hw hbe horigin hagent hR hpace hslot hf
  · intro v e hwait hgate hdom hfree hf
    exact hostVotes d.isLt hc hn hroom hl rfl rfl hwait hgate hdom hfree hf

/-! ## The interval of a vote -/

theorem paceKey_inj {a b v w : Nat} (hv : v < 257) (hw : w < 257) : paceKey a v = paceKey b w ↔ a = b ∧ v = w := by
  unfold paceKey
  omega

theorem pacing_paceSet {w : Nat} {b : Bool} (hv : v < 257) (hw : w < 257) :
    pacing (paceSet s d v b) k w = if k = d ∧ w = v then b else pacing s k w := by
  unfold pacing paceSet
  simp only [sysMod_sys, tget_tset, paceKey_inj hw hv]

theorem voteSettle_idle (h : s.sys.stalls = []) : voteSettle k s = s := by
  cases k with
  | zero => rfl
  | succ k => unfold voteSettle; rw [h]; rfl

theorem votePaceEnds : Rules.VotePaceEnds := by
  intro s d v hc hpace hstalls
  refine ⟨paceSet s d v false, ?_, fun k w _ hw => pacing_paceSet v.isLt hw, rfl⟩
  show (if pacing s d v then Host.Outcome.next (settle (voteSettle 600 (paceSet s d v false))) else .next s : Res) = _
  have hcalm : (paceSet s d v false).calm := hc
  rw [if_pos hpace, voteSettle_idle (by exact hstalls), settle_calm hcalm]

/-! ## Wake requests -/

/-- The entry that a wake request of o makes (R263). -/
def wakeEntry (o : Origin) (d : Nat) (s : State) (v : Word) : State := jOrigin s o (tidDom 3 d) v

/-- R263, R339: a domain in FAULT, or one whose port is dead, is not woken. -/
theorem wakeEvent_refused {j : State → Word → State} (h : (domGet s d).st = .fault ∨ domDead s d = true) : wakeEvent s d j = j s 0 := if_pos h

theorem down_wakes (hlive : domDead s d = false) (hdown : (domGet s d).st = .off ∨ (domGet s d).st = .hemming) :
    ¬((domGet s d).st = .fault ∨ domDead s d = true) := by
  rcases hdown with h | h <;> simp [h, hlive]

/-- R263: a VOTED domain that is down is held from now on. -/
theorem wakeEvent_holds {j : State → Word → State} (hlive : domDead s d = false)
    (hdown : (domGet s d).st = .off ∨ (domGet s d).st = .hemming) (hvoted : (domGet s d).voted = true) (hhold : (domGet s d).hold = false) :
    wakeEvent s d j =
      evalDom (j (domMod s d (fun y => { y with hold := true, holdMs := (cfgGet s 0x84 0x400).extractLsb' 0 16 })) 1) d := by
  unfold wakeEvent
  dsimp only
  rw [if_neg (down_wakes hlive hdown), if_pos hdown, if_pos hvoted, hhold, if_neg Bool.false_ne_true]

/-- R263: a domain that is not VOTED is commanded ON. -/
theorem wakeEvent_commands {j : State → Word → State} (hlive : domDead s d = false)
    (hdown : (domGet s d).st = .off ∨ (domGet s d).st = .hemming) (hvoted : (domGet s d).voted = false) (hcmd : (domGet s d).cmdOn = false) :
    wakeEvent s d j = evalDom (j (domMod s d (fun y => { y with cmdOn := true })) 2) d := by
  unfold wakeEvent
  dsimp only
  rw [if_neg (down_wakes hlive hdown), if_pos hdown, hvoted, hcmd, if_neg Bool.false_ne_true, if_neg Bool.false_ne_true]

/-- R263: a domain that is up, or will be, is left alone, without an entry. -/
theorem wakeEvent_idle {j : State → Word → State} (hlive : domDead s d = false)
    (h : (domGet s d).st = .on ∨ (domGet s d).st = .waking ∨
      (((domGet s d).st = .off ∨ (domGet s d).st = .hemming) ∧ (if (domGet s d).voted then (domGet s d).hold else (domGet s d).cmdOn) = true)) :
    wakeEvent s d j = s := by
  unfold wakeEvent
  dsimp only
  rcases h with hon | hwaking | ⟨hdown, hheld⟩
  · simp [hon, hlive]
  · simp [hwaking, hlive]
  · rw [if_neg (down_wakes hlive hdown), if_pos hdown]
    split at hheld <;> rename_i hvoted
    · rw [if_pos hvoted, if_pos hheld]
    · rw [if_neg hvoted, if_pos hheld]

theorem Taken.domDead (hx : Taken s x) (d : Nat) : Machine.domDead x d = Machine.domDead s d := by
  unfold Machine.domDead; rw [hx.portGet]

/-- R262: a wake request that SYS takes does what the wake event does on the domain of the port that it names. -/
theorem wakeRequest_row {d : Fin 64} {P : State → Prop} (hroom : jRoom s = true) (hw : Writes s 0 .wakeReq raw be (.fabric net))
    (hnode : raw.extractLsb' 0 7 = portNode d.val)
    (hE : ∀ b, Taken s b → (wakeEvent b d (wakeEntry (askOrigin s (.fabric net)) d)).host = b.host ∧
      (wakeEvent b d (wakeEntry (askOrigin s (.fabric net)) d)).mesh = b.mesh ∧ P (wakeEvent b d (wakeEntry (askOrigin s (.fabric net)) d)))
    (hP : ∀ g h m, P g → P { g with host := h, mesh := m }) (hc : ∀ g, P g → g.calm) (hon : ∀ g, P g → sysOn s = true → sysOn g = true) :
    ∃ t, exec (.wakeRequest net) s = .next t ∧ AccessEnds s t 0 (.fabric net) ∧ P t := by
  obtain ⟨hslot, hrouter⟩ := portNode_facts' d
  refine byWrite_next (fab_row (sel := fun _ wd _ => decide (wd = .wakeReq)) hw rfl nofun (fun x p hx _ _ => ?_) hP
    (fun g hg => settle_calm (hc g hg)) hon)
  have hbump := bump_shape x .sys yWAKEREQ
  obtain ⟨hhost, hmesh, hg⟩ := hE _ (hx.bump yWAKEREQ)
  have hword : wakeWrite x (askOrigin s (.fabric net)) raw =
      .done (upkeep (wakeEvent (bump x .sys yWAKEREQ) d (wakeEntry (askOrigin s (.fabric net)) d))) := by
    unfold wakeWrite
    dsimp only
    rw [hnode, hslot, hrouter, hx.jRoom, hroom, Bool.not_true, Bool.and_false, if_neg Bool.false_ne_true, if_neg Bool.false_ne_true]
    rfl
  rw [upkeep_calm (hc _ hg)] at hword
  exact ⟨_, .inl hword, hhost.trans hbump.host, nodesSame_of_mesh (hmesh.trans hbump.mesh), hg⟩

/-- R263: a wake event that changes domain d to y makes its entry, and R253 is evaluated again. -/
theorem wakeChanges {y : Dom} {w : Word} (hd : d < 64) (hst : y.st = (domGet s d).st) (hdown : (domGet s d).st = .off ∨ (domGet s d).st = .hemming)
    (hc : s.calm) (hn : nvOn s = true) (hl : s.jrn.staging.length < 71) (hx : Taken s x) :
    (evalDom (wakeEntry (askOrigin s by_) d (domSet x d y) w) d).host = x.host ∧
    (evalDom (wakeEntry (askOrigin s by_) d (domSet x d y) w) d).mesh = x.mesh ∧
    DomChanged s (domSet s d y) (evalDom (wakeEntry (askOrigin s by_) d (domSet x d y) w) d) d (originKind (askOrigin s by_)) (tidDom 3 d) w := by
  have h67 : (domGet (domSet s d y) 67).st = (domGet s 67).st := by rw [domGet_domSet_ne _ _ _ _ (by omega)]
  have hset : domSet x d y = overlay x (domSet s d y) := by rw [hx.eq]; rfl
  obtain ⟨hj, hstaged⟩ := entry_row (x := x) (by_ := by_) (e := domSet s d y) hn (tidDom 3 d) w rfl rfl h67 rfl
  rw [hset]
  refine domChanged_evalDom hj hstaged h67 hn hl hc fun _ hon => ?_
  rw [domGet_domSet_same, hst] at hon
  rcases hdown with h | h <;> rw [h] at hon <;> cases hon

theorem wakeRequestWakes : Rules.WakeRequestWakes := by
  intro s d net raw be hc hn hroom hl hw hnode y o
  have hdead : ∀ b, Taken s b → domDead b d = (portGet s d).dead := fun b hb => by simp [domDead, hb.portGet]
  refine ⟨fun h => ?refused, fun hdown hport hvoted hhold => ?holds, fun hdown hport hvoted hcmd => ?commands, fun hup hport => ?idle⟩
  case refused =>
    refine wakeRequest_row (P := fun g => AccessOnly s g ∧ StagesOne s g (originKind o) (tidDom 3 d) 0) hroom hw hnode (fun b hb => ?_)
      (fun g k m ⟨honly, hst⟩ => ⟨honly.jrn_free k m, hst⟩) (fun g ⟨honly, _⟩ => honly.calm hc) (fun g ⟨honly, _⟩ hon => honly.sysOn.trans hon)
    rw [wakeEvent_refused (by rwa [hb.domGet, hdead b hb])]
    obtain ⟨hj, hst⟩ := entry_row (x := b) (by_ := .fabric net) (e := s) hn (tidDom 3 d) 0 (congrArg (fun z => wakeEntry o d z 0) hb.eq) rfl rfl rfl
    obtain ⟨hhost, hmesh⟩ := hj.overlay_side
    exact ⟨hhost, hmesh, hj.access, hst⟩
  case holds =>
    refine wakeRequest_row hroom hw hnode (fun b hb => ?_) (fun g k m hg => hg.host k m) (fun g hg => hg.calm hc)
      (fun g hg hon => hg.sysOn.trans ((sysOn_domSet d.isLt).trans hon))
    have hget := hb.domGet d
    rw [wakeEvent_holds ((hdead b hb).trans hport) (by rw [hget]; exact hdown) (by rw [hget]; exact hvoted) (by rw [hget]; exact hhold), hb.cfgGet]
    unfold domMod
    rw [hget]
    exact wakeChanges d.isLt rfl hdown hc hn hl hb
  case commands =>
    refine wakeRequest_row hroom hw hnode (fun b hb => ?_) (fun g k m hg => hg.host k m) (fun g hg => hg.calm hc)
      (fun g hg hon => hg.sysOn.trans ((sysOn_domSet d.isLt).trans hon))
    have hget := hb.domGet d
    rw [wakeEvent_commands ((hdead b hb).trans hport) (by rw [hget]; exact hdown) (by rw [hget]; exact hvoted) (by rw [hget]; exact hcmd)]
    unfold domMod
    rw [hget]
    exact wakeChanges d.isLt rfl hdown hc hn hl hb
  case idle =>
    refine wakeRequest_row (P := fun g => AccessOnly s g ∧ g.jrn = s.jrn) hroom hw hnode (fun b hb => ?_)
      (fun g k m ⟨honly, hj⟩ => ⟨honly.jrn_free k m, hj⟩) (fun g ⟨honly, _⟩ => honly.calm hc) (fun g ⟨honly, _⟩ hon => honly.sysOn.trans hon)
    rw [wakeEvent_idle ((hdead b hb).trans hport) (by rw [hb.domGet]; exact hup)]
    exact ⟨rfl, rfl, hb.accessOnly, hb.jrn⟩

/-- Settles O37: a vote starts its interval and R253 is evaluated again (votePaced_changes); an interval that ends applies nothing while no write is
stalled; a wake request does what wakeEvent does on its domain, case by case. -/
theorem votesAndWakeRequests : Obligations.VotesAndWakeRequests := ⟨votesAreCast, votePaceEnds, wakeRequestWakes⟩

end Sys2Proof.Machine
end

section
/-!
The power domains family: the end of hemming, by itself or by DRAINTO (R254, R266, R269, R272, R274, R276).
-/
namespace Sys2Proof.Machine

variable {s t : State} {d n : Nat} {forced : Bool}

/-- A domain that goes OFF leaves the other domains as they were. -/
theorem GoesOff.other (h : GoesOff s t d forced) {k : Nat} (hk : k ≠ d) : domGet t k = domGet s k := by
  obtain ⟨u, v, hdown, ⟨-, hv, -⟩, -, ht, -⟩ := h
  have hu : u.doms = s.doms := by
    split at hdown
    · obtain ⟨-, -, -, honly⟩ := hdown
      rw [honly]
    · rw [hdown]
  rw [ht k hk, hv k hk]
  unfold domGet
  rw [hu]

theorem GoesOff.calm (h : GoesOff s t d forced) (hc : s.calm) : t.calm :=
  calm_congr (by rw [h.frame]) (by rw [h.frame]) (by rw [h.frame]) (by rw [h.frame]) hc

/-- R346: a fault of a source whose doorbell is not armed finds room while staging holds fewer than 72 entries. -/
theorem faultPlain_of {code : BitVec 5} (hn : nvOn s = true) (hl : s.jrn.staging.length < 72) (hb : (faultdb s).getLsbD 18 = false)
    (hcode : code ≠ fLINKPAR) : FaultPlain s n code :=
  ⟨by unfold hwRoom; rw [hn, if_pos rfl]; exact decide_eq_true hl, hb, .inl hcode⟩

/-- R272: a port with nothing to notify drops nothing as its drain ends. -/
theorem sendFail_empty (hsend : (portGet s n).wsend = []) (hheld : (portGet s n).wheld = []) :
    sendFail s n = portMod s n (fun q => { q with wsend := [], wheld := [] }) := by
  unfold sendFail
  rw [hsend, hheld]
  rfl

theorem PortAndNode.mod {p : PortSt} {node : BitVec 7} {net : Net} {q : NodeQ} (h : PortAndNode s t n p node net q) {f : PortSt → PortSt}
    (hf : f p = p) : PortAndNode s (portMod t n f) n p node net q := by
  obtain ⟨hport, hother, hnode, hnodes, honly⟩ := h
  exact ⟨by rw [portGet_portMod_same, hport, hf], fun m hm => (portGet_portMod_ne _ _ _ _ hm).trans (hother m hm), hnode, hnodes,
    honly.trans (portMod_frame t n f)⟩

theorem withoutNotifications {p : PortSt} (hsend : p.wsend = []) (hheld : p.wheld = []) : { p with wsend := [], wheld := [] } = p := by
  cases p
  subst hsend hheld
  rfl

/-- R272: the forced drain of a port that waits for nothing but its own request: the request is answered ISOLATED. -/
theorem portDrain_forced (halone : portAlone s n) (hsend : (portGet s n).wsend = []) (hheld : (portGet s n).wheld = []) :
    let p := portGet s n
    let q := nodeGet s (portNode n) .rsp
    PortAndNode s (sendFail (finishPort s n .isolated) n) n { p with tgt := none, claimed := false, claiming := false } (portNode n) .rsp
      { q with out := match p.tgt with | some r => q.out ++ pktUnits (responsePkt r.pkt .isolated []) | none => q.out } := by
  obtain ⟨hdone, -⟩ := finishPort_alone .isolated halone
  have ⟨hport, _⟩ := hdone
  rw [sendFail_empty (by rw [hport]; exact hsend) (by rw [hport]; exact hheld)]
  exact hdone.mod (withoutNotifications hsend hheld)

theorem hemmingEnds : Rules.HemmingEnds := by
  intro s d hc hn hl hd x hst hhem
  have hne : ∀ {u : State}, (∀ k, domGet u k = domGet s k) → (domGet u d).st ≠ .off := fun hu => by rw [hu, hst]; decide
  refine ⟨fun hdrained => ?drained, fun hlow halone hsend hheld hbell => ?forced⟩
  case drained =>
    have hdone : hemDone s d = true := by
      unfold hemDone
      dsimp only
      rw [hst, hhem]
      split at hdrained <;> simp_all
    obtain ⟨hoff, -⟩ := goesOff_spec hc hn (by omega) d hd false (hne fun _ => rfl)
    exact ⟨_, (if_pos hdone).trans (congrArg Host.Outcome.next (settle_calm (hoff.calm hc))), hoff⟩
  case forced =>
    have hport := portDrain_forced halone hsend hheld
    generalize hu : sendFail (finishPort s d .isolated) d = u at hport
    have honly : PortsOnly s u := by obtain ⟨-, -, -, -, honly⟩ := hport; exact honly
    have hdom : ∀ k, domGet u k = domGet s k := fun k => by unfold domGet; rw [honly]
    have hun : nvOn u = true := by unfold nvOn domOn at hn ⊢; rw [hdom]; exact hn
    have hujrn : u.jrn = s.jrn := by rw [honly]
    obtain ⟨hoff, k, hlen, hk⟩ := goesOff_spec (honly.calm hc) hun (by rw [hujrn]; omega) d hd true (hne hdom)
    generalize hv : domOff u d true = v at hoff hlen
    have hvn : nvOn v = true := by unfold nvOn domOn at hun ⊢; rw [hoff.other (by omega)]; exact hun
    have hvbell : faultdb v = faultdb s := by unfold faultdb cfgGet; rw [hoff.frame, honly]
    have hraised : FaultRaised v (raiseFault v d fDRAIN 0) d fDRAIN 0 :=
      raiseFault_plain 0 (faultPlain_of hvn (by rw [hujrn] at hlen; omega) (by rw [hvbell]; exact hbell) (by decide))
    have ⟨_, _, _, _, hrecords⟩ := hraised
    have hcalm : (raiseFault v d fDRAIN 0).calm := hrecords.calm (hoff.calm (honly.calm hc))
    have hend : drainEnd s d = raiseFault v d fDRAIN 0 := by
      unfold drainEnd
      rw [if_pos hlow, hu]
      exact congrArg (fun y => raiseFault y d fDRAIN 0) hv
    have hguard : (decide (x.st = .hemming) && decide (x.hem = .drain)) = true := by rw [hst, hhem]; rfl
    refine ⟨_, u, v, ?_, hport, hoff, hraised⟩
    rw [← hend] at hcalm ⊢
    exact (if_pos hguard).trans (congrArg Host.Outcome.next (settle_calm hcalm))

/-- Settles O38: a drained domain goes OFF (goesOff_spec); a forced drain first ends the port's work, and then raises DRAIN. -/
theorem hemmingEndsInOff : Obligations.HemmingEndsInOff := hemmingEnds

end Sys2Proof.Machine
end

section
/-!
The power domains family: the rungs of the chip's ladder and of a domain's, and what comes up fresh at the last (R253, R292, R293, R377).
-/
namespace Sys2Proof.Machine

variable {s t : State} {d b i : Nat} {why : LadderWhy}

/-! ## Rungs -/

/-- R292: a rung of a domain that climbs lets the next start, unless the chip hushes. -/
theorem rungReady_next {d : Fin 68} {r : BitVec 2} (hst : (domGet s d).st = .waking) (hrest : (domGet s d).rest = false)
    (hnext : nextRung d (domGet s d).rung = some r) :
    exec (.rungReady (.dom d)) s = .next (if s.power.hush then s else domSet s d { domGet s d with rung := r, retried := false }) := by
  have hclimbs : ¬(decide ((domGet s d).st ≠ .waking) || (domGet s d).rest) = true := by simp [hst, hrest]
  show execRungReady (.dom d) s = _
  unfold execRungReady
  dsimp only
  rw [if_neg hclimbs, hnext]
  rfl

/-- R292: after its last rung a domain is up. -/
theorem rungReady_last {d : Fin 68} (hst : (domGet s d).st = .waking) (hrest : (domGet s d).rest = false) (hrung : (domGet s d).rung = 3) :
    exec (.rungReady (.dom d)) s = .next (settle (domUp s d)) := by
  have hclimbs : ¬(decide ((domGet s d).st ≠ .waking) || (domGet s d).rest) = true := by simp [hst, hrest]
  show execRungReady (.dom d) s = _
  unfold execRungReady
  dsimp only
  rw [if_neg hclimbs, hrung]
  rfl

theorem rungReady_chip (hhush : s.power.hush = false) (hmode : s.power.mode = .ladder why 1) :
    exec (.rungReady .chip) s = .next (chipLadderDone s why) := by
  have hrung : exec (.rungReady .chip) s = .next (if s.power.hush then s else chipLadderDone s why) := by
    show execRungReady .chip s = _
    unfold execRungReady
    rw [hmode]
    rfl
  rw [hrung, hhush]
  rfl

theorem rungsAreClimbed : Rules.RungsAreClimbed := by
  intro s hhush
  refine ⟨fun why hmode => ?chip, fun d r hst hrest hnext => ?next, fun d hst hrest => ?retry⟩
  case chip =>
    obtain ⟨hdoms, hshape⟩ := startCore_spec (timeMod s (fun m => { m with ts := 0 })) why
    exact ⟨_, rungReady_chip hhush hmode, hdoms, hshape⟩
  case next => rw [rungReady_next hst hrest hnext, hhush]; rfl
  case retry => exact if_pos ⟨hst, hrest, hhush⟩

/-! ## A port domain reaches ON -/

/-- R292, R377: port d's NI comes up fresh, its counters at 0. -/
def portUp (s : State) (d : Nat) : State := zeroCounters (portMod s d (portFresh s d)) (.port d)

theorem portUp_ports (s : State) (d : Nat) : (portUp s d).ports = (portMod s d (portFresh s d)).ports := by
  obtain ⟨-, -, hshape⟩ := zeroCounters_spec (portMod s d (portFresh s d)) d
  unfold portUp
  rw [hshape]

theorem portUp_shape (s : State) (d : Nat) : portUp s d =
    { s with ports := (portUp s d).ports, cnt := { s.cnt with value := (portUp s d).cnt.value, ovf := (portUp s d).cnt.ovf } } := by
  obtain ⟨-, -, hshape⟩ := zeroCounters_spec (portMod s d (portFresh s d)) d
  rw [portUp_ports]
  exact hshape

theorem portUp_self (s : State) (d : Nat) : portGet (portUp s d) d = portFresh s d (portGet s d) := by
  unfold portGet
  rw [portUp_ports]
  exact portGet_portMod_same ..

theorem portUp_other (s : State) {n : Nat} (hn : n ≠ d) : portGet (portUp s d) n = portGet s n := by
  unfold portGet
  rw [portUp_ports]
  exact portGet_portMod_ne _ _ _ _ hn

theorem portUp_fenceEmpty (s : State) (hlow : d < 64) (h : portGet t d = portGet (portUp s d) d) : fenceEmpty t d := by
  unfold fenceEmpty
  rw [if_pos hlow, h, portUp_self]
  exact ⟨rfl, rfl, rfl⟩

theorem portReachesOn : Rules.PortReachesOn := by
  intro s d hlow hc hn hl hvio x hst hrest hrung
  obtain ⟨hval, hovf, -⟩ := zeroCounters_spec (portMod s d (portFresh s d)) d
  have hfence : ∀ v, portGet v d = portGet (portUp s d) d → fenceEmpty v d := fun v => portUp_fenceEmpty s hlow
  have hself := portUp_self s d
  have hother : ∀ m, m ≠ d.val → portGet (portUp s d) m = portGet s m := fun m hm => portUp_other s hm
  have hshape := portUp_shape s d
  have hreach : domReachOn s d = (
      let v := domChange (portUp s d) d (fun y => { y with st := .on, rung := 0, holdAt := s.time.ts })
      evalDom (if d.val < 64 ∧ vioIsLow v (vioBank d) = true then portDie v d fVIOLOW (BitVec.ofNat 16 (vioBank d)) else v) d) := by
    unfold domReachOn portUp
    rw [if_pos hlow]
  change ∀ g, cval (portUp s d) g = _ at hval
  change ∀ g, covf (portUp s d) g = _ at hovf
  generalize portUp s d = u at hval hovf hfence hself hother hshape hreach
  have huc : u.calm := by rw [hshape]; exact hc
  have hun : nvOn u = true := by rw [hshape]; exact hn
  have hujrn : u.jrn = s.jrn := by rw [hshape]
  have huroom : hwRoom u = true := by unfold hwRoom; rw [hun, if_pos rfl, hujrn]; exact decide_eq_true (by omega)
  have hudom : domGet u d = x := by unfold domGet; rw [hshape]; rfl
  have hv := domBecomes_change huc huroom d (by omega) (fun y => { y with st := .on, rung := 0, holdAt := s.time.ts })
  generalize domChange u d (fun y => { y with st := .on, rung := 0, holdAt := s.time.ts }) = v at hv hreach
  have ⟨_, _, hvports, _, hvonly⟩ := hv
  have hvvio : vioIsLow v (vioBank d) = false := by
    have hpower : v.power = s.power := by rw [hvonly, hshape]
    unfold vioIsLow
    rw [hpower]; exact hvio
  have hvc := hv.calm huc
  have ht := evalDom_any hvc (hv.room hun (by omega) (by rw [hujrn]; exact hl)) d fun _ _ => hfence v (hvports d)
  have htc := ht.calm hvc
  rw [hudom] at hv
  refine ⟨evalDom v d, u, v, ?_, hself, hother, hval, hovf, hshape, hv, ht⟩
  have hup : domUp s d = evalDom v d := by
    have hfirst : domUp s d = upkeep (domReachOn s d) := if_pos hlow
    rw [hfirst, hreach]
    dsimp only
    rw [hvvio, if_neg (by simp), upkeep_calm htc]
  rw [rungReady_last hst hrest hrung, hup, settle_calm htc]

/-! ## MESH comes up -/

theorem cfgGet_cfgDrop (s : State) (drop : Nat → Bool) (hi : i < 0x10000) :
    cfgGet (cfgDrop s (fun k _ => drop k)) b i = if drop b then cfgReset (cfgKey b i) else cfgGet s b i := by
  have hkey : cfgKey b i / 65536 = b := by unfold cfgKey; omega
  have hfilter : cfgGet (cfgDrop s (fun k _ => drop k)) b i = _ :=
    tget_filterKey cfgReset s.cfg (fun k => !drop (k / 65536)) (cfgKey b i)
  rw [hfilter, hkey]
  cases drop b <;> rfl

/-- R377: MESH has just come up: every router, its selectors and its counters are as at reset. -/
def meshUp (s : State) : State := coreReach s 64

theorem meshUp_cnt (s : State) :
    (∀ g, cval (meshUp s) g = if 512 ≤ g ∧ g < 1024 then 0 else cval s g) ∧
    (∀ g, covf (meshUp s) g = if 512 ≤ g ∧ g < 1024 then false else covf s g) := by
  have hflip : ∀ {α : Type} (g : Nat) (a b : α), (if (!decide (512 ≤ g ∧ g < 1024)) = true then a else b) = if 512 ≤ g ∧ g < 1024 then b else a := by
    intro α g a b
    by_cases h : 512 ≤ g ∧ g < 1024 <;> simp [h]
  refine ⟨fun g => ?_, fun g => ?_⟩
  · exact (tget_filterKey _ s.cnt.value (fun g => !decide (512 ≤ g ∧ g < 1024)) g).trans (hflip ..)
  · exact (tget_filterKey _ s.cnt.ovf (fun g => !decide (512 ≤ g ∧ g < 1024)) g).trans (hflip ..)

theorem meshUp_cfg (s : State) (hi : i < 0x10000) :
    cfgGet (meshUp s) b i = if 0x40 ≤ b ∧ b < 0x80 then cfgReset (b * 0x10000 + i) else cfgGet s b i := by
  have hdrop : cfgGet (meshUp s) b i = _ := cfgGet_cfgDrop s (fun k => decide (0x40 ≤ k ∧ k < 0x80)) hi
  rw [hdrop]
  simp only [decide_eq_true_eq]
  rfl

theorem meshUp_domGet (s : State) (k : Nat) : domGet (meshUp s) k =
    if k = 64 then { domGet s 64 with st := .on, rung := 0, retried := false, rest := false } else domGet s k :=
  domGet_domMod s 64 k fun x => { x with st := .on, rung := 0, retried := false, rest := false }

/-- R63, R377: what else MESH's last rung changes. -/
theorem meshUp_shape (s : State) :
    domGet (meshUp s) 64 = { domGet s 64 with st := .on, rung := 0, retried := false, rest := false } ∧
    (∀ d, d ≠ 64 → domGet (meshUp s) d = domGet s d) ∧ (meshUp s).mesh = Mesh.reset ∧
    meshUp s = { s with doms := (meshUp s).doms, mesh := (meshUp s).mesh, cfg := (meshUp s).cfg,
                        cnt := { s.cnt with value := (meshUp s).cnt.value, ovf := (meshUp s).cnt.ovf } } :=
  ⟨(meshUp_domGet s 64).trans (if_pos rfl), fun k hk => (meshUp_domGet s k).trans (if_neg hk), rfl, rfl⟩

/-- R290: in a core ladder no move starts. -/
theorem powerEval_core (h : s.power.mode = .core why) : powerEval s = s := by
  unfold powerEval
  dsimp only
  rw [h]
  split <;> rfl

theorem meshComesUpFresh : Rules.MeshComesUpFresh := by
  intro s why hmode hsys hmoving hpatrol hrst hheld x hst hrest hrung
  obtain ⟨hself, hother, hmesh, hshape⟩ := meshUp_shape s
  obtain ⟨hval, hovf⟩ := meshUp_cnt s
  have hpower : (meshUp s).power = s.power := by rw [hshape]
  have hcore : (meshUp s).power.mode = .core why := by rw [hpower]; exact hmode
  have hwaits : coreUp (meshUp s) why = false := by
    have hsys' : sysOn (meshUp s) = false := by
      unfold sysOn domOn at hsys ⊢
      rw [hother 66 (by decide)]; exact hsys
    unfold coreUp
    rw [hsys']; rfl
  have hup : domUp s 64 = meshUp s := by
    unfold domUp
    rw [if_neg (by decide), if_neg (by decide)]
    change (match (meshUp s).power.mode with | .core why => if coreUp (meshUp s) why then coreDone (meshUp s) why else meshUp s | _ => _) = _
    rw [hcore]
    dsimp only
    rw [hwaits, if_neg Bool.false_ne_true]
  have hsettles : settle (meshUp s) = meshUp s :=
    settle_still (by rw [hpower]; exact hmoving) (by rw [hshape]; exact hpatrol) (by rw [hshape]; exact hrst) (by rw [hshape]; exact hheld)
      (powerEval_core hcore)
  refine ⟨meshUp s, ?_, ?_, hother, hmesh, fun b i hi => meshUp_cfg s hi, hval, hovf, hshape⟩
  · have hrow := rungReady_last (d := 64) hst hrest hrung
    change exec (.rungReady (.dom 64)) s = .next (settle (domUp s 64)) at hrow
    rw [hrow, hup, hsettles]
  · rw [hself, ← hrest]

/-- Settles O41: a ready rung lets the next start; after the last a port's NI (portUp) or the mesh (meshUp) is as at reset but for what is kept. -/
theorem laddersAreClimbed : Obligations.LaddersAreClimbed := ⟨rungsAreClimbed, portReachesOn, meshComesUpFresh⟩

end Sys2Proof.Machine
end

section
/-!
The power domains family: a write of PSTATE, the change of power state that it starts, and the move down to TACKING or DEEP (R278, R279, R289, R290).
-/
namespace Sys2Proof.Machine

variable {s t x z g : State} {p : Power} {c : BitVec 3} {by_ : By} {raw old v : Word} {be : BitVec 4} {o : Origin}

/-! ## The write -/

/-- R9, R278: the change of CODE, its entry with the whole new word, and what falls due. -/
theorem wordApply_pstate (hx : Taken s x) (hcode : (v.extractLsb' 0 16).extractLsb' 0 3 = c) : wordApply x o (.reg 0x13) old v true =
    upkeep (jOrigin (overlay x { s with power := { s.power with code := c } }) o (tidHost 0x13)
      (((0#7 ++ s.power.lvl ++ s.power.cur ++ c : Half)).setWidth 32)) := by
  have hput : regPut x o 0x13 v = overlay x { s with power := { s.power with code := c } } := by
    have hshape : regPut x o 0x13 v = { x with power := { x.power with code := c } } := by rw [← hcode]; rfl
    rw [hshape, hx.power]
    conv_lhs => rw [hx.eq]
    rfl
  show upkeep (jOrigin (regPut x o 0x13 v) o (tidHost 0x13) ((pstateWord (regPut x o 0x13 v)).setWidth 32)) = _
  rw [hput]
  rfl

/-- R278: PSTATE is written and journaled; then everything that the new CODE makes due follows. -/
theorem pstate_row {P : State → Prop} (hn : nvOn s = true) (hroom : jRoom s = true) (hw : Writes s 0x13 (.reg 0x13) raw be by_)
    (hR : holdsRight s (askOrigin s by_) rPOWER = true) (hbe : be.getLsbD 0 = true) (hcode : (raw.extractLsb' 0 3).toNat < 6)
    (hE : ∀ x z, Taken s x → JournalOnly (overlay x { s with power := { s.power with code := raw.extractLsb' 0 3 } }) z →
      StagesOne s z (originKind (askOrigin s by_)) (tidHost 0x13) (((0#7 ++ s.power.lvl ++ s.power.cur ++ raw.extractLsb' 0 3 : Half)).setWidth 32) →
      (upkeep z).host = x.host ∧ (upkeep z).mesh = x.mesh ∧ P (upkeep z))
    (hP : ∀ g h m, P g → P { g with host := h, mesh := m }) (hc : ∀ g, P g → settle g = g) (hon : ∀ g, P g → sysOn s = true → sysOn g = true) :
    ∃ t, exec (.pstateWrite by_) s = .next t ∧ AccessEnds s t 0x13 by_ ∧ P t := by
  have hwhole := pst_merge raw be hbe ((pstateWord s).setWidth 32)
  generalize hv : mergeWord [fRW 7 rPOWER] ((pstateWord s).setWidth 32) raw be = v at hwhole
  obtain ⟨hfield, hlow⟩ := hwhole
  refine byWrite_next (write_rowN hw (sel := fun _ wd _ => decide (wd = .reg 0x13)) (by simp) ⟨rfl, .inr (.inl rfl)⟩ (fun x req hx => ?_) hP hc hon)
  have hread : wordRead x (askOrigin s by_) (.reg 0x13) = (pstateWord s).setWidth 32 := by
    have hword : pstateWord x = pstateWord s := by unfold pstateWord; rw [hx.power]
    exact congrArg (BitVec.setWidth 32) hword
  have hright : holdsRight x (askOrigin s by_) rPOWER = true := by rw [hx.holdsRight]; exact hR
  have hgood : reservedCode x (.reg 0x13) ((pstateWord s).setWidth 32) v = false := by
    show decide (5 < fieldNat v 0 3) = false
    rw [hfield]
    exact decide_eq_false (by omega)
  have hword := writeWord_go (wd := .reg 0x13) (o := askOrigin s by_) (req := req) (j := true) rfl rfl hread hv hgood (lacks_none (power_rights hright)) rfl
    (power_journals hbe hright) (.inr rfl)
  rw [wordGo_done (wd := .reg 0x13) (by simp) (by simp) fun _ => by rw [hx.jRoom]; exact hroom, wordApply_pstate hx hlow] at hword
  obtain ⟨hj, hstaged⟩ := entry_row (x := x) (by_ := by_) (e := { s with power := { s.power with code := raw.extractLsb' 0 3 } }) hn (tidHost 0x13)
    (((0#7 ++ s.power.lvl ++ s.power.cur ++ raw.extractLsb' 0 3 : Half)).setWidth 32) rfl rfl rfl rfl
  obtain ⟨hhost, hmesh, hg⟩ := hE x _ hx hj hstaged.stages
  exact ⟨_, hword, hhost, nodesSame_of_mesh hmesh, hg⟩

/-- While no move to TACKING or DEEP and no patrol is in progress, only powerEval acts. -/
theorem upkeep_unmoved (hmoving : z.power.moving = none) (hpatrol : (powerEval z).time.patrol = none) : upkeep z = powerEval z := by
  have hdown : downCheck z = z := by unfold downCheck; rw [hmoving]
  unfold upkeep
  rw [hdown]
  unfold patrolPump
  rw [hpatrol]

/-! ## A change between the states of a chip that is up -/

/-- R289 steps 1 to 3, R290, R303: what a CODE from 2 to 5 makes of the power side: the change starts unless one is in progress or the chip hushes. -/
def moveBegun (p : Power) : Power :=
  if p.hush = true ∨ p.req ≠ none ∨ p.code = p.lvl then p
  else { p with bias := .zero, assist := p.assist || decide (p.code.toNat ≤ 3), vout := mantissa p.trim p.code.toNat, operOn := true,
                req := some (.move p.lvl p.code), second := false, pgoodRun := p.pgoodNow }

theorem moveBegun_moving (p : Power) : (moveBegun p).moving = p.moving := by
  unfold moveBegun; split <;> rfl

theorem moveBegun_mode (p : Power) : (moveBegun p).mode = p.mode := by
  unfold moveBegun; split <;> rfl

theorem moveBegun_code (p : Power) : (moveBegun p).code = p.code := by
  unfold moveBegun; split <;> rfl

/-- R290: a change that has begun is not begun again. -/
theorem moveBegun_twice (p : Power) : moveBegun (moveBegun p) = moveBegun p := by
  by_cases h : p.hush = true ∨ p.req ≠ none ∨ p.code = p.lvl
  · have hsame : moveBegun p = p := if_pos h
    rw [hsame, hsame]
  · have hreq : (moveBegun p).req ≠ none := by
      have hbegun : moveBegun p = _ := if_neg h
      rw [hbegun]; nofun
    exact if_pos (.inr (.inl hreq))

/-- R290, R303: a chip that is up takes a CODE from 2 to 5 as moveBegun says. -/
theorem powerEval_up (hmode : z.power.mode = .up) (hmoving : z.power.moving = none) (hpatrol : z.time.patrol = none) (hcode : 2 ≤ z.power.code.toNat) :
    powerEval z = { z with power := moveBegun z.power } := by
  have hhigh : ¬ z.power.code.toNat < 2 := by omega
  have heval : powerEval z = if z.power.hush = true ∨ z.power.req ≠ none ∨ z.power.code = z.power.lvl then z else startMove z z.power.code := by
    unfold powerEval
    dsimp only
    rw [hpatrol, hmoving, hmode]
    by_cases hbusy : z.power.hush = true ∨ z.power.req ≠ none
    · rw [if_pos (by simpa [← Option.isSome_iff_ne_none] using hbusy), if_pos (by tauto)]
    · rw [if_neg (by simpa [← Option.isSome_iff_ne_none] using hbusy)]
      dsimp only
      rw [if_neg hhigh]
      exact if_congr (by tauto) rfl rfl
  rw [heval]
  unfold moveBegun
  split <;> rfl

theorem AccessOnly.power_side (h : AccessOnly { s with power := p } g) :
    g.power = p ∧ g.time = s.time ∧ g.sys.portRst = s.sys.portRst ∧ g.sys.held = s.sys.held := by
  unfold AccessOnly at h
  rw [h]
  exact ⟨rfl, rfl, rfl, rfl⟩

theorem AccessOnly.domGet (h : AccessOnly s g) (d : Nat) : Machine.domGet g d = Machine.domGet s d := by
  unfold AccessOnly at h
  rw [h]
  rfl

/-- R289, R290: what is left of a write of a CODE from 2 to 5 is the change that it began. -/
theorem upkeep_begins (ha : s.awake) (hpm : p.mode = .up) (hpv : p.moving = none) (hcode : 2 ≤ p.code.toNat)
    (hz : AccessOnly { s with power := p } z) : upkeep z = { z with power := moveBegun p } := by
  obtain ⟨-, -, hpatrol, -, -⟩ := ha
  obtain ⟨hpower, htime, -, -⟩ := hz.power_side
  have heval := powerEval_up (z := z) (by rw [hpower]; exact hpm) (by rw [hpower]; exact hpv) (by rw [htime]; exact hpatrol) (by rw [hpower]; exact hcode)
  rw [hpower] at heval
  rw [upkeep_unmoved (by rw [hpower]; exact hpv) (by rw [heval]; exact (congrArg Time.patrol htime).trans hpatrol), heval]

theorem settle_begun (ha : s.awake) (hpm : p.mode = .up) (hpv : p.moving = none) (hcode : 2 ≤ p.code.toNat)
    (hg : AccessOnly { s with power := moveBegun p } g) : settle g = g := by
  obtain ⟨-, -, hpatrol, hrst, hheld⟩ := ha
  obtain ⟨hpower, htime, hgrst, hgheld⟩ := hg.power_side
  have hmoving : g.power.moving = none := by rw [hpower, moveBegun_moving]; exact hpv
  have hnone : g.time.patrol = none := by rw [htime]; exact hpatrol
  refine settle_still hmoving hnone (hgrst.trans hrst) (hgheld.trans hheld) ?_
  rw [powerEval_up (by rw [hpower, moveBegun_mode]; exact hpm) hmoving hnone (by rw [hpower, moveBegun_code]; exact hcode), hpower, moveBegun_twice, ← hpower]

/-! ## The move to TACKING or DEEP -/

/-- R279, R299: PSTATE as the entry of a move down to c shows it: the chip stands in c, but for LVL of a chip in LIMP. -/
def downWord (p : Power) (c : BitVec 3) : Word := ((0#7 ++ (if p.limp then p.lvl else c) ++ c ++ p.code : Half)).setWidth 32

theorem StagesOne.nonempty {kind : BitVec 3} {tid : Half} {w : Word} (h : StagesOne s t kind tid w) : t.jrn.staging ≠ [] := by
  obtain ⟨e, he, -⟩ := h
  rw [he]
  exact List.append_ne_nil_of_right_ne_nil _ (List.cons_ne_nil _ _)

/-- R279 step 3: once every domain is down the entry of the move is made; the rest stays up while staging holds it. -/
theorem downCheck_enters (hmoving : z.power.moving = some c) (hmj : z.power.movedJ = false) (hdown : allDown z = true) (hn : nvOn z = true)
    (hroom : hwRoom z = true) : ∃ j, JournalOnly z j ∧ StagesOne z j kHARDWARE (tidHost 0x13) (downWord z.power c) ∧
      downCheck z = { j with power := { z.power with movedJ := true } } := by
  have hframe := jHw_shape z kHARDWARE (tidHost 0x13) (downWord z.power c) false
  have hentry := jHw_stages kHARDWARE (tidHost 0x13) (downWord z.power c) false hn hroom
  have hshape : downCheck z = if ((jHw z kHARDWARE (tidHost 0x13) (downWord z.power c) false).jrn.staging.isEmpty &&
      (jHw z kHARDWARE (tidHost 0x13) (downWord z.power c) false).jrn.waiting.isEmpty) = true
      then powerDown (powMod (jHw z kHARDWARE (tidHost 0x13) (downWord z.power c) false) fun q => { q with movedJ := true }) c
      else powMod (jHw z kHARDWARE (tidHost 0x13) (downWord z.power c) false) fun q => { q with movedJ := true } := by
    unfold downCheck
    rw [hmoving]
    dsimp only
    rw [if_neg (by simp [hdown]), hmj]
    rfl
  generalize jHw z kHARDWARE (tidHost 0x13) (downWord z.power c) false = j at hframe hentry hshape
  have hpower : j.power = z.power := by rw [hframe]
  refine ⟨j, hframe, hentry, ?_⟩
  rw [hshape, if_neg (by simp [List.isEmpty_iff, hentry.nonempty]), ← hpower]
  rfl

/-- R279 step 4: a move whose entry is still in staging waits. -/
theorem downCheck_waits (hmoving : z.power.moving = some c) (hmj : z.power.movedJ = true) (hst : z.jrn.staging ≠ []) : downCheck z = z := by
  unfold downCheck
  rw [hmoving]
  dsimp only
  rw [hmj]
  split
  · rfl
  · rw [if_pos rfl]
    exact if_neg (by simp [List.isEmpty_iff, hst])

/-- R279, R290: a move down whose entry is in staging leaves nothing to be done. -/
theorem settle_waits (hmoving : g.power.moving = some c) (hmj : g.power.movedJ = true) (hst : g.jrn.staging ≠ []) (hpatrol : g.time.patrol = none)
    (hrst : g.sys.portRst = none) (hheld : g.sys.held = []) : settle g = g := by
  have heval : powerEval g = g := by unfold powerEval; simp [hmoving]
  have hpump : patrolPump g = g := by unfold patrolPump; rw [hpatrol]
  have hgo : portRstGo g = g := by unfold portRstGo; rw [hrst]
  unfold settle upkeep
  rw [downCheck_waits hmoving hmj hst, heval, hpump, hgo, heldPump_calm _ hheld]

/-- R277, R279: in a move down no domain is wanted ON, so one that is down stays down. -/
theorem domsStill_moving (hmoving : z.power.moving = some c) (hpatrol : z.time.patrol = none)
    (hdown : ∀ d, d < 66 → d ≠ 64 → (domGet z d).st = .off ∨ (domGet z d).st = .fault) : z.domsStill := by
  intro d hd h64
  refine ⟨fun hon => ?_, fun _ => ?_⟩
  · obtain h | h := hdown d hd h64 <;> rw [h] at hon <;> nomatch hon
  · unfold wantedOn
    rw [hpatrol, hmoving]
    rfl

theorem allDown_of (hdown : ∀ d, d < 66 → d ≠ 64 → (domGet z d).st = .off ∨ (domGet z d).st = .fault) : allDown z = true := by
  unfold allDown
  rw [List.all_eq_true]
  intro d hd
  by_cases h64 : d = 64
  · simp [h64]
  · obtain h | h := hdown d (List.mem_range.1 hd) h64 <;> simp [h]

/-- R290: a CODE of 0 or 1 begins the move down; with every domain down its entry follows at once. -/
theorem powerEval_down (hmode : z.power.mode = .up) (hmoving : z.power.moving = none) (hpatrol : z.time.patrol = none) (hlow : z.power.code.toNat < 2)
    (hhush : z.power.hush = false) (hreq : z.power.req = none) (hdown : ∀ d, d < 66 → d ≠ 64 → (domGet z d).st = .off ∨ (domGet z d).st = .fault) :
    powerEval z = downCheck (powMod z fun q => { q with moving := some z.power.code }) := by
  have hstill : (powMod z fun q => { q with moving := some z.power.code }).domsStill := domsStill_moving rfl hpatrol hdown
  unfold powerEval
  dsimp only
  rw [hhush, hpatrol, hreq, hmoving, hmode]
  dsimp only
  rw [if_neg (by simp), if_pos hlow, evalDoms_still hstill]

/-- R279, R290, R299: what is left of a write of CODE 0 or 1 with every domain down: the move has begun, and its entry is in staging. -/
theorem upkeep_goesDown (ha : s.awake) (hz : AccessOnly { s with power := p } z) (hpm : p.mode = .up) (hpv : p.moving = none) (hlow : p.code.toNat < 2)
    (hhush : p.hush = false) (hreq : p.req = none) (hmj : p.movedJ = false) (hn : nvOn s = true) (hl : z.jrn.staging.length < 72)
    (hdown : ∀ d, d < 66 → d ≠ 64 → (domGet s d).st = .off ∨ (domGet s d).st = .fault) :
    (upkeep z).host = z.host ∧ (upkeep z).mesh = z.mesh ∧ StagesOne z (upkeep z) kHARDWARE (tidHost 0x13) (downWord p p.code) ∧
      AccessOnly { s with power := { p with moving := some p.code, movedJ := true } } (upkeep z) := by
  obtain ⟨-, -, hpatrol, -, -⟩ := ha
  obtain ⟨hpower, htime, -, -⟩ := hz.power_side
  subst hpower
  have hzpatrol : z.time.patrol = none := by rw [htime]; exact hpatrol
  have hzdown : ∀ d, d < 66 → d ≠ 64 → (domGet z d).st = .off ∨ (domGet z d).st = .fault := fun d => by
    rw [AccessOnly.domGet hz]; exact hdown d
  have hznv : nvOn z = true := hz.nvOn.trans hn
  have hroom : hwRoom z = true := by unfold hwRoom; rw [if_pos hznv]; exact decide_eq_true hl
  obtain ⟨j, hframe, hentry, henters⟩ := downCheck_enters (z := powMod z fun q => { q with moving := some z.power.code }) rfl hmj (allDown_of hzdown) hznv hroom
  have heval := (powerEval_down hpm hpv hzpatrol hlow hhush hreq hzdown).trans henters
  have hjpatrol : j.time.patrol = none := by rw [hframe]; exact hzpatrol
  rw [upkeep_unmoved hpv (by rw [heval]; exact hjpatrol), heval]
  exact ⟨by rw [hframe]; rfl, by rw [hframe]; rfl, hentry, ((hz.setPower _).thenJ hframe).setPower _⟩

/-! ## The two clauses -/

theorem pstateIsWritten : Rules.PstateIsWritten := by
  intro s by_ raw be hawake hn hroom hw hR hbe c p w hcode
  have ⟨hmode, hmoving, hpatrol, hrst, hheld⟩ := hawake
  refine ⟨fun hhigh => ?begins, fun hlow hhush hreq hmj hdown hl => ?goesDown⟩
  case begins =>
    obtain ⟨t, ht, hends, hst, honly⟩ := pstate_row
      (P := fun g => StagesOne s g (originKind (askOrigin s by_)) (tidHost 0x13) w ∧ AccessOnly { s with power := moveBegun p } g) hn hroom hw hR hbe hcode
      (fun x z _ hj hst => by
        obtain ⟨hhost, hmesh⟩ := hj.overlay_side
        rw [upkeep_begins hawake (p := p) hmode hmoving hhigh hj.access]
        exact ⟨hhost, hmesh, hst, hj.access.setPower (moveBegun p)⟩)
      (fun g h m ⟨hst, honly⟩ => ⟨hst, honly.jrn_free h m⟩)
      (fun g ⟨_, honly⟩ => settle_begun hawake (p := p) hmode hmoving hhigh honly)
      (fun g ⟨_, honly⟩ hon => honly.sysOn.trans hon)
    exact ⟨t, ht, hends, hst, honly⟩
  case goesDown =>
    obtain ⟨t, ht, hends, hst, honly⟩ := pstate_row
      (P := fun g => (∃ u, StagesOne s u (originKind (askOrigin s by_)) (tidHost 0x13) w ∧ StagesOne u g kHARDWARE (tidHost 0x13) (downWord p c)) ∧
        AccessOnly { s with power := { p with moving := some c, movedJ := true } } g) hn hroom hw hR hbe hcode
      (fun x z _ hj hst => by
        obtain ⟨hhost, hmesh⟩ := hj.overlay_side
        have hlen : z.jrn.staging.length < 72 := by
          obtain ⟨e, he, -⟩ := hst
          rw [he, List.length_append, List.length_singleton]
          omega
        obtain ⟨hhost', hmesh', hentry, honly⟩ := upkeep_goesDown hawake (p := p) hj.access hmode hmoving hlow hhush hreq hmj hn hlen hdown
        exact ⟨hhost'.trans hhost, hmesh'.trans hmesh, ⟨z, hst, hentry⟩, honly⟩)
      (fun g h m ⟨⟨u, hst, hentry⟩, honly⟩ => ⟨⟨u, hst, hentry⟩, honly.jrn_free h m⟩)
      (fun g ⟨⟨u, hst, hentry⟩, honly⟩ => by
        obtain ⟨hpower, htime, hgrst, hgheld⟩ := honly.power_side
        exact settle_waits (c := c) (by rw [hpower]) (by rw [hpower]) hentry.nonempty (by rw [htime]; exact hpatrol) (hgrst.trans hrst)
          (hgheld.trans hheld))
      (fun g ⟨_, honly⟩ hon => honly.sysOn.trans hon)
    exact ⟨t, ht, hends, hst, honly⟩

/-- Settles O39: the write takes the road of every journaled register; a CODE from 2 to 5 then begins a change or finds one in progress, a CODE of 0 or
1 begins the move down, whose own entry keeps the chip up until staging is empty. -/
theorem powerStateIsWritten : Obligations.PowerStateIsWritten := pstateIsWritten

end Sys2Proof.Machine
end

section
/-!
The machine as a whole: a step runs the oldest command, or one tick; no command touches the queue; the invariant holds at reset.
-/
namespace Sys2Proof.Machine

variable {s : State}

/-- Settles O54: a step on a queue with a front takes it. -/
theorem stepRunsTheFrontCommand : Obligations.StepRunsTheFrontCommand := fun _ _ => rfl

theorem domGet_reset (d : Nat) : domGet State.reset d = Dom.resetOf d := rfl

theorem selectorsOk_reset : selectorsOk HostIf.reset := by unfold selectorsOk; decide

/-- Settles O56: at reset the tables are empty, the selectors 0 but VOTESEL, and the TAP selects IDCODE. -/
theorem theInvariantHoldsAtReset : Obligations.TheInvariantHoldsAtReset :=
  ⟨⟨rfl, rfl, rfl, rfl, rfl, rfl, rfl, rfl, rfl⟩, selectorsOk_reset, fun d => by rw [domGet_reset]; exact domOk_resetOf d, rfl⟩

/-- Settles O58: every command leaves the queue it runs under (exec_good). -/
theorem commandsLeaveTheQueue : Obligations.CommandsLeaveTheQueue :=
  fun i _ _ hinv hexec => (outAll_get hexec (exec_good i ⟨rfl, hinv⟩)).1

/-! ## The tick -/

theorem step_idle (hq : s.pending = []) : step s = .next (tick s) := by unfold step; rw [hq]

theorem countUp_below {n len : Half} (h : n.toNat + 1 < len.toNat) : countUp n len = n + 1 := if_pos h

theorem tick_stopped (h : tsRuns s = false) : tick s = s := if_neg (by simp [h])

/-- R70, R310, R392: what one tick counts. -/
theorem tick_runs (h : tsRuns s = true) : tick s = { s with time := { s.time with
    ts := s.time.ts + 1, isoCount := countUp s.time.isoCount s.time.isoLive, bwCount := countUp s.time.bwCount s.time.bwLive } } := if_pos h

/-- Settles O55: with no command waiting a step is a tick, which counts while the timestamp runs. -/
theorem emptyQueueIsATick : Obligations.EmptyQueueIsATick := by
  intro s hq
  refine ⟨fun hstop => ?_, fun hrun => ⟨_, (step_idle hq).trans (congrArg _ (tick_runs hrun)), rfl, countUp_below, countUp_below, rfl⟩⟩
  rw [step_idle hq, tick_stopped hstop]

end Sys2Proof.Machine
end

section
/-!
The reset family: the chip held by RESET_N or by a test instruction of the TAP, and the instructions that leave it alone
(R426, R459 to R461).
-/
namespace Sys2Proof.Machine

variable {s : State} {pins : List Bool} {ir : BitVec 4}

theorem tapOn_powered (h : s.power.mode ≠ .unpowered) : tapOn s = true := decide_eq_true h

theorem resetPinHolds : Rules.ResetPinHolds :=
  fun s hpower => ⟨_, if_neg hpower, heldReset s, heldReset_spec s, rfl⟩

/-- The chip as a test instruction holds it, before the instruction is current. -/
def testHeld (s : State) : State := if s.tap.test then s else heldReset s

theorem testHeld_spec (s : State) : if s.tap.test then testHeld s = s else HeldReset s (testHeld s) := by
  unfold testHeld
  split
  · rfl
  · exact heldReset_spec s

theorem testHeld_tap (s : State) : (testHeld s).tap = s.tap := by
  unfold testHeld
  split <;> rfl

/-- R461: what a test instruction leaves of the chip. -/
theorem tapHold_eq (s : State) (ir : BitVec 4) : tapHold s ir = { testHeld s with tap := { ir := ir, bsr := s.tap.bsr, test := true } } := by
  rw [← testHeld_tap s]; rfl

theorem testInstructionsHold : Rules.TestInstructionsHold := by
  intro s pins hpower
  have hon := tapOn_powered hpower
  refine ⟨⟨_, testHeld s, if_pos hon, testHeld_spec s, ?_⟩, ⟨_, testHeld s, if_pos hon, testHeld_spec s, tapHold_eq s _⟩,
    ⟨_, testHeld s, if_pos hon, testHeld_spec s, tapHold_eq s _⟩⟩
  rw [tapHold_eq]; rfl

/-- R459: IR 1 selects the identification register, of 32 bits. -/
theorem tapRead_idcode (t : Tap) {k : Nat} (hk : k < 32) : (tapRead { t with ir := 1 })[k]? = some (idcodeWord.getLsbD k) := by
  have hread : tapRead { t with ir := 1 } = (List.range 32).map (fun k => idcodeWord.getLsbD k) := rfl
  rw [hread, List.getElem?_map, List.getElem?_range hk]; rfl

/-- R461: an instruction that does not disturb the chip is only taken. -/
theorem tapPlain_takes (hpower : s.power.mode ≠ .unpowered) (htest : s.tap.test = false) (ir : BitVec 4) :
    tapPlain s ir = { s with tap := { s.tap with ir := ir } } := if_pos (by rw [tapOn_powered hpower, htest]; rfl)

theorem samplePreload_takes (hpower : s.power.mode ≠ .unpowered) (htest : s.tap.test = false) :
    exec (.samplePreload pins) s = .next { s with tap := { s.tap with ir := 2, bsr := pins } } := by
  show Host.Outcome.next (if tapOn s && !s.tap.test then _ else s) = _
  rw [if_pos (by rw [tapOn_powered hpower, htest]; rfl)]; rfl

theorem otherTapInstructionsDoNot : Rules.OtherTapInstructionsDoNot := by
  intro s pins hpower htest
  have hplain : ∀ ir, (.next (tapPlain s ir) : Res) = .next { s with tap := { s.tap with ir := ir } } :=
    fun ir => by rw [tapPlain_takes hpower htest]
  exact ⟨hplain _, fun k hk => tapRead_idcode s.tap hk, samplePreload_takes hpower htest, rfl, hplain _, rfl⟩

/-- Settles O32: RESET_N low and the test instructions end in heldReset; the other instructions change IR and the boundary register alone. -/
theorem resetPinAndTestHold : Obligations.ResetPinAndTestHold := ⟨resetPinHolds, testInstructionsHold, otherTapInstructionsDoNot⟩

end Sys2Proof.Machine
end

section
/-!
The supply and wake family: the events that start the chip, and the loss of VAON (R306, R366, R370, R425, R428, R435, R461).
-/
namespace Sys2Proof.Machine

variable {s : State}

/-! ## Starting -/

theorem powerOn_rises (h : s.power.mode = .unpowered) : exec (.powerOn true) s = .next (powerRise s) := by
  show Host.Outcome.next (if s.power.mode = .unpowered then powerRise s else s) = _
  rw [if_pos h]

theorem startUpFollows : Rules.StartUpFollows := by
  intro s
  refine ⟨fun hlow htest => ?_, fun htest hlow => ?_, fun hon => ?_, fun hoff => ?_, fun hwait => ?_, fun hask => ?_⟩
  · refine ⟨_, if_neg (by simp [hlow]), ?_⟩
    rw [if_neg (by simp [htest])]
    exact startUp_spec _ 1
  · refine ⟨_, if_pos htest, ?_⟩
    rw [if_neg (by simp [hlow])]
    exact startUp_spec _ 1
  · exact ⟨_, _, if_pos hon, wideReturn_spec s _ _ _ _, startUp_spec _ 2⟩
  · exact ⟨powerRise s, powerOn_rises hoff, startUp_spec _ 0⟩
  · exact ⟨_, _, if_pos hwait, wideReturn_spec s _ _ _ _, startUp_spec _ 6⟩
  · exact ⟨_, _, if_pos hask, wideReturn_spec s _ _ _ _, startUp_spec _ 6⟩

/-! ## VAON lost -/

/-- R370: the array after VAON fell while an entry was being written at the head, and the free value drawn for it. -/
def entryTorn (s : State) : State :=
  match s.jrn.staging with
  | e :: _ =>
    if nvOn s && !s.power.hush && !s.power.nvWarn then
      let d := freeDraw s
      arrPut d.2 s.jrn.head.toNat ((arrGet s s.jrn.head.toNat &&& d.1) ||| (entryBits e (passOdd s) &&& ~~~ d.1))
    else s
  | [] => s

theorem powerFall_eq (s : State) : powerFall s =
    powMod (jrnMod (entryTorn s) (fun j => { j with staging := [], queue := [], waiting := [], lastTs := none }))
      (fun p => { p with mode := .unpowered, req := none, hush := false }) := rfl

/-- Nothing is torn while no entry is being written. -/
theorem entryTorn_idle (h : s.jrn.staging = [] ∨ nvOn s = false ∨ s.power.hush = true ∨ s.power.nvWarn = true) : entryTorn s = s := by
  unfold entryTorn
  split
  · next e rest hst =>
      refine if_neg ?_
      rcases h with h | h | h | h
      · exact absurd (hst.symm.trans h) nofun
      all_goals simp [h]
  · rfl

/-- R370: the entry at the head, and no other, may be torn. -/
theorem entryTorn_spec (s : State) : (∀ i, i ≠ s.jrn.head.toNat → arrGet (entryTorn s) i = arrGet s i) ∧
    entryTorn s = { s with jrn := { s.jrn with array := (entryTorn s).jrn.array }, freeCount := (entryTorn s).freeCount } := by
  unfold entryTorn
  split
  · split
    · exact ⟨fun i hi => arr_tset s _ _ _ hi, rfl⟩
    · exact ⟨fun _ _ => rfl, rfl⟩
  · exact ⟨fun _ _ => rfl, rfl⟩

theorem powerOn_falls (h : s.power.mode ≠ .unpowered) : exec (.powerOn false) s = .next (powerFall s) := by
  show Host.Outcome.next (if s.power.mode = .unpowered then s else powerFall s) = _
  rw [if_neg h]

theorem vaonLossTearsTheEntry : Rules.VaonLossTearsTheEntry := by
  intro s hpower
  obtain ⟨harr, heq⟩ := entryTorn_spec s
  refine ⟨powerFall s, powerOn_falls hpower, rfl, rfl, rfl, harr, fun hidle => ?_, ?_⟩
  · show arrGet (entryTorn s) s.jrn.head.toNat = _
    rw [entryTorn_idle hidle]
  · rw [powerFall_eq, heq]; rfl

/-- Settles O33: each start runs startUp with its cause; the loss of VAON tears at most the entry at the head (entryTorn). -/
theorem startUpAndPowerLoss : Obligations.StartUpAndPowerLoss := ⟨startUpFollows, vaonLossTearsTheEntry⟩

end Sys2Proof.Machine
end

section
/-!
The supply and wake family: the pins of the supply, and the end of a hush (R283, R285, R303, R305, R307, R308, R335).
-/
namespace Sys2Proof.Machine

variable {s u t : State} {status : Half} {vcore vaon : Bool} {minv : BitVec 11} {duration : BitVec 20}

/-! ## Pins -/

/-- R285: what RALERT_N's fall leaves of the power side. -/
def alerted (s : State) (status : Half) : State := { s with power := { s.power with alertLow := true, alertGot := true, lastWord := status } }

theorem ralert_falls (hpower : s.power.mode ≠ .unpowered) (hhigh : s.power.alertLow = false) : exec (.ralert status) s =
    .next (if status &&& 0xE8FE = 0 then alerted s status else raiseFault (alerted s status) srcCHIP fREGLINK status) :=
  if_neg (by simp [hpower, hhigh])

theorem supplyWarning_hushes (hpower : s.power.mode ≠ .unpowered) (hlow : (vcore && vcoreOn s || vaon) = true) :
    exec (.supplyWarning vcore vaon) s = .next { s with power := { s.power with
      vcWarn := s.power.vcWarn || (vcore && vcoreOn s), aonWarn := s.power.aonWarn || vaon, hush := true,
      hushAon := if s.power.hush then s.power.hushAon else vaon } } := by
  have hsome : ¬((vcore && vcoreOn s) = false ∧ vaon = false) := by
    rintro ⟨hvcore, hvaon⟩
    rw [hvcore, hvaon] at hlow; cases hlow
  exact if_neg (by simp only [hpower, false_or]; exact hsome)

theorem vioIsLow_vioSet (s : State) (k j : Nat) (low : Bool) : vioIsLow (vioSet s k low) j = if j = k then low else vioIsLow s j :=
  tget_tset ..

theorem supplyPinsAreLatched : Rules.SupplyPinsAreLatched := by
  intro s status level vcore vaon k hpower
  refine ⟨rfl, rfl, fun hhigh => ⟨fun hgood => ?_, fun hbad hplain => ?_⟩, if_neg hpower, fun hc => ?_, supplyWarning_hushes hpower,
    ⟨_, rfl, fun j => vioIsLow_vioSet s k j false, rfl⟩⟩
  · rw [ralert_falls hpower hhigh, if_pos hgood]; rfl
  · refine ⟨_, ralert_falls hpower hhigh, ?_⟩
    rw [if_neg hbad]
    exact raiseFault_plain status (hplain.congr rfl rfl rfl rfl)
  · have hcalm : (powMod s fun p => { p with nvWarn := false }).calm := hc
    show Host.Outcome.next (settle (powMod s fun p => { p with nvWarn := false })) = _
    rw [settle_calm hcalm]; rfl

/-! ## The end of a hush -/

/-- R308: what BROWN and the supply flags read once the hush is over. -/
def hushOver (s : State) : State :=
  powMod s (fun p => { p with hush := false, vcWarn := false, aonWarn := false, seen := true,
                              browns := if p.browns = 255 then 255 else p.browns + 1 })

/-- R305, R308: the end of the hush with its event and its entry. -/
def hushEntered (s : State) (minv : BitVec 11) (duration : BitVec 20) : State :=
  jHw (if s.power.seen then hushOver s else raiseEvent (hushOver s) evBROWN) kHARDWARE (tidHost 0x1B)
    (hushValue s.power.hushAon minv duration) false

theorem hushEnd_ends (h : s.power.hush = true) :
    exec (.hushEnd minv duration) s = .next (settle (hushResume (hushEntered s minv duration))) := if_neg (by simp [h])

theorem hushEvent_counts (s : State) : CountsOnly (hushOver s) (if s.power.seen then hushOver s else raiseEvent (hushOver s) evBROWN) := by
  split
  · exact .refl _
  · exact raiseEvent_shape ..

theorem CountsOnly.nvOn (h : CountsOnly s t) : Machine.nvOn t = Machine.nvOn s := by unfold Machine.nvOn domOn domGet; rw [h.doms]

theorem CountsOnly.hwRoom (h : CountsOnly s t) : Machine.hwRoom t = Machine.hwRoom s := by
  unfold Machine.hwRoom; rw [h.nvOn, h.jrn]

theorem JournalOnly.domsStill (h : JournalOnly s t) (hc : s.calm) (hs : s.domsStill) : t.domsStill :=
  domsStill_congr (by rw [h]) hc.2.2.2.2.1 ((h.calm hc).2.2.2.2.1) (by rw [h]) (by rw [h]) hs

theorem JournalOnly.gatesEmpty (h : JournalOnly s t) (hs : Machine.gatesEmpty s) : Machine.gatesEmpty t :=
  gatesEmpty_ring (by rw [h]; exact ⟨rfl, rfl, rfl, rfl⟩) hs

/-- R303: in a chip that is up with nothing to change, no ladder and no move waited for the end of the hush. -/
theorem hushResume_idle (hc : s.calm) (hs : s.domsStill) (hg : gatesEmpty s) (hon : sysOn s = true) : hushResume s = s := by
  have hmode : s.power.mode = .up := hc.1
  have hsys : (domGet s 66).st = .on := of_decide_eq_true hon
  unfold hushResume
  simp [hmode, hsys, evalDoms_still hs, seamPumps_idle hg]

theorem hushEndIsJournaled : Rules.HushEndIsJournaled := by
  intro s minv duration hc hs hg hon hn hroom hhush
  have hevent := hushEvent_counts s
  have hjrn : JournalOnly (hushOver s) (hushEntered s minv duration) := hevent.toJournal.trans (jHw_shape ..)
  have hcalm : (hushEntered s minv duration).calm := hjrn.calm (s := hushOver s) hc
  have hstill : (hushEntered s minv duration).domsStill :=
    hjrn.domsStill (s := hushOver s) hc (domsStill_congr rfl hc.2.2.2.2.1 hc.2.2.2.2.1 rfl rfl hs)
  have hresume : hushResume (hushEntered s minv duration) = hushEntered s minv duration :=
    hushResume_idle hcalm hstill (hjrn.gatesEmpty (s := hushOver s) hg) (hjrn.sysOn'.trans hon)
  refine ⟨hushEntered s minv duration, ?_, hjrn, ?_, fun hseen => ?_⟩
  · rw [hushEnd_ends hhush, hresume, settle_calm hcalm]
  · have hstages := jHw_stages kHARDWARE (tidHost 0x1B) (hushValue s.power.hushAon minv duration) false (hevent.nvOn.trans hn)
      (hevent.hwRoom.trans hroom)
    exact hstages.from (by rw [hevent.jrn]; rfl) (by rw [hevent.time]; rfl)
  · refine jHw_keeps _ _ _ _ _ _ ?_
    rw [if_neg (by simp [hseen])]
    exact raiseEvent_on (s := hushOver s) hon evBROWN (by decide)

/-- Settles O34: the pins are latched by their own rows, and the end of a hush is hushEntered. -/
theorem suppliesAreWatched : Obligations.SuppliesAreWatched := ⟨supplyPinsAreLatched, hushEndIsJournaled⟩

end Sys2Proof.Machine
end

section
/-!
The supply and wake family: the read that acknowledges a voltage request, and the end of REGTO (R283, R284, R289, R291, R292, R295, R296).
-/
namespace Sys2Proof.Machine

variable {s t : State} {ack : Bool} {status : Half} {q : VReq} {why : LadderWhy} {r : BitVec 2}

/-! ## Reads of STATUS_WORD -/

/-- R283: what a read leaves of the power side whatever it says; the next read starts at once. -/
def statusRead (s : State) (ack : Bool) (status : Half) : State :=
  powMod s (fun p => { p with pgoodRun := s.power.pgoodNow, lastWord := if ack then status else s.power.lastWord })

theorem pollAcks_iff : pollAcks s ack status = true ↔ ack = true ∧ s.power.pgoodRun = true ∧ status &&& 0xE8FE = 0 := by
  simp [pollAcks, and_assoc]

theorem regulatorPoll_waits (hreq : s.power.req = some q) (hbad : ¬ pollAcks s ack status = true) :
    exec (.regulatorPoll ack status) s = .next (statusRead s ack status) := by
  show execRegulatorPoll ack status s = _
  unfold execRegulatorPoll
  simp only [hreq, if_neg hbad]; rfl

theorem regulatorPoll_acks (hreq : s.power.req = some q) (hgood : pollAcks s ack status = true) :
    exec (.regulatorPoll ack status) s = match q with
      | .move _ new => .next (settle (endMove (statusRead s ack status) new))
      | .ladder _ => .next (regRungDone (statusRead s ack status)) := by
  show execRegulatorPoll ack status s = _
  unfold execRegulatorPoll
  simp only [hreq, if_pos hgood]
  cases q <;> rfl

/-- R292, R303: the chip's regulator rung is ready. -/
theorem regRungDone_ladder (hmode : s.power.mode = .ladder why r) : regRungDone s = { s with power :=
    if s.power.hush then { s.power with req := none, regDone := true }
    else { s.power with req := none, regDone := false, mode := .ladder why 1 } } := by
  unfold regRungDone powMod
  rw [hmode]
  dsimp only
  split <;> rfl

theorem PstateBecomes.power {p : Power} (h : PstateBecomes s t p) : t.power = p := by obtain ⟨-, -, heq⟩ := h; rw [heq]

/-- A change of PSTATE that leaves the power it was told to take leaves a calm chip. -/
theorem PstateBecomes.calm {p : Power} (h : PstateBecomes s t p) (ha : s.awake) (hmode : p.mode = .up) (hmoving : p.moving = none)
    (hcode : p.code = p.lvl) (hup : 2 ≤ p.code.toNat) : t.calm := by
  have hpower := h.power
  obtain ⟨-, -, heq⟩ := h
  have hawake : (t.time.patrol, t.sys.portRst, t.sys.held) = (s.time.patrol, s.sys.portRst, s.sys.held) := by rw [heq]
  obtain ⟨-, -, hpatrol, hrst, hheld⟩ := ha
  rw [hpatrol, hrst, hheld] at hawake
  simp only [Prod.mk.injEq] at hawake
  unfold State.calm
  rw [hpower]
  exact ⟨hmode, hcode, hup, hmoving, hawake⟩

theorem delaysDue_calm (h : s.calm) : (delaysDue s).calm := by
  obtain ⟨-, heq⟩ := delaysDue_spec s
  generalize delaysDue s = t at heq ⊢
  rw [heq]; exact h

/-- R289 steps 5 and 6, R299: what a change to state c leaves of the power side. -/
def moveEnded (c : BitVec 3) (p : Power) : Power :=
  { p with req := none, second := false, assist := assistOf c.toNat, bias := biasOf c.toNat, lvl := c, cur := if p.limp then p.cur else c }

theorem endMove_eq (s : State) (c : BitVec 3) : endMove s c = delaysDue (setPstate s (moveEnded c)) := rfl

/-- R289: a change that is acknowledged ends, with every router's delay lines due. -/
theorem endMove_spec (ha : s.awake) (hup : 2 ≤ s.power.code.toNat) (hroom : hwRoom s = true) :
    ∃ u, PstateBecomes s u (moveEnded s.power.code s.power) ∧ settle (endMove s s.power.code) = delaysDue u := by
  have hset := setPstate_spec (moveEnded s.power.code) hroom
  have hcalm := hset.calm ha ha.1 ha.2.1 rfl hup
  exact ⟨_, hset, by rw [endMove_eq, settle_calm (delaysDue_calm hcalm)]⟩

theorem voltageRequestIsPolled : Rules.VoltageRequestIsPolled := by
  intro s ack status q hreq
  refine ⟨fun hbad => regulatorPoll_waits hreq (mt pollAcks_iff.mp hbad), fun c why r hgood hq hmode => ?_,
    fun old new hgood hq ha hcode hup hroom => ?_⟩
  · subst hq
    rw [regulatorPoll_acks hreq (pollAcks_iff.mpr hgood)]
    exact congrArg _ (regRungDone_ladder (s := statusRead s ack status) hmode)
  · subst hq hcode
    obtain ⟨u, hu, hend⟩ := endMove_spec (s := statusRead s ack status) ha hup hroom
    obtain ⟨hdue, hmesh⟩ := delaysDue_spec u
    have hsame : u.mesh = s.mesh := by obtain ⟨-, -, heq⟩ := hu; rw [heq]; rfl
    refine ⟨delaysDue u, u, ?_, hu, fun r => ?_, ?_⟩
    · rw [regulatorPoll_acks hreq (pollAcks_iff.mpr hgood)]
      exact congrArg _ hend
    · have hdelay : delayGet u r = delayGet s r := by unfold delayGet; rw [hsame]
      rw [hdue, hdelay]
    · rw [← hsame]; exact hmesh

/-! ## REGTO -/

theorem regtoExpiry_repeats (hreq : s.power.req = some q) (hfirst : s.power.second = false) :
    exec .regtoExpiry s = .next { s with power := { s.power with second := true, pgoodRun := s.power.pgoodNow } } := by
  show execRegtoExpiry s = _
  unfold execRegtoExpiry
  rw [hreq]
  exact if_pos hfirst

theorem regtoExpiry_move {old new : BitVec 3} (hreq : s.power.req = some (.move old new)) (hsecond : s.power.second = true) :
    exec .regtoExpiry s = .next (settle (moveFail s)) := by
  show execRegtoExpiry s = _
  unfold execRegtoExpiry
  simp only [hreq, hsecond, Bool.true_eq_false, if_false]

theorem regtoExpiry_ladder {c : BitVec 3} (hreq : s.power.req = some (.ladder c)) (hsecond : s.power.second = true)
    (hmode : s.power.mode = .ladder why r) : exec .regtoExpiry s = .next (settle (ladderFail s why)) := by
  show execRegtoExpiry s = _
  unfold execRegtoExpiry
  simp only [hreq, hsecond, hmode, Bool.true_eq_false, if_false]

/-- R291: an abandoned change goes back to the voltage it has, and raises its fault. -/
theorem moveFail_spec (ha : s.awake) (hup : 2 ≤ s.power.lvl.toNat) (hn : nvOn s = true) (hl : s.jrn.staging.length < 68)
    (hplain : FaultPlain s srcCHIP fREGLINK) :
    ∃ u, PstateBecomes s u { s.power with req := none, second := false, bias := .zero, assist := true, code := s.power.lvl } ∧
      FaultRaised u (moveFail s) srcCHIP fREGLINK s.power.lastWord ∧ (moveFail s).calm := by
  have hset := setPstate_spec (fun p => { p with req := none, second := false, bias := .zero, assist := true, code := p.lvl }) hplain.1
  have hraised := raiseFault_plain s.power.lastWord (pstate_plain hset hn hl hplain)
  have hcalm := hset.calm ha ha.1 ha.2.1 rfl hup
  exact ⟨_, hset, hraised, hraised.2.2.2.2.calm hcalm⟩

/-- The power side once the chip's regulator rung has failed in the ladder of a reset or of leaving TACKING (R295, R296). -/
def rungLost (p : Power) : Power :=
  { p with mode := .deep, cur := 0, lvl := if p.limp then p.lvl else 0, ladderBad := true, assist := false, bias := .zero }

theorem ladderFail_deep (hwhy : why ≠ .patrol) : ladderFail s why =
    powMod (raiseFault (powMod s (fun p => { p with req := none, second := false, operOn := false })) srcCHIP fREGRUNG 0) rungLost := by
  cases why with
  | patrol => exact absurd rfl hwhy
  | reset _ => rfl
  | leaveTack => rfl

theorem powerEval_deep (h : s.power.mode = .deep) : powerEval s = s := by
  unfold powerEval
  simp [h]

theorem voltageRequestTimesOut : Rules.VoltageRequestTimesOut := by
  intro s q hreq
  refine ⟨regtoExpiry_repeats hreq, fun old new hq hsecond ha hup hn hl hplain => ?_,
    fun c why r hq hmode hwhy hsecond hmoving hpatrol hrst hheld hplain => ?_⟩
  · subst hq
    obtain ⟨u, hu, hraised, hcalm⟩ := moveFail_spec ha hup hn hl hplain
    exact ⟨_, u, by rw [regtoExpiry_move hreq hsecond, settle_calm hcalm], hu, hraised⟩
  · subst hq
    have hraised := raiseFault_plain 0
      (hplain.congr (t := powMod s (fun p => { p with req := none, second := false, operOn := false })) rfl rfl rfl rfl)
    rw [regtoExpiry_ladder hreq hsecond hmode, ladderFail_deep hwhy]
    generalize raiseFault (powMod s fun p => { p with req := none, second := false, operOn := false }) srcCHIP fREGRUNG 0 = u at hraised
    have hframe := hraised.2.2.2.2
    have hpower : u.power = { s.power with req := none, second := false, operOn := false } := by rw [hframe]; rfl
    refine ⟨_, u, congrArg _ (settle_still ?_ ?_ ?_ ?_ (powerEval_deep rfl)), hraised, ?_⟩
    · show u.power.moving = none
      rw [hpower]; exact hmoving
    · show u.time.patrol = none
      rw [hframe]; exact hpatrol
    · show u.sys.portRst = none
      rw [hframe]; exact hrst
    · show u.sys.held = []
      rw [hframe]; exact hheld
    · unfold powMod; rw [hpower]; rfl

/-- Settles O40: an acknowledged request ends its rung or its change (endMove_spec); the second REGTO fails the one (ladderFail) or abandons the
other (moveFail_spec). -/
theorem voltageRequests : Obligations.VoltageRequests := ⟨voltageRequestIsPolled, voltageRequestTimesOut⟩

end Sys2Proof.Machine
end

section
/-!
The tacking family: steps of the RTC and its loss, the start of a patrol, and the test of what a patrol read (R312, R318, R321 to R324, R327, R329).
-/
namespace Sys2Proof.Machine

variable {s t : State} {k : Nat} {d : Word} {st : Status}

/-! ## Steps of the RTC -/

theorem rtcAdvance_wraps {m : Time} (h : m.rtcFr = 1023) :
    rtcAdvance m = { m with rtcSec := m.rtcSec + 1, rtcFr := 0, rtcHalt := false } := if_pos h

theorem rtcAdvance_counts {m : Time} (h : m.rtcFr ≠ 1023) : rtcAdvance m = { m with rtcFr := m.rtcFr + 1, rtcHalt := false } := if_neg h

/-- R312: the seconds change with the 1,024th step. -/
theorem rtcAdvance_sec_ne (m : Time) : (rtcAdvance m).rtcSec ≠ m.rtcSec ↔ m.rtcFr = 1023 := by
  by_cases h : m.rtcFr = 1023
  · rw [rtcAdvance_wraps h]
    exact iff_of_true (by simp) h
  · rw [rtcAdvance_counts h]
    exact iff_of_false (fun hne => hne rfl) h

theorem rtcAdvance_patrol (m : Time) : (rtcAdvance m).patrol = m.patrol ∧ (rtcAdvance m).armed = m.armed ∧ (rtcAdvance m).alSec = m.alSec ∧
    (rtcAdvance m).alFr = m.alFr := by
  unfold rtcAdvance
  split <;> exact ⟨rfl, rfl, rfl, rfl⟩

/-- The alarm does not fire on this state of the RTC (R314). -/
def alarmQuiet (m : Time) : Prop := m.armed = false ∨ ¬(m.alSec ++ m.alFr ≤ m.rtcSec ++ m.rtcFr)

theorem alarmCompare_quiet (h : alarmQuiet s.time) : alarmCompare s = s := by
  refine if_neg ?_
  rw [Bool.and_eq_true, decide_eq_true_eq]
  rintro ⟨harmed, hpast⟩
  rcases h with h | h
  · rw [harmed] at h; cases h
  · exact h hpast

/-- R327: a chip that is up counts no patrol interval. -/
theorem patrolCount_calm (h : s.calm) (fired : Bool) : patrolCount s fired = s := by
  obtain ⟨hmode, -, -, -, hpatrol, -⟩ := h
  exact if_neg (by simp [hmode, hpatrol])

/-- R318: the full seconds are those of an hour, and NV takes the anchor. -/
def hourDue (s : State) : Prop :=
  s.time.rtcFr = 1023 ∧ (rtcAdvance s.time).rtcSec ≠ 0 ∧ (rtcAdvance s.time).rtcSec.toNat % 3600 = 0 ∧ nvOn s = true

/-- R312, R318: the step of the RTC, with the anchor of a full hour. -/
def rtcStepped (s : State) : State :=
  if (rtcAdvance s.time).rtcSec ≠ s.time.rtcSec ∧ (rtcAdvance s.time).rtcSec ≠ 0 ∧ (rtcAdvance s.time).rtcSec.toNat % 3600 = 0 ∧ nvOn s = true then
    anchor (timeMod s rtcAdvance) aHOURLY
  else timeMod s rtcAdvance

theorem rtcStepped_hour (h : hourDue s) : rtcStepped s = anchor (timeMod s rtcAdvance) aHOURLY :=
  if_pos (by rw [rtcAdvance_sec_ne]; exact h)

theorem rtcStepped_plain (h : ¬ hourDue s) : rtcStepped s = timeMod s rtcAdvance := if_neg (by rw [rtcAdvance_sec_ne]; exact h)

theorem rtcStepped_shape (s : State) : JournalOnly (timeMod s rtcAdvance) (rtcStepped s) := by
  unfold rtcStepped
  split
  · exact anchor_shape ..
  · exact .refl _

theorem rtcStep_powered (hpower : s.power.mode ≠ .unpowered) : exec .rtcStep s = .next (settle (alarmCompare (patrolCount (rtcStepped s)
    ((rtcStepped s).time.armed && decide (((rtcStepped s).time.alSec ++ (rtcStepped s).time.alFr : BitVec 42) ≤
      (rtcStepped s).time.rtcSec ++ (rtcStepped s).time.rtcFr))))) := if_neg hpower

/-- In a calm chip whose alarm does not fire, the step is all that happens. -/
theorem rtcStep_calm (hc : s.calm) (hquiet : alarmQuiet (rtcAdvance s.time)) : exec .rtcStep s = .next (rtcStepped s) := by
  obtain ⟨hpatrol, -⟩ := rtcAdvance_patrol s.time
  have hj := rtcStepped_shape s
  have hcalm : (rtcStepped s).calm := hj.calm (calm_congr (s := s) rfl hpatrol rfl rfl hc)
  have htime : (rtcStepped s).time = rtcAdvance s.time := by rw [hj]; rfl
  rw [rtcStep_powered (by rw [hc.1]; nofun), patrolCount_calm hcalm, alarmCompare_quiet (htime ▸ hquiet), settle_calm hcalm]

/-- R318: the anchor of a full hour names its seconds, with fraction 0. -/
theorem anchor_hour (h : hourDue s) (hroom : hwRoom s = true) :
    StagesOne s (anchor (timeMod s rtcAdvance) aHOURLY) kRESET (BitVec.ofNat 6 aHOURLY ++ 0#10) (rtcAdvance s.time).rtcSec := by
  obtain ⟨hfr, -, -, hn⟩ := h
  have hstage := jHw_stages (s := timeMod s rtcAdvance) kRESET (BitVec.ofNat 6 aHOURLY ++ (rtcAdvance s.time).rtcFr)
    (rtcAdvance s.time).rtcSec true hn hroom
  have hadv := rtcAdvance_wraps hfr
  have hfr0 : (rtcAdvance s.time).rtcFr = 0 := by rw [hadv]
  have hts : (timeMod s rtcAdvance).time.ts = s.time.ts := by
    show (rtcAdvance s.time).ts = _
    rw [hadv]
  rw [hfr0] at hstage
  refine StagesOne.from (s0 := timeMod s rtcAdvance) ?_ rfl hts
  unfold anchor
  rw [show (timeMod s rtcAdvance).time = rtcAdvance s.time from rfl, hfr0]
  exact hstage

theorem rtcSteps : Rules.RtcSteps := by
  intro s hc hquiet
  have hquiet' : alarmQuiet (rtcAdvance s.time) := by
    obtain ⟨-, harmed, hsec, hfr⟩ := rtcAdvance_patrol s.time
    unfold alarmQuiet; rw [harmed, hsec, hfr]; exact hquiet
  refine ⟨fun hnot => ?_, fun hhour hroom => ⟨_, rtcStep_calm hc hquiet', ?_, ?_⟩⟩
  · rw [rtcStep_calm hc hquiet', rtcStepped_plain hnot]; rfl
  · exact rtcStepped_shape s
  · rw [rtcStepped_hour hhour]; exact anchor_hour hhour hroom

/-! ## The RTC lost -/

theorem rtcStopDetect_runs (hrun : tsRuns s = true) (hhalt : s.time.rtcHalt = false) : exec .rtcStopDetect s =
    .next (raiseFault (timeMod s (fun m => { m with rtcstop := true, rtcHalt := true })) srcCHIP fRTCSTOP 0) :=
  if_pos (by rw [hrun, hhalt]; rfl)

theorem stoppedRtcIsAFault : Rules.StoppedRtcIsAFault :=
  fun _ hrun hhalt hplain => ⟨_, rtcStopDetect_runs hrun hhalt, raiseFault_plain 0 (hplain.congr rfl rfl rfl rfl)⟩

/-- Settles O44: a step is rtcStepped, with the anchor of a full hour; a stopped RTC raises one fault. -/
theorem rtcStepsOrStops : Obligations.RtcStepsOrStops := ⟨rtcSteps, stoppedRtcIsAFault⟩

/-! ## A patrol starts -/

/-- R292, R310: the chip ladder of a patrol, when no hush holds its first rung. -/
theorem chipLadder_patrol (hhush : s.power.hush = false) : chipLadder s .patrol = { s with
    time := { s.time with ts := 0, isoCount := 0, bwCount := 0 }, jrn := { s.jrn with newRun := true }
    power := { s.power with mode := .ladder .patrol 0, regDone := false, second := false, vout := mantissa s.power.trim 3, operOn := true,
                            req := some (.ladder 3), pgoodRun := s.power.pgoodNow } } := if_neg (by simp [hhush])

theorem patrolStarts : Rules.PatrolStarts := by
  intro s hmode hdue hhush
  have hgo : exec .patrolDue s = .next (patrolStart s) := if_pos (by simp [hmode, hdue, hhush])
  rw [hgo]
  exact congrArg _ (chipLadder_patrol hhush)

/-! ## What a step read -/

theorem patrolPump_hushed (hnext : s.time.patrol = some (.next k)) (hhush : s.power.hush = true) : patrolPump s = s := by
  unfold patrolPump
  rw [hnext]
  exact if_pos hhush

theorem powerEval_hushed (hhush : s.power.hush = true) : powerEval s = s := if_pos (by simp [hhush])

/-- In a hush a patrol that waits for its next step goes on waiting. -/
theorem settle_hushed (hnext : s.time.patrol = some (.next k)) (hhush : s.power.hush = true) (hmoving : s.power.moving = none)
    (hrst : s.sys.portRst = none) (hheld : s.sys.held = []) : settle s = s := by
  have hdown : downCheck s = s := by unfold downCheck; rw [hmoving]
  have hport : portRstGo s = s := by unfold portRstGo; rw [hrst]
  unfold settle upkeep
  rw [hdown, powerEval_hushed hhush, patrolPump_hushed hnext hhush, hport, heldPump_calm _ hheld]

/-- R303: in a hush the next step waits. -/
theorem tackNext_hushed (hk : k < s.time.lastStep.toNat) (hhush : s.power.hush = true) :
    tackNext s k = timeMod s (fun m => { m with patrol := some (.next (k + 1)) }) := by
  unfold tackNext
  rw [if_pos hk]
  exact patrolPump_hushed (k := k + 1) rfl hhush

theorem settle_tackNext (hk : k < s.time.lastStep.toNat) (hhush : s.power.hush = true) (hmoving : s.power.moving = none)
    (hrst : s.sys.portRst = none) (hheld : s.sys.held = []) :
    settle (tackNext s k) = timeMod s (fun m => { m with patrol := some (.next (k + 1)) }) := by
  rw [tackNext_hushed hk hhush]
  exact settle_hushed (k := k + 1) rfl hhush hmoving hrst hheld

/-- R323: the answer to the step's READ is taken. -/
def answerTaken (s : State) : State := timeMod s (fun m => { m with tackRes := none })

theorem tackReadDone_takes (hreading : s.time.patrol = some (.reading k)) (hres : s.time.tackRes = some (st, d)) :
    exec .tackReadDone s =
      if st = .ok then .next (settle (tackTest (answerTaken s) k d))
      else .next (settle (tackNext (timeMod (answerTaken s) (fun m => { m with merr := true })) k)) := by
  show execTackReadDone s = _
  unfold execTackReadDone
  simp only [hreading, hres]
  rfl

/-- R320 to R322: does the word that step k read match under its OP? -/
def stepHit (s : State) (k : Nat) (d : Word) : Bool :=
  tackMatch (fieldNat (tdest s k) 16 3) d (cfgGet s 0x83 (0x12 + 8 * k)) (cfgGet s 0x83 (0x13 + 8 * k)) (tget (fun _ => 0) s.time.lastv k)
    (s.time.lvalid.getLsbD k)

/-- R320: the word is kept as the step's last value. -/
def lastKept (s : State) (k : Nat) (d : Word) : State :=
  timeMod s (fun m => { m with lastv := tset (fun _ => 0) m.lastv k d, lvalid := m.lvalid ||| (1 <<< k) })

theorem tackTest_miss (h : stepHit s k d = false) : tackTest s k d = tackNext (lastKept s k d) k := if_pos h

/-- R322: the match is flagged, and the word kept for its entry. -/
def matchKept (s : State) (k : Nat) (d : Word) : State :=
  timeMod (lastKept s k d) (fun m => { m with mmatch := true, mstep := BitVec.ofNat 3 k, matches_ := m.matches_ ++ [(k, d)] })

theorem tackTest_records (h : stepHit s k d = true) (hact : fieldNat (tact s k) 0 2 = 0) : tackTest s k d =
    tackNext (matchKept s k d) k := by
  unfold tackTest
  show (if stepHit s k d = false then _ else _) = _
  rw [if_neg (by simp [h]), hact]
  rfl

theorem patrolReadIsTested : Rules.PatrolReadIsTested := by
  intro s k st d hreading hres hk hhush hmoving hrst hheld
  refine ⟨fun hbad => ?_, fun hok hmiss => ?_, fun hok hhit hact => ?_⟩
  · rw [tackReadDone_takes hreading hres, if_neg hbad]
    exact congrArg _ (settle_tackNext (s := timeMod (answerTaken s) _) hk hhush hmoving hrst hheld)
  · rw [tackReadDone_takes hreading hres, if_pos hok, tackTest_miss (s := answerTaken s) hmiss]
    exact congrArg _ (settle_tackNext (s := lastKept (answerTaken s) k d) hk hhush hmoving hrst hheld)
  · rw [tackReadDone_takes hreading hres, if_pos hok, tackTest_records (s := answerTaken s) hhit hact]
    rw [settle_tackNext (s := matchKept (answerTaken s) k d) hk hhush hmoving hrst hheld]
    simp only [matchKept, lastKept, answerTaken, timeMod]

/-- Settles O45: a due patrol asks for the voltage of ECO, and a read is tested as stepHit says. -/
theorem patrolsReadAndTest : Obligations.PatrolsReadAndTest := ⟨patrolStarts, patrolReadIsTested⟩

end Sys2Proof.Machine
end

section
/-!
The journal family: the oldest staged entry is written into the array, and again after a failed read-back (R368, R369).
-/
namespace Sys2Proof.Machine

variable {s t u : State} {pick : Nat} {e : Entry} {rest : List Entry} {w : BitVec 128}

/-! ## The head moves on -/

/-- t is s but for the array and its head, with what counts its wear, and the pending host events. -/
def HeadOnly (s t : State) : Prop :=
  t = { s with
    jrn := { s.jrn with array := t.jrn.array, head := t.jrn.head, passes := t.jrn.passes, hdrHead := t.jrn.hdrHead, hdrPass := t.jrn.hdrPass,
                        level := t.jrn.level }
    sys := { s.sys with event := t.sys.event, eventLate := t.sys.eventLate } }

theorem HeadOnly.open (h : HeadOnly s t) : ∃ a n p hh hp l ev late, t = { s with
    jrn := { s.jrn with array := a, head := n, passes := p, hdrHead := hh, hdrPass := hp, level := l }
    sys := { s.sys with event := ev, eventLate := late } } := ⟨_, _, _, _, _, _, _, _, h⟩

/-- R368, R369: from s to t the head moved on by one, with PASSES at the wrap and the header store every 4,096 entries; no other index changed. -/
def HeadAdvances (s t : State) : Prop :=
  t.jrn.head = s.jrn.head + 1 ∧ t.jrn.passes = (if s.jrn.head + 1 = 0 then s.jrn.passes + 1 else s.jrn.passes) ∧
  (∀ i, i ≠ s.jrn.head.toNat → arrGet t i = arrGet s i) ∧
  (t.jrn.hdrHead = if (s.jrn.head + 1).toNat % 4096 = 0 then s.jrn.head + 1 else s.jrn.hdrHead) ∧
  (t.jrn.hdrPass = if (s.jrn.head + 1).toNat % 4096 = 0 then t.jrn.passes else s.jrn.hdrPass)

/-- The word w is written at the head, and the head moves on. -/
def headWritten (s : State) (w : BitVec 128) : State := headAdvance (arrPut s s.jrn.head.toNat w)

theorem headWritten_spec (s : State) (w : BitVec 128) :
    HeadAdvances s (headWritten s w) ∧ arrGet (headWritten s w) s.jrn.head.toNat = w ∧ HeadOnly s (headWritten s w) := by
  obtain ⟨hjrn, hframe⟩ := headAdvance_spec (arrPut s s.jrn.head.toNat w)
  have hget : ∀ i, arrGet (headWritten s w) i = tget (fun _ => 0) (tset (fun _ => 0) s.jrn.array s.jrn.head.toNat w) i := fun i => by
    unfold arrGet headWritten; rw [hjrn]; rfl
  refine ⟨⟨?_, ?_, fun i hi => (hget i).trans (arr_tset s _ i w hi), ?_, ?_⟩, (hget _).trans (tget_tset_same ..), ?_⟩
  all_goals unfold headWritten
  · rw [hjrn]; rfl
  · rw [hjrn]; rfl
  · rw [hjrn]; rfl
  · rw [hjrn]; rfl
  · unfold HeadOnly
    generalize headAdvance (arrPut s s.jrn.head.toNat w) = t at hjrn hframe
    have hparts : t.jrn = { s.jrn with array := t.jrn.array, head := t.jrn.head, passes := t.jrn.passes, hdrHead := t.jrn.hdrHead,
                                       hdrPass := t.jrn.hdrPass, level := t.jrn.level } := by rw [hjrn]; rfl
    rw [hparts] at hframe
    exact hframe

/-! ## The entry is written -/

/-- R366, R368: the oldest entry stands at the head, and leaves staging. -/
def entryLeaves (s : State) (e : Entry) (rest : List Entry) : State :=
  jrnMod (headWritten s (entryBits e (passOdd s))) (fun j => { j with staging := rest })

theorem entryLeaves_spec (s : State) (e : Entry) (rest : List Entry) :
    HeadAdvances s (entryLeaves s e rest) ∧ arrGet (entryLeaves s e rest) s.jrn.head.toNat = entryBits e (s.jrn.passes.getLsbD 0) ∧
    (∃ a n p hh hp l ev late, entryLeaves s e rest = { s with
      jrn := { s.jrn with array := a, head := n, passes := p, hdrHead := hh, hdrPass := hp, level := l, staging := rest }
      sys := { s.sys with event := ev, eventLate := late } }) := by
  obtain ⟨hadv, hword, hframe⟩ := headWritten_spec s (entryBits e (passOdd s))
  unfold entryLeaves
  generalize headWritten s (entryBits e (passOdd s)) = u at hadv hword hframe
  obtain ⟨a, n, p, hh, hp, l, ev, late, heq⟩ := hframe.open
  exact ⟨hadv, hword, a, n, p, hh, hp, l, ev, late, by rw [heq]; rfl⟩

theorem journalArrayWrite_good (hn : nvOn s = true) (hhush : s.power.hush = false) (hwarn : s.power.nvWarn = false)
    (hst : s.jrn.staging = e :: rest) :
    exec (.journalArrayWrite true pick) s = .next (settle (voteSettle 600 (admitOne (entryLeaves s e rest) pick))) := by
  show execJournalArrayWrite true pick s = _
  unfold execJournalArrayWrite
  rw [if_neg (by simp [hn, hhush, hwarn]), hst]
  rfl

/-- R367: with nothing that waits for a place, none is admitted. -/
theorem admitOne_idle (hwait : s.jrn.waiting = []) (hstitch : s.sys.stitch = none) (hheld : s.sys.held = []) : admitOne s pick = s := by
  have hhw : admitHw 80 s = s := by unfold admitHw; rw [hwait]
  have hnone : admissible s = [] := by unfold admissible; rw [hheld]; rfl
  unfold admitOne
  rw [hhw, stitchRun_none hstitch]
  dsimp only
  rw [hnone]; rfl

/-- In a calm chip whose staging no change waits for, the write is all that happens. -/
theorem journalArrayWrite_calm (hn : nvOn s = true) (hhush : s.power.hush = false) (hwarn : s.power.nvWarn = false)
    (hst : s.jrn.staging = e :: rest) (hc : s.calm) (hstalls : s.sys.stalls = []) (hstitch : s.sys.stitch = none) (hwait : s.jrn.waiting = []) :
    exec (.journalArrayWrite true pick) s = .next (entryLeaves s e rest) := by
  have hidle : (entryLeaves s e rest).calm ∧ (entryLeaves s e rest).jrn.waiting = [] ∧ (entryLeaves s e rest).sys.stitch = none ∧
      (entryLeaves s e rest).sys.stalls = [] := by
    obtain ⟨-, -, _, _, _, _, _, _, _, _, heq⟩ := entryLeaves_spec s e rest
    rw [heq]
    exact ⟨calm_congr (s := s) rfl rfl rfl rfl hc, hwait, hstitch, hstalls⟩
  obtain ⟨hcalm, hwait', hstitch', hstalls'⟩ := hidle
  rw [journalArrayWrite_good hn hhush hwarn hst, admitOne_idle hwait' hstitch' hcalm.2.2.2.2.2.2, voteSettle_idle hstalls', settle_calm hcalm]

/-! ## The read-back fails -/

/-- R368: the state with one failed index more, whatever its array holds. -/
def failCounted (s : State) : State :=
  { s with jrn := { s.jrn with vfail := if s.jrn.vfail = 0xFFFFFFFF then s.jrn.vfail else s.jrn.vfail + 1 }, freeCount := s.freeCount + 1 }

theorem journalArrayWrite_bad (hn : nvOn s = true) (hhush : s.power.hush = false) (hwarn : s.power.nvWarn = false)
    (hst : s.jrn.staging = e :: rest) :
    exec (.journalArrayWrite false pick) s = .next (headWritten (failCounted s) (freeDraw s).1) := by
  show execJournalArrayWrite false pick s = _
  unfold execJournalArrayWrite
  rw [if_neg (by simp [hn, hhush, hwarn]), hst]
  rfl

theorem stagedEntryIsWritten : Rules.StagedEntryIsWritten := by
  intro s pick e rest hn hhush hwarn hst
  refine ⟨fun hc hstalls hstitch hwait => ?_, ?_⟩
  · obtain ⟨hadv, hword, _, _, _, _, _, _, _, _, heq⟩ := entryLeaves_spec s e rest
    refine ⟨_, journalArrayWrite_calm hn hhush hwarn hst hc hstalls hstitch hwait, hadv, ?_, hword, ?_⟩
    · rw [heq]
    · rw [heq]
  · obtain ⟨hadv, -, hframe⟩ := headWritten_spec (failCounted s) (freeDraw s).1
    rw [journalArrayWrite_bad hn hhush hwarn hst]
    generalize headWritten (failCounted s) (freeDraw s).1 = t at hadv hframe
    obtain ⟨_, _, _, _, _, _, _, _, heq⟩ := hframe.open
    exact ⟨t, rfl, hadv, by rw [heq]; rfl, by rw [heq]; rfl, by rw [heq]; rfl⟩

/-- Settles O46: either way the word is written at the head, which moves on (headWritten_spec). -/
theorem journalEntriesAreWritten : Obligations.JournalEntriesAreWritten := stagedEntryIsWritten

end Sys2Proof.Machine
end

section
/-!
The clock family: the RTC and the alarm are set, the alarm disarmed (R313, R314, R318, R320).
-/
namespace Sys2Proof.Machine
variable {s t x g e : State} {o : Origin} {wd : Wd} {raw old v : Word} {be : BitVec 4} {hd : Half} {net : Net}

theorem JournalOnly.nodesSame (h : JournalOnly s t) : NodesSame s t := by
  obtain ⟨_, _, _, _, rfl⟩ := h.open; exact ⟨rfl, fun _ _ => rfl⟩
theorem JournalOnly.host (h : JournalOnly s t) : t.host = s.host := by rw [h]
theorem JournalOnly.mesh (h : JournalOnly s t) : t.mesh = s.mesh := by rw [h]

/-- R313: what applying the word of the seconds leaves of the RTC. -/
theorem rtcSecs_apply : wordApply x o .rtcSecs old v true = rtcSet (jOrigin x o (tidHost 0x10) (v >>> 16)) v := rfl
theorem alarmSecs_apply : wordApply x o .alarmSecs old v true = alarmSet (jOrigin x o (tidHost 0x12) (v >>> 16)) v := rfl

/-- A word of seconds: one RW field of all 32 bits, which no block keeps asleep. -/
def SecondsWord (s : State) (wd : Wd) (k : Nat) (old : Word) : Prop :=
  ∀ (o : Origin) (raw : Word) (be : BitVec 4) (req : Option (Pkt × Nat)) (x : State), be ≠ 0 → holdsRight s o k = true → jRoom s = true → Taken s x →
    writeWord x o wd raw be req = .done (wordApply x o wd old (mergeWord [fRW 0xFFFFFFFF k] old raw be) true)

theorem rtcSecs_word : SecondsWord s .rtcSecs rAUTHORITY s.time.rtcSec := fun _ _ _ _ _ hbe hR hroom hx =>
  full_write hx hbe (by decide) rfl rfl (congrArg Time.rtcSec hx.time) (fun _ => rfl) rfl hR nofun nofun hroom

theorem alarmSecs_word : SecondsWord s .alarmSecs rPOWER s.time.alSec := fun _ _ _ _ _ hbe hR hroom hx =>
  full_write hx hbe (by decide) rfl rfl (congrArg Time.alSec hx.time) (fun _ => rfl) rfl hR nofun nofun hroom

/-- What holds once a word is applied: neither the host side nor the mesh counts for it, it leaves nothing to settle and SYS as it was. -/
def AccessProof (s : State) (P : State → Prop) : Prop :=
  (∀ g h m, P g → P { g with host := h, mesh := m }) ∧ (∀ g, P g → settle g = g) ∧ ∀ g, P g → sysOn g = sysOn s

/-- The word applied leaves what P says, the host side and the packets at nodes as they were. -/
def Leaves (x : State) (P : State → Prop) (g : State) : Prop := P g ∧ g.host = x.host ∧ NodesSame x g

/-- The host's write of the register that ends a pair of seconds. -/
theorem hostSeconds {ha : BitVec 6} {k : Nat} {P : State → Prop} (hw : s.host.waitLow = false) (hgate : hostGate s ha.toNat = .serve)
    (h0A : ha ≠ 0x0A) (hleft : hostLeft s ha hd = s.host)
    (hperform : ∀ x : State, x.host = { s.host with waitLow := true } → hostPerform x ha.toNat hd = writeWord x .host wd raw 0xF none)
    (hword : SecondsWord s wd k old) (hR : holdsRight s .host k = true) (hroom : jRoom s = true)
    (happly : ∀ x, Taken s x → Leaves x P (wordApply x .host wd old raw true)) (hP : AccessProof s P) :
    ∃ t, settle (hostWrite s ha hd) = t ∧ AccessEnds s t ha (.host hd) ∧ P t := by
  obtain ⟨hfree, hsettle, -⟩ := hP
  obtain ⟨t, hrow, -, hnodes, hhost, hset⟩ := host_row (P := P) hw hgate h0A
    (fun x g _ hh => ⟨(hperform x hh).trans, (hperform x hh).trans⟩)
    (fun x hx _ => by
      obtain ⟨hset, hhost, hnodes⟩ := happly x hx
      exact ⟨_, .inl ((hword _ _ _ _ _ (by decide) hR hroom hx).trans (by rw [merge_all])), hhost, hnodes, hset⟩)
    hfree hsettle
  exact ⟨t, hrow, ⟨hnodes, by rw [hhost, hleft]⟩, hset⟩

/-- The fabric's write of all the seconds at once. -/
theorem fabricSeconds {k : Nat} {P : State → Prop} {sel : Origin → Wd → Word → Bool} (hw : Writes s 0 wd raw be (.fabric net))
    (hsel : sel (askOrigin s (.fabric net)) wd raw = true) (hwd : ∀ i j, wd ≠ .jrn i j) (hword : SecondsWord s wd k old)
    (hR : holdsRight s (askOrigin s (.fabric net)) k = true) (hroom : jRoom s = true)
    (happly : ∀ x, Taken s x → Leaves x P (wordApply x (askOrigin s (.fabric net)) wd old (mergeWord [fRW 0xFFFFFFFF k] old raw be) true))
    (hP : AccessProof s P) : ∃ t, byWrite s 0 sel (.fabric net) = t ∧ AccessEnds s t 0 (.fabric net) ∧ P t := by
  obtain ⟨hfree, hsettle, hon⟩ := hP
  refine fab_row (P := P) hw hsel hwd (fun x p hx _ _ => ?_) hfree hsettle (fun g hg h => (hon g hg).trans h)
  obtain ⟨hset, hhost, hnodes⟩ := happly x hx
  exact ⟨_, .inl (hword _ _ _ _ _ hw.be_ne hR hroom hx), hhost, hnodes, hset⟩

/-! ## The RTC -/

/-- R313, R318: the RTC holds v, its entry staged and after it the anchor. -/
def RtcSetBy (s : State) (o : Origin) (v : Word) (t : State) : Prop :=
  (∃ u, StagesOne s u (originKind o) (tidHost 0x10) (v >>> 16) ∧ StagesOne u t kRESET (BitVec.ofNat 6 aRTCSET ++ 0#10) v) ∧
    AccessOnly { s with time := { s.time with rtcSec := v, rtcFr := 0 } } t

/-- An entry of its origin, after the taking of the access. -/
theorem Taken.enters (hx : Taken s x) (hn : Machine.nvOn s = true) (o : Origin) (tid : Half) (w : Word) :
    StagesOne s (jOrigin x o tid w) (originKind o) tid w ∧ AccessOnly s (jOrigin x o tid w) ∧ JournalOnly x (jOrigin x o tid w) :=
  ⟨(jOrigin_stages tid w (hx.nvOn.trans hn)).from (congrArg _ hx.jrn) (congrArg _ hx.time), hx.accessOnly.thenJ (jOrigin_shape _ _ _ _),
    jOrigin_shape _ _ _ _⟩

theorem AccessOnly.time (h : AccessOnly e t) : t.time = e.time := by rw [h]

theorem rtcSet_applied (hn : nvOn s = true) (hl : s.jrn.staging.length < 68) (hx : Taken s x) :
    Leaves x (RtcSetBy s o v) (wordApply x o .rtcSecs old v true) := by
  rw [rtcSecs_apply]
  obtain ⟨hstage, hsame, hjournal⟩ := hx.enters hn o (tidHost 0x10) (v >>> 16)
  generalize jOrigin x o (tidHost 0x10) (v >>> 16) = y at hstage hsame hjournal ⊢
  have htime := hsame.setTime { s.time with rtcSec := v, rtcFr := 0 }
  rw [show rtcSet y v = anchor { y with time := { s.time with rtcSec := v, rtcFr := 0 } } aRTCSET by
    show anchor { y with time := { y.time with rtcSec := v, rtcFr := 0 } } _ = _; rw [hsame.time]]
  have hroom : hwRoom { y with time := { s.time with rtcSec := v, rtcFr := 0 } } = true := room_two hn hsame.nvOn hstage hl
  have hanchor := anchor_shape { y with time := { s.time with rtcSec := v, rtcFr := 0 } } aRTCSET
  refine ⟨⟨⟨y, hstage, ?_⟩, htime.thenJ hanchor⟩, hanchor.host.trans hjournal.host, ?_⟩
  · exact StagesOne.from (s0 := { y with time := { s.time with rtcSec := v, rtcFr := 0 } })
      (jHw_stages _ _ _ _ (hsame.nvOn.trans hn) hroom) rfl (by
      show s.time.ts = y.time.ts; rw [hsame.time])
  · obtain ⟨_, _, _, _, e⟩ := hanchor.open
    rw [e]; exact hjournal.nodesSame

theorem rtcIsSet : Rules.RtcIsSet := by
  intro s hc hn hroom hl
  have hstill : ∀ o v, AccessProof s (RtcSetBy s o v) := fun _ _ =>
    ⟨fun _ h m hg => ⟨hg.1, hg.2.jrn_free h m⟩, fun _ hg => settle_calm (hg.2.calm hc), fun _ hg => hg.2.sysOn⟩
  refine ⟨fun hd hw hgate => ?_, fun net raw be hw hR => ?_⟩
  · obtain ⟨t, hrow, hends, hset⟩ := hostSeconds (ha := 0x10) hw hgate (by decide) rfl (fun x hh => by
      show writeWord x .host .rtcSecs (hd ++ x.host.rtcStage) 0xF none = _; rw [hh]) rtcSecs_word rfl hroom
      (fun x hx => rtcSet_applied hn hl hx) (hstill .host (hd ++ s.host.rtcStage))
    exact ⟨t, congrArg Host.Outcome.next hrow, hends, hset⟩
  · exact byWrite_next (fabricSeconds (sel := fun _ wd _ => decide (wd = .rtcSecs)) hw rfl nofun rtcSecs_word hR hroom
      (fun x hx => rtcSet_applied hn hl hx) (hstill _ _))

/-! ## The alarm -/

/-- R320: FRAC of ALCTL. -/
def alarmFrac (s : State) : BitVec 10 := (cfgGet s 0x83 3).extractLsb' 0 10

/-- R313: the state but for an alarm of v seconds. -/
def alarmHeld (s : State) (v : Word) (armed : Bool) : State :=
  { s with time := { s.time with alSec := v, alFr := alarmFrac s, armed := armed } }

/-- R314: the alarm took v and fired at once: its entry is staged, and after it that of ALCTL. -/
def AlarmFires (s : State) (o : Origin) (v : Word) (t : State) : Prop :=
  (∃ u, StagesOne s u (originKind o) (tidHost 0x12) (v >>> 16) ∧ StagesOne u t kHARDWARE (tidBank 0x83 3) ((alarmFrac s).setWidth 32)) ∧
    t.sys.event.getLsbD evALARM = true ∧ AccessOnly (alarmHeld s v false) t

/-- R313: the alarm took v and is armed. -/
def AlarmWaits (s : State) (o : Origin) (v : Word) (t : State) : Prop :=
  StagesOne s t (originKind o) (tidHost 0x12) (v >>> 16) ∧ AccessOnly (alarmHeld s v true) t

def AlarmSetBy (s : State) (o : Origin) (v : Word) (t : State) : Prop :=
  if v ++ alarmFrac s ≤ s.time.rtcSec ++ s.time.rtcFr then AlarmFires s o v t else AlarmWaits s o v t

theorem AlarmSetBy.accessOnly (h : AlarmSetBy s o v t) : ∃ armed, AccessOnly (alarmHeld s v armed) t := by
  unfold AlarmSetBy at h
  split at h
  · obtain ⟨-, -, h⟩ := h; exact ⟨_, h⟩
  · obtain ⟨-, h⟩ := h; exact ⟨_, h⟩

theorem AlarmSetBy.free (h : AlarmSetBy s o v t) (k : HostIf) (m : Mesh) : AlarmSetBy s o v { t with host := k, mesh := m } := by
  unfold AlarmSetBy at h ⊢
  split at h
  next hpast =>
    rw [if_pos hpast]
    obtain ⟨hstages, hevent, hsame⟩ := h
    exact ⟨hstages, hevent, hsame.jrn_free k m⟩
  next hahead =>
    rw [if_neg hahead]
    obtain ⟨hstage, hsame⟩ := h
    exact ⟨hstage, hsame.jrn_free k m⟩

theorem alarmSetBy_proof (hc : s.calm) : AccessProof s (AlarmSetBy s o v) := by
  refine ⟨fun _ h m hg => hg.free h m, fun _ hg => ?_, fun _ hg => ?_⟩
  · obtain ⟨armed, hsame⟩ := hg.accessOnly
    exact settle_calm (hsame.calm hc)
  · obtain ⟨armed, hsame⟩ := hg.accessOnly
    exact hsame.sysOn

def disarmed (s : State) : State := timeMod s (fun m => { m with armed := false })

/-- R320: the word of a disarmed alarm is its fraction. -/
theorem alctlWord_disarmed : alctlWord (disarmed s) = (alarmFrac s).setWidth 32 := by
  show (BitVec.ofBool false ++ 0#21) ++ alarmFrac s = _
  rw [show BitVec.ofBool false ++ 0#21 = 0#22 from rfl]
  generalize alarmFrac s = fr
  apply BitVec.eq_of_toNat_eq
  have hfr : fr.toNat < 2 ^ 32 := by omega
  rw [BitVec.toNat_append, BitVec.toNat_setWidth, Nat.mod_eq_of_lt hfr]
  simp

/-- R315: an alarm that fires on a chip that is up, out of PSTATE 1, is the event ALARM. -/
theorem alarmFire_up (hc : s.calm) (hcur : s.power.cur ≠ 1) :
    alarmFire s = raiseEvent (jHw (disarmed s) kHARDWARE (tidBank 0x83 3) ((alarmFrac s).setWidth 32) false) evALARM := by
  obtain ⟨hup, -, -, -, hpatrol, -⟩ := hc
  rw [← alctlWord_disarmed]
  unfold alarmFire
  rw [hup, hpatrol]
  exact if_neg hcur

theorem alarmCompare_past (harmed : s.time.armed = true) (h : s.time.alSec ++ s.time.alFr ≤ s.time.rtcSec ++ s.time.rtcFr) :
    alarmCompare s = alarmFire s := if_pos (by rw [harmed, decide_eq_true h]; rfl)

/-- R315, R328: what the firing leaves: the alarm disarmed, the entry of ALCTL, the event. -/
theorem alarmFire_leaves (hc : s.calm) (hcur : s.power.cur ≠ 1) (hn : nvOn s = true) (hroom : hwRoom s = true) (hon : sysOn s = true) :
    StagesOne s (alarmFire s) kHARDWARE (tidBank 0x83 3) ((alarmFrac s).setWidth 32) ∧ (alarmFire s).sys.event.getLsbD evALARM = true ∧
      JournalOnly (disarmed s) (alarmFire s) := by
  rw [alarmFire_up hc hcur]
  have hentry := jHw_shape (disarmed s) kHARDWARE (tidBank 0x83 3) ((alarmFrac s).setWidth 32) false
  have hstage := jHw_stages (s := disarmed s) kHARDWARE (tidBank 0x83 3) ((alarmFrac s).setWidth 32) false hn hroom
  generalize jHw (disarmed s) kHARDWARE (tidBank 0x83 3) ((alarmFrac s).setWidth 32) false = u at hentry hstage
  have hevent := raiseEvent_shape u evALARM
  refine ⟨?_, raiseEvent_on ?_ _ (by decide), hentry.trans hevent.toJournal⟩
  · obtain ⟨e, hstaging, hrest⟩ := hstage
    exact ⟨e, by rw [hevent]; exact hstaging, hrest⟩
  · obtain ⟨_, _, _, _, hu⟩ := hentry.open
    rw [hu]; exact hon

/-! ## Setting the alarm, after its own entry -/

section
variable {y : State} (hc : s.calm) (hsame : AccessOnly s y) (hstage : StagesOne s y (originKind o) (tidHost 0x12) (v >>> 16))
include hsame

theorem AccessOnly.alarmFrac : Machine.alarmFrac y = Machine.alarmFrac s := by unfold Machine.alarmFrac cfgGet; rw [hsame]

theorem AccessOnly.alarmHeld (v : Word) (armed : Bool) : AccessOnly (Machine.alarmHeld s v armed) (Machine.alarmHeld y v armed) := by
  unfold Machine.alarmHeld
  rw [hsame.alarmFrac, hsame.time]
  exact hsame.setTime _

include hc in
theorem AccessOnly.alarmHeld_calm : (Machine.alarmHeld y v true).calm := (hsame.alarmHeld v true).calm hc

include hstage in
/-- R313: an alarm set in the future is armed. -/
theorem alarmSet_waits (hahead : ¬ v ++ alarmFrac s ≤ s.time.rtcSec ++ s.time.rtcFr) :
    alarmSet y v = alarmHeld y v true ∧ AlarmWaits s o v (alarmHeld y v true) := by
  refine ⟨alarmCompare_quiet (.inr ?_), hstage, hsame.alarmHeld v true⟩
  show ¬ v ++ alarmFrac y ≤ y.time.rtcSec ++ y.time.rtcFr
  rw [hsame.alarmFrac, hsame.time]
  exact hahead

include hc hstage in
/-- R314: an alarm set in the past fires. -/
theorem alarmSet_fires (hcur : s.power.cur ≠ 1) (hn : nvOn s = true) (hl : s.jrn.staging.length < 68) (hon : sysOn s = true)
    (hpast : v ++ alarmFrac s ≤ s.time.rtcSec ++ s.time.rtcFr) :
    JournalOnly (alarmHeld y v false) (alarmSet y v) ∧ AlarmFires s o v (alarmSet y v) := by
  have hheld := hsame.alarmHeld v true
  have hfire : alarmSet y v = alarmFire (alarmHeld y v true) := alarmCompare_past rfl (by
    show v ++ alarmFrac y ≤ y.time.rtcSec ++ y.time.rtcFr
    rw [hsame.alarmFrac, hsame.time]
    exact hpast)
  have hcur' : (alarmHeld y v true).power.cur ≠ 1 := by rw [show (alarmHeld y v true).power = s.power by rw [hheld]; rfl]; exact hcur
  obtain ⟨hentry, hevent, hjournal⟩ := alarmFire_leaves (hsame.alarmHeld_calm hc) hcur' (hheld.nvOn.trans hn)
    (room_two (s := s) hn hheld.nvOn hstage hl) (hheld.sysOn.trans hon)
  rw [hfire]
  have hfrac : alarmFrac (alarmHeld y v true) = alarmFrac s := hsame.alarmFrac
  rw [hfrac] at hentry
  exact ⟨hjournal, ⟨y, hstage, hentry.from rfl rfl⟩, hevent, (hsame.alarmHeld v false).thenJ hjournal⟩

end

theorem alarmSet_applied (hc : s.calm) (hcur : s.power.cur ≠ 1) (hn : nvOn s = true) (hl : s.jrn.staging.length < 68) (hon : sysOn s = true)
    (hx : Taken s x) : Leaves x (AlarmSetBy s o v) (wordApply x o .alarmSecs old v true) := by
  rw [alarmSecs_apply]
  obtain ⟨hstage, hsame, hjournal⟩ := hx.enters hn o (tidHost 0x12) (v >>> 16)
  generalize jOrigin x o (tidHost 0x12) (v >>> 16) = y at hstage hsame hjournal ⊢
  by_cases hpast : v ++ alarmFrac s ≤ s.time.rtcSec ++ s.time.rtcFr
  · obtain ⟨hlast, hfires⟩ := alarmSet_fires hc hsame hstage hcur hn hl hon hpast
    refine ⟨?_, hlast.host.trans hjournal.host, ?_⟩
    · unfold AlarmSetBy; rw [if_pos hpast]; exact hfires
    · obtain ⟨_, _, _, _, h⟩ := hlast.open
      rw [h]; exact hjournal.nodesSame
  · obtain ⟨hlast, hwaits⟩ := alarmSet_waits hsame hstage hpast
    rw [hlast]
    refine ⟨?_, hjournal.host, hjournal.nodesSame⟩
    unfold AlarmSetBy; rw [if_neg hpast]; exact hwaits

theorem alarmIsSet : Rules.AlarmIsSet := by
  intro s hc hn hroom hl hcur
  refine ⟨fun hd hw hgate hon => ?_, fun net raw be hw hR => ?_⟩
  · obtain ⟨t, hrow, hends, hset⟩ := hostSeconds (ha := 0x12) hw hgate (by decide) rfl (fun x hh => by
      show writeWord x .host .alarmSecs (hd ++ x.host.alStage) 0xF none = _; rw [hh]) alarmSecs_word rfl hroom
      (fun x hx => alarmSet_applied hc hcur hn hl hon hx) (alarmSetBy_proof (o := .host) (v := hd ++ s.host.alStage) hc)
    exact ⟨t, congrArg Host.Outcome.next hrow, hends, hset⟩
  · exact byWrite_next (fabricSeconds (sel := fun _ wd _ => decide (wd = .alarmSecs)) hw rfl nofun alarmSecs_word hR hroom
      (fun x hx => alarmSet_applied hc hcur hn hl hw.2.1 hx) (alarmSetBy_proof hc))

/-! ## Disarming the alarm -/

/-- R314, R320: the alarm disarmed, FRAC taken from v. -/
def alarmOff (s : State) (v : Word) : State := timeMod (cfgSet s 0x83 3 (v &&& 0x3FF)) (fun m => { m with armed := false })

theorem frac_extract (v : Word) : BitVec.ofBool false ++ 0#21 ++ (v &&& 0x3FF).extractLsb' 0 10 = v &&& 0x3FF := by
  rw [show BitVec.ofBool false ++ 0#21 = 0#22 from rfl]
  apply BitVec.eq_of_toNat_eq
  rw [BitVec.toNat_append, BitVec.extractLsb'_toNat, BitVec.toNat_and, show (0x3FF : Word).toNat = 2 ^ 10 - 1 from rfl, Nat.and_two_pow_sub_one_eq_mod]
  simp

theorem alctl_read (h : s.time.tackHeld = []) (o : Origin) : bankWord s o 0x83 3 = alctlWord s := by
  show bit s.time.armed ++ 0#21 ++ (tackWord s 3).extractLsb' 0 10 = _
  unfold tackWord; rw [h]; rfl

theorem alctl_read_off (h : s.time.tackHeld = []) (o : Origin) : bankWord (alarmOff s v) o 0x83 3 = v &&& 0x3FF := by
  rw [alctl_read (s := alarmOff s v) h, ← frac_extract v]
  show BitVec.ofBool false ++ 0#21 ++ (cfgGet (cfgSet s 0x83 3 (v &&& 0x3FF)) 0x83 3).extractLsb' 0 10 = _
  rw [cfgGet_cfgSet_same]

/-- ARMED is written by its own bit alone. -/
theorem merge_armed (h : (mergeWord (bankFields 0x83 3) old raw be).msb = true) : raw.msb = true := by
  have hrw : maskOf (bankFields 0x83 3) (fun f => decide (f.acc = .rw)) = 0x3FF := by decide
  have hall : maskOf (bankFields 0x83 3) (fun _ => true) = 0x800003FF := by decide
  unfold mergeWord at h
  rw [hrw, hall] at h
  rw [BitVec.msb_or, BitVec.msb_and, BitVec.msb_and, BitVec.msb_and, BitVec.msb_and, show (0x3FF : Word).msb = false by decide] at h
  simp only [Bool.and_false, Bool.false_and, Bool.false_or, Bool.and_eq_true] at h
  obtain ⟨⟨hraw, -⟩, -⟩ := h
  exact hraw

theorem takes_armed (h : v.msb = true) : takes (fld 0x80000000 .w1 (some rPOWER) true) old v = true := by
  refine decide_eq_true fun hzero => ?_
  have hbit := congrArg BitVec.msb hzero
  rw [BitVec.msb_and] at hbit
  change (v.msb && true) = false at hbit
  rw [h] at hbit
  cases hbit

theorem alarmIsDisarmed : Rules.AlarmIsDisarmed := by
  intro s by_ raw v be hc hn hroom hheld hv hw hR hmsb
  have htakes : takes (fld 0x80000000 .w1 (some rPOWER) true) (alctlWord s) v = true := takes_armed hmsb
  have hput : ∀ x, Taken s x → wordPut x (askOrigin s by_) (.bank 0x83 3) v = overlay x (alarmOff s v) := fun x hx => by
    obtain ⟨-, -, -, -, hpatrol, -⟩ := hc
    show tackPut x 3 v = _
    unfold tackPut
    rw [hx.time, hpatrol, if_neg (by decide), if_pos rfl, hmsb, hx.eq]
    simp only [Bool.not_true, Bool.and_false]
    rfl
  have happly : ∀ x, Taken s x → wordApply x (askOrigin s by_) (.bank 0x83 3) (alctlWord s) v true =
      jOrigin (overlay x (alarmOff s v)) (askOrigin s by_) (tidBank 0x83 3) (v &&& 0x3FF) := fun x hx => by
    obtain ⟨-, -, -, -, hpatrol, -⟩ := hc
    have hvalue : wordValue (overlay x (alarmOff s v)) (askOrigin s by_) (.bank 0x83 3) v = v &&& 0x3FF := by
      have hread : bankWord (overlay x (alarmOff s v)) (askOrigin s by_) 0x83 3 = v &&& 0x3FF := alctl_read_off hheld (askOrigin s by_)
      show (if s.time.patrol.isSome then _ else bankWord (overlay x (alarmOff s v)) (askOrigin s by_) 0x83 3) = _
      rw [hpatrol]
      exact hread
    rw [← hput x hx] at hvalue ⊢
    rw [← hvalue]
    rfl
  refine byWrite_next (word_row (j := true) (old := alctlWord s) (v := v) (e := alarmOff s v)
    (Q := Staged s (originKind (askOrigin s by_)) (tidBank 0x83 3) (v &&& 0x3FF))
    (sel := fun _ wd v => decide (wd = .bank 0x83 3) && v.msb) hw ?_ ⟨by decide, rfl⟩ (by decide) rfl hv.symm ?_ (fun _ _ => rfl)
    (fun f hf k hk => ?_) (fun _ _ => rfl) (fun x hx => ?_) (.inr rfl) (fun _ => hroom)
    (fun x hx => wordGo_done nofun nofun (fun _ => by rw [hx.jRoom]; exact hroom)) (fun x hx => ?_) hc id)
  · show (true && raw.msb) = true
    rw [merge_armed (hv ▸ hmsb)]; rfl
  · intro x hx
    show bankWord x (askOrigin s by_) 0x83 3 = _
    rw [alctl_read (by rw [hx.time]; exact hheld)]
    unfold alctlWord; rw [hx.time, hx.cfgGet]
  · have hfields : f = fld 0x3FF .rw (some rPOWER) false ∨ f = fld 0x80000000 .w1 (some rPOWER) true := by
      simpa [show fieldsOf (.bank 0x83 3) = [fld 0x3FF .rw (some rPOWER) false, fld 0x80000000 .w1 (some rPOWER) true] from rfl] using hf
    have hk' : k = rPOWER := by rcases hfields with rfl | rfl <;> exact (Option.some.inj hk).symm
    rw [hk']; exact hR
  · exact List.any_eq_true.mpr ⟨fld 0x80000000 .w1 (some rPOWER) true, .tail _ (.head _), htakes⟩
  · exact entry_row hn (tidBank 0x83 3) (v &&& 0x3FF) (happly x hx) rfl rfl rfl

/-- Settles O43: the entry of the write first, then the RTC or the alarm changes; a fired alarm adds the entry of ALCTL. -/
theorem clockAndAlarmAreSet : Obligations.ClockAndAlarmAreSet := ⟨rtcIsSet, alarmIsSet, alarmIsDisarmed⟩

end Sys2Proof.Machine
end

section
/-!
The counter family: CSEL and CVAL, the commands of CNTCTL, the end of a gather and of a bandwidth window
(R375, R376, R383, R384, R386, R389, R392, R394, R411).
-/
namespace Sys2Proof.Machine
variable {s t x : State} {o : Origin} {b i k : Nat} {blk : Blk} {raw v : Word} {be : BitVec 4}

/-! ## CSEL -/

/-- R375, R376: the counters of ports and routers after CSEL of counter k of blk took v. -/
def CountersReselected (s : State) (blk : Blk) (k : Nat) (v : Word) (t : State) : Prop :=
  ∀ g, g < 1024 →
    cval t g = (if (g = gNum blk k ∧ cselGet s blk k ≠ v &&& 0x1FF) ∨
                   (g = gNum blk (k + 1) ∧ (cselGet s blk k).getLsbD 8 ≠ v.getLsbD 8) then 0 else cval s g) ∧
    covf t g = (if (g = gNum blk k ∧ (cselGet s blk k ≠ v &&& 0x1FF ∨ v.msb = true)) ∨
                   (g = gNum blk (k + 1) ∧ (cselGet s blk k).getLsbD 8 ≠ v.getLsbD 8) then false else covf s g)

/-- R375: what the row of CSEL leaves, but for the access itself. -/
def Reselected (s : State) (o : Origin) (b i : Nat) (blk : Blk) (k : Nat) (v : Word) (t : State) : Prop :=
  AccessOnly (cfgSet s b i (v &&& 0x1FF)) t ∧ (∃ w, StagesOne s t (originKind o) (tidBank b i) w ∧ w &&& 0x1FF = v &&& 0x1FF) ∧
    CountersReselected s blk k v t

theorem cfgGet_cnt (s : State) (c : Counters) : cfgGet { s with cnt := c } b i = cfgGet s b i := rfl

theorem AccessOnly.setCfg {e u : State} (h : AccessOnly e u) (c : Table Word) : AccessOnly { e with cfg := c } { u with cfg := c } := by
  unfold AccessOnly at h ⊢
  generalize hz : ({ u with cfg := c } : State) = z
  obtain ⟨hrest, hsys⟩ : z = { u with cfg := c, host := z.host, mesh := z.mesh, jrn := z.jrn, cnt := z.cnt, sys := z.sys } ∧ z.sys = u.sys := by
    subst hz; exact ⟨rfl, rfl⟩
  rw [hrest, hsys, h]

theorem AccessOnly.cfgSet {e u : State} (h : AccessOnly e u) (b i : Nat) (w : Word) : AccessOnly (Machine.cfgSet e b i w) (Machine.cfgSet u b i w) := by
  have hcfg : u.cfg = e.cfg := by rw [h]
  unfold Machine.cfgSet
  rw [hcfg]
  exact h.setCfg _

theorem cfgSet_domOn (s : State) (b i : Nat) (w : Word) (d : Nat) : domOn (Machine.cfgSet s b i w) d = domOn s d := by
  unfold domOn domGet; rw [cfgSet_doms]

theorem cfgSet_stillCalm (hc : s.calm) (b i : Nat) (w : Word) : (Machine.cfgSet s b i w).calm :=
  calm_congr (cfgSet_power s b i w) (congrArg Time.patrol (cfgSet_time s b i w)) (congrArg Sys.portRst (cfgSet_sys s b i w))
    (congrArg Sys.held (cfgSet_sys s b i w)) hc

/-- R375: a write of CSEL changes its word and the counters. -/
theorem counterPut_frame (x : State) (b i k : Nat) (blk : Blk) (v : Word) :
    (counterPut x b i blk k false v).jrn = x.jrn ∧ (counterPut x b i blk k false v).time = x.time ∧
      (counterPut x b i blk k false v).host = x.host ∧ (counterPut x b i blk k false v).mesh = x.mesh := by
  obtain ⟨c, hput, -⟩ := counterPut_spec x b i k blk v
  rw [hput]
  exact ⟨cfgSet_jrn x b i (v &&& 0x1FF), cfgSet_time x b i (v &&& 0x1FF), cfgSet_host x b i (v &&& 0x1FF), cfgSet_mesh x b i (v &&& 0x1FF)⟩

theorem counterPut_taken (hx : Taken s x) :
    AccessOnly (cfgSet s b i (v &&& 0x1FF)) (counterPut x b i blk k false v) ∧ CountersReselected s blk k v (counterPut x b i blk k false v) := by
  obtain ⟨c, hput, hcounters⟩ := counterPut_spec x b i k blk v
  have hcsel : cselGet x blk k = cselGet s blk k := hx.cfgGet _ _
  refine ⟨?_, fun g hg => ?_⟩
  · rw [hput]; exact (hx.accessOnly.cfgSet b i (v &&& 0x1FF)).cnt c
  · obtain ⟨hval, hovf⟩ := hcounters g
    obtain ⟨-, -, -, hlow, -⟩ := hx
    rw [hval, hovf, hcsel, (hlow g hg).1, (hlow g hg).2]
    exact ⟨rfl, rfl⟩

/-- R374: CSEL of a counter as the word of its bank. -/
theorem cselWord_read (hat : counterAt b i = some (blk, k, false)) (s : State) (o : Origin) :
    wordRead s o (.bank b i) = cselGet s blk k ||| (if covf s (gNum blk k) then 0x80000000 else 0) := by
  show bankWord s o b i = _
  unfold bankWord; rw [hat]; rfl

theorem cselFields_kept (v : Word) (c : Bool) : (v &&& 0x1FF ||| (if c then 0x80000000 else 0)) &&& 0x1FF = v &&& 0x1FF := by
  rw [BitVec.and_or_distrib_right, BitVec.and_assoc, show (0x1FF : Word) &&& 0x1FF = 0x1FF by decide]
  cases c
  · exact BitVec.or_zero
  · exact BitVec.or_zero

theorem cselWord_after (hat : counterAt b i = some (blk, k, false)) (s : State) (o : Origin) (c : Counters) :
    wordRead { cfgSet s b i (v &&& 0x1FF) with cnt := c } o (.bank b i) &&& 0x1FF = v &&& 0x1FF := by
  obtain ⟨-, -, -, -, -, hcsel, -⟩ := counterAt_facts hat
  have hnew : cselGet { cfgSet s b i (v &&& 0x1FF) with cnt := c } blk k = v &&& 0x1FF := by
    unfold cselGet; rw [hcsel, cfgGet_cnt]; exact cfgGet_cfgSet_same ..
  rw [cselWord_read hat, hnew, cselFields_kept]

/-- The word of CSEL applied: the counters, then the entry. -/
theorem cselApply (hn : nvOn s = true) (hat : counterAt b i = some (blk, k, false)) (hx : Taken s x) (old : Word) :
    Reselected s o b i blk k v (wordApply x o (.bank b i) old v true) ∧ JournalOnly (counterPut x b i blk k false v) (wordApply x o (.bank b i) old v true) := by
  obtain ⟨-, -, h87, h83, hport, -, -⟩ := counterAt_facts hat
  have hput : bankPut x b i v = counterPut x b i blk k false v := by unfold bankPut; rw [hat]
  have hafter : ∀ u, wordAfter x u o (.bank b i) v = u := fun u => by
    show (if b < 0x40 ∧ i = 1 then _ else if b = 0x87 then _ else u) = u
    rw [if_neg hport, if_neg h87]
  rw [wordApply_bank h87 h83, hput, hafter, if_pos rfl]
  obtain ⟨hsame, hcounters⟩ := counterPut_taken (blk := blk) (k := k) (v := v) (b := b) (i := i) hx
  obtain ⟨c, hc, -⟩ := counterPut_spec x b i k blk v
  have hword : bankWord (counterPut x b i blk k false v) o b i &&& 0x1FF = v &&& 0x1FF := by
    rw [hc]; exact cselWord_after hat x o c
  obtain ⟨hjrn, htime, -, -⟩ := counterPut_frame x b i k blk v
  generalize counterPut x b i blk k false v = y at *
  have hentry := jOrigin_shape y o (tidBank b i) (bankWord y o b i)
  refine ⟨⟨hsame.thenJ hentry, ⟨_, ?_, hword⟩, fun g hg => ?_⟩, hentry⟩
  · exact (jOrigin_stages _ _ ((hsame.nvOn.trans (cfgSet_domOn s b i _ _)).trans hn)).from (congrArg _ (hjrn.trans hx.jrn)) (congrArg _ (htime.trans hx.time))
  · obtain ⟨hval, hovf⟩ := low_jOrigin y o (tidBank b i) (bankWord y o b i) g hg
    rw [hval, hovf]
    exact hcounters g hg

theorem csel_journaled (hR : holdsRight x o rCOUNT = true) (hbe : be.getLsbD 0 = true) (old : Word) :
    journals x o (counterFields false) old v be = true := by
  have hlane : (0x1FF : Word) &&& laneMask be ≠ 0 :=
    (show ∀ be : BitVec 4, be.getLsbD 0 = true → (0x1FF : Word) &&& laneMask be ≠ 0 by decide) be hbe
  refine List.any_eq_true.mpr ⟨fRW 0x1FF rCOUNT, .head _, ?_⟩
  have hright : hasRight x o (fRW 0x1FF rCOUNT) = true := hR
  show (true && (decide ((0x1FF : Word) &&& laneMask be ≠ 0) && (_ || hasRight x o (fRW 0x1FF rCOUNT)))) = true
  rw [hright, decide_eq_true hlane]
  simp

theorem csel_allowed (hat : counterAt b i = some (blk, k, false)) (hlisted : eventListed blk (fieldNat v 0 8) = true)
    (hchain : k % 2 = 1 → v.getLsbD 8 = false) (x : State) (old : Word) : reservedCode x (.bank b i) old v = false := by
  show bankReserved x b i old v = false
  unfold bankReserved
  rw [hat]
  by_cases hodd : k % 2 = 1
  · show (!eventListed blk (fieldNat v 0 8) || (decide (k % 2 = 1) && v.getLsbD 8)) = false
    rw [hlisted, hchain hodd, Bool.and_false]; rfl
  · show (!eventListed blk (fieldNat v 0 8) || (decide (k % 2 = 1) && v.getLsbD 8)) = false
    rw [hlisted, decide_eq_false hodd]; rfl

theorem counterSelectIsWritten : Rules.CounterSelectIsWritten := by
  intro s b i k blk by_ raw v be hc hn hroom hat hrouter hv hw hR hbe hlisted hchain
  obtain ⟨hhas, hplain, -, -, -, -, hasleep⟩ := counterAt_facts hat
  have hfields : fieldsOf (.bank b i) = counterFields false := by
    show bankFields b i = _
    unfold bankFields; rw [hat]
  have happly : ∀ x req, Taken s x → ∃ old, writeWord x (askOrigin s by_) (.bank b i) raw be req =
      .done (wordApply x (askOrigin s by_) (.bank b i) old v true) := fun x req hx => by
    have hmerge : mergeWord (fieldsOf (.bank b i)) (wordRead x (askOrigin s by_) (.bank b i)) raw be = v := by
      rw [hfields, cselWord_read hat, merge_ovf, hv, show cselGet x blk k = cselGet s blk k from hx.cfgGet _ _]
    have hright : holdsRight x (askOrigin s by_) rCOUNT = true := (hx.holdsRight _ _).trans hR
    refine ⟨_, (writeWord_go hplain (by rw [hfields]; rfl) rfl hmerge (csel_allowed hat hlisted hchain _ _) (lacks_none fun f hf r hr => ?_) ?_
      (by rw [hfields]; exact csel_journaled hright hbe _) (.inr rfl)).trans (wordGo_done nofun nofun (fun _ => hx.jRoom.trans hroom))⟩
    · rw [hfields] at hf
      have hr' : r = rCOUNT := by
        rcases List.mem_cons.mp hf with rfl | hf
        · exact (Option.some.inj hr).symm
        · rw [List.mem_singleton.mp hf] at hr; exact (Option.some.inj hr).symm
      rw [hr']; exact hright
    · rw [hasleep]
      cases blk with
      | router r =>
        show (!domOn x 64) = false
        rw [show domOn x 64 = domOn s 64 by unfold domOn; rw [hx.domGet], hrouter r rfl]; rfl
      | port _ => rfl
      | sys => rfl
  obtain ⟨t, hrow, hends, hsame, hstage, hcounters⟩ := write_rowP (P := Reselected s (askOrigin s by_) b i blk k v)
    (sel := fun _ wd _ => match wd with
      | .bank b i => (match counterAt b i with | some (_, _, val) => !val | none => false)
      | _ => false) hw (by show (match counterAt b i with | some (_, _, val) => !val | none => false) = true; rw [hat]; rfl) ⟨hhas, rfl⟩
    (fun x req hx => by
      obtain ⟨old, hword⟩ := happly x req hx
      obtain ⟨hselected, hjournal⟩ := cselApply (o := askOrigin s by_) (v := v) hn hat hx old
      obtain ⟨-, -, hhost, hmesh⟩ := counterPut_frame x b i k blk v
      exact ⟨_, hword, hjournal.host.trans hhost, hjournal.mesh.trans hmesh, hselected⟩)
    (fun g h m ⟨hsame, hstage, hcounters⟩ => ⟨hsame.jrn_free h m, hstage, hcounters⟩)
    (fun g hg => hg.1.calm (cfgSet_stillCalm hc b i _)) (fun g hg hon => (hg.1.sysOn.trans (cfgSet_domOn s b i _ _)).trans hon)
  exact ⟨t, congrArg Host.Outcome.next hrow, hsame, hends, hstage, hcounters⟩

/-! ## CVAL of a chained counter -/

/-- R411: what the first read of a pair of WINDATA leaves of the host side. -/
def windowLow (h : HostIf) (w : Word) : HostIf :=
  { h with hd := w.extractLsb' 0 16, rlatch := w.extractLsb' 16 16, phase := true, phaseRd := true }

/-- R411, R413, R414: the first read of a pair, of a word that is there and awake. -/
theorem windataRead_first (hphase : (s.host.phase && s.host.phaseRd) = false) (hhas : bankHas (winB s) (winI s) = true)
    (hawake : wordAsleep s (.bank (winB s) (winI s)) = false) :
    windataRead s = hostMod (readClear (cvalLatch s (winB s) (winI s)) (.bank (winB s) (winI s))) (fun h => windowLow h (winValue s)) := by
  unfold windataRead
  rw [if_neg (by rw [hphase]; exact Bool.false_ne_true), if_neg (by rw [hhas]; decide), if_neg (by rw [hawake]; decide)]
  rfl

theorem chainedCounterReadLatches : Rules.ChainedCounterReadLatches := by
  intro s blk k hw hgate hphase hat heven hchain hawake hlatch
  obtain ⟨y, hcounts, -, hread⟩ := hostRead_serve (ha := 0x0A) hw hgate
  have hhost : y.host = s.host := by rw [hcounts]
  have hB : winB y = winB s := by unfold winB; rw [hhost]
  have hI : winI y = winI s := by unfold winI; rw [hhost]
  obtain ⟨hhas, hmark⟩ := counterAt_val hat
  have hcsel : cselGet y blk k = cselGet s blk k := by unfold cselGet cfgGet; rw [hcounts]
  have hawake' : wordAsleep y (.bank (winB y) (winI y)) = false := by
    rw [hB, hI]
    have hdoms : y.doms = s.doms := by rw [hcounts]
    unfold wordAsleep domOn domGet at hawake ⊢
    rw [hdoms]; exact hawake
  have hpart : cvalLatch y (winB y) (winI y) = hostMod y (fun h => { h with cvLatch := some (gNum blk (k + 1), cval y (gNum blk (k + 1))) }) := by
    unfold cvalLatch
    rw [hB, hI, hat]
    exact if_pos ⟨heven, by rw [hcsel]; exact hchain⟩
  have hclear : ∀ u, readClear u (.bank (winB y) (winI y)) = u := fun u => if_neg (by rw [hB, hI]; exact hmark)
  have hvalue : winValue y = cval y (gNum blk k) := by
    unfold winValue
    rw [hB, hI, hat, hhost, hlatch]
    show bankWord y .host (winB s) (winI s) = _
    unfold bankWord; rw [hat]; rfl
  have hrow : exec .cvalRead s = .next (windataRead y) := by
    show execCvalRead s = _
    unfold execCvalRead
    rw [hat]
    show Host.Outcome.next (if _ then _ else _) = _
    rw [if_pos ⟨heven, hchain, by rw [hphase]; rfl⟩, hread]
    rfl
  refine ⟨_, hrow, ?_, ?_⟩
  all_goals rw [windataRead_first (by rw [hhost, hphase]; rfl) (by rw [hB, hI]; exact hhas) hawake', hpart, hclear, hvalue]
  · show windowLow { y.host with cvLatch := _ } _ = _
    rw [hhost]; rfl
  · rw [hcounts]; rfl

/-- Settles O28: the counters by what CSEL changes and clears, the pair of CVAL by what the read latches. -/
theorem countersAreSelectedAndRead : Obligations.CountersAreSelectedAndRead := ⟨counterSelectIsWritten, chainedCounterReadLatches⟩

/-! ## The commands of CNTCTL -/

/-- R386: w is the word of command code. -/
def CounterCode (w : Word) (code : Nat) : Prop := w &&& 7 = w ∧ w ≠ 0 ∧ fieldNat w 0 3 = code ∧ code ≤ 4

/-- CNTCTL is WO: what its write leaves is what was written, in the lane of the field. -/
theorem merge_counterCommand (h : mergeWord (regFields 0x26) 0 raw be = v) (hv : v ≠ 0) : raw &&& 7 = v := by
  have hlane : (7 : Word) &&& laneMask be = if be.getLsbD 0 then 7 else 0 :=
    (show ∀ be : BitVec 4, (7 : Word) &&& laneMask be = if be.getLsbD 0 then 7 else 0 by decide) be
  have hmask : maskOf (regFields 0x26) (fun _ => true) = 7 := by decide
  have hword : mergeWord (regFields 0x26) 0 raw be = raw &&& (7 &&& laneMask be) := by
    unfold mergeWord
    rw [hmask]
    simp [BitVec.and_assoc]
  rw [hword, hlane] at h
  split at h
  · exact h
  · exact absurd (h.symm.trans BitVec.and_zero) hv

theorem fieldNat_low3 (w : Word) : fieldNat (w &&& 7) 0 3 = fieldNat w 0 3 := by
  unfold fieldNat
  rw [BitVec.extractLsb'_and, show (7 : Word).extractLsb' 0 3 = BitVec.allOnes 3 by decide, BitVec.and_allOnes]

theorem counterCmd_frame (y : State) (code : Nat) : counterCmd y code = { y with cnt := (counterCmd y code).cnt } := by
  unfold counterCmd
  split <;> rfl

/-- R384, R386: a command acts on the counters as its entry left them. -/
theorem counterCommand {code : Nat} {w : Word} {by_ : By} {R : State → Prop} (hcode : CounterCode w code) (hc : s.calm) (hn : nvOn s = true)
    (hroom : jRoom s = true) (hidle : s.cnt.busy = false) (hv : w = mergeWord (regFields 0x26) 0 raw be) (hw : Writes s 0x26 (.reg 0x26) raw be by_)
    (hright : holdsRight s (askOrigin s by_) rCOUNT = true)
    (hcmd : ∀ y, AccessOnly s y → valuesOnly s y → lowSame s y → R (counterCmd y code))
    (hfree : ∀ g h m, R g → R { g with host := h, mesh := m }) :
    ∃ t, cntRow s code by_ = t ∧ AccessOnly s t ∧ AccessEnds s t 0x26 by_ ∧ StagesOne s t (originKind (askOrigin s by_)) (tidHost 0x26) w ∧ R t := by
  obtain ⟨hmask, hne, hfield, hle⟩ := hcode
  obtain ⟨t, hrow, hends, hsame, hstage, hR⟩ := word_rowP (old := 0) (v := w) (j := true)
    (P := fun g => AccessOnly s g ∧ StagesOne s g (originKind (askOrigin s by_)) (tidHost 0x26) w ∧ R g)
    (sel := fun _ wd v => decide (wd = .reg 0x26) && decide (fieldNat v 0 3 = code)) hw
    (by
      show (true && decide (fieldNat raw 0 3 = code)) = true
      rw [← fieldNat_low3, merge_counterCommand hv.symm hne, hfield]; simp)
    ⟨rfl, .inr (.inr (.inl rfl))⟩ rfl rfl hv.symm (fun _ _ => rfl) (fun x _ => by
      show decide (4 < fieldNat w 0 3) = false
      rw [hfield]; exact decide_eq_false (by omega))
    (fun f hf k hk => by
      rw [List.mem_singleton.mp hf] at hk
      rw [← Option.some.inj hk]; exact hright)
    (fun _ _ => rfl)
    (fun x _ => List.any_eq_true.mpr ⟨fld 7 .wo (some rCOUNT) true, .head _, by
      show (true && decide (w &&& 7 ≠ 0)) = true
      rw [hmask]; exact decide_eq_true hne⟩) (.inr rfl) (fun _ => hroom)
    (fun x hx => by
      obtain ⟨-, -, -, -, hvalues, -⟩ := id hx
      have hbusy : x.cnt.busy = false := by rw [hvalues]; exact hidle
      unfold wordGo
      rw [hbusy, hx.jRoom, hroom]
      rfl)
    (fun x g hx hg => by
      obtain ⟨-, -, -, hlow, hvalues, -⟩ := id hx
      obtain ⟨hstage, hsame, hentry⟩ := hx.enters hn (askOrigin s by_) (tidHost 0x26) w
      have happly : g = counterCmd (jOrigin x (askOrigin s by_) (tidHost 0x26) w) code := by
        rw [← hg, ← hfield]
        show counterCmd (jOrigin x (askOrigin s by_) (tidHost 0x26) (w &&& 7)) _ = _
        rw [hmask]
      have hvalues' := hvalues.trans (values_jOrigin x (askOrigin s by_) (tidHost 0x26) w)
      have hlow' := hlow.trans (low_jOrigin x (askOrigin s by_) (tidHost 0x26) w)
      generalize jOrigin x (askOrigin s by_) (tidHost 0x26) w = y at hstage hsame hentry hvalues' hlow' happly
      have hframe := counterCmd_frame y code
      rw [happly]
      refine ⟨by rw [hframe]; exact hentry.host, by rw [hframe]; exact hentry.mesh, ?_, ?_, hcmd y hsame hvalues' hlow'⟩
      · rw [hframe]; exact hsame.cnt _
      · rw [hframe]; exact hstage)
    (fun g h m ⟨hsame, hstage, hR⟩ => ⟨hsame.jrn_free h m, hstage, hfree g h m hR⟩)
    (fun g hg => hg.1.calm hc) (fun g hg hon => hg.1.sysOn.trans hon)
  exact ⟨t, hrow, hsame, hends, hstage, hR⟩

/-- A gather looks at the domains alone for what is ON. -/
theorem gathersFrom_doms {y : State} (hdoms : y.doms = s.doms) (h : gathersFrom y t) : gathersFrom s t := by
  unfold gathersFrom blkOn domOn domGet at h ⊢
  rw [← hdoms]; exact h

theorem AccessOnly.doms {e u : State} (h : AccessOnly e u) : u.doms = e.doms := by rw [h]

/-- R386: the gather starts from the counters as they are. -/
theorem gatherStart_leaves {y : State} {frozen : Bool} (hsame : AccessOnly s y) (hlow : lowSame s y) (hfrozen : y.cnt.frozen = frozen) :
    gathersFrom s (gatherStart y) ∧ (gatherStart y).cnt.frozen = frozen ∧ lowSame s (gatherStart y) :=
  ⟨gathersFrom_doms hsame.doms (gatherStart_spec y), hfrozen, hlow⟩

theorem counterCommands : Rules.CounterCommands := by
  intro s by_ raw v be hc hn hroom hidle hv hw hright
  refine ⟨?_, ?_, ?_, ?_⟩ <;> rintro rfl
  · obtain ⟨t, hrow, hsame, hends, hstage, hgather, hfrozen, hlow⟩ := counterCommand (code := 1)
      (R := fun g => gathersFrom s g ∧ g.cnt.frozen = s.cnt.frozen ∧ lowSame s g)
      ⟨by decide, by decide, by decide, by decide⟩ hc hn hroom hidle hv hw hright
      (fun y hsame hvalues hlow => gatherStart_leaves hsame hlow (by rw [hvalues])) (fun _ _ _ hg => hg)
    exact ⟨t, congrArg Host.Outcome.next hrow, hsame, hends, hgather, hfrozen, hlow, hstage⟩
  · obtain ⟨t, hrow, hsame, hends, hstage, hgather, hfrozen, hlow⟩ := counterCommand (code := 2)
      (R := fun g => gathersFrom s g ∧ g.cnt.frozen = true ∧ lowSame s g)
      ⟨by decide, by decide, by decide, by decide⟩ hc hn hroom hidle hv hw hright
      (fun y hsame hvalues hlow => gatherStart_leaves (hsame.cnt { y.cnt with frozen := true }) hlow rfl) (fun _ _ _ hg => hg)
    exact ⟨t, congrArg Host.Outcome.next hrow, hsame, hends, hgather, hfrozen, hlow, hstage⟩
  · obtain ⟨t, hrow, hsame, hends, hstage, hfrozen, hbusy, hlow⟩ := counterCommand (code := 3)
      (R := fun g => g.cnt.frozen = false ∧ g.cnt.busy = false ∧ lowSame s g)
      ⟨by decide, by decide, by decide, by decide⟩ hc hn hroom hidle hv hw hright
      (fun y _ hvalues hlow => ⟨rfl, by show y.cnt.busy = false; rw [hvalues]; exact hidle, hlow⟩) (fun _ _ _ hg => hg)
    exact ⟨t, congrArg Host.Outcome.next hrow, hsame, hends, hfrozen, hbusy, hlow, hstage⟩
  · obtain ⟨t, hrow, hsame, hends, hstage, hfrozen, hbusy, hzero⟩ := counterCommand (code := 4)
      (R := fun g => g.cnt.frozen = s.cnt.frozen ∧ g.cnt.busy = false ∧ ∀ k, cval g k = 0 ∧ covf g k = false)
      ⟨by decide, by decide, by decide, by decide⟩ hc hn hroom hidle hv hw hright
      (fun y _ hvalues _ => ⟨by show y.cnt.frozen = _; rw [hvalues], by show y.cnt.busy = false; rw [hvalues]; exact hidle, fun _ => ⟨rfl, rfl⟩⟩)
      (fun _ _ _ hg => hg)
    exact ⟨t, congrArg Host.Outcome.next hrow, hsame, hends, hfrozen, hbusy, hzero, hstage⟩

/-! ## The ends of a gather and of a window -/

/-- R386 step 4, R389: the counters once the gather is done. -/
def gathered (s : State) : Counters :=
  { s.cnt with
    busy := false, done := true, seq := s.cnt.seq + 1, edge := [], edgeO := []
    shadow := s.cnt.edge.filter (fun e => blkOn s (blkOf e.1)), sovf := s.cnt.edgeO.filter (fun e => blkOn s (blkOf e.1))
    missP := (List.range 64).filter (fun n => s.cnt.missP.contains n || !domOn s n)
    miss := s.cnt.miss || !((List.range 64).filter (fun n => s.cnt.missP.contains n || !domOn s n)).isEmpty || !domOn s 64 || !sysOn s }

theorem gathered_missP (s : State) (n : Nat) : (gathered s).missP.contains n = (decide (n < 64) && (s.cnt.missP.contains n || !domOn s n)) := by
  rw [Bool.eq_iff_iff]
  simp [gathered]

theorem raiseEvent_cnt (s : State) (k : Nat) : (raiseEvent s k).cnt = s.cnt := by
  unfold raiseEvent; split <;> rfl

/-- R407: the event is set, or waits until SYS is ON. -/
theorem raiseEvent_pends (s : State) (k : Nat) (hk : k < 9) : ((raiseEvent s k).sys.event ||| (raiseEvent s k).sys.eventLate).getLsbD k = true := by
  have hbit : ((1 : BitVec 9) <<< k).getLsbD k = true := (show ∀ k, k < 9 → ((1 : BitVec 9) <<< k).getLsbD k = true by decide) k hk
  unfold raiseEvent
  split
  · show ((s.sys.event ||| (1 : BitVec 9) <<< k) ||| s.sys.eventLate).getLsbD k = true
    rw [BitVec.getLsbD_or, BitVec.getLsbD_or, hbit, Bool.or_true, Bool.true_or]
  · show (s.sys.event ||| (s.sys.eventLate ||| (1 : BitVec 9) <<< k)).getLsbD k = true
    rw [BitVec.getLsbD_or, BitVec.getLsbD_or, hbit, Bool.or_true, Bool.or_true]

theorem gatherEnds : Rules.GatherEnds := by
  intro s hc hbusy
  have hevent := raiseEvent_shape { s with cnt := gathered s } evCOUNTER
  have hrow : exec .gatherDone s = .next (settle (raiseEvent { s with cnt := gathered s } evCOUNTER)) := if_neg (by rw [hbusy]; exact Bool.noConfusion)
  rw [settle_calm (hevent.toJournal.calm hc)] at hrow
  have hcnt : (raiseEvent { s with cnt := gathered s } evCOUNTER).cnt = gathered s := raiseEvent_cnt ..
  refine ⟨_, hrow, by rw [hcnt]; rfl, fun g => ?_, fun n => ?_, raiseEvent_pends _ _ (by decide), by rw [hevent]⟩
  · rw [hcnt]; exact tget_filterKey _ _ (fun k => blkOn s (blkOf k)) g
  · rw [hcnt]; exact gathered_missP s n

/-- R394: the boundary at port n. -/
def boundaryAt (s : State) (n : Nat) : State := portMod s n (portBoundary (domOn s n))

/-- The boundary taken port by port, in a list without repetition. -/
theorem boundaries_fold (l : List Nat) (hnodup : l.Nodup) : ∀ s : State,
    (∀ n, portGet (l.foldl boundaryAt s) n = if n ∈ l then portBoundary (domOn s n) (portGet s n) else portGet s n) ∧
    l.foldl boundaryAt s = { s with ports := (l.foldl boundaryAt s).ports } := by
  induction l with
  | nil => exact fun s => ⟨fun _ => rfl, rfl⟩
  | cons m l ih =>
    intro s
    obtain ⟨hm, hl⟩ := List.nodup_cons.mp hnodup
    obtain ⟨hports, hrest⟩ := ih hl (boundaryAt s m)
    refine ⟨fun n => ?_, ?_⟩
    · rw [List.foldl_cons, hports, show domOn (boundaryAt s m) n = domOn s n from rfl]
      by_cases hn : n = m
      · subst hn
        rw [if_neg hm, if_pos (.head _)]
        exact portGet_portMod_same ..
      · rw [show portGet (boundaryAt s m) n = portGet s n from portGet_portMod_ne _ _ _ _ hn]
        simp [hn]
    · rw [List.foldl_cons, hrest]; rfl

/-- R394: what a boundary records, field by field. -/
theorem portBoundary_eq (on : Bool) (p : PortSt) :
    portBoundary on p = { p with
      bytesRd := 0, bytesWr := 0, wholeWin := on
      lastRd := if on && p.wholeWin then p.bytesRd else p.lastRd
      lastWr := if on && p.wholeWin then p.bytesWr else p.lastWr
      lvalid := p.lvalid || (on && p.wholeWin), pvalid := p.pvalid || (on && p.wholeWin)
      peakRd := if on && p.wholeWin && decide (p.peakRd < p.bytesRd) then p.bytesRd else p.peakRd
      peakWr := if on && p.wholeWin && decide (p.peakWr < p.bytesWr) then p.bytesWr else p.peakWr } := by
  unfold portBoundary
  cases on && p.wholeWin
  · simp
  · simp

theorem bandwidthWindowEnds : Rules.BandwidthWindowEnds := by
  intro s hruns
  let s1 := timeMod s (fun t => { t with bwCount := 0, bwLive := t.bwwin })
  obtain ⟨hports, hrest⟩ := boundaries_fold (List.range 64) List.nodup_range s1
  have hrow : exec .bwWindowBoundary s = .next ((List.range 64).foldl boundaryAt s1) := if_pos hruns
  refine ⟨_, hrow, by rw [hrest]; rfl, fun n hn => ?_, by rw [hrest]; rfl⟩
  dsimp only
  rw [hports, if_pos (List.mem_range.mpr hn)]
  exact portBoundary_eq _ _

/-- Settles O29: each command by what it does to the counters, a gather by its edge, a window port by port. -/
theorem countersAreCommanded : Obligations.CountersAreCommanded := ⟨counterCommands, gatherEnds, bandwidthWindowEnds⟩

end Sys2Proof.Machine
end

section
/-!
The host register family: what host reads return, latch and clear, what host writes stage, and the rows that name one access
(R311, R313, R319, R372, R385, R410 to R414, R419, R420).
-/
namespace Sys2Proof.Machine
variable {s t b : State} {hd : Half} {h : HostIf}

/-! ## Registers read -/

/-- s but for the event counters and the pending host events, which counting an access may change. -/
def counted (s : State) (c : Counters) (e l : BitVec 9) : State := { s with cnt := c, sys := { s.sys with event := e, eventLate := l } }

/-- A host read that the bus serves: SYS counts it, and the register is taken. -/
theorem hostRead_takes {P : State → Prop} {ha : BitVec 6} (hw : s.host.waitLow = false) (hgate : hostGate s ha.toNat = .serve)
    (htake : ∀ c e l, c.done = s.cnt.done → P (hostTake (counted s c e l) ha.toNat)) :
    ∃ t, Host.Outcome.next (hostRead s ha) = (.next t : Res) ∧ P t := by
  obtain ⟨y, hcounts, hy, hread⟩ := hostRead_serve hw hgate
  have hdone : y.cnt.done = s.cnt.done := by rw [← hy, bump_cnt]
  obtain ⟨c, e, l, rfl⟩ := hcounts.open
  exact ⟨_, congrArg _ hread, htake c e l hdone⟩

/-- R385: bit 2 of CNTSTAT is DONE. -/
theorem cntstat_done (s : State) : (cntstatWord s).getLsbD 2 = s.cnt.done := by
  unfold cntstatWord bit
  simp only [BitVec.getLsbD_append]
  simp

/-- R419: BOBDATA read in two halves. -/
theorem bobdataRead_high (h : s.host.bobphase = true) : bobdataRead s =
    { s with host := { s.host with hd := s.host.boblatch, bobphase := false, bobitem := if 8 ≤ s.host.bobitem.toNat then 8 else s.host.bobitem + 1 } } :=
  if_pos h

theorem bobdataRead_low (h : ¬ s.host.bobphase = true) : bobdataRead s =
    { s with host := { s.host with hd := (bobItem s).extractLsb' 0 16, boblatch := (bobItem s).extractLsb' 16 16, bobphase := true } } :=
  if_neg h

theorem hostReadsLatch : Rules.HostReadsLatch := by
  intro s hw
  refine ⟨fun hgate => ?_, fun hgate => ?_, fun hgate => ?_, fun hgate => ?_, fun hgate => ?_, fun hgate => ?_, fun hgate => ?_⟩
  · exact hostRead_takes (ha := 0x0C) hw hgate fun _ _ _ _ => rfl
  · exact hostRead_takes (ha := 0x0F) hw hgate fun _ _ _ _ => rfl
  · exact hostRead_takes (ha := 0x11) hw hgate fun _ _ _ _ => rfl
  · exact hostRead_takes (ha := 0x20) hw hgate fun _ _ _ _ => rfl
  · exact hostRead_takes (ha := 0x1D) hw hgate fun _ _ _ _ => rfl
  · exact hostRead_takes (ha := 0x27) hw hgate fun c e l hdone => ⟨rfl, (cntstat_done (counted s c e l)).trans hdone, rfl⟩
  · refine hostRead_takes (ha := 0x2D) hw hgate fun c e l _ => ?_
    show CountsOnly _ (bobdataRead (counted s c e l))
    by_cases hhigh : s.host.bobphase = true
    · rw [if_pos hhigh, bobdataRead_high (s := counted s c e l) hhigh]; rfl
    · rw [if_neg hhigh, bobdataRead_low (s := counted s c e l) hhigh]; rfl

/-! ## The window -/

/-- R411, R412: the second read of a pair. -/
theorem windataRead_high (hphase : (s.host.phase && s.host.phaseRd) = true) :
    windataRead s = { s with host := winHost { s.host with hd := s.host.rlatch, phase := false } } := by
  unfold windataRead
  rw [if_pos hphase, winNext_eq]
  rfl

/-- R413: the first read of a pair, of a word that is absent. -/
theorem windataRead_absent (hphase : (s.host.phase && s.host.phaseRd) = false) (hhas : bankHas (winB s) (winI s) = false) :
    windataRead s = { s with host := windowLow { s.host with decerr := true } 0 } := by
  unfold windataRead
  rw [if_neg (by rw [hphase]; exact Bool.false_ne_true), if_pos hhas]
  rfl

/-- R414: the first read of a pair, of a word that is asleep. -/
theorem windataRead_asleep (hphase : (s.host.phase && s.host.phaseRd) = false) (hhas : bankHas (winB s) (winI s) = true)
    (hasleep : wordAsleep s (.bank (winB s) (winI s)) = true) :
    windataRead s = { s with host := windowLow { s.host with asleep := true } 0 } := by
  unfold windataRead
  rw [if_neg (by rw [hphase]; exact Bool.false_ne_true), if_neg (by rw [hhas]; decide), if_pos hasleep]
  rfl

/-- R220: the read of WMARK of port b clears its read-clear fields. -/
def wmarkRead (s : State) (b i : Nat) : Table PortSt :=
  if b < 0x40 ∧ i = 6 then (portSet s b { portGet s b with wmark := (portGet s b).wmark &&& 0x3FFFFFFF }).ports else s.ports

/-- R411: the first read of a pair, of a word outside the counters. -/
theorem windataRead_word (hphase : (s.host.phase && s.host.phaseRd) = false) (hhas : bankHas (winB s) (winI s) = true)
    (hawake : wordAsleep s (.bank (winB s) (winI s)) = false) (hat : counterAt (winB s) (winI s) = none) :
    windataRead s = { s with host := windowLow s.host (bankWord s .host (winB s) (winI s)), ports := wmarkRead s (winB s) (winI s) } := by
  have hlatch : cvalLatch s (winB s) (winI s) = s := by unfold cvalLatch; rw [hat]
  have hvalue : winValue s = bankWord s .host (winB s) (winI s) := by unfold winValue; rw [hat]
  rw [windataRead_first hphase hhas hawake, hlatch, hvalue]
  unfold wmarkRead
  by_cases hmark : winB s < 0x40 ∧ winI s = 6
  · rw [if_pos hmark, show readClear s (.bank (winB s) (winI s)) = _ from if_pos hmark]; rfl
  · rw [if_neg hmark, show readClear s (.bank (winB s) (winI s)) = s from if_neg hmark]; rfl

theorem windowIsRead : Rules.WindowIsRead := by
  intro s hw hgate
  refine ⟨fun hphase hrd => ?_, fun hphase => ⟨fun hhas => ?_, fun hhas hasleep => ?_, fun hhas hawake hat => ?_⟩⟩
  all_goals refine hostRead_takes (ha := 0x0A) hw hgate fun c e l _ => ?_
  · show CountsOnly _ (windataRead (counted s c e l))
    rw [windataRead_high (s := counted s c e l) (by show (s.host.phase && s.host.phaseRd) = true; rw [hphase, hrd]; rfl)]
    rfl
  · show CountsOnly _ (windataRead (counted s c e l))
    rw [windataRead_absent (s := counted s c e l) hphase hhas]
    rfl
  · show CountsOnly _ (windataRead (counted s c e l))
    rw [windataRead_asleep (s := counted s c e l) hphase hhas hasleep]
    rfl
  · show (let v := bankWord { windataRead (counted s c e l) with host := s.host, ports := s.ports } .host (winB s) (winI s)
      CountsOnly { s with host := windowLow s.host v, ports := wmarkRead s (winB s) (winI s) } (windataRead (counted s c e l)))
    rw [windataRead_word (s := counted s c e l) hphase hhas hawake hat]
    rfl

/-- Settles O30: each read by what it takes of the state that counting the access leaves. -/
theorem hostReadsAreLatched : Obligations.HostReadsAreLatched := ⟨hostReadsLatch, windowIsRead⟩

/-! ## Halves and selectors written -/

/-- A host write that only changes the host side: k is that side after it. -/
theorem hostWrite_stages {ha : BitVec 6} {k : HostIf} {f : HostIf → HostIf} (hw : s.host.waitLow = false) (hgate : hostGate s ha.toNat = .serve)
    (hperform : ∀ x : State, x.host = { s.host with waitLow := true } → hostPerform x ha.toNat hd = .done (hostMod x f))
    (hk : k.waitLow = false) (hf : { f { s.host with waitLow := true } with waitLow := false } = { k with waitLow := false }) :
    CountsOnly { s with host := k } (hostWrite s ha hd) := by
  have hkept : { k with waitLow := false } = k := by rw [← hk]
  obtain ⟨c, e, l, hy⟩ := (bump_shape s .sys yHOSTACC).open
  have hwrite : hostWrite s ha hd = hostEnd (hostMod (hostMod (counted s c e l) (fun y => { y with waitLow := true })) f) := by
    unfold hostWrite
    rw [if_neg (by rw [hw]; exact Bool.false_ne_true), hgate, hy]
    show hostResult _ ha hd (hostPerform (hostMod (counted s c e l) (fun y => { y with waitLow := true })) ha.toNat hd) = _
    rw [hperform _ rfl]
    rfl
  rw [hwrite, ← hkept, ← hf]
  rfl

theorem CountsOnly.settled {k : HostIf} (h : CountsOnly { s with host := k } t) (hc : s.calm) : settle t = t :=
  settle_calm (h.toJournal.calm hc)

theorem hostHalvesAreStaged : Rules.HostHalvesAreStaged := by
  intro s hd hw
  refine ⟨fun hgate => ?_, fun hgate => ?_, fun hc hgate hlow => ?_, fun hc hgate => ?_, fun hc hgate => ?_, fun hc hgate => ?_⟩
  · exact ⟨_, rfl, hostWrite_stages (ha := 0x0F) (f := fun y => { y with rtcStage := hd }) hw hgate (fun _ _ => rfl) hw rfl⟩
  · exact ⟨_, rfl, hostWrite_stages (ha := 0x11) (f := fun y => { y with alStage := hd }) hw hgate (fun _ _ => rfl) hw rfl⟩
  · have hstage := hostWrite_stages (ha := 0x0A) (hd := hd) (k := { s.host with wlatch := hd, phase := true, phaseRd := false })
      (f := fun y => { y with wlatch := hd, phase := true, phaseRd := false }) hw hgate
      (fun x hx => if_neg (by
        have hhigh : winHigh x = winHigh s := by unfold winHigh; rw [hx]
        rw [hhigh, hlow]; exact Bool.false_ne_true)) hw rfl
    exact ⟨_, congrArg Host.Outcome.next (hstage.settled hc), hstage⟩
  · have hstage := hostWrite_stages (ha := 0x08) (hd := hd) (f := fun y => { y with winsel := hd.extractLsb' 0 8, phase := false })
      (k := { s.host with winsel := hd.extractLsb' 0 8, phase := false }) hw hgate (fun _ _ => rfl) hw rfl
    exact ⟨_, congrArg Host.Outcome.next (hstage.settled hc), hstage⟩
  · have hstage := hostWrite_stages (ha := 0x09) (hd := hd) (f := fun y => { y with winaddr := hd, phase := false })
      (k := { s.host with winaddr := hd, phase := false }) hw hgate (fun _ _ => rfl) hw rfl
    exact ⟨_, congrArg Host.Outcome.next (hstage.settled hc), hstage⟩
  · have hstage := hostWrite_stages (ha := 0x1E) (hd := hd) (f := fun y => { y with jptr := y.jptr.extractLsb' 16 4 ++ hd })
      (k := { s.host with jptr := s.host.jptr.extractLsb' 16 4 ++ hd }) hw hgate (fun _ _ => rfl) hw rfl
    exact ⟨_, congrArg Host.Outcome.next (hstage.settled hc), hstage⟩

/-! ## The rows of one access -/

/-- R411: the high half of WINDATA is the write of the word that the window names. -/
theorem byWrite_window {n : Nat} (hB : winB s = n) (hI : winI s = 0) (hhigh : winHigh s = true) :
    byWrite s 0x0A (fun _ wd _ => decide (wd = Wd.bank n 0)) (.host hd) = settle (hostWrite s 0x0A hd) := by
  have hnames : hostNames s 0x0A hd = some (.bank n 0, winWord s hd) := by
    show (if winHigh s then some (Wd.bank (winB s) (winI s), winWord s hd) else none) = _
    rw [if_pos hhigh, hB, hI]
  show (match hostNames s 0x0A hd with
    | some (wd, _) => if decide (wd = Wd.bank n 0) then settle (hostWrite s 0x0A hd) else s
    | none => s) = _
  rw [hnames]
  exact if_pos (decide_eq_true rfl)

/-- R420: a write of the one word at its flat address is a write of that word. -/
theorem fabNames_flat {p : Pkt} {n : Nat} (hop : opOf p.cmd = .write 1) (hlen : p.data.length = 1)
    (hflat : flatWord (byteAddr p.addr) = some (.bank n 0)) : fabNames p (fun _ wd _ => decide (wd = Wd.bank n 0)) = true := by
  obtain ⟨u, hu⟩ := List.length_eq_one_iff.mp hlen
  unfold fabNames
  rw [hop, hu]
  show ((match flatWord (byteAddr p.addr + 4 * 0) with | some wd => decide (wd = .bank n 0) | none => false) || false) = true
  rw [Nat.mul_zero, Nat.add_zero, hflat]
  simp

theorem sysTake_congr {net : Net} {sel sel' : Pkt → Bool} {p : Pkt} (hp : rxHead s nodeSys net = some p) (h : sel p = sel' p) :
    sysTake s net sel = sysTake s net sel' := by
  unfold sysTake
  rw [hp]
  simp only [h]

theorem rowsOfOneAccessAgree : Rules.RowsOfOneAccessAgree := by
  intro s n hd net hB hI hhigh
  refine ⟨?_, ?_, fun p hp hop hlen hflat => ?_⟩
  · exact congrArg Host.Outcome.next (byWrite_window hB hI hhigh).symm
  · exact congrArg Host.Outcome.next (byWrite_window hB hI hhigh).symm
  · have hsel : isWritePkt p = fabNames p (fun _ wd _ => decide (wd = Wd.bank n.val 0)) := by
      rw [fabNames_flat hop hlen hflat]; unfold isWritePkt; rw [hop]
    exact congrArg (fun u => Host.Outcome.next (settle u)) (sysTake_congr hp hsel)

/-- Settles O31: a staged half changes the host side alone; rows of one access make the same write. -/
theorem hostHalvesAndViews : Obligations.HostHalvesAndViews := ⟨hostHalvesAreStaged, rowsOfOneAccessAgree⟩

end Sys2Proof.Machine
end

section
/-!
The reset family: a key written to RESETCMD is journaled, and the scope of its origin starts (R409, R427, R430 to R436).
-/
namespace Sys2Proof.Machine
variable {s t u x y : State} {o : Origin} {by_ : By} {raw : Word} {be : BitVec 4} {scope n : Nat}

/-! ## The write of the key -/

/-- R409, R427: SYS can take a write of the key by an origin that holds the right and whose RESETSCOPE holds this scope. -/
structure KeyWritten (s : State) (by_ : By) (raw : Word) (be : BitVec 4) (scope : Nat) : Prop where
  calm : s.calm
  nv : nvOn s = true
  room : jRoom s = true
  writes : Writes s 6 (.reg 6) raw be by_
  right : holdsRight s (askOrigin s by_) rRESET = true
  low : be.getLsbD 0 = true
  high : be.getLsbD 1 = true
  key : raw.extractLsb' 0 16 = 0xC1EA
  inScope : (scopeOf s (askOrigin s by_)).toNat % 4 = scope
  free : s.sys.busy = false ∨ 2 ≤ scope

theorem KeyWritten.waits (h : KeyWritten s by_ raw be scope) : resetWaits s (askOrigin s by_) = false := by
  unfold resetWaits
  rw [h.inScope]
  rcases h.free with hfree | hwide
  · rw [hfree]; rfl
  · rw [decide_eq_false (by omega), Bool.and_false]

/-- The reset in progress (R437). -/
def resetBusy (s : State) : State := sysMod s (fun z => { z with busy := true })

theorem scopeOf_accessOnly (h : AccessOnly s y) (o : Origin) : scopeOf y o = scopeOf s o := by unfold scopeOf; rw [h]

theorem resetStart_port (hup : y.power.mode = .up) (h : (scopeOf y o).toNat % 4 = 0) :
    resetStart y o = portRstGo (sysMod (resetBusy y) (fun z => { z with portRst := some ((scopeOf y o).toNat / 4) })) := by
  unfold resetStart
  dsimp only
  rw [h, hup]
  rfl

theorem resetStart_sys (hup : y.power.mode = .up) (h : (scopeOf y o).toNat % 4 = 1) : resetStart y o = sysReset (resetBusy y) := by
  unfold resetStart
  dsimp only
  rw [h, hup]
  rfl

theorem resetStart_chip (h : (scopeOf y o).toNat % 4 = 2) : resetStart y o = chipReset (resetBusy y) := by
  unfold resetStart
  dsimp only
  rw [h]
  rfl

theorem resetStart_ring (h : (scopeOf y o).toNat % 4 = 3) : resetStart y o = ringReset (resetBusy y) := by
  unfold resetStart
  dsimp only
  rw [h]
  rfl

/-! ## Resets that start the chip anew -/

/-- R434, R435: the chip starts up after a reset of CHIP or RING scope. -/
def ChipStarts (s : State) (by_ : By) (t : State) (c : BitVec 4) : Prop :=
  ∃ x a u, Taking s x 6 by_ ∧ StagesOne x a (originKind (askOrigin s by_)) (tidHost 6) 0xC1EA ∧
    JournalOnly { x with sys := { x.sys with busy := true } } a ∧ Returned a u true true true true ∧ StartsUp u t c

theorem resetBusy_journal (h : JournalOnly x y) : JournalOnly { x with sys := { x.sys with busy := true } } (resetBusy y) := by
  obtain ⟨_, _, _, _, rfl⟩ := h.open
  rfl

theorem chipStarts {c : BitVec 4} (h : KeyWritten s by_ raw be scope)
    (hstart : ∀ y, AccessOnly s y → resetStart y (askOrigin s by_) = startUp (wideReturn (resetBusy y) true true true true) c) :
    ∃ t, (.next (resetRow s scope by_) : Res) = .next t ∧ ChipStarts s by_ t c := by
  obtain ⟨x, z, hx, htaking, hz, hrow⟩ := reset_row h.calm h.room h.writes h.right h.low h.high h.key h.inScope h.waits
  obtain ⟨hstage, hsame, hentry⟩ := hx.enters h.nv (askOrigin s by_) (tidHost 6) 0xC1EA
  have hstage' := jOrigin_stages (s := x) (o := askOrigin s by_) (tidHost 6) 0xC1EA (hx.nvOn.trans h.nv)
  rw [hstart _ hsame] at hz
  generalize jOrigin x (askOrigin s by_) (tidHost 6) 0xC1EA = y at *
  have hheld : (resetBusy y).sys.held = [] := by
    obtain ⟨-, -, -, -, -, -, hheld⟩ := h.calm
    show y.sys.held = []
    rw [hsame]; exact hheld
  have hreturned := wideReturn_spec (resetBusy y) true true true true
  have hstarts := startUp_spec (wideReturn (resetBusy y) true true true true) c
  obtain ⟨hsettle, hend, hoff⟩ := startsUp_settled hheld hreturned hstarts
  refine ⟨_, congrArg Host.Outcome.next (hrow.trans ?_), x, resetBusy y, _, htaking, hstage', resetBusy_journal hentry, hreturned, hstarts⟩
  cases by_ with
  | host hd => rw [hz, hend, hsettle]
  | fabric net => rw [hz hoff, hsettle]

theorem ringReset_alone (h : spliced s = false) : ringReset s = startUp (wideReturn s true true true true) 6 := by
  unfold ringReset; rw [h]; rfl

/-! ## Resets that wait for the ring -/

/-- What the entry of an access leaves of s, by name. -/
theorem Taken.journaled (hx : Taken s x) (hj : JournalOnly x y) : ∃ j c e l, y = { s with
    host := x.host, mesh := x.mesh, jrn := j, cnt := c, sys := { s.sys with event := e, eventLate := l } } := by
  obtain ⟨j, c, e, l, hy⟩ := hj.open
  rw [hx.eq] at hy
  exact ⟨j, c, e, l, hy⟩

/-- R409: a reset that begins and leaves SYS as it is: the write ends, and e is what it changed. -/
theorem keyRow {e : State} (h : KeyWritten s by_ raw be scope) (hec : e.calm) (hon : sysOn s = true → sysOn e = true)
    (hstart : ∀ x y, Taken s x → JournalOnly x y → AccessOnly s y →
      JournalOnly (overlay x e) (resetStart y (askOrigin s by_)) ∧ (resetStart y (askOrigin s by_)).jrn = y.jrn) :
    ∃ t, (.next (resetRow s scope by_) : Res) = .next t ∧ AccessEnds s t 6 by_ ∧ StagesOne s t (originKind (askOrigin s by_)) (tidHost 6) 0xC1EA ∧
      AccessOnly e t := by
  obtain ⟨t, hrow, hsame, hends, hstage⟩ := write_row (e := e) (Q := Staged s (originKind (askOrigin s by_)) (tidHost 6) 0xC1EA)
    (sel := fun o wd v => decide (wd = .reg 6) && decide (v.extractLsb' 0 16 = 0xC1EA) && decide ((scopeOf s o).toNat % 4 = scope)) h.writes
    (by simp [h.key, h.inScope]) ⟨rfl, .inl rfl⟩ (fun x req hx => by
      obtain ⟨hstage, hsame, hentry⟩ := hx.enters h.nv (askOrigin s by_) (tidHost 6) 0xC1EA
      obtain ⟨hstarted, hjrn⟩ := hstart x _ hx hentry hsame
      exact ⟨_, reset_word req hx h.room h.right h.low h.high h.key h.waits, hstarted, by rw [hjrn]; exact hstage⟩) hec hon
  exact ⟨t, congrArg Host.Outcome.next hrow, hends, hstage, hsame⟩

/-- R434, R196: a spliced chip asks to leave before its reset. -/
def resetLeave (me : Byte) (r : RingSt) : RingSt :=
  { r with leaveWhy := .chipReset, gateA := { r.gateA with tx := r.gateA.tx ++ [ctlTransfer 3 0x6 me] } }

theorem chipReset_leaves (hd : canDrive s = true) (hm : isMaster s = false) (hwhy : s.ring.leaveWhy = .none) :
    chipReset s = { s with ring := resetLeave s.chipnum s.ring } := by
  unfold chipReset askLeave
  dsimp only
  rw [if_pos hd, if_pos hwhy, hm, if_neg Bool.false_ne_true, gwRing_drive (by exact hd)]
  rfl

theorem ringReset_spliced (h : spliced s = true) : ringReset s =
    { s with sys := { s.sys with ringWait := s.sys.ringWait || isMaster s, ringAsk := s.sys.ringAsk || !isMaster s } } := by
  unfold ringReset
  rw [h, if_neg (by decide)]
  cases hm : isMaster s
  · rw [if_neg Bool.false_ne_true, Bool.or_false, Bool.not_false, Bool.or_true]; rfl
  · rw [if_pos rfl, Bool.or_true, Bool.not_true, Bool.or_false]; rfl

theorem chipAndRingResets : Rules.ChipAndRingResets := by
  intro s by_ raw be hc hn hroom hw hright hlow hhigh hkey
  have hwritten : ∀ scope, 2 ≤ scope → (scopeOf s (askOrigin s by_)).toNat % 4 = scope → KeyWritten s by_ raw be scope := fun scope hwide hscope =>
    ⟨hc, hn, hroom, hw, hright, hlow, hhigh, hkey, hscope, .inr hwide⟩
  have hscopeOf : ∀ {y}, AccessOnly s y → scopeOf y (askOrigin s by_) = scopeOf s (askOrigin s by_) := fun hy => scopeOf_accessOnly hy _
  refine ⟨fun hscope hdrive => ?_, fun hscope hdrive hmaster hwhy => ?_, fun hscope halone => ?_, fun hscope hspliced => ?_⟩
  · exact chipStarts (hwritten 2 (by omega) hscope) fun y hy => by
      rw [resetStart_chip (by rw [hscopeOf hy]; exact hscope)]
      exact if_neg (by show ¬ canDrive y = true; rw [show canDrive y = canDrive s by unfold canDrive; rw [hy], hdrive]; exact Bool.false_ne_true)
  · refine keyRow (hwritten 2 (by omega) hscope) (calm_congr rfl rfl rfl rfl hc) id fun x y hx hj hy => ?_
    have hring : y.ring = s.ring := hy.ring
    have hchip : y.chipnum = s.chipnum := hy.chipnum
    rw [resetStart_chip (by rw [hscopeOf hy]; exact hscope), chipReset_leaves (s := resetBusy y) (by show (!y.ring.bypass) = true; rw [hring]; exact hdrive)
      (by show decide (y.chipnum = 0) = false; rw [hchip]; exact hmaster) (by show y.ring.leaveWhy = _; rw [hring]; exact hwhy)]
    obtain ⟨j, c, e, l, rfl⟩ := hx.journaled hj
    exact ⟨rfl, rfl⟩
  · exact chipStarts (hwritten 3 (by omega) hscope) fun y hy => by
      rw [resetStart_ring (by rw [hscopeOf hy]; exact hscope)]
      exact ringReset_alone (by show spliced y = false; rw [show spliced y = spliced s by unfold spliced; rw [hy], halone])
  · refine keyRow (hwritten 3 (by omega) hscope) (calm_congr rfl rfl rfl rfl hc) id fun x y hx hj hy => ?_
    rw [resetStart_ring (by rw [hscopeOf hy]; exact hscope), ringReset_spliced (s := resetBusy y) (by
      show decide (y.ring.st = .spliced) = true; rw [hy.ring]; exact hspliced)]
    obtain ⟨j, c, e, l, rfl⟩ := hx.journaled hj
    exact ⟨rfl, rfl⟩

/-! ## SYS -/

/-- R432: no tag of the agents is held, so none completes. -/
theorem agentTagsDone_none {pick : Tag → Bool} {st : Status} (h : ∀ e ∈ s.sys.agents.tags, e.2.st ≠ .held) : agentTagsDone s pick st = s := by
  have hnone : s.sys.agents.tags.filter (fun e => decide (e.2.st = .held) && pick e.2) = [] := by
    rw [List.filter_eq_nil_iff]
    intro e he
    rw [decide_eq_false (h e he)]
    exact Bool.false_ne_true
  unfold agentTagsDone
  rw [hnone]
  rfl

/-- R432, R436: what SYS keeps of its accesses after its reset. -/
def sysEmptied (z : Sys) : Sys :=
  { z with queued := [], bellDue := false, claims := [], forwarded := [], fences := [], stalls := [], voteWait := [], stitch := none, held := [] }

/-- R432: the domain of SYS, BOB and COL is to wake, or, in a hush, waits (R438). -/
def sysDown (hush : Bool) (d : Dom) : Dom := { d with st := if hush then .off else .waking, rung := 0, retried := false, rest := false }

theorem sysReset_eq (hheld : s.sys.held = []) (htags : ∀ e ∈ s.sys.agents.tags, e.2.st ≠ .held) :
    sysReset s = domMod (hostMod (agentsDrop { s with sys := sysEmptied s.sys }) (fun h => { h with waitLow := false })) 66 (sysDown s.power.hush) := by
  have hhost : hostHeld (sysMod s (fun z => { z with queued := [], bellDue := false })) = [] := by
    unfold hostHeld
    rw [show (sysMod s (fun z => { z with queued := [], bellDue := false })).sys.held = [] from hheld]
    rfl
  unfold sysReset
  dsimp only
  rw [agentTagsDone_none (by exact htags), hhost]
  rfl

theorem sysReset_spec (hheld : s.sys.held = []) (htags : ∀ e ∈ s.sys.agents.tags, e.2.st ≠ .held) :
    (∀ d, domGet (sysReset s) d = if d = 66 then sysDown s.power.hush (domGet s 66) else domGet s d) ∧
    (∀ k net, nodeGet (sysReset s) k net = if k = nodeSys ∨ k = nodeBob ∨ k = nodeCol then
      { nodeGet s k net with out := restOnly (nodeGet s k net).out, part := [], rx := [] } else nodeGet s k net) ∧
    sysReset s = { s with doms := (sysReset s).doms, mesh := { s.mesh with nodes := (sysReset s).mesh.nodes }, host := { s.host with waitLow := false }
                          sys := sysEmptied s.sys } := by
  rw [sysReset_eq hheld htags]
  obtain ⟨hnodes, hframe⟩ := agentsDrop_spec { s with sys := sysEmptied s.sys }
  generalize agentsDrop { s with sys := sysEmptied s.sys } = w at hnodes hframe
  obtain ⟨m, rfl⟩ : ∃ m, w = { s with sys := sysEmptied s.sys, mesh := { s.mesh with nodes := m } } := ⟨_, hframe⟩
  have hdoms := domGet_domMod (hostMod { s with sys := sysEmptied s.sys, mesh := { s.mesh with nodes := m } } (fun h => { h with waitLow := false })) 66
  obtain ⟨ds, hds⟩ : ∃ ds, domMod (hostMod { s with sys := sysEmptied s.sys, mesh := { s.mesh with nodes := m } } (fun h => { h with waitLow := false })) 66
    (sysDown s.power.hush) = { s with sys := sysEmptied s.sys, mesh := { s.mesh with nodes := m }, host := { s.host with waitLow := false }, doms := ds } := ⟨_, rfl⟩
  refine ⟨fun d => hdoms d _, ?_, ?_⟩
  · rw [hds]; exact hnodes
  · rw [hds]

theorem hostEnd_ended (h : s.host.waitLow = false) : hostEnd s = s := by
  show ({ s with host := { s.host with waitLow := false } } : State) = s
  rw [← h]

theorem sysDown_off (hush : Bool) (d : Dom) : (sysDown hush d).st ≠ .on := by
  cases hush <;> exact nofun

theorem sysReset_settled (hc : s.calm) (htags : ∀ e ∈ s.sys.agents.tags, e.2.st ≠ .held) :
    settle (sysReset s) = sysReset s ∧ hostEnd (sysReset s) = sysReset s ∧ sysOn (sysReset s) = false := by
  obtain ⟨hmode, hcode, hlevel, hmoving, hpatrol, hrst, hheld⟩ := id hc
  obtain ⟨hdoms, -, hframe⟩ := sysReset_spec hheld htags
  refine ⟨settle_calm (calm_congr ?_ ?_ ?_ ?_ hc), hostEnd_ended (by rw [hframe]), ?_⟩
  · rw [hframe]
  · rw [hframe]
  · rw [hframe]; rfl
  · rw [hframe, hheld]; rfl
  · unfold sysOn domOn
    rw [hdoms, if_pos rfl]
    exact decide_eq_false (sysDown_off _ _)

theorem sysResets : Rules.SysReset := by
  intro s by_ raw be hc hn hroom hw hright hlow hhigh hkey o hscope hfree htags
  have h : KeyWritten s by_ raw be 1 := ⟨hc, hn, hroom, hw, hright, hlow, hhigh, hkey, hscope, .inl hfree⟩
  obtain ⟨x, z, hx, htaking, hz, hrow⟩ := reset_row h.calm h.room h.writes h.right h.low h.high h.key h.inScope h.waits
  obtain ⟨-, hsame, hentry⟩ := hx.enters hn o (tidHost 6) 0xC1EA
  have hstage := jOrigin_stages (s := x) (o := o) (tidHost 6) 0xC1EA (hx.nvOn.trans hn)
  rw [show askOrigin s by_ = o from rfl] at hz
  generalize jOrigin x o (tidHost 6) 0xC1EA = a at *
  have hup : a.power.mode = .up := by
    obtain ⟨hmode, -⟩ := hc
    rw [hsame]; exact hmode
  have hbusyCalm : (resetBusy a).calm := hsame.calm hc
  have htags' : ∀ e ∈ (resetBusy a).sys.agents.tags, e.2.st ≠ .held := by
    rw [show (resetBusy a).sys.agents.tags = s.sys.agents.tags by show a.sys.agents.tags = _; rw [hsame]]
    exact htags
  rw [resetStart_sys hup (by rw [scopeOf_accessOnly hsame]; exact hscope)] at hz
  obtain ⟨hsettle, hend, hoff⟩ := sysReset_settled hbusyCalm htags'
  obtain ⟨-, -, -, -, -, -, hheld⟩ := id hbusyCalm
  obtain ⟨hdoms, hnodes, hframe⟩ := sysReset_spec hheld htags'
  refine ⟨sysReset (resetBusy a), x, a, congrArg Host.Outcome.next (hrow.trans ?_), htaking, hstage, hentry, fun d => ?_, fun k net => ?_, ?_⟩
  · cases by_ with
    | host hd => rw [hz, hend, hsettle]
    | fabric net => rw [hz hoff, hsettle]
  · have hdom : ∀ k, domGet (resetBusy a) k = domGet s k := hsame.domGet
    rw [hdoms, hdom, hdom, show (resetBusy a).power.hush = s.power.hush by show a.power.hush = _; rw [hsame]]
    rfl
  · have hnode : nodeGet (resetBusy a) k net = nodeGet x k net := by
      show nodeGet a k net = _
      unfold nodeGet; rw [hentry.mesh]
    rw [hnodes, hnode]
    by_cases hagent : k = nodeSys ∨ k = nodeBob ∨ k = nodeCol
    · rw [if_pos hagent, if_pos hagent]
    · rw [if_neg hagent, if_neg hagent, hx.nodeGet k net (fun h => hagent (.inl h))]
  · rw [← hentry.host]
    exact hframe

/-! ## A port -/

/-- R430, R431, R436, R341: what the reset of port n leaves, but for the access itself. -/
def PortIsReset (s : State) (o : Origin) (n : Nat) (t : State) : Prop :=
  ∃ a b, StagesOne s a (originKind o) (tidHost 6) 0xC1EA ∧
    DomBecomes a b n (if (domGet s n).st = .off then domGet s n else { domGet s n with st := .off, rung := 0 }) ∧
    StagesOne b t kRESET (BitVec.ofNat 6 aRESET ++ s.time.rtcFr) s.time.rtcSec ∧
    (∀ m, portGet t m = if m = n then { PortSt.reset with quiet := (portGet s n).quiet || !(portGet s n).dead } else portGet s m) ∧
    (∀ d, domGet t d = if d = n then Dom.resetOf n else domGet s d) ∧
    (∀ k, faultGet t k = if k = n then FaultRec.reset else faultGet s k) ∧
    (∀ k, tget cfgReset t.cfg k = if k / 65536 = n then cfgReset k else tget cfgReset s.cfg k) ∧
    (∀ g, g / 8 = n → cval t g = 0 ∧ covf t g = false) ∧
    AccessOnly { s with ports := t.ports, doms := t.doms, faults := t.faults, cfg := t.cfg } t

/-- R430: port n has nothing in progress and no client, and nothing else names it. -/
structure PortQuiet (s : State) (n : Nat) : Prop where
  notWaking : (domGet s n).st ≠ .waking
  notHemming : (domGet s n).st ≠ .hemming
  alone : portAlone s n
  noRequest : (portGet s n).tgt = none
  unclaimed : (portGet s n).claimed = false
  unclaiming : (portGet s n).claiming = false
  noResponse : (nodeGet s (portNode n) .rsp).rx = []
  ring : s.ring.chips = [s.chipnum]
  clients : clientsOf s s.chipnum n = []
  bobbins : ∀ b, b < 64 → (bOwner (bcfg s b) = n → bcfg s b = 0 ∧ bobGet s b = Bobbin.reset) ∧
    ∀ l, (bobGet s b).lock = some l → ¬(l.schip = s.chipnum ∧ l.snode = portNode n)

/-- The state in which the reset of port n runs (R437). -/
def portResetAt (y : State) (n : Nat) : State := sysMod (resetBusy y) (fun z => { z with portRst := some n })

theorem portAlone_congr (hport : portGet t n = portGet s n) (hnode : ∀ net, nodeGet t (portNode n) net = nodeGet s (portNode n) net)
    (h : portAlone s n) : portAlone t n := by
  unfold portAlone at h ⊢
  rw [hport]
  simp only [hnode]
  exact h

theorem AccessOnly.portGet {e : State} (h : AccessOnly e t) (k : Nat) : Machine.portGet t k = Machine.portGet e k := by unfold Machine.portGet; rw [h]

/-- What the taking of the access and its entry leave of port n. -/
theorem PortQuiet.taken (h : PortQuiet s n) (hn : n < 64) (hx : Taken s x) (hj : JournalOnly x y) (hy : AccessOnly s y) : PortQuiet (portResetAt y n) n := by
  have hdom : domGet (portResetAt y n) n = domGet s n := hy.domGet n
  have hport : portGet (portResetAt y n) n = portGet s n := hy.portGet n
  have hnode : ∀ net, nodeGet (portResetAt y n) (portNode n) net = nodeGet s (portNode n) net := fun net => by
    rw [← hx.nodeGet _ net (portNode_ne_sys hn)]
    show nodeGet y _ _ = _
    unfold nodeGet; rw [hj.mesh]
  have hchip : (portResetAt y n).chipnum = s.chipnum := hy.chipnum
  have hclients : clientsOf (portResetAt y n) s.chipnum n = clientsOf s s.chipnum n := by
    show clientsOf y _ n = _
    unfold clientsOf cfgGet; rw [hy]
  refine ⟨by rw [hdom]; exact h.notWaking, by rw [hdom]; exact h.notHemming, portAlone_congr hport hnode h.alone, by rw [hport]; exact h.noRequest,
    by rw [hport]; exact h.unclaimed, by rw [hport]; exact h.unclaiming, by rw [hnode]; exact h.noResponse, ?_, by rw [hchip, hclients]; exact h.clients,
    fun b hb => ?_⟩
  · rw [hchip, ← h.ring]; exact congrArg RingSt.chips hy.ring
  · rw [show bcfg (portResetAt y n) b = bcfg s b from hy.bcfg b, show bobGet (portResetAt y n) b = bobGet s b from hy.bobGet b, hchip]
    exact h.bobbins b hb

theorem sys_idle (z : Sys) (e l : BitVec 9) (hbusy : z.busy = false) (hrst : z.portRst = none) :
    ({ z with busy := false, portRst := none, event := e, eventLate := l } : Sys) = { z with event := e, eventLate := l } := by
  rw [← hbusy, ← hrst]

theorem portRst_leaves (hn : n < 64) (hc : s.calm) (hnv : nvOn s = true) (hl : s.jrn.staging.length + 3 ≤ 72) (hfree : s.sys.busy = false)
    (hquiet : PortQuiet s n) (hx : Taken s x) (hj : JournalOnly x y) (hy : AccessOnly s y) (hstage : StagesOne s y (originKind o) (tidHost 6) 0xC1EA) :
    Leaves x (PortIsReset s o n) (portRstGo (portResetAt y n)) := by
  obtain ⟨hmode, hcode, hlevel, hmoving, hpatrol, hrst, hheld⟩ := id hc
  have hpower : y.power = s.power := by rw [hy]
  have hroom : (portResetAt y n).jrn.staging.length + 2 ≤ 72 := by
    obtain ⟨e, hstaging, -⟩ := hstage
    show y.jrn.staging.length + 2 ≤ 72
    rw [hstaging, List.length_append, List.length_singleton]; omega
  have hq := hquiet.taken hn hx hj hy
  obtain ⟨g, a, b, hgo, hajrn, hdom, hanchor, hports, hdoms, hfaults, hcfg, hcounters, hnodes, hframe⟩ :=
    portRstGo_spec (j := portResetAt y n) hn rfl ⟨by show y.power.mode = _; rw [hpower]; exact hmode, by show y.power.code = y.power.lvl; rw [hpower]; exact hcode,
      by show 2 ≤ y.power.code.toNat; rw [hpower]; exact hlevel, by show y.power.moving = _; rw [hpower]; exact hmoving,
      by show y.time.patrol = _; rw [hy.time]; exact hpatrol, by show y.sys.held = _; rw [hy]; exact hheld⟩
      (hy.nvOn.trans hnv) hroom hq.notWaking hq.notHemming hq.alone hq.noRequest hq.unclaimed hq.unclaiming hq.noResponse hq.ring hq.clients hq.bobbins
  have htime : (portResetAt y n).time = s.time := hy.time
  have hdomAt : ∀ d, domGet (portResetAt y n) d = domGet s d := hy.domGet
  have hportAt : ∀ m, portGet (portResetAt y n) m = portGet s m := hy.portGet
  have hfaultAt : ∀ k, faultGet (portResetAt y n) k = faultGet s k := hy.faultGet
  have hcfgAt : (portResetAt y n).cfg = s.cfg := by show y.cfg = _; rw [hy]
  simp only [hdomAt, hportAt, hfaultAt, hcfgAt, htime] at hdom hanchor hports hdoms hfaults hcfg
  rw [hgo]
  refine ⟨⟨a, b, ?_, hdom, hanchor, hports, hdoms, hfaults, hcfg, hcounters, ?_⟩, ?_, ?_⟩
  · obtain ⟨e, hstaging, hrest⟩ := hstage
    exact ⟨e, by rw [hajrn]; exact hstaging, hrest⟩
  · obtain ⟨j, c, e, l, rfl⟩ := hx.journaled hj
    obtain ⟨ps, ds, fs, cf, m, jr, cn, ev, el, rfl⟩ : ∃ ps ds fs cf m jr cn ev el, g = { s with
        host := x.host, ports := ps, doms := ds, faults := fs, cfg := cf, mesh := m, jrn := jr, cnt := cn
        sys := { s.sys with busy := false, portRst := none, event := ev, eventLate := el } } := ⟨_, _, _, _, _, _, _, _, _, hframe⟩
    rw [sys_idle s.sys ev el hfree hrst]
    rfl
  · rw [hframe]; exact hj.host
  · obtain ⟨hmesh, hsame⟩ := hnodes
    refine ⟨by rw [hmesh]; exact congrArg (fun m : Mesh => { m with nodes := g.mesh.nodes }) hj.mesh, fun k net => (hsame k net).trans ?_⟩
    show nodeGet y k net = _
    unfold nodeGet; rw [hj.mesh]

theorem portReset : Rules.PortReset := by
  intro s by_ raw be hc hn hroom hl hw hright hlow hhigh hkey o n d p hscope hfree hwaking hhemming halone htgt hclaimed hclaiming hrx hring hclients hbobs
  have h : KeyWritten s by_ raw be 0 := ⟨hc, hn, hroom, hw, hright, hlow, hhigh, hkey, hscope, .inl hfree⟩
  have hn64 : n < 64 := by
    have hbyte : (scopeOf s o).toNat < 256 := (scopeOf s o).isLt
    show (scopeOf s o).toNat / 4 < 64
    omega
  have hquiet : PortQuiet s n := ⟨hwaking, hhemming, halone, htgt, hclaimed, hclaiming, hrx, hring, hclients, hbobs⟩
  obtain ⟨t, hrow, hends, a, b, hstage, hdom, hanchor, hports, hdoms, hfaults, hcfg, hcounters, hsame⟩ := write_rowN (P := PortIsReset s o n)
    (sel := fun o wd v => decide (wd = .reg 6) && decide (v.extractLsb' 0 16 = 0xC1EA) && decide ((scopeOf s o).toNat % 4 = 0)) hw
    (by
      have hscope' : (scopeOf s (askOrigin s by_)).toNat % 4 = 0 := hscope
      simp [hkey, hscope']) ⟨rfl, .inl rfl⟩ (fun x req hx => by
      obtain ⟨hstage, hsame, hentry⟩ := hx.enters hn o (tidHost 6) 0xC1EA
      obtain ⟨hreset, hhost, hnodes⟩ := portRst_leaves hn64 hc hn hl hfree hquiet hx hentry hsame hstage
      have hword := reset_word req hx hroom hright hlow hhigh hkey h.waits
      obtain ⟨hmode, -⟩ := hc
      have hscopeOf := scopeOf_accessOnly hsame o
      rw [show askOrigin s by_ = o from rfl, resetStart_port (by rw [show (jOrigin x o (tidHost 6) 0xC1EA).power = s.power by rw [hsame]]; exact hmode)
        (by rw [hscopeOf]; exact hscope), hscopeOf] at hword
      exact ⟨_, hword, hhost, hnodes, hreset⟩)
    (fun g k m ⟨a, b, hstage, hdom, hanchor, hports, hdoms, hfaults, hcfg, hcounters, hsame⟩ =>
      ⟨a, b, hstage, hdom, hanchor, hports, hdoms, hfaults, hcfg, hcounters, hsame.jrn_free k m⟩)
    (fun g ⟨a, b, hstage, hdom, hanchor, hports, hdoms, hfaults, hcfg, hcounters, hsame⟩ => settle_calm (hsame.calm (calm_congr rfl rfl rfl rfl hc)))
    (fun g ⟨a, b, hstage, hdom, hanchor, hports, hdoms, hfaults, hcfg, hcounters, hsame⟩ hon => by
      unfold sysOn domOn at hon ⊢
      rw [hdoms, if_neg (by omega)]
      exact hon)
  exact ⟨t, a, b, congrArg Host.Outcome.next hrow, hends, hstage, hdom, hanchor, hports, hdoms, hfaults, hcfg, hcounters, hsame⟩

/-- Settles O53: the entry of the key first, then the scope: the chip starts up or asks the ring, SYS empties, or the port returns. -/
theorem resetsOfEachScope : Obligations.ResetsOfEachScope := ⟨chipAndRingResets, sysResets, portReset⟩

end Sys2Proof.Machine
end
